-- ==== Sys2Proof/Word.lean ====
section
/-! DEFINITION. The words of the part: bytes, 16-bit and 32-bit fields, sequence numbers, and the names of its lines and ports. -/

namespace Sys2Proof

/-- A byte of a window field, of a character or of a record (R172). -/
abbrev Byte := BitVec 8

/-- A 16-bit field: COUNT, TRANSFER LENGTH, a divisor, a time setting (R172, R183). -/
abbrev Half := BitVec 16

/-- A 32-bit field: POSITION, VALUE, a timebase reading (R5, R172). -/
abbrev Word := BitVec 32

/-- A sequence number of a line log (R2). -/
abbrev Seq := BitVec 32

/-- A console line, L0 to L15. -/
abbrev LineId := Fin 16

/-- A control port, P0 to P2. -/
abbrev PortId := Fin 3

end Sys2Proof
end

