-- ==== Sys2Proof/Syntax.lean ====
section
/-! DEFINITION. The commands of the part: one constructor per row of the opcode table. -/

namespace Sys2Proof

/-- The two levels of a console line, as seen after inversion (section 0.7). -/
inductive Level where
  | marking
  | spacing
  deriving DecidableEq, Repr

/-- The commands and events of spec/opcode_table.json. A command of a port takes its arguments from that port's command block
(R173), so its constructor names the port alone. An event of a line names the line and what the event carries. -/
inductive Instr where
  /-- Command 01h (R170). -/
  | nextCause (p : PortId)
  /-- Command 02h (R6). -/
  | readTime (p : PortId)
  /-- Command 10h (R102). -/
  | attach (p : PortId)
  /-- Command 11h (R108). -/
  | detach (p : PortId)
  /-- Command 12h (R109). -/
  | releaseWrite (p : PortId)
  /-- Command 20h (R120). -/
  | readNew (p : PortId)
  /-- Command 21h (R125). -/
  | readHistory (p : PortId)
  /-- Command 22h (R128). -/
  | countNew (p : PortId)
  /-- Command 23h (R129). -/
  | seek (p : PortId)
  /-- Command 24h (R131). -/
  | lineStatus (p : PortId)
  /-- Command 30h (R137). -/
  | send (p : PortId)
  /-- Command 31h (R142). -/
  | sendBreak (p : PortId)
  /-- Command 32h (R81). -/
  | resetLine (p : PortId)
  /-- Command 33h (R80). -/
  | enterHunt (p : PortId)
  /-- Command 40h (R61). -/
  | setLine (p : PortId)
  /-- Command 41h (R85). -/
  | setWatch (p : PortId)
  /-- Command 42h (R32). -/
  | setQuota (p : PortId)
  /-- Command 43h (R33). -/
  | clearHistory (p : PortId)
  /-- Command 44h (R34). -/
  | freeze (p : PortId)
  /-- Command 45h (R39). -/
  | thaw (p : PortId)
  /-- Command 46h (R165). -/
  | clearCondition (p : PortId)
  /-- Command 47h (R169). -/
  | rearm (p : PortId)
  /-- Command 7Fh (R179). -/
  | abort (p : PortId)
  /-- A write to COMMAND of a code that names no command (R175). -/
  | badCommand (p : PortId) (code : Byte)
  /-- A write of one byte at an argument offset, 2 to 13, of the window (R172, R173). -/
  | argumentWrite (p : PortId) (offset : BitVec 5) (byte : Byte)
  /-- A write of one byte at DATA (R177). -/
  | dataWrite (p : PortId) (byte : Byte)
  /-- A read of one byte at DATA (R176). -/
  | dataRead (p : PortId)
  /-- The fill of the port's buffer ends (R176). -/
  | fillEnd (p : PortId)
  /-- The port's PORT RESET input is asserted (R180). -/
  | portReset (p : PortId)
  /-- The port's PORT RESET input is released (R180). -/
  | portResetRelease (p : PortId)
  /-- Power-up or the RESET input, with the straps sampled at its end: bit 1 strap 1, bit 0 strap 0 of each port (R181). -/
  | deviceReset (straps0 straps1 straps2 : BitVec 2)
  /-- One millisecond (R5). -/
  | timebaseAdvance
  /-- A character completes: data bits as sampled, the parity bit (used when the format has one) and the first stop bit,
  each true for a one at marking (R45, R46, R48). -/
  | characterComplete (l : LineId) (data : Byte) (parityBit stopBit : Bool)
  /-- The receive level changes to the one named (R47). -/
  | receiveLevelReport (l : LineId) (level : Level)
  /-- The idle timer expires (R9). -/
  | idleTimerExpiry (l : LineId)
  /-- The down timer expires (R71). -/
  | downTimerExpiry (l : LineId)
  /-- The up timer expires (R72). -/
  | upTimerExpiry (l : LineId)
  /-- The lease timer expires (R112). -/
  | leaseExpiry (l : LineId)
  /-- The hold timer expires (R156). -/
  | holdTimerExpiry (l : LineId)
  /-- The pacing timer expires in GAP (R53). -/
  | pacingGapExpiry (l : LineId)
  /-- The spacing of a break has lasted its duration (R54). -/
  | breakDurationExpiry (l : LineId)
  /-- The closing character time of a break ends (R54). -/
  | breakClosingEnd (l : LineId)
  /-- The last stop bit of a sent character ends (R53). -/
  | sendCharacterEnd (l : LineId)
  /-- The waiting SEND of the line places its next run (R139). -/
  | sendRunPlacement (l : LineId)
  /-- The waiting SEND BREAK of the line places its marker (R142). -/
  | breakMarkerPlacement (l : LineId)
  /-- A command whose effects are carried out and whose results are prepared completes (R178). -/
  | completion (p : PortId)
  /-- Half a bit time after a start edge the level is marking again (R45). -/
  | falseStart (l : LineId)
  deriving DecidableEq, Repr

/-- The codes of R175 that name a command, in the order of the opcode table. -/
def commandCodes : List Byte :=
  [0x01, 0x02, 0x10, 0x11, 0x12, 0x20, 0x21, 0x22, 0x23, 0x24, 0x30, 0x31, 0x32, 0x33,
   0x40, 0x41, 0x42, 0x43, 0x44, 0x45, 0x46, 0x47, 0x7F]

end Sys2Proof
end

