-- ==== Sys2Proof/Decode.lean ====
section
/-! DEFINITION. The reading of a command from a word of table bits. -/

namespace Sys2Proof

/-- spec/opcode_table.json gives no row a bit pattern: a command reaches the part as a byte at a window offset, a pin or an
event of a line, never as a word of table bits. So no word spells a command. -/
def decodeTableWord (_nbits _w : Nat) : Option Instr := none

end Sys2Proof
end

