-- ==== Sys2Proof/Config.lean ====
section
/-! DEFINITION. What the part fixes: sizes and intervals; and the one value the model leaves free. -/

namespace Sys2Proof.Config

/-- Pages of history memory (R25). -/
def pageCount : Nat := 2048

/-- Payload bytes of a page (R4). -/
def payload : Nat := 248

/-- Bytes of a record header, on a page and as delivered (R4, R118). -/
def header : Nat := 12

/-- Entries of a transmit queue (R133). -/
def queueSize : Nat := 64

/-- Bytes of a port buffer (R176). -/
def bufferSize : Nat := 512

/-- The refill step of a waiting SEND, before the remainder bounds it (R139). -/
def refillStep : Nat := 10

/-- Entries of a score window (R74). -/
def scoreSize : Nat := 16

/-- Largest discarded character count (R38). -/
def maxDiscardedChars : Nat := 16777215

/-- Largest discarded event count (R38). -/
def maxDiscardedEvents : Nat := 255

/-- Reference clock periods from one timebase advance to the next, by the place in the repeated five (R5). -/
def advanceInterval (phase : Fin 5) : Nat := if phase = 4 then 7372 else 7373

/-- Reference clock periods of one bit at a divisor: sixteen times the divisor (R43). -/
def bitTime (divisor : Half) : Nat := 16 * divisor.toNat

/-- DESIGN CHOICE (log 13): FREE VALUE. Whether the serializer output is marking at a moment inside a character being sent.
The rules fix it by bit timing that this model does not step; nothing constrains it here. The argument is the free index. -/
opaque serializerMarking : Nat → Bool

end Sys2Proof.Config
end

