-- ==== Sys2Proof/Machine/State.lean ====
section
/-! DEFINITION. The state of the part, block by block as section 0.4 lists the blocks, and the state after device reset. -/

namespace Sys2Proof.Machine

/-- A running timer: the timebase reading it was started at (R5), and whether an advance has found its duration reached, so
that its expiry stands (log 4). A stopped timer is none. -/
structure Timer where
  start : Word
  due : Bool
  deriving DecidableEq, Repr

/-! ## Line interface (chapter 3) -/

/-- The parity setting (R42). -/
inductive Parity where
  | noParity
  | even
  | odd
  deriving DecidableEq, Repr

/-- The format of a line: data bits, parity and stop bits (R42). -/
structure Format where
  sevenBits : Bool
  parity : Parity
  twoStops : Bool
  deriving DecidableEq, Repr

/-- One set of line settings (R42, R183). -/
structure Settings where
  enable : Bool
  divisor : Half
  format : Format
  flow : Bool
  logSent : Bool
  breakNull : Bool
  autoHunt : Bool
  inversion : Bool
  loopback : Bool
  stripPresent : Bool
  strip : Byte
  idleGap : Half
  maxLength : Byte
  pacing : Byte
  downTime : Half
  upTime : Half
  threshold : Byte
  huntList : List Half
  huntPattern : List Byte
  lease : Half
  holdTimeout : Half
  deriving DecidableEq, Repr

/-- What the model knows of the bits of a character in progress: in loopback the character that the transmitter sends with that start
edge, or the spacing of its break (R58); otherwise nothing, and the event that completes the character carries them (log 5). -/
inductive Driven where
  | carried
  | character (c : Byte)
  | spacing
  deriving DecidableEq, Repr

/-- Where the deserializer stands: waiting for the level to be marking, between characters, or in a character that it took the
start edge of at a divisor and format (R44, R45), with what is known of its bits. -/
inductive Receiver where
  | waitMarking
  | between
  | inCharacter (divisor : Half) (format : Format) (driven : Driven)
  deriving DecidableEq, Repr

/-- The line interface of a line: its settings as stored and as in force (they differ on a line that is off, R62), the receive
pin, the receive level last reported (R47) and the deserializer. -/
structure Interface where
  settings : Settings
  inForce : Settings
  pinHigh : Bool
  level : Level
  receiver : Receiver
  deriving DecidableEq, Repr

/-! ## Line condition unit (chapter 4) -/

/-- The condition state (R64). -/
inductive CondState where
  | off
  | run
  | brk
  | down
  | hunt
  deriving DecidableEq, Repr

/-- The condition events, in the order of the latch coding (R83, R182). -/
inductive CondEvent where
  | breakStart
  | breakEnd
  | lineDown
  | lineUp
  | huntStart
  | rateLocked
  | lineReset
  deriving DecidableEq, Repr

/-- The table of R64. An entry of the score window is true when it is errored. -/
structure Condition where
  state : CondState
  downTimer : Option Timer
  upTimer : Option Timer
  score : List Bool
  huntIndex : Nat
  patternProgress : Nat
  huntDiscard : Nat
  nullPending : Bool
  huntOnUp : Bool
  deriving DecidableEq, Repr

/-! ## Capture unit (chapter 1) and page pool (chapter 2) -/

/-- The kinds of a stored record (R3). GAP is never stored. -/
inductive RecordKind where
  | text
  | sent
  | event
  deriving DecidableEq, Repr

/-- A closed or written record of a line log (R3). Its length is that of its body. -/
structure LogRecord where
  seq : Seq
  time : Word
  kind : RecordKind
  cause : Byte
  detail : Byte
  body : List Byte
  deriving DecidableEq, Repr

/-- The open TEXT record (R7): its number, its time, its characters so far, and the room that was on the current page after its
header when it was opened, which bounds its capacity (R8, R10). -/
structure OpenRecord where
  seq : Seq
  time : Word
  body : List Byte
  room : Nat
  deriving DecidableEq, Repr

/-- The capture unit of a line (R1, R7, R9). -/
structure Capture where
  oldest : Seq
  next : Seq
  opened : Option OpenRecord
  idleTimer : Option Timer
  deriving DecidableEq, Repr

/-- A held page: its number, its header (R26) and the closed records on it, in order of placement (R4). The open record is on
the newest page and counts in occupied. -/
structure Page where
  number : Nat
  firstSeq : Seq
  occupied : Nat
  records : List LogRecord
  deriving DecidableEq, Repr

/-- What the pool manager holds for a line (section 0.4): the page list, oldest first, the quota, the freeze and the discard
counters. frozenDue marks a FROZEN record to be written when the group in hand is written (R36); it is clear between steps. -/
structure Pool where
  pages : List Page
  reserve : Nat
  limit : Nat
  frozen : Bool
  freezePending : Option Nat
  discardedChars : Nat
  discardedEvents : Nat
  frozenDue : Bool
  deriving DecidableEq, Repr

/-! ## Watch unit (chapter 5) -/

/-- A watch slot with its progress (R84). -/
structure WatchSlot where
  enabled : Bool
  pattern : List Byte
  close : Bool
  attention : Bool
  respond : Bool
  freeze : Bool
  always : Bool
  response : List Byte
  freezeAfter : Byte
  progress : Nat
  deriving DecidableEq, Repr

/-! ## Attachment controller (chapter 6) -/

/-- The role of an attachment (R98). -/
inductive Role where
  | watcher
  | writer
  deriving DecidableEq, Repr

/-- The attention mode, with the armed flag that FIRST mode alone has and the trigger level that LEVEL mode alone has (R98). -/
inductive Mode where
  | none
  | first (armed : Bool)
  | level (trigger : Byte)
  deriving DecidableEq, Repr

/-- An attachment (R98). The latch holds the condition events at their bits of R182. -/
structure Attachment where
  port : PortId
  role : Role
  cursor : Seq
  overtaken : Bool
  mode : Mode
  lossless : Bool
  conditionEnable : Bool
  watchEnable : Bool
  latch : BitVec 7
  deriving DecidableEq, Repr

/-- The attachment list of a line, oldest first, and its lease timer (R98). -/
structure Attachments where
  list : List Attachment
  leaseTimer : Option Timer
  deriving DecidableEq, Repr

/-! ## Transmit unit (chapters 3, 8 and 9) -/

/-- An entry of the transmit queue (R133). -/
inductive Entry where
  | character (c : Byte)
  | marker (duration : Nat) (port : PortId)
  deriving DecidableEq, Repr

/-- A flow character of the part (R56). -/
inductive FlowChar where
  | xon
  | xoff
  deriving DecidableEq, Repr

/-- The transmitter state (R51). BREAKING is breaking while the level is spacing and closing during the closing character time
(R54). A gap and a break keep the duration they were started with. -/
inductive TxState where
  | idle
  | sending (c : Byte)
  | gap (duration : Nat) (timer : Timer)
  | breaking (duration : Nat) (timer : Timer)
  | closing
  | paused
  deriving DecidableEq, Repr

/-- What the transmitter took at its last boundary: divisor, format, and the inversion and loopback at the pin (R44, R57, R58).
edgeAhead marks that the receiver, in loopback, has been told no level since, so the start edge of the work in hand is still to
come to it (log 5). -/
structure TxUse where
  divisor : Half
  format : Format
  inversion : Bool
  loopback : Bool
  edgeAhead : Bool
  deriving DecidableEq, Repr

/-- The waiting SEND or SEND BREAK of a line (R138, R142). -/
inductive Waiting where
  | send (port : PortId) (remaining : List Byte)
  | sendBreak (port : PortId) (duration : Nat)
  deriving DecidableEq, Repr

/-- The transmit unit of a line (R133, R49, R51, R56, R146). -/
structure Transmit where
  queue : List Entry
  flowSlot : Option FlowChar
  state : TxState
  inUse : TxUse
  pause : Bool
  drainMark : Option PortId
  waiting : Option Waiting
  deriving DecidableEq, Repr

/-- The hold state (R150). -/
inductive HoldState where
  | none
  | held
  | spent
  deriving DecidableEq, Repr

/-- The hold evaluation of a line (R150). evalDue marks a request to evaluate that is taken after the record or group in hand
(R153); it is clear between steps. -/
structure Hold where
  state : HoldState
  timer : Option Timer
  evalDue : Bool
  deriving DecidableEq, Repr

/-- A console line with the line blocks that serve it. -/
structure Line where
  io : Interface
  cond : Condition
  cap : Capture
  pool : Pool
  watch : Vector WatchSlot 4
  att : Attachments
  tx : Transmit
  hold : Hold
  deriving DecidableEq, Repr

/-! ## Port unit (chapters 10 and 11) -/

/-- The kinds of cause, highest priority first (R160). -/
inductive CauseKind where
  | overtaken
  | writeLost
  | condition
  | watch
  | data
  | drained
  deriving DecidableEq, Repr

/-- A pending cause. The detail is the one a WRITE LOST or WATCH cause carries, 0 for the other kinds, whose detail is worked
out at the report (R162 to R167). -/
structure Cause where
  kind : CauseKind
  line : LineId
  detail : Nat
  deriving DecidableEq, Repr

/-- The error codes (R174). -/
inductive ErrorCode where
  | none
  | badCommand
  | badLine
  | badArgument
  | notAttached
  | noControl
  | notWriter
  | writerBusy
  | lowerPrecedence
  | overtaken
  | writeLost
  | lineOff
  | quota
  | frozen
  | aborted
  deriving DecidableEq, Repr

/-- What a completion writes: the error code, and the result fields that the command names (R178). -/
structure Results where
  code : ErrorCode := .none
  line : Option Byte := none
  option : Option Byte := none
  count : Option Half := none
  position : Option Word := none
  value : Option Word := none
  deriving DecidableEq, Repr

/-- A data-in command in flight. readNew: the line, the end sequence number, the maximum (0 for none), the records delivered and
the missing records of its GAPs so far (R120 to R123). readHistory: the line, the position, the end sequence number, COUNT as
given and the records delivered (R125 to R127). lineStatus: the record worked out when it was taken (R131). -/
inductive DataIn where
  | readNew (line : LineId) (stop : Seq) (maximum delivered missing : Nat)
  | readHistory (line : LineId) (position stop : Seq) (count delivered : Nat)
  | lineStatus (record : List Byte)
  deriving DecidableEq, Repr

/-- A delivered record or GAP in a port buffer: the offset after its last byte, the sequence number the place moves to when that
byte is read, and the missing records when it is a GAP (R122). -/
structure Item where
  stop : Nat
  next : Seq
  gap : Option Nat
  deriving DecidableEq, Repr

/-- A data-out command in its data phase (R177). -/
inductive DataOut where
  | send (line : LineId) (count : Nat)
  | setLine (line : LineId)
  | setWatch (line : LineId) (slot : Fin 4)
  deriving DecidableEq, Repr

/-- The command phase of a port (section 11.2). BUSY is set in completing, filling and waiting; DATA-READY in reading and
writing; neither in idle (R174, R175). completing holds the results awaiting COMPLETION, reading the records not yet read
whole, waiting the line whose transmit unit holds the port's SEND or SEND BREAK. -/
inductive Phase where
  | idle
  | completing (results : Results)
  | filling (command : DataIn)
  | reading (command : DataIn) (items : List Item)
  | writing (command : DataOut)
  | waiting (line : LineId)
  deriving DecidableEq, Repr

/-- A port unit (section 11). -/
structure Port where
  precedence : Nat
  resetAsserted : Bool
  pointer : BitVec 5
  shiftedOut : Byte
  line : Byte
  option : Byte
  count : Half
  position : Word
  value : Word
  transferLength : Nat
  error : ErrorCode
  errorFlag : Bool
  dataIn : Bool
  collision : Bool
  phase : Phase
  buffer : List Byte
  readPoint : Nat
  causes : List Cause
  deriving DecidableEq, Repr

/-! ## The whole part -/

/-- The part. pending is the queue of commands still to be taken (log 1); freeIndex picks fresh free values (log 13). -/
structure State where
  pending : List Instr
  timebase : Word
  advancePhase : Fin 5
  freeIndex : Nat
  freePages : List Nat
  lines : Vector Line 16
  ports : Vector Port 3
  deriving DecidableEq, Repr

/-- The part has no fault: an error is a code at the port that issued the command (R174), so no step stops with one. -/
inductive Fault where
  deriving DecidableEq, Repr

/-- Why a command is turned away. -/
inductive Refusal where
  /-- Raised by an arm of exec for a command that has no meaning yet. Safe: the model stops where the part goes on. -/
  | notModelled (mnemonic : String)
  deriving DecidableEq, Repr

/-- The line settings at device reset (R42). -/
def Settings.atReset : Settings where
  enable := true
  divisor := 48
  format := { sevenBits := false, parity := .noParity, twoStops := false }
  flow := false
  logSent := true
  breakNull := true
  autoHunt := false
  inversion := false
  loopback := false
  stripPresent := false
  strip := 0
  idleGap := 20
  maxLength := 120
  pacing := 0
  downTime := 2000
  upTime := 100
  threshold := 6
  huntList := [48, 12, 4, 2]
  huntPattern := [0x0D]
  lease := 0
  holdTimeout := 5000

/-- A watch slot at device reset (R84). -/
def WatchSlot.atReset : WatchSlot where
  enabled := false
  pattern := []
  close := false
  attention := false
  respond := false
  freeze := false
  always := false
  response := []
  freezeAfter := 0
  progress := 0

/-- A line at device reset, with its receive pin at the level given (R1, R25, R29, R38, R42, R64, R84, R98, R133, R150). With the
inversion off, a high pin is marking (R57). The level in force is reported as the receiver starts watching (R47), so a spacing
level starts the down timer at timebase 0 (R64, R70), and the receiver waits for marking (R45). -/
def Line.atReset (pinHigh : Bool) : Line where
  io :=
    { settings := Settings.atReset, inForce := Settings.atReset, pinHigh := pinHigh
      level := if pinHigh then .marking else .spacing
      receiver := if pinHigh then .between else .waitMarking }
  cond :=
    { state := .run, downTimer := if pinHigh then none else some { start := 0, due := false }, upTimer := none, score := []
      huntIndex := 0, patternProgress := 0, huntDiscard := 0, nullPending := false, huntOnUp := false }
  cap := { oldest := 1, next := 1, opened := none, idleTimer := none }
  pool :=
    { pages := [], reserve := 32, limit := 512, frozen := false, freezePending := none
      discardedChars := 0, discardedEvents := 0, frozenDue := false }
  watch := Vector.replicate 4 WatchSlot.atReset
  att := { list := [], leaseTimer := none }
  tx :=
    { queue := [], flowSlot := none, state := .idle
      inUse :=
        { divisor := Settings.atReset.divisor, format := Settings.atReset.format, inversion := false, loopback := false
          edgeAhead := false }
      pause := false, drainMark := none, waiting := none }
  hold := { state := .none, timer := none, evalDue := false }

/-- A port at the end of device reset, with the precedence its straps give (R160, R181). The state of the PORT RESET input is
kept; pointer and output byte are DESIGN CHOICE 0 (log 6). -/
def Port.atReset (precedence : Nat) (resetAsserted : Bool) : Port where
  precedence := precedence
  resetAsserted := resetAsserted
  pointer := 0
  shiftedOut := 0
  line := 0
  option := 0
  count := 0
  position := 0
  value := 0
  transferLength := 0
  error := .none
  errorFlag := false
  dataIn := false
  collision := false
  phase := .idle
  buffer := []
  readPoint := 0
  causes := []

/-- The part right after device reset: every block at the reset value its rule gives (R181), every page free in the order of its
number (R25). DESIGN CHOICE (log 6): the straps low, the receive pins high, PORT RESET not asserted. -/
def State.reset : State where
  pending := []
  timebase := 0
  advancePhase := 0
  freeIndex := 0
  freePages := List.range Config.pageCount
  lines := Vector.replicate 16 (Line.atReset true)
  ports := Vector.replicate 3 (Port.atReset 0 false)

end Sys2Proof.Machine
end

