-- ==== Sys2Proof/Machine/Ops.lean ====
section
/-! DEFINITION. The named operations everything else is built from: bytes, sequence numbers, timers, access to lines, ports and
attachments, and the cause sets. -/

namespace Sys2Proof.Machine

/-! ## Bytes, little-endian (R172, R182) -/

/-- The low byte of a number. -/
def byteOf (n : Nat) : Byte := BitVec.ofNat 8 n

/-- A number as bytes, lowest first. -/
def bytesLE : Nat → Nat → List Byte
  | 0, _ => []
  | k + 1, n => byteOf n :: bytesLE k (n / 256)

/-- The number that bytes spell, lowest first. -/
def natLE : List Byte → Nat
  | [] => 0
  | b :: bs => b.toNat + 256 * natLE bs

/-- A word with the byte at a place replaced, place 0 lowest (R172). -/
def setByte {w : Nat} (x : BitVec w) (place : Nat) (b : Byte) : BitVec w :=
  (x &&& ~~~(BitVec.ofNat w (255 <<< (8 * place)))) ||| BitVec.ofNat w (b.toNat <<< (8 * place))

/-- A count in COUNT, at most 65535 (R126, R128, R169). -/
def countHalf (n : Nat) : Half := BitVec.ofNat 16 (min n 65535)

/-! ## Sequence numbers (R2 and section 0.8) -/

/-- The number given after a sequence number: 1 follows 4 294 967 295, and 0 is not given (R2). -/
def nextSeq (q : Seq) : Seq := if q = 0xFFFFFFFF#32 then 1 else q + 1

/-- How many numbers are given from one sequence number up to, and not including, another: 0 is skipped (R2, R118). -/
def seqDist (a b : Seq) : Nat := if a ≤ b then b.toNat - a.toNat else 4294967295 - a.toNat + b.toNat

/-- A sequence number lies below another: it was given earlier (section 0.8), by fewer than 2 147 483 648 numbers (R125; log 14). -/
def seqBelow (a b : Seq) : Bool := decide (0 < seqDist a b ∧ seqDist a b < 2147483648)

/-- A sequence number stands in the log of a line: at or above the oldest and at or below the next. A cursor, a position or an end
that the log has passed does not, however many records have left since (R114, R121; log 14). -/
def Line.inLog (ln : Line) (q : Seq) : Bool := decide (seqDist ln.cap.oldest q ≤ seqDist ln.cap.oldest ln.cap.next)

/-! ## Timers (R5) -/

/-- Time elapsed on the timebase, modulo 2^32 (section 0.8). -/
def elapsed (now start : Word) : Nat := (now - start).toNat

/-- A timer started at a reading (R5). -/
def startTimer (now : Word) : Timer := { start := now, due := false }

/-- A running timer at an advance: due once the elapsed time is at least the duration (R5). -/
def tickTimer (now : Word) (duration : Nat) (t : Timer) : Timer :=
  { t with due := t.due || decide (duration ≤ elapsed now t.start) }

/-- A running timer when its setting changes: it keeps its reading, and an expiry that stood still stands only if the new
duration has been reached (R9, R73, R111, R156; log 29). -/
def retimeTimer (now : Word) (duration : Nat) (t : Timer) : Timer :=
  { t with due := t.due && decide (duration ≤ elapsed now t.start) }

/-- The expiry of a timer stands: it runs, and an advance has found it due (log 4). -/
def timerDue : Option Timer → Bool
  | none => false
  | some t => t.due

/-! ## Lines and ports -/

/-- A line of the part. -/
def State.line (s : State) (l : LineId) : Line := s.lines[l.val]

/-- The state with one line changed. -/
def State.modLine (s : State) (l : LineId) (f : Line → Line) : State :=
  { s with lines := s.lines.set l.val (f (s.line l)) }

/-- A port of the part. -/
def State.port (s : State) (p : PortId) : Port := s.ports[p.val]

/-- The state with one port changed. -/
def State.modPort (s : State) (p : PortId) (f : Port → Port) : State :=
  { s with ports := s.ports.set p.val (f (s.port p)) }

/-- The state with the line interface of a line changed. -/
def State.modIo (s : State) (l : LineId) (f : Interface → Interface) : State :=
  s.modLine l fun x => { x with io := f x.io }

/-- The state with the line condition unit of a line changed. -/
def State.modCond (s : State) (l : LineId) (f : Condition → Condition) : State :=
  s.modLine l fun x => { x with cond := f x.cond }

/-- The state with the pool manager's part of a line changed. -/
def State.modPool (s : State) (l : LineId) (f : Pool → Pool) : State :=
  s.modLine l fun x => { x with pool := f x.pool }

/-- The state with the transmit unit of a line changed. -/
def State.modTx (s : State) (l : LineId) (f : Transmit → Transmit) : State :=
  s.modLine l fun x => { x with tx := f x.tx }

/-- The state with the hold evaluation of a line changed. -/
def State.modHold (s : State) (l : LineId) (f : Hold → Hold) : State :=
  s.modLine l fun x => { x with hold := f x.hold }

/-- The state with the attachment list or lease timer of a line changed. -/
def State.modAtt (s : State) (l : LineId) (f : Attachments → Attachments) : State :=
  s.modLine l fun x => { x with att := f x.att }

/-- The line that a LINE field names, 0 to 15 (every command's first check). -/
def lineOf (b : Byte) : Option LineId := if h : b.toNat < 16 then some ⟨b.toNat, h⟩ else none

/-- An action for each port, in order. Where it acts on a port's attachment, a port without one is passed over by the action. -/
def eachPort (f : State → PortId → State) (s : State) : State := f (f (f s 0) 1) 2

/-! ## Attachments (R98, R100) -/

/-- The port's attachment on a line. -/
def Line.attachment (ln : Line) (p : PortId) : Option Attachment := ln.att.list.find? fun a => a.port = p

/-- The port of the line's writer, if the line has one. -/
def Line.writer (ln : Line) : Option PortId := (ln.att.list.find? fun a => a.role = .writer).map (·.port)

/-- The port holds the control right on the line: it is the writer, or the line has none (R100). -/
def Line.hasControl (ln : Line) (p : PortId) : Bool :=
  match ln.writer with
  | none => true
  | some w => decide (w = p)

/-- The state with the port's attachment on a line changed, if there is one. -/
def State.modAttachment (s : State) (l : LineId) (p : PortId) (f : Attachment → Attachment) : State :=
  s.modAtt l fun t => { t with list := t.list.map fun a => if a.port = p then f a else a }

/-! ## Unread records (R117) -/

/-- The closed records of a line, oldest first. -/
def Line.closed (ln : Line) : List LogRecord := ln.pool.pages.flatMap (·.records)

/-- The unread records of an attachment: the closed records from its cursor, or from the oldest while its overtaken mark is set. -/
def Line.unreadRecords (ln : Line) (a : Attachment) : List LogRecord :=
  if a.overtaken then ln.closed else ln.closed.drop (seqDist ln.cap.oldest a.cursor)

/-- The unread count of an attachment. -/
def Line.unread (ln : Line) (a : Attachment) : Nat := (ln.unreadRecords a).length

/-! ## Cause sets (R160 to R168) -/

/-- The code of a kind, which is also its priority (R160). -/
def CauseKind.code : CauseKind → Nat
  | .overtaken => 1
  | .writeLost => 2
  | .condition => 3
  | .watch => 4
  | .data => 5
  | .drained => 6

/-- The place of a cause in the order of reporting: by priority, then by line (R170). -/
def Cause.rank (c : Cause) : Nat := 16 * c.kind.code + c.line.val

/-- A cause set, in the order of reporting, with a cause posted. A pair already in the set keeps its cause (R160). -/
def postCause (c : Cause) : List Cause → List Cause
  | [] => [c]
  | d :: ds => if c.rank < d.rank then c :: d :: ds else if c.rank = d.rank then d :: ds else d :: postCause c ds

/-- A cause set without the cause of a kind for a line. -/
def dropCause (k : CauseKind) (l : LineId) (cs : List Cause) : List Cause :=
  cs.filter fun c => !(decide (c.kind = k) && decide (c.line = l))

/-- A cause posted at a port (R160). -/
def State.post (s : State) (p : PortId) (k : CauseKind) (l : LineId) (detail : Nat) : State :=
  s.modPort p fun x => { x with causes := postCause { kind := k, line := l, detail := detail } x.causes }

/-- A cause removed from a port's set. -/
def State.unpost (s : State) (p : PortId) (k : CauseKind) (l : LineId) : State :=
  s.modPort p fun x => { x with causes := dropCause k l x.causes }

/-- The DATA cause of a LEVEL attachment, worked out from the unread count: held exactly at or above the trigger level (R167). -/
def levelData (l : LineId) (s : State) (p : PortId) : State :=
  match (s.line l).attachment p with
  | none => s
  | some a =>
    match a.mode with
    | .level trigger => if trigger.toNat ≤ (s.line l).unread a then s.post p .data l 0 else s.unpost p .data l
    | .first _ | .none => s

/-- A mode with its armed flag, if it has one, clear (R166). -/
def Mode.disarmed : Mode → Mode
  | .first _ => .first false
  | .none => .none
  | .level trigger => .level trigger

/-- The DATA cause of an attachment at a completion: FIRST posts once while armed and unread records stand (R166), LEVEL is
worked out again (R167). -/
def completionData (l : LineId) (s : State) (p : PortId) : State :=
  match (s.line l).attachment p with
  | none => s
  | some a =>
    match a.mode with
    | .level _ => levelData l s p
    | .first true =>
      if 0 < (s.line l).unread a then (s.post p .data l 0).modAttachment l p fun x => { x with mode := x.mode.disarmed } else s
    | .first false | .none => s

/-- The overtaken mark of a port's attachment cleared, with its OVERTAKEN cause (R114, R162). -/
def clearOvertaken (s : State) (l : LineId) (p : PortId) : State :=
  (s.modAttachment l p fun a => { a with overtaken := false }).unpost p .overtaken l

/-! ## Completion of a command at its port (R178) -/

/-- A port at the completion of its command: BUSY, DATA-READY and DATA-IN clear, the buffer is empty, ERROR and the ERROR flag
take the code, and the result fields that are named take their values. -/
def Port.complete (r : Results) (x : Port) : Port :=
  { x with
    phase := .idle, dataIn := false, transferLength := 0, buffer := [], readPoint := 0
    error := r.code, errorFlag := decide (r.code ≠ .none)
    line := r.line.getD x.line, option := r.option.getD x.option, count := r.count.getD x.count
    position := r.position.getD x.position, value := r.value.getD x.value }

/-- The command of a port completes (R178). -/
def completeCommand (s : State) (p : PortId) (r : Results) : State := s.modPort p (Port.complete r)

/-- The effects of a command are carried out and its results prepared; BUSY shows until COMPLETION (section 11.2, log 7). -/
def prepare (s : State) (p : PortId) (r : Results) : State :=
  s.modPort p fun x => { x with phase := .completing r }

/-- A check fails: the command is to complete with its code, and no field is named as a result (R175). -/
def failCheck (s : State) (p : PortId) (code : ErrorCode) : State := prepare s p { code := code }

end Sys2Proof.Machine
end

