-- ==== Sys2Proof/Machine/Flags.lean ====
section
/-! DEFINITION. STATUS, the window as a master reads it, and the taking of a command. -/

namespace Sys2Proof.Machine

/-- BUSY (R174, R175): a command is taken and neither in a data phase nor complete. -/
def Port.busy (x : Port) : Bool :=
  match x.phase with
  | .completing _ | .filling _ | .waiting _ => true
  | .idle | .reading _ _ | .writing _ => false

/-- DATA-READY (R174, R175): a data phase is in hand. -/
def Port.dataReady (x : Port) : Bool :=
  match x.phase with
  | .reading _ _ | .writing _ => true
  | .idle | .completing _ | .filling _ | .waiting _ => false

/-- The port is idle: BUSY and DATA-READY both clear (R173). -/
def Port.idle (x : Port) : Bool := !x.busy && !x.dataReady

/-- The ATTENTION output, and the flag that reads it: asserted exactly while the cause set is non-empty (R161). -/
def Port.attention (x : Port) : Bool := !x.causes.isEmpty

/-- STATUS: bit 0 BUSY, 1 DATA-READY, 2 DATA-IN, 3 ERROR, 4 ATTENTION, 5 COLLISION; bits 6 and 7 read 0 (R174). -/
def Port.status (x : Port) : Byte :=
  byteOf (x.busy.toNat + 2 * x.dataReady.toNat + 4 * x.dataIn.toNat + 8 * x.errorFlag.toNat + 16 * x.attention.toNat
    + 32 * x.collision.toNat)

/-- The error codes (R174). -/
def ErrorCode.code : ErrorCode → Byte
  | .none => 0x00
  | .badCommand => 0x01
  | .badLine => 0x02
  | .badArgument => 0x03
  | .notAttached => 0x04
  | .noControl => 0x05
  | .notWriter => 0x06
  | .writerBusy => 0x07
  | .lowerPrecedence => 0x08
  | .overtaken => 0x09
  | .writeLost => 0x0A
  | .lineOff => 0x0B
  | .quota => 0x0C
  | .frozen => 0x0D
  | .aborted => 0x0E

/-- The offset pointer after a byte at an offset: one on, but for DATA and offset 31, where it stays (R172). -/
def nextOffset (offset : BitVec 5) : BitVec 5 := if offset = 16 ∨ offset = 31 then offset else offset + 1

/-- The byte a master would read next at DATA: the byte at the read point in a data-in phase, 00h otherwise (R173, R176). -/
def Port.dataByte (x : Port) : Byte :=
  match x.phase with
  | .reading _ _ => x.buffer.getD x.readPoint 0
  | .idle | .completing _ | .filling _ | .writing _ | .waiting _ => 0

/-- The bytes of offsets 0 to 15 of the window (R172). -/
def Port.windowBytes (x : Port) : List Byte :=
  [x.status, x.error.code, x.line, x.option] ++ bytesLE 2 x.count.toNat ++ bytesLE 4 x.position.toNat
    ++ bytesLE 4 x.value.toNat ++ bytesLE 2 x.transferLength

/-- What a read of a window offset hands out (R172). A port in PORT RESET shifts out 00h (R180). Reading offsets 0 to 15 changes
nothing; a read of DATA is the command DATA_READ. -/
def windowRead (s : State) (p : PortId) (offset : BitVec 5) : Byte :=
  if (s.port p).resetAsserted then 0
  else if offset = 16 then (s.port p).dataByte else (s.port p).windowBytes.getD offset.toNat 0

/-- A command is taken by an idle port: COLLISION and the ERROR flag clear, ERROR becomes NONE, BUSY is set, and DATA-IN is set
for a data-in command (R174, R175). The write was at offset 0 (R172). The command's own rule then acts. -/
def beginCommand (s : State) (p : PortId) (dataIn : Bool) : State :=
  s.modPort p fun x =>
    { x with
      collision := false, errorFlag := false, error := .none, dataIn := dataIn, phase := .completing {}
      pointer := nextOffset 0 }

/-- A write of COMMAND with a code other than ABORT: ignored in PORT RESET (R180), discarded with COLLISION by a port that is not
idle, and taken otherwise (R175). -/
def takeCommand (s : State) (p : PortId) (dataIn : Bool) (act : State → State) : State :=
  if (s.port p).resetAsserted then s
  else if (s.port p).idle then act (beginCommand s p dataIn)
  else s.modPort p fun x => { x with collision := true, pointer := nextOffset 0 }

/-- The first check of every line command: LINE above 15 ends it with BAD LINE. -/
def withLine (s : State) (p : PortId) (act : LineId → State) : State :=
  match lineOf (s.port p).line with
  | none => failCheck s p .badLine
  | some l => act l

end Sys2Proof.Machine
end

