-- ==== Sys2Proof/Machine/Operands.lean ====
section
/-! DEFINITION. The forms in which a master hands values to the part and takes them from it: ATTACH's flags, the line settings
record, the watch slot record, delivered records and the line status record; and the bits of a character on the line. -/

namespace Sys2Proof.Machine

/-! ## Characters on the line (R43, R46, R53) -/

/-- The character time in reference clock periods: start bit, data bits, parity bit if any, stop bits (R43). -/
def characterTime (divisor : Half) (f : Format) : Nat :=
  Config.bitTime divisor
    * (1 + (if f.sevenBits then 7 else 8) + (if f.parity = .noParity then 0 else 1) + (if f.twoStops then 2 else 1))

/-- The data bits of a format, least significant first. -/
def dataBits (f : Format) (c : Byte) : List Bool :=
  (List.range (if f.sevenBits then 7 else 8)).map c.getLsbD

/-- The data value of a character: with 7 data bits its top bit is 0 (R46). -/
def dataValue (f : Format) (c : Byte) : Byte := if f.sevenBits then c &&& 0x7F else c

/-- The count of ones of the data bits is odd. -/
def oddOnes (f : Format) (c : Byte) : Bool := (dataBits f c).foldl xor false

/-- The parity bit that the format gives a character: EVEN makes the count of ones even, ODD makes it odd (R46, R53). -/
def parityBit (f : Format) (c : Byte) : Bool :=
  match f.parity with
  | .noParity => false
  | .even => oddOnes f c
  | .odd => !oddOnes f c

/-- The bits that SENDING drives, true for marking: start bit, data bits least significant first, parity bit when the format has
one, stop bits (R53). Each lasts one bit time. -/
def frameBits (f : Format) (c : Byte) : List Bool :=
  [false] ++ dataBits f c ++ (if f.parity = .noParity then [] else [parityBit f c])
    ++ List.replicate (if f.twoStops then 2 else 1) true

/-- A completed character: its data value and its marks (R46). -/
structure Received where
  value : Byte
  framing : Bool
  parity : Bool
  deriving DecidableEq, Repr

/-- The character that sampled bits make: FRAMING when the first stop bit is spacing, PARITY when the format has parity and the
parity bit disagrees (R46). -/
def receivedCharacter (f : Format) (data : Byte) (parity stop : Bool) : Received where
  value := dataValue f data
  framing := !stop
  parity := decide (f.parity ≠ .noParity) && (parity != parityBit f data)

/-- An errored character (R46). -/
def Received.errored (r : Received) : Bool := r.framing || r.parity

/-- A break candidate: all data bits zero, with the FRAMING mark (R46). -/
def Received.candidate (r : Received) : Bool := decide (r.value = 0) && r.framing

/-- The marks as the detail of a one-character ERROR record: FRAMING 01h, PARITY 02h (R3). -/
def Received.detail (r : Received) : Byte := byteOf (r.framing.toNat + 2 * r.parity.toNat)

/-- The code of a flow character: XON 11h, XOFF 13h (section 0.7). -/
def FlowChar.code : FlowChar → Byte
  | .xon => 0x11
  | .xoff => 0x13

/-! ## Event codes (R17) and condition latch bits (R182) -/

/-- The events of a line log (R17). -/
inductive Event where
  | breakStart
  | breakEnd
  | lineDown
  | lineUp
  | huntStart
  | rateLocked
  | formatSet
  | lineReset
  | lineOff
  | lineOn
  | writerSet
  | breakSent
  | responseSent
  | responseSkipped
  | holdStart
  | holdEnd
  | holdTimeout
  | frozen
  | thawed
  | cleared
  deriving DecidableEq, Repr

/-- The code of an event (R17). -/
def Event.code : Event → Byte
  | .breakStart => 0x01
  | .breakEnd => 0x02
  | .lineDown => 0x03
  | .lineUp => 0x04
  | .huntStart => 0x05
  | .rateLocked => 0x06
  | .formatSet => 0x07
  | .lineReset => 0x08
  | .lineOff => 0x09
  | .lineOn => 0x0A
  | .writerSet => 0x10
  | .breakSent => 0x11
  | .responseSent => 0x12
  | .responseSkipped => 0x13
  | .holdStart => 0x20
  | .holdEnd => 0x21
  | .holdTimeout => 0x22
  | .frozen => 0x30
  | .thawed => 0x31
  | .cleared => 0x32

/-- The event record of a condition event (R83). -/
def CondEvent.event : CondEvent → Event
  | .breakStart => .breakStart
  | .breakEnd => .breakEnd
  | .lineDown => .lineDown
  | .lineUp => .lineUp
  | .huntStart => .huntStart
  | .rateLocked => .rateLocked
  | .lineReset => .lineReset

/-- The latch bit of a condition event (R182). -/
def CondEvent.bit : CondEvent → BitVec 7
  | .breakStart => 0x01
  | .breakEnd => 0x02
  | .lineDown => 0x04
  | .lineUp => 0x08
  | .huntStart => 0x10
  | .rateLocked => 0x20
  | .lineReset => 0x40

/-- The close causes of a TEXT record (R12). -/
inductive CloseCause where
  | idle
  | full
  | page
  | watch
  | error
  | event
  | sent
  | read
  deriving DecidableEq, Repr

/-- The value of a close cause (R12). -/
def CloseCause.code : CloseCause → Byte
  | .idle => 1
  | .full => 2
  | .page => 3
  | .watch => 4
  | .error => 5
  | .event => 6
  | .sent => 7
  | .read => 8

/-- The reasons of WRITER SET (R17, R110). -/
inductive WriterReason where
  | attach
  | take
  | release
  | lease
  | detach
  | portReset
  deriving DecidableEq, Repr

/-- The value of a reason of WRITER SET (R17). -/
def WriterReason.code : WriterReason → Byte
  | .attach => 1
  | .take => 2
  | .release => 3
  | .lease => 4
  | .detach => 5
  | .portReset => 6

/-- A port, or none, as a byte: 0, 1, 2 or FFh (R110, R184). -/
def portByte : Option PortId → Byte
  | none => 0xFF
  | some p => byteOf p.val

/-! ## ATTACH (R102, R182) -/

/-- The arguments of ATTACH. -/
structure AttachArgs where
  writer : Bool
  take : Bool
  flush : Bool
  lossless : Bool
  fromOldest : Bool
  conditionEnable : Bool
  watchEnable : Bool
  modeCode : Nat
  trigger : Byte
  deriving DecidableEq, Repr

/-- ATTACH's flags from OPTION, bit 7 not examined; the trigger level and the attention mode from COUNT (R182). -/
def attachArgs (option : Byte) (count : Half) : AttachArgs where
  writer := option.getLsbD 0
  take := option.getLsbD 1
  flush := option.getLsbD 2
  lossless := option.getLsbD 3
  fromOldest := option.getLsbD 4
  conditionEnable := option.getLsbD 5
  watchEnable := option.getLsbD 6
  modeCode := count.toNat / 256
  trigger := byteOf count.toNat

/-- Check 2 of R102: a mode code above 2, LEVEL with trigger level 0, take without writer, flush without take. -/
def AttachArgs.bad (a : AttachArgs) : Bool :=
  decide (2 < a.modeCode) || (decide (a.modeCode = 2) && decide (a.trigger = 0)) || (a.take && !a.writer) || (a.flush && !a.take)

/-- The attention mode of an ATTACH, armed in FIRST (R102, R103, R104). -/
def AttachArgs.mode (a : AttachArgs) : Mode :=
  if a.modeCode = 0 then .none else if a.modeCode = 1 then .first true else .level a.trigger

/-! ## The line settings record (R183) -/

/-- A byte of a record, 0 past its end. -/
def byteAt (bs : List Byte) (i : Nat) : Byte := bs.getD i 0

/-- A 16-bit field of a record. -/
def halfAt (bs : List Byte) (i : Nat) : Half := BitVec.ofNat 16 (natLE [byteAt bs i, byteAt bs (i + 1)])

/-- Length of the line settings record. -/
def settingsLength : Nat := 34

/-- The format byte (R183). -/
def Format.code (f : Format) : Byte :=
  byteOf ((match f.parity with | .noParity => 0 | .even => 1 | .odd => 2) + 4 * f.sevenBits.toNat + 8 * f.twoStops.toNat)

/-- A format byte read; none for a coded value outside its codes (R183). -/
def formatOf (b : Byte) : Option Format :=
  if 16 ≤ b.toNat then none
  else
    match b.toNat % 4 with
    | 0 => some { sevenBits := b.getLsbD 2, parity := .noParity, twoStops := b.getLsbD 3 }
    | 1 => some { sevenBits := b.getLsbD 2, parity := .even, twoStops := b.getLsbD 3 }
    | 2 => some { sevenBits := b.getLsbD 2, parity := .odd, twoStops := b.getLsbD 3 }
    | _ => none

/-- The flags byte of a settings record (R183). -/
def Settings.flags (x : Settings) : Byte :=
  byteOf (x.enable.toNat + 2 * x.flow.toNat + 4 * x.logSent.toNat + 8 * x.breakNull.toNat + 16 * x.autoHunt.toNat
    + 32 * x.inversion.toNat + 64 * x.loopback.toNat + 128 * x.stripPresent.toNat)

/-- The settings as LINE STATUS returns them, 34 bytes (R183). Hunt list divisors beyond the count and the second byte of a
one-character pattern are 0. -/
def Settings.encode (x : Settings) : List Byte :=
  [x.flags] ++ bytesLE 2 x.divisor.toNat ++ [x.format.code, x.strip, x.maxLength] ++ bytesLE 2 x.idleGap.toNat
    ++ [x.pacing, x.threshold] ++ bytesLE 2 x.downTime.toNat ++ bytesLE 2 x.upTime.toNat
    ++ [byteOf x.huntList.length, byteOf x.huntPattern.length]
    ++ (List.range 6).flatMap (fun i => bytesLE 2 (x.huntList.getD i 0).toNat)
    ++ [byteAt x.huntPattern 0, byteAt x.huntPattern 1] ++ bytesLE 2 x.lease.toNat ++ bytesLE 2 x.holdTimeout.toNat

/-- Every setting in the range R42 gives it. -/
def Settings.inRange (x : Settings) : Bool :=
  decide (x.divisor ≠ 0) && decide (1 ≤ x.idleGap.toNat ∧ x.idleGap.toNat ≤ 1000)
    && decide (1 ≤ x.maxLength.toNat ∧ x.maxLength.toNat ≤ 236) && decide (100 ≤ x.downTime.toNat)
    && decide (10 ≤ x.upTime.toNat ∧ x.upTime.toNat ≤ 10000) && decide (1 ≤ x.threshold.toNat ∧ x.threshold.toNat ≤ 16)
    && decide (1 ≤ x.huntList.length ∧ x.huntList.length ≤ 6) && x.huntList.all (fun d => decide (d ≠ 0))
    && decide (1 ≤ x.huntPattern.length ∧ x.huntPattern.length ≤ 2) && decide (x.lease.toNat ≤ 3600)
    && decide (100 ≤ x.holdTimeout.toNat ∧ x.holdTimeout.toNat ≤ 60000)

/-- The settings of a 34-byte record; none when a value lies outside the range R42 gives it or a coded field outside its codes,
which SET LINE refuses with BAD ARGUMENT (R61, R183). -/
def settingsOf (bs : List Byte) : Option Settings :=
  let flags := byteAt bs 0
  let huntCount := (byteAt bs 14).toNat
  let patternLength := (byteAt bs 15).toNat
  match formatOf (byteAt bs 3) with
  | none => none
  | some format =>
    if 1 ≤ huntCount ∧ huntCount ≤ 6 ∧ 1 ≤ patternLength ∧ patternLength ≤ 2 then
      let x : Settings :=
        { enable := flags.getLsbD 0, divisor := halfAt bs 1, format := format, flow := flags.getLsbD 1
          logSent := flags.getLsbD 2, breakNull := flags.getLsbD 3, autoHunt := flags.getLsbD 4
          inversion := flags.getLsbD 5, loopback := flags.getLsbD 6, stripPresent := flags.getLsbD 7, strip := byteAt bs 4
          idleGap := halfAt bs 6, maxLength := byteAt bs 5, pacing := byteAt bs 8, downTime := halfAt bs 10
          upTime := halfAt bs 12, threshold := byteAt bs 9
          huntList := (List.range huntCount).map fun i => halfAt bs (16 + 2 * i)
          huntPattern := (List.range patternLength).map fun i => byteAt bs (28 + i)
          lease := halfAt bs 30, holdTimeout := halfAt bs 32 }
      if x.inRange then some x else none
    else none

/-! ## The watch slot record (R183) -/

/-- Length of the watch slot record. -/
def watchLength : Nat := 32

/-- The slot of a 32-byte record, with progress 0 (R86); none for what SET WATCH refuses with BAD ARGUMENT (R85): flags outside
their codes, lengths out of range, no pattern with enabled on, no response with RESPOND. -/
def watchOf (bs : List Byte) : Option WatchSlot :=
  let flags := byteAt bs 0
  let patternLength := (byteAt bs 1).toNat
  let responseLength := (byteAt bs 2).toNat
  if 64 ≤ flags.toNat ∨ 12 < patternLength ∨ (patternLength = 0 ∧ flags.getLsbD 0 = true) ∨ 16 < responseLength
      ∨ (responseLength = 0 ∧ flags.getLsbD 3 = true) then none
  else
    some
      { enabled := flags.getLsbD 0
        pattern := (List.range patternLength).map fun i => byteAt bs (4 + i)
        close := flags.getLsbD 1, attention := flags.getLsbD 2, respond := flags.getLsbD 3, freeze := flags.getLsbD 4
        always := flags.getLsbD 5
        response := (List.range responseLength).map fun i => byteAt bs (16 + i)
        freezeAfter := byteAt bs 3, progress := 0 }

/-! ## Delivered records (R118, R182) -/

/-- The value of a record kind (R3). -/
def RecordKind.code : RecordKind → Byte
  | .text => 0x01
  | .sent => 0x02
  | .event => 0x03

/-- The 12 bytes of a delivered record header (R182). -/
def headerBytes (seq : Seq) (time : Word) (kind cause : Byte) (length : Nat) (detail : Byte) : List Byte :=
  bytesLE 4 seq.toNat ++ bytesLE 4 time.toNat ++ [kind, cause, byteOf length, detail]

/-- The bytes a record occupies, on a page and as delivered (R4, R118). -/
def LogRecord.size (r : LogRecord) : Nat := Config.header + r.body.length

/-- A delivered record: header and body (R118). -/
def LogRecord.bytes (r : LogRecord) : List Byte :=
  headerBytes r.seq r.time r.kind.code r.cause r.body.length r.detail ++ r.body

/-- A GAP pseudo-record: the first missing number, the time of the fill, kind 04h, and the missing count (R118). -/
def gapBytes (first : Seq) (time : Word) (missing : Nat) : List Byte :=
  headerBytes first time 0x04 0 4 0 ++ bytesLE 4 missing

/-! ## The line status record (R132, R184) -/

/-- The code of a condition state (R184). -/
def CondState.code : CondState → Byte
  | .off => 0
  | .run => 1
  | .brk => 2
  | .down => 3
  | .hunt => 4

/-- The code of a transmitter state (R184). -/
def TxState.code : TxState → Byte
  | .idle => 0
  | .sending _ => 1
  | .gap _ _ => 2
  | .breaking _ _ => 3
  | .closing => 3
  | .paused => 4

/-- The code of a hold state (R184). -/
def HoldState.code : HoldState → Byte
  | .none => 0
  | .held => 1
  | .spent => 2

/-- The receiver's divisor in use: the setting in force, or the current candidate while the line hunts (R43). -/
def Line.rxDivisor (ln : Line) : Half :=
  if ln.cond.state = .hunt then ln.io.inForce.huntList.getD ln.cond.huntIndex ln.io.inForce.divisor else ln.io.inForce.divisor

/-- The error score: the errored entries of the window (R74). -/
def Line.errorScore (ln : Line) : Nat := ln.cond.score.count true

/-- The set of ports that hold attachments, bit 0 P0, bit 1 P1, bit 2 P2 (R184). -/
def Line.attachedPorts (ln : Line) : Byte :=
  byteOf ((ln.attachment 0).isSome.toNat + 2 * (ln.attachment 1).isSome.toNat + 4 * (ln.attachment 2).isSome.toNat)

/-- The line status record, 32 bytes (R184). -/
def Line.statusRecord (ln : Line) : List Byte :=
  [ln.cond.state.code, byteOf ln.cond.huntIndex] ++ bytesLE 2 ln.rxDivisor.toNat ++ bytesLE 4 ln.cap.oldest.toNat
    ++ bytesLE 4 ln.cap.next.toNat ++ bytesLE 2 ln.pool.pages.length ++ bytesLE 2 ln.pool.limit
    ++ [byteOf ln.pool.reserve, byteOf ln.errorScore, byteOf (ln.pool.freezePending.getD 255), byteOf ln.pool.frozen.toNat]
    ++ bytesLE 3 ln.pool.discardedChars ++ [byteOf ln.pool.discardedEvents, byteOf ln.tx.queue.length, ln.tx.state.code,
      ln.hold.state.code, portByte ln.writer, ln.attachedPorts, 0, 0, 0]

end Sys2Proof.Machine
end

