-- ==== Sys2Proof/Machine/Pool.lean ====
section
/-! DEFINITION. The page pool manager: page requests, recycling, release, the report of the oldest sequence number (chapter 2). -/

namespace Sys2Proof.Machine

/-- The held count of a line (R26). -/
def Line.held (ln : Line) : Nat := ln.pool.pages.length

/-- The outstanding reserve: the sum over all lines of what the reserve exceeds the held count by (R23). -/
def State.outstanding (s : State) : Nat := (s.lines.toList.map fun ln => ln.pool.reserve - ln.held).sum

/-- A page request of the line would be given a free page (R23, step 1). The line is at risk exactly when not (R30). -/
def mayTakeFree (s : State) (l : LineId) : Bool :=
  decide ((s.line l).held < (s.line l).pool.limit)
    && (decide ((s.line l).held < (s.line l).pool.reserve) || decide (s.outstanding < s.freePages.length))

/-- A page as it is given: empty, its header cleared (R26, R27). -/
def Page.fresh (number : Nat) : Page := { number := number, firstSeq := 0, occupied := 0, records := [] }

/-- The oldest sequence number that a page list gives: the first sequence of its oldest page, or the next sequence number when
no record remains (R1, R26, R27). -/
def oldestOf (pages : List Page) (next : Seq) : Seq :=
  match pages with
  | [] => next
  | pg :: _ => if pg.occupied = 0 then next else pg.firstSeq

/-- What the pool manager reports when the oldest sequence number of a line advances: the new oldest, and how many records left the
log (R28). -/
structure OldestReport where
  oldest : Seq
  left : Word
  deriving DecidableEq, Repr

/-- The report of an advance from an old oldest sequence number: the new one, and their difference modulo 2^32 (R28). -/
def oldestReport (ln : Line) (old : Seq) : OldestReport := { oldest := ln.cap.oldest, left := ln.cap.oldest - old }

/-- A port's attachment under a report of a new oldest sequence number: passed with its mark clear, it is marked and OVERTAKEN is
posted (R114). A LEVEL DATA cause is worked out again (R167). The attachment controller compares with the reported oldest; no rule
has it use the number that left (log 31). -/
def overtakePort (report : OldestReport) (l : LineId) (s : State) (p : PortId) : State :=
  match (s.line l).attachment p with
  | none => s
  | some a =>
    if !a.overtaken && seqBelow a.cursor report.oldest then
      levelData l ((s.modAttachment l p fun x => { x with overtaken := true }).post p .overtaken l 0) p
    else levelData l s p

/-- A report taken by the attachment controller, port by port (R28, R114). -/
def reportOldest (report : OldestReport) (s : State) (l : LineId) : State := eachPort (overtakePort report l) s

/-- The log of a line has advanced from an old oldest sequence number: the report is made (R28). -/
def reportAdvance (old : Seq) (s : State) (l : LineId) : State := reportOldest (oldestReport (s.line l) old) s l

/-- A free page given to the line: its newest page, with an evaluation to follow (R23, R30). -/
def giveFree (s : State) (l : LineId) (number : Nat) (rest : List Nat) : State :=
  ({ s with freePages := rest } : State).modLine l fun x =>
    { x with
      pool := { x.pool with pages := x.pool.pages ++ [Page.fresh number] }
      hold := { x.hold with evalDue := true } }

/-- The line's oldest page moved to its newest end, cleared: its records leave, and an evaluation is to follow (R27, R30). -/
def recyclePage (s : State) (l : LineId) (oldest : Page) (rest : List Page) : State :=
  s.modLine l fun x =>
    { x with
      cap := { x.cap with oldest := oldestOf rest x.cap.next }
      pool := { x.pool with pages := rest ++ [Page.fresh oldest.number] }
      hold := { x.hold with evalDue := true } }

/-- The line's oldest page recycled as its newest, and the advance of the oldest sequence number reported (R27, R28). -/
def recycle (s : State) (l : LineId) (oldest : Page) (rest : List Page) : State :=
  reportAdvance (s.line l).cap.oldest (recyclePage s l oldest rest) l

/-- The answer to a page request: the state, and whether a page was given (R23). In the states the part reaches, a line that may
take a free page finds one on the free list, and a line that may not holds a page (R23, R29). -/
def requestPage (s : State) (l : LineId) : State × Bool :=
  match mayTakeFree s l, s.freePages with
  | true, number :: rest => (giveFree s l number rest, true)
  | _, _ =>
    if (s.line l).pool.frozen then (s, false)
    else
      match (s.line l).pool.pages with
      | [] => (s, false)
      | oldest :: rest => (recycle s l oldest rest, true)

/-- The room on the line's current page (R4); 0 when the line holds none. -/
def Line.room (ln : Line) : Nat :=
  match ln.pool.pages.getLast? with
  | none => 0
  | some pg => Config.payload - pg.occupied

/-- The capture unit makes sure of room: the current page has it, or a page is asked for (R4). -/
def ensureRoom (s : State) (l : LineId) (bytes : Nat) : State × Bool :=
  if (s.line l).pool.pages ≠ [] ∧ bytes ≤ (s.line l).room then (s, true) else requestPage s l

/-- The oldest pages of a line moved to the tail of the free list, oldest first: their records leave (R26). -/
def dropPages (s : State) (l : LineId) (count : Nat) : State :=
  let gone := ((s.line l).pool.pages.take count).map (·.number)
  let kept := (s.line l).pool.pages.drop count
  ({ s with freePages := s.freePages ++ gone } : State).modLine l fun x =>
    { x with cap := { x.cap with oldest := oldestOf kept x.cap.next }, pool := { x.pool with pages := kept } }

/-- The oldest pages of a line released, and the advance reported once, after the last of them (R26, R28). -/
def releasePages (s : State) (l : LineId) (count : Nat) : State :=
  if count = 0 then s else reportAdvance (s.line l).cap.oldest (dropPages s l count) l

/-- Characters discarded for want of a page, counted up to the largest value (R22, R38). -/
def discardChars (s : State) (l : LineId) (count : Nat) : State :=
  s.modPool l fun x => { x with discardedChars := min (x.discardedChars + count) Config.maxDiscardedChars }

/-- An event record discarded for want of a page, counted up to the largest value (R22, R38). -/
def discardEvent (s : State) (l : LineId) : State :=
  s.modPool l fun x => { x with discardedEvents := min (x.discardedEvents + 1) Config.maxDiscardedEvents }

/-- A completed record counts toward the freeze-pending count; at 0 the count is removed, the line is frozen and a FROZEN record is
due (R36). -/
def Pool.countRecord (x : Pool) : Pool :=
  match x.freezePending with
  | none => x
  | some c => if c ≤ 1 then { x with freezePending := none, frozen := true, frozenDue := true } else { x with freezePending := some (c - 1) }

/-- The FREEZE action of a slot: nothing on a frozen line; otherwise the smaller of the count and the value, absent being larger
than any; 0 freezes at once (R35, R36). -/
def Pool.freezeAction (v : Nat) (x : Pool) : Pool :=
  if x.frozen then x
  else
    let c := match x.freezePending with
      | none => v
      | some c => min v c
    if c = 0 then { x with freezePending := none, frozen := true, frozenDue := true } else { x with freezePending := some c }

end Sys2Proof.Machine
end

