-- ==== Sys2Proof/Machine/Capture.lean ====
section
/-! DEFINITION. The capture unit: placing, completing and closing records, event records and SENT records (chapter 1). -/

namespace Sys2Proof.Machine

/-- The report of a completed record, to the pool manager and to the attachment controller (R13). -/
def reportComplete (s : State) (l : LineId) : State :=
  eachPort (completionData l) (s.modPool l Pool.countRecord)

/-- A change of the line's current page, its newest (R4). -/
def onCurrentPage (f : Page → Page) : List Page → List Page
  | [] => []
  | [pg] => [f pg]
  | pg :: pgs => pg :: onCurrentPage f pgs

/-- A page with bytes taken by a record that has a sequence number; the first record sets the header's first sequence (R26). -/
def Page.take (q : Seq) (bytes : Nat) (pg : Page) : Page :=
  { pg with firstSeq := if pg.occupied = 0 then q else pg.firstSeq, occupied := pg.occupied + bytes }

/-- A page with a closed record joined at its end. -/
def Page.join (r : LogRecord) (pg : Page) : Page := { pg with records := pg.records ++ [r] }

/-- A whole record placed at the newest end of the log: it takes the next sequence number and the timebase reading (R2, R3, R4). -/
def placeRecord (s : State) (l : LineId) (kind : RecordKind) (cause detail : Byte) (body : List Byte) : State :=
  s.modLine l fun x =>
    let r : LogRecord := { seq := x.cap.next, time := s.timebase, kind := kind, cause := cause, detail := detail, body := body }
    { x with
      cap := { x.cap with next := nextSeq x.cap.next }
      pool := { x.pool with pages := onCurrentPage (fun pg => (pg.take r.seq r.size).join r) x.pool.pages } }

/-- A whole record written: room is made sure of, the record is placed and reported complete; when no page can be had it is
discarded as told (R4, R13, R22). -/
def writeRecord (s : State) (l : LineId) (kind : RecordKind) (cause detail : Byte) (body : List Byte)
    (discard : State → State) : State :=
  match ensureRoom s l (Config.header + body.length) with
  | (t, true) => reportComplete (placeRecord t l kind cause detail body) l
  | (t, false) => discard t

/-- The open record joins the closed records of the current page: its cause and detail are fixed, and the idle timer stops (R12). -/
def closeRecord (s : State) (l : LineId) (o : OpenRecord) (cause : CloseCause) (detail : Byte) : State :=
  s.modLine l fun x =>
    { x with
      cap := { x.cap with opened := none, idleTimer := none }
      pool :=
        { x.pool with
          pages := onCurrentPage
            (Page.join { seq := o.seq, time := o.time, kind := .text, cause := cause.code, detail := detail, body := o.body })
            x.pool.pages } }

/-- The open record closes and is reported complete (R12, R13). A line with no open record is left as it is. -/
def closeOpen (s : State) (l : LineId) (cause : CloseCause) (detail : Byte) : State :=
  match (s.line l).cap.opened with
  | none => s
  | some o => reportComplete (closeRecord s l o cause detail) l

/-- An event record placed with no record open: written, or discarded and counted (R16, R22). -/
def placeEvent (s : State) (l : LineId) (e : Event) (argument : List Byte) : State :=
  writeRecord s l .event e.code 0 argument fun t => discardEvent t l

/-- An event record of a group: the open record closes with EVENT and the record is written, with no FROZEN record between the
records of the group (R16, R18). -/
def groupEvent (s : State) (l : LineId) (e : Event) (argument : List Byte) : State :=
  placeEvent (closeOpen s l .event 0) l e argument

/-- The FROZEN record that a freeze-pending count at 0 asked for is written, and an evaluation asked for (R36). -/
def flushFrozen (s : State) (l : LineId) : State :=
  if (s.line l).pool.frozenDue then
    (groupEvent (s.modPool l fun x => { x with frozenDue := false }) l .frozen []).modHold l fun x => { x with evalDue := true }
  else s

/-- An event record outside a group: FROZEN follows directly the record that brought a freeze-pending count to 0, the closed
record or the event record (R16, R36; log 9). The evaluation that FROZEN asks for comes after the event record, where the close
brought the count to 0 too. DESIGN CHOICE (log 38). -/
def plainEvent (s : State) (l : LineId) (e : Event) (argument : List Byte) : State :=
  flushFrozen (placeEvent (flushFrozen (closeOpen s l .event 0) l) l e argument) l

/-- The characters of a run cut into records of at most a length (R21). The first argument bounds the number of records. -/
def runPieces : Nat → Nat → List Byte → List (List Byte)
  | 0, _, _ => []
  | _ + 1, _, [] => []
  | k + 1, m, c :: cs => (c :: cs).take m :: runPieces k m ((c :: cs).drop m)

/-- The SENT records of a run: each written, or its characters discarded and counted (R20, R21, R22). -/
def writePieces (l : LineId) (source : Byte) : List (List Byte) → State → State
  | [], s => s
  | piece :: pieces, s =>
    writePieces l source pieces (writeRecord s l .sent 0 source piece fun t => discardChars t l piece.length)

/-- The SENT records of a run under the line's maximum record length (R21). -/
def sentRecords (s : State) (l : LineId) (source : Byte) (run : List Byte) : State :=
  writePieces l source (runPieces run.length (s.line l).io.inForce.maxLength.toNat run) s

/-- A run of a watch response reaches the log, with log-sent on, inside the group of its match (R18, R20). -/
def groupSent (s : State) (l : LineId) (source : Byte) (run : List Byte) : State :=
  if (s.line l).io.inForce.logSent then sentRecords (closeOpen s l .sent 0) l source run else s

/-- A run of a SEND reaches the log, with log-sent on: FROZEN follows directly the record closed, or the run (R20, R36; log 9). The
evaluation that FROZEN asks for comes after the run in either case. DESIGN CHOICE (log 38). -/
def plainSent (s : State) (l : LineId) (source : Byte) (run : List Byte) : State :=
  if (s.line l).io.inForce.logSent then flushFrozen (sentRecords (flushFrozen (closeOpen s l .sent 0) l) l source run) l else s

/-- The capacity of the open record: the smaller of the maximum record length in force and the page room it had (R8, R10). -/
def Line.capacity (ln : Line) (o : OpenRecord) : Nat := min ln.io.inForce.maxLength.toNat o.room

/-- The open record closes at its capacity: FULL when that is the maximum record length, PAGE otherwise (R8). -/
def closeAtCapacity (s : State) (l : LineId) : State :=
  match (s.line l).cap.opened with
  | none => s
  | some o =>
    if (s.line l).capacity o ≤ o.body.length then
      closeOpen s l (if (s.line l).capacity o = (s.line l).io.inForce.maxLength.toNat then .full else .page) 0
    else s

/-- A stored character opens a TEXT record on the current page, and the idle timer starts (R7). -/
def openRecord (s : State) (l : LineId) (c : Byte) : State :=
  s.modLine l fun x =>
    { x with
      cap :=
        { x.cap with
          next := nextSeq x.cap.next
          opened := some { seq := x.cap.next, time := s.timebase, body := [c], room := x.room - Config.header }
          idleTimer := some (startTimer s.timebase) }
      pool := { x.pool with pages := onCurrentPage (Page.take x.cap.next (Config.header + 1)) x.pool.pages } }

/-- A stored character joins the open record, and the idle timer restarts (R8). -/
def appendCharacter (s : State) (l : LineId) (o : OpenRecord) (c : Byte) : State :=
  s.modLine l fun x =>
    { x with
      cap := { x.cap with opened := some { o with body := o.body ++ [c] }, idleTimer := some (startTimer s.timebase) }
      pool := { x.pool with pages := onCurrentPage (fun pg => { pg with occupied := pg.occupied + 1 }) x.pool.pages } }

/-- A stored character is placed; false when it is discarded for want of a page, counted, and not fed (R7, R8, R22). -/
def placeCharacter (s : State) (l : LineId) (c : Byte) : State × Bool :=
  match (s.line l).cap.opened with
  | some o => (appendCharacter s l o c, true)
  | none =>
    match ensureRoom s l (Config.header + 1) with
    | (t, true) => (openRecord t l c, true)
    | (t, false) => (discardChars t l 1, false)

/-- The progress of every slot of the line becomes 0 (R89). -/
def resetWatch (s : State) (l : LineId) : State :=
  s.modLine l fun x => { x with watch := x.watch.map fun w => { w with progress := 0 } }

/-- An errored character: the open record closes with ERROR, the character is written alone as an ERROR record with its marks,
and the progress of every slot is reset (R11, R22, R89). The records are one group (R18). -/
def captureErrored (s : State) (l : LineId) (r : Received) : State :=
  resetWatch
    (flushFrozen
      (writeRecord (closeOpen s l .error 0) l .text CloseCause.error.code r.detail [r.value] fun t => discardChars t l 1) l) l

end Sys2Proof.Machine
end

