-- ==== Sys2Proof/Machine/Hold.lean ====
section
/-! DEFINITION. The flow slot, the hold evaluation, and the settling of a line after its records are written (chapters 3 and 9). -/

namespace Sys2Proof.Machine

/-- What the transmitter takes at a boundary: the divisor, format, inversion and loopback in force (R44, R57, R58). In loopback the
start edge of the work that begins there is still to come to the receiver (log 5). -/
def Settings.txUse (x : Settings) : TxUse :=
  { divisor := x.divisor, format := x.format, inversion := x.inversion, loopback := x.loopback, edgeAhead := x.loopback }

/-- The transmitter waits: a start point comes when work is given to it (R52). -/
def TxState.waits : TxState → Bool
  | .idle | .paused => true
  | .sending _ | .gap _ _ | .breaking _ _ | .closing => false

/-- A flow character placed in the flow slot: dropped while the line is off, replacing one not yet taken, and taken at once by a
transmitter in IDLE or PAUSED (R52, R56). -/
def placeFlow (s : State) (l : LineId) (c : FlowChar) : State :=
  if (s.line l).cond.state = .off then s
  else if (s.line l).tx.state.waits then
    s.modLine l fun x => { x with tx := { x.tx with flowSlot := none, state := .sending c.code, inUse := x.io.inForce.txUse } }
  else s.modTx l fun x => { x with flowSlot := some c }

/-- An attachment's cursor names a record of the line's oldest page (R151). -/
def Line.onOldestPage (ln : Line) (cursor : Seq) : Bool :=
  match ln.pool.pages with
  | [] => false
  | [_] => decide (seqDist ln.cap.oldest cursor < seqDist ln.cap.oldest ln.cap.next)
  | _ :: second :: _ => decide (seqDist ln.cap.oldest cursor < seqDist ln.cap.oldest second.firstSeq)

/-- The line is protected: a lossless attachment that is not overtaken has its cursor on the oldest page (R151). -/
def Line.isProtected (ln : Line) : Bool :=
  ln.att.list.any fun a => a.lossless && !a.overtaken && ln.onOldestPage a.cursor

/-- The hold condition (R152). -/
def holdCondition (s : State) (l : LineId) : Bool :=
  (s.line l).io.inForce.flow && !(s.line l).pool.frozen && (s.line l).isProtected && !mayTakeFree s l

/-- The hold of a line ends or is left: its timer stops (R154, R156, R158, R159). -/
def leaveHold (s : State) (l : LineId) (h : HoldState) : State :=
  s.modHold l fun x => { x with state := h, timer := none }

/-- One evaluation (R154). -/
def evaluateHold (s : State) (l : LineId) : State :=
  match (s.line l).hold.state, holdCondition s l with
  | .none, true =>
    plainEvent
      (placeFlow (s.modHold l fun x => { x with state := .held, timer := some (startTimer s.timebase) }) l .xoff) l .holdStart []
  | .held, false => plainEvent (placeFlow (leaveHold s l .none) l .xon) l .holdEnd []
  | .spent, false => leaveHold s l .none
  | .none, false => s
  | .held, true => s
  | .spent, true => s

/-- The working marks of a line cleared. -/
def clearMarks (s : State) (l : LineId) : State :=
  s.modLine l fun x => { x with pool := { x.pool with frozenDue := false }, hold := { x.hold with evalDue := false } }

/-- The FROZEN record that is due is written, and the evaluations that were asked for are taken, each after the other (R36, R153,
R155). An evaluation asks for another only when its record takes a page or freezes the line, so the bound is never met (log 10). -/
def settleWithin : Nat → State → LineId → State
  | 0, s, l => clearMarks s l
  | k + 1, s, l =>
    let t := flushFrozen s l
    if (t.line l).hold.evalDue then
      settleWithin k (evaluateHold (t.modHold l fun x => { x with evalDue := false }) l) l
    else t

/-- The line settled after a record or a group of records. -/
def settle (s : State) (l : LineId) : State := settleWithin 8 s l

/-- The line's hold evaluation is asked to evaluate, and does (R153). -/
def askEvaluation (s : State) (l : LineId) : State :=
  settle (s.modHold l fun x => { x with evalDue := true }) l

/-- An event record outside a group, and the evaluations it gives rise to (R16, R153). -/
def event (s : State) (l : LineId) (e : Event) (argument : List Byte) : State := settle (plainEvent s l e argument) l

/-- A condition event is latched into every attachment of the line, and CONDITION is posted where it is enabled (R83, R164). -/
def latchEvent (e : CondEvent) (l : LineId) (s : State) (p : PortId) : State :=
  match (s.line l).attachment p with
  | none => s
  | some a =>
    let t := s.modAttachment l p fun x => { x with latch := x.latch ||| e.bit }
    if a.conditionEnable then t.post p .condition l 0 else t

/-- A condition event: latched, and its record written (R83). -/
def conditionEvent (s : State) (l : LineId) (e : CondEvent) (argument : List Byte) : State :=
  event (eachPort (latchEvent e l) s) l e.event argument

/-- A condition event whose record belongs to a group (R18, R83). -/
def groupCondition (s : State) (l : LineId) (e : CondEvent) (argument : List Byte) : State :=
  groupEvent (eachPort (latchEvent e l) s) l e.event argument

end Sys2Proof.Machine
end

