-- ==== Sys2Proof/Machine/Transmit.lean ====
section
/-! DEFINITION. The transmitter, the transmit queue and the waiting SEND or SEND BREAK (chapters 3 and 8). -/

namespace Sys2Proof.Machine

/-- The free entries of a queue (R133). -/
def Transmit.free (x : Transmit) : Nat := Config.queueSize - x.queue.length

/-- The transmitter stands at a boundary, where a change of divisor, format, inversion or loopback takes effect at once (R44). -/
def TxState.atBoundary : TxState → Bool
  | .idle | .gap _ _ | .paused => true
  | .sending _ | .breaking _ _ | .closing => false

/-- The transmitter, if it stands at a boundary, takes what is in force (R44, R57, R58). -/
def refreshTransmitter (s : State) (l : LineId) : State :=
  s.modLine l fun x => if x.tx.state.atBoundary then { x with tx := { x.tx with inUse := x.io.inForce.txUse } } else x

/-- The taking of an entry left the queue as it is: when it is empty and the drain mark holds a port, DRAINED is posted there and
the mark removed (R135, R146). -/
def testDrain (s : State) (l : LineId) : State :=
  match (s.line l).tx.queue, (s.line l).tx.drainMark with
  | [], some p => (s.post p .drained l 0).modTx l fun x => { x with drainMark := none }
  | _, _ => s

/-- The transmitter takes its next work at a start point: the flow slot, else PAUSED, else the queue head, else IDLE (R52, R135). -/
def startPoint (s : State) (l : LineId) : State :=
  let t := s.modLine l fun x => { x with tx := { x.tx with inUse := x.io.inForce.txUse } }
  match (s.line l).tx.flowSlot with
  | some c => t.modTx l fun x => { x with flowSlot := none, state := .sending c.code }
  | none =>
    if (s.line l).tx.pause then t.modTx l fun x => { x with state := .paused }
    else
      match (s.line l).tx.queue with
      | [] => t.modTx l fun x => { x with state := .idle }
      | .character c :: rest => testDrain (t.modTx l fun x => { x with queue := rest, state := .sending c }) l
      | .marker duration port :: rest =>
        event
          (testDrain
            (t.modTx l fun x => { x with queue := rest, state := .breaking duration (startTimer s.timebase) }) l)
          l .breakSent (bytesLE 2 duration ++ [byteOf port.val])

/-- Work was given to the transmitter, or the pause has ended: a start point in IDLE or PAUSED, nothing otherwise (R52, R55). -/
def kickTransmitter (s : State) (l : LineId) : State :=
  if (s.line l).tx.state.waits then startPoint s l else s

/-- The pause is set (R49): an IDLE transmitter is PAUSED at once, any other finishes its work in hand (R55). -/
def setPause (s : State) (l : LineId) : State :=
  s.modTx l fun x => { x with pause := true, state := if x.state = .idle then .paused else x.state }

/-- The pause ends (R55): a PAUSED transmitter reaches a start point. -/
def endPause (s : State) (l : LineId) : State :=
  let t := s.modTx l fun x => { x with pause := false }
  if (s.line l).tx.state = .paused then startPoint t l else t

/-- The lease timer of a line restarts, if the line has a writer and a lease (R111). -/
def restartLease (s : State) (l : LineId) : State :=
  s.modLine l fun x =>
    { x with
      att :=
        { x.att with
          leaseTimer :=
            if x.writer.isSome ∧ x.io.inForce.lease ≠ 0 then some (startTimer s.timebase) else none } }

/-- A SEND or SEND BREAK of a port places entries: they join the newest end, and the drain mark holds the port (R134, R146). -/
def placeEntries (s : State) (l : LineId) (p : PortId) (es : List Entry) : State :=
  restartLease (s.modTx l fun x => { x with queue := x.queue ++ es, drainMark := some p }) l

/-- The refill step of a waiting SEND (R139). -/
def refillStep (remaining : List Byte) : Nat := min Config.refillStep remaining.length

/-- A waiting SEND with room places its next run: the run joins the queue and is handed to the capture unit, and with none
remaining the command completes (R134, R139, R140). The placing is a start point of a waiting transmitter (R52), taken after the
evaluation that a page of the run's records asks for, so an XOFF goes out ahead of the run. DESIGN CHOICE (log 35). -/
def placeRun (s : State) (l : LineId) : State :=
  match (s.line l).tx.waiting with
  | some (.send p remaining) =>
    if refillStep remaining ≤ (s.line l).tx.free then
      let run := remaining.take (s.line l).tx.free
      let rest := remaining.drop (s.line l).tx.free
      let t := settle (plainSent (placeEntries s l p (run.map .character)) l (byteOf p.val) run) l
      let u :=
        if rest = [] then completeCommand (t.modTx l fun x => { x with waiting := none }) p { code := .none, count := some 0 }
        else t.modTx l fun x => { x with waiting := some (.send p rest) }
      kickTransmitter u l
    else s
  | some (.sendBreak _ _) | none => s

/-- A waiting SEND BREAK with room places its marker and completes (R142). -/
def placeMarker (s : State) (l : LineId) : State :=
  match (s.line l).tx.waiting with
  | some (.sendBreak p duration) =>
    if 1 ≤ (s.line l).tx.free then
      kickTransmitter
        (completeCommand ((placeEntries s l p [.marker duration p]).modTx l fun x => { x with waiting := none }) p
          { code := .none }) l
    else s
  | some (.send _ _) | none => s

/-- The waiting SEND or SEND BREAK of a line ends with a code, COUNT of a SEND holding the characters not placed (R140, R142). -/
def endWaiting (s : State) (l : LineId) (code : ErrorCode) : State :=
  match (s.line l).tx.waiting with
  | none => s
  | some (.send p remaining) =>
    completeCommand (s.modTx l fun x => { x with waiting := none }) p { code := code, count := some (countHalf remaining.length) }
  | some (.sendBreak p _) => completeCommand (s.modTx l fun x => { x with waiting := none }) p { code := code }

/-- A break in progress stops its spacing, and the closing character time follows at the divisor and format in force (R54, R136). -/
def cutBreak (x : Line) : Transmit :=
  match x.tx.state with
  | .breaking _ _ =>
    { x.tx with
      state := .closing
      inUse := { x.tx.inUse with divisor := x.io.inForce.divisor, format := x.io.inForce.format } }
  | .idle | .sending _ | .gap _ _ | .closing | .paused => x.tx

/-- The queue is emptied and the drain mark removed, and a break in progress is cut (R136, R145). -/
def emptyQueue (s : State) (l : LineId) : State :=
  s.modLine l fun x => { x with tx := { cutBreak x with queue := [], drainMark := none } }

/-- The transmit side of RESET LINE: the queue and the flow slot are emptied, a break is cut, a gap stops, and the pause ends
(R136, R144). -/
def resetTransmit (s : State) (l : LineId) : State :=
  let t := (emptyQueue s l).modTx l fun x => { x with flowSlot := none, pause := false }
  match (s.line l).tx.state with
  | .gap _ _ | .paused => startPoint t l
  | .idle | .sending _ | .breaking _ _ | .closing => t

/-- The change of writer told to the transmit unit: the drain mark is removed (R147). -/
def dropDrainMark (s : State) (l : LineId) : State := s.modTx l fun x => { x with drainMark := none }

end Sys2Proof.Machine
end

