-- ==== Sys2Proof/Machine/Watch.lean ====
section
/-! DEFINITION. The watch unit: matching and the actions on a match (chapter 5). -/

namespace Sys2Proof.Machine

/-- The longest beginning of a pattern, of at most a length, that ends a list of characters (R88). -/
def longestBeginning (pattern fed : List Byte) : Nat → Nat
  | 0 => 0
  | k + 1 => if pattern.take (k + 1) <:+ fed then k + 1 else longestBeginning pattern fed k

/-- The progress a slot reaches on a character: the longest beginning of its pattern that ends the characters fed, of which the
beginning at the old progress is all that can still count (R88). -/
def nextProgress (pattern : List Byte) (progress : Nat) (c : Byte) : Nat :=
  longestBeginning pattern (pattern.take progress ++ [c]) (progress + 1)

/-- A slot fed a character: its new state, and whether it matches. A slot that is off is not fed; a match returns the progress to
0 (R87, R88). -/
def WatchSlot.feed (c : Byte) (w : WatchSlot) : WatchSlot × Bool :=
  if w.enabled then
    if nextProgress w.pattern w.progress c = w.pattern.length then ({ w with progress := 0 }, true)
    else ({ w with progress := nextProgress w.pattern w.progress c }, false)
  else (w, false)

/-- The slots of a line that match on a character, in slot order (R87). -/
def matchingSlots (ln : Line) (c : Byte) : List (Fin 4) :=
  (List.finRange 4).filter fun i => ((ln.watch[i.val]).feed c).2

/-- Every slot of a line fed a character (R87). -/
def feedSlots (s : State) (l : LineId) (c : Byte) : State :=
  s.modLine l fun x => { x with watch := x.watch.map fun w => (w.feed c).1 }

/-- The turn of a matching slot with RESPOND: its response is queued as one run and recorded, or it is skipped with the reason
(R92, R93). -/
def respond (s : State) (l : LineId) (slot : Fin 4) : State :=
  let w := (s.line l).watch[slot.val]
  if (s.line l).writer.isSome ∧ w.always = false then groupEvent s l .responseSkipped [byteOf slot.val, 1]
  else if (s.line l).tx.free < w.response.length then groupEvent s l .responseSkipped [byteOf slot.val, 2]
  else
    groupEvent
      (groupSent (s.modTx l fun x => { x with queue := x.queue ++ w.response.map .character }) l (byteOf (16 + slot.val)) w.response)
      l .responseSent [byteOf slot.val]

/-- The turns of the matching slots with RESPOND, in slot order (R90, R94). -/
def respondAll (l : LineId) : List (Fin 4) → State → State
  | [], s => s
  | slot :: slots, s =>
    respondAll l slots (if ((s.line l).watch[slot.val]).respond then respond s l slot else s)

/-- The turns of the matching slots with FREEZE, in slot order (R90, R95). -/
def freezeAll (l : LineId) : List (Fin 4) → State → State
  | [], s => s
  | slot :: slots, s =>
    freezeAll l slots
      (if ((s.line l).watch[slot.val]).freeze then
        s.modPool l (Pool.freezeAction ((s.line l).watch[slot.val]).freezeAfter.toNat) else s)

/-- A WATCH post passed to a port whose attachment on the line has watch enable on (R91, R115). -/
def postWatch (slot : Fin 4) (l : LineId) (s : State) (p : PortId) : State :=
  match (s.line l).attachment p with
  | none => s
  | some a => if a.watchEnable then s.post p .watch l slot.val else s

/-- The lowest of the matching slots with CLOSE (R14). -/
def closingSlot (ln : Line) (slots : List (Fin 4)) : Option (Fin 4) := slots.find? fun i => (ln.watch[i.val]).close

/-- The lowest of the matching slots with ATTENTION (R91). -/
def attentionSlot (ln : Line) (slots : List (Fin 4)) : Option (Fin 4) := slots.find? fun i => (ln.watch[i.val]).attention

/-- CLOSE on a match: the open record closes with WATCH and the lowest slot with CLOSE plus one (R14). -/
def watchClose (s : State) (l : LineId) (slots : List (Fin 4)) : State :=
  match closingSlot (s.line l) slots with
  | none => s
  | some i => closeOpen s l .watch (byteOf (i.val + 1))

/-- ATTENTION on a match: one WATCH post with the lowest slot with ATTENTION (R91). -/
def watchAttention (s : State) (l : LineId) (slots : List (Fin 4)) : State :=
  match attentionSlot (s.line l) slots with
  | none => s
  | some i => eachPort (postWatch i l) s

/-- The effects of a placed character: it is fed; CLOSE; a record at its capacity closes with FULL or PAGE; RESPOND; FREEZE; the
FROZEN record that is due; ATTENTION (R8, R14, R87, R90). With no match only the capacity acts. -/
def actOnCharacter (s : State) (l : LineId) (c : Byte) : State :=
  let slots := matchingSlots (s.line l) c
  let t := closeAtCapacity (watchClose (feedSlots s l c) l slots) l
  watchAttention (flushFrozen (freezeAll l slots (respondAll l slots t)) l) l slots

/-- A stored character taken by the capture unit and the watch unit. The evaluations follow, and then the start point of a
transmitter that a response has given work to (R7, R8, R52, R87, R153). -/
def storeCharacter (s : State) (l : LineId) (c : Byte) : State :=
  match placeCharacter s l c with
  | (t, false) => settle t l
  | (t, true) =>
    let u := settle (actOnCharacter t l c) l
    if (u.line l).tx.queue = [] then u else kickTransmitter u l

end Sys2Proof.Machine
end

