-- ==== Sys2Proof/Machine/Condition.lean ====
section
/-! DEFINITION. The line condition unit: received characters, breaks, lost and returning lines, the error score and the hunt
(chapters 3 and 4), with the line events of the table that act on it. -/

namespace Sys2Proof.Machine

open Host

/-! ## The receiver (R44 to R47, R57, R58) -/

/-- The transmit level: spacing while a break is spacing, marking in IDLE, GAP, PAUSED and the closing time (R51, R54). Inside a
character it depends on bit timing that is not stepped; the argument stands for it (log 13). -/
def TxState.level (inCharacter : Level) : TxState → Level
  | .sending _ => inCharacter
  | .breaking _ _ => .spacing
  | .idle | .gap _ _ | .closing | .paused => .marking

/-- The transmit pin, true for high: the transmit level, held marking in loopback, at the polarity that inversion gives. Loopback
and inversion are those the transmitter took at its last boundary (R51, R57, R58). -/
def Line.transmitPinHigh (inCharacter : Level) (ln : Line) : Bool :=
  let level := if ln.tx.inUse.loopback then .marking else ln.tx.state.level inCharacter
  decide (level = .marking) != ln.tx.inUse.inversion

/-- The receive level: the transmit level in loopback, otherwise the pin after inversion (R45, R57, R58). -/
def Line.receiveLevel (inCharacter : Level) (ln : Line) : Level :=
  if ln.io.inForce.loopback then ln.tx.state.level inCharacter
  else if ln.io.pinHigh = ln.io.inForce.inversion then .spacing else .marking

/-- The free level of the serializer output inside a character (log 13). -/
def freeLevel (index : Nat) : Level := if Config.serializerMarking index then .marking else .spacing

/-- The receiver has been told a level: no start edge of the work in hand is ahead of it any more (log 5). -/
def Transmit.levelTold (x : Transmit) : Transmit := { x with inUse := { x.inUse with edgeAhead := false } }

/-- What is known of the bits after a start edge (R44, R45, R58). In loopback a start edge in a break begins spacing; one that is the
start bit of the character in SENDING, at the divisor and format that the receiver runs at, begins that character. The bits after any
other edge depend on where in the transmitter's work it fell (log 5). -/
def Line.edgeDrives (ln : Line) : Driven :=
  if ln.io.inForce.loopback then
    match ln.tx.state with
    | .sending c =>
      if ln.tx.inUse.edgeAhead = true ∧ ln.tx.inUse.divisor = ln.rxDivisor ∧ ln.tx.inUse.format = ln.io.inForce.format then
        .character c
      else .carried
    | .breaking _ _ => .spacing
    | .idle | .gap _ _ | .closing | .paused => .carried
  else .carried

/-- The deserializer under a report of the receive level: spacing between characters is a start edge, marking is what it waits for
after a spacing stop bit (R45), and with marking reported a character in progress is no longer all spacing. -/
def Line.receiverTold (level : Level) (ln : Line) : Receiver :=
  match level, ln.io.receiver with
  | .spacing, .between => .inCharacter ln.rxDivisor ln.io.inForce.format ln.edgeDrives
  | .marking, .waitMarking => .between
  | .marking, .inCharacter d f .spacing => .inCharacter d f .carried
  | _, r => r

/-- The receive level changes to a level and is reported (R47). -/
def Line.seeLevel (level : Level) (ln : Line) : Line :=
  { ln with io := { ln.io with level := level, receiver := ln.receiverTold level }, tx := ln.tx.levelTold }

/-- The receiver starts to watch a level afresh: a character in progress is dropped, and it waits for marking (R45, R57, R60). -/
def Line.startWatching (level : Level) (ln : Line) : Line :=
  { ln with
    io := { ln.io with level := level, receiver := match level with | .marking => .between | .spacing => .waitMarking }
    tx := ln.tx.levelTold }

/-- A report of the receive level taken by the line condition unit: marking stops the down timer, ends a break with BREAK END, and
starts a stopped up timer of a line that is down (R68, R70, R72); spacing starts a stopped down timer in RUN, BREAK and HUNT
(R70; log 20). -/
def takeLevelReport (s : State) (l : LineId) (level : Level) : State :=
  match level, (s.line l).cond.state with
  | .marking, .brk =>
    conditionEvent
      (s.modCond l fun x => { x with state := .run, downTimer := none, nullPending := (s.line l).io.inForce.breakNull })
      l .breakEnd []
  | .marking, .down =>
    s.modCond l fun x => { x with downTimer := none, upTimer := some (x.upTimer.getD (startTimer s.timebase)) }
  | .marking, .run | .marking, .hunt => s.modCond l fun x => { x with downTimer := none }
  | .spacing, .run | .spacing, .brk | .spacing, .hunt =>
    s.modCond l fun x => { x with downTimer := some (x.downTimer.getD (startTimer s.timebase)) }
  | .spacing, .down => s
  | .marking, .off | .spacing, .off => s

/-! ## The hunt (R76 to R79) -/

/-- The line enters HUNT, or restarts its hunt: candidate 0, progress and discard count 0, the score window emptied, null-pending
cleared, and the progress of every watch slot reset (R76, R89). The record of HUNT START is written by the caller. -/
def beginHunt (s : State) (l : LineId) : State :=
  resetWatch
    (s.modCond l fun x =>
      { x with state := .hunt, huntIndex := 0, patternProgress := 0, huntDiscard := 0, score := [], nullPending := false }) l

/-- The line enters HUNT, with HUNT START (R76). -/
def enterHuntState (s : State) (l : LineId) : State := conditionEvent (beginHunt s l) l .huntStart []

/-- The hunt pattern progress after a character without error, or none when the pattern is complete (R77). -/
def huntMatch (pattern : List Byte) (progress : Nat) (c : Byte) : Option Nat :=
  match pattern with
  | [a] => if c = a then none else some 0
  | [a, b] => if progress = 1 ∧ c = b then none else some (if c = a then 1 else 0)
  | _ => some 0

/-- The line locks: the divisor setting becomes the candidate's, the line enters RUN and RATE LOCKED is written with the divisor
and the discard count; a transmitter at a boundary takes the divisor (R44, R78). -/
def lockRate (s : State) (l : LineId) : State :=
  let divisor := (s.line l).rxDivisor
  let t := s.modLine l fun x =>
    { x with
      io :=
        { x.io with
          settings := { x.io.settings with divisor := divisor }, inForce := { x.io.inForce with divisor := divisor } }
      cond := { x.cond with state := .run, patternProgress := 0 } }
  conditionEvent (refreshTransmitter t l) l .rateLocked
    (bytesLE 2 divisor.toNat ++ bytesLE 2 (s.line l).cond.huntDiscard)

/-- A character that completes in HUNT: counted, and it moves the candidate, the pattern progress, or locks (R77, R78). -/
def huntCharacter (s : State) (l : LineId) (r : Received) : State :=
  let t := s.modCond l fun x => { x with huntDiscard := min (x.huntDiscard + 1) 65535 }
  if r.errored then
    t.modCond l fun x =>
      { x with huntIndex := (x.huntIndex + 1) % (s.line l).io.inForce.huntList.length, patternProgress := 0 }
  else
    match huntMatch (s.line l).io.inForce.huntPattern (s.line l).cond.patternProgress r.value with
    | none => lockRate t l
    | some k => t.modCond l fun x => { x with patternProgress := k }

/-! ## Characters in RUN (R65, R67, R69, R74, R75) -/

/-- A score window with an entry added; the oldest goes when it would hold more than sixteen (R74). -/
def pushScore (entry : Bool) (score : List Bool) : List Bool :=
  (score ++ [entry]).drop (score.length + 1 - Config.scoreSize)

/-- An entry added to the score window and compared with the threshold; with auto-hunt on, a score at or above it starts a hunt
(R74, R75). -/
def scoreEntry (s : State) (l : LineId) (entry : Bool) : State :=
  let t := s.modCond l fun x => { x with score := pushScore entry x.score }
  if (t.line l).io.inForce.autoHunt ∧ (t.line l).io.inForce.threshold.toNat ≤ (t.line l).errorScore then enterHuntState t l else t

/-- A character that reaches the line condition unit in RUN (R65): a break candidate takes the line to BREAK (R67); an errored
character is captured and scored; a null that is pending suppression is discarded (R69); any other is stored and scored. -/
def runCharacter (s : State) (l : LineId) (r : Received) : State :=
  let t := s.modCond l fun x => { x with nullPending := false }
  if r.candidate then conditionEvent (t.modCond l fun x => { x with state := .brk }) l .breakStart []
  else if r.errored then scoreEntry (settle (captureErrored t l r) l) l true
  else if (s.line l).cond.nullPending ∧ r.value = 0 then t
  else scoreEntry (storeCharacter t l r.value) l false

/-- The receive classifier and the line condition unit take a completed character according to the condition state (R48, R49, R50,
R65). -/
def classify (s : State) (l : LineId) (r : Received) : State :=
  match (s.line l).cond.state with
  | .off => s
  | .run =>
    if r.errored then runCharacter s l r
    else if (s.line l).io.inForce.flow ∧ r.value = 0x13 then setPause s l
    else if (s.line l).io.inForce.flow ∧ r.value = 0x11 then endPause s l
    else if (s.line l).io.inForce.stripPresent ∧ r.value = (s.line l).io.inForce.strip then s
    else runCharacter s l r
  | .brk => s
  | .down => if r.candidate then s.modCond l fun x => { x with upTimer := none } else s
  | .hunt => huntCharacter s l r

/-- What the deserializer sampled of a character in progress (R45, R46). In loopback, after the start edge of a character in SENDING, these
are the bits that the transmitter drives, and in a break they are its spacing (R53, R54, R58). Otherwise they are the bits that the
event carries: those at the pin, or in loopback those sampled from an edge within the transmitter's character, or at another
rate (log 5). -/
def Driven.sampled (f : Format) (data : Byte) (parity stop : Bool) : Driven → Received
  | .carried => receivedCharacter f data parity stop
  | .character c => receivedCharacter f c (parityBit f c) true
  | .spacing => receivedCharacter f 0 false false

/-- CHARACTER COMPLETE (R45, R46, R48): the sampled bits make a character with its marks; the receiver is between characters again,
or waits for marking after a spacing stop bit; the classifier takes the character. With no character in progress, or on a line
that is off, none completes (log 3): after a spacing stop bit nothing more is handed on until the level is marking, and a
character dropped by a change of inversion or loopback is not handed on (R57). -/
def execCharacterComplete (l : LineId) (data : Byte) (parity stop : Bool) (s : State) : Outcome State Fault Refusal :=
  .next
    (if (s.line l).cond.state = .off then s
    else
      match (s.line l).io.receiver with
      | .inCharacter _ f driven =>
        let r := driven.sampled f data parity stop
        classify (s.modIo l fun x => { x with receiver := if r.framing then .waitMarking else .between }) l r
      | .between | .waitMarking => s)

/-- A level that the transmitter drives: any inside a character, whose start bit is spacing and whose stop bits are marking, and
otherwise that of its state (R51, R53, R54). -/
def TxState.drives (level : Level) (x : TxState) : Bool := decide (x.level level = level)

/-- A level report is one of the receive level: the change of the pin, or in loopback, where the pin is ignored, a change to the level
that the transmitter drives (R47, R57, R58). On a line that is off nothing is reported (R59). -/
def Line.takesReport (ln : Line) (level : Level) : Bool :=
  decide (ln.cond.state ≠ .off) && (!ln.io.inForce.loopback || (decide (level ≠ ln.io.level) && ln.tx.state.drives level))

/-- The receive pin after a level report: it stands at the level told, unless the report is of the loopback path (R57, R58). -/
def Line.pinAfter (ln : Line) (level : Level) : Bool :=
  if ln.io.inForce.loopback && ln.takesReport level then ln.io.pinHigh
  else decide (level = .marking) != ln.io.inForce.inversion

/-- RECEIVE LEVEL REPORT (R47): the receive level is now the one named, and the line condition unit takes the report. Outside loopback
the pin stands accordingly (R57). In loopback the level reported is the transmitter's own (R58); any other report, and every report
on a line that is off, tells a change of the pin alone, which the receiver ignores (log 5). -/
def execReceiveLevelReport (l : LineId) (level : Level) (s : State) : Outcome State Fault Refusal :=
  .next
    (let t := s.modIo l fun x => { x with pinHigh := (s.line l).pinAfter level }
    if (s.line l).takesReport level then takeLevelReport (t.modLine l (Line.seeLevel level)) l level else t)

/-- FALSE START (R45): the start edge is dropped and the receiver waits for the next. With no start edge taken it has no effect
(log 3). -/
def execFalseStart (l : LineId) (s : State) : Outcome State Fault Refusal :=
  .next
    (s.modIo l fun x =>
      { x with
        receiver := match x.receiver with
          | .inCharacter _ _ _ => .between
          | .between => .between
          | .waitMarking => .waitMarking })

/-- IDLE TIMER EXPIRY (R9): the open record closes with IDLE. It has no effect where the expiry does not stand (log 3). -/
def execIdleTimerExpiry (l : LineId) (s : State) : Outcome State Fault Refusal :=
  .next (if timerDue (s.line l).cap.idleTimer then settle (closeOpen s l .idle 0) l else s)

/-- DOWN TIMER EXPIRY (R71): the line enters DOWN with LINE DOWN; a hunt ends without being reported, null-pending is cleared, the
up timer is stopped and the pause ends. The evaluation that a page of LINE DOWN asks for comes ahead of the start point that the end
of the pause gives a PAUSED transmitter, so an XOFF goes out ahead of the queue. DESIGN CHOICE (log 35). It has no effect where the
expiry does not stand (log 3). -/
def execDownTimerExpiry (l : LineId) (s : State) : Outcome State Fault Refusal :=
  .next
    (if timerDue (s.line l).cond.downTimer then
      endPause
        (conditionEvent
          (s.modCond l fun x =>
            { x with
              state := .down, downTimer := none, upTimer := none, patternProgress := 0, huntDiscard := 0, nullPending := false })
          l .lineDown []) l
    else s)

/-- UP TIMER EXPIRY (R72): LINE UP is written; the line enters HUNT, with HUNT START after it in one group (R18), when auto-hunt is
on or hunt-on-up is set, and RUN otherwise. With the receive level spacing the down timer starts. It has no effect where the
expiry does not stand (log 3). -/
def execUpTimerExpiry (l : LineId) (s : State) : Outcome State Fault Refusal :=
  .next
    (if timerDue (s.line l).cond.upTimer then
      let hunts := (s.line l).io.inForce.autoHunt || (s.line l).cond.huntOnUp
      let t := s.modLine l fun x =>
        { x with
          cond :=
            { x.cond with
              state := .run, upTimer := none, huntOnUp := false
              downTimer := if x.io.level = .spacing then some (startTimer s.timebase) else none } }
      let u := groupCondition t l .lineUp []
      settle (if hunts then groupCondition (beginHunt u l) l .huntStart [] else u) l
    else s)

end Sys2Proof.Machine
end

