-- ==== Sys2Proof/Machine/Attach.lean ====
section
/-! DEFINITION. The attachment table, the writer role and the lease (chapter 6), with CLEAR CONDITION and REARM of chapter 10. -/

namespace Sys2Proof.Machine

open Host

/-- The WRITER SET record of a change of writer (R110). -/
def writerSet (s : State) (l : LineId) (p : Option PortId) (reason : WriterReason) : State :=
  event s l .writerSet [portByte p, reason.code]

/-- The line loses its writer: the lease timer stops, the transmit unit removes the drain mark, and WRITER SET is written with no
port (R108, R109, R112, R113, R147). -/
def loseWriter (s : State) (l : LineId) (reason : WriterReason) : State :=
  writerSet (dropDrainMark (s.modAtt l fun x => { x with leaseTimer := none }) l) l none reason

/-- The role of a port's attachment set. -/
def setRole (s : State) (l : LineId) (p : PortId) (r : Role) : State := s.modAttachment l p fun a => { a with role := r }

/-- ATTACH makes the port's attachment, at the end of the list (R103), or updates it in its place (R104). -/
def attachOrUpdate (s : State) (l : LineId) (p : PortId) (a : AttachArgs) : State :=
  match (s.line l).attachment p with
  | none =>
    s.modLine l fun x =>
      { x with
        att :=
          { x.att with
            list := x.att.list ++
              [{ port := p, role := .watcher, cursor := if a.fromOldest then x.cap.oldest else x.cap.next, overtaken := false
                 mode := a.mode, lossless := a.lossless, conditionEnable := a.conditionEnable, watchEnable := a.watchEnable
                 latch := 0 }] } }
  | some _ =>
    let t := s.modAttachment l p fun x =>
      { x with mode := a.mode, lossless := a.lossless, conditionEnable := a.conditionEnable, watchEnable := a.watchEnable }
    if a.fromOldest then
      clearOvertaken (t.modAttachment l p fun x => { x with cursor := (s.line l).cap.oldest }) l p
    else t

/-- The refusal of the writer role to a port, if it is refused: WRITER BUSY without take, LOWER PRECEDENCE for a take by a port
whose precedence is not strictly greater (R99, R105). -/
def roleRefused (s : State) (l : LineId) (p : PortId) (take : Bool) : Option (ErrorCode × PortId) :=
  match (s.line l).writer with
  | none => none
  | some w =>
    if w = p then none
    else if take then
      if (s.port w).precedence < (s.port p).precedence then none else some (.lowerPrecedence, w)
    else some (.writerBusy, w)

/-- The writer role granted to a port that may have it: on a line without a writer, to the writer itself, or by a take from another
port (R105, R106). The lease timer restarts (R111). -/
def grantRole (s : State) (l : LineId) (p : PortId) (flush : Bool) : State :=
  match (s.line l).writer with
  | none => restartLease (writerSet (dropDrainMark (setRole s l p .writer) l) l (some p) .attach) l
  | some w =>
    if w = p then restartLease s l
    else
      let t := writerSet (setRole ((setRole s l w .watcher).post w .writeLost l 2) l p .writer) l (some p) .take
      let u := endWaiting (dropDrainMark t l) l .writeLost
      restartLease (if flush then emptyQueue u l else u) l

/-- The DATA and CONDITION causes that an attachment just made or updated calls for (R164, R168). -/
def attachCauses (s : State) (l : LineId) (p : PortId) : State :=
  match (s.line l).attachment p with
  | none => s
  | some a =>
    let t := s.unpost p .data l
    let u := match a.mode with
      | .first _ => completionData l (t.modAttachment l p fun x => { x with mode := .first true }) p
      | .level _ => levelData l t p
      | .none => t
    if a.conditionEnable ∧ a.latch ≠ 0 then u.post p .condition l 0 else u.unpost p .condition l

/-- ATTACH (code 10h; R102 to R107). -/
def execAttach (p : PortId) (s : State) : Outcome State Fault Refusal :=
  .next
    (takeCommand s p false fun s =>
      withLine s p fun l =>
        let a := attachArgs (s.port p).option (s.port p).count
        if a.bad then failCheck s p .badArgument
        else if a.lossless && !(s.line l).io.inForce.flow then failCheck s p .badArgument
        else
          match if a.writer then roleRefused s l p a.take else none with
          | some (code, w) => prepare s p { code := code, value := some (BitVec.ofNat 32 w.val) }
          | none =>
            let t := attachOrUpdate s l p a
            let u := askEvaluation (attachCauses (if a.writer then grantRole t l p a.flush else t) l p) l
            prepare u p
              { position := ((u.line l).attachment p).map (·.cursor), value := some (u.line l).cap.oldest })

/-- A port's attachment leaves a line's list; the writer's leaving is told with a reason, and an evaluation is asked for (R108,
R113). -/
def removeAttachment (s : State) (l : LineId) (p : PortId) (reason : WriterReason) : State :=
  let t := s.modAtt l fun x => { x with list := x.list.filter fun a => !decide (a.port = p) }
  askEvaluation (if (s.line l).writer = some p then loseWriter t l reason else t) l

/-- DETACH (code 11h; R108). -/
def execDetach (p : PortId) (s : State) : Outcome State Fault Refusal :=
  .next
    (takeCommand s p false fun s =>
      withLine s p fun l =>
        match (s.line l).attachment p with
        | none => failCheck s p .notAttached
        | some _ =>
          prepare
            (removeAttachment
              (s.modPort p fun x => { x with causes := x.causes.filter fun c => !decide (c.line = l) }) l p .detach) p {})

/-- RELEASE WRITE (code 12h; R109). -/
def execReleaseWrite (p : PortId) (s : State) : Outcome State Fault Refusal :=
  .next
    (takeCommand s p false fun s =>
      withLine s p fun l =>
        if (s.line l).writer = some p then prepare (loseWriter (setRole s l p .watcher) l .release) p {}
        else failCheck s p .notWriter)

/-- LEASE EXPIRY (R112): the writer loses the role, WRITE LOST is posted at its port, and its waiting SEND or SEND BREAK ends with
WRITE LOST. It has no effect where the expiry does not stand (log 3). -/
def execLeaseExpiry (l : LineId) (s : State) : Outcome State Fault Refusal :=
  .next
    (match (s.line l).writer with
    | none => s
    | some w =>
      if timerDue (s.line l).att.leaseTimer then
        loseWriter (endWaiting ((setRole s l w .watcher).post w .writeLost l 4) l .writeLost) l .lease
      else s)

/-- CLEAR CONDITION (code 46h; R165). -/
def execClearCondition (p : PortId) (s : State) : Outcome State Fault Refusal :=
  .next
    (takeCommand s p false fun s =>
      withLine s p fun l =>
        match (s.line l).attachment p with
        | none => failCheck s p .notAttached
        | some a =>
          prepare ((s.modAttachment l p fun x => { x with latch := 0 }).unpost p .condition l) p
            { value := some (a.latch.setWidth 32) })

/-- REARM (code 47h; R169). -/
def execRearm (p : PortId) (s : State) : Outcome State Fault Refusal :=
  .next
    (takeCommand s p false fun s =>
      withLine s p fun l =>
        match (s.line l).attachment p with
        | none => failCheck s p .notAttached
        | some a =>
          match a.mode with
          | .first _ =>
            let unread := (s.line l).unread a
            let t := s.modAttachment l p fun x => { x with mode := .first (decide (unread = 0)) }
            prepare (if 0 < unread then t.post p .data l 0 else t) p { count := some (countHalf unread) }
          | .level _ | .none => failCheck s p .badArgument)

end Sys2Proof.Machine
end

