-- ==== Sys2Proof/Machine/Reads.lean ====
section
/-! DEFINITION. The commands that read: NEXT CAUSE, READ TIME, READ NEW, READ HISTORY, COUNT NEW, SEEK, LINE STATUS, and the fills
and deliveries of the port buffer (chapters 1, 7, 10 and 11). -/

namespace Sys2Proof.Machine

open Host

/-! ## NEXT CAUSE and READ TIME -/

/-- A cause leaves the set when it is reported: WRITE LOST, WATCH and DRAINED, and DATA of an attachment that is not in LEVEL mode
(R160, R166, R167). -/
def removedByReport (ln : Line) (p : PortId) : CauseKind → Bool
  | .writeLost | .watch | .drained => true
  | .overtaken | .condition => false
  | .data =>
    match ln.attachment p with
    | none => true
    | some a =>
      match a.mode with
      | .level _ => false
      | .first _ | .none => true

/-- The detail of a cause at its report (R162 to R167, R170). -/
def causeDetail (ln : Line) (p : PortId) (c : Cause) : Word :=
  match c.kind, ln.attachment p with
  | .overtaken, some a => ln.cap.oldest - a.cursor
  | .condition, some a => a.latch.setWidth 32
  | .data, some a => BitVec.ofNat 32 (ln.unread a)
  | .writeLost, _ | .watch, _ | .drained, _ => BitVec.ofNat 32 c.detail
  | .overtaken, none | .condition, none | .data, none => 0

/-- NEXT CAUSE (code 01h; R170): the first cause in the order of reporting, or NONE on an empty set. -/
def execNextCause (p : PortId) (s : State) : Outcome State Fault Refusal :=
  .next
    (takeCommand s p false fun s =>
      match (s.port p).causes with
      | [] => prepare s p { line := some 0xFF, option := some 0, count := some 0, value := some 0 }
      | c :: rest =>
        let t := if removedByReport (s.line c.line) p c.kind then s.modPort p fun x => { x with causes := rest } else s
        prepare t p
          { line := some (byteOf c.line.val), option := some (byteOf c.kind.code)
            count := some (countHalf (t.port p).causes.length), value := some (causeDetail (s.line c.line) p c) })

/-- READ TIME (code 02h; R6). -/
def execReadTime (p : PortId) (s : State) : Outcome State Fault Refusal :=
  .next (takeCommand s p false fun s => prepare s p { value := some s.timebase })

/-! ## The taking of a read (R119, R120, R125, R131) -/

/-- The flush of the open record by a read (R15, R119), with the FROZEN record that it may bring (R36). The end sequence number is
fixed after it (log 22). -/
def flushOpen (s : State) (l : LineId) : State := flushFrozen (closeOpen s l .read 0) l

/-- A port begins the fill of a data-in command, showing BUSY (R176). -/
def beginFill (s : State) (p : PortId) (c : DataIn) : State := s.modPort p fun x => { x with phase := .filling c }

/-- READ NEW (code 20h; R120): the open record is flushed, the end sequence number fixed, and a FIRST attachment's DATA cause
removed (R166). With nothing unread and the mark clear it completes at once (R123, log 8). -/
def execReadNew (p : PortId) (s : State) : Outcome State Fault Refusal :=
  .next
    (takeCommand s p true fun s =>
      withLine s p fun l =>
        match (s.line l).attachment p with
        | none => failCheck s p .notAttached
        | some a =>
          let t := flushOpen s l
          let stop := (t.line l).cap.next
          let u := settle (match a.mode with | .first _ => t.unpost p .data l | .level _ | .none => t) l
          match (u.line l).attachment p with
          | none => failCheck u p .notAttached
          | some b =>
            if !b.overtaken && !seqBelow b.cursor stop then
              completeCommand u p { count := some 0, value := some 0, position := some b.cursor }
            else beginFill u p (.readNew l stop (s.port p).count.toNat 0 0))

/-- Where a start sequence number stands against a log (R125). -/
inductive Placing where
  | below
  | within
  | above
  deriving DecidableEq, Repr

/-- The placing of a sequence number against a line's log (R125). -/
def placeInLog (ln : Line) (q : Seq) : Placing :=
  if ln.inLog q then .within
  else if seqBelow q ln.cap.oldest then .below else .above

/-- The open record lies in the range of a READ HISTORY: COUNT records from the start, or all (R125). -/
def openInRange (ln : Line) (start : Seq) (count : Nat) : Bool :=
  match ln.cap.opened with
  | none => false
  | some o =>
    decide (seqDist ln.cap.oldest start ≤ seqDist ln.cap.oldest o.seq)
      && (decide (count = 0) || decide (seqDist start o.seq < count))

/-- READ HISTORY (code 21h; R125). A start at or above the next sequence number completes it at once (log 8); VALUE, which R125 does
not name there, keeps what the master wrote. DESIGN CHOICE (log 8). -/
def execReadHistory (p : PortId) (s : State) : Outcome State Fault Refusal :=
  .next
    (takeCommand s p true fun s =>
      withLine s p fun l =>
        let start := (s.port p).position
        let count := (s.port p).count.toNat
        if start = 0 then failCheck s p .badArgument
        else
          match placeInLog (s.line l) start with
          | .below => prepare s p { code := .overtaken, position := some (s.line l).cap.oldest }
          | .above => completeCommand s p { count := some 0, position := some start }
          | .within =>
            if start = (s.line l).cap.next then completeCommand s p { count := some 0, position := some start }
            else
              let t := if openInRange (s.line l) start count then flushOpen s l else s
              beginFill (settle t l) p (.readHistory l start (t.line l).cap.next count 0))

/-- COUNT NEW (code 22h; R128). A port with no attachment is answered for a cursor at the oldest sequence number. -/
def execCountNew (p : PortId) (s : State) : Outcome State Fault Refusal :=
  .next
    (takeCommand s p false fun s =>
      withLine s p fun l =>
        let records := match (s.line l).attachment p with
          | none => (s.line l).closed
          | some a => (s.line l).unreadRecords a
        prepare s p
          { count := some (countHalf records.length), value := some (BitVec.ofNat 32 (records.map LogRecord.size).sum)
            position := some (s.line l).cap.oldest })

/-- The cursor that SEEK sets for a place: the oldest record, the newest end, or a position brought within the log (R129). -/
def seekCursor (ln : Line) (place : Nat) (position : Seq) : Seq :=
  if place = 0 then ln.cap.oldest
  else if place = 1 then ln.cap.next
  else
    match placeInLog ln position with
    | .within => position
    | .below => ln.cap.oldest
    | .above => ln.cap.next

/-- The port's DATA cause after SEEK: LEVEL is worked out again, and FIRST loses the cause when nothing is unread (R166, R167). -/
def seekData (s : State) (l : LineId) (p : PortId) : State :=
  match (s.line l).attachment p with
  | none => s
  | some a =>
    match a.mode with
    | .level _ => levelData l s p
    | .first _ => if (s.line l).unread a = 0 then s.unpost p .data l else s
    | .none => s

/-- SEEK (code 23h; R129). -/
def execSeek (p : PortId) (s : State) : Outcome State Fault Refusal :=
  .next
    (takeCommand s p false fun s =>
      withLine s p fun l =>
        match (s.line l).attachment p with
        | none => failCheck s p .notAttached
        | some _ =>
          let place := (s.port p).option.toNat
          if 2 < place ∨ (place = 2 ∧ (s.port p).position = 0) then failCheck s p .badArgument
          else
            let cursor := seekCursor (s.line l) place (s.port p).position
            let t := clearOvertaken (s.modAttachment l p fun a => { a with cursor := cursor }) l p
            prepare (seekData t l p) p { position := some cursor, value := some (s.line l).cap.oldest })

/-- LINE STATUS (code 24h; R131): the record is worked out when the command is taken. -/
def execLineStatus (p : PortId) (s : State) : Outcome State Fault Refusal :=
  .next
    (takeCommand s p true fun s =>
      withLine s p fun l =>
        if (s.port p).option = 0 then beginFill s p (.lineStatus (s.line l).statusRecord)
        else if (s.port p).option = 1 then beginFill s p (.lineStatus (s.line l).io.settings.encode)
        else failCheck s p .badArgument)

/-! ## Fills (R118, R121, R126, R176) -/

/-- What a fill places: the bytes, and the records or GAP they make. -/
structure Fill where
  bytes : List Byte
  items : List Item
  deriving DecidableEq, Repr

/-- A fill with one more record or GAP, if it fits in what remains of the buffer (R118). -/
def Fill.add (bytes : List Byte) (next : Seq) (gap : Option Nat) (f : Fill) : Fill :=
  { bytes := f.bytes ++ bytes
    items := f.items ++ [{ stop := f.bytes.length + bytes.length, next := next, gap := gap }] }

/-- Whole records placed in order while the next one fits in the bytes that remain (R121, R126). -/
def fillRecords : List LogRecord → Fill → Fill
  | [], f => f
  | r :: rs, f =>
    if f.bytes.length + r.size ≤ Config.bufferSize then fillRecords rs (f.add r.bytes (nextSeq r.seq) none) else f

/-- The closed records of a line below the end of a read: none in a log that has passed the end, however many records have been
given since (R119, R121, R124). -/
def Line.closedBelow (ln : Line) (stop : Seq) : List LogRecord :=
  if ln.inLog stop then ln.closed.take (seqDist ln.cap.oldest stop) else []

/-- The place of a read lies below its end, in a log that has not passed the end (R123). -/
def Line.remains (ln : Line) (q stop : Seq) : Bool :=
  ln.inLog stop && decide (seqDist ln.cap.oldest q < seqDist ln.cap.oldest stop)

/-- The closed records of a line from a sequence number up to, and not including, an end, at most as many as remain of a maximum,
0 meaning no maximum (R121, R126). The first number is at or above the oldest. -/
def recordsFor (ln : Line) (start stop : Seq) (maximum delivered : Nat) : List LogRecord :=
  let range := (ln.closedBelow stop).drop (seqDist ln.cap.oldest start)
  if maximum = 0 then range else range.take (maximum - delivered)

/-- A fill of READ NEW: a GAP when the overtaken mark is set, then records from the cursor or the oldest (R118, R121). -/
def readNewFill (ln : Line) (time : Word) (a : Attachment) (stop : Seq) (maximum delivered : Nat) : Fill :=
  if a.overtaken then
    let missing := seqDist a.cursor ln.cap.oldest
    fillRecords (recordsFor ln ln.cap.oldest stop maximum delivered)
      (Fill.add (gapBytes a.cursor time missing) ln.cap.oldest (some missing) { bytes := [], items := [] })
  else fillRecords (recordsFor ln a.cursor stop maximum delivered) { bytes := [], items := [] }

/-- The results of a READ NEW that ends by itself (R123). -/
def readNewResults (cursor : Seq) (delivered missing : Nat) : Results :=
  { position := some cursor, count := some (countHalf delivered), value := some (BitVec.ofNat 32 missing) }

/-- The records of the range that a READ HISTORY ended by OVERTAKEN has not delivered (R126). -/
def historyRest (position stop : Seq) (count delivered : Nat) : Half :=
  countHalf (if count = 0 then seqDist position stop else count - delivered)

/-- The loaded buffer goes DATA-READY (R176). -/
def deliver (s : State) (p : PortId) (c : DataIn) (f : Fill) : State :=
  s.modPort p fun x =>
    { x with phase := .reading c f.items, buffer := f.bytes, transferLength := f.bytes.length, readPoint := 0 }

/-- FILL END (R176): the fill is made at this moment (log 8); a fill that places bytes goes DATA-READY, and one that places nothing
completes the command. A port with no fill in hand is left as it is (log 3). -/
def execFillEnd (p : PortId) (s : State) : Outcome State Fault Refusal :=
  .next
    (match (s.port p).phase with
    | .filling (.readNew l stop maximum delivered missing) =>
      match (s.line l).attachment p with
      | none => completeCommand s p { code := .aborted }
      | some a =>
        let f := readNewFill (s.line l) s.timebase a stop maximum delivered
        if f.bytes = [] then completeCommand s p (readNewResults a.cursor delivered missing)
        else deliver s p (.readNew l stop maximum delivered missing) f
    | .filling (.readHistory l position stop count delivered) =>
      if !(s.line l).inLog position then
        completeCommand s p
          { code := .overtaken, position := some position, count := some (historyRest position stop count delivered)
            value := some (s.line l).cap.oldest }
      else
        let f := fillRecords (recordsFor (s.line l) position stop count delivered) { bytes := [], items := [] }
        if f.bytes = [] then
          completeCommand s p
            { position := some position, count := some (countHalf delivered), value := some (s.line l).cap.oldest }
        else deliver s p (.readHistory l position stop count delivered) f
    | .filling (.lineStatus record) => deliver s p (.lineStatus record) { bytes := record, items := [] }
    | .idle | .completing _ | .reading _ _ | .writing _ | .waiting _ => s)

/-! ## Deliveries (R122, R123, R127, R176) -/

/-- The overtaken mark of the port's attachment tested at the end of a READ NEW delivery or at its ABORT: cleared, with the
OVERTAKEN cause, when the cursor is at or above the oldest; a lossless attachment asks for an evaluation (R114, R123, R124, R167). -/
def testOvertaken (s : State) (l : LineId) (p : PortId) : State :=
  match (s.line l).attachment p with
  | none => s
  | some a =>
    let t := if (s.line l).inLog a.cursor then levelData l (clearOvertaken s l p) p else s
    if a.lossless then askEvaluation t l else t

/-- The last byte of a record or GAP has been read: READ NEW moves the cursor and a LEVEL DATA cause is worked out again (R122,
R167), READ HISTORY moves its position. -/
def passItem (s : State) (p : PortId) (item : Item) (rest : List Item) : DataIn → State
  | .readNew l stop maximum delivered missing =>
    let t := levelData l (s.modAttachment l p fun a => { a with cursor := item.next }) p
    t.modPort p fun x =>
      { x with
        phase := .reading
          (match item.gap with
          | none => .readNew l stop maximum (delivered + 1) missing
          | some n => .readNew l stop maximum delivered (missing + n)) rest }
  | .readHistory l _ stop count delivered =>
    s.modPort p fun x => { x with phase := .reading (.readHistory l item.next stop count (delivered + 1)) rest }
  | .lineStatus record => s.modPort p fun x => { x with phase := .reading (.lineStatus record) rest }

/-- The records passed by the byte just read. -/
def passItems (s : State) (p : PortId) : State :=
  match (s.port p).phase with
  | .reading c (item :: rest) => if (s.port p).readPoint = item.stop then passItem s p item rest c else s
  | .reading _ [] | .idle | .completing _ | .filling _ | .writing _ | .waiting _ => s

/-- A buffer's delivery has ended: the next fill begins while records remain below the end within the maximum, or the mark is set;
otherwise the command completes (R123, R127, R131). The position and the end of a READ HISTORY were both in the log when it was
taken, so they are compared as they are, whatever has left the log since (R126). -/
def endDelivery (s : State) (p : PortId) : State :=
  let t := s.modPort p fun x => { x with buffer := [], transferLength := 0, readPoint := 0 }
  match (s.port p).phase with
  | .reading (.readNew l stop maximum delivered missing) _ =>
    let u := testOvertaken t l p
    match (u.line l).attachment p with
    | none => completeCommand u p { code := .aborted }
    | some a =>
      if a.overtaken || ((u.line l).remains a.cursor stop && (decide (maximum = 0) || decide (delivered < maximum))) then
        beginFill u p (.readNew l stop maximum delivered missing)
      else completeCommand u p (readNewResults a.cursor delivered missing)
  | .reading (.readHistory l position stop count delivered) _ =>
    if seqBelow position stop && (decide (count = 0) || decide (delivered < count)) then
      beginFill t p (.readHistory l position stop count delivered)
    else
      completeCommand t p
        { position := some position, count := some (countHalf delivered), value := some (s.line l).cap.oldest }
  | .reading (.lineStatus _) _ => completeCommand t p {}
  | .idle | .completing _ | .filling _ | .writing _ | .waiting _ => t

/-- DATA READ (R173, R176): in a data-in phase the byte at the read point is handed out and the point advances; the last byte of a
record moves the place of the read, and the last byte of the buffer ends its delivery. Otherwise 00h is handed out, as it is in
PORT RESET (R180). -/
def execDataRead (p : PortId) (s : State) : Outcome State Fault Refusal :=
  .next
    (if (s.port p).resetAsserted then s.modPort p fun x => { x with shiftedOut := 0 }
    else
      match (s.port p).phase with
      | .reading _ _ =>
        let t := passItems
          (s.modPort p fun x => { x with shiftedOut := x.dataByte, readPoint := x.readPoint + 1, pointer := nextOffset 16 }) p
        if (s.port p).readPoint + 1 = (s.port p).transferLength then endDelivery t p else t
      | .idle | .completing _ | .filling _ | .writing _ | .waiting _ =>
        s.modPort p fun x => { x with shiftedOut := 0, pointer := nextOffset 16 })

end Sys2Proof.Machine
end

