-- ==== Sys2Proof/Machine/Writes.lean ====
section
/-! DEFINITION. The commands that write to a line: SEND, SEND BREAK, RESET LINE, ENTER HUNT, SET LINE, SET WATCH; the writes of
DATA; and the events of the transmitter (chapters 3, 4, 5, 8 and 11). -/

namespace Sys2Proof.Machine

open Host

/-- A port opens the data phase of a data-out command for a number of bytes (R177). -/
def beginData (s : State) (p : PortId) (c : DataOut) (bytes : Nat) : State :=
  s.modPort p fun x => { x with phase := .writing c, transferLength := bytes, buffer := [], readPoint := 0 }

/-- SEND (code 30h; R137): a SEND that passes restarts the lease and removes the port's DRAINED cause for the line (R163). -/
def execSend (p : PortId) (s : State) : Outcome State Fault Refusal :=
  .next
    (takeCommand s p false fun s =>
      withLine s p fun l =>
        let count := (s.port p).count.toNat
        if count = 0 ∨ 512 < count then failCheck s p .badArgument
        else if (s.line l).writer ≠ some p then failCheck s p .notWriter
        else if (s.line l).cond.state = .off then failCheck s p .lineOff
        else beginData ((restartLease s l).unpost p .drained l) p (.send l count) count)

/-- SEND BREAK (code 31h; R142): the marker is placed and the command completes at once when an entry is free; otherwise it waits. -/
def execSendBreak (p : PortId) (s : State) : Outcome State Fault Refusal :=
  .next
    (takeCommand s p false fun s =>
      withLine s p fun l =>
        let duration := (s.port p).value.toNat
        if duration < 10 ∨ 5000 < duration then failCheck s p .badArgument
        else if (s.line l).writer ≠ some p then failCheck s p .notWriter
        else if (s.line l).cond.state = .off then failCheck s p .lineOff
        else
          placeMarker
            (((restartLease s l).modTx l fun x => { x with waiting := some (.sendBreak p duration) }).modPort p fun x =>
              { x with phase := .waiting l }) l)

/-- The checks of a command that needs the control right on a line (R100). -/
def withControl (s : State) (p : PortId) (act : LineId → State) : State :=
  withLine s p fun l => if (s.line l).hasControl p then act l else failCheck s p .noControl

/-- The hold evaluation is told of a RESET LINE or a LINE OFF at the moment it is taken: a HELD or SPENT line enters NONE, and a line
in NONE does not change (R159). -/
def tellHold (s : State) (l : LineId) : State :=
  match (s.line l).hold.state with
  | .held | .spent => leaveHold s l .none
  | .none => s

/-- The record of a RESET LINE or of a line turned off. On a line that was HELD its HOLD END follows in one group, with the FROZEN
record of a freeze count that reaches 0 after both (R18, R36, R159), and so the evaluation that a page of either record asks for.
DESIGN CHOICE (log 33). -/
def eventWithHoldEnd (wasHeld : Bool) (s : State) (l : LineId) (e : Event) (argument : List Byte) : State :=
  settle
    (if wasHeld then groupEvent (groupEvent s l e argument) l .holdEnd [] else plainEvent s l e argument) l

/-- The receive side of RESET LINE, before its record (R81, R89). -/
def resetReceive (s : State) (l : LineId) : State :=
  resetWatch
    (s.modCond l fun x =>
      { x with
        state := match x.state with
          | .brk => .run
          | .hunt => .run
          | .run => .run
          | .down => .down
          | .off => .off
        huntDiscard := if x.state = .hunt then 0 else x.huntDiscard
        score := [], patternProgress := 0, nullPending := false, huntOnUp := false }) l

/-- RESET LINE (code 32h; R81, R144, R159): after the emptying the hold is told, and a line that was HELD has an XON in its flow
slot; LINE RESET follows, and its HOLD END in one group with it (R18). -/
def execResetLine (p : PortId) (s : State) : Outcome State Fault Refusal :=
  .next
    (takeCommand s p false fun s =>
      withControl s p fun l =>
        if (s.line l).cond.state = .off then failCheck s p .lineOff
        else
          let wasHeld := decide ((s.line l).hold.state = .held)
          let t := tellHold (resetTransmit s l) l
          let u := if wasHeld then placeFlow t l .xon else t
          let v := eachPort (latchEvent .lineReset l) (resetReceive u l)
          prepare (eventWithHoldEnd wasHeld v l .lineReset [byteOf p.val]) p {})

/-- ENTER HUNT (code 33h; R80). -/
def execEnterHunt (p : PortId) (s : State) : Outcome State Fault Refusal :=
  .next
    (takeCommand s p false fun s =>
      withControl s p fun l =>
        match (s.line l).cond.state with
        | .off => failCheck s p .lineOff
        | .down => prepare (s.modCond l fun x => { x with huntOnUp := true }) p {}
        | .run | .brk | .hunt => prepare (enterHuntState s l) p {})

/-- SET LINE (code 40h; R61). -/
def execSetLine (p : PortId) (s : State) : Outcome State Fault Refusal :=
  .next (takeCommand s p false fun s => withControl s p fun l => beginData s p (.setLine l) settingsLength)

/-- SET WATCH (code 41h; R85). -/
def execSetWatch (p : PortId) (s : State) : Outcome State Fault Refusal :=
  .next
    (takeCommand s p false fun s =>
      withControl s p fun l =>
        if h : (s.port p).option.toNat < 4 then beginData s p (.setWatch l ⟨(s.port p).option.toNat, h⟩) watchLength
        else failCheck s p .badArgument)

/-! ## SET LINE applied (R59, R60, R62, R158, R159) -/

/-- Step 1 of R62, when the flow option goes from on to off: the hold ends with XON and HOLD END, a SPENT line goes to NONE, the
lossless flags are cleared, and the pause ends (R158, R55). HOLD END is no group with the record of a later step, so a FROZEN
record due after it comes before that record. DESIGN CHOICE (log 33). -/
def turnFlowOff (s : State) (l : LineId) : State :=
  let t := match (s.line l).hold.state with
    | .held => event (placeFlow (leaveHold s l .none) l .xon) l .holdEnd []
    | .spent => leaveHold s l .none
    | .none => s
  endPause (t.modAtt l fun x => { x with list := x.list.map fun a => { a with lossless := false } }) l

/-- The line is turned off (R59, R66): receiver and transmitter stop, the pause is cleared, queue and flow slot are emptied, a
waiting SEND or SEND BREAK ends with LINE OFF, and LINE OFF is written. The hold ends with no XON, since the slot drops it, and
HOLD END follows LINE OFF in one group with it (R18, R159). -/
def turnLineOff (s : State) (l : LineId) : State :=
  let t := s.modLine l fun x =>
    { x with
      io := { x.io with receiver := .waitMarking }
      cond :=
        { x.cond with
          state := .off, downTimer := none, upTimer := none, nullPending := false, huntOnUp := false
          patternProgress := 0, huntDiscard := 0 }
      tx :=
        { x.tx with
          queue := [], flowSlot := none, state := .idle, pause := false, drainMark := none, inUse := x.io.inForce.txUse } }
  eventWithHoldEnd (decide ((s.line l).hold.state = .held)) (endWaiting (tellHold t l) l .lineOff) l .lineOff []

/-- What FORMAT SET does beside its record: it empties the score window and resets the watch progress (R74, R89). -/
def formatSetEffects (s : State) (l : LineId) : State :=
  resetWatch (s.modCond l fun x => { x with score := [] }) l

/-- The argument of FORMAT SET: the divisor and the format byte (R17). -/
def formatSetArgument (x : Settings) : List Byte := bytesLE 2 x.divisor.toNat ++ [x.format.code]

/-- The receiver watches the line afresh and reports the level in force (R45, R47, R57, R58, R60). A transmit level inside a
character is a free value, taken with a fresh index (log 13). -/
def reportLevelAfresh (s : State) (l : LineId) : State :=
  let level := (s.line l).receiveLevel (freeLevel s.freeIndex)
  takeLevelReport
    (({ s with freeIndex := s.freeIndex + 1 } : State).modLine l (Line.startWatching level)) l level

/-- The line is turned on (R60, R66): the stored settings come into force, the state becomes RUN, LINE ON and FORMAT SET are written
as one group, and the receive level is reported. The evaluation that a page of LINE ON or FORMAT SET asks for (R153) comes ahead of
that report, so in loopback an XOFF that it places is already being sent when the level is reported. DESIGN CHOICE (log 40). -/
def turnLineOn (s : State) (l : LineId) : State :=
  let t := refreshTransmitter
    (s.modLine l fun x =>
      { x with
        io := { x.io with inForce := x.io.settings }, cond := { x.cond with state := .run }
        tx := { x.tx with pause := false, state := .idle } }) l
  let u := formatSetEffects (groupEvent t l .lineOn []) l
  reportLevelAfresh (settle (groupEvent u l .formatSet (formatSetArgument (s.line l).io.settings)) l) l

/-- Step 3 of R62 on a line that stays on: a hunt ends with FORMAT SET and RUN (R79); otherwise a change of divisor or format writes
FORMAT SET. -/
def applyFormat (s : State) (l : LineId) (old : Settings) : State :=
  let new := (s.line l).io.inForce
  if (s.line l).cond.state = .hunt then
    event
      (formatSetEffects (s.modCond l fun x => { x with state := .run, patternProgress := 0, huntDiscard := 0 }) l) l .formatSet
      (formatSetArgument new)
  else if old.divisor ≠ new.divisor ∨ old.format ≠ new.format then
    event (formatSetEffects s l) l .formatSet (formatSetArgument new)
  else s

/-- The lease timer under a change of the writer lease (R111). -/
def retimeLease (s : State) (l : LineId) (old : Settings) : State :=
  s.modLine l fun x =>
    let new := x.io.inForce
    { x with
      att :=
        { x.att with
          leaseTimer :=
            if new.lease = 0 then none
            else if old.lease = 0 then (if x.writer.isSome then some (startTimer s.timebase) else none)
            else x.att.leaseTimer.map (retimeTimer s.timebase (1000 * new.lease.toNat)) } }

/-- The hold timer under a change of the hold timeout (R156). -/
def retimeHold (s : State) (l : LineId) : State :=
  s.modLine l fun x =>
    { x with hold := { x.hold with timer := x.hold.timer.map (retimeTimer s.timebase x.io.inForce.holdTimeout.toNat) } }

/-- The maximum record length applied to the open record: at or below its length, it closes with FULL (R10). -/
def applyMaxLength (s : State) (l : LineId) : State :=
  match (s.line l).cap.opened with
  | none => s
  | some o => if (s.line l).io.inForce.maxLength.toNat ≤ o.body.length then settle (closeOpen s l .full 0) l else s

/-- The receiver under a change of loopback, or of inversion outside loopback: the character in progress is dropped and the new
level reported (R57, R58), after the evaluation that a page of a record of the same SET LINE asks for (R153). DESIGN CHOICE
(log 40). -/
def applyPins (s : State) (l : LineId) (old : Settings) : State :=
  let new := (s.line l).io.inForce
  if old.loopback ≠ new.loopback ∨ (new.loopback = false ∧ old.inversion ≠ new.inversion) then reportLevelAfresh s l else s

/-- Step 4 of R62: each other setting takes effect under its own rule (R9, R10, R44, R57, R58, R69, R73, R111, R156). -/
def applyOthers (s : State) (l : LineId) (old : Settings) : State :=
  let t := s.modLine l fun x =>
    { x with
      cap := { x.cap with idleTimer := x.cap.idleTimer.map (retimeTimer s.timebase x.io.inForce.idleGap.toNat) }
      cond :=
        { x.cond with
          downTimer := x.cond.downTimer.map (retimeTimer s.timebase x.io.inForce.downTime.toNat)
          upTimer := x.cond.upTimer.map (retimeTimer s.timebase x.io.inForce.upTime.toNat)
          nullPending := x.cond.nullPending && x.io.inForce.breakNull } }
  let u := refreshTransmitter (retimeHold (retimeLease (applyMaxLength t l) l old) l) l
  if (s.line l).cond.state = .off then u else applyPins u l old

/-- The settings of a line that stays off (R62, step 2): stored, with the writer lease, the hold timeout and the inversion at once,
and a flow option turned off. The rest waits for LINE ON. -/
def storeSettings (s : State) (l : LineId) (old : Settings) (new : Settings) : State :=
  let t := s.modLine l fun x =>
    { x with
      io :=
        { x.io with
          settings := new
          inForce :=
            { x.io.inForce with
              lease := new.lease, holdTimeout := new.holdTimeout, inversion := new.inversion
              flow := x.io.inForce.flow && new.flow } } }
  refreshTransmitter (retimeHold (retimeLease t l old) l) l

/-- A SET LINE record applied at one moment (R62): the settings are replaced, and the effects follow in order: flow turned off,
enable, divisor and format, the others. A flow option turned off acts first, with the rest of the settings not yet in force.
Turning the line on puts every stored setting in force by itself (R60). Turning it off skips step 3, so the divisor and format
in force stay until the line is turned on (log 11). On a line that stays on every setting is in force from step 3 on, so a flow
character that the evaluation after FORMAT SET gives to a waiting transmitter (R153) goes out at the new inversion and loopback,
ahead of step 4. DESIGN CHOICE (log 41). -/
def applySettings (s : State) (l : LineId) (new : Settings) : State :=
  let old := (s.line l).io.inForce
  let flowOff := (s.line l).io.settings.flow && !new.flow
  if (s.line l).cond.state = .off then
    let t := storeSettings s l old new
    let u := if flowOff then turnFlowOff t l else t
    if new.enable then turnLineOn u l else u
  else
    let t := s.modIo l fun x => { x with settings := new, inForce := { old with flow := new.flow } }
    let u := if flowOff then turnFlowOff t l else t
    if new.enable then
      applyOthers (applyFormat (u.modIo l fun x => { x with inForce := new }) l old) l old
    else
      applyOthers
        (turnLineOff (u.modIo l fun x => { x with inForce := { new with divisor := old.divisor, format := old.format } }) l) l old

/-! ## The end of a data-out phase (R61, R85, R86, R138, R177) -/

/-- The SEND's characters are written: it ends with WRITE LOST or LINE OFF when the role or the line is gone, and otherwise becomes
the line's waiting SEND and tries its first run (R138, R139). With both gone it ends with WRITE LOST. DESIGN CHOICE (log 37). -/
def endSendData (s : State) (p : PortId) (l : LineId) (count : Nat) : State :=
  if (s.line l).writer ≠ some p then completeCommand s p { code := .writeLost, count := some (countHalf count) }
  else if (s.line l).cond.state = .off then completeCommand s p { code := .lineOff, count := some (countHalf count) }
  else
    placeRun
      ((s.modTx l fun x => { x with waiting := some (.send p (s.port p).buffer) }).modPort p fun x =>
        { x with phase := .waiting l }) l

/-- The settings record is written: it is checked and applied (R61, R62). -/
def endSetLineData (s : State) (p : PortId) (l : LineId) : State :=
  match settingsOf (s.port p).buffer with
  | none => failCheck s p .badArgument
  | some new => if (s.line l).hasControl p then prepare (applySettings s l new) p {} else failCheck s p .noControl

/-- The watch slot record is written: it is checked, and replaces the slot with progress 0 (R85, R86). -/
def endSetWatchData (s : State) (p : PortId) (l : LineId) (slot : Fin 4) : State :=
  match watchOf (s.port p).buffer with
  | none => failCheck s p .badArgument
  | some w =>
    if (s.line l).hasControl p then prepare (s.modLine l fun x => { x with watch := x.watch.set slot.val w }) p {}
    else failCheck s p .noControl

/-- DATA WRITE (R173, R177): in a data-out phase the byte is stored at the write point; the last byte ends the phase, and the
command checks and applies what was written. Otherwise the byte is discarded, as it is in PORT RESET (R180). -/
def execDataWrite (p : PortId) (byte : Byte) (s : State) : Outcome State Fault Refusal :=
  .next
    (if (s.port p).resetAsserted then s
    else
      let t := s.modPort p fun x => { x with pointer := nextOffset 16 }
      match (s.port p).phase with
      | .writing c =>
        let u := t.modPort p fun x => { x with buffer := x.buffer ++ [byte] }
        if (s.port p).buffer.length + 1 = (s.port p).transferLength then
          let v := u.modPort p fun x => { x with transferLength := 0, phase := .completing {} }
          match c with
          | .send l count => endSendData v p l count
          | .setLine l => endSetLineData v p l
          | .setWatch l slot => endSetWatchData v p l slot
        else u
      | .idle | .completing _ | .filling _ | .reading _ _ | .waiting _ => t)

/-! ## Events of the transmitter (R53, R54, R139, R142) -/

/-- SEND CHARACTER END (R53): the transmitter goes to GAP for the pacing gap in force, or reaches a start point. It has no effect on
a transmitter that is not in SENDING (log 3). -/
def execSendCharacterEnd (l : LineId) (s : State) : Outcome State Fault Refusal :=
  .next
    (match (s.line l).tx.state with
    | .sending _ =>
      if (s.line l).io.inForce.pacing = 0 then startPoint s l
      else
        s.modLine l fun x =>
          { x with
            tx :=
              { x.tx with
                state := .gap x.io.inForce.pacing.toNat (startTimer s.timebase), inUse := x.io.inForce.txUse } }
    | .idle | .gap _ _ | .breaking _ _ | .closing | .paused => s)

/-- PACING GAP EXPIRY (R53): the transmitter reaches a start point. It has no effect where the expiry does not stand (log 3). -/
def execPacingGapExpiry (l : LineId) (s : State) : Outcome State Fault Refusal :=
  .next
    (match (s.line l).tx.state with
    | .gap _ timer => if timer.due then startPoint s l else s
    | .idle | .sending _ | .breaking _ _ | .closing | .paused => s)

/-- BREAK DURATION EXPIRY (R54): the spacing ends and the closing character time follows, at the divisor and format in force. It has
no effect where the expiry does not stand (log 3). -/
def execBreakDurationExpiry (l : LineId) (s : State) : Outcome State Fault Refusal :=
  .next
    (match (s.line l).tx.state with
    | .breaking _ timer => if timer.due then s.modLine l fun x => { x with tx := cutBreak x } else s
    | .idle | .sending _ | .gap _ _ | .closing | .paused => s)

/-- BREAK CLOSING END (R54): the transmitter reaches a start point. It has no effect outside the closing time (log 3). -/
def execBreakClosingEnd (l : LineId) (s : State) : Outcome State Fault Refusal :=
  .next
    (match (s.line l).tx.state with
    | .closing => startPoint s l
    | .idle | .sending _ | .gap _ _ | .breaking _ _ | .paused => s)

/-- SEND RUN PLACEMENT (R139): the waiting SEND of the line places its next run once the free entries reach the refill step. With no
waiting SEND, or too little room, it has no effect (log 3). -/
def execSendRunPlacement (l : LineId) (s : State) : Outcome State Fault Refusal := .next (placeRun s l)

/-- BREAK MARKER PLACEMENT (R142): the waiting SEND BREAK of the line places its marker once an entry is free, and completes. With
none waiting, or no room, it has no effect (log 3). -/
def execBreakMarkerPlacement (l : LineId) (s : State) : Outcome State Fault Refusal := .next (placeMarker s l)

/-- HOLD TIMER EXPIRY (R156): XON is placed, HOLD TIMEOUT is written and the line enters SPENT. It has no effect where the expiry
does not stand (log 3). -/
def execHoldTimerExpiry (l : LineId) (s : State) : Outcome State Fault Refusal :=
  .next
    (if timerDue (s.line l).hold.timer then event (placeFlow (leaveHold s l .spent) l .xon) l .holdTimeout [] else s)

end Sys2Proof.Machine
end

