-- ==== Sys2Proof/Machine/Quota.lean ====
section
/-! DEFINITION. The pool commands: SET QUOTA, CLEAR HISTORY, FREEZE and THAW (chapter 2). -/

namespace Sys2Proof.Machine

open Host

/-- The outstanding reserve that a SET QUOTA would leave: with the new reserve and the held count the line would have (R32). -/
def outstandingAfter (s : State) (l : LineId) (reserve held : Nat) : Nat :=
  s.outstanding - ((s.line l).pool.reserve - (s.line l).held) + (reserve - held)

/-- The sum of the reserves with a new reserve for one line (R32). -/
def reservesAfter (s : State) (l : LineId) (reserve : Nat) : Nat :=
  (s.lines.toList.map fun ln => ln.pool.reserve).sum - (s.line l).pool.reserve + reserve

/-- The checks of SET QUOTA, in order, on a reserve and a limit (R32). -/
def quotaError (s : State) (l : LineId) (reserve limit : Nat) : Option ErrorCode :=
  let held := min (s.line l).held limit
  let free := s.freePages.length + ((s.line l).held - held)
  if reserve < 1 ∨ 128 < reserve ∨ limit < reserve ∨ 2048 < limit then some .badArgument
  else if (s.line l).pool.frozen = true ∧ limit < (s.line l).held then some .frozen
  else if 2048 < reservesAfter s l reserve then some .quota
  else if free < outstandingAfter s l reserve held then some .quota
  else none

/-- SET QUOTA (code 42h; R31, R32). COUNT and POSITION are read after the evaluation that it asks for, whose record may take or
recycle a page. DESIGN CHOICE (log 34). -/
def execSetQuota (p : PortId) (s : State) : Outcome State Fault Refusal :=
  .next
    (takeCommand s p false fun s =>
      withControl s p fun l =>
        let reserve := (s.port p).count.toNat
        let limit := (s.port p).value.toNat
        match quotaError s l reserve limit with
        | some code => failCheck s p code
        | none =>
          let t := s.modPool l fun x => { x with reserve := reserve, limit := limit }
          let u := askEvaluation (releasePages t l ((s.line l).held - limit)) l
          prepare u p { count := some (countHalf (u.line l).held), position := some (u.line l).cap.oldest })

/-- The log of a line emptied in one step (R33): the open record closes, every page is released, and CLEARED is written on a free
page. A freeze-pending count that reached 0 at the close takes effect after CLEARED. -/
def clearLog (s : State) (l : LineId) (p : PortId) : State :=
  let closed := closeOpen s l .event 0
  let freezes := (closed.line l).pool.frozenDue
  let t := closed.modPool l fun x => { x with frozen := false, frozenDue := false }
  let u := placeEvent (releasePages t l (t.line l).held) l .cleared [byteOf p.val]
  settle
    (if freezes then u.modPool l fun x => { x with freezePending := none, frozen := true, frozenDue := true } else u) l

/-- CLEAR HISTORY (code 43h; R31, R33): completes with the sequence number of the CLEARED record. -/
def execClearHistory (p : PortId) (s : State) : Outcome State Fault Refusal :=
  .next
    (takeCommand s p false fun s =>
      withControl s p fun l =>
        if (s.line l).pool.frozen then failCheck s p .frozen
        else prepare (clearLog s l p) p { position := some (s.line l).cap.next })

/-- FREEZE (code 44h; R31, R34). A line already frozen is left as it is (log 15). COUNT is read after the evaluation that it asks for,
whose HOLD END may take a free page. DESIGN CHOICE (log 34). -/
def execFreeze (p : PortId) (s : State) : Outcome State Fault Refusal :=
  .next
    (takeCommand s p false fun s =>
      withControl s p fun l =>
        let t :=
          if (s.line l).pool.frozen then s
          else
            askEvaluation
              (plainEvent (s.modPool l fun x => { x with frozen := true, freezePending := none }) l .frozen []) l
        prepare t p { count := some (countHalf (t.line l).held) })

/-- THAW (code 45h; R31, R39). -/
def execThaw (p : PortId) (s : State) : Outcome State Fault Refusal :=
  .next
    (takeCommand s p false fun s =>
      withControl s p fun l =>
        let x := (s.line l).pool
        if x.frozen = false ∧ x.freezePending = none then prepare s p { count := some 0, value := some 0 }
        else
          let t := s.modPool l fun x =>
            { x with frozen := false, freezePending := none, discardedChars := 0, discardedEvents := 0 }
          let u := askEvaluation
            (plainEvent t l .thawed (bytesLE 3 x.discardedChars ++ [byteOf x.discardedEvents])) l
          prepare u p
            { count := some (countHalf x.discardedEvents), value := some (BitVec.ofNat 32 x.discardedChars) })

end Sys2Proof.Machine
end

