-- ==== Sys2Proof/Machine/Ports.lean ====
section
/-! DEFINITION. ABORT, BAD COMMAND, argument writes, completion, port reset, device reset and the timebase (chapters 1 and 11). -/

namespace Sys2Proof.Machine

open Host

/-- The command in flight at a port ends with ABORTED: what it has done stands, and the results are those its rule gives (R179).
READ NEW: the cursor and the records delivered, with the overtaken mark tested (R124). READ HISTORY: the place reached and the
records read whole (R127). SEND: the characters not placed (R138, R140). The others name none. A read or a SEND that a check refused,
and that only awaits COMPLETION, has delivered and placed nothing: the refusal completes it (R175), so no result of R124, R127 or
R140 is written, and POSITION and COUNT stay as the master wrote them. DESIGN CHOICE (log 39). -/
def abortCommand (s : State) (p : PortId) : State :=
  match (s.port p).phase with
  | .idle => completeCommand s p {}
  | .completing _ => completeCommand s p { code := .aborted }
  | .filling (.readNew l _ _ delivered _) | .reading (.readNew l _ _ delivered _) _ =>
    let t := testOvertaken s l p
    completeCommand t p
      { code := .aborted, position := ((t.line l).attachment p).map (·.cursor), count := some (countHalf delivered) }
  | .filling (.readHistory _ position _ _ delivered) | .reading (.readHistory _ position _ _ delivered) _ =>
    completeCommand s p { code := .aborted, position := some position, count := some (countHalf delivered) }
  | .filling (.lineStatus _) | .reading (.lineStatus _) _ => completeCommand s p { code := .aborted }
  | .writing (.send _ count) => completeCommand s p { code := .aborted, count := some (countHalf count) }
  | .writing (.setLine _) | .writing (.setWatch _ _) => completeCommand s p { code := .aborted }
  | .waiting l => endWaiting s l .aborted

/-- ABORT (code 7Fh; R175, R179): taken in any phase, it clears COLLISION and ends the command in flight; on an idle port it
completes with NONE. It is ignored in PORT RESET (R180). -/
def execAbort (p : PortId) (s : State) : Outcome State Fault Refusal :=
  .next
    (if (s.port p).resetAsserted then s
    else (abortCommand s p).modPort p fun x => { x with collision := false, pointer := nextOffset 0 })

/-- BAD COMMAND (R175): a code that names no command is taken and completes with BAD COMMAND. -/
def execBadCommand (p : PortId) (_code : Byte) (s : State) : Outcome State Fault Refusal :=
  .next (takeCommand s p false fun s => failCheck s p .badCommand)

/-- A byte stored at an argument offset: 2 LINE, 3 OPTION, 4 to 5 COUNT, 6 to 9 POSITION, 10 to 13 VALUE; any other offset stores
nothing (R172). -/
def Port.storeArgument (offset : Nat) (b : Byte) (x : Port) : Port :=
  if offset = 2 then { x with line := b }
  else if offset = 3 then { x with option := b }
  else if offset = 4 ∨ offset = 5 then { x with count := setByte x.count (offset - 4) b }
  else if 6 ≤ offset ∧ offset ≤ 9 then { x with position := setByte x.position (offset - 6) b }
  else if 10 ≤ offset ∧ offset ≤ 13 then { x with value := setByte x.value (offset - 10) b }
  else x

/-- The offset is an argument field's (R172). -/
def isArgument (offset : BitVec 5) : Bool := decide (2 ≤ offset.toNat ∧ offset.toNat ≤ 13)

/-- ARGUMENT WRITE (R172, R173): an idle port stores the byte; otherwise it is discarded and COLLISION is set. It is discarded in
PORT RESET (R180). An offset outside the argument fields stores nothing and sets no flag (log 28). -/
def execArgumentWrite (p : PortId) (offset : BitVec 5) (byte : Byte) (s : State) : Outcome State Fault Refusal :=
  .next
    (if (s.port p).resetAsserted then s
    else
      s.modPort p fun x =>
        let y := { x with pointer := nextOffset offset }
        if isArgument offset then if x.idle then y.storeArgument offset.toNat byte else { y with collision := true } else y)

/-- COMPLETION (R178): a command whose results are prepared completes. A port with none is left as it is (log 3). -/
def execCompletion (p : PortId) (s : State) : Outcome State Fault Refusal :=
  .next
    (match (s.port p).phase with
    | .completing r => completeCommand s p r
    | .idle | .filling _ | .reading _ _ | .writing _ | .waiting _ => s)

/-- The command in flight ends at a port reset, as an ABORT would end it, with the results its rule gives for a port reset: COUNT of
a SEND (R140), none for the others (R124, R127, R180). With no command in flight ERROR becomes NONE. -/
def resetCommand (s : State) (p : PortId) : State :=
  match (s.port p).phase with
  | .idle => completeCommand s p {}
  | .completing _ | .filling _ | .reading _ _ => completeCommand s p { code := .aborted }
  | .writing (.send _ count) => completeCommand s p { code := .aborted, count := some (countHalf count) }
  | .writing (.setLine _) | .writing (.setWatch _ _) => completeCommand s p { code := .aborted }
  | .waiting l => endWaiting s l .aborted

/-- A line under a port reset: the port's attachment, if it has one, is removed (R113). -/
def resetOnLine (p : PortId) (s : State) (l : LineId) : State :=
  if ((s.line l).attachment p).isSome then removeAttachment s l p .portReset else s

/-- PORT RESET (R113, R180): the command in flight ends, the flags and the cause set are cleared, and every attachment of the port is
removed, line by line from L0 (log 12). The input is then asserted; a port already in reset is left as it is (log 18). -/
def execPortReset (p : PortId) (s : State) : Outcome State Fault Refusal :=
  .next
    (if (s.port p).resetAsserted then s
    else
      let t := (resetCommand s p).modPort p fun x => { x with collision := false, causes := [], resetAsserted := true }
      (List.finRange 16).foldl (resetOnLine p) t)

/-- PORT RESET RELEASE (R180): the port takes SPI transactions again. It was left idle by the assertion. Each byte of a transaction
that is under way at the release is from then on a command of its own. DESIGN CHOICE (log 36). -/
def execPortResetRelease (p : PortId) (s : State) : Outcome State Fault Refusal :=
  .next (s.modPort p fun x => { x with resetAsserted := false })

/-- The precedence that two straps give: 2 × strap 1 + strap 0 (R181). -/
def strapPrecedence (straps : BitVec 2) : Nat := straps.toNat

/-- DEVICE RESET (R181): every block takes its device reset values, with the timebase at 0 and every page free, and at the end each
port samples its straps. The levels at the receive pins and the PORT RESET inputs are the outside world's and stay (log 19), and
so do the commands still queued. -/
def execDeviceReset (straps0 straps1 straps2 : BitVec 2) (s : State) : Outcome State Fault Refusal :=
  .next
    { pending := s.pending
      timebase := 0
      advancePhase := 0
      freeIndex := s.freeIndex
      freePages := List.range Config.pageCount
      lines := s.lines.map fun x => Line.atReset x.io.pinHigh
      ports :=
        #v[Port.atReset (strapPrecedence straps0) (s.port 0).resetAsserted,
          Port.atReset (strapPrecedence straps1) (s.port 1).resetAsserted,
          Port.atReset (strapPrecedence straps2) (s.port 2).resetAsserted] }

/-- The transmitter's timer at an advance (R5, R53, R54). -/
def TxState.tick (now : Word) : TxState → TxState
  | .gap d t => .gap d (tickTimer now d t)
  | .breaking d t => .breaking d (tickTimer now d t)
  | .idle => .idle
  | .sending c => .sending c
  | .closing => .closing
  | .paused => .paused

/-- Every running timer of a line at an advance to a reading: due once its duration is reached (R5; log 4). -/
def Line.tick (now : Word) (x : Line) : Line :=
  let f := x.io.inForce
  { x with
    cap := { x.cap with idleTimer := x.cap.idleTimer.map (tickTimer now f.idleGap.toNat) }
    cond :=
      { x.cond with
        downTimer := x.cond.downTimer.map (tickTimer now f.downTime.toNat)
        upTimer := x.cond.upTimer.map (tickTimer now f.upTime.toNat) }
    att := { x.att with leaseTimer := x.att.leaseTimer.map (tickTimer now (1000 * f.lease.toNat)) }
    tx := { x.tx with state := x.tx.state.tick now }
    hold := { x.hold with timer := x.hold.timer.map (tickTimer now f.holdTimeout.toNat) } }

/-- TIMEBASE ADVANCE (R5): one millisecond; after 4 294 967 295 the timebase is 0. The timers whose durations are reached fall due,
and their expiries are commands of their own (log 4). -/
def execTimebaseAdvance (s : State) : Outcome State Fault Refusal :=
  .next
    { s with
      timebase := s.timebase + 1
      advancePhase := s.advancePhase + 1
      lines := s.lines.map (Line.tick (s.timebase + 1)) }

end Sys2Proof.Machine
end

