-- ==== Sys2Proof/Machine/Dispatch.lean ====
section
/-! DEFINITION. The dispatch of a command to its meaning, one arm per row of the opcode table. -/

namespace Sys2Proof.Machine

def exec (i : Instr) (s : State) : Host.Outcome State Fault Refusal :=
  match i with
  | .nextCause p => Sys2Proof.Machine.execNextCause p s
  | .readTime p => Sys2Proof.Machine.execReadTime p s
  | .attach p => Sys2Proof.Machine.execAttach p s
  | .detach p => Sys2Proof.Machine.execDetach p s
  | .releaseWrite p => Sys2Proof.Machine.execReleaseWrite p s
  | .readNew p => Sys2Proof.Machine.execReadNew p s
  | .readHistory p => Sys2Proof.Machine.execReadHistory p s
  | .countNew p => Sys2Proof.Machine.execCountNew p s
  | .seek p => Sys2Proof.Machine.execSeek p s
  | .lineStatus p => Sys2Proof.Machine.execLineStatus p s
  | .send p => Sys2Proof.Machine.execSend p s
  | .sendBreak p => Sys2Proof.Machine.execSendBreak p s
  | .resetLine p => Sys2Proof.Machine.execResetLine p s
  | .enterHunt p => Sys2Proof.Machine.execEnterHunt p s
  | .setLine p => Sys2Proof.Machine.execSetLine p s
  | .setWatch p => Sys2Proof.Machine.execSetWatch p s
  | .setQuota p => Sys2Proof.Machine.execSetQuota p s
  | .clearHistory p => Sys2Proof.Machine.execClearHistory p s
  | .freeze p => Sys2Proof.Machine.execFreeze p s
  | .thaw p => Sys2Proof.Machine.execThaw p s
  | .clearCondition p => Sys2Proof.Machine.execClearCondition p s
  | .rearm p => Sys2Proof.Machine.execRearm p s
  | .abort p => Sys2Proof.Machine.execAbort p s
  | .badCommand p code => Sys2Proof.Machine.execBadCommand p code s
  | .argumentWrite p offset byte => Sys2Proof.Machine.execArgumentWrite p offset byte s
  | .dataWrite p byte => Sys2Proof.Machine.execDataWrite p byte s
  | .dataRead p => Sys2Proof.Machine.execDataRead p s
  | .fillEnd p => Sys2Proof.Machine.execFillEnd p s
  | .portReset p => Sys2Proof.Machine.execPortReset p s
  | .portResetRelease p => Sys2Proof.Machine.execPortResetRelease p s
  | .deviceReset straps0 straps1 straps2 => Sys2Proof.Machine.execDeviceReset straps0 straps1 straps2 s
  | .timebaseAdvance => Sys2Proof.Machine.execTimebaseAdvance s
  | .characterComplete l data parityBit stopBit => Sys2Proof.Machine.execCharacterComplete l data parityBit stopBit s
  | .receiveLevelReport l level => Sys2Proof.Machine.execReceiveLevelReport l level s
  | .idleTimerExpiry l => Sys2Proof.Machine.execIdleTimerExpiry l s
  | .downTimerExpiry l => Sys2Proof.Machine.execDownTimerExpiry l s
  | .upTimerExpiry l => Sys2Proof.Machine.execUpTimerExpiry l s
  | .leaseExpiry l => Sys2Proof.Machine.execLeaseExpiry l s
  | .holdTimerExpiry l => Sys2Proof.Machine.execHoldTimerExpiry l s
  | .pacingGapExpiry l => Sys2Proof.Machine.execPacingGapExpiry l s
  | .breakDurationExpiry l => Sys2Proof.Machine.execBreakDurationExpiry l s
  | .breakClosingEnd l => Sys2Proof.Machine.execBreakClosingEnd l s
  | .sendCharacterEnd l => Sys2Proof.Machine.execSendCharacterEnd l s
  | .sendRunPlacement l => Sys2Proof.Machine.execSendRunPlacement l s
  | .breakMarkerPlacement l => Sys2Proof.Machine.execBreakMarkerPlacement l s
  | .completion p => Sys2Proof.Machine.execCompletion p s
  | .falseStart l => Sys2Proof.Machine.execFalseStart l s

end Sys2Proof.Machine
end

