-- ==== Sys2Proof/Machine/Window.lean ====
section
/-! DEFINITION. SPI transactions as the commands that their bytes are (R172, R175). -/

namespace Sys2Proof.Machine

/-- The command that a byte written to COMMAND is (R175). -/
def commandOf (p : PortId) (code : Byte) : Instr :=
  match code.toNat with
  | 0x01 => .nextCause p
  | 0x02 => .readTime p
  | 0x10 => .attach p
  | 0x11 => .detach p
  | 0x12 => .releaseWrite p
  | 0x20 => .readNew p
  | 0x21 => .readHistory p
  | 0x22 => .countNew p
  | 0x23 => .seek p
  | 0x24 => .lineStatus p
  | 0x30 => .send p
  | 0x31 => .sendBreak p
  | 0x32 => .resetLine p
  | 0x33 => .enterHunt p
  | 0x40 => .setLine p
  | 0x41 => .setWatch p
  | 0x42 => .setQuota p
  | 0x43 => .clearHistory p
  | 0x44 => .freeze p
  | 0x45 => .thaw p
  | 0x46 => .clearCondition p
  | 0x47 => .rearm p
  | 0x7F => .abort p
  | _ => .badCommand p code

/-- The command that a byte written at an offset is, if it is examined (R172). -/
def writeOf (p : PortId) (offset : BitVec 5) (b : Byte) : Option Instr :=
  if offset = 0 then some (commandOf p b)
  else if isArgument offset then some (.argumentWrite p offset b)
  else if offset = 16 then some (.dataWrite p b) else none

/-- The command that a byte read at an offset is: a read of DATA; the reads of other offsets change nothing (R172). -/
def readOf (p : PortId) (offset : BitVec 5) : Option Instr := if offset = 16 then some (.dataRead p) else none

/-- The commands of the bytes of a transaction from an offset on (R172). A transaction under way when PORT RESET is released goes on
byte by byte: those before the release are ignored, those after it act. DESIGN CHOICE (log 36). -/
def transactionFrom (p : PortId) (read : Bool) : BitVec 5 → List Byte → List Instr
  | _, [] => []
  | offset, b :: bs =>
    (if read then readOf p offset else writeOf p offset b).toList ++ transactionFrom p read (nextOffset offset) bs

/-- The commands of an SPI transaction, from its header and the whole bytes that follow: bit 7 of the header is 1 for a read, bits 4
to 0 are the starting offset, bits 6 and 5 are not examined (R172). In a read the bytes are those handed out. -/
def transaction (p : PortId) (header : Byte) (bytes : List Byte) : List Instr :=
  transactionFrom p (header.getLsbD 7) (header.setWidth 5) bytes

end Sys2Proof.Machine
end

