-- ==== Sys2Proof/WellFormed.lean ====
section
/-! DEFINITION. Which commands the interface can carry: the operand ranges that the types of Instr do not already hold. -/

namespace Sys2Proof

/-- BAD COMMAND is a write of a code that names no command (R175). An argument write lies at an argument offset, 2 to 13
(R172). Every other operand is bounded by its type. -/
def Instr.wellFormed : Instr → Bool
  | .badCommand _ code => decide (code ∉ commandCodes)
  | .argumentWrite _ offset _ => decide (2 ≤ offset.toNat ∧ offset.toNat ≤ 13)
  | .nextCause _ | .readTime _ | .attach _ | .detach _ | .releaseWrite _ | .readNew _ | .readHistory _ | .countNew _
  | .seek _ | .lineStatus _ | .send _ | .sendBreak _ | .resetLine _ | .enterHunt _ | .setLine _ | .setWatch _
  | .setQuota _ | .clearHistory _ | .freeze _ | .thaw _ | .clearCondition _ | .rearm _ | .abort _
  | .dataWrite _ _ | .dataRead _ | .fillEnd _ | .portReset _ | .portResetRelease _ | .deviceReset _ _ _
  | .timebaseAdvance | .characterComplete _ _ _ _ | .receiveLevelReport _ _ | .idleTimerExpiry _ | .downTimerExpiry _
  | .upTimerExpiry _ | .leaseExpiry _ | .holdTimerExpiry _ | .pacingGapExpiry _ | .breakDurationExpiry _
  | .breakClosingEnd _ | .sendCharacterEnd _ | .sendRunPlacement _ | .breakMarkerPlacement _ | .completion _
  | .falseStart _ => true

end Sys2Proof
end

