-- ==== Sys2Proof/Safety.lean ====
section
/-! DEFINITION. What claims are stated in: what a command may act on, the frames, and the invariants of the part. -/

namespace Sys2Proof.Machine

/-! ## What a command acts on -/

/-- The line of a data-in command; a line status record is already worked out and has none. -/
def DataIn.line? : DataIn → Option LineId
  | .readNew l _ _ _ _ => some l
  | .readHistory l _ _ _ _ => some l
  | .lineStatus _ => none

/-- The line of a data-out command. -/
def DataOut.line : DataOut → LineId
  | .send l _ => l
  | .setLine l => l
  | .setWatch l _ => l

/-- The line of the command that a port has in flight, in a data phase, a fill or a wait. -/
def Phase.line? : Phase → Option LineId
  | .idle => none
  | .completing _ => none
  | .filling c => c.line?
  | .reading c _ => c.line?
  | .writing c => some c.line
  | .waiting l => some l

/-- The port of a waiting SEND or SEND BREAK. -/
def Waiting.port : Waiting → PortId
  | .send p _ => p
  | .sendBreak p _ => p

/-- What a command reads to name its line: nothing, the line itself, the LINE field of a port, or the command a port has in flight. -/
inductive Scope where
  | nothing
  | line (l : LineId)
  | named (p : PortId)
  | inFlight (p : PortId)
  | everything

end Sys2Proof.Machine

namespace Sys2Proof

/-- The port whose unit takes a command; none for an event of a line or of the whole part. -/
def Instr.port? : Instr → Option PortId
  | .nextCause p | .readTime p | .attach p | .detach p | .releaseWrite p | .readNew p | .readHistory p | .countNew p
  | .seek p | .lineStatus p | .send p | .sendBreak p | .resetLine p | .enterHunt p | .setLine p | .setWatch p
  | .setQuota p | .clearHistory p | .freeze p | .thaw p | .clearCondition p | .rearm p | .abort p | .badCommand p _
  | .argumentWrite p _ _ | .dataWrite p _ | .dataRead p | .fillEnd p | .portReset p | .portResetRelease p
  | .completion p => some p
  | .deviceReset _ _ _ | .timebaseAdvance | .characterComplete _ _ _ _ | .receiveLevelReport _ _ | .idleTimerExpiry _
  | .downTimerExpiry _ | .upTimerExpiry _ | .leaseExpiry _ | .holdTimerExpiry _ | .pacingGapExpiry _
  | .breakDurationExpiry _ | .breakClosingEnd _ | .sendCharacterEnd _ | .sendRunPlacement _ | .breakMarkerPlacement _
  | .falseStart _ => none

/-- A data-in command (section 11.2). -/
def Instr.dataIn : Instr → Bool
  | .readNew _ | .readHistory _ | .lineStatus _ => true
  | _ => false

/-- Where a command finds the line that it acts on. -/
def Instr.scope : Instr → Machine.Scope
  | .attach p | .detach p | .releaseWrite p | .readNew p | .readHistory p | .countNew p | .seek p | .lineStatus p | .send p
  | .sendBreak p | .resetLine p | .enterHunt p | .setLine p | .setWatch p | .setQuota p | .clearHistory p | .freeze p
  | .thaw p | .clearCondition p | .rearm p => .named p
  | .abort p | .dataWrite p _ | .dataRead p | .fillEnd p => .inFlight p
  | .nextCause _ | .readTime _ | .badCommand _ _ | .argumentWrite _ _ _ | .completion _ | .portResetRelease _ => .nothing
  | .portReset _ | .deviceReset _ _ _ | .timebaseAdvance => .everything
  | .characterComplete l _ _ _ | .receiveLevelReport l _ | .idleTimerExpiry l | .downTimerExpiry l | .upTimerExpiry l
  | .leaseExpiry l | .holdTimerExpiry l | .pacingGapExpiry l | .breakDurationExpiry l | .breakClosingEnd l
  | .sendCharacterEnd l | .sendRunPlacement l | .breakMarkerPlacement l | .falseStart l => .line l

/-- The port of a write to COMMAND of a code other than ABORT. -/
def Instr.codePort? : Instr → Option PortId
  | .nextCause p | .readTime p | .attach p | .detach p | .releaseWrite p | .readNew p | .readHistory p | .countNew p
  | .seek p | .lineStatus p | .send p | .sendBreak p | .resetLine p | .enterHunt p | .setLine p | .setWatch p
  | .setQuota p | .clearHistory p | .freeze p | .thaw p | .clearCondition p | .rearm p | .badCommand p _ => some p
  | .abort _ | .argumentWrite _ _ _ | .dataWrite _ _ | .dataRead _ | .fillEnd _ | .portReset _ | .portResetRelease _
  | .deviceReset _ _ _ | .timebaseAdvance | .characterComplete _ _ _ _ | .receiveLevelReport _ _ | .idleTimerExpiry _
  | .downTimerExpiry _ | .upTimerExpiry _ | .leaseExpiry _ | .holdTimerExpiry _ | .pacingGapExpiry _
  | .breakDurationExpiry _ | .breakClosingEnd _ | .sendCharacterEnd _ | .sendRunPlacement _ | .breakMarkerPlacement _
  | .completion _ | .falseStart _ => none

end Sys2Proof

namespace Sys2Proof.Machine

/-- A command may act on a line: the line of an event, the line named in LINE, the line of the command in flight, or any line. -/
def State.actsOn (s : State) (c : Instr) (l : LineId) : Prop :=
  match c.scope with
  | .nothing => False
  | .line k => l = k
  | .named p => lineOf (s.port p).line = some l
  | .inFlight p => (s.port p).phase.line? = some l
  | .everything => True

/-- A command may write the command block of a port: its own port's, or that of a port whose SEND or SEND BREAK waits on a line the
command acts on. -/
def State.owns (s : State) (c : Instr) (q : PortId) : Prop :=
  c.port? = some q ∨ ∃ l, s.actsOn c l ∧ ∃ w, (s.line l).tx.waiting = some w ∧ w.port = q

/-! ## Settings in range (R42) -/

/-- The settings of a line, stored and in force, are in the ranges R42 gives. -/
def Interface.inRange (x : Interface) : Bool := x.settings.inRange && x.inForce.inRange

/-- The settings of every line are in range. -/
def SettingsOk (s : State) : Prop := ∀ l, (s.line l).io.inRange = true

/-! ## Invariants -/

/-- No transmit queue holds more than its 64 entries (R133). -/
def QueueBound (s : State) : Prop := ∀ l, (s.line l).tx.queue.length ≤ Config.queueSize

/-- On every line a port has at most one attachment, and at most one attachment is the writer (R98). -/
def AttachmentTable (s : State) : Prop :=
  ∀ l, ((s.line l).att.list.map (·.port)).Nodup
    ∧ ((s.line l).att.list.filter fun a => decide (a.role = .writer)).length ≤ 1

/-- Every cause set is in the order of reporting, with one cause at most for a kind and a line (R160, R170). -/
def CauseOrder (s : State) : Prop := ∀ p, ((s.port p).causes.map Cause.rank).Pairwise (· < ·)

/-- Each of the pages is on the free list or on the page list of one line, once (R25). -/
def PagePartition (s : State) : Prop :=
  (s.freePages ++ (List.finRange 16).flatMap fun l => (s.line l).pool.pages.map (·.number)).Perm (List.range Config.pageCount)

/-- Reserves, limits and held counts lie in their ranges, the reserves do not exceed the pages, and the outstanding reserve does not
exceed the free pages (R24, R29). -/
def QuotaBounds (s : State) : Prop :=
  (∀ l, 1 ≤ (s.line l).pool.reserve ∧ (s.line l).pool.reserve ≤ 128 ∧ (s.line l).pool.reserve ≤ (s.line l).pool.limit
      ∧ (s.line l).pool.limit ≤ Config.pageCount ∧ (s.line l).held ≤ (s.line l).pool.limit)
    ∧ (s.lines.toList.map fun x => x.pool.reserve).sum ≤ Config.pageCount
    ∧ s.outstanding ≤ s.freePages.length

/-- The sequence numbers of a line's log: of its closed records, and of the open record, which is the newest (R1, R7). -/
def Line.logSeqs (x : Line) : List Seq := x.closed.map (·.seq) ++ (x.cap.opened.map (·.seq)).toList

/-- Consecutive sequence numbers from one on, 1 following the largest (R2). -/
def seqRun (q : Seq) : Nat → List Seq
  | 0 => []
  | k + 1 => q :: seqRun (nextSeq q) k

/-- A log holds consecutive sequence numbers from its oldest up to, and not including, its next; 0 is none of them (R1, R2). -/
def Line.consecutive (x : Line) : Prop :=
  x.cap.oldest ≠ 0 ∧ x.cap.next ≠ 0 ∧ x.logSeqs = seqRun x.cap.oldest x.logSeqs.length
    ∧ x.cap.next = nextSeq^[x.logSeqs.length] x.cap.oldest

/-- The bytes an open record occupies (R4). -/
def OpenRecord.size (o : OpenRecord) : Nat := Config.header + o.body.length

/-- A page's header fits the records on it, the open record among them on the newest page: the bytes they occupy, and the sequence
number of the first (R4, R26). -/
def Page.laid (o : Option OpenRecord) (pg : Page) : Prop :=
  pg.occupied = (pg.records.map LogRecord.size).sum + (o.map OpenRecord.size).getD 0
    ∧ ∀ q, (pg.records.map (·.seq) ++ (o.map (·.seq)).toList).head? = some q → pg.firstSeq = q

/-- Every page of a list fits its records, and each but the newest holds a record; the open record is on the newest (R4). -/
def pagesLaid (o : Option OpenRecord) : List Page → Prop
  | [] => o = none
  | [pg] => pg.laid o
  | pg :: pg' :: rest => pg.laid none ∧ pg.records ≠ [] ∧ pagesLaid o (pg' :: rest)

/-- Every line's log is consecutive and laid out on its pages (R1, R2, R4, R26). -/
def LogKept (s : State) : Prop :=
  ∀ l, (s.line l).consecutive ∧ pagesLaid (s.line l).cap.opened (s.line l).pool.pages

/-- A port waits on a line exactly when the line's waiting SEND or SEND BREAK is the port's, which is then the line's writer (R138, R142). -/
def WaitingAgrees (s : State) : Prop :=
  (∀ p l, (s.port p).phase = .waiting l ↔ ∃ w, (s.line l).tx.waiting = some w ∧ w.port = p)
    ∧ ∀ l w, (s.line l).tx.waiting = some w → (s.line l).writer = some w.port

/-- The working marks of the model are clear on every line, as they are between steps (log 10). -/
def MarksClear (s : State) : Prop := ∀ l, (s.line l).pool.frozenDue = false ∧ (s.line l).hold.evalDue = false

/-! ## Causes that stand with what they tell (R160, R162, R164, R167, R168) -/

/-- A cause of a kind for a line is pending at a port. -/
def Port.hasCause (x : Port) (k : CauseKind) (l : LineId) : Bool := x.causes.any fun c => decide (c.kind = k ∧ c.line = l)

/-- The causes of a port for a line agree with its attachment there. Without one there is none (R160). With one, OVERTAKEN is pending
exactly while the mark is set (R162), CONDITION exactly while condition enable is set over a latch that is not empty (R164), and DATA
in LEVEL mode exactly while the unread count is at or above the trigger level (R167), in NONE mode never (R168). -/
def Line.causesAgree (ln : Line) (l : LineId) (p : PortId) (x : Port) : Prop :=
  match ln.attachment p with
  | none => ∀ c ∈ x.causes, c.line ≠ l
  | some a =>
    (x.hasCause .overtaken l = true ↔ a.overtaken = true)
      ∧ (x.hasCause .condition l = true ↔ a.conditionEnable = true ∧ a.latch ≠ 0)
      ∧ match a.mode with
        | .level trigger => (x.hasCause .data l = true ↔ trigger.toNat ≤ ln.unread a)
        | .none => x.hasCause .data l = false
        | .first _ => True

/-- The causes of every port agree with its attachments, and the drain mark of a line holds its writer or no port (R147). -/
def CausesStand (s : State) : Prop :=
  ∀ l, (∀ p, (s.line l).causesAgree l p (s.port p)) ∧ ∀ p, (s.line l).tx.drainMark = some p → (s.line l).writer = some p

/-! ## Frames -/

/-- A port that differs in its cause set alone. -/
def Port.SameBlock (x y : Port) : Prop := y = { x with causes := y.causes }

/-- The causes of a port that are not for a line of a set. -/
def Port.causesOutside (x : Port) (on : LineId → Bool) : List Cause := x.causes.filter fun c => !on c.line

/-- A port ready to take a command: idle and not in PORT RESET (R173, R175, R180). -/
def Port.ready (x : Port) : Prop := x.resetAsserted = false ∧ x.idle = true

/-! ## Taking a command -/

/-- A port is ready to take a command, and its LINE field names a line. -/
def State.calls (s : State) (p : PortId) (l : LineId) : Prop := (s.port p).ready ∧ lineOf (s.port p).line = some l

/-- A port that has taken a command whose effects are carried out: STATUS shows BUSY, COLLISION and ERROR are clear, and the results
wait for COMPLETION (R174, R175, log 7). -/
def Port.taken (dataIn : Bool) (r : Results) (x : Port) : Port :=
  { x with collision := false, errorFlag := false, error := .none, dataIn := dataIn, pointer := 1, phase := .completing r }

/-- A byte is the last of a settings record that a port with the control right on a line writes there, and the record spells these
settings (R61). -/
def State.endsSetLine (s : State) (p : PortId) (l : LineId) (b : Byte) (new : Settings) : Prop :=
  (s.port p).resetAsserted = false ∧ (s.port p).phase = .writing (.setLine l)
    ∧ (s.port p).buffer.length + 1 = (s.port p).transferLength ∧ settingsOf ((s.port p).buffer ++ [b]) = some new
    ∧ (s.line l).hasControl p = true

/-- The state in which a port has taken a command that changed nothing but the port's own block. -/
def State.answer (s : State) (p : PortId) (dataIn : Bool) (r : Results) : State := s.modPort p (Port.taken dataIn r)

/-- A port has taken a command and awaits these results; its cause set is left open. -/
def Answered (s t : State) (p : PortId) (r : Results) : Prop := ((s.port p).taken false r).SameBlock (t.port p)

/-- A port whose command has completed with these results, STATUS and the fields as R178 gives; its cause set is left open. -/
def Completed (s t : State) (p : PortId) (r : Results) : Prop := ((s.port p).complete r).SameBlock (t.port p)

/-! ## Records written -/

/-- What a master holds of an attachment, but for its overtaken mark, its armed flag and its latch, which reports change. -/
def Attachment.standing (a : Attachment) : PortId × Role × Seq × Mode × Bool × Bool × Bool :=
  (a.port, a.role, a.cursor, a.mode.disarmed, a.lossless, a.conditionEnable, a.watchEnable)

/-- What writing records on a line leaves as it was: settings, condition, watch slots, the lease timer and what stands of the
attachments, the queue, the quota. -/
def Line.RecordFrame (x y : Line) : Prop :=
  y.io = x.io ∧ y.cond = x.cond ∧ y.watch = x.watch ∧ y.att.leaseTimer = x.att.leaseTimer
    ∧ y.att.list.map Attachment.standing = x.att.list.map Attachment.standing
    ∧ y.tx.queue = x.tx.queue ∧ y.tx.pause = x.tx.pause ∧ y.tx.drainMark = x.tx.drainMark ∧ y.tx.waiting = x.tx.waiting
    ∧ y.pool.reserve = x.pool.reserve ∧ y.pool.limit = x.pool.limit

/-- A line on which records of so many bytes in all can be placed without a page request, with nothing else due on it: a freeze
count would bring a FROZEN record of its own. -/
def Line.roomy (bytes : Nat) (x : Line) : Prop :=
  x.pool.pages ≠ [] ∧ bytes ≤ x.room ∧ x.pool.freezePending = none ∧ x.pool.frozenDue = false ∧ x.hold.evalDue = false

/-- The hold evaluation of a line has nothing to do (R152, R154). -/
def Line.noHold (x : Line) : Prop := x.hold.state = .none ∧ x.io.inForce.flow = false

/-- A log of fewer numbers than the bound of R125 (log 14). -/
def Line.shortLog (x : Line) : Prop := seqDist x.cap.oldest x.cap.next < 2147483648

/-- The hold of a line stands as an evaluation leaves it (R154): no hold without its condition, but for one that the evaluation itself
ended, and none on a line that is not held while the condition holds. -/
def Evaluated (s t : State) (l : LineId) : Prop :=
  ((s.line l).hold.state ≠ .held → (t.line l).hold.state = .none → holdCondition t l = false)
    ∧ ((t.line l).hold.state ≠ .none → holdCondition t l = true)

/-- A page request of a line would be given a free page (R23, step 1), in the terms of the rule. -/
def State.mayTake (s : State) (l : LineId) : Prop :=
  (s.line l).held < (s.line l).pool.limit
    ∧ ((s.line l).held < (s.line l).pool.reserve ∨ s.outstanding < s.freePages.length)

/-- A record of so many bytes has no room on the current page of a line, and a page request would be refused (R22, R23). -/
def State.pageless (s : State) (l : LineId) (bytes : Nat) : Prop :=
  ((s.line l).pool.pages = [] ∨ (s.line l).room < bytes) ∧ (s.line l).pool.frozen = true ∧ ¬ s.mayTake l

/-! ## Entries taken -/

/-- The transmitter took an entry of a line's queue, which left these behind: with none left DRAINED stands at the port that the drain
mark held, and the mark is gone; otherwise the mark stays, and no DRAINED is posted (R135, R146). -/
def DrainTold (s t : State) (l : LineId) (rest : List Entry) : Prop :=
  (t.line l).tx.queue = rest
    ∧ (∀ p, rest = [] → (s.line l).tx.drainMark = some p →
      (∃ c ∈ (t.port p).causes, c.kind = .drained ∧ c.line = l) ∧ (t.line l).tx.drainMark = none)
    ∧ (rest ≠ [] ∨ (s.line l).tx.drainMark = none → (t.line l).tx.drainMark = (s.line l).tx.drainMark
      ∧ ∀ p, (t.port p).causes.filter (fun c => decide (c.kind = .drained))
        = (s.port p).causes.filter fun c => decide (c.kind = .drained))

/-! ## Characters received -/

/-- The character that completes on a line, from the one in progress (R44 to R46, R58). -/
def Line.completes (x : Line) (data : Byte) (parity stop : Bool) (r : Received) : Prop :=
  ∃ divisor f driven, x.io.receiver = .inCharacter divisor f driven ∧ r = driven.sampled f data parity stop

/-- A character that a line stores: in RUN, without error, neither consumed nor suppressed (R48, R65, R69). -/
def Line.stores (x : Line) (r : Received) : Prop :=
  x.cond.state = .run ∧ r.errored = false ∧ ¬ (x.io.inForce.flow = true ∧ (r.value = 0x13 ∨ r.value = 0x11))
    ∧ ¬ (x.io.inForce.stripPresent = true ∧ r.value = x.io.inForce.strip) ∧ ¬ (x.cond.nullPending = true ∧ r.value = 0)

/-- The event record that a line writes next (R2, R3, R17). -/
def eventRecord (s : State) (l : LineId) (e : Event) (argument : List Byte) : LogRecord :=
  { seq := (s.line l).cap.next, time := s.timebase, kind := .event, cause := e.code, detail := 0, body := argument }

/-- The record that an open record becomes at its close (R12). -/
def OpenRecord.closed (o : OpenRecord) (cause : CloseCause) (detail : Byte) : LogRecord :=
  { seq := o.seq, time := o.time, kind := .text, cause := cause.code, detail := detail, body := o.body }

/-- The open record of a line, if there is one, as it closes. -/
def Line.closing (x : Line) (cause : CloseCause) (detail : Byte) : List LogRecord :=
  (x.cap.opened.map fun o => o.closed cause detail).toList

/-- Where the page has room, an event record was written at the newest end of the log, the open record closing before it with EVENT
(R2, R4, R16). -/
def LogsEvent (s t : State) (l : LineId) (e : Event) (argument : List Byte) : Prop :=
  (s.line l).roomy (Config.header + argument.length) →
    (t.line l).closed = (s.line l).closed ++ (s.line l).closing .event 0 ++ [eventRecord s l e argument]
      ∧ (t.line l).cap.opened = none ∧ (t.line l).cap.next = nextSeq (s.line l).cap.next
      ∧ (t.line l).cap.oldest = (s.line l).cap.oldest

/-- A condition event was latched into every attachment of the line, and CONDITION stands at each port whose attachment has condition
enable set (R83, R164). -/
def LatchesEvent (s t : State) (l : LineId) (e : CondEvent) : Prop :=
  (t.line l).att.list.map (·.latch) = (s.line l).att.list.map (fun a => a.latch ||| e.bit)
    ∧ ∀ p a, (s.line l).attachment p = some a → a.conditionEnable = true →
      ∃ c ∈ (t.port p).causes, c.kind = .condition ∧ c.line = l

/-- The latches of a line stay as they are. -/
def Line.latches (x : Line) : List (BitVec 7) := x.att.list.map (·.latch)

end Sys2Proof.Machine
end

