-- ==== Sys2Proof/Certificates/Slice0/Obligations.lean ====
section
/-! DEFINITION. The statements for the provers, from the rules of spec/. A statement that rests on a choice of the model says so and names
the log entry. -/

open Sys2Proof Sys2Proof.Machine

/-! ## Steps -/

/-- A step takes the command at the front of the queue and runs it on the state with the queue's rest; on an empty queue the part idles. The
queue and the idling are the model's choice (logs 1 and 2). -/
def Obligations.StepTakesTheFrontCommand : Prop :=
  (∀ (c : Instr) (rest : List Instr) (s : State), s.pending = c :: rest → step s = exec c { s with pending := rest })
    ∧ ∀ s : State, s.pending = [] → step s = .next s

/-- With settings in range, every command other than DEVICE RESET and TIMEBASE ADVANCE answers a next state with the same queue of commands
and the same timebase. A line it does not act on is unchanged. A port that is not its own, and whose SEND or SEND BREAK does not wait on a
line it acts on, keeps its block and its causes for the lines the command does not act on; every port keeps its precedence. A command that
acts on no line takes and returns no page. -/
def Obligations.CommandsActWithinTheirScope : Prop :=
  ∀ (c : Instr) (s : State), SettingsOk s → (∀ a b d, c ≠ .deviceReset a b d) → c ≠ .timebaseAdvance →
    ∃ t, exec c s = .next t ∧ t.pending = s.pending ∧ t.timebase = s.timebase ∧ t.advancePhase = s.advancePhase
      ∧ (∀ k, ¬ s.actsOn c k → t.line k = s.line k)
      ∧ (∀ q, ¬ s.owns c q → (s.port q).SameBlock (t.port q))
      ∧ (∀ q k, ¬ s.owns c q → ¬ s.actsOn c k →
        ((t.port q).causes.filter fun x => decide (x.line = k)) = (s.port q).causes.filter fun x => decide (x.line = k))
      ∧ (∀ q, (t.port q).precedence = (s.port q).precedence)
      ∧ ((∀ k, ¬ s.actsOn c k) → t.freePages = s.freePages)

/-- An event that does not stand has no effect (log 3, the model's choice): an expiry whose timer is stopped or not due, an event of a
transmitter in another state, a placement with nothing waiting or too little room, the end of a fill or a completion that is not in hand. -/
def Obligations.AnEventThatDoesNotStandHasNoEffect : Prop :=
  ∀ (s : State) (l : LineId) (p : PortId),
    (timerDue (s.line l).cap.idleTimer = false → exec (.idleTimerExpiry l) s = .next s)
      ∧ (timerDue (s.line l).cond.downTimer = false → exec (.downTimerExpiry l) s = .next s)
      ∧ (timerDue (s.line l).cond.upTimer = false → exec (.upTimerExpiry l) s = .next s)
      ∧ (timerDue (s.line l).att.leaseTimer = false → exec (.leaseExpiry l) s = .next s)
      ∧ (timerDue (s.line l).hold.timer = false → exec (.holdTimerExpiry l) s = .next s)
      ∧ ((∀ d u, (s.line l).tx.state = .gap d u → u.due = false) → exec (.pacingGapExpiry l) s = .next s)
      ∧ ((∀ d u, (s.line l).tx.state = .breaking d u → u.due = false) → exec (.breakDurationExpiry l) s = .next s)
      ∧ ((s.line l).tx.state ≠ .closing → exec (.breakClosingEnd l) s = .next s)
      ∧ ((∀ c, (s.line l).tx.state ≠ .sending c) → exec (.sendCharacterEnd l) s = .next s)
      ∧ ((s.line l).tx.waiting = none → exec (.sendRunPlacement l) s = .next s ∧ exec (.breakMarkerPlacement l) s = .next s)
      ∧ ((∀ q r, (s.line l).tx.waiting = some (.send q r) → (s.line l).tx.free < min 10 r.length) →
        exec (.sendRunPlacement l) s = .next s)
      ∧ ((∀ q d, (s.line l).tx.waiting = some (.sendBreak q d) → (s.line l).tx.free = 0) →
        exec (.breakMarkerPlacement l) s = .next s)
      ∧ ((∀ c, (s.port p).phase ≠ .filling c) → exec (.fillEnd p) s = .next s)
      ∧ ((∀ r, (s.port p).phase ≠ .completing r) → exec (.completion p) s = .next s)

/-! ## Device reset, port reset, the timebase -/

/-- The state after device reset holds the values the rules give: the log (R1), the pages and the quota (R25, R29, R34, R38), the settings
(R42), the condition (R64), the watch slots (R84), the attachments (R98), the transmit unit (R51, R133, R146), the hold (R150), the ports
(R160, R181) and the timebase (R5). DEVICE RESET (R181) gives every line those values with its receive pin as it stands (log 19), frees
every page, starts the timebase from 0, and leaves each port idle with the precedence 2 × strap 1 + strap 0. The state the model calls reset
has every receive pin high, the straps low and no PORT RESET asserted (log 6, the model's choice); a pin that is low is reported as spacing,
so the down timer runs (R47, R70). -/
def Obligations.ResetGivesTheResetValues : Prop :=
  (State.reset.timebase = 0 ∧ State.reset.freePages = List.range 2048
    ∧ State.reset.advancePhase = 0 ∧ State.reset.pending = []
    ∧ (∀ l : LineId, State.reset.line l = Line.atReset true)
    ∧ (∀ high : Bool,
      let x := Line.atReset high
      x.cap.oldest = 1 ∧ x.cap.next = 1 ∧ x.cap.opened = none ∧ x.cap.idleTimer = none
        ∧ x.pool.pages = [] ∧ x.pool.reserve = 32 ∧ x.pool.limit = 512 ∧ x.pool.frozen = false ∧ x.pool.freezePending = none
        ∧ x.pool.discardedChars = 0 ∧ x.pool.discardedEvents = 0
        ∧ x.io.inForce = x.io.settings
        ∧ x.io.settings =
          { enable := true, divisor := 48, format := { sevenBits := false, parity := .noParity, twoStops := false }
            flow := false, logSent := true, breakNull := true, autoHunt := false, inversion := false, loopback := false
            stripPresent := false, strip := 0, idleGap := 20, maxLength := 120, pacing := 0, downTime := 2000, upTime := 100
            threshold := 6, huntList := [48, 12, 4, 2], huntPattern := [0x0D], lease := 0, holdTimeout := 5000 }
        ∧ x.io.pinHigh = high ∧ x.io.level = (if high then .marking else .spacing)
        ∧ x.io.receiver = (if high then .between else .waitMarking)
        ∧ x.cond.state = .run ∧ x.cond.downTimer = (if high then none else some { start := 0, due := false })
        ∧ x.cond.upTimer = none ∧ x.cond.score = [] ∧ x.cond.huntIndex = 0 ∧ x.cond.patternProgress = 0
        ∧ x.cond.huntDiscard = 0 ∧ x.cond.nullPending = false ∧ x.cond.huntOnUp = false
        ∧ (∀ i (h : i < 4), x.watch[i] =
          { enabled := false, pattern := [], close := false, attention := false, respond := false, freeze := false
            always := false, response := [], freezeAfter := 0, progress := 0 })
        ∧ x.att.list = [] ∧ x.att.leaseTimer = none
        ∧ x.tx.queue = [] ∧ x.tx.flowSlot = none ∧ x.tx.state = .idle ∧ x.tx.pause = false ∧ x.tx.drainMark = none
        ∧ x.tx.inUse = { divisor := 48, format := x.io.settings.format, inversion := false, loopback := false, edgeAhead := false }
        ∧ x.tx.waiting = none ∧ x.hold.state = .none ∧ x.hold.timer = none)
    ∧ (∀ p : PortId, State.reset.port p = Port.atReset 0 false)
    ∧ (∀ (precedence : Nat) (inReset : Bool),
      let x := Port.atReset precedence inReset
      x.precedence = precedence ∧ x.resetAsserted = inReset ∧ x.status = 0 ∧ x.error = .none ∧ x.line = 0 ∧ x.option = 0 ∧ x.count = 0 ∧ x.position = 0 ∧ x.value = 0
        ∧ x.transferLength = 0 ∧ x.buffer = [] ∧ x.causes = [] ∧ x.errorFlag = false ∧ x.dataIn = false
        ∧ x.collision = false ∧ x.phase = .idle ∧ x.readPoint = 0 ∧ x.idle = true))
    ∧ (∀ (s : State) (a b d : BitVec 2), ∃ t, exec (.deviceReset a b d) s = .next t
      ∧ t.timebase = 0 ∧ t.advancePhase = 0 ∧ t.freePages = List.range 2048 ∧ t.pending = s.pending
      ∧ (∀ l, t.line l = Line.atReset (s.line l).io.pinHigh)
      ∧ (∀ p, t.port p = Port.atReset ((([a, b, d] : List (BitVec 2)).getD p.val 0).toNat) (s.port p).resetAsserted)
      ∧ ∀ straps : BitVec 2, straps.toNat = 2 * (straps.getLsbD 1).toNat + (straps.getLsbD 0).toNat)

/-- TIMEBASE ADVANCE (R5) answers a next state in every state: the timebase advances by one and 0 follows 4 294 967 295; the place in the
five intervals, which make 36 864 periods of the reference clock, advances by one and they repeat. A running timer, the idle, down, up,
lease, hold, pacing or break timer, falls due at the first advance at which the time since its start is at least its duration, modulo 2^32,
and stays due; a stopped timer stays stopped, and nothing else of a line changes. The expiry is a command of its own (log 4, the model's
choice). -/
def Obligations.TimebaseAdvancesByOneMillisecond : Prop :=
  (∀ s : State, ∃ t, exec .timebaseAdvance s = .next t
    ∧ t.timebase = s.timebase + 1 ∧ (s.timebase = 0xFFFFFFFF#32 → t.timebase = 0)
    ∧ t.advancePhase = s.advancePhase + 1
    ∧ t.pending = s.pending ∧ t.freePages = s.freePages ∧ t.freeIndex = s.freeIndex ∧ t.ports = s.ports
    ∧ (∀ l, t.line l = (s.line l).tick (s.timebase + 1)))
    ∧ (Config.advanceInterval 0 + Config.advanceInterval 1 + Config.advanceInterval 2 + Config.advanceInterval 3
        + Config.advanceInterval 4 = 36864
      ∧ Config.advanceInterval 0 = 7373 ∧ Config.advanceInterval 1 = 7373 ∧ Config.advanceInterval 2 = 7373
      ∧ Config.advanceInterval 3 = 7373 ∧ Config.advanceInterval 4 = 7372)
    ∧ (∀ (now : Word) (duration : Nat) (u : Timer),
      (tickTimer now duration u).start = u.start
        ∧ ((tickTimer now duration u).due = true ↔ u.due = true ∨ duration ≤ (now - u.start).toNat))
    ∧ ∀ (now : Word) (x : Line),
      (x.tick now).cap.idleTimer = x.cap.idleTimer.map (tickTimer now x.io.inForce.idleGap.toNat)
        ∧ (x.tick now).cond.downTimer = x.cond.downTimer.map (tickTimer now x.io.inForce.downTime.toNat)
        ∧ (x.tick now).cond.upTimer = x.cond.upTimer.map (tickTimer now x.io.inForce.upTime.toNat)
        ∧ (x.tick now).att.leaseTimer = x.att.leaseTimer.map (tickTimer now (1000 * x.io.inForce.lease.toNat))
        ∧ (x.tick now).hold.timer = x.hold.timer.map (tickTimer now x.io.inForce.holdTimeout.toNat)
        ∧ (∀ d u, x.tx.state = .gap d u → (x.tick now).tx.state = .gap d (tickTimer now d u))
        ∧ (∀ d u, x.tx.state = .breaking d u → (x.tick now).tx.state = .breaking d (tickTimer now d u))
        ∧ ((∀ d u, x.tx.state ≠ .gap d u ∧ x.tx.state ≠ .breaking d u) → (x.tick now).tx.state = x.tx.state)
        ∧ (x.tick now).pool = x.pool ∧ (x.tick now).io = x.io ∧ (x.tick now).watch = x.watch
        ∧ (x.tick now).att.list = x.att.list ∧ (x.tick now).tx = { x.tx with state := (x.tick now).tx.state }
        ∧ (x.tick now).cap = { x.cap with idleTimer := (x.tick now).cap.idleTimer }
        ∧ (x.tick now).cond =
          { x.cond with downTimer := (x.tick now).cond.downTimer, upTimer := (x.tick now).cond.upTimer }
        ∧ (x.tick now).hold = { x.hold with timer := (x.tick now).hold.timer }

/-- PORT RESET (R113, R180): no command is in flight after it, the flags clear, TRANSFER LENGTH is 0, the buffer and the cause set are
empty, the input is asserted and the precedence is kept; ERROR is ABORTED with the flag set when a command was in flight, and NONE
otherwise. The port is on no line's attachment list, so the role is lost where it was the writer. On a port already in reset it leaves the
part as it is (log 18, the model's choice). PORT RESET RELEASE ends the reset and changes nothing else. -/
def Obligations.PortResetClearsThePort : Prop :=
  (∀ (s : State) (p : PortId), WaitingAgrees s → (s.port p).resetAsserted = false →
    ∃ t, exec (.portReset p) s = .next t
      ∧ (t.port p).resetAsserted = true ∧ (t.port p).idle = true ∧ (t.port p).dataIn = false ∧ (t.port p).collision = false
      ∧ (t.port p).transferLength = 0 ∧ (t.port p).buffer = [] ∧ (t.port p).causes = []
      ∧ (t.port p).precedence = (s.port p).precedence
      ∧ (t.port p).error = (if (s.port p).idle then .none else .aborted)
      ∧ (t.port p).errorFlag = !(s.port p).idle
      ∧ (∀ l, (t.line l).attachment p = none ∧ (t.line l).writer ≠ some p))
    ∧ (∀ (s : State) (p : PortId),
      ((s.port p).resetAsserted = true → exec (.portReset p) s = .next s)
        ∧ exec (.portResetRelease p) s = .next (s.modPort p fun x => { x with resetAsserted := false }))

/-! ## The window and STATUS -/

/-- The window as a master reads it (R172): STATUS, ERROR, LINE, OPTION, then COUNT, POSITION, VALUE and TRANSFER LENGTH with the lowest
byte at the lowest offset, DATA at 16, and 00h at 17 to 31. A port in PORT RESET shifts out 00h at every offset (R180). A transaction is the
commands of its bytes, from the starting offset of its header on: a code at offset 0, arguments, bytes at DATA; a header alone, and reads
outside DATA, are none (R172; that the bytes of a transaction are commands of their own is log 17, the model's choice). Each code names its
command, as the rule of that command gives it, and ABORT's is that of R175; any other code is none (R175). The bits of STATUS (R174), with
BUSY and DATA-READY never set together (R175), and the codes of ERROR (R174). -/
def Obligations.TheWindowIsLaidOut : Prop :=
  (∀ (s : State) (p : PortId),
    ((s.port p).resetAsserted = true → ∀ o, windowRead s p o = 0)
      ∧ ((s.port p).resetAsserted = false →
        windowRead s p 0 = (s.port p).status ∧ windowRead s p 1 = (s.port p).error.code
          ∧ windowRead s p 2 = (s.port p).line ∧ windowRead s p 3 = (s.port p).option
          ∧ (∀ i : Fin 2, windowRead s p (BitVec.ofNat 5 (4 + i.val)) = ((s.port p).count >>> (8 * i.val)).setWidth 8)
          ∧ (∀ i : Fin 4, windowRead s p (BitVec.ofNat 5 (6 + i.val)) = ((s.port p).position >>> (8 * i.val)).setWidth 8)
          ∧ (∀ i : Fin 4, windowRead s p (BitVec.ofNat 5 (10 + i.val)) = ((s.port p).value >>> (8 * i.val)).setWidth 8)
          ∧ (∀ i : Fin 2, windowRead s p (BitVec.ofNat 5 (14 + i.val))
            = BitVec.ofNat 8 ((s.port p).transferLength / 256 ^ i.val))
          ∧ windowRead s p 16 = (s.port p).dataByte
          ∧ (∀ o : BitVec 5, 17 ≤ o.toNat → windowRead s p o = 0)))
    ∧ (∀ p : PortId,
      (∀ header, transaction p header [] = [])
        ∧ (∀ header bytes, ∀ c ∈ transaction p header bytes, c.wellFormed = true ∧ c.port? = some p)
        ∧ (∀ code, transaction p 0x00 [code] = [commandOf p code] ∧ ((commandOf p code).codePort? = some p ∨ commandOf p code = .abort p))
        ∧ (∀ code, code ∉ commandCodes → commandOf p code = .badCommand p code)
        ∧ ([0x01, 0x02, 0x10, 0x11, 0x12, 0x20, 0x21, 0x22, 0x23, 0x24, 0x30, 0x31, 0x32, 0x33, 0x40, 0x41, 0x42, 0x43, 0x44,
              0x45, 0x46, 0x47, 0x7F] : List Byte).map (commandOf p)
          = [.nextCause p, .readTime p, .attach p, .detach p, .releaseWrite p, .readNew p, .readHistory p, .countNew p, .seek p,
              .lineStatus p, .send p, .sendBreak p, .resetLine p, .enterHunt p, .setLine p, .setWatch p, .setQuota p,
              .clearHistory p, .freeze p, .thaw p, .clearCondition p, .rearm p, .abort p]
        ∧ (∀ bytes : List Byte, bytes.length = 12 →
          transaction p 0x02 bytes
            = (List.range 12).map fun i => .argumentWrite p (BitVec.ofNat 5 (2 + i)) (bytes.getD i 0))
        ∧ (∀ bytes, transaction p 0x10 bytes = bytes.map fun b => .dataWrite p b)
        ∧ (∀ bytes, transaction p 0x90 bytes = List.replicate bytes.length (.dataRead p))
        ∧ (∀ bytes : List Byte, bytes.length ≤ 16 → transaction p 0x80 bytes = [])
        ∧ ∀ header bytes, transaction p (header ^^^ 0x60) bytes = transaction p header bytes)
    ∧ ((∀ x : Port, x.status.getLsbD 0 = x.busy ∧ x.status.getLsbD 1 = x.dataReady ∧ x.status.getLsbD 2 = x.dataIn
        ∧ x.status.getLsbD 3 = x.errorFlag ∧ x.status.getLsbD 4 = x.attention ∧ x.status.getLsbD 5 = x.collision
        ∧ x.status.getLsbD 6 = false ∧ x.status.getLsbD 7 = false
        ∧ ¬ (x.busy = true ∧ x.dataReady = true) ∧ (x.idle = true ↔ x.busy = false ∧ x.dataReady = false))
      ∧ [ErrorCode.none, .badCommand, .badLine, .badArgument, .notAttached, .noControl, .notWriter, .writerBusy, .lowerPrecedence,
          .overtaken, .writeLost, .lineOff, .quota, .frozen, .aborted].map ErrorCode.code
        = (List.range 15).map (BitVec.ofNat 8))

/-- ATTENTION is asserted exactly while the cause set is non-empty (R161): a post asserts it, the removal of the only cause releases it, the
flag of STATUS reads the same, and no change of phase acts on it. Device reset and port reset release it. -/
def Obligations.AttentionFollowsTheCauseSet : Prop :=
  (∀ x : Port, (x.attention = true ↔ x.causes ≠ []) ∧ x.status.getLsbD 4 = x.attention
      ∧ (∀ ph, ({ x with phase := ph } : Port).attention = x.attention))
    ∧ (∀ (s : State) (p : PortId) (k : CauseKind) (l : LineId) (d : Nat), ((s.post p k l d).port p).attention = true)
    ∧ (∀ (s : State) (p : PortId) (k : CauseKind) (l : LineId),
      ((s.unpost p k l).port p).attention = true ↔ ∃ c ∈ (s.port p).causes, c.kind ≠ k ∨ c.line ≠ l)
    ∧ (∀ p, (State.reset.port p).attention = false)
    ∧ (∀ (s t : State) (a b d : BitVec 2) (p : PortId), exec (.deviceReset a b d) s = .next t → (t.port p).attention = false)
    ∧ (∀ (s t : State) (p : PortId), (s.port p).resetAsserted = false → exec (.portReset p) s = .next t →
      (t.port p).attention = false)

/-! ## The course of a command -/

/-- A write of COMMAND with a code other than ABORT to a port that is not idle is discarded and sets COLLISION, and the command in flight
goes on (R175). While PORT RESET stays asserted the port ignores its master: writes are discarded, and reads of DATA shift out 00h (R180).
-/
def Obligations.APortThatIsNotReadyTakesNoCommand : Prop :=
  (∀ (c : Instr) (s : State) (p : PortId), c.codePort? = some p → (s.port p).resetAsserted = false → (s.port p).idle = false →
    exec c s = .next (s.modPort p fun x => { x with collision := true, pointer := 1 }))
    ∧ (∀ (s : State) (p : PortId), (s.port p).resetAsserted = true →
      (∀ c : Instr, c.codePort? = some p → exec c s = .next s)
        ∧ exec (.abort p) s = .next s ∧ (∀ o b, exec (.argumentWrite p o b) s = .next s)
        ∧ (∀ b, exec (.dataWrite p b) s = .next s)
        ∧ exec (.dataRead p) s = .next (s.modPort p fun x => { x with shiftedOut := 0 }))

/-- A command that names a line is refused with BAD LINE when LINE is above 15, before any other check, and changes nothing but its own
port's block; LINE 0 to 15 names the line of that number. A code that names no command is taken and completes with BAD COMMAND, with the
argument fields as the master wrote them (R175); the row completes so whatever code it carries (log 28, the model's choice). -/
def Obligations.BadLineAndBadCommandAreRefused : Prop :=
  ((∀ (c : Instr) (s : State) (p : PortId), c.scope = .named p → (s.port p).ready → 16 ≤ (s.port p).line.toNat →
      exec c s = .next (s.answer p c.dataIn { code := .badLine }))
    ∧ ∀ b : Byte, (16 ≤ b.toNat ↔ lineOf b = none) ∧ ∀ l, (lineOf b = some l ↔ b.toNat = l.val))
    ∧ (∀ (s : State) (p : PortId) (code : Byte), (s.port p).ready →
      exec (.badCommand p code) s = .next (s.answer p false { code := .badCommand }))

/-- Completion (R178): BUSY, DATA-READY and DATA-IN clear, TRANSFER LENGTH is 0, the buffer is empty, ERROR takes the code and the flag is
set when it is not NONE; the result fields named take their values and the others stay. The results stand: no command of another port and
nothing inside the part acts on the block of a port that is idle, and reads of DATA, writes of DATA, fills and completions that are not in
hand leave its fields. -/
def Obligations.CompletionGivesTheResults : Prop :=
  (∀ (s : State) (p : PortId) (r : Results), (s.port p).phase = .completing r →
    ∃ t, exec (.completion p) s = .next t ∧ t.lines = s.lines ∧ (∀ q, q ≠ p → t.port q = s.port q)
      ∧ (t.port p).busy = false ∧ (t.port p).dataReady = false ∧ (t.port p).dataIn = false
      ∧ (t.port p).transferLength = 0 ∧ (t.port p).buffer = []
      ∧ (t.port p).error = r.code ∧ ((t.port p).errorFlag = true ↔ r.code ≠ .none)
      ∧ (t.port p).line = r.line.getD (s.port p).line ∧ (t.port p).option = r.option.getD (s.port p).option
      ∧ (t.port p).count = r.count.getD (s.port p).count ∧ (t.port p).position = r.position.getD (s.port p).position
      ∧ (t.port p).value = r.value.getD (s.port p).value
      ∧ (t.port p).causes = (s.port p).causes ∧ (t.port p).collision = (s.port p).collision)
    ∧ ∀ (c : Instr) (s t : State) (p : PortId), SettingsOk s → WaitingAgrees s → (s.port p).idle = true →
      (∀ a b d, c ≠ .deviceReset a b d) → exec c s = .next t →
      (c.port? ≠ some p → (s.port p).SameBlock (t.port p))
        ∧ (c = .dataRead p ∨ (∃ b, c = .dataWrite p b) ∨ c = .fillEnd p ∨ c = .completion p ∨ c = .portResetRelease p →
          (t.port p).line = (s.port p).line ∧ (t.port p).option = (s.port p).option ∧ (t.port p).count = (s.port p).count
            ∧ (t.port p).position = (s.port p).position ∧ (t.port p).value = (s.port p).value
            ∧ (t.port p).error = (s.port p).error ∧ (t.port p).errorFlag = (s.port p).errorFlag ∧ (t.port p).idle = true)

/-- ABORT (R179), whatever the phase, clears COLLISION and leaves the port idle. On an idle port it completes with NONE; a command without a
data phase, a fill, a data-in or a data-out phase ends with ABORTED, with the place reached and the records delivered for READ HISTORY
(R127), the characters not placed for SEND (R138, R140), and no result otherwise. A command whose results only wait for COMPLETION ends with
ABORTED and leaves the result fields as the master wrote them, a read or a SEND that a check refused among them (log 39, the model's
choice). A SEND or SEND BREAK that waits ends with what was placed staying in the queue (R140, R142). A READ NEW ends with the cursor in
POSITION and the records read whole in COUNT; the cursor keeps what was read, and the overtaken mark is cleared when it stands at or above
the oldest sequence number, and kept however many records have left since (R114, R124), for a lossless attachment too wherever the
evaluation that it asks for takes no page. COUNT is clipped at 65535 where the rule names no bound (log 25, PRESUMED). -/
def Obligations.AbortEndsTheCommand : Prop :=
  ((∀ (s : State) (p : PortId) (r : Results), (s.port p).resetAsserted = false →
    (((s.port p).phase = .idle ∧ r = {})
      ∨ ((∃ q, (s.port p).phase = .completing q) ∧ r = { code := .aborted })
      ∨ ((∃ l q e n d is, ((s.port p).phase = .filling (.readHistory l q e n d)
            ∨ (s.port p).phase = .reading (.readHistory l q e n d) is)
          ∧ r = { code := .aborted, position := some q, count := some (BitVec.ofNat 16 (min d 65535)) }))
      ∨ ((∃ b is, (s.port p).phase = .filling (.lineStatus b) ∨ (s.port p).phase = .reading (.lineStatus b) is)
          ∧ r = { code := .aborted })
      ∨ (∃ l n, (s.port p).phase = .writing (.send l n)
          ∧ r = { code := .aborted, count := some (BitVec.ofNat 16 (min n 65535)) })
      ∨ ((∃ l, (s.port p).phase = .writing (.setLine l) ∨ ∃ i, (s.port p).phase = .writing (.setWatch l i))
          ∧ r = { code := .aborted })) →
    exec (.abort p) s = .next (s.modPort p fun x => { x.complete r with collision := false, pointer := 1 }))
    ∧ ∀ (s : State) (p : PortId), WaitingAgrees s → (s.port p).resetAsserted = false →
      ∃ t, exec (.abort p) s = .next t ∧ (t.port p).idle = true ∧ (t.port p).collision = false
        ∧ (t.port p).error = (if (s.port p).idle then .none else .aborted))
    ∧ (∀ (s : State) (p : PortId) (l : LineId), (s.port p).resetAsserted = false → (s.port p).phase = .waiting l →
      (∀ rest, (s.line l).tx.waiting = some (.send p rest) →
        exec (.abort p) s = .next ((s.modTx l fun x => { x with waiting := none }).modPort p fun x =>
          { x.complete { code := .aborted, count := some (BitVec.ofNat 16 (min rest.length 65535)) } with
            collision := false, pointer := 1 }))
        ∧ ∀ d, (s.line l).tx.waiting = some (.sendBreak p d) →
          exec (.abort p) s = .next ((s.modTx l fun x => { x with waiting := none }).modPort p fun x =>
            { x.complete { code := .aborted } with collision := false, pointer := 1 }))
    ∧ (∀ (s : State) (p : PortId) (l : LineId) (stop : Seq) (m d g : Nat) (a : Attachment), (s.port p).resetAsserted = false →
      ((s.port p).phase = .filling (.readNew l stop m d g) ∨ ∃ is, (s.port p).phase = .reading (.readNew l stop m d g) is) →
      (s.line l).attachment p = some a →
      ∃ t, exec (.abort p) s = .next t ∧ (t.port p).idle = true ∧ (t.port p).error = .aborted
        ∧ (t.port p).position = a.cursor ∧ (t.port p).count = BitVec.ofNat 16 (min d 65535)
        ∧ ∃ b, (t.line l).attachment p = some b ∧ b.cursor = a.cursor ∧ b.lossless = a.lossless ∧ b.latch = a.latch
          ∧ (a.overtaken = true → ¬ seqDist (s.line l).cap.oldest a.cursor ≤ seqDist (s.line l).cap.oldest (s.line l).cap.next →
            b.overtaken = true)
          ∧ (a.lossless = false ∨ (s.line l).roomy 12 →
            b.overtaken = (a.overtaken
              && !decide (seqDist (s.line l).cap.oldest a.cursor ≤ seqDist (s.line l).cap.oldest (s.line l).cap.next))
              ∧ (seqDist (s.line l).cap.oldest a.cursor ≤ seqDist (s.line l).cap.oldest (s.line l).cap.next →
                ∀ c ∈ (t.port p).causes, ¬ (c.kind = .overtaken ∧ c.line = l))
              ∧ (t.line l).cap.oldest = (s.line l).cap.oldest)
          ∧ (a.lossless = false →
            (t.line l).cap = (s.line l).cap ∧ (t.line l).pool = (s.line l).pool ∧ (t.line l).tx = (s.line l).tx))

/-- A write at an argument offset, 2 to 13, of an idle port stores the byte there and leaves the other bytes of the window; a port that is
not idle discards it and sets COLLISION (R172, R173). An argument write at any other offset stores nothing and sets no flag (log 28, the
model's choice): the commands of the table name none. -/
def Obligations.ArgumentWriteStoresTheByte : Prop :=
  (∀ (s : State) (p : PortId) (o : BitVec 5) (b : Byte), (s.port p).resetAsserted = false → 2 ≤ o.toNat → o.toNat ≤ 13 →
    ((s.port p).idle = true → ∃ t, exec (.argumentWrite p o b) s = .next t
      ∧ windowRead t p o = b ∧ (∀ o' : BitVec 5, o' ≠ o → windowRead t p o' = windowRead s p o')
      ∧ t.lines = s.lines ∧ (∀ q, q ≠ p → t.port q = s.port q))
      ∧ ((s.port p).idle = false →
        exec (.argumentWrite p o b) s = .next (s.modPort p fun x => { x with collision := true, pointer := o + 1 })))
    ∧ (∀ (s : State) (p : PortId) (o : BitVec 5) (b : Byte), (s.port p).resetAsserted = false → (o.toNat < 2 ∨ 13 < o.toNat) →
      exec (.argumentWrite p o b) s = .next (s.modPort p fun x => { x with pointer := nextOffset o }))

/-! ## Commands that read -/

/-- READ TIME (R6) latches the timebase, as it is read when the command is taken, into VALUE, with ERROR NONE and no data phase. It examines
no argument field and leaves LINE, OPTION, COUNT and POSITION; COMPLETION writes VALUE (log 7, the model's choice). It is taken and refused
like every other command. VALUE keeps the latched value until the master writes it or the port takes a command that returns a result there:
among the steps that act on an idle port only READ NEW does so, the other commands at COMPLETION (log 7), and a READ HISTORY with nothing to
read leaves VALUE (log 8, the model's choice). An ABORT while it shows BUSY ends it with ABORTED and VALUE as it stood. -/
def Obligations.ReadTimeLatchesTheTimebase : Prop :=
  (∀ (s : State) (p : PortId), (s.port p).ready → ∃ t, exec (.readTime p) s = .next t
    ∧ t = s.answer p false { value := some s.timebase }
    ∧ (∃ u, exec (.completion p) t = .next u ∧ (u.port p).value = s.timebase ∧ (u.port p).error = .none
      ∧ (u.port p).errorFlag = false ∧ (u.port p).idle = true ∧ (u.port p).line = (s.port p).line
      ∧ (u.port p).option = (s.port p).option ∧ (u.port p).count = (s.port p).count ∧ (u.port p).position = (s.port p).position)
    ∧ ∃ u, exec (.abort p) t = .next u ∧ (u.port p).value = (s.port p).value ∧ (u.port p).error = .aborted)
    ∧ (∀ (s : State) (p : PortId), (s.port p).resetAsserted = false → (s.port p).idle = false →
      exec (.readTime p) s = .next (s.modPort p fun x => { x with collision := true, pointer := 1 }))
    ∧ ∀ (c : Instr) (s t : State) (p : PortId), SettingsOk s → WaitingAgrees s → (s.port p).idle = true → exec c s = .next t →
      c ≠ .readNew p → (∀ a b d, c ≠ .deviceReset a b d) → (∀ o b, c = .argumentWrite p o b → o.toNat < 10 ∨ 13 < o.toNat) →
      (t.port p).value = (s.port p).value

/-- NEXT CAUSE (R170) reports the first cause in the order of priority and line, with its detail and the count of those that remain; WRITE
LOST, WATCH and DRAINED, and DATA outside LEVEL mode, leave the set, and the others stay (R160). An empty set reads OPTION 0, LINE FFh,
VALUE 0 and COUNT 0. The detail (R162 to R167): the records missed, modulo 2^32 (log 14), for OVERTAKEN; the latch for CONDITION; the unread
count for DATA; what was posted for WRITE LOST, WATCH and DRAINED. COUNT is clipped at 65535 where the rule names no bound (log 25,
PRESUMED). -/
def Obligations.NextCauseReportsTheFirstCause : Prop :=
  ((∀ (s : State) (p : PortId), (s.port p).ready → (s.port p).causes = [] →
      exec (.nextCause p) s
        = .next (s.answer p false { line := some 0xFF, option := some 0, count := some 0, value := some 0 }))
    ∧ ∀ (s : State) (p : PortId) (c : Cause) (rest : List Cause), CauseOrder s → (s.port p).ready → (s.port p).causes = c :: rest →
      (∀ d ∈ rest, c.kind.code < d.kind.code ∨ (c.kind = d.kind ∧ c.line < d.line))
      ∧ ∃ t kept, exec (.nextCause p) s = .next t
        ∧ t = (s.answer p false
            { line := some (BitVec.ofNat 8 c.line.val), option := some (BitVec.ofNat 8 c.kind.code)
              count := some (BitVec.ofNat 16 (min kept.length 65535)), value := some (causeDetail (s.line c.line) p c) }).modPort p
          (fun x => { x with causes := kept })
        ∧ ((c.kind = .writeLost ∨ c.kind = .watch ∨ c.kind = .drained) → kept = rest)
        ∧ ((c.kind = .overtaken ∨ c.kind = .condition) → kept = c :: rest)
        ∧ (c.kind = .data → ∀ a, (s.line c.line).attachment p = some a →
          kept = match a.mode with
            | .level _ => c :: rest
            | .first _ | .none => rest))
    ∧ (∀ (ln : Line) (p : PortId) (l : LineId) (d : Nat) (a : Attachment), ln.attachment p = some a →
      causeDetail ln p ⟨.overtaken, l, d⟩ = ln.cap.oldest - a.cursor
        ∧ causeDetail ln p ⟨.condition, l, d⟩ = a.latch.setWidth 32
        ∧ causeDetail ln p ⟨.data, l, d⟩ = BitVec.ofNat 32 (ln.unread a)
        ∧ causeDetail ln p ⟨.writeLost, l, d⟩ = BitVec.ofNat 32 d
        ∧ causeDetail ln p ⟨.watch, l, d⟩ = BitVec.ofNat 32 d
        ∧ causeDetail ln p ⟨.drained, l, d⟩ = BitVec.ofNat 32 d)

/-- COUNT NEW (R128): the unread records in COUNT, at most 65535, the bytes they occupy as delivered in VALUE, and the oldest sequence
number in POSITION; without an attachment, every closed record of the log counts. LINE above 15 is BAD LINE. It changes no cursor, mark,
cause or record, and does not flush. An ABORT while it shows BUSY leaves the fields as they stood. -/
def Obligations.CountNewReportsTheUnread : Prop :=
  (∀ (s : State) (p : PortId), (s.port p).ready → 16 ≤ (s.port p).line.toNat →
    exec (.countNew p) s = .next (s.answer p false { code := .badLine }))
    ∧ ∀ (s : State) (p : PortId) (l : LineId), s.calls p l → ∃ records,
      (records = match (s.line l).attachment p with
        | none => (s.line l).closed
        | some a =>
          if a.overtaken then (s.line l).closed else (s.line l).closed.drop (seqDist (s.line l).cap.oldest a.cursor))
      ∧ ∃ t, exec (.countNew p) s = .next t
        ∧ t = s.answer p false
          { count := some (BitVec.ofNat 16 (min records.length 65535))
            value := some (BitVec.ofNat 32 (records.map fun r => 12 + r.body.length).sum)
            position := some (s.line l).cap.oldest }
        ∧ (∃ u, exec (.completion p) t = .next u ∧ (u.port p).idle = true ∧ (u.port p).error = .none
          ∧ (u.port p).count = BitVec.ofNat 16 (min records.length 65535)
          ∧ (u.port p).value = BitVec.ofNat 32 (records.map fun r => 12 + r.body.length).sum
          ∧ (u.port p).position = (s.line l).cap.oldest ∧ u.lines = s.lines ∧ (u.port p).causes = (s.port p).causes)
        ∧ ∃ u, exec (.abort p) t = .next u ∧ (u.port p).error = .aborted ∧ (u.port p).count = (s.port p).count
          ∧ (u.port p).value = (s.port p).value ∧ (u.port p).position = (s.port p).position

/-- CLEAR CONDITION (R165): without an attachment it is refused with NOT ATTACHED and changes nothing; otherwise the latch is returned in
VALUE and emptied, and the CONDITION cause is removed. An event latched before it is in VALUE; one latched after it finds an empty latch,
and posts CONDITION where condition enable is set. An ABORT while it shows BUSY leaves VALUE, and the latch stays emptied. -/
def Obligations.ClearConditionReturnsTheLatch : Prop :=
  (∀ (s : State) (p : PortId), (s.port p).ready → 16 ≤ (s.port p).line.toNat →
    exec (.clearCondition p) s = .next (s.answer p false { code := .badLine }))
    ∧ (∀ (s : State) (p : PortId) (l : LineId), s.calls p l → (s.line l).attachment p = none →
      exec (.clearCondition p) s = .next (s.answer p false { code := .notAttached }))
    ∧ (∀ (s : State) (p : PortId) (l : LineId) (a : Attachment), s.calls p l → (s.line l).attachment p = some a →
      ∃ t, exec (.clearCondition p) s = .next t
        ∧ t = ((s.modAttachment l p fun x => { x with latch := 0 }).unpost p .condition l).answer p false
          { value := some (a.latch.setWidth 32) }
        ∧ (t.line l).attachment p = some { a with latch := 0 }
        ∧ (∀ c ∈ (t.port p).causes, ¬ (c.kind = .condition ∧ c.line = l))
        ∧ (∀ e, ((latchEvent e l t p).line l).attachment p = some { a with latch := e.bit }
          ∧ (a.conditionEnable = true → ∃ c ∈ ((latchEvent e l t p).port p).causes, c.kind = .condition ∧ c.line = l))
        ∧ (∃ u, exec (.completion p) t = .next u ∧ (u.port p).idle = true ∧ (u.port p).error = .none
          ∧ (u.port p).value = a.latch.setWidth 32 ∧ (u.port p).line = (s.port p).line ∧ (u.port p).option = (s.port p).option
          ∧ (u.port p).count = (s.port p).count ∧ (u.port p).position = (s.port p).position)
        ∧ ∃ u, exec (.abort p) t = .next u ∧ (u.port p).error = .aborted ∧ (u.port p).value = (s.port p).value
          ∧ (u.line l).attachment p = some { a with latch := 0 })
    ∧ ∀ (s : State) (p : PortId) (l : LineId) (a : Attachment) (e : CondEvent), (s.line l).attachment p = some a →
      ((latchEvent e l s p).line l).attachment p = some { a with latch := a.latch ||| e.bit }

/-- REARM (R169): refused with NOT ATTACHED without an attachment, and with BAD ARGUMENT outside FIRST mode, changing nothing; otherwise,
with unread records DATA is posted and armed is clear, and with none armed is set, with the unread count in COUNT, at most 65535. A
completion after it that leaves records unread posts DATA and clears armed. An ABORT while it shows BUSY leaves its effects. -/
def Obligations.RearmArmsOrPosts : Prop :=
  (∀ (s : State) (p : PortId), (s.port p).ready → 16 ≤ (s.port p).line.toNat →
    exec (.rearm p) s = .next (s.answer p false { code := .badLine }))
    ∧ (∀ (s : State) (p : PortId) (l : LineId), s.calls p l →
      ((s.line l).attachment p = none → exec (.rearm p) s = .next (s.answer p false { code := .notAttached }))
        ∧ (∀ a, (s.line l).attachment p = some a → (∀ b, a.mode ≠ .first b) →
          exec (.rearm p) s = .next (s.answer p false { code := .badArgument })))
    ∧ (∀ (s : State) (p : PortId) (l : LineId) (a : Attachment) (b : Bool), s.calls p l → (s.line l).attachment p = some a →
      a.mode = .first b →
      let u := if 0 < (s.line l).unread a then (s.modAttachment l p fun x => { x with mode := .first false }).post p .data l 0
        else s.modAttachment l p fun x => { x with mode := .first true }
      ∃ t, exec (.rearm p) s = .next t
        ∧ t = u.answer p false { count := some (BitVec.ofNat 16 (min ((s.line l).unread a) 65535)) }
        ∧ (∃ v, exec (.completion p) t = .next v ∧ (v.port p).idle = true ∧ (v.port p).error = .none
          ∧ (v.port p).count = BitVec.ofNat 16 (min ((s.line l).unread a) 65535) ∧ (v.port p).line = (s.port p).line
          ∧ (v.port p).option = (s.port p).option ∧ (v.port p).position = (s.port p).position
          ∧ (v.port p).value = (s.port p).value)
        ∧ ∃ v, exec (.abort p) t = .next v ∧ (v.port p).error = .aborted ∧ v.lines = t.lines
          ∧ (v.port p).causes = (t.port p).causes)
    ∧ ∀ (s : State) (p : PortId) (l : LineId) (a : Attachment), (s.line l).attachment p = some a → a.mode = .first true →
      0 < (s.line l).unread a →
      ((completionData l s p).line l).attachment p = some { a with mode := .first false }
        ∧ ∃ c ∈ ((completionData l s p).port p).causes, c.kind = .data ∧ c.line = l

/-- SEEK (R129) sets the cursor: to the oldest, to the next sequence number, or to POSITION brought within the log; it clears the overtaken
mark and removes the OVERTAKEN cause, with the new cursor in POSITION and the oldest in VALUE. The log, the open record among it, and the
transmit unit stay as they are. Positions are compared modulo 2^32 (log 14, the model's reading). -/
def Obligations.SeekSetsTheCursor : Prop :=
  (∀ (s : State) (p : PortId) (l : LineId), s.calls p l →
    ((s.line l).attachment p = none → exec (.seek p) s = .next (s.answer p false { code := .notAttached }))
      ∧ ((s.line l).attachment p ≠ none →
        (2 < (s.port p).option.toNat ∨ ((s.port p).option = 2 ∧ (s.port p).position = 0)) →
        exec (.seek p) s = .next (s.answer p false { code := .badArgument })))
    ∧ ∀ (s : State) (p : PortId) (l : LineId) (a : Attachment), s.calls p l → (s.line l).attachment p = some a →
      (s.port p).option.toNat ≤ 2 → ((s.port p).option = 2 → (s.port p).position ≠ 0) →
      ∃ t cursor, exec (.seek p) s = .next t
        ∧ ((s.port p).option = 0 → cursor = (s.line l).cap.oldest) ∧ ((s.port p).option = 1 → cursor = (s.line l).cap.next)
        ∧ ((s.port p).option = 2 →
          seqDist (s.line l).cap.oldest (s.port p).position ≤ seqDist (s.line l).cap.oldest (s.line l).cap.next →
          cursor = (s.port p).position)
        ∧ ((s.port p).option = 2 →
          seqDist (s.line l).cap.oldest (s.line l).cap.next < seqDist (s.line l).cap.oldest (s.port p).position →
          cursor = if seqBelow (s.port p).position (s.line l).cap.oldest then (s.line l).cap.oldest else (s.line l).cap.next)
        ∧ (t.line l).attachment p = some { a with cursor := cursor, overtaken := false }
        ∧ Answered s t p { position := some cursor, value := some (s.line l).cap.oldest }
        ∧ (∀ c ∈ (t.port p).causes, ¬ (c.kind = .overtaken ∧ c.line = l))
        ∧ (∀ k, a.mode = .level k → ((∃ c ∈ (t.port p).causes, c.kind = .data ∧ c.line = l)
          ↔ k.toNat ≤ (t.line l).unread { a with cursor := cursor, overtaken := false }))
        ∧ (t.line l).cap = (s.line l).cap ∧ (t.line l).pool = (s.line l).pool ∧ (t.line l).tx = (s.line l).tx
        ∧ (t.line l).io = (s.line l).io ∧ (t.line l).cond = (s.line l).cond ∧ (t.line l).hold = (s.line l).hold

/-- LINE STATUS (R131, R132): OPTION 0 gives the 32-byte status record and OPTION 1 the 34-byte settings record, worked out when the command
is taken and loaded by FILL END; a higher OPTION is BAD ARGUMENT. It changes no line. The layout of the status record is that of R184. -/
def Obligations.LineStatusReturnsOneRecord : Prop :=
  (∀ (s : State) (p : PortId) (l : LineId), s.calls p l → 1 < (s.port p).option.toNat →
    exec (.lineStatus p) s = .next (s.answer p true { code := .badArgument }))
    ∧ (∀ (s : State) (p : PortId) (l : LineId) (record : List Byte), s.calls p l →
      (((s.port p).option = 0 ∧ record = (s.line l).statusRecord)
        ∨ ((s.port p).option = 1 ∧ record = (s.line l).io.settings.encode)) →
      ∃ t, exec (.lineStatus p) s = .next t ∧ t.lines = s.lines ∧ (t.port p).busy = true ∧ (t.port p).dataIn = true
        ∧ (t.port p).causes = (s.port p).causes
        ∧ ∃ u, exec (.fillEnd p) t = .next u ∧ u.lines = s.lines ∧ (u.port p).dataReady = true ∧ (u.port p).buffer = record
          ∧ (u.port p).transferLength = record.length ∧ (u.port p).readPoint = 0)
    ∧ ∀ ln : Line, ln.io.settings.encode.length = 34 ∧ ln.statusRecord.length = 32
      ∧ ln.statusRecord.getD 0 0 = ln.cond.state.code ∧ ln.statusRecord.getD 1 0 = BitVec.ofNat 8 ln.cond.huntIndex
      ∧ natLE ((ln.statusRecord.drop 2).take 2) = ln.rxDivisor.toNat
      ∧ natLE ((ln.statusRecord.drop 4).take 4) = ln.cap.oldest.toNat ∧ natLE ((ln.statusRecord.drop 8).take 4) = ln.cap.next.toNat
      ∧ natLE ((ln.statusRecord.drop 12).take 2) = ln.held % 65536 ∧ natLE ((ln.statusRecord.drop 14).take 2) = ln.pool.limit % 65536
      ∧ ln.statusRecord.getD 16 0 = BitVec.ofNat 8 ln.pool.reserve ∧ ln.statusRecord.getD 17 0 = BitVec.ofNat 8 ln.errorScore
      ∧ ln.statusRecord.getD 18 0 = BitVec.ofNat 8 (ln.pool.freezePending.getD 255)
      ∧ ln.statusRecord.getD 19 0 = (if ln.pool.frozen then 1 else 0)
      ∧ natLE ((ln.statusRecord.drop 20).take 3) = ln.pool.discardedChars % 16777216
      ∧ ln.statusRecord.getD 23 0 = BitVec.ofNat 8 ln.pool.discardedEvents
      ∧ ln.statusRecord.getD 24 0 = BitVec.ofNat 8 ln.tx.queue.length ∧ ln.statusRecord.getD 25 0 = ln.tx.state.code
      ∧ ln.statusRecord.getD 26 0 = ln.hold.state.code ∧ ln.statusRecord.getD 27 0 = portByte ln.writer
      ∧ ln.statusRecord.getD 28 0 = ln.attachedPorts ∧ ln.statusRecord.drop 29 = [0, 0, 0]

/-- READ NEW taken (R120, R123, R166): without an attachment it is NOT ATTACHED. With no open record the end is the next sequence number:
with nothing unread and the mark clear it completes at once with COUNT 0, VALUE 0 and the cursor in POSITION (in its own step: log 8, the
model's choice), and otherwise it goes BUSY for its first fill. In FIRST mode it removes the DATA cause. A read that reaches the open
record, READ NEW always and READ HISTORY when it is in its range, closes it with READ; the end of either is the next sequence number after
the flush, above the flushed record (R15, R119), and the fill of a READ NEW whose cursor is on that record delivers it. The flush is stated
where no freeze count intervenes. -/
def Obligations.ReadNewFixesItsEnd : Prop :=
  (∀ (s : State) (p : PortId) (l : LineId), s.calls p l →
    ((s.line l).attachment p = none → exec (.readNew p) s = .next (s.answer p true { code := .notAttached }))
      ∧ ∀ a, (s.line l).attachment p = some a →
        ∃ t, exec (.readNew p) s = .next t ∧ (t.line l).cap.opened = none
          ∧ (∀ b, a.mode = .first b → (s.line l).cap.opened = none → MarksClear s →
            ∀ c ∈ (t.port p).causes, ¬ (c.kind = .data ∧ c.line = l))
          ∧ ((s.line l).cap.opened = none → MarksClear s → t.lines = s.lines
            ∧ (a.overtaken = false ∧ seqBelow a.cursor (s.line l).cap.next = false →
              (t.port p).idle = true ∧ (t.port p).error = .none ∧ (t.port p).count = 0 ∧ (t.port p).value = 0
                ∧ (t.port p).position = a.cursor)
            ∧ (a.overtaken = true ∨ seqBelow a.cursor (s.line l).cap.next = true →
              (t.port p).phase = .filling (.readNew l (s.line l).cap.next (s.port p).count.toNat 0 0)
                ∧ (t.port p).busy = true ∧ (t.port p).dataIn = true)))
    ∧ (∀ (s : State) (p : PortId) (l : LineId) (o : OpenRecord), s.calls p l → (s.line l).cap.opened = some o →
      (s.line l).pool.pages ≠ [] → (s.line l).pool.freezePending = none → MarksClear s →
      (∀ a, (s.line l).attachment p = some a → ∃ t, exec (.readNew p) s = .next t
        ∧ (t.line l).closed = (s.line l).closed ++ [o.closed .read 0] ∧ (t.line l).cap.opened = none
        ∧ (t.line l).cap.next = (s.line l).cap.next ∧ (t.line l).cap.idleTimer = none
        ∧ (t.line l).io = (s.line l).io ∧ (t.line l).cond = (s.line l).cond ∧ (t.line l).tx = (s.line l).tx
        ∧ (∀ b, a.mode = .first b → ∀ c ∈ (t.port p).causes, ¬ (c.kind = .data ∧ c.line = l))
        ∧ (a.overtaken = false ∧ seqBelow a.cursor (s.line l).cap.next = false →
          (t.port p).idle = true ∧ (t.port p).error = .none ∧ (t.port p).count = 0 ∧ (t.port p).value = 0
            ∧ (t.port p).position = a.cursor)
        ∧ (a.overtaken = true ∨ seqBelow a.cursor (s.line l).cap.next = true →
          (t.port p).phase = .filling (.readNew l (s.line l).cap.next (s.port p).count.toNat 0 0)
            ∧ (t.port p).busy = true ∧ (t.port p).dataIn = true)
        ∧ (LogKept s → (s.line l).shortLog → a.overtaken = false → a.cursor = o.seq → o.body.length ≤ 236 →
          ∃ u, exec (.fillEnd p) t = .next u ∧ (u.port p).buffer = (o.closed .read 0).bytes ∧ (u.port p).dataReady = true))
        ∧ ((s.port p).position ≠ 0 → placeInLog (s.line l) (s.port p).position = .within → (s.port p).position ≠ (s.line l).cap.next →
          ∃ t, exec (.readHistory p) s = .next t
            ∧ (t.port p).phase = .filling (.readHistory l (s.port p).position (s.line l).cap.next (s.port p).count.toNat 0)
            ∧ ((openInRange (s.line l) (s.port p).position (s.port p).count.toNat = true →
                (t.line l).closed = (s.line l).closed ++ [o.closed .read 0] ∧ (t.line l).cap.opened = none)
              ∧ (openInRange (s.line l) (s.port p).position (s.port p).count.toNat = false → t.lines = s.lines))))

/-- READ HISTORY taken (R125): POSITION 0 is BAD ARGUMENT; a start below the oldest is OVERTAKEN with the oldest in POSITION; a start at the
next sequence number or above completes at once with COUNT 0 and POSITION the start (log 8), VALUE, which R125 does not name there, staying
as the master wrote it (log 8, the model's choice); a start within the log goes BUSY. Positions are compared modulo 2^32 (log 14, the
model's reading). -/
def Obligations.ReadHistoryPlacesItsStart : Prop :=
  ∀ (s : State) (p : PortId) (l : LineId), s.calls p l →
    let q := (s.port p).position
    let oldest := (s.line l).cap.oldest
    let next := (s.line l).cap.next
    (q = 0 → exec (.readHistory p) s = .next (s.answer p true { code := .badArgument }))
      ∧ (q ≠ 0 → seqDist oldest next < seqDist oldest q → seqBelow q oldest = true →
        exec (.readHistory p) s = .next (s.answer p true { code := .overtaken, position := some oldest }))
      ∧ (q ≠ 0 → (q = next ∨ (seqDist oldest next < seqDist oldest q ∧ seqBelow q oldest = false)) →
        ∃ t, exec (.readHistory p) s = .next t ∧ t.lines = s.lines ∧ (t.port p).idle = true ∧ (t.port p).error = .none
          ∧ (t.port p).count = 0 ∧ (t.port p).position = q ∧ (t.port p).value = (s.port p).value
          ∧ (t.port p).causes = (s.port p).causes)
      ∧ (q ≠ 0 → q ≠ next → seqDist oldest q ≤ seqDist oldest next → MarksClear s → (s.line l).cap.opened = none →
        ∃ t, exec (.readHistory p) s = .next t ∧ t.lines = s.lines
          ∧ (t.port p).phase = .filling (.readHistory l q next (s.port p).count.toNat 0) ∧ (t.port p).dataIn = true)

/-! ## Fills and data phases -/

/-- The buffer of a fill (R118, R121, R126): whole records one after the other, in order, while the next fits in the 512 bytes; the first
record that would not fit stops it, and a fill with a record to place places at least one. The boundaries that DATA READ tests are the
offsets after the last byte of each. A delivered record is its 12-byte header and its body, and a GAP is 16 bytes: the first missing number,
the time of the fill, kind 04h and the count of the missing (R118, R182). -/
def Obligations.AFillPlacesWholeRecords : Prop :=
  (∀ (records : List LogRecord) (f : Fill), f.bytes.length ≤ 512 → (∀ r ∈ records, r.body.length ≤ 236) →
    ∃ placed rest, records = placed ++ rest
      ∧ (fillRecords records f).bytes = f.bytes ++ placed.flatMap LogRecord.bytes
      ∧ (fillRecords records f).bytes.length ≤ 512
      ∧ (∀ r rs, rest = r :: rs → 512 < (fillRecords records f).bytes.length + (12 + r.body.length))
      ∧ (f.bytes.length ≤ 264 → records ≠ [] → placed ≠ [])
      ∧ (fillRecords records f).items.map Item.next = f.items.map Item.next ++ (placed.map fun r => nextSeq r.seq)
      ∧ (fillRecords records f).items.map Item.gap = f.items.map Item.gap ++ List.replicate placed.length none
      ∧ (fillRecords records f).items.map Item.stop = f.items.map Item.stop
        ++ (List.range placed.length).map fun k =>
          f.bytes.length + ((placed.take (k + 1)).map fun r => 12 + r.body.length).sum)
    ∧ ((∀ r : LogRecord, r.body.length < 256 →
      r.bytes.length = 12 + r.body.length
        ∧ natLE (r.bytes.take 4) = r.seq.toNat ∧ natLE ((r.bytes.drop 4).take 4) = r.time.toNat
        ∧ r.bytes.getD 8 0 = r.kind.code ∧ r.bytes.getD 9 0 = r.cause ∧ (r.bytes.getD 10 0).toNat = r.body.length
        ∧ r.bytes.getD 11 0 = r.detail ∧ r.bytes.drop 12 = r.body)
      ∧ (RecordKind.text.code = 0x01 ∧ RecordKind.sent.code = 0x02 ∧ RecordKind.event.code = 0x03)
      ∧ ∀ (q : Seq) (time : Word) (n : Nat), n < 4294967296 →
        (gapBytes q time n).length = 16 ∧ natLE ((gapBytes q time n).take 4) = q.toNat
          ∧ natLE (((gapBytes q time n).drop 4).take 4) = time.toNat
          ∧ ((gapBytes q time n).drop 8).take 4 = [0x04, 0x00, 0x04, 0x00] ∧ natLE ((gapBytes q time n).drop 12) = n)

/-- FILL END of a READ NEW (R121, R123, R176) answers a next state: the closed records from the cursor, or from the oldest behind a GAP when
the mark is set, up to the end and at most as many as remain of the maximum, are placed while they fit and loaded and the port goes
DATA-READY with TRANSFER LENGTH the bytes placed; a fill that places nothing completes with the cursor, the records delivered and the
records missed. FILL END of a READ HISTORY (R126, R127, R176): when the record at its position has left the log it ends with OVERTAKEN, with
the position, the records not delivered and the oldest; otherwise the closed records from the position up to the end, within COUNT, are
placed while they fit and loaded, and a fill that places nothing completes it. On a log of consecutive numbers those records carry the
numbers from the start on, and a log that has passed the end holds none of them, however many it has given since (R119, R121). No line is
changed. The fill is made wholly at FILL END (log 8, the model's choice). COUNT is clipped at 65535 where the rule names no bound (log 25,
PRESUMED). -/
def Obligations.FillEndLoadsTheBuffer : Prop :=
  (∀ (s : State) (p : PortId) (l : LineId) (stop : Seq) (m d g : Nat) (a : Attachment),
    (s.port p).phase = .filling (.readNew l stop m d g) → (s.line l).attachment p = some a →
    let x := s.line l
    let start := if a.overtaken then x.cap.oldest else a.cursor
    let below := if seqDist x.cap.oldest stop ≤ seqDist x.cap.oldest x.cap.next then x.closed.take (seqDist x.cap.oldest stop) else []
    let range := below.drop (seqDist x.cap.oldest start)
    ∃ t f, exec (.fillEnd p) s = .next t ∧ t.lines = s.lines ∧ (t.port p).causes = (s.port p).causes
      ∧ (x.consecutive → start ≠ 0 → range.map (·.seq) = seqRun start range.length)
      ∧ f = fillRecords (if m = 0 then range else range.take (m - d))
        (if a.overtaken then
          { bytes := gapBytes a.cursor s.timebase (seqDist a.cursor (s.line l).cap.oldest)
            items := [{ stop := 16, next := (s.line l).cap.oldest, gap := some (seqDist a.cursor (s.line l).cap.oldest) }] }
        else { bytes := [], items := [] })
      ∧ (f.bytes ≠ [] → (t.port p).phase = .reading (.readNew l stop m d g) f.items ∧ (t.port p).buffer = f.bytes
        ∧ (t.port p).transferLength = f.bytes.length ∧ (t.port p).readPoint = 0)
      ∧ (f.bytes = [] → (t.port p).idle = true ∧ (t.port p).error = .none ∧ (t.port p).position = a.cursor
        ∧ (t.port p).count = BitVec.ofNat 16 (min d 65535) ∧ (t.port p).value = BitVec.ofNat 32 g))
    ∧ (∀ (s : State) (p : PortId) (l : LineId) (q stop : Seq) (n d : Nat),
      (s.port p).phase = .filling (.readHistory l q stop n d) →
      let x := s.line l
      let stands := seqDist x.cap.oldest q ≤ seqDist x.cap.oldest x.cap.next
      let below := if seqDist x.cap.oldest stop ≤ seqDist x.cap.oldest x.cap.next then x.closed.take (seqDist x.cap.oldest stop) else []
      let range := below.drop (seqDist x.cap.oldest q)
      ∃ t f, exec (.fillEnd p) s = .next t ∧ t.lines = s.lines ∧ (t.port p).causes = (s.port p).causes
        ∧ (x.consecutive → q ≠ 0 → range.map (·.seq) = seqRun q range.length)
        ∧ f = fillRecords (if n = 0 then range else range.take (n - d)) { bytes := [], items := [] }
        ∧ (¬ stands →
          (t.port p).idle = true ∧ (t.port p).error = .overtaken ∧ (t.port p).position = q
            ∧ (t.port p).count = BitVec.ofNat 16 (min (if n = 0 then seqDist q stop else n - d) 65535)
            ∧ (t.port p).value = (s.line l).cap.oldest)
        ∧ (stands → f.bytes ≠ [] →
          (t.port p).phase = .reading (.readHistory l q stop n d) f.items ∧ (t.port p).buffer = f.bytes
            ∧ (t.port p).transferLength = f.bytes.length ∧ (t.port p).readPoint = 0)
        ∧ (stands → f.bytes = [] →
          (t.port p).idle = true ∧ (t.port p).error = .none ∧ (t.port p).position = q
            ∧ (t.port p).count = BitVec.ofNat 16 (min d 65535) ∧ (t.port p).value = (s.line l).cap.oldest))

/-- DATA READ (R173, R176): in a data-in phase it hands out the byte at the read point, and the point advances; outside it hands out 00h and
has no other effect. A byte that ends no record and not the buffer moves nothing else. The last byte of a record within a buffer moves the
place of the read (R122, R127): READ NEW moves the cursor past the record or the GAP and counts it, and the mark is not touched; READ
HISTORY moves its position and no attachment. -/
def Obligations.DataReadHandsOutTheByte : Prop :=
  (∀ (s : State) (p : PortId), (s.port p).resetAsserted = false →
    ((s.port p).dataReady = false ∨ (∃ c, (s.port p).phase = .writing c) →
      exec (.dataRead p) s = .next (s.modPort p fun x => { x with shiftedOut := 0, pointer := 16 }))
      ∧ ∀ c items, (s.port p).phase = .reading c items →
        (∃ t, exec (.dataRead p) s = .next t ∧ (t.port p).shiftedOut = (s.port p).buffer.getD (s.port p).readPoint 0)
          ∧ ((s.port p).readPoint + 1 ≠ (s.port p).transferLength → (∀ i is, items = i :: is → i.stop ≠ (s.port p).readPoint + 1) →
            exec (.dataRead p) s = .next (s.modPort p fun x =>
              { x with shiftedOut := x.buffer.getD x.readPoint 0, readPoint := x.readPoint + 1, pointer := 16 })))
    ∧ (∀ (s : State) (p : PortId) (i : Item) (rest : List Item), (s.port p).resetAsserted = false →
      i.stop = (s.port p).readPoint + 1 → i.stop ≠ (s.port p).transferLength →
      (∀ l stop m d g a, (s.port p).phase = .reading (.readNew l stop m d g) (i :: rest) → (s.line l).attachment p = some a →
        ∃ t, exec (.dataRead p) s = .next t ∧ (t.line l).attachment p = some { a with cursor := i.next }
          ∧ (t.port p).phase = .reading (match i.gap with
            | none => .readNew l stop m (d + 1) g
            | some n => .readNew l stop m d (g + n)) rest
          ∧ (∀ k, a.mode = .level k → ((∃ c ∈ (t.port p).causes, c.kind = .data ∧ c.line = l)
            ↔ k.toNat ≤ (t.line l).unread { a with cursor := i.next }))
          ∧ (t.line l).cap = (s.line l).cap ∧ (t.line l).pool = (s.line l).pool ∧ (t.line l).tx = (s.line l).tx)
        ∧ ∀ l q stop n d, (s.port p).phase = .reading (.readHistory l q stop n d) (i :: rest) →
          ∃ t, exec (.dataRead p) s = .next t ∧ t.lines = s.lines
            ∧ (t.port p).phase = .reading (.readHistory l i.next stop n (d + 1)) rest)

/-- The end of a buffer's delivery (R123, R127, R131, R176): LINE STATUS completes with NONE. READ HISTORY goes BUSY for its next fill while
records of its range remain, and otherwise completes with the place after the last record, the records delivered and the oldest; lines stay
as they are. READ NEW: the overtaken mark is cleared, with its cause, when the cursor is at or above the oldest; the next fill begins when
the mark is set or records remain below the end within the maximum, none once the log has passed the end (R124), and otherwise the command
completes. A lossless attachment asks for an evaluation, and the next fill or the results follow it: the mark is then as tested wherever the
evaluation takes no page, and a mark that stood below the oldest stays in any case. COUNT is clipped at 65535 where the rule names no bound
(log 25, PRESUMED). -/
def Obligations.TheEndOfADeliveryGoesOn : Prop :=
  (∀ (s : State) (p : PortId) (items : List Item), (s.port p).resetAsserted = false →
    (s.port p).readPoint + 1 = (s.port p).transferLength →
    (∀ b, (s.port p).phase = .reading (.lineStatus b) items →
      ∃ t, exec (.dataRead p) s = .next t ∧ t.lines = s.lines ∧ (t.port p).idle = true ∧ (t.port p).error = .none
        ∧ (t.port p).transferLength = 0 ∧ (t.port p).buffer = [] ∧ (t.port p).dataIn = false)
      ∧ ∀ l q stop n d i, (s.port p).phase = .reading (.readHistory l q stop n d) items → items = [i] →
        i.stop = (s.port p).transferLength →
        ∃ t, exec (.dataRead p) s = .next t ∧ t.lines = s.lines ∧ (t.port p).transferLength = 0 ∧ (t.port p).buffer = []
          ∧ (seqBelow i.next stop = true → (n = 0 ∨ d + 1 < n) →
            (t.port p).phase = .filling (.readHistory l i.next stop n (d + 1)) ∧ (t.port p).busy = true)
          ∧ ((seqBelow i.next stop = false ∨ (n ≠ 0 ∧ n ≤ d + 1)) →
            (t.port p).idle = true ∧ (t.port p).error = .none ∧ (t.port p).position = i.next
              ∧ (t.port p).count = BitVec.ofNat 16 (min (d + 1) 65535) ∧ (t.port p).value = (s.line l).cap.oldest))
    ∧ (∀ (s : State) (p : PortId) (l : LineId) (stop : Seq) (m d g : Nat) (i : Item) (a : Attachment),
      (s.port p).resetAsserted = false → (s.port p).readPoint + 1 = (s.port p).transferLength → i.stop = (s.port p).transferLength →
      (s.port p).phase = .reading (.readNew l stop m d g) [i] → (s.line l).attachment p = some a → a.lossless = false →
      let x := s.line l
      let below := !decide (seqDist x.cap.oldest i.next ≤ seqDist x.cap.oldest x.cap.next)
      let remains := seqDist x.cap.oldest stop ≤ seqDist x.cap.oldest x.cap.next ∧ seqDist x.cap.oldest i.next < seqDist x.cap.oldest stop
      let d' := if i.gap = none then d + 1 else d
      let g' := g + i.gap.getD 0
      ∃ t, exec (.dataRead p) s = .next t
        ∧ (t.line l).attachment p = some { a with cursor := i.next, overtaken := a.overtaken && below }
        ∧ (below = false → ∀ c ∈ (t.port p).causes, ¬ (c.kind = .overtaken ∧ c.line = l))
        ∧ (t.line l).cap = (s.line l).cap ∧ (t.line l).pool = (s.line l).pool ∧ (t.line l).tx = (s.line l).tx
        ∧ ((a.overtaken && below) = true ∨ (remains ∧ (m = 0 ∨ d' < m)) →
          (t.port p).phase = .filling (.readNew l stop m d' g') ∧ (t.port p).transferLength = 0 ∧ (t.port p).buffer = [])
        ∧ ((a.overtaken && below) = false → (¬ remains ∨ (m ≠ 0 ∧ m ≤ d')) →
          (t.port p).idle = true ∧ (t.port p).error = .none ∧ (t.port p).position = i.next
            ∧ (t.port p).count = BitVec.ofNat 16 (min d' 65535) ∧ (t.port p).value = BitVec.ofNat 32 g'))
    ∧ (∀ (s : State) (p : PortId) (l : LineId) (stop : Seq) (m d g : Nat) (i : Item) (a : Attachment),
      (s.port p).resetAsserted = false → (s.port p).readPoint + 1 = (s.port p).transferLength → i.stop = (s.port p).transferLength →
      (s.port p).phase = .reading (.readNew l stop m d g) [i] → (s.line l).attachment p = some a → a.lossless = true →
      let x := s.line l
      let below := !decide (seqDist x.cap.oldest i.next ≤ seqDist x.cap.oldest x.cap.next)
      let d' := if i.gap = none then d + 1 else d
      let g' := g + i.gap.getD 0
      ∃ t b, exec (.dataRead p) s = .next t
        ∧ (t.line l).attachment p = some b ∧ b.standing = ({ a with cursor := i.next } : Attachment).standing ∧ b.latch = a.latch
        ∧ (a.overtaken = true → below = true → b.overtaken = true)
        ∧ (x.roomy 12 → b.overtaken = (a.overtaken && below) ∧ (t.line l).cap.oldest = x.cap.oldest
          ∧ (below = false → ∀ c ∈ (t.port p).causes, ¬ (c.kind = .overtaken ∧ c.line = l)))
        ∧ (let y := t.line l
          let remains := seqDist y.cap.oldest stop ≤ seqDist y.cap.oldest y.cap.next ∧ seqDist y.cap.oldest i.next < seqDist y.cap.oldest stop
          (b.overtaken = true ∨ (remains ∧ (m = 0 ∨ d' < m)) →
            (t.port p).phase = .filling (.readNew l stop m d' g') ∧ (t.port p).transferLength = 0 ∧ (t.port p).buffer = [])
            ∧ (b.overtaken = false → (¬ remains ∨ (m ≠ 0 ∧ m ≤ d')) →
              (t.port p).idle = true ∧ (t.port p).error = .none ∧ (t.port p).position = i.next
                ∧ (t.port p).count = BitVec.ofNat 16 (min d' 65535) ∧ (t.port p).value = BitVec.ofNat 32 g')))

/-! ## Attachments and the writer role -/

/-- The arguments of ATTACH (R102, R182): the flags of OPTION from bit 0 up are writer, take, flush, lossless, from-oldest, condition enable
and watch enable, bit 7 is not examined, and COUNT holds the trigger level below the mode code. Check 2 refuses a mode above 2, LEVEL with
level 0, take without writer and flush without take. BAD ARGUMENT also refuses lossless while the flow option is off, read on a line that is
off as the option in force (log 11, the model's reading); with the writer flag, WRITER BUSY without take and LOWER PRECEDENCE for a take by
a port whose precedence is not strictly greater, the writer's port in VALUE (R105). A refusal changes nothing but the port's own block. -/
def Obligations.AttachChecksItsArguments : Prop :=
  (∀ (o : Byte) (n : Half),
    (attachArgs o n).writer = o.getLsbD 0 ∧ (attachArgs o n).take = o.getLsbD 1 ∧ (attachArgs o n).flush = o.getLsbD 2
      ∧ (attachArgs o n).lossless = o.getLsbD 3 ∧ (attachArgs o n).fromOldest = o.getLsbD 4
      ∧ (attachArgs o n).conditionEnable = o.getLsbD 5 ∧ (attachArgs o n).watchEnable = o.getLsbD 6
      ∧ (attachArgs o n).modeCode = n.toNat / 256 ∧ (attachArgs o n).trigger.toNat = n.toNat % 256
      ∧ ((attachArgs o n).bad = true ↔ 2 < n.toNat / 256 ∨ n = 0x0200 ∨ (o.getLsbD 1 = true ∧ o.getLsbD 0 = false)
        ∨ (o.getLsbD 2 = true ∧ o.getLsbD 1 = false)))
    ∧ (∀ (s : State) (p : PortId) (l : LineId) (a : AttachArgs), s.calls p l → a = attachArgs (s.port p).option (s.port p).count →
      (a.bad = true → exec (.attach p) s = .next (s.answer p false { code := .badArgument }))
        ∧ (a.lossless = true → (s.line l).io.inForce.flow = false →
          exec (.attach p) s = .next (s.answer p false { code := .badArgument }))
        ∧ ∀ w, a.bad = false → (a.lossless = true → (s.line l).io.inForce.flow = true) → a.writer = true →
          (s.line l).writer = some w → w ≠ p →
          (a.take = false →
            exec (.attach p) s = .next (s.answer p false { code := .writerBusy, value := some (BitVec.ofNat 32 w.val) }))
            ∧ (a.take = true → (s.port p).precedence ≤ (s.port w).precedence →
              exec (.attach p) s = .next (s.answer p false { code := .lowerPrecedence, value := some (BitVec.ofNat 32 w.val) })))

/-- ATTACH without the writer flag (R103, R104, R107): a new attachment joins the end of the list as a watcher, with an empty latch and its
cursor at the next sequence number, or at the oldest with from-oldest; an attachment that is there is updated in its place, keeping its
role, its latch and, without from-oldest, its cursor. POSITION is the cursor and VALUE the oldest, worked out after its effects (log 27, the
model's reading). Where the hold has nothing to do, the log, the queue and the settings stay as they are, and for every ATTACH that passes
its checks, with the writer flag or without, the causes are (R164, R166 to R168): in LEVEL mode DATA exactly when the unread records reach
the level; in FIRST mode DATA and armed clear with records unread, and no DATA with armed set with none; in NONE mode no DATA; CONDITION
exactly when condition enable is set over a latch that is not empty; and from-oldest clears the overtaken mark and OVERTAKEN, the mark
staying otherwise (R104, R162), where WRITER SET takes no page. -/
def Obligations.AttachMakesOrUpdates : Prop :=
  (∀ (s : State) (p : PortId) (l : LineId) (a : AttachArgs), s.calls p l → a = attachArgs (s.port p).option (s.port p).count →
    a.bad = false → (a.lossless = true → (s.line l).io.inForce.flow = true) → a.writer = false →
    ∃ t b, exec (.attach p) s = .next t ∧ (t.line l).attachment p = some b
      ∧ b.lossless = a.lossless ∧ b.conditionEnable = a.conditionEnable ∧ b.watchEnable = a.watchEnable
      ∧ b.mode.disarmed = a.mode.disarmed
      ∧ Answered s t p { position := some b.cursor, value := some (t.line l).cap.oldest }
      ∧ ((s.line l).attachment p = none →
        b.role = .watcher ∧ b.latch = 0
          ∧ b.cursor = (if a.fromOldest then (s.line l).cap.oldest else (s.line l).cap.next)
          ∧ (t.line l).att.list.map Attachment.standing = (s.line l).att.list.map Attachment.standing ++ [b.standing])
      ∧ (∀ old, (s.line l).attachment p = some old →
        b.role = old.role ∧ b.latch = old.latch
          ∧ b.cursor = (if a.fromOldest then (s.line l).cap.oldest else old.cursor)
          ∧ (t.line l).att.list.map (·.port) = (s.line l).att.list.map (·.port))
      ∧ (t.line l).att.leaseTimer = (s.line l).att.leaseTimer
      ∧ ((s.line l).noHold → MarksClear s →
        (t.line l).cap = (s.line l).cap ∧ (t.line l).pool = (s.line l).pool ∧ (t.line l).io = (s.line l).io
          ∧ (t.line l).cond = (s.line l).cond ∧ (t.line l).tx = (s.line l).tx ∧ (t.line l).watch = (s.line l).watch))
    ∧ (∀ (s : State) (p : PortId) (l : LineId) (a : AttachArgs), s.calls p l → a = attachArgs (s.port p).option (s.port p).count →
      a.bad = false → (a.lossless = true → (s.line l).io.inForce.flow = true) →
      (a.writer = true → roleRefused s l p a.take = none) → (s.line l).noHold → MarksClear s →
      ∃ t b, exec (.attach p) s = .next t ∧ (t.line l).attachment p = some b
        ∧ (∀ k, b.mode = .level k →
          ((∃ c ∈ (t.port p).causes, c.kind = .data ∧ c.line = l) ↔ k.toNat ≤ (t.line l).unread b))
        ∧ (∀ r, b.mode = .first r → ((∃ c ∈ (t.port p).causes, c.kind = .data ∧ c.line = l) ↔ 0 < (t.line l).unread b)
          ∧ r = decide ((t.line l).unread b = 0))
        ∧ (b.mode = .none → ∀ c ∈ (t.port p).causes, ¬ (c.kind = .data ∧ c.line = l))
        ∧ ((∃ c ∈ (t.port p).causes, c.kind = .condition ∧ c.line = l) ↔ b.conditionEnable = true ∧ b.latch ≠ 0)
        ∧ ((a.writer = true → (s.line l).roomy 14) →
          ((s.line l).attachment p = none → b.overtaken = false)
            ∧ ∀ old, (s.line l).attachment p = some old →
              b.overtaken = (old.overtaken && !a.fromOldest)
                ∧ (a.fromOldest = true → ∀ c ∈ (t.port p).causes, ¬ (c.kind = .overtaken ∧ c.line = l))))

/-- ATTACH with the writer flag granted (R103 to R107, R110, R111) makes or updates the attachment with the options of the command, its
cursor and latch as without the flag, its role WRITER, the other attachments staying as watchers; POSITION is its cursor and VALUE the
oldest, worked out after its effects (log 27, the model's reading). The role is granted (R105, R106, R110, R111): on a line without a
writer, with WRITER SET naming the port and ATTACH; to the writer itself, with no record; by a take from a writer of strictly lower
precedence, which becomes a watcher, with WRITE LOST posted at its port, WRITER SET naming the port and TAKE, its waiting SEND ended with
WRITE LOST, and the queue emptied when the flush flag is set and kept when it is not. The lease timer restarts where the line has a lease.
COUNT is clipped at 65535 where the rule names no bound (log 25, PRESUMED). -/
def Obligations.AttachGrantsTheWriterRole : Prop :=
  (∀ (s : State) (p : PortId) (l : LineId) (a : AttachArgs), s.calls p l → a = attachArgs (s.port p).option (s.port p).count →
    a.bad = false → (a.lossless = true → (s.line l).io.inForce.flow = true) → a.writer = true → AttachmentTable s →
    (∀ w, (s.line l).writer = some w → w = p ∨ (a.take = true ∧ (s.port w).precedence < (s.port p).precedence)) →
    ∃ t, exec (.attach p) s = .next t ∧ (t.line l).writer = some p
      ∧ (t.line l).att.leaseTimer
        = (if (s.line l).io.inForce.lease = 0 then none else some { start := s.timebase, due := false })
      ∧ ((s.line l).writer = none → (t.line l).tx.queue = (s.line l).tx.queue ∧ (t.line l).tx.drainMark = none
        ∧ ((s.line l).noHold → LogsEvent s t l .writerSet [BitVec.ofNat 8 p.val, 1]))
      ∧ ((s.line l).writer = some p → (t.line l).tx.queue = (s.line l).tx.queue
        ∧ (t.line l).tx.drainMark = (s.line l).tx.drainMark
        ∧ ((s.line l).noHold → MarksClear s → (t.line l).cap = (s.line l).cap ∧ (t.line l).pool = (s.line l).pool))
      ∧ ∀ w, (s.line l).writer = some w → w ≠ p →
        (∃ x, (t.line l).attachment w = some x ∧ x.role = .watcher)
          ∧ (∃ c ∈ (t.port w).causes, c.kind = .writeLost ∧ c.line = l)
          ∧ (t.line l).tx.waiting = none ∧ (t.line l).tx.drainMark = none
          ∧ (∀ r, (s.line l).tx.waiting = some (.send w r) →
            (t.port w).idle = true ∧ (t.port w).error = .writeLost
              ∧ (t.port w).count = BitVec.ofNat 16 (min r.length 65535))
          ∧ (a.flush = false → (t.line l).tx.queue = (s.line l).tx.queue)
          ∧ (a.flush = true → (t.line l).tx.queue = [] ∧ ((s.line l).noHold → (t.line l).tx.flowSlot = (s.line l).tx.flowSlot))
          ∧ ((s.line l).noHold → LogsEvent s t l .writerSet [BitVec.ofNat 8 p.val, 2]))
    ∧ (∀ (s : State) (p : PortId) (l : LineId) (a : AttachArgs), s.calls p l → a = attachArgs (s.port p).option (s.port p).count →
      a.bad = false → (a.lossless = true → (s.line l).io.inForce.flow = true) → a.writer = true → AttachmentTable s → WaitingAgrees s →
      (∀ w, (s.line l).writer = some w → w = p ∨ (a.take = true ∧ (s.port w).precedence < (s.port p).precedence)) →
      ∃ t b, exec (.attach p) s = .next t ∧ (t.line l).attachment p = some b ∧ b.role = .writer
        ∧ b.lossless = a.lossless ∧ b.conditionEnable = a.conditionEnable ∧ b.watchEnable = a.watchEnable
        ∧ b.mode.disarmed = a.mode.disarmed
        ∧ Answered s t p { position := some b.cursor, value := some (t.line l).cap.oldest }
        ∧ ((s.line l).attachment p = none →
          b.latch = 0 ∧ b.cursor = (if a.fromOldest then (s.line l).cap.oldest else (s.line l).cap.next)
            ∧ (t.line l).att.list.map (·.port) = (s.line l).att.list.map (·.port) ++ [p])
        ∧ (∀ old, (s.line l).attachment p = some old →
          b.latch = old.latch ∧ b.cursor = (if a.fromOldest then (s.line l).cap.oldest else old.cursor)
            ∧ (t.line l).att.list.map (·.port) = (s.line l).att.list.map (·.port))
        ∧ (∀ q x, q ≠ p → (s.line l).attachment q = some x → ∃ y, (t.line l).attachment q = some y
          ∧ y.standing = ({ x with role := .watcher } : Attachment).standing ∧ y.latch = x.latch)
        ∧ (t.line l).io = (s.line l).io ∧ (t.line l).cond = (s.line l).cond ∧ (t.line l).watch = (s.line l).watch)

/-- DETACH (R108): without an attachment it is NOT ATTACHED. The port's attachment leaves the list, the others keeping their order, and
every cause of the port for the line goes. A writer's leaving stops the lease, removes the drain mark and writes WRITER SET with FFh and
DETACH; the queue stays. -/
def Obligations.DetachRemovesTheAttachment : Prop :=
  ∀ (s : State) (p : PortId) (l : LineId), s.calls p l →
    ((s.line l).attachment p = none → exec (.detach p) s = .next (s.answer p false { code := .notAttached }))
      ∧ ((s.line l).attachment p ≠ none →
        ∃ t, exec (.detach p) s = .next t ∧ (t.line l).attachment p = none
          ∧ (t.line l).att.list.map Attachment.standing
            = ((s.line l).att.list.filter fun x => decide (x.port ≠ p)).map Attachment.standing
          ∧ (t.port p).causes = (s.port p).causes.filter (fun c => decide (c.line ≠ l))
          ∧ Answered s t p {}
          ∧ (t.line l).tx.queue = (s.line l).tx.queue ∧ (t.line l).io = (s.line l).io ∧ (t.line l).cond = (s.line l).cond
          ∧ ((s.line l).writer = some p → (t.line l).att.leaseTimer = none ∧ (t.line l).tx.drainMark = none
            ∧ (AttachmentTable s → (t.line l).writer = none)
            ∧ ((s.line l).noHold → LogsEvent s t l .writerSet [0xFF, 5]))
          ∧ ((s.line l).writer ≠ some p → (t.line l).att.leaseTimer = (s.line l).att.leaseTimer
            ∧ ((s.line l).noHold → MarksClear s → (t.line l).cap = (s.line l).cap ∧ (t.line l).pool = (s.line l).pool)))

/-- RELEASE WRITE (R109): a port that is not the writer is refused with NOT WRITER, and nothing changes. The writer's attachment becomes a
watcher with its cursor, latch and options unchanged; the line has no writer and its lease timer is stopped; WRITER SET is written with FFh
and RELEASE, where the page has room; the transmit unit drops its drain mark and keeps its queue; the control right is every port's; no
WRITE LOST is posted. An ABORT while it shows BUSY ends it with ABORTED, and its effects stand. -/
def Obligations.ReleaseWriteGivesUpTheRole : Prop :=
  (∀ (s : State) (p : PortId), (s.port p).ready → 16 ≤ (s.port p).line.toNat →
    exec (.releaseWrite p) s = .next (s.answer p false { code := .badLine }))
    ∧ (∀ (s : State) (p : PortId) (l : LineId), s.calls p l → (s.line l).writer ≠ some p →
      exec (.releaseWrite p) s = .next (s.answer p false { code := .notWriter }))
    ∧ ∀ (s : State) (p : PortId) (l : LineId) (a : Attachment), AttachmentTable s → s.calls p l → (s.line l).writer = some p →
      (s.line l).attachment p = some a →
      ∃ t b, exec (.releaseWrite p) s = .next t ∧ (t.line l).attachment p = some b
        ∧ b.standing = ({ a with role := .watcher } : Attachment).standing ∧ b.latch = a.latch
        ∧ (t.line l).writer = none ∧ (t.line l).att.leaseTimer = none ∧ (∀ q, (t.line l).hasControl q = true)
        ∧ LogsEvent s t l .writerSet [0xFF, 3]
        ∧ (t.line l).tx.drainMark = none ∧ (t.line l).tx.queue = (s.line l).tx.queue ∧ (t.line l).tx.waiting = (s.line l).tx.waiting
        ∧ (∀ q, ((t.port q).causes.filter fun c => decide (c.kind = .writeLost))
          = (s.port q).causes.filter fun c => decide (c.kind = .writeLost))
        ∧ Answered s t p {}
        ∧ ∃ u, exec (.abort p) t = .next u ∧ (u.port p).error = .aborted ∧ u.lines = t.lines

/-- LEASE EXPIRY (R111, R112): where the lease timer of a line with a writer has fallen due, the writer becomes a watcher, WRITE LOST is at
its port, its waiting SEND or SEND BREAK ends with WRITE LOST, the timer stops, and WRITER SET is written with FFh and LEASE; the queue
stays. COUNT is clipped at 65535 where the rule names no bound (log 25, PRESUMED). -/
def Obligations.LeaseExpiryTakesTheRole : Prop :=
  ∀ (s : State) (l : LineId) (w : PortId), AttachmentTable s → WaitingAgrees s → (s.line l).writer = some w →
    timerDue (s.line l).att.leaseTimer = true →
    ∃ t, exec (.leaseExpiry l) s = .next t ∧ (t.line l).writer = none ∧ (t.line l).att.leaseTimer = none
      ∧ (t.line l).att.list.map Attachment.standing
        = ((s.line l).att.list.map fun x => if x.port = w then { x with role := .watcher } else x).map Attachment.standing
      ∧ (∃ c ∈ (t.port w).causes, c.kind = .writeLost ∧ c.line = l)
      ∧ (t.line l).tx.queue = (s.line l).tx.queue ∧ (t.line l).tx.drainMark = none ∧ (t.line l).tx.waiting = none
      ∧ (∀ x, (s.line l).tx.waiting = some x → (t.port w).idle = true ∧ (t.port w).error = .writeLost)
      ∧ (∀ r, (s.line l).tx.waiting = some (.send w r) → (t.port w).count = BitVec.ofNat 16 (min r.length 65535))
      ∧ (t.line l).io = (s.line l).io ∧ (t.line l).cond = (s.line l).cond
      ∧ LogsEvent s t l .writerSet [0xFF, 4]

/-! ## Writing to a line -/

/-- SEND taken (R137): COUNT 0 or above 512 is BAD ARGUMENT, a port that is not the writer NOT WRITER, a line that is off LINE OFF.
Otherwise the port goes DATA-READY for COUNT bytes, the lease restarts, the port's DRAINED cause for the line goes (R163), and the line is
otherwise unchanged. DATA WRITE (R173, R177): in a data-out phase each byte but the last is stored at the write point; outside it is
discarded, with no other effect. The last byte of a SEND's data (R138, R140): the SEND ends with WRITE LOST when the port is no longer the
writer and with LINE OFF when the line is off, WRITE LOST when both are so (log 37, the model's choice), COUNT holding all its characters;
otherwise it becomes the line's waiting SEND, with the bytes in order, and tries its first run. COUNT is clipped at 65535 where the rule
names no bound (log 25, PRESUMED). -/
def Obligations.ASendTakesItsData : Prop :=
  (∀ (s : State) (p : PortId) (l : LineId), s.calls p l →
    let n := (s.port p).count.toNat
    (n = 0 ∨ 512 < n → exec (.send p) s = .next (s.answer p false { code := .badArgument }))
      ∧ (1 ≤ n → n ≤ 512 → (s.line l).writer ≠ some p → exec (.send p) s = .next (s.answer p false { code := .notWriter }))
      ∧ (1 ≤ n → n ≤ 512 → (s.line l).writer = some p → (s.line l).cond.state = .off →
        exec (.send p) s = .next (s.answer p false { code := .lineOff }))
      ∧ (1 ≤ n → n ≤ 512 → (s.line l).writer = some p → (s.line l).cond.state ≠ .off →
        ∃ t, exec (.send p) s = .next t ∧ (t.port p).phase = .writing (.send l n) ∧ (t.port p).transferLength = n
          ∧ (t.port p).buffer = [] ∧ (t.port p).dataReady = true ∧ (t.port p).error = .none
          ∧ (t.port p).causes = (s.port p).causes.filter (fun c => !(decide (c.kind = .drained) && decide (c.line = l)))
          ∧ t.line l = { s.line l with
              att := { (s.line l).att with
                leaseTimer := if (s.line l).io.inForce.lease = 0 then none else some { start := s.timebase, due := false } } }))
    ∧ (∀ (s : State) (p : PortId) (b : Byte), (s.port p).resetAsserted = false →
      ((∀ c, (s.port p).phase ≠ .writing c) → exec (.dataWrite p b) s = .next (s.modPort p fun x => { x with pointer := 16 }))
        ∧ ∀ c, (s.port p).phase = .writing c → (s.port p).buffer.length + 1 ≠ (s.port p).transferLength →
          exec (.dataWrite p b) s = .next (s.modPort p fun x => { x with buffer := x.buffer ++ [b], pointer := 16 }))
    ∧ (∀ (s : State) (p : PortId) (l : LineId) (n : Nat) (b : Byte), (s.port p).resetAsserted = false →
      (s.port p).phase = .writing (.send l n) → (s.port p).buffer.length + 1 = (s.port p).transferLength →
      ((s.line l).writer ≠ some p → ∃ t, exec (.dataWrite p b) s = .next t ∧ t.lines = s.lines ∧ (t.port p).idle = true
        ∧ (t.port p).error = .writeLost ∧ (t.port p).count = BitVec.ofNat 16 (min n 65535))
        ∧ ((s.line l).writer = some p → (s.line l).cond.state = .off → ∃ t, exec (.dataWrite p b) s = .next t
          ∧ t.lines = s.lines ∧ (t.port p).idle = true ∧ (t.port p).error = .lineOff
          ∧ (t.port p).count = BitVec.ofNat 16 (min n 65535))
        ∧ ((s.line l).writer = some p → (s.line l).cond.state ≠ .off →
          exec (.dataWrite p b) s = exec (.sendRunPlacement l)
            ((s.modTx l fun x => { x with waiting := some (.send p ((s.port p).buffer ++ [b])) }).modPort p fun x =>
              { x with buffer := x.buffer ++ [b], transferLength := 0, phase := .waiting l, pointer := 16 })))

/-- SEND RUN PLACEMENT (R134, R139, R140, R146): with the free entries at the refill step, 10 or what remains, the waiting SEND places as
many characters as fit at the newest end, the drain mark holds its port and the lease restarts; with none remaining it completes with NONE
and COUNT 0, and otherwise waits on with the rest. A transmitter with work in hand takes nothing here. In IDLE the placing is a start point
(R52): the first character goes into SENDING and the rest of the run is queued, and the taking that empties the queue posts DRAINED and
removes the drain mark (R146); in PAUSED all of it is queued (R55). The waiting transmitter is stated where the hold has nothing to do: an
evaluation that the run's page asks for comes ahead of the start point (log 35, the model's choice). With log-sent on, where the page has
room, the open record closes with SENT and a run of at most the maximum record length makes one SENT record with the port as its source
(R20); with log-sent off the log stays as it is. A longer run is cut into records in order (R21): the pieces joined are the run, every one
but the last holds exactly the maximum record length, and none is empty. -/
def Obligations.AWaitingSendPlacesARun : Prop :=
  (∀ (s : State) (p : PortId) (l : LineId) (rest : List Byte), SettingsOk s → (s.line l).writer.isSome = true →
    (s.line l).tx.waiting = some (.send p rest) → min 10 rest.length ≤ 64 - (s.line l).tx.queue.length →
    (s.line l).tx.state.waits = false →
    let free := 64 - (s.line l).tx.queue.length
    ∃ t, exec (.sendRunPlacement l) s = .next t
      ∧ (t.line l).tx.queue = (s.line l).tx.queue ++ (rest.take free).map Entry.character
      ∧ (t.line l).tx.drainMark = some p
      ∧ (t.line l).att.leaseTimer
        = (if (s.line l).io.inForce.lease = 0 then none else some { start := s.timebase, due := false })
      ∧ (rest.length ≤ free → (t.line l).tx.waiting = none ∧ (t.port p).idle = true ∧ (t.port p).error = .none
        ∧ (t.port p).count = 0)
      ∧ (free < rest.length → (t.line l).tx.waiting = some (.send p (rest.drop free)) ∧ (t.port p).phase = (s.port p).phase)
      ∧ (t.line l).io = (s.line l).io ∧ (t.line l).cond = (s.line l).cond ∧ (t.line l).watch = (s.line l).watch
      ∧ (t.line l).att.list.map Attachment.standing = (s.line l).att.list.map Attachment.standing)
    ∧ (∀ (s : State) (p : PortId) (l : LineId) (c : Byte) (rest : List Byte), SettingsOk s → (s.line l).writer.isSome = true →
      (s.line l).tx.waiting = some (.send p (c :: rest)) → (s.line l).noHold → (s.line l).tx.flowSlot = none →
      let x := s.line l
      let lease := if x.io.inForce.lease = 0 then none else some { start := s.timebase, due := false }
      (x.tx.state = .idle → x.tx.pause = false → x.tx.queue = [] →
        ∃ t, exec (.sendRunPlacement l) s = .next t ∧ (t.line l).tx.state = .sending c
          ∧ (t.line l).tx.queue = (rest.take 63).map Entry.character
          ∧ (t.line l).tx.inUse = x.io.inForce.txUse ∧ (t.line l).att.leaseTimer = lease
          ∧ (rest = [] → (t.line l).tx.drainMark = none ∧ ∃ d ∈ (t.port p).causes, d.kind = .drained ∧ d.line = l)
          ∧ (rest ≠ [] → (t.line l).tx.drainMark = some p)
          ∧ (rest.length ≤ 63 → (t.line l).tx.waiting = none ∧ (t.port p).idle = true ∧ (t.port p).error = .none
            ∧ (t.port p).count = 0)
          ∧ (63 < rest.length → (t.line l).tx.waiting = some (.send p (rest.drop 63)) ∧ (t.port p).phase = (s.port p).phase)
          ∧ (t.line l).io = x.io ∧ (t.line l).cond = x.cond ∧ (t.line l).watch = x.watch)
        ∧ (x.tx.state = .paused → x.tx.pause = true → min 10 (rest.length + 1) ≤ 64 - x.tx.queue.length →
          let free := 64 - x.tx.queue.length
          ∃ t, exec (.sendRunPlacement l) s = .next t ∧ (t.line l).tx.state = .paused ∧ (t.line l).tx.pause = true
            ∧ (t.line l).tx.queue = x.tx.queue ++ ((c :: rest).take free).map Entry.character
            ∧ (t.line l).tx.drainMark = some p ∧ (t.line l).att.leaseTimer = lease
            ∧ (rest.length + 1 ≤ free → (t.line l).tx.waiting = none ∧ (t.port p).idle = true ∧ (t.port p).error = .none
              ∧ (t.port p).count = 0)
            ∧ (free < rest.length + 1 → (t.line l).tx.waiting = some (.send p ((c :: rest).drop free))
              ∧ (t.port p).phase = (s.port p).phase)
            ∧ (t.line l).io = x.io ∧ (t.line l).cond = x.cond ∧ (t.line l).watch = x.watch))
    ∧ (∀ (s : State) (p : PortId) (l : LineId) (rest : List Byte), SettingsOk s →
      (s.line l).tx.waiting = some (.send p rest) → rest ≠ [] → rest.length ≤ 64 - (s.line l).tx.queue.length →
      (s.line l).tx.state.waits = false →
      ∃ t, exec (.sendRunPlacement l) s = .next t
        ∧ ((s.line l).io.inForce.logSent = false → MarksClear s →
          (t.line l).cap = (s.line l).cap ∧ (t.line l).pool = (s.line l).pool)
        ∧ ((s.line l).io.inForce.logSent = true → rest.length ≤ (s.line l).io.inForce.maxLength.toNat →
          (s.line l).roomy (12 + rest.length) →
          (t.line l).closed = (s.line l).closed ++ (s.line l).closing .sent 0
            ++ [{ seq := (s.line l).cap.next, time := s.timebase, kind := .sent, cause := 0, detail := BitVec.ofNat 8 p.val, body := rest }]
            ∧ (t.line l).cap.opened = none ∧ (t.line l).cap.next = nextSeq (s.line l).cap.next))
    ∧ (∀ (m : Nat) (run : List Byte), 1 ≤ m →
      (runPieces run.length m run).flatten = run
        ∧ (∀ x ∈ runPieces run.length m run, x ≠ [] ∧ x.length ≤ m)
        ∧ ∀ xs x, runPieces run.length m run = xs ++ [x] → ∀ y ∈ xs, y.length = m)

/-- SEND BREAK (R142): VALUE below 10 or above 5000 is BAD ARGUMENT, a port that is not the writer NOT WRITER, a line that is off LINE OFF.
With an entry free it places its marker at the newest end and completes at once, the drain mark holding the port; with none free it waits,
and BREAK MARKER PLACEMENT places it once one is. A transmitter with work in hand takes nothing here. In IDLE the marker is taken as it is
placed (R52, R135): BREAKING begins, BREAK SENT is written, and DRAINED is posted and the drain mark removed (R146); in PAUSED it is queued
(R55). The waiting transmitter is stated where the hold has nothing to do. -/
def Obligations.SendBreakPlacesAMarker : Prop :=
  (∀ (s : State) (p : PortId) (l : LineId),
    (s.calls p l →
      let n := (s.port p).value.toNat
      (n < 10 ∨ 5000 < n → exec (.sendBreak p) s = .next (s.answer p false { code := .badArgument }))
        ∧ (10 ≤ n → n ≤ 5000 → (s.line l).writer ≠ some p →
          exec (.sendBreak p) s = .next (s.answer p false { code := .notWriter }))
        ∧ (10 ≤ n → n ≤ 5000 → (s.line l).writer = some p → (s.line l).cond.state = .off →
          exec (.sendBreak p) s = .next (s.answer p false { code := .lineOff }))
        ∧ (10 ≤ n → n ≤ 5000 → (s.line l).writer = some p → (s.line l).cond.state ≠ .off → (s.line l).tx.state.waits = false →
          ∃ t, exec (.sendBreak p) s = .next t
            ∧ (t.line l).att.leaseTimer
              = (if (s.line l).io.inForce.lease = 0 then none else some { start := s.timebase, due := false })
            ∧ (t.line l).cap = (s.line l).cap ∧ (t.line l).pool = (s.line l).pool ∧ (t.line l).io = (s.line l).io
            ∧ ((s.line l).tx.queue.length < 64 →
              (t.line l).tx = { (s.line l).tx with
                  queue := (s.line l).tx.queue ++ [.marker n p], drainMark := some p, waiting := none }
                ∧ (t.port p).idle = true ∧ (t.port p).error = .none)
            ∧ (64 ≤ (s.line l).tx.queue.length →
              (t.line l).tx = { (s.line l).tx with waiting := some (.sendBreak p n) } ∧ (t.port p).phase = .waiting l
                ∧ (t.port p).busy = true)))
      ∧ ∀ d, (s.line l).tx.waiting = some (.sendBreak p d) → (s.line l).tx.queue.length < 64 → (s.line l).tx.state.waits = false →
        ∃ t, exec (.breakMarkerPlacement l) s = .next t
          ∧ (t.line l).tx = { (s.line l).tx with
              queue := (s.line l).tx.queue ++ [.marker d p], drainMark := some p, waiting := none }
          ∧ (t.port p).idle = true ∧ (t.port p).error = .none
          ∧ (t.line l).cap = (s.line l).cap ∧ (t.line l).pool = (s.line l).pool)
    ∧ (∀ (s : State) (p : PortId) (l : LineId) (n : Nat) (c : Instr),
      ((c = .sendBreak p ∧ s.calls p l ∧ n = (s.port p).value.toNat ∧ 10 ≤ n ∧ n ≤ 5000 ∧ (s.line l).writer = some p
          ∧ (s.line l).cond.state ≠ .off)
        ∨ (c = .breakMarkerPlacement l ∧ (s.line l).tx.waiting = some (.sendBreak p n))) →
      (s.line l).noHold → (s.line l).tx.flowSlot = none →
      let x := s.line l
      (x.tx.state = .idle → x.tx.pause = false → x.tx.queue = [] →
        ∃ t, exec c s = .next t ∧ (t.line l).tx.state = .breaking n { start := s.timebase, due := false }
          ∧ (t.line l).tx.queue = [] ∧ (t.line l).tx.inUse = x.io.inForce.txUse
          ∧ (t.line l).tx.drainMark = none ∧ (∃ d ∈ (t.port p).causes, d.kind = .drained ∧ d.line = l)
          ∧ (t.line l).tx.waiting = none ∧ (t.port p).idle = true ∧ (t.port p).error = .none
          ∧ LogsEvent s t l .breakSent [BitVec.ofNat 8 n, BitVec.ofNat 8 (n / 256), BitVec.ofNat 8 p.val]
          ∧ (t.line l).io = x.io ∧ (t.line l).cond = x.cond ∧ (t.line l).watch = x.watch)
        ∧ (x.tx.state = .paused → x.tx.pause = true → x.tx.queue.length < 64 →
          ∃ t, exec c s = .next t
            ∧ (t.line l).tx = { x.tx with
                inUse := x.io.inForce.txUse, queue := x.tx.queue ++ [.marker n p], drainMark := some p, waiting := none }
            ∧ (t.port p).idle = true ∧ (t.port p).error = .none
            ∧ (t.line l).cap = x.cap ∧ (t.line l).pool = x.pool ∧ (t.line l).io = x.io))

/-- The transmitter's next work at a start point (R51, R52, R54, R55): the flow slot first, then PAUSED while the pause is set, then the
head of the queue, then IDLE; it takes the divisor, format, inversion and loopback in force (R44). A pacing gap that has lasted, the end of
a break's closing time, and the end of a character with no pacing each reach one. The transmit pin (R51, R53, R54, R57, R58) is at the
transmit level, spacing while a break is spacing, the serializer's inside a character (a free value, log 13), marking otherwise; high for
marking without inversion and low with it; in loopback it is held marking. -/
def Obligations.AStartPointTakesTheNextWork : Prop :=
  (∀ (s : State) (l : LineId) (c : Instr),
    ((c = .pacingGapExpiry l ∧ ∃ d u, (s.line l).tx.state = .gap d u ∧ u.due = true)
      ∨ (c = .breakClosingEnd l ∧ (s.line l).tx.state = .closing)
      ∨ (c = .sendCharacterEnd l ∧ (∃ b, (s.line l).tx.state = .sending b) ∧ (s.line l).io.inForce.pacing = 0)) →
    ∃ t, exec c s = .next t
      ∧ (t.line l).tx.inUse
        = { divisor := (s.line l).io.inForce.divisor, format := (s.line l).io.inForce.format
            inversion := (s.line l).io.inForce.inversion, loopback := (s.line l).io.inForce.loopback
            edgeAhead := (s.line l).io.inForce.loopback }
      ∧ (∀ f, (s.line l).tx.flowSlot = some f →
        (t.line l).tx.state = .sending (if f = .xon then 0x11 else 0x13) ∧ (t.line l).tx.flowSlot = none
          ∧ (t.line l).tx.queue = (s.line l).tx.queue ∧ (t.line l).cap = (s.line l).cap ∧ t.ports = s.ports)
      ∧ ((s.line l).tx.flowSlot = none → (s.line l).tx.pause = true →
        (t.line l).tx.state = .paused ∧ (t.line l).tx.queue = (s.line l).tx.queue ∧ t.ports = s.ports)
      ∧ ((s.line l).tx.flowSlot = none → (s.line l).tx.pause = false → (s.line l).tx.queue = [] →
        (t.line l).tx.state = .idle ∧ (t.line l).tx.queue = [] ∧ t.ports = s.ports)
      ∧ (∀ b rest, (s.line l).tx.flowSlot = none → (s.line l).tx.pause = false → (s.line l).tx.queue = .character b :: rest →
        (t.line l).tx.state = .sending b ∧ (t.line l).tx.queue = rest ∧ (t.line l).cap = (s.line l).cap)
      ∧ (∀ d q rest, (s.line l).tx.flowSlot = none → (s.line l).tx.pause = false → (s.line l).tx.queue = .marker d q :: rest →
        (t.line l).tx.queue = rest
          ∧ ((s.line l).noHold → (t.line l).tx.state = .breaking d { start := s.timebase, due := false })
          ∧ LogsEvent s t l .breakSent [BitVec.ofNat 8 d, BitVec.ofNat 8 (d / 256), BitVec.ofNat 8 q.val])
      ∧ (t.line l).io = (s.line l).io ∧ (t.line l).cond = (s.line l).cond ∧ (t.line l).watch = (s.line l).watch
      ∧ (t.line l).tx.waiting = (s.line l).tx.waiting)
    ∧ (∀ (inCharacter : Level) (x : Line),
      (x.tx.inUse.loopback = true → x.transmitPinHigh inCharacter = !x.tx.inUse.inversion)
        ∧ (x.tx.inUse.loopback = false →
          (∀ c, x.tx.state = .sending c →
            (x.transmitPinHigh inCharacter = true ↔ (inCharacter = .marking ↔ x.tx.inUse.inversion = false)))
          ∧ (∀ d u, x.tx.state = .breaking d u → x.transmitPinHigh inCharacter = x.tx.inUse.inversion)
          ∧ ((∀ c, x.tx.state ≠ .sending c) → (∀ d u, x.tx.state ≠ .breaking d u) →
            x.transmitPinHigh inCharacter = !x.tx.inUse.inversion)))

/-- DRAINED (R135, R146): the taking of the entry that leaves the queue empty posts DRAINED at the port that the drain mark holds and
removes the mark; a taking that leaves entries keeps the mark and posts no DRAINED. Every taking is at a start point, and the end of a
character with no pacing, a pacing gap that has lasted and the end of a break's closing time reach one, where the flow slot is empty and no
pause is set; the entry may be a character or a break marker. The end of a character with pacing (R53): the transmitter goes to GAP for the
pacing gap in force, and takes nothing. The end of a break's spacing (R54): the closing character time follows, at the divisor and format in
force. -/
def Obligations.TheEndOfAWorkAtTheTransmitter : Prop :=
  (∀ (s : State) (l : LineId) (c : Instr) (e : Entry) (rest : List Entry),
    (s.line l).tx.flowSlot = none → (s.line l).tx.pause = false → (s.line l).tx.queue = e :: rest →
    DrainTold s (startPoint s l) l rest
      ∧ ((c = .pacingGapExpiry l ∧ ∃ d u, (s.line l).tx.state = .gap d u ∧ u.due = true)
          ∨ (c = .breakClosingEnd l ∧ (s.line l).tx.state = .closing)
          ∨ (c = .sendCharacterEnd l ∧ (∃ b, (s.line l).tx.state = .sending b) ∧ (s.line l).io.inForce.pacing = 0) →
        ∃ t, exec c s = .next t ∧ DrainTold s t l rest ∧ ∀ b, e = .character b →
          (rest ≠ [] ∨ (s.line l).tx.drainMark = none → t.ports = s.ports)
            ∧ (t.line l).cap = (s.line l).cap ∧ (t.line l).pool = (s.line l).pool))
    ∧ (∀ (s : State) (l : LineId),
      (∀ b, (s.line l).tx.state = .sending b → (s.line l).io.inForce.pacing ≠ 0 →
        ∃ t, exec (.sendCharacterEnd l) s = .next t ∧ t.ports = s.ports
          ∧ (t.line l).tx.state = .gap (s.line l).io.inForce.pacing.toNat { start := s.timebase, due := false }
          ∧ (t.line l).tx.queue = (s.line l).tx.queue ∧ (t.line l).tx.flowSlot = (s.line l).tx.flowSlot
          ∧ (t.line l).cap = (s.line l).cap ∧ (t.line l).pool = (s.line l).pool ∧ (t.line l).io = (s.line l).io)
        ∧ ∀ d u, (s.line l).tx.state = .breaking d u → u.due = true →
          ∃ t, exec (.breakDurationExpiry l) s = .next t ∧ t.ports = s.ports ∧ (t.line l).tx.state = .closing
            ∧ (t.line l).tx.inUse.divisor = (s.line l).io.inForce.divisor
            ∧ (t.line l).tx.inUse.format = (s.line l).io.inForce.format
            ∧ (t.line l).tx.queue = (s.line l).tx.queue ∧ (t.line l).tx.flowSlot = (s.line l).tx.flowSlot
            ∧ (t.line l).cap = (s.line l).cap ∧ (t.line l).pool = (s.line l).pool ∧ (t.line l).io = (s.line l).io)

/-! ## Received characters and the line condition -/

/-- The bits of a character on the line (R43, R46, R53): a start bit, the data bits least significant first, a parity bit when the format
has one, and the stop bits, each for sixteen times the divisor in reference clock periods; the parity bit after the data bits makes the
count of ones even with EVEN and odd with ODD, and the stop bits are marking; the receiver reads what the transmitter drives. The marks of a
received character (R46): FRAMING when the first stop bit is spacing, PARITY when the format has parity and the parity bit does not agree; a
character with a mark is errored, and one with all data bits zero and FRAMING is a break candidate. It is taken at the divisor and format it
started at (R44). The bits sampled are those that the event carries, but in loopback after a start edge in a break, whose bits are spacing,
and after a start edge that is the start bit of the character in SENDING, at the divisor and format of the receiver, whose bits are that
character's (R58); after a start edge later in the transmitter's character they are those that the event carries (log 5, the model's choice
of what is stepped). -/
def Obligations.CharactersHaveTheirBitsAndMarks : Prop :=
  (∀ (f : Format) (c : Byte) (d : Half),
    (frameBits f c).head? = some false ∧ characterTime d f = 16 * d.toNat * (frameBits f c).length
      ∧ (∀ i, i < (if f.sevenBits then 7 else 8) → (frameBits f c)[i + 1]? = some (c.getLsbD i))
      ∧ (frameBits f c).length
        = 1 + (if f.sevenBits then 7 else 8) + (if f.parity = .noParity then 0 else 1) + (if f.twoStops then 2 else 1)
      ∧ (f.parity ≠ .noParity → (frameBits f c)[1 + (if f.sevenBits then 7 else 8)]? = some (parityBit f c))
      ∧ (∀ i, 1 + (if f.sevenBits then 7 else 8) + (if f.parity = .noParity then 0 else 1) ≤ i → i < (frameBits f c).length →
        (frameBits f c)[i]? = some true)
      ∧ (let ones := ((List.range (if f.sevenBits then 7 else 8)).map c.getLsbD).count true + (parityBit f c).toNat
        (f.parity = .even → ones % 2 = 0) ∧ (f.parity = .odd → ones % 2 = 1))
      ∧ receivedCharacter f c (parityBit f c) true
        = { value := if f.sevenBits then c &&& 0x7F else c, framing := false, parity := false }
      ∧ (f.parity ≠ .noParity → (receivedCharacter f c (!parityBit f c) true).parity = true)
      ∧ (receivedCharacter f c (parityBit f c) false).framing = true)
    ∧ ((∀ (f : Format) (data : Byte) (parity stop : Bool),
      let r := receivedCharacter f data parity stop
      r.value = (if f.sevenBits then data &&& 0x7F else data)
        ∧ (r.framing = true ↔ stop = false)
        ∧ (r.parity = true ↔ f.parity ≠ .noParity ∧ parity ≠ parityBit f data)
        ∧ (r.errored = true ↔ r.framing = true ∨ r.parity = true)
        ∧ (r.candidate = true ↔ r.value = 0 ∧ r.framing = true)
        ∧ r.detail = BitVec.ofNat 8 (r.framing.toNat + 2 * r.parity.toNat))
      ∧ (∀ (x : Line) (d : Half) (f : Format) (k : Driven) (data : Byte) (parity stop : Bool) (r : Received),
        x.io.receiver = .inCharacter d f k → (x.completes data parity stop r ↔ r = k.sampled f data parity stop))
      ∧ (∀ (f : Format) (data : Byte) (parity stop : Bool),
        Driven.carried.sampled f data parity stop = receivedCharacter f data parity stop
          ∧ (∀ c, (Driven.character c).sampled f data parity stop
            = { value := if f.sevenBits then c &&& 0x7F else c, framing := false, parity := false })
          ∧ (Driven.spacing.sampled f data parity stop).candidate = true
          ∧ (Driven.spacing.sampled f data parity stop).value = 0)
      ∧ ∀ (x : Line) (data : Byte) (parity stop : Bool) (r : Received), x.io.receiver = .between →
        (x.seeLevel .spacing).completes data parity stop r →
        let f := x.io.inForce.format
        let agree := x.tx.inUse.divisor = x.rxDivisor ∧ x.tx.inUse.format = f
        (x.io.inForce.loopback = false → r = receivedCharacter f data parity stop)
          ∧ (∀ c, x.io.inForce.loopback = true → x.tx.state = .sending c → x.tx.inUse.edgeAhead = true → agree →
            r = { value := if f.sevenBits then c &&& 0x7F else c, framing := false, parity := false })
          ∧ (∀ c, x.io.inForce.loopback = true → x.tx.state = .sending c → ¬ (x.tx.inUse.edgeAhead = true ∧ agree) →
            r = receivedCharacter f data parity stop)
          ∧ (∀ n u, x.io.inForce.loopback = true → x.tx.state = .breaking n u → r.candidate = true ∧ r.value = 0))

/-- What becomes of a character that completes, by the condition state (R48, R49, R50, R55, R65, R72). OFF: no effect, and with no character
in progress there is none (R45, R57; log 3, the model's choice). BREAK: discarded. DOWN: discarded, and a break candidate stops the up
timer. In RUN without an error, with the flow option on XOFF sets the pause and XON ends it, and a strip character is discarded; a null that
null-pending suppresses is discarded. The receiver stands between characters, or waits for marking after a spacing stop bit. -/
def Obligations.CharactersThatAreNotStored : Prop :=
  ∀ (s : State) (l : LineId) (data : Byte) (parity stop : Bool),
    let c := Instr.characterComplete l data parity stop
    ((s.line l).cond.state = .off → exec c s = .next s)
      ∧ ((∀ d f k, (s.line l).io.receiver ≠ .inCharacter d f k) → exec c s = .next s)
      ∧ ∀ r, (s.line l).completes data parity stop r →
        let f := (s.line l).io.inForce
        let seen := s.modIo l fun x => { x with receiver := if r.framing then .waitMarking else .between }
        ((s.line l).cond.state = .brk → exec c s = .next seen)
          ∧ ((s.line l).cond.state = .down → r.candidate = true →
            exec c s = .next (seen.modCond l fun x => { x with upTimer := none }))
          ∧ ((s.line l).cond.state = .down → r.candidate = false → exec c s = .next seen)
          ∧ ((s.line l).cond.state = .run → r.errored = false → f.flow = true → r.value = 0x13 →
            exec c s = .next (seen.modTx l fun x => { x with pause := true, state := if x.state = .idle then .paused else x.state }))
          ∧ ((s.line l).cond.state = .run → r.errored = false → f.flow = true → r.value = 0x11 → (s.line l).tx.state ≠ .paused →
            exec c s = .next (seen.modTx l fun x => { x with pause := false }))
          ∧ ((s.line l).cond.state = .run → r.errored = false → f.flow = true → r.value = 0x11 → (s.line l).tx.state = .paused →
            ∃ t, exec c s = .next t ∧ (t.line l).tx.pause = false ∧ (t.line l).tx.state ≠ .paused
              ∧ (t.line l).cond = (s.line l).cond)
          ∧ ((s.line l).cond.state = .run → r.errored = false → ¬ (f.flow = true ∧ (r.value = 0x13 ∨ r.value = 0x11)) →
            f.stripPresent = true → r.value = f.strip → exec c s = .next seen)
          ∧ ((s.line l).cond.state = .run → r.errored = false → ¬ (f.flow = true ∧ (r.value = 0x13 ∨ r.value = 0x11)) →
            ¬ (f.stripPresent = true ∧ r.value = f.strip) → (s.line l).cond.nullPending = true → r.value = 0 →
            exec c s = .next (seen.modCond l fun x => { x with nullPending := false }))

/-- A break candidate in RUN (R67) takes the line to BREAK: BREAK START is written and latched, null-pending is cleared, and the score, the
down timer and the watch slots are not touched. An errored character in RUN that is no break candidate (R11, R65, R74, R75, R89): the open
record closes with ERROR, the character is written alone with its marks in the detail, every slot's progress is reset, and an errored entry
joins the score window; with auto-hunt on and the score at the threshold the line enters HUNT, and otherwise stays in RUN. -/
def Obligations.AnErroredCharacterIsABreakOrLoggedAlone : Prop :=
  (∀ (s : State) (l : LineId) (data : Byte) (parity stop : Bool) (r : Received), (s.line l).cond.state = .run →
    (s.line l).completes data parity stop r → r.candidate = true →
    ∃ t, exec (.characterComplete l data parity stop) s = .next t
      ∧ ({ s.line l with
            io := { (s.line l).io with receiver := .waitMarking }
            cond := { (s.line l).cond with state := .brk, nullPending := false } } : Line).RecordFrame (t.line l)
      ∧ LogsEvent s t l .breakStart [] ∧ LatchesEvent s t l .breakStart)
    ∧ (∀ (s : State) (l : LineId) (data : Byte) (parity stop : Bool) (r : Received), (s.line l).cond.state = .run →
      (s.line l).completes data parity stop r →
      let score := ((s.line l).cond.score ++ [true]).drop ((s.line l).cond.score.length + 1 - 16)
      r.errored = true → r.candidate = false →
      ∃ t, exec (.characterComplete l data parity stop) s = .next t
        ∧ (t.line l).io = { (s.line l).io with receiver := if r.framing then .waitMarking else .between }
        ∧ (t.line l).cond.nullPending = false ∧ (∀ i (h : i < 4), ((t.line l).watch[i]).progress = 0)
        ∧ (¬ ((s.line l).io.inForce.autoHunt = true ∧ (s.line l).io.inForce.threshold.toNat ≤ score.count true) →
          (t.line l).cond = { (s.line l).cond with score := score, nullPending := false }
            ∧ ((s.line l).roomy 13 →
              (t.line l).closed = (s.line l).closed ++ (s.line l).closing .error 0
                ++ [{ seq := (s.line l).cap.next, time := s.timebase, kind := .text, cause := 5, detail := r.detail, body := [r.value] }]
                ∧ (t.line l).cap.opened = none ∧ (t.line l).cap.next = nextSeq (s.line l).cap.next))
        ∧ ((s.line l).io.inForce.autoHunt = true → (s.line l).io.inForce.threshold.toNat ≤ score.count true →
          (t.line l).cond.state = .hunt ∧ (t.line l).cond.huntIndex = 0 ∧ (t.line l).cond.score = []
            ∧ (t.line l).cond.huntDiscard = 0 ∧ (t.line l).cond.patternProgress = 0 ∧ LatchesEvent s t l .huntStart))

/-- A stored character in RUN (R7, R8, R65, R74): with no record open it opens a TEXT record with the next sequence number and the time;
with one open it joins its body; the idle timer starts afresh, and a clean entry joins the score window. At its capacity, the smaller of the
maximum record length and the page room after its header, the record closes at once, with FULL when that is the maximum and with PAGE
otherwise. Stated with no watch slot enabled and auto-hunt off, for the character in progress (log 5). -/
def Obligations.AStoredCharacterOpensOrJoins : Prop :=
  ∀ (s : State) (l : LineId) (data : Byte) (parity stop : Bool) (r : Received),
    (s.line l).completes data parity stop r → (s.line l).stores r →
    let m := (s.line l).io.inForce.maxLength.toNat
    (s.line l).io.inForce.autoHunt = false →
    (∀ i (h : i < 4), ((s.line l).watch[i]).enabled = false) → (s.line l).roomy 0 → (s.line l).tx.queue = [] →
    ∃ t, exec (.characterComplete l data parity stop) s = .next t ∧ (t.line l).io.receiver = .between
      ∧ (t.line l).cond = { (s.line l).cond with
          nullPending := false
          score := ((s.line l).cond.score ++ [false]).drop ((s.line l).cond.score.length + 1 - 16) }
      ∧ (t.line l).watch = (s.line l).watch
      ∧ ((s.line l).cap.opened ≠ none ∨ 13 ≤ (s.line l).room → (t.line l).tx = (s.line l).tx
        ∧ (t.line l).att.list.map Attachment.standing = (s.line l).att.list.map Attachment.standing)
      ∧ (∀ o : OpenRecord,
        ((s.line l).cap.opened = none ∧ 13 ≤ (s.line l).room
            ∧ o = { seq := (s.line l).cap.next, time := s.timebase, body := [r.value], room := (s.line l).room - 12 })
          ∨ (∃ old, (s.line l).cap.opened = some old ∧ o = { old with body := old.body ++ [r.value] }) →
        (o.body.length < min m o.room →
          (t.line l).cap.opened = some o ∧ (t.line l).closed = (s.line l).closed
            ∧ (t.line l).cap.idleTimer = some { start := s.timebase, due := false })
          ∧ (min m o.room ≤ o.body.length →
            (t.line l).cap.opened = none ∧ (t.line l).cap.idleTimer = none
              ∧ (t.line l).closed = (s.line l).closed ++ [o.closed (if m ≤ o.room then .full else .page) 0]))
      ∧ ((s.line l).cap.opened = none → 13 ≤ (s.line l).room → (t.line l).cap.next = nextSeq (s.line l).cap.next)
      ∧ ((s.line l).cap.opened ≠ none → (t.line l).cap.next = (s.line l).cap.next)

/-- A character that completes in HUNT (R77, R78): it is counted, up to 65535, and discarded. An errored one moves the hunt to the next
candidate, from the last back to the first, with no progress. One without error moves the progress of the pattern, and the pattern's
completion locks: the divisor setting becomes the candidate's, the line enters RUN, RATE LOCKED is written with the divisor and the discard
count, and latched. The count stands after the lock until the next hunt (log 30, the model's reading). -/
def Obligations.AHuntMovesAndLocks : Prop :=
  ∀ (s : State) (l : LineId) (data : Byte) (parity stop : Bool) (r : Received), (s.line l).cond.state = .hunt →
    (s.line l).completes data parity stop r →
    let x := (s.line l).cond
    let n := min (x.huntDiscard + 1) 65535
    let d := (s.line l).rxDivisor
    ∃ t, exec (.characterComplete l data parity stop) s = .next t
      ∧ (r.errored = true → t = s.modLine l fun y =>
        { y with
          io := { y.io with receiver := if r.framing then .waitMarking else .between }
          cond := { y.cond with
            huntDiscard := n, patternProgress := 0
            huntIndex := (x.huntIndex + 1) % (s.line l).io.inForce.huntList.length } })
      ∧ (∀ a, r.errored = false → (s.line l).io.inForce.huntPattern = [a] → r.value ≠ a →
        (t.line l).cond = { x with huntDiscard := n, patternProgress := 0 } ∧ t.ports = s.ports)
      ∧ (∀ a b, r.errored = false → (s.line l).io.inForce.huntPattern = [a, b] → ¬ (x.patternProgress = 1 ∧ r.value = b) →
        (t.line l).cond = { x with huntDiscard := n, patternProgress := if r.value = a then 1 else 0 } ∧ t.ports = s.ports)
      ∧ (r.errored = false →
        ((s.line l).io.inForce.huntPattern = [r.value]
          ∨ (x.patternProgress = 1 ∧ ∃ a, (s.line l).io.inForce.huntPattern = [a, r.value])) →
        (t.line l).cond = { x with huntDiscard := n, state := .run, patternProgress := 0 }
          ∧ (t.line l).io.settings = { (s.line l).io.settings with divisor := d }
          ∧ (t.line l).io.inForce = { (s.line l).io.inForce with divisor := d }
          ∧ LogsEvent s t l .rateLocked
            [BitVec.ofNat 8 d.toNat, BitVec.ofNat 8 (d.toNat / 256), BitVec.ofNat 8 n, BitVec.ofNat 8 (n / 256)]
          ∧ LatchesEvent s t l .rateLocked)

/-- A report of the receive level (R45, R47, R68, R70, R72). Outside loopback the pin stands at the level named, after inversion, and the
report is taken. In loopback it is taken when it is a change to the level that the transmitter drives, marking, a break's spacing, or either
inside a character, and the pin stays (R58); any other report in loopback, and every report on a line that is off, tells a change of the pin
alone (log 5, the model's choice). A report taken is the receive level: spacing between characters is a start edge at the divisor and format
in force (log 32, the model's reading), and marking ends the wait for it, and the claim of a break's spacing on a character in progress.
With a report taken no start bit is ahead of the receiver any more (log 5). Marking stops the down timer; in BREAK it takes the line to RUN
with BREAK END written and latched, and null-pending set when break-null suppression is on; in DOWN it starts a stopped up timer. Spacing in
RUN, BREAK and HUNT starts a stopped down timer (a running one is kept: log 20, the model's choice), and in DOWN stops nothing. FALSE START
drops the start edge; with none taken it has no effect (log 3, the model's choice). -/
def Obligations.LevelReportsMoveTheCondition : Prop :=
  (∀ (s : State) (l : LineId) (level : Level),
    let x := s.line l
    let driven := match x.tx.state with
      | .sending _ => true
      | .breaking _ _ => decide (level = .spacing)
      | .idle | .gap _ _ | .closing | .paused => decide (level = .marking)
    let known : Driven := if x.io.inForce.loopback = false then .carried else match x.tx.state with
      | .sending c =>
        if x.tx.inUse.edgeAhead = true ∧ x.tx.inUse.divisor = x.rxDivisor ∧ x.tx.inUse.format = x.io.inForce.format then
          .character c
        else .carried
      | .breaking _ _ => .spacing
      | .idle | .gap _ _ | .closing | .paused => .carried
    let reported := x.cond.state ≠ .off ∧ (x.io.inForce.loopback = false ∨ (level ≠ x.io.level ∧ driven = true))
    ∃ t, exec (.receiveLevelReport l level) s = .next t
    ∧ (x.io.inForce.loopback = true ∧ reported → (t.line l).io.pinHigh = x.io.pinHigh)
    ∧ (x.io.inForce.loopback = false ∨ ¬ reported →
      ((t.line l).io.pinHigh = true ↔ (level = .marking ↔ x.io.inForce.inversion = false)))
    ∧ (t.line l).io.inForce = x.io.inForce ∧ (t.line l).io.settings = x.io.settings
    ∧ (t.line l).watch = x.watch ∧ (t.line l).tx.queue = x.tx.queue
    ∧ (¬ reported → t = s.modIo l fun y => { y with pinHigh := (t.line l).io.pinHigh })
    ∧ (reported → (t.line l).io.level = level
      ∧ (t.line l).io.receiver = (match level, x.io.receiver with
        | .spacing, .between => .inCharacter x.rxDivisor x.io.inForce.format known
        | .marking, .waitMarking => .between
        | .marking, .inCharacter d f .spacing => .inCharacter d f .carried
        | _, r => r)
      ∧ (¬ (level = .marking ∧ x.cond.state = .brk) →
        (t.line l).tx = { x.tx with inUse := { x.tx.inUse with edgeAhead := false } })
      ∧ (level = .marking → (x.cond.state = .run ∨ x.cond.state = .hunt) →
        (t.line l).cond = { x.cond with downTimer := none } ∧ (t.line l).cap = x.cap)
      ∧ (level = .marking → x.cond.state = .brk →
        (t.line l).cond = { x.cond with state := .run, downTimer := none, nullPending := x.io.inForce.breakNull }
          ∧ LogsEvent s t l .breakEnd [] ∧ LatchesEvent s t l .breakEnd)
      ∧ (level = .marking → x.cond.state = .down →
        (t.line l).cond = { x.cond with
            downTimer := none, upTimer := some (x.cond.upTimer.getD { start := s.timebase, due := false }) }
          ∧ (t.line l).cap = x.cap)
      ∧ (level = .spacing → (x.cond.state = .run ∨ x.cond.state = .brk ∨ x.cond.state = .hunt) →
        (t.line l).cond = { x.cond with
            downTimer := some (x.cond.downTimer.getD { start := s.timebase, due := false }) }
          ∧ (t.line l).cap = x.cap)
      ∧ (level = .spacing → x.cond.state = .down → (t.line l).cond = x.cond ∧ (t.line l).cap = x.cap)))
    ∧ ∀ (s : State) (l : LineId), ∃ t, exec (.falseStart l) s = .next t
      ∧ (∀ d f k, (s.line l).io.receiver = .inCharacter d f k → (t.line l).io.receiver = .between)
      ∧ ((∀ d f k, (s.line l).io.receiver ≠ .inCharacter d f k) → t = s)
      ∧ t.line l = { s.line l with io := { (s.line l).io with receiver := (t.line l).io.receiver } } ∧ t.ports = s.ports

/-- The expiries of the line's timers, where they stand. IDLE: the open record closes with IDLE (R9). DOWN: the line enters DOWN with LINE
DOWN written and latched, a hunt ends unreported, null-pending and the up timer are cleared, and the pause ends (R71). UP: LINE UP is
written and latched, and the line enters RUN, or HUNT when auto-hunt is on or hunt-on-up is set, with HUNT START after it in one group (R72,
R76); with the level spacing the down timer starts. -/
def Obligations.TimerExpiriesMoveTheLine : Prop :=
  (∀ (s : State) (l : LineId) (o : OpenRecord), timerDue (s.line l).cap.idleTimer = true → (s.line l).cap.opened = some o →
    ∃ t, exec (.idleTimerExpiry l) s = .next t ∧ (t.line l).cap.opened = none
      ∧ (t.line l).io = (s.line l).io ∧ (t.line l).cond = (s.line l).cond ∧ (t.line l).watch = (s.line l).watch
      ∧ ((s.line l).roomy 0 → (t.line l).closed = (s.line l).closed ++ [o.closed .idle 0]
        ∧ (t.line l).cap.next = (s.line l).cap.next ∧ (t.line l).cap.idleTimer = none ∧ (t.line l).tx = (s.line l).tx))
    ∧ (∀ (s : State) (l : LineId), timerDue (s.line l).cond.downTimer = true →
      ∃ t, exec (.downTimerExpiry l) s = .next t
        ∧ (t.line l).cond = { (s.line l).cond with
            state := .down, downTimer := none, upTimer := none, patternProgress := 0, huntDiscard := 0, nullPending := false }
        ∧ (t.line l).tx.pause = false ∧ LatchesEvent s t l .lineDown
        ∧ ((s.line l).tx.state ≠ .paused → (t.line l).tx.queue = (s.line l).tx.queue ∧ LogsEvent s t l .lineDown [])
        ∧ (t.line l).io = (s.line l).io ∧ (t.line l).watch = (s.line l).watch)
    ∧ ∀ (s : State) (l : LineId), timerDue (s.line l).cond.upTimer = true →
      let hunts := (s.line l).io.inForce.autoHunt = true ∨ (s.line l).cond.huntOnUp = true
      ∃ t, exec (.upTimerExpiry l) s = .next t
        ∧ (t.line l).cond.upTimer = none ∧ (t.line l).cond.huntOnUp = false
        ∧ (t.line l).cond.downTimer
          = (if (s.line l).io.level = .spacing then some { start := s.timebase, due := false } else none)
        ∧ (¬ hunts → (t.line l).cond.state = .run ∧ LatchesEvent s t l .lineUp ∧ LogsEvent s t l .lineUp []
          ∧ (t.line l).watch = (s.line l).watch ∧ (t.line l).cond.score = (s.line l).cond.score)
        ∧ (hunts → (t.line l).cond.state = .hunt ∧ (t.line l).cond.huntIndex = 0 ∧ (t.line l).cond.score = []
          ∧ (t.line l).latches = (s.line l).latches.map (fun x => x ||| (0x18 : BitVec 7))
          ∧ ((s.line l).roomy 24 →
            (t.line l).closed = (s.line l).closed ++ (s.line l).closing .event 0 ++ [eventRecord s l .lineUp []]
              ++ [{ eventRecord s l .huntStart [] with seq := nextSeq (s.line l).cap.next }]))
        ∧ (t.line l).io = (s.line l).io ∧ (t.line l).tx.queue = (s.line l).tx.queue

/-- ENTER HUNT (R76, R80): NO CONTROL without the control right, LINE OFF on a line that is off; in DOWN it sets hunt-on-up and nothing
else; otherwise the line hunts from candidate 0 with HUNT START written and latched, the score window emptied and the watch progress reset.
RESET LINE (R81, R136, R144): the same two refusals; otherwise the queue and the flow slot are emptied, the drain mark removed and the pause
ended; a break received or a hunt ends in RUN, and DOWN stays; the score window, the progress, null-pending and hunt-on-up are cleared and
the watch progress reset; LINE RESET is written with the port and latched. The log, the quota and the attachments stay. With no hold the
rest is stated whole. A line in SPENT enters NONE; a line that was HELD enters NONE with an XON after the emptying and HOLD END directly
after LINE RESET (R159), stated where the page has room (where it has not, the evaluation that follows comes after HOLD END: log 33, the
model's choice). Where a freeze count reaches 0 at the close, at LINE RESET or at HOLD END, FROZEN follows the three (R18, R36; log 33, the
model's choice). -/
def Obligations.EnterHuntAndResetLine : Prop :=
  (∀ (s : State) (p : PortId) (l : LineId), s.calls p l →
    ((s.line l).hasControl p = false → exec (.enterHunt p) s = .next (s.answer p false { code := .noControl }))
      ∧ ((s.line l).hasControl p = true → (s.line l).cond.state = .off →
        exec (.enterHunt p) s = .next (s.answer p false { code := .lineOff }))
      ∧ ((s.line l).hasControl p = true → (s.line l).cond.state = .down →
        exec (.enterHunt p) s = .next ((s.modCond l fun x => { x with huntOnUp := true }).answer p false {}))
      ∧ ((s.line l).hasControl p = true → (s.line l).cond.state ≠ .off → (s.line l).cond.state ≠ .down →
        ∃ t, exec (.enterHunt p) s = .next t ∧ Answered s t p {}
          ∧ ({ s.line l with
                watch := (s.line l).watch.map fun w => { w with progress := 0 }
                cond := { (s.line l).cond with
                  state := .hunt, huntIndex := 0, patternProgress := 0, huntDiscard := 0, score := [], nullPending := false } }
              : Line).RecordFrame (t.line l)
          ∧ LogsEvent s t l .huntStart [] ∧ LatchesEvent s t l .huntStart))
    ∧ (∀ (s : State) (p : PortId) (l : LineId), s.calls p l →
      ((s.line l).hasControl p = false → exec (.resetLine p) s = .next (s.answer p false { code := .noControl }))
        ∧ ((s.line l).hasControl p = true → (s.line l).cond.state = .off →
          exec (.resetLine p) s = .next (s.answer p false { code := .lineOff }))
        ∧ ((s.line l).hasControl p = true → (s.line l).cond.state ≠ .off → (s.line l).noHold →
          ∃ t, exec (.resetLine p) s = .next t ∧ Answered s t p {}
            ∧ (t.line l).tx.queue = [] ∧ (t.line l).tx.flowSlot = none ∧ (t.line l).tx.pause = false
            ∧ (t.line l).tx.drainMark = none ∧ (t.line l).tx.waiting = (s.line l).tx.waiting
            ∧ (∀ c, (s.line l).tx.state = .sending c → (t.line l).tx.state = .sending c)
            ∧ (∀ d u, (s.line l).tx.state = .breaking d u → (t.line l).tx.state = .closing)
            ∧ (∀ d u, (s.line l).tx.state = .gap d u → (t.line l).tx.state = .idle)
            ∧ ((s.line l).tx.state = .paused → (t.line l).tx.state = .idle)
            ∧ (t.line l).cond = { (s.line l).cond with
                state := if (s.line l).cond.state = .down then .down else .run
                huntDiscard := if (s.line l).cond.state = .hunt then 0 else (s.line l).cond.huntDiscard
                score := [], patternProgress := 0, nullPending := false, huntOnUp := false }
            ∧ (t.line l).watch = (s.line l).watch.map (fun w => { w with progress := 0 })
            ∧ LogsEvent s t l .lineReset [BitVec.ofNat 8 p.val] ∧ LatchesEvent s t l .lineReset
            ∧ (t.line l).io = (s.line l).io
            ∧ (t.line l).att.list.map Attachment.standing = (s.line l).att.list.map Attachment.standing)
        ∧ ((s.line l).hasControl p = true → (s.line l).cond.state ≠ .off → (s.line l).hold.state ≠ .none →
          (s.line l).roomy 25 →
          ∃ t, exec (.resetLine p) s = .next t ∧ Answered s t p {}
            ∧ (t.line l).hold.state = .none ∧ (t.line l).hold.timer = none ∧ (t.line l).tx.queue = []
            ∧ (let reset := (s.line l).closed ++ (s.line l).closing .event 0 ++ [eventRecord s l .lineReset [BitVec.ofNat 8 p.val]]
              ((s.line l).hold.state = .spent → (t.line l).closed = reset ∧ (t.line l).tx.flowSlot = none)
                ∧ ((s.line l).hold.state = .held →
                  (t.line l).closed = reset ++ [{ eventRecord s l .holdEnd [] with seq := nextSeq (s.line l).cap.next }]
                    ∧ (((s.line l).tx.state = .idle ∨ (s.line l).tx.state = .paused ∨ ∃ d u, (s.line l).tx.state = .gap d u) →
                      (t.line l).tx.state = .sending 0x11 ∧ (t.line l).tx.flowSlot = none)
                    ∧ (((∃ c, (s.line l).tx.state = .sending c) ∨ (∃ d u, (s.line l).tx.state = .breaking d u)
                        ∨ (s.line l).tx.state = .closing) → (t.line l).tx.flowSlot = some .xon))))
        ∧ ((s.line l).hasControl p = true → (s.line l).cond.state ≠ .off → (s.line l).hold.state = .held →
          (s.line l).pool.pages ≠ [] → 37 ≤ (s.line l).room → (s.line l).pool.frozenDue = false → (s.line l).hold.evalDue = false →
          ∀ k, (s.line l).pool.freezePending = some k → 1 ≤ k → k ≤ 2 + ((s.line l).closing .event 0).length →
          ∃ t, exec (.resetLine p) s = .next t ∧ Answered s t p {} ∧ (t.line l).pool.frozen = true ∧ (t.line l).hold.state = .none
            ∧ (t.line l).closed = (s.line l).closed ++ (s.line l).closing .event 0
              ++ [eventRecord s l .lineReset [BitVec.ofNat 8 p.val],
                { eventRecord s l .holdEnd [] with seq := nextSeq (s.line l).cap.next },
                { eventRecord s l .frozen [] with seq := nextSeq (nextSeq (s.line l).cap.next) }]))

/-! ## Settings and watch slots -/

/-- SET LINE taken (R61): NO CONTROL without the control right, and otherwise a data phase of 34 bytes. At its last byte a record out of
range is BAD ARGUMENT, and the control right is checked again. A record applied (R62) replaces the settings and restarts or stops the lease
(R111). On a line that stays on every setting is in force, a hunt or a change of divisor or format writes FORMAT SET and empties the score
(R74, R79, R89), and a maximum at or below the open record's length closes it with FULL (R10); stated with loopback and inversion as they
were, no hold and no pause. A line turned on enters RUN with LINE ON and FORMAT SET in one group (R60). A line turned off stops: the queue
and the flow slot are emptied, the timers stopped, a waiting SEND ended with LINE OFF, and LINE OFF written (R59); its divisor and format in
force stay as they were until it is turned on. A line that stays off takes the lease, the hold timeout, the inversion and a flow option
turned off. Turning the flow option off (R55, R158) ends a HELD line's hold with XON and HOLD END, the first record of the command, and a
SPENT one's with neither; the lossless flags are cleared and the pause ends, a PAUSED transmitter reaching a start point. That HOLD END is
no group with a later record is the model's choice (log 33). A change of loopback, or of inversion outside loopback, restarts the receiver
at the new level and reports it (R57, R58, R68, R70, R72), and so does LINE ON (R60, R66); the transmit level inside a character is a free
value (log 13), and its start bit is behind the receiver (log 5). The evaluation of a page of FORMAT SET comes before the report (log 40,
the model's choice). A running timer keeps its start under a new duration (R9, R73, R111, R156), and an expiry not yet taken stands on only
where the new duration has been reached (log 29, the model's reading). What a line that is off holds in force is the model's reading (log
11). -/
def Obligations.SetLineReplacesTheSettings : Prop :=
  (∀ (s : State) (p : PortId) (l : LineId), s.calls p l →
    ((s.line l).hasControl p = false → exec (.setLine p) s = .next (s.answer p false { code := .noControl }))
      ∧ ((s.line l).hasControl p = true → ∃ t, exec (.setLine p) s = .next t ∧ t.lines = s.lines
        ∧ (t.port p).phase = .writing (.setLine l) ∧ (t.port p).transferLength = 34 ∧ (t.port p).buffer = []
        ∧ (t.port p).dataReady = true ∧ (t.port p).error = .none ∧ (t.port p).causes = (s.port p).causes))
    ∧ (∀ (s : State) (p : PortId) (l : LineId) (b : Byte), (s.port p).resetAsserted = false →
      (s.port p).phase = .writing (.setLine l) → (s.port p).buffer.length + 1 = (s.port p).transferLength →
      (settingsOf ((s.port p).buffer ++ [b]) = none → ∃ t, exec (.dataWrite p b) s = .next t ∧ t.lines = s.lines
        ∧ (t.port p).phase = .completing { code := .badArgument })
      ∧ ∀ new, settingsOf ((s.port p).buffer ++ [b]) = some new →
        ((s.line l).hasControl p = false → ∃ t, exec (.dataWrite p b) s = .next t ∧ t.lines = s.lines
          ∧ (t.port p).phase = .completing { code := .noControl })
        ∧ ((s.line l).hasControl p = true →
          let x := s.line l
          let old := x.io.inForce
          let argument := [BitVec.ofNat 8 new.divisor.toNat, BitVec.ofNat 8 (new.divisor.toNat / 256), new.format.code]
          ∃ t, exec (.dataWrite p b) s = .next t ∧ (t.port p).phase = .completing {} ∧ (t.line l).io.settings = new
            ∧ (new.lease = 0 → (t.line l).att.leaseTimer = none)
            ∧ (old.lease = 0 → new.lease ≠ 0 → (t.line l).att.leaseTimer
              = (if x.writer.isSome = true then some { start := s.timebase, due := false } else none))
            ∧ (x.cond.state ≠ .off → new.enable = true → (t.line l).io.inForce = new
              ∧ (x.hold.state = .none → x.tx.state ≠ .paused → old.loopback = new.loopback → old.inversion = new.inversion →
                (t.line l).cond.state = (if x.cond.state = .hunt then .run else x.cond.state)
                  ∧ (x.cond.state = .hunt ∨ old.divisor ≠ new.divisor ∨ old.format ≠ new.format →
                    (t.line l).cond.score = [] ∧ (t.line l).watch = x.watch.map (fun w => { w with progress := 0 })
                      ∧ LogsEvent s t l .formatSet argument)
                  ∧ (x.cond.state ≠ .hunt → old.divisor = new.divisor → old.format = new.format → x.roomy 0 →
                    (t.line l).cond.score = x.cond.score ∧ (t.line l).watch = x.watch ∧ (t.line l).cap.next = x.cap.next
                      ∧ (∀ o, x.cap.opened = some o → new.maxLength.toNat ≤ o.body.length →
                        (t.line l).closed = x.closed ++ [o.closed .full 0])
                      ∧ (∀ o, x.cap.opened = some o → o.body.length < new.maxLength.toNat →
                        (t.line l).cap.opened = some o ∧ (t.line l).closed = x.closed))))
            ∧ (x.cond.state = .off → new.enable = true → (t.line l).io.inForce = new ∧ (t.line l).cond.state = .run
              ∧ (t.line l).cond.score = [] ∧ (t.line l).watch = x.watch.map (fun w => { w with progress := 0 })
              ∧ (x.hold.state = .none → x.tx.state ≠ .paused → x.roomy 27 →
                (t.line l).tx.state = .idle ∧ (t.line l).tx.pause = false
                  ∧ (t.line l).closed = x.closed ++ x.closing .event 0 ++ [eventRecord s l .lineOn []]
                    ++ [{ eventRecord s l .formatSet argument with seq := nextSeq x.cap.next }]))
            ∧ (x.cond.state ≠ .off → new.enable = false →
              (t.line l).io.inForce = { new with divisor := old.divisor, format := old.format }
                ∧ (t.line l).cond = { x.cond with
                    state := .off, downTimer := none, upTimer := none, patternProgress := 0, huntDiscard := 0
                    nullPending := false, huntOnUp := false }
                ∧ (t.line l).tx.queue = [] ∧ (t.line l).tx.flowSlot = none ∧ (t.line l).tx.state = .idle
                ∧ (t.line l).tx.pause = false ∧ (t.line l).tx.drainMark = none ∧ (t.line l).tx.waiting = none
                ∧ (x.hold.state = .none → x.tx.state ≠ .paused → LogsEvent s t l .lineOff [])
                ∧ ∀ q r, x.tx.waiting = some (.send q r) → q ≠ p →
                  (t.port q).idle = true ∧ (t.port q).error = .lineOff ∧ (t.port q).count = BitVec.ofNat 16 (min r.length 65535))
            ∧ (x.cond.state = .off → new.enable = false →
              (t.line l).io.inForce
                  = { old with
                      lease := new.lease, holdTimeout := new.holdTimeout, inversion := new.inversion
                      flow := old.flow && new.flow }
                ∧ (t.line l).cond = x.cond
                ∧ (x.hold.state = .none → x.tx.state ≠ .paused → (t.line l).cap = x.cap ∧ (t.line l).pool = x.pool))))
    ∧ (∀ (s : State) (p : PortId) (l : LineId) (b : Byte) (new : Settings), s.endsSetLine p l b new →
      (s.line l).io.settings.flow = true → new.flow = false →
      let x := s.line l
      let old := x.io.inForce
      let formats := x.cond.state = .hunt ∨ old.divisor ≠ new.divisor ∨ old.format ≠ new.format
      let waits := x.tx.state = .idle ∨ x.tx.state = .paused
      let ended := x.closed ++ x.closing .event 0 ++ [eventRecord s l .holdEnd []]
      ∃ t, exec (.dataWrite p b) s = .next t ∧ (t.line l).tx.pause = false ∧ (∀ a ∈ (t.line l).att.list, a.lossless = false)
        ∧ (t.line l).hold.state = .none ∧ (x.hold.state ≠ .none → (t.line l).hold.timer = none)
        ∧ (x.cond.state ≠ .off → new.enable = false → x.hold.state = .held → x.roomy 24 →
          (t.line l).closed = ended ++ [{ eventRecord s l .lineOff [] with seq := nextSeq x.cap.next }])
        ∧ (x.cond.state ≠ .off → new.enable = true →
          (x.hold.state = .held →
            (waits → (t.line l).tx.state = .sending 0x11 ∧ (t.line l).tx.flowSlot = none)
              ∧ (¬ waits → (t.line l).tx.state = x.tx.state ∧ (t.line l).tx.flowSlot = some .xon)
              ∧ (t.line l).tx.queue = x.tx.queue
              ∧ (old.loopback = new.loopback → old.inversion = new.inversion → x.roomy 27 →
                (t.line l).closed = ended ++ (if formats then
                  [{ eventRecord s l .formatSet
                      [BitVec.ofNat 8 new.divisor.toNat, BitVec.ofNat 8 (new.divisor.toNat / 256), new.format.code] with
                      seq := nextSeq x.cap.next }] else [])))
            ∧ (x.hold.state = .spent → ¬ formats → old.loopback = new.loopback → old.inversion = new.inversion → ¬ waits → x.roomy 0 →
              (t.line l).cap.next = x.cap.next)
            ∧ (x.hold.state ≠ .held → x.tx.state ≠ .paused →
              (t.line l).tx.state = x.tx.state ∧ (t.line l).tx.flowSlot = x.tx.flowSlot ∧ (t.line l).tx.queue = x.tx.queue)
            ∧ (x.hold.state ≠ .held → x.tx.state = .paused → x.tx.flowSlot = none →
              (x.tx.queue = [] → (t.line l).tx.state = .idle ∧ (t.line l).tx.queue = [])
                ∧ (∀ c rest, x.tx.queue = .character c :: rest → (t.line l).tx.state = .sending c ∧ (t.line l).tx.queue = rest)
                ∧ ∀ d q rest, x.tx.queue = .marker d q :: rest →
                  (t.line l).tx.state = .breaking d { start := s.timebase, due := false } ∧ (t.line l).tx.queue = rest)))
    ∧ ((∀ (s : State) (p : PortId) (l : LineId) (b : Byte) (new : Settings), s.endsSetLine p l b new →
      let x := s.line l
      let old := x.io.inForce
      let fresh : Timer := { start := s.timebase, due := false }
      let changed := old.loopback ≠ new.loopback ∨ (new.loopback = false ∧ old.inversion ≠ new.inversion)
      let level := if new.loopback then x.tx.state.level (freeLevel s.freeIndex)
        else if x.io.pinHigh = new.inversion then .spacing else .marking
      x.cond.state ≠ .off → new.enable = true → x.hold.state = .none → x.tx.state ≠ .paused →
      (new.loopback = true → x.roomy 15 ∨ new.flow = false) →
      ∃ t, exec (.dataWrite p b) s = .next t ∧ (t.line l).io.pinHigh = x.io.pinHigh
        ∧ (¬ changed → (t.line l).io.level = x.io.level ∧ (t.line l).io.receiver = x.io.receiver)
        ∧ (changed → (t.line l).io.level = level
          ∧ (t.line l).io.receiver = (if level = .marking then .between else .waitMarking)
          ∧ (x.cond.state ≠ .brk → (t.line l).tx.inUse.edgeAhead = false)
          ∧ (level = .spacing →
            (t.line l).cond.state = (if x.cond.state = .hunt then .run else x.cond.state)
              ∧ (x.cond.state ≠ .down → x.cond.downTimer = none → (t.line l).cond.downTimer = some fresh))
          ∧ (level = .marking → (t.line l).cond.downTimer = none
            ∧ (x.cond.state = .run ∨ x.cond.state = .hunt → (t.line l).cond.state = .run)
            ∧ (x.cond.state = .down → (t.line l).cond.state = .down
              ∧ (x.cond.upTimer = none → (t.line l).cond.upTimer = some fresh))
            ∧ (x.cond.state = .brk → (t.line l).cond.state = .run ∧ (t.line l).cond.nullPending = new.breakNull
              ∧ LatchesEvent s t l .breakEnd
              ∧ (x.cap.opened = none → old.divisor = new.divisor → old.format = new.format → LogsEvent s t l .breakEnd [])))))
      ∧ ∀ (s : State) (p : PortId) (l : LineId) (b : Byte) (new : Settings), s.endsSetLine p l b new →
        let x := s.line l
        let level : Level := if new.loopback then .marking else if x.io.pinHigh = new.inversion then .spacing else .marking
        x.cond.state = .off → new.enable = true → (new.loopback = true → new.flow = false ∧ x.hold.state = .none) →
        ∃ t, exec (.dataWrite p b) s = .next t ∧ (t.line l).io.level = level
          ∧ (t.line l).io.receiver = (if level = .marking then .between else .waitMarking)
          ∧ (level = .marking → (t.line l).cond.downTimer = none)
          ∧ (level = .spacing → x.cond.downTimer = none → (t.line l).cond.downTimer = some { start := s.timebase, due := false }))
    ∧ (∀ (s : State) (p : PortId) (l : LineId) (b : Byte) (new : Settings), s.endsSetLine p l b new →
      let x := s.line l
      let old := x.io.inForce
      let kept := fun (d : Nat) (u : Timer) => { u with due := u.due && decide (d ≤ (s.timebase - u.start).toNat) }
      ∃ t, exec (.dataWrite p b) s = .next t
        ∧ (old.lease ≠ 0 → new.lease ≠ 0 → (t.line l).att.leaseTimer = x.att.leaseTimer.map (kept (1000 * new.lease.toNat)))
        ∧ (x.io.settings.flow = false ∨ new.flow = true →
          (x.cond.state = .off → new.enable = false →
            (t.line l).hold.timer = x.hold.timer.map (kept new.holdTimeout.toNat))
          ∧ (x.cond.state ≠ .off → new.enable = true → x.cond.state ≠ .hunt → old.divisor = new.divisor → old.format = new.format →
            old.loopback = new.loopback → old.inversion = new.inversion → x.roomy 0 →
            (t.line l).hold.state = x.hold.state ∧ (t.line l).hold.timer = x.hold.timer.map (kept new.holdTimeout.toNat)
              ∧ (t.line l).cond.downTimer = x.cond.downTimer.map (kept new.downTime.toNat)
              ∧ (t.line l).cond.upTimer = x.cond.upTimer.map (kept new.upTime.toNat)
              ∧ (∀ o, x.cap.opened = some o → o.body.length < new.maxLength.toNat →
                (t.line l).cap.idleTimer = x.cap.idleTimer.map (kept new.idleGap.toNat)))))

/-- The settings record (R42, R183): every setting in its range is encoded in 34 bytes, each field at its place, that SET LINE reads back as
the same settings; a record that SET LINE takes has every setting in its range; and the ranges are those of R42. -/
def Obligations.TheSettingsRecordIsReadBack : Prop :=
  (∀ x : Settings, x.inRange = true → x.encode.length = 34 ∧ settingsOf x.encode = some x)
    ∧ (∀ (bs : List Byte) (x : Settings), settingsOf bs = some x → x.inRange = true)
    ∧ Settings.atReset.inRange = true
    ∧ (∀ x : Settings, x.inRange = true →
      let flags := x.encode.getD 0 0
      let format := x.encode.getD 3 0
      let half := fun i => natLE ((x.encode.drop i).take 2)
      (flags.getLsbD 0 = x.enable ∧ flags.getLsbD 1 = x.flow ∧ flags.getLsbD 2 = x.logSent ∧ flags.getLsbD 3 = x.breakNull
        ∧ flags.getLsbD 4 = x.autoHunt ∧ flags.getLsbD 5 = x.inversion ∧ flags.getLsbD 6 = x.loopback
        ∧ flags.getLsbD 7 = x.stripPresent)
        ∧ (format.toNat % 4 = (match x.format.parity with | .noParity => 0 | .even => 1 | .odd => 2)
          ∧ format.getLsbD 2 = x.format.sevenBits ∧ format.getLsbD 3 = x.format.twoStops ∧ format.toNat < 16)
        ∧ half 1 = x.divisor.toNat ∧ x.encode.getD 4 0 = x.strip ∧ x.encode.getD 5 0 = x.maxLength ∧ half 6 = x.idleGap.toNat
        ∧ x.encode.getD 8 0 = x.pacing ∧ x.encode.getD 9 0 = x.threshold ∧ half 10 = x.downTime.toNat ∧ half 12 = x.upTime.toNat
        ∧ (x.encode.getD 14 0).toNat = x.huntList.length ∧ (x.encode.getD 15 0).toNat = x.huntPattern.length
        ∧ (∀ i, i < 6 → half (16 + 2 * i) = (x.huntList.getD i 0).toNat)
        ∧ (∀ i, i < 2 → x.encode.getD (28 + i) 0 = x.huntPattern.getD i 0)
        ∧ half 30 = x.lease.toNat ∧ half 32 = x.holdTimeout.toNat)
    ∧ (∀ b : Byte, formatOf b = none ↔ 16 ≤ b.toNat ∨ b.toNat % 4 = 3)
    ∧ ∀ x : Settings, x.inRange = true ↔
      1 ≤ x.divisor.toNat ∧ (1 ≤ x.idleGap.toNat ∧ x.idleGap.toNat ≤ 1000)
        ∧ (1 ≤ x.maxLength.toNat ∧ x.maxLength.toNat ≤ 236) ∧ 100 ≤ x.downTime.toNat
        ∧ (10 ≤ x.upTime.toNat ∧ x.upTime.toNat ≤ 10000) ∧ (1 ≤ x.threshold.toNat ∧ x.threshold.toNat ≤ 16)
        ∧ (1 ≤ x.huntList.length ∧ x.huntList.length ≤ 6) ∧ (∀ d ∈ x.huntList, 1 ≤ d.toNat)
        ∧ (1 ≤ x.huntPattern.length ∧ x.huntPattern.length ≤ 2) ∧ x.lease.toNat ≤ 3600
        ∧ (100 ≤ x.holdTimeout.toNat ∧ x.holdTimeout.toNat ≤ 60000)

/-- SET WATCH (R85, R86): NO CONTROL without the control right, OPTION above 3 BAD ARGUMENT, and otherwise a data phase of 32 bytes. At its
last byte a record that R85 refuses is BAD ARGUMENT, and the control right is checked again; a record applied replaces the slot, with
progress 0, and changes nothing else of the line. The record's fields are those of R183. -/
def Obligations.SetWatchReplacesTheSlot : Prop :=
  (∀ (s : State) (p : PortId) (l : LineId), s.calls p l →
    ((s.line l).hasControl p = false → exec (.setWatch p) s = .next (s.answer p false { code := .noControl }))
      ∧ ((s.line l).hasControl p = true → 3 < (s.port p).option.toNat →
        exec (.setWatch p) s = .next (s.answer p false { code := .badArgument }))
      ∧ ∀ i : Fin 4, (s.line l).hasControl p = true → (s.port p).option.toNat = i.val →
        ∃ t, exec (.setWatch p) s = .next t ∧ t.lines = s.lines ∧ (t.port p).phase = .writing (.setWatch l i)
          ∧ (t.port p).transferLength = 32 ∧ (t.port p).buffer = [] ∧ (t.port p).dataReady = true)
    ∧ (∀ (s : State) (p : PortId) (l : LineId) (i : Fin 4) (b : Byte), (s.port p).resetAsserted = false →
      (s.port p).phase = .writing (.setWatch l i) → (s.port p).buffer.length + 1 = (s.port p).transferLength →
      let record := (s.port p).buffer ++ [b]
      (watchOf record = none → ∃ t, exec (.dataWrite p b) s = .next t ∧ t.lines = s.lines
        ∧ (t.port p).phase = .completing { code := .badArgument })
        ∧ ∀ w, watchOf record = some w →
          ((s.line l).hasControl p = false → ∃ t, exec (.dataWrite p b) s = .next t ∧ t.lines = s.lines
            ∧ (t.port p).phase = .completing { code := .noControl })
          ∧ ((s.line l).hasControl p = true → ∃ t, exec (.dataWrite p b) s = .next t
            ∧ (t.port p).phase = .completing {} ∧ w.progress = 0
            ∧ t.line l = { s.line l with watch := (s.line l).watch.set i.val w }))
    ∧ ∀ bs : List Byte, bs.length = 32 →
      let flags := bs.getD 0 0
      let n := (bs.getD 1 0).toNat
      let m := (bs.getD 2 0).toNat
      (watchOf bs = none ↔ 64 ≤ flags.toNat ∨ 12 < n ∨ (n = 0 ∧ flags.getLsbD 0 = true) ∨ 16 < m
        ∨ (m = 0 ∧ flags.getLsbD 3 = true))
        ∧ ∀ w, watchOf bs = some w →
          w.enabled = flags.getLsbD 0 ∧ w.close = flags.getLsbD 1 ∧ w.attention = flags.getLsbD 2
            ∧ w.respond = flags.getLsbD 3 ∧ w.freeze = flags.getLsbD 4 ∧ w.always = flags.getLsbD 5
            ∧ w.freezeAfter = bs.getD 3 0 ∧ w.pattern = (bs.drop 4).take n ∧ w.response = (bs.drop 16).take m

/-- Matching (R87, R88): the progress of a slot that is on is the length of the longest beginning of its pattern that ends the characters
fed, and stays so; the slot matches exactly when the whole pattern ends them, and its progress is then 0. A slot that is off is not fed. The
response of a matching slot (R92, R93): skipped with WRITER PRESENT when the line has a writer and the always flag is clear, and with QUEUE
FULL when it does not fit; otherwise it joins the queue as one run, logged as SENT when log-sent is on, and RESPONSE SENT is written. A
stored character (R8, R14, R87, R90, R91, R94, R95): it is placed and fed to every slot; of the slots that match, the lowest with CLOSE
closes the open record with WATCH and its number plus one, those with RESPOND take their turns in slot order, those with FREEZE apply their
freeze-after in slot order, the FROZEN record that is due is written, and the lowest with ATTENTION posts WATCH with its number at each port
whose attachment has watch enable on. The place of the capacity, the evaluations, the start point and the score in this order is the model's
reading (log 24). For one slot that matches, without RESPOND, the log, the freeze and the causes after the character are stated whole. -/
def Obligations.AWatchSlotMatchesAndResponds : Prop :=
  ((∀ (w : WatchSlot) (cs : List Byte) (c : Byte), w.enabled = true → w.progress < w.pattern.length →
    w.pattern.take w.progress <:+ cs → (∀ j, w.progress < j → j ≤ w.pattern.length → ¬ w.pattern.take j <:+ cs) →
    let v := (w.feed c).1
    ((w.feed c).2 = true ↔ w.pattern <:+ cs ++ [c])
      ∧ ((w.feed c).2 = true → v = { w with progress := 0 })
      ∧ ((w.feed c).2 = false → v = { w with progress := v.progress } ∧ v.progress < w.pattern.length
        ∧ w.pattern.take v.progress <:+ cs ++ [c]
        ∧ ∀ j, v.progress < j → j ≤ w.pattern.length → ¬ w.pattern.take j <:+ cs ++ [c]))
    ∧ (∀ (w : WatchSlot) (c : Byte), w.enabled = false → w.feed c = (w, false))
    ∧ ∀ (s : State) (l : LineId) (i : Fin 4),
      let x := s.line l
      let w := x.watch[i]
      let t := respond s l i
      let source := BitVec.ofNat 8 (16 + i.val)
      ((x.writer.isSome = true ∧ w.always = false) →
        LogsEvent s t l .responseSkipped [BitVec.ofNat 8 i.val, 1] ∧ (t.line l).tx = x.tx)
        ∧ (¬ (x.writer.isSome = true ∧ w.always = false) → 64 - x.tx.queue.length < w.response.length →
          LogsEvent s t l .responseSkipped [BitVec.ofNat 8 i.val, 2] ∧ (t.line l).tx = x.tx)
        ∧ (¬ (x.writer.isSome = true ∧ w.always = false) → w.response.length ≤ 64 - x.tx.queue.length →
          (t.line l).tx = { x.tx with queue := x.tx.queue ++ w.response.map Entry.character }
            ∧ (x.io.inForce.logSent = false → LogsEvent s t l .responseSent [BitVec.ofNat 8 i.val])
            ∧ (x.io.inForce.logSent = true → w.response ≠ [] → w.response.length ≤ x.io.inForce.maxLength.toNat →
              x.roomy (25 + w.response.length) →
              (t.line l).closed = x.closed ++ x.closing .sent 0
                ++ [{ seq := x.cap.next, time := s.timebase, kind := .sent, cause := 0, detail := source, body := w.response }]
                ++ [{ eventRecord s l .responseSent [BitVec.ofNat 8 i.val] with seq := nextSeq x.cap.next }])))
    ∧ ((∀ (s : State) (l : LineId) (data : Byte) (parity stop : Bool) (r : Received), (s.line l).completes data parity stop r →
      (s.line l).stores r →
      let seen := (s.modIo l fun x => { x with receiver := .between }).modCond l fun x => { x with nullPending := false }
      ∀ placed, placeCharacter seen l r.value = (placed, true) →
        let slots := (List.finRange 4).filter fun i => (((placed.line l).watch[i.val]).feed r.value).2
        let fed := placed.modLine l fun x => { x with watch := x.watch.map fun w => (w.feed r.value).1 }
        let closed := closeAtCapacity (watchClose fed l slots) l
        let acted := watchAttention (flushFrozen (freezeAll l slots (respondAll l slots closed)) l) l slots
        let settled := settle acted l
        exec (.characterComplete l data parity stop) s
          = .next (scoreEntry (if (settled.line l).tx.queue = [] then settled else kickTransmitter settled l) l false))
      ∧ (∀ (s : State) (l : LineId) (slots : List (Fin 4)), slots.Pairwise (· < ·) →
        let w := fun i : Fin 4 => (s.line l).watch[i.val]
        (∀ i ∈ slots, (w i).close = true → (∀ j ∈ slots, j < i → (w j).close = false) →
          watchClose s l slots = closeOpen s l .watch (BitVec.ofNat 8 (i.val + 1)))
          ∧ ((∀ i ∈ slots, (w i).close = false) → watchClose s l slots = s)
          ∧ respondAll l slots s = (slots.filter fun i => (w i).respond).foldl (fun u i => respond u l i) s
          ∧ freezeAll l slots s
            = (slots.filter fun i => (w i).freeze).foldl (fun u i => u.modPool l (Pool.freezeAction (w i).freezeAfter.toNat)) s
          ∧ ((∀ i ∈ slots, (w i).attention = false) → watchAttention s l slots = s)
          ∧ ∀ i ∈ slots, (w i).attention = true → (∀ j ∈ slots, j < i → (w j).attention = false) →
            (watchAttention s l slots).lines = s.lines
              ∧ ∀ q, (∀ a, (s.line l).attachment q = some a → a.watchEnable = true →
                  ((watchAttention s l slots).port q).hasCause .watch l = true
                    ∧ ((s.port q).hasCause .watch l = false →
                      ∃ c ∈ ((watchAttention s l slots).port q).causes, c.kind = .watch ∧ c.line = l ∧ c.detail = i.val))
                ∧ ((∀ a, (s.line l).attachment q = some a → a.watchEnable = false) →
                  (watchAttention s l slots).port q = s.port q))
      ∧ ∀ (s : State) (l : LineId) (data : Byte) (parity stop : Bool) (r : Received) (old : OpenRecord) (i : Fin 4),
        (s.line l).completes data parity stop r → (s.line l).stores r → (s.line l).io.inForce.autoHunt = false →
        (s.line l).cap.opened = some old → (s.line l).roomy 13 → (s.line l).pool.frozen = false → (s.line l).noHold →
        (s.line l).tx.queue = [] →
        let w := (s.line l).watch[i.val]
        (∀ j : Fin 4, (((s.line l).watch[j.val]).feed r.value).2 = decide (j = i)) → w.respond = false →
        let text := (s.line l).closed ++ [({ old with body := old.body ++ [r.value] } : OpenRecord).closed .watch (BitVec.ofNat 8 (i.val + 1))]
        ∃ t, exec (.characterComplete l data parity stop) s = .next t
          ∧ (t.line l).watch = (s.line l).watch.map (fun v => (v.feed r.value).1) ∧ (t.line l).tx = (s.line l).tx
          ∧ (w.close = true → w.freeze = false → (t.line l).closed = text ∧ (t.line l).cap.opened = none
            ∧ (t.line l).pool.frozen = false ∧ (t.line l).pool.freezePending = none)
          ∧ (w.close = true → w.freeze = true → w.freezeAfter = 0 →
            (t.line l).closed = text ++ [eventRecord s l .frozen []] ∧ (t.line l).pool.frozen = true)
          ∧ (w.close = true → w.freeze = true → w.freezeAfter ≠ 0 →
            (t.line l).closed = text ∧ (t.line l).pool.freezePending = some w.freezeAfter.toNat
              ∧ (t.line l).pool.frozen = false)
          ∧ (w.attention = true → ∀ q a, (s.line l).attachment q = some a → a.watchEnable = true →
            (t.port q).hasCause .watch l = true)
          ∧ (w.attention = false → ∀ q, (t.port q).hasCause .watch l = (s.port q).hasCause .watch l))

/-! ## Pages, quotas and freezing -/

/-- A page request (R23, R27): a line below its limit, and below its reserve or with more free pages than the outstanding reserve, is given
the page at the head of the free list; otherwise a frozen line is refused, and another recycles its oldest page, whose records leave its
log. Under the bounds of R29 no other case arises. A report of a new oldest sequence number (R28, R114, R162): an attachment whose mark is
clear and whose cursor lies below it has the mark set and OVERTAKEN posted at its port; a mark that is set stays, and the cursor is not
moved. A recycling, and a release of pages after its last, makes one report, of the new oldest and of the number that left, the difference
modulo 2^32 (R28). A stored character that needs a page opens its record on a free page, or on the recycled one, or is discarded and counted
(R7, R22, R38). A record without a page is discarded: the characters of an opening TEXT, of an errored character or of a SENT record are
counted up to 16 777 215, an event record up to 255. -/
def Obligations.APageRequestIsAnswered : Prop :=
  ((∀ (s : State) (l : LineId),
    let x := s.line l
    let may := x.held < x.pool.limit ∧ (x.held < x.pool.reserve ∨ s.outstanding < s.freePages.length)
    s.outstanding = ((List.finRange 16).map fun k => (s.line k).pool.reserve - (s.line k).held).sum
      ∧ (may → ∀ n rest, s.freePages = n :: rest → ∃ t, requestPage s l = (t, true) ∧ t.freePages = rest ∧ t.ports = s.ports
        ∧ (t.line l).cap = x.cap
        ∧ (t.line l).pool
          = { x.pool with pages := x.pool.pages ++ [{ number := n, firstSeq := 0, occupied := 0, records := [] }] })
      ∧ (¬ may → x.pool.frozen = true → requestPage s l = (s, false))
      ∧ (¬ may → x.pool.frozen = false → ∀ pg rest, x.pool.pages = pg :: rest →
        ∃ t, requestPage s l = (t, true) ∧ t.freePages = s.freePages
          ∧ (t.line l).pool
            = { x.pool with pages := rest ++ [{ number := pg.number, firstSeq := 0, occupied := 0, records := [] }] }
          ∧ (t.line l).cap.next = x.cap.next ∧ (t.line l).cap.opened = x.cap.opened
          ∧ (rest = [] → (t.line l).cap.oldest = x.cap.next)
          ∧ (∀ pg' more, rest = pg' :: more → pg'.occupied ≠ 0 → (t.line l).cap.oldest = pg'.firstSeq))
      ∧ (QuotaBounds s → (may → s.freePages ≠ []) ∧ (¬ may → x.pool.pages ≠ [])))
    ∧ (∀ (s : State) (l : LineId) (p : PortId) (a : Attachment) (report : OldestReport), (s.line l).attachment p = some a →
      let t := reportOldest report s l
      (t.line l).attachment p = some { a with overtaken := a.overtaken || seqBelow a.cursor report.oldest }
        ∧ (a.overtaken = false → seqBelow a.cursor report.oldest = true →
          ∃ c ∈ (t.port p).causes, c.kind = .overtaken ∧ c.line = l)
        ∧ (t.line l).cap = (s.line l).cap ∧ (t.line l).pool = (s.line l).pool)
    ∧ ∀ (s : State) (l : LineId),
      (∀ pg rest, recycle s l pg rest
        = let u := recyclePage s l pg rest
          reportOldest { oldest := (u.line l).cap.oldest, left := (u.line l).cap.oldest - (s.line l).cap.oldest } u l)
        ∧ releasePages s l 0 = s
        ∧ ∀ n, releasePages s l (n + 1)
          = let u := dropPages s l (n + 1)
            reportOldest { oldest := (u.line l).cap.oldest, left := (u.line l).cap.oldest - (s.line l).cap.oldest } u l)
    ∧ (∀ (s : State) (l : LineId) (data : Byte) (parity stop : Bool) (r : Received), (s.line l).completes data parity stop r →
      (s.line l).stores r → (s.line l).io.inForce.autoHunt = false → 2 ≤ (s.line l).io.inForce.maxLength.toNat →
      (s.line l).cap.opened = none → (s.line l).tx.queue = [] → MarksClear s →
      (∀ i (h : i < 4), ((s.line l).watch[i]).enabled = false) →
      let x := s.line l
      let opens := fun t : State =>
        (t.line l).cap.opened = some { seq := x.cap.next, time := s.timebase, body := [r.value], room := 236 }
          ∧ (t.line l).cap.next = nextSeq x.cap.next ∧ (t.line l).tx = x.tx
      (x.pool.pages = [] ∨ x.room < 13) →
        (∀ n rest, s.mayTake l → s.freePages = n :: rest → x.noHold →
          ∃ t, exec (.characterComplete l data parity stop) s = .next t ∧ t.freePages = rest ∧ opens t
            ∧ (t.line l).pool.pages.map (·.number) = x.pool.pages.map (·.number) ++ [n]
            ∧ (t.line l).closed = x.closed ∧ (t.line l).cap.oldest = x.cap.oldest ∧ t.ports = s.ports)
        ∧ (∀ pg rest, ¬ s.mayTake l → x.pool.frozen = false → x.pool.pages = pg :: rest → x.noHold →
          ∃ t, exec (.characterComplete l data parity stop) s = .next t ∧ t.freePages = s.freePages ∧ opens t
            ∧ (t.line l).pool.pages.map (·.number) = rest.map (·.number) ++ [pg.number]
            ∧ (t.line l).closed = rest.flatMap (·.records)
            ∧ (∀ pg' more, rest = pg' :: more → pg'.occupied ≠ 0 → (t.line l).cap.oldest = pg'.firstSeq)
            ∧ ∀ q a, x.attachment q = some a →
              (t.line l).attachment q = some { a with overtaken := a.overtaken || seqBelow a.cursor (t.line l).cap.oldest }
                ∧ (a.overtaken = false → seqBelow a.cursor (t.line l).cap.oldest = true →
                  (t.port q).hasCause .overtaken l = true))
        ∧ (¬ s.mayTake l → x.pool.frozen = true →
          ∃ t, exec (.characterComplete l data parity stop) s = .next t ∧ t.ports = s.ports
            ∧ t.line l = { x with
                io := { x.io with receiver := .between }
                cond := { x.cond with nullPending := false, score := (x.cond.score ++ [false]).drop (x.cond.score.length + 1 - 16) }
                pool := { x.pool with discardedChars := min (x.pool.discardedChars + 1) 16777215 } }))
    ∧ ((∀ (s : State) (l : LineId) (kind : RecordKind) (cause detail : Byte) (body : List Byte) (discard : State → State),
      s.pageless l (12 + body.length) → writeRecord s l kind cause detail body discard = discard s)
      ∧ (∀ (s : State) (l : LineId) (e : Event) (argument : List Byte), s.pageless l (12 + argument.length) →
        placeEvent s l e argument
          = s.modPool l fun y => { y with discardedEvents := min (y.discardedEvents + 1) 255 })
      ∧ (∀ (s : State) (l : LineId) (source : Byte) (m : Nat) (run : List Byte), 1 ≤ m → s.pageless l 13 →
        writePieces l source (runPieces run.length m run) s
          = if run = [] then s
            else s.modPool l fun y => { y with discardedChars := min (y.discardedChars + run.length) 16777215 })
      ∧ (∀ (s : State) (l : LineId) (data : Byte) (parity stop : Bool) (r : Received), (s.line l).completes data parity stop r →
        (s.line l).cond.state = .run → r.errored = true → r.candidate = false → (s.line l).io.inForce.autoHunt = false →
        (s.line l).cap.opened = none → MarksClear s → s.pageless l 13 →
        ∃ t, exec (.characterComplete l data parity stop) s = .next t ∧ t.ports = s.ports ∧ (t.line l).cap = (s.line l).cap
          ∧ (t.line l).pool
            = { (s.line l).pool with discardedChars := min ((s.line l).pool.discardedChars + 1) 16777215 })
      ∧ ∀ (s : State) (l : LineId), timerDue (s.line l).cond.downTimer = true → (s.line l).tx.state ≠ .paused →
        (s.line l).cap.opened = none → MarksClear s → s.pageless l 12 →
        ∃ t, exec (.downTimerExpiry l) s = .next t ∧ (t.line l).cond.state = .down ∧ (t.line l).cap = (s.line l).cap
          ∧ (t.line l).pool
            = { (s.line l).pool with discardedEvents := min ((s.line l).pool.discardedEvents + 1) 255 })

/-- SET QUOTA (R31, R32): NO CONTROL, BAD ARGUMENT, FROZEN for a frozen line that would release a page, QUOTA when the sum of the reserves
would exceed 2048 or the outstanding reserve the free pages, in this order. Otherwise the reserve and the limit take effect, the oldest
pages above the limit go to the tail of the free list, COUNT is the held count and POSITION the oldest sequence number, both read after the
evaluation that the command asks for (log 34, the model's choice). Where the hold has nothing to do, nothing else of the line's log changes.
COUNT is clipped at 65535 where the rule names no bound (log 25, PRESUMED). -/
def Obligations.SetQuotaChecksAndReleases : Prop :=
  ∀ (s : State) (p : PortId) (l : LineId), s.calls p l →
    let x := s.line l
    let r := (s.port p).count.toNat
    let m := (s.port p).value.toNat
    let after := min x.held m
    let good := 1 ≤ r ∧ r ≤ 128 ∧ r ≤ m ∧ m ≤ 2048
    let thawed := x.pool.frozen = false ∨ x.held ≤ m
    let reserves := ((List.finRange 16).map fun k => if k = l then r else (s.line k).pool.reserve).sum
    let promised := ((List.finRange 16).map fun k =>
      if k = l then r - after else (s.line k).pool.reserve - (s.line k).held).sum
    let free := s.freePages.length + (x.held - m)
    (x.hasControl p = false → exec (.setQuota p) s = .next (s.answer p false { code := .noControl }))
      ∧ (x.hasControl p = true → ¬ good → exec (.setQuota p) s = .next (s.answer p false { code := .badArgument }))
      ∧ (x.hasControl p = true → good → ¬ thawed → exec (.setQuota p) s = .next (s.answer p false { code := .frozen }))
      ∧ (x.hasControl p = true → good → thawed → (2048 < reserves ∨ free < promised) →
        exec (.setQuota p) s = .next (s.answer p false { code := .quota }))
      ∧ (x.hasControl p = true → good → thawed → reserves ≤ 2048 → promised ≤ free →
        ∃ t, exec (.setQuota p) s = .next t ∧ (t.line l).pool.reserve = r ∧ (t.line l).pool.limit = m
          ∧ Answered s t p
            { count := some (BitVec.ofNat 16 (min (t.line l).held 65535)), position := some (t.line l).cap.oldest }
          ∧ (t.line l).io = x.io ∧ (t.line l).cond = x.cond ∧ (t.line l).watch = x.watch ∧ (t.line l).tx.queue = x.tx.queue
          ∧ (x.noHold → MarksClear s → (t.line l).held = after
            ∧ (t.line l).pool.pages = x.pool.pages.drop (x.held - m)
            ∧ t.freePages = s.freePages ++ (x.pool.pages.take (x.held - m)).map (·.number)
            ∧ (t.line l).cap.next = x.cap.next ∧ (t.line l).cap.opened = x.cap.opened
            ∧ (x.held ≤ m → (t.line l).cap.oldest = x.cap.oldest)
            ∧ (m < x.held → ∀ pg rest, x.pool.pages.drop (x.held - m) = pg :: rest → pg.occupied ≠ 0 →
              (t.line l).cap.oldest = pg.firstSeq)))

/-- CLEAR HISTORY (R31, R33): NO CONTROL without the control right, FROZEN on a frozen line. Otherwise POSITION is the sequence number of
the CLEARED record, which takes the next number; settings, quota, queue, watch slots and what stands of the attachments are unchanged. With
no freeze count pending and no hold, the CLEARED record is the only one of the log, on one page, and every page held before is at the tail
of the free list. -/
def Obligations.ClearHistoryEmptiesTheLog : Prop :=
  ∀ (s : State) (p : PortId) (l : LineId), s.calls p l →
    let x := s.line l
    (x.hasControl p = false → exec (.clearHistory p) s = .next (s.answer p false { code := .noControl }))
      ∧ (x.hasControl p = true → x.pool.frozen = true →
        exec (.clearHistory p) s = .next (s.answer p false { code := .frozen }))
      ∧ (x.hasControl p = true → x.pool.frozen = false →
        ∃ t, exec (.clearHistory p) s = .next t ∧ Answered s t p { position := some x.cap.next }
          ∧ (t.line l).pool.reserve = x.pool.reserve ∧ (t.line l).pool.limit = x.pool.limit
          ∧ (t.line l).pool.discardedChars = x.pool.discardedChars ∧ (t.line l).io = x.io ∧ (t.line l).cond = x.cond
          ∧ (t.line l).watch = x.watch ∧ (t.line l).tx.queue = x.tx.queue
          ∧ (t.line l).att.list.map Attachment.standing = x.att.list.map Attachment.standing
          ∧ (QuotaBounds s → LogKept s → MarksClear s → x.pool.freezePending = none → x.noHold →
            (t.line l).closed = [eventRecord s l .cleared [BitVec.ofNat 8 p.val]] ∧ (t.line l).cap.opened = none
              ∧ (t.line l).cap.oldest = x.cap.next ∧ (t.line l).cap.next = nextSeq x.cap.next ∧ (t.line l).held = 1
              ∧ (t.line l).pool.frozen = false
              ∧ t.freePages = (s.freePages ++ x.pool.pages.map (·.number)).drop 1))

/-- FREEZE (R31, R34): NO CONTROL without the control right; the line is frozen with no count pending, FROZEN is written, and COUNT is the
held count after the evaluation that follows (log 34, the model's choice). A line already frozen is left as it is (log 15, the model's
choice of COUNT). THAW (R39): a line neither frozen nor pending answers COUNT 0 and VALUE 0; otherwise it is no longer frozen, the discard
counters are returned and cleared, and THAWED is written with them. The freeze count (R35, R36): each completed record lowers it, at 0 the
line is frozen and FROZEN is due; the FREEZE action keeps the smaller count, 0 freezes at once, and a frozen line is left as it is. COUNT is
clipped at 65535 where the rule names no bound (log 25, PRESUMED). -/
def Obligations.FreezeAndThaw : Prop :=
  (∀ (s : State) (p : PortId) (l : LineId), s.calls p l →
    let x := s.line l
    let unpended := s.modPool l fun y => { y with freezePending := none }
    (x.hasControl p = false → exec (.freeze p) s = .next (s.answer p false { code := .noControl })
        ∧ exec (.thaw p) s = .next (s.answer p false { code := .noControl }))
      ∧ (x.hasControl p = true → x.pool.frozen = true →
        exec (.freeze p) s = .next (s.answer p false { count := some (BitVec.ofNat 16 (min x.held 65535)) }))
      ∧ (x.hasControl p = true → x.pool.frozen = false →
        ∃ t, exec (.freeze p) s = .next t ∧ (t.line l).pool.frozen = true ∧ (t.line l).pool.freezePending = none
          ∧ Answered s t p { count := some (BitVec.ofNat 16 (min (t.line l).held 65535)) }
          ∧ (x.hold.state = .none → LogsEvent unpended t l .frozen [] ∧ (t.line l).tx = x.tx)
          ∧ (t.line l).io = x.io ∧ (t.line l).cond = x.cond ∧ (t.line l).watch = x.watch ∧ (t.line l).tx.queue = x.tx.queue
          ∧ (t.line l).att.list.map Attachment.standing = x.att.list.map Attachment.standing)
      ∧ (x.hasControl p = true → x.pool.frozen = false → x.pool.freezePending = none →
        exec (.thaw p) s = .next (s.answer p false { count := some 0, value := some 0 }))
      ∧ (x.hasControl p = true → (x.pool.frozen = true ∨ x.pool.freezePending ≠ none) →
        ∃ t, exec (.thaw p) s = .next t ∧ (t.line l).pool.frozen = false ∧ (t.line l).pool.freezePending = none
          ∧ Answered s t p
            { count := some (BitVec.ofNat 16 (min x.pool.discardedEvents 65535))
              value := some (BitVec.ofNat 32 x.pool.discardedChars) }
          ∧ (x.noHold → LogsEvent unpended t l .thawed
            [BitVec.ofNat 8 x.pool.discardedChars, BitVec.ofNat 8 (x.pool.discardedChars / 256),
              BitVec.ofNat 8 (x.pool.discardedChars / 65536), BitVec.ofNat 8 x.pool.discardedEvents])
          ∧ (x.noHold → (unpended.line l).roomy 16 →
            (t.line l).pool.discardedChars = 0 ∧ (t.line l).pool.discardedEvents = 0)
          ∧ (t.line l).io = x.io ∧ (t.line l).cond = x.cond ∧ (t.line l).watch = x.watch ∧ (t.line l).tx.queue = x.tx.queue
          ∧ (t.line l).att.list.map Attachment.standing = x.att.list.map Attachment.standing))
    ∧ ∀ x : Pool,
      (x.freezePending = none → x.countRecord = x)
        ∧ (∀ n, x.freezePending = some (n + 2) → x.countRecord = { x with freezePending := some (n + 1) })
        ∧ (x.freezePending = some 1 →
          x.countRecord = { x with freezePending := none, frozen := true, frozenDue := true })
        ∧ (∀ v, x.frozen = true → x.freezeAction v = x)
        ∧ (x.frozen = false → x.freezeAction 0 = { x with freezePending := none, frozen := true, frozenDue := true })
        ∧ (∀ v, x.frozen = false → x.freezePending = none →
          x.freezeAction (v + 1) = { x with freezePending := some (v + 1) })
        ∧ ∀ v c, x.frozen = false → x.freezePending = some (c + 1) →
          x.freezeAction (v + 1) = { x with freezePending := some (min (v + 1) (c + 1)) }

/-! ## Holds -/

/-- The hold condition (R30, R151, R152): the flow option is on, the line is not frozen, a lossless attachment that is not overtaken has its
cursor on the oldest page, and the line is at risk. One evaluation (R154): NONE under the condition becomes HELD with XOFF, the timer and
HOLD START; HELD without it becomes NONE with XON and HOLD END; SPENT without it becomes NONE; nothing else changes. A flow character (R52,
R56) is dropped on a line that is off, taken at once by a waiting transmitter, and held in the flow slot otherwise. HOLD TIMER EXPIRY
(R156): XON is placed, HOLD TIMEOUT is written and the line is SPENT. The evaluations that R153 asks for are made within the step: after SET
QUOTA, FREEZE, THAW, an ATTACH that passes, DETACH, PORT RESET, the end of a lossless READ NEW delivery or its ABORT, and a page given to a
stored character, the hold stands as an evaluation leaves it. Stated for a line whose page has room for the records of the step. -/
def Obligations.TheHoldEvaluation : Prop :=
  ((∀ (s : State) (l : LineId),
    let x := s.line l
    let cond := x.io.inForce.flow = true ∧ x.pool.frozen = false
      ∧ (∃ a ∈ x.att.list, a.lossless = true ∧ a.overtaken = false ∧ x.onOldestPage a.cursor = true)
      ∧ ¬ (x.held < x.pool.limit ∧ (x.held < x.pool.reserve ∨ s.outstanding < s.freePages.length))
    let t := evaluateHold s l
    (x.hold.state = .none → ¬ cond → t = s) ∧ (x.hold.state = .held → cond → t = s) ∧ (x.hold.state = .spent → cond → t = s)
      ∧ (x.hold.state = .spent → ¬ cond → t = s.modHold l fun h => { h with state := .none, timer := none })
      ∧ (x.hold.state = .none → cond → (t.line l).hold.state = .held
        ∧ (t.line l).hold.timer = some { start := s.timebase, due := false } ∧ LogsEvent s t l .holdStart []
        ∧ (t.line l).tx = ((placeFlow s l .xoff).line l).tx)
      ∧ (x.hold.state = .held → ¬ cond → (t.line l).hold.state = .none ∧ (t.line l).hold.timer = none
        ∧ LogsEvent s t l .holdEnd [] ∧ (t.line l).tx = ((placeFlow s l .xon).line l).tx))
    ∧ (∀ (x : Line) (q : Seq),
      (x.pool.pages = [] → x.onOldestPage q = false)
        ∧ (∀ pg, x.pool.pages = [pg] →
          (x.onOldestPage q = true ↔ seqDist x.cap.oldest q < seqDist x.cap.oldest x.cap.next))
        ∧ ∀ pg pg' rest, x.pool.pages = pg :: pg' :: rest →
          (x.onOldestPage q = true ↔ seqDist x.cap.oldest q < seqDist x.cap.oldest pg'.firstSeq))
    ∧ (∀ (s : State) (l : LineId) (f : FlowChar),
      ((s.line l).cond.state = .off → placeFlow s l f = s)
        ∧ ((s.line l).cond.state ≠ .off → ((s.line l).tx.state = .idle ∨ (s.line l).tx.state = .paused) →
          ((placeFlow s l f).line l).tx.state = .sending (if f = .xon then 0x11 else 0x13)
            ∧ ((placeFlow s l f).line l).tx.flowSlot = none)
        ∧ ((s.line l).cond.state ≠ .off → (s.line l).tx.state ≠ .idle → (s.line l).tx.state ≠ .paused →
          placeFlow s l f = s.modTx l fun x => { x with flowSlot := some f }))
    ∧ ∀ (s : State) (l : LineId), timerDue (s.line l).hold.timer = true →
      ∃ t, exec (.holdTimerExpiry l) s = .next t
        ∧ (t.line l).io = (s.line l).io ∧ (t.line l).cond = (s.line l).cond ∧ (t.line l).watch = (s.line l).watch
        ∧ (t.line l).tx.queue = (s.line l).tx.queue
        ∧ (t.line l).att.list.map Attachment.standing = (s.line l).att.list.map Attachment.standing
        ∧ LogsEvent s t l .holdTimeout []
        ∧ ((s.line l).roomy 12 → (t.line l).hold.state = .spent ∧ (t.line l).hold.timer = none
          ∧ (t.line l).tx = ((placeFlow s l .xon).line l).tx))
    ∧ ((∀ (s : State) (l : LineId), (s.line l).roomy 12 → askEvaluation s l = evaluateHold s l)
      ∧ ∀ (s : State) (l : LineId) (p : PortId) (c : Instr), MarksClear s → LogKept s → (s.line l).shortLog →
        ((s.line l).roomy 26
            ∧ ((c = .setQuota p ∧ s.calls p l ∧ (s.line l).hasControl p = true
                  ∧ quotaError s l (s.port p).count.toNat (s.port p).value.toNat = none)
              ∨ (c = .attach p ∧ s.calls p l ∧ (let a := attachArgs (s.port p).option (s.port p).count
                  a.bad = false ∧ (a.lossless = true → (s.line l).io.inForce.flow = true)
                    ∧ (a.writer = true → roleRefused s l p a.take = none)))
              ∨ (c = .detach p ∧ s.calls p l ∧ (s.line l).attachment p ≠ none)
              ∨ (c = .portReset p ∧ (s.port p).resetAsserted = false ∧ (s.line l).attachment p ≠ none
                  ∧ ∀ k, k ≠ l → (s.line k).attachment p = none)
              ∨ ((∃ a, (s.line l).attachment p = some a ∧ a.lossless = true) ∧ (s.port p).resetAsserted = false
                  ∧ ((c = .abort p ∧ ∃ stop m d g is, (s.port p).phase = .filling (.readNew l stop m d g)
                        ∨ (s.port p).phase = .reading (.readNew l stop m d g) is)
                    ∨ (c = .dataRead p ∧ (s.port p).readPoint + 1 = (s.port p).transferLength
                        ∧ ∃ stop m d g is, (s.port p).phase = .reading (.readNew l stop m d g) is)))))
          ∨ ((s.line l).pool.pages ≠ [] ∧ 28 ≤ (s.line l).room ∧ s.calls p l ∧ (s.line l).hasControl p = true
            ∧ ((c = .freeze p ∧ (s.line l).pool.frozen = false)
              ∨ (c = .thaw p ∧ ((s.line l).pool.frozen = true ∨ (s.line l).pool.freezePending ≠ none))))
          ∨ (∃ data parity stop r, c = .characterComplete l data parity stop ∧ (s.line l).completes data parity stop r
              ∧ (s.line l).stores r ∧ (s.line l).io.inForce.autoHunt = false ∧ (s.line l).cap.opened = none
              ∧ (s.line l).tx.queue = [] ∧ (s.line l).pool.freezePending = none
              ∧ (∀ i (h : i < 4), ((s.line l).watch[i]).enabled = false)
              ∧ ((s.line l).pool.pages = [] ∨ (s.line l).room < 13) ∧ (requestPage s l).2 = true) →
        ∃ t, exec c s = .next t ∧ Evaluated s t l)

/-! ## Invariants -/

/-- The state after device reset meets every invariant that the statements below say each step keeps. -/
def Obligations.ResetMeetsTheInvariants : Prop :=
  SettingsOk State.reset ∧ QueueBound State.reset ∧ AttachmentTable State.reset ∧ CauseOrder State.reset
    ∧ PagePartition State.reset ∧ QuotaBounds State.reset ∧ LogKept State.reset ∧ WaitingAgrees State.reset
    ∧ MarksClear State.reset ∧ CausesStand State.reset

/-- Every step keeps the settings of every line in range (R42), every queue within its 64 entries (R133), at most one attachment for a port
and one writer on a line (R98), and every cause set in the order of reporting with one cause for a kind and a line (R160, R170). On
attachment tables with one writer at most and waiting SENDs that agree, every step keeps the causes that stand with what they tell: none for
a line without an attachment (R160), OVERTAKEN exactly while the mark is set (R162), CONDITION exactly while condition enable is set over a
latch that is not empty (R164), DATA in LEVEL mode exactly while the unread count is at or above the level (R167) and never in NONE mode
(R168); and a drain mark holds the writer (R147). A record completion works DATA out at each port (R166, R167). -/
def Obligations.EveryStepKeepsTheTables : Prop :=
  (∀ s t : State, SettingsOk s → QueueBound s → AttachmentTable s → CauseOrder s → step s = .next t →
    SettingsOk t ∧ QueueBound t ∧ AttachmentTable t ∧ CauseOrder t)
    ∧ ((∀ s t : State, AttachmentTable s → WaitingAgrees s → CausesStand s → step s = .next t → CausesStand t)
      ∧ ∀ (s : State) (l : LineId) (p : PortId) (a : Attachment), (s.line l).attachment p = some a →
        let t := reportComplete s l
        (∀ k, a.mode = .level k → ((t.port p).hasCause .data l = true ↔ k.toNat ≤ (s.line l).unread a))
          ∧ (a.mode = .first true → 0 < (s.line l).unread a →
            (t.port p).hasCause .data l = true ∧ ∃ b, (t.line l).attachment p = some b ∧ b.mode = .first false)
          ∧ (a.mode = .none ∨ a.mode = .first false ∨ (a.mode = .first true ∧ (s.line l).unread a = 0) →
            t.port p = s.port p ∧ (t.line l).attachment p = some a))

/-- Every step keeps each of the 2048 pages on the free list or on the page list of one line, once (R25), and the bounds of R24 and R29:
reserves and limits in their ranges, no line above its limit, the reserves within the pages, and the outstanding reserve within the free
pages. -/
def Obligations.EveryStepKeepsThePages : Prop :=
  ∀ s t : State, SettingsOk s → PagePartition s → QuotaBounds s → step s = .next t → PagePartition t ∧ QuotaBounds t

/-- Every step keeps every log: consecutive sequence numbers from the oldest up to the next, 0 never among them (R1, R2), the records on the
pages in order of placement with the open record the newest, and each page's header fitting the records on it (R4, R26). -/
def Obligations.EveryStepKeepsTheLogs : Prop :=
  ∀ s t : State, SettingsOk s → LogKept s → step s = .next t → LogKept t

/-- Every step keeps this: a port waits on a line exactly when the line's waiting SEND or SEND BREAK is the port's, and that port is then
the line's writer (R138, R142). On attachment tables with one writer at most. -/
def Obligations.EveryStepKeepsTheWaiting : Prop :=
  ∀ s t : State, AttachmentTable s → WaitingAgrees s → step s = .next t → WaitingAgrees t

/-- Every step leaves the working marks of the model clear (log 10). The statement says no more: that what they ask for is taken is said for
the evaluations by the statement on the hold, and for FROZEN by those on FREEZE and on the watch slots. -/
def Obligations.EveryStepClearsTheMarks : Prop :=
  ∀ s t : State, MarksClear s → step s = .next t → MarksClear t
end

