-- ==== Sys2Proof/Laws/State.lean ====
section
/-! SUPPORT. Reading the state after an update: one lemma per field per update. -/

namespace Sys2Proof.Machine

variable (s : State) (l k : LineId) (p q : PortId)

/-! ## A line changed -/

@[simp] theorem State.pending_modLine (f : Line → Line) : (s.modLine l f).pending = s.pending := rfl
@[simp] theorem State.timebase_modLine (f : Line → Line) : (s.modLine l f).timebase = s.timebase := rfl
@[simp] theorem State.advancePhase_modLine (f : Line → Line) : (s.modLine l f).advancePhase = s.advancePhase := rfl
@[simp] theorem State.freeIndex_modLine (f : Line → Line) : (s.modLine l f).freeIndex = s.freeIndex := rfl
@[simp] theorem State.freePages_modLine (f : Line → Line) : (s.modLine l f).freePages = s.freePages := rfl
@[simp] theorem State.ports_modLine (f : Line → Line) : (s.modLine l f).ports = s.ports := rfl
@[simp] theorem State.port_modLine (f : Line → Line) : (s.modLine l f).port p = s.port p := rfl

@[simp] theorem State.line_modLine_self (f : Line → Line) : (s.modLine l f).line l = f (s.line l) := by
  simp [State.modLine, State.line]

theorem State.line_modLine_ne (f : Line → Line) (h : k ≠ l) : (s.modLine l f).line k = s.line k := by
  have : l.val ≠ k.val := fun e => h (Fin.ext e.symm)
  simp [State.modLine, State.line, Vector.getElem_set_ne, this]

/-- A line after one line is changed. -/
theorem State.line_modLine (f : Line → Line) :
    (s.modLine l f).line k = if k = l then f (s.line l) else s.line k := by
  by_cases h : k = l
  · subst h; simp
  · simp [h, State.line_modLine_ne]

@[simp] theorem State.modLine_modLine (f g : Line → Line) :
    (s.modLine l f).modLine l g = s.modLine l fun x => g (f x) := by
  simp [State.modLine, State.line]

@[simp] theorem State.modLine_id : (s.modLine l fun x => x) = s := by
  simp [State.modLine, State.line]

/-- Changes of a line that agree on that line give one state. -/
theorem State.modLine_congr {f g : Line → Line} (h : f (s.line l) = g (s.line l)) : s.modLine l f = s.modLine l g := by
  simp [State.modLine, h]

/-! ## A block of a line changed -/

@[simp] theorem State.modIo_eq (f : Interface → Interface) : s.modIo l f = s.modLine l fun x => { x with io := f x.io } := rfl
@[simp] theorem State.modCond_eq (f : Condition → Condition) :
    s.modCond l f = s.modLine l fun x => { x with cond := f x.cond } := rfl
@[simp] theorem State.modPool_eq (f : Pool → Pool) : s.modPool l f = s.modLine l fun x => { x with pool := f x.pool } := rfl
@[simp] theorem State.modTx_eq (f : Transmit → Transmit) : s.modTx l f = s.modLine l fun x => { x with tx := f x.tx } := rfl
@[simp] theorem State.modHold_eq (f : Hold → Hold) : s.modHold l f = s.modLine l fun x => { x with hold := f x.hold } := rfl
@[simp] theorem State.modAtt_eq (f : Attachments → Attachments) :
    s.modAtt l f = s.modLine l fun x => { x with att := f x.att } := rfl
theorem State.modAttachment_eq (f : Attachment → Attachment) :
    s.modAttachment l p f = s.modAtt l fun t => { t with list := t.list.map fun a => if a.port = p then f a else a } := rfl

/-! ## A port changed -/

@[simp] theorem State.pending_modPort (f : Port → Port) : (s.modPort p f).pending = s.pending := rfl
@[simp] theorem State.timebase_modPort (f : Port → Port) : (s.modPort p f).timebase = s.timebase := rfl
@[simp] theorem State.advancePhase_modPort (f : Port → Port) : (s.modPort p f).advancePhase = s.advancePhase := rfl
@[simp] theorem State.freeIndex_modPort (f : Port → Port) : (s.modPort p f).freeIndex = s.freeIndex := rfl
@[simp] theorem State.freePages_modPort (f : Port → Port) : (s.modPort p f).freePages = s.freePages := rfl
@[simp] theorem State.lines_modPort (f : Port → Port) : (s.modPort p f).lines = s.lines := rfl
@[simp] theorem State.line_modPort (f : Port → Port) : (s.modPort p f).line l = s.line l := rfl

@[simp] theorem State.port_modPort_self (f : Port → Port) : (s.modPort p f).port p = f (s.port p) := by
  simp [State.modPort, State.port]

theorem State.port_modPort_ne (f : Port → Port) (h : q ≠ p) : (s.modPort p f).port q = s.port q := by
  have : p.val ≠ q.val := fun e => h (Fin.ext e.symm)
  simp [State.modPort, State.port, Vector.getElem_set_ne, this]

/-- A port after one port is changed. -/
theorem State.port_modPort (f : Port → Port) : (s.modPort p f).port q = if q = p then f (s.port p) else s.port q := by
  by_cases h : q = p
  · subst h; simp
  · simp [h, State.port_modPort_ne]

@[simp] theorem State.modPort_modPort (f g : Port → Port) :
    (s.modPort p f).modPort p g = s.modPort p fun x => g (f x) := by
  simp [State.modPort, State.port]

@[simp] theorem State.modPort_id : (s.modPort p fun x => x) = s := by
  simp [State.modPort, State.port]

/-- A change of a line and a change of a port do not meet. -/
theorem State.modLine_modPort (f : Line → Line) (g : Port → Port) :
    (s.modPort p g).modLine l f = (s.modLine l f).modPort p g := rfl

/-! ## Causes -/

theorem State.post_eq (c : CauseKind) (d : Nat) :
    s.post p c l d = s.modPort p fun x => { x with causes := postCause { kind := c, line := l, detail := d } x.causes } := rfl
theorem State.unpost_eq (c : CauseKind) :
    s.unpost p c l = s.modPort p fun x => { x with causes := dropCause c l x.causes } := rfl

@[simp] theorem State.line_post (c : CauseKind) (d : Nat) : (s.post p c l d).line k = s.line k := rfl
@[simp] theorem State.line_unpost (c : CauseKind) : (s.unpost p c l).line k = s.line k := rfl

/-! ## Two states with the same lines, ports and rest are one -/

theorem State.ext_of {s t : State} (h1 : t.pending = s.pending) (h2 : t.timebase = s.timebase)
    (h3 : t.advancePhase = s.advancePhase) (h4 : t.freeIndex = s.freeIndex) (h5 : t.freePages = s.freePages)
    (h6 : ∀ l, t.line l = s.line l) (h7 : ∀ p, t.port p = s.port p) : t = s := by
  obtain ⟨_, _, _, _, _, ls, ps⟩ := s
  obtain ⟨_, _, _, _, _, lt, pt⟩ := t
  simp only at h1 h2 h3 h4 h5
  have e1 : lt = ls := by
    apply Vector.ext
    intro i hi
    exact h6 ⟨i, hi⟩
  have e2 : pt = ps := by
    apply Vector.ext
    intro i hi
    exact h7 ⟨i, hi⟩
  subst h1 h2 h3 h4 h5 e1 e2
  rfl

end Sys2Proof.Machine
end

