-- ==== Sys2Proof/Laws/Work.lean ====
section
/-! SUPPORT. What the capture unit, the page pool manager and the hold evaluation can do to a line: one relation, and one lemma
for each of their operations. A proof about all of them goes by cases on the relation. -/

namespace Sys2Proof.Machine

/-- An attachment changed in its overtaken mark and armed flag alone. -/
def Attachment.Marked (a b : Attachment) : Prop :=
  b = { a with overtaken := b.overtaken, mode := b.mode } ∧ b.mode.disarmed = a.mode.disarmed

/-- A line changed in its hold, its freeze state, its discard counters and what its transmitter does, and in nothing else. -/
def Line.Quiet (x y : Line) : Prop :=
  y = { x with
    pool :=
      { x.pool with
        frozen := y.pool.frozen, freezePending := y.pool.freezePending, discardedChars := y.pool.discardedChars
        discardedEvents := y.pool.discardedEvents, frozenDue := y.pool.frozenDue }
    tx := { x.tx with flowSlot := y.tx.flowSlot, state := y.tx.state, inUse := y.tx.inUse }
    hold := y.hold }

/-- The line's newest page has less room than a record of at most a page needs, or there is none. -/
def Line.needsPage (x : Line) : Prop := x.pool.pages = [] ∨ ∃ need, need ≤ Config.payload ∧ x.room < need

/-- One thing that the capture unit, the pool manager or the hold evaluation does on a line. -/
inductive WorkStep (l : LineId) : State → State → Prop where
  | post (s : State) (p : PortId) (k : CauseKind) (d : Nat) : WorkStep l s (s.post p k l d)
  | unpost (s : State) (p : PortId) (k : CauseKind) : WorkStep l s (s.unpost p k l)
  | mark (s : State) (g : Attachment → Attachment) (h : ∀ a : Attachment, a.Marked (g a)) :
      WorkStep l s (s.modAtt l fun t => { t with list := t.list.map g })
  | quiet (s : State) (f : Line → Line) (h : (s.line l).Quiet (f (s.line l))) : WorkStep l s (s.modLine l f)
  | give (s : State) (n : Nat) (rest : List Nat) (ho : (s.line l).cap.opened = none) (hn : (s.line l).needsPage)
      (hm : mayTakeFree s l = true) (hf : s.freePages = n :: rest) : WorkStep l s (giveFree s l n rest)
  | recycle (s : State) (oldest : Page) (rest : List Page) (ho : (s.line l).cap.opened = none) (hn : (s.line l).needsPage)
      (hz : (s.line l).pool.frozen = false) (hp : (s.line l).pool.pages = oldest :: rest) :
      WorkStep l s (recyclePage s l oldest rest)
  | place (s : State) (kind : RecordKind) (cause detail : Byte) (body : List Byte) (ho : (s.line l).cap.opened = none)
      (hp : (s.line l).pool.pages ≠ []) (hr : Config.header + body.length ≤ (s.line l).room) :
      WorkStep l s (placeRecord s l kind cause detail body)
  | close (s : State) (o : OpenRecord) (cause : CloseCause) (detail : Byte) (ho : (s.line l).cap.opened = some o) :
      WorkStep l s (closeRecord s l o cause detail)

/-- What the capture unit, the pool manager and the hold evaluation can do on a line. -/
def Work (l : LineId) : State → State → Prop := Relation.ReflTransGen (WorkStep l)

namespace Work

variable {l : LineId} {s t u : State}

theorem refl (s : State) : Work l s s := Relation.ReflTransGen.refl
theorem trans (h : Work l s t) (k : Work l t u) : Work l s u := Relation.ReflTransGen.trans h k
theorem one (h : WorkStep l s t) : Work l s t := Relation.ReflTransGen.single h

/-- A property that every thing done keeps, all of them keep. -/
theorem keeps {P : State → State → Prop} (hr : ∀ s, P s s) (ht : ∀ {s t u}, P s t → P t u → P s u)
    (h : ∀ {s t}, WorkStep l s t → P s t) (w : Work l s t) : P s t := by
  induction w with
  | refl => exact hr _
  | tail _ b ih => exact ht ih (h b)

end Work

/-! ## What work leaves as it was -/

/-- The parts of the state that work on a line leaves: all other lines, the settings, condition, watch slots and lease of the line,
its queue and quota, the ports but for causes of the line, the clock and the queue of commands. -/
def WorkFrame (l : LineId) (s t : State) : Prop :=
  t.pending = s.pending ∧ t.timebase = s.timebase ∧ t.advancePhase = s.advancePhase ∧ t.freeIndex = s.freeIndex
    ∧ (∀ k, k ≠ l → t.line k = s.line k)
    ∧ (∀ p, ∃ cs, t.port p = { s.port p with causes := cs }
        ∧ cs.filter (fun c => decide (c.line ≠ l)) = (s.port p).causes.filter fun c => decide (c.line ≠ l))
    ∧ (t.line l).io = (s.line l).io ∧ (t.line l).cond = (s.line l).cond ∧ (t.line l).watch = (s.line l).watch
    ∧ (t.line l).att.leaseTimer = (s.line l).att.leaseTimer
    ∧ (t.line l).tx.queue = (s.line l).tx.queue ∧ (t.line l).tx.pause = (s.line l).tx.pause
    ∧ (t.line l).tx.drainMark = (s.line l).tx.drainMark ∧ (t.line l).tx.waiting = (s.line l).tx.waiting
    ∧ (t.line l).pool.reserve = (s.line l).pool.reserve ∧ (t.line l).pool.limit = (s.line l).pool.limit
    ∧ ((s.line l).cap.opened = none → (t.line l).cap.opened = none)

theorem filter_postCause (c : Cause) (cs : List Cause) (l : LineId) (h : c.line = l) :
    (postCause c cs).filter (fun c => decide (c.line ≠ l)) = cs.filter fun c => decide (c.line ≠ l) := by
  induction cs with
  | nil => simp [postCause, h]
  | cons d ds ih =>
    simp only [postCause]
    split
    · simp [List.filter_cons, h]
    · split
      · rfl
      · rw [List.filter_cons, ih, List.filter_cons]

theorem filter_dropCause (k : CauseKind) (cs : List Cause) (l : LineId) :
    (dropCause k l cs).filter (fun c => decide (c.line ≠ l)) = cs.filter fun c => decide (c.line ≠ l) := by
  simp only [dropCause, List.filter_filter]
  congr 1
  funext c
  by_cases h : c.line = l <;> simp [h]

theorem WorkFrame.of_port {l : LineId} (s : State) (p : PortId) (g : List Cause → List Cause)
    (h : ∀ cs, (g cs).filter (fun c => decide (c.line ≠ l)) = cs.filter fun c => decide (c.line ≠ l)) :
    WorkFrame l s (s.modPort p fun x => { x with causes := g x.causes }) := by
  refine ⟨rfl, rfl, rfl, rfl, fun _ _ => rfl, fun q => ?_, rfl, rfl, rfl, rfl, rfl, rfl, rfl, rfl, rfl, rfl, id⟩
  by_cases e : q = p
  · subst e
    exact ⟨g (s.port q).causes, by simp, h _⟩
  · exact ⟨(s.port q).causes, by simp [State.port_modPort_ne _ _ _ _ e], rfl⟩

theorem WorkFrame.of_line {l : LineId} (s : State) (n : List Nat) (f : Line → Line)
    (h1 : (f (s.line l)).io = (s.line l).io) (h2 : (f (s.line l)).cond = (s.line l).cond)
    (h3 : (f (s.line l)).watch = (s.line l).watch) (h4 : (f (s.line l)).att.leaseTimer = (s.line l).att.leaseTimer)
    (h5 : (f (s.line l)).tx.queue = (s.line l).tx.queue) (h6 : (f (s.line l)).tx.pause = (s.line l).tx.pause)
    (h7 : (f (s.line l)).tx.drainMark = (s.line l).tx.drainMark) (h8 : (f (s.line l)).tx.waiting = (s.line l).tx.waiting)
    (h9 : (f (s.line l)).pool.reserve = (s.line l).pool.reserve) (h10 : (f (s.line l)).pool.limit = (s.line l).pool.limit)
    (h11 : (s.line l).cap.opened = none → (f (s.line l)).cap.opened = none) :
    WorkFrame l s (({ s with freePages := n } : State).modLine l f) := by
  have e : (({ s with freePages := n } : State).modLine l f).line l = f (s.line l) := State.line_modLine_self _ _ _
  refine ⟨rfl, rfl, rfl, rfl, fun k hk => State.line_modLine_ne _ _ _ _ hk, fun q => ⟨_, rfl, rfl⟩, ?_⟩
  rw [e]
  exact ⟨h1, h2, h3, h4, h5, h6, h7, h8, h9, h10, h11⟩

theorem WorkStep.frame {l : LineId} {s t : State} (w : WorkStep l s t) : WorkFrame l s t := by
  cases w with
  | post p k d => exact WorkFrame.of_port s p _ fun cs => filter_postCause _ cs l rfl
  | unpost p k => exact WorkFrame.of_port s p _ fun cs => filter_dropCause k cs l
  | mark g h => exact WorkFrame.of_line s s.freePages _ rfl rfl rfl rfl rfl rfl rfl rfl rfl rfl id
  | quiet f h =>
    unfold Line.Quiet at h
    refine WorkFrame.of_line s s.freePages f ?_ ?_ ?_ ?_ ?_ ?_ ?_ ?_ ?_ ?_ ?_
    all_goals rw [h]
    exact id
  | give n rest ho hn hm hf => exact WorkFrame.of_line s rest _ rfl rfl rfl rfl rfl rfl rfl rfl rfl rfl id
  | recycle oldest rest ho hn hz hp => exact WorkFrame.of_line s s.freePages _ rfl rfl rfl rfl rfl rfl rfl rfl rfl rfl id
  | place kind cause detail body ho hp hr => exact WorkFrame.of_line s s.freePages _ rfl rfl rfl rfl rfl rfl rfl rfl rfl rfl id
  | close o cause detail ho => exact WorkFrame.of_line s s.freePages _ rfl rfl rfl rfl rfl rfl rfl rfl rfl rfl fun _ => rfl

theorem WorkFrame.refl (l : LineId) (s : State) : WorkFrame l s s :=
  ⟨rfl, rfl, rfl, rfl, fun _ _ => rfl, fun _ => ⟨_, rfl, rfl⟩, rfl, rfl, rfl, rfl, rfl, rfl, rfl, rfl, rfl, rfl, id⟩

theorem WorkFrame.trans {l : LineId} {s t u : State} (h : WorkFrame l s t) (k : WorkFrame l t u) : WorkFrame l s u := by
  obtain ⟨a1, a2, a3, a4, a5, a6, a7, a8, a9, a10, a11, a12, a13, a14, a15, a16, a17⟩ := h
  obtain ⟨b1, b2, b3, b4, b5, b6, b7, b8, b9, b10, b11, b12, b13, b14, b15, b16, b17⟩ := k
  refine ⟨b1.trans a1, b2.trans a2, b3.trans a3, b4.trans a4, fun k hk => (b5 k hk).trans (a5 k hk), fun p => ?_, b7.trans a7,
    b8.trans a8, b9.trans a9, b10.trans a10, b11.trans a11, b12.trans a12, b13.trans a13, b14.trans a14, b15.trans a15,
    b16.trans a16, fun e => b17 (a17 e)⟩
  obtain ⟨cs, e1, e2⟩ := a6 p
  obtain ⟨ds, f1, f2⟩ := b6 p
  rw [e1] at f1 f2
  exact ⟨ds, f1, f2.trans e2⟩

/-- Work on a line leaves everything that its frame names. -/
theorem Work.frame {l : LineId} {s t : State} (w : Work l s t) : WorkFrame l s t :=
  w.keeps (WorkFrame.refl l) WorkFrame.trans WorkStep.frame

theorem Work.opened {l : LineId} {s t : State} (w : Work l s t) (h : (s.line l).cap.opened = none) :
    (t.line l).cap.opened = none := w.frame.2.2.2.2.2.2.2.2.2.2.2.2.2.2.2.2 h

theorem Work.io {l : LineId} {s t : State} (w : Work l s t) : (t.line l).io = (s.line l).io := w.frame.2.2.2.2.2.2.1

end Sys2Proof.Machine
end

