-- ==== Sys2Proof/Laws/Operations.lean ====
section
/-! SUPPORT. One lemma for each operation of the pool manager, the capture unit and the hold evaluation: what it does is work on
its line. -/

namespace Sys2Proof.Machine

variable {l : LineId}

/-! ## Notices to the ports -/

/-- Work that leaves the log, the pool, the hold and the transmitter of the line, and the free list. -/
def Noted (l : LineId) (s t : State) : Prop :=
  Work l s t ∧ (t.line l).pool = (s.line l).pool ∧ (t.line l).cap = (s.line l).cap ∧ (t.line l).hold = (s.line l).hold
    ∧ (t.line l).tx = (s.line l).tx ∧ t.freePages = s.freePages

theorem Noted.refl (l : LineId) (s : State) : Noted l s s := ⟨Work.refl s, rfl, rfl, rfl, rfl, rfl⟩

theorem Noted.trans {s t u : State} (h : Noted l s t) (k : Noted l t u) : Noted l s u := by
  obtain ⟨a1, a2, a3, a4, a5, a6⟩ := h
  obtain ⟨b1, b2, b3, b4, b5, b6⟩ := k
  exact ⟨a1.trans b1, b2.trans a2, b3.trans a3, b4.trans a4, b5.trans a5, b6.trans a6⟩

theorem Noted.post (s : State) (p : PortId) (k : CauseKind) (d : Nat) : Noted l s (s.post p k l d) :=
  ⟨.one (.post s p k d), rfl, rfl, rfl, rfl, rfl⟩

theorem Noted.unpost (s : State) (p : PortId) (k : CauseKind) : Noted l s (s.unpost p k l) :=
  ⟨.one (.unpost s p k), rfl, rfl, rfl, rfl, rfl⟩

theorem Noted.modAttachment (s : State) (p : PortId) (g : Attachment → Attachment) (h : ∀ a : Attachment, a.Marked (g a)) :
    Noted l s (s.modAttachment l p g) := by
  refine ⟨.one (.mark s (fun a => if a.port = p then g a else a) fun a => ?_), ?_⟩
  · split
    · exact h a
    · exact ⟨rfl, rfl⟩
  · simp [State.modAttachment_eq]

theorem Noted.each (f : State → PortId → State) (h : ∀ s p, Noted l s (f s p)) (s : State) : Noted l s (eachPort f s) :=
  ((h s 0).trans (h _ 1)).trans (h _ 2)

theorem levelData_noted (s : State) (p : PortId) : Noted l s (levelData l s p) := by
  unfold levelData
  split
  · exact .refl l s
  · split
    · split
      · exact .post s p .data 0
      · exact .unpost s p .data
    · exact .refl l s
    · exact .refl l s

theorem completionData_noted (s : State) (p : PortId) : Noted l s (completionData l s p) := by
  unfold completionData
  split
  · exact .refl l s
  · rename_i a ha
    split
    · exact levelData_noted s p
    · split
      · refine (Noted.post s p .data 0).trans (.modAttachment _ p _ fun a => ⟨rfl, ?_⟩)
        cases a.mode <;> rfl
      · exact .refl l s
    · exact .refl l s
    · exact .refl l s

theorem overtakePort_noted (report : OldestReport) (s : State) (p : PortId) : Noted l s (overtakePort report l s p) := by
  unfold overtakePort
  split
  · exact .refl l s
  · split
    · have h := Noted.modAttachment (l := l) s p (fun x => { x with overtaken := true }) fun _ => ⟨rfl, rfl⟩
      exact (h.trans (.post _ p .overtaken 0)).trans (levelData_noted _ p)
    · exact levelData_noted s p

theorem reportOldest_noted (report : OldestReport) (s : State) : Noted l s (reportOldest report s l) :=
  .each _ (overtakePort_noted report) s

theorem reportAdvance_noted (old : Seq) (s : State) : Noted l s (reportAdvance old s l) := reportOldest_noted _ s

/-! ## Pages -/

/-- What an answer to a page request is: refused with nothing changed, or a fresh page at the newest end. -/
theorem requestPage_spec (s : State) (ho : (s.line l).cap.opened = none) (hn : (s.line l).needsPage) :
    Work l s (requestPage s l).1
      ∧ ((requestPage s l).2 = false → (requestPage s l).1 = s)
      ∧ ((requestPage s l).2 = true →
        ((requestPage s l).1.line l).pool.pages ≠ [] ∧ ((requestPage s l).1.line l).room = Config.payload) := by
  have recycled : ∀ (oldest : Page) (rest : List Page), (s.line l).pool.frozen = false → (s.line l).pool.pages = oldest :: rest →
      Work l s (recycle s l oldest rest) ∧ ((recycle s l oldest rest).line l).pool.pages ≠ []
        ∧ ((recycle s l oldest rest).line l).room = Config.payload := by
    intro oldest rest hz hp
    have hr := reportAdvance_noted (l := l) (s.line l).cap.oldest (recyclePage s l oldest rest)
    have hc : ((recyclePage s l oldest rest).line l).pool.pages = rest ++ [Page.fresh oldest.number] := by
      unfold recyclePage
      rw [State.line_modLine_self]
    unfold recycle
    refine ⟨(Work.one (.recycle s oldest rest ho hn hz hp)).trans hr.1, ?_, ?_⟩
    · rw [hr.2.1, hc]; simp
    · unfold Line.room
      rw [hr.2.1, hc]; simp [Page.fresh]
  unfold requestPage
  split
  · rename_i n rest hm hf
    have hc : ((giveFree s l n rest).line l).pool.pages = (s.line l).pool.pages ++ [Page.fresh n] := by
      unfold giveFree
      rw [State.line_modLine_self]
      rfl
    dsimp only
    refine ⟨Work.one (.give s n rest ho hn hm hf), fun e => absurd e (by decide), fun _ => ⟨?_, ?_⟩⟩
    · rw [hc]; simp
    · unfold Line.room
      rw [hc]; simp [Page.fresh]
  · split
    · exact ⟨.refl s, fun _ => rfl, fun e => Bool.noConfusion e⟩
    · split
      · exact ⟨.refl s, fun _ => rfl, fun e => Bool.noConfusion e⟩
      · rename_i hz _ oldest rest hp
        have h := recycled oldest rest (Bool.eq_false_iff.mpr hz) hp
        dsimp only
        exact ⟨h.1, fun e => absurd e (by decide), fun _ => h.2⟩

/-- What making sure of room does: nothing when there is none to be had, otherwise the room is there. -/
theorem ensureRoom_spec (s : State) (bytes : Nat) (hb : bytes ≤ Config.payload) (ho : (s.line l).cap.opened = none) :
    Work l s (ensureRoom s l bytes).1
      ∧ ((ensureRoom s l bytes).2 = false → (ensureRoom s l bytes).1 = s)
      ∧ ((ensureRoom s l bytes).2 = true →
        ((ensureRoom s l bytes).1.line l).pool.pages ≠ [] ∧ bytes ≤ ((ensureRoom s l bytes).1.line l).room) := by
  unfold ensureRoom
  split
  · rename_i h
    exact ⟨.refl s, by simp, fun _ => h⟩
  · rename_i h
    have hn : (s.line l).needsPage := by
      by_cases e : (s.line l).pool.pages = []
      · exact .inl e
      · exact .inr ⟨bytes, hb, by simpa [e] using h⟩
    obtain ⟨a, b, c⟩ := requestPage_spec s ho hn
    refine ⟨a, b, fun e => ⟨(c e).1, ?_⟩⟩
    rw [(c e).2]; exact hb

/-! ## Records -/

theorem quiet_pool (s : State) (f : Pool → Pool)
    (h : f (s.line l).pool = { (s.line l).pool with
      frozen := (f (s.line l).pool).frozen, freezePending := (f (s.line l).pool).freezePending
      discardedChars := (f (s.line l).pool).discardedChars, discardedEvents := (f (s.line l).pool).discardedEvents
      frozenDue := (f (s.line l).pool).frozenDue }) : Work l s (s.modPool l f) := by
  refine .one (.quiet s _ ?_)
  unfold Line.Quiet
  dsimp only
  rw [← h]

theorem quiet_hold (s : State) (f : Hold → Hold) : Work l s (s.modHold l f) := .one (.quiet s _ rfl)

theorem countRecord_work (s : State) : Work l s (s.modPool l Pool.countRecord) := by
  refine quiet_pool s _ ?_
  unfold Pool.countRecord
  split
  · rfl
  · split <;> rfl

theorem freezeAction_work (s : State) (v : Nat) : Work l s (s.modPool l (Pool.freezeAction v)) := by
  refine quiet_pool s _ ?_
  unfold Pool.freezeAction
  cases (s.line l).pool.frozen
  · rcases (s.line l).pool.freezePending with _ | c
    · by_cases h : v = 0 <;> simp [h]
    · by_cases h : min v c = 0 <;> simp [h]
  · simp

theorem reportComplete_work (s : State) : Work l s (reportComplete s l) :=
  (countRecord_work s).trans (Noted.each _ completionData_noted _).1

/-- A whole record written is work, given a line with no open record and a record that a page can hold; the discard is work too. -/
theorem writeRecord_work (s : State) (kind : RecordKind) (cause detail : Byte) (body : List Byte) (discard : State → State)
    (hb : Config.header + body.length ≤ Config.payload) (ho : (s.line l).cap.opened = none)
    (hd : ∀ t, Work l t (discard t)) : Work l s (writeRecord s l kind cause detail body discard) := by
  obtain ⟨a, _, c⟩ := ensureRoom_spec (l := l) s _ hb ho
  unfold writeRecord
  split
  · rename_i t e
    rw [e] at a c
    exact (a.trans (.one (.place t kind cause detail body (a.opened ho) (c rfl).1 (c rfl).2))).trans (reportComplete_work _)
  · rename_i t e
    rw [e] at a
    exact a.trans (hd t)

theorem discardChars_work (s : State) (n : Nat) : Work l s (discardChars s l n) := quiet_pool s _ rfl
theorem discardEvent_work (s : State) : Work l s (discardEvent s l) := quiet_pool s _ rfl

/-- A close is work, and no record is open after it. -/
theorem closeOpen_work (s : State) (cause : CloseCause) (detail : Byte) :
    Work l s (closeOpen s l cause detail) ∧ ((closeOpen s l cause detail).line l).cap.opened = none := by
  unfold closeOpen
  split
  · exact ⟨.refl s, ‹_›⟩
  · rename_i o ho
    have hc : Work l s (closeRecord s l o cause detail) := Work.one (.close s o cause detail ho)
    have ho' : ((closeRecord s l o cause detail).line l).cap.opened = none := by
      unfold closeRecord
      rw [State.line_modLine_self]
    exact ⟨hc.trans (reportComplete_work _), (reportComplete_work _).opened ho'⟩

theorem placeEvent_work (s : State) (e : Event) (argument : List Byte) (ha : argument.length ≤ 4)
    (ho : (s.line l).cap.opened = none) : Work l s (placeEvent s l e argument) :=
  writeRecord_work s _ _ _ _ _ (by simp only [Config.header, Config.payload]; omega) ho discardEvent_work

theorem groupEvent_work (s : State) (e : Event) (argument : List Byte) (ha : argument.length ≤ 4) :
    Work l s (groupEvent s l e argument) :=
  (closeOpen_work s _ _).1.trans (placeEvent_work _ e argument ha (closeOpen_work s _ _).2)

theorem flushFrozen_work (s : State) : Work l s (flushFrozen s l) := by
  unfold flushFrozen
  split
  · exact ((quiet_pool s _ rfl).trans (groupEvent_work _ _ _ (by simp))).trans (quiet_hold _ _)
  · exact .refl s

theorem plainEvent_work (s : State) (e : Event) (argument : List Byte) (ha : argument.length ≤ 4) :
    Work l s (plainEvent s l e argument) := by
  have h1 := closeOpen_work (l := l) s .event 0
  have h2 := flushFrozen_work (l := l) (closeOpen s l .event 0)
  exact ((h1.1.trans h2).trans (placeEvent_work _ e argument ha (h2.opened h1.2))).trans (flushFrozen_work _)

theorem writePieces_work (source : Byte) (pieces : List (List Byte)) :
    ∀ s : State, (∀ x ∈ pieces, Config.header + x.length ≤ Config.payload) → (s.line l).cap.opened = none →
      Work l s (writePieces l source pieces s) := by
  induction pieces with
  | nil => intro s _ _; exact .refl s
  | cons x xs ih =>
    intro s hx ho
    have h := writeRecord_work s .sent 0 source x (fun t => discardChars t l x.length) (hx x (by simp)) ho
      fun t => discardChars_work t _
    exact h.trans (ih _ (fun y hy => hx y (by simp [hy])) (h.opened ho))

theorem runPieces_length (k m : Nat) (run : List Byte) : ∀ x ∈ runPieces k m run, x.length ≤ m := by
  induction k generalizing run with
  | zero => simp [runPieces]
  | succ k ih =>
    cases run with
    | nil => simp [runPieces]
    | cons c cs =>
      intro x hx
      simp only [runPieces, List.mem_cons] at hx
      rcases hx with rfl | hx
      · simp
      · exact ih _ x hx

/-- The maximum record length in force is in its range (R42). -/
def Line.lengthOk (x : Line) : Prop := x.io.inForce.maxLength.toNat ≤ 236

theorem sentRecords_work (s : State) (source : Byte) (run : List Byte) (hm : (s.line l).lengthOk)
    (ho : (s.line l).cap.opened = none) : Work l s (sentRecords s l source run) := by
  refine writePieces_work source _ s (fun x hx => ?_) ho
  have := runPieces_length _ _ _ x hx
  simp only [Line.lengthOk] at hm
  simp only [Config.header, Config.payload]
  omega

theorem Line.lengthOk_of {s t : State} (w : Work l s t) (h : (s.line l).lengthOk) : (t.line l).lengthOk := by
  unfold Line.lengthOk at h ⊢
  rw [w.io]; exact h

theorem groupSent_work (s : State) (source : Byte) (run : List Byte) (hm : (s.line l).lengthOk) :
    Work l s (groupSent s l source run) := by
  unfold groupSent
  have h1 := closeOpen_work (l := l) s .sent 0
  split
  · exact h1.1.trans (sentRecords_work _ source run (Line.lengthOk_of h1.1 hm) h1.2)
  · exact .refl s

theorem plainSent_work (s : State) (source : Byte) (run : List Byte) (hm : (s.line l).lengthOk) :
    Work l s (plainSent s l source run) := by
  unfold plainSent
  have h1 := closeOpen_work (l := l) s .sent 0
  have h2 := flushFrozen_work (l := l) (closeOpen s l .sent 0)
  split
  · have h3 := sentRecords_work _ source run (Line.lengthOk_of (h1.1.trans h2) hm) (h2.opened h1.2)
    exact ((h1.1.trans h2).trans h3).trans (flushFrozen_work _)
  · exact .refl s

theorem closeAtCapacity_work (s : State) : Work l s (closeAtCapacity s l) := by
  unfold closeAtCapacity
  split
  · exact .refl s
  · split
    · exact (closeOpen_work s _ _).1
    · exact .refl s

/-! ## The hold -/

theorem placeFlow_work (s : State) (c : FlowChar) : Work l s (placeFlow s l c) := by
  unfold placeFlow
  split
  · exact .refl s
  · split
    · exact .one (.quiet s _ rfl)
    · exact .one (.quiet s _ rfl)

theorem leaveHold_work (s : State) (h : HoldState) : Work l s (leaveHold s l h) := quiet_hold s _

theorem evaluateHold_work (s : State) : Work l s (evaluateHold s l) := by
  unfold evaluateHold
  split
  · exact ((quiet_hold s _).trans (placeFlow_work _ _)).trans (plainEvent_work _ _ _ (by simp))
  · exact ((leaveHold_work s _).trans (placeFlow_work _ _)).trans (plainEvent_work _ _ _ (by simp))
  · exact leaveHold_work s _
  all_goals exact .refl s

theorem settleWithin_work (k : Nat) : ∀ s : State, Work l s (settleWithin k s l) := by
  induction k with
  | zero =>
    intro s
    unfold settleWithin clearMarks
    exact .one (.quiet s _ rfl)
  | succ k ih =>
    intro s
    unfold settleWithin
    dsimp only
    split
    · exact (((flushFrozen_work s).trans (quiet_hold _ _)).trans (evaluateHold_work _)).trans (ih _)
    · exact flushFrozen_work s

theorem settle_work (s : State) : Work l s (settle s l) := settleWithin_work 8 s

theorem askEvaluation_work (s : State) : Work l s (askEvaluation s l) := (quiet_hold s _).trans (settle_work _)

/-- An event record outside a group is work. -/
theorem event_work (s : State) (e : Event) (argument : List Byte) (ha : argument.length ≤ 4) : Work l s (event s l e argument) :=
  (plainEvent_work s e argument ha).trans (settle_work _)

end Sys2Proof.Machine
end

