-- ==== Sys2Proof/Laws/Edits.lean ====
section
/-! SUPPORT. Everything a command can do to the state, as one relation: the lines it may act on and the ports whose command block
it may write are its parameters. A proof about all commands goes by cases on the relation. -/

namespace Sys2Proof.Machine

/-- A line changed in anything but its log, its pages and quota, its attachments and its queue. -/
def Line.Apart (x y : Line) : Prop :=
  y.att.list = x.att.list ∧ y.tx.queue = x.tx.queue ∧ y.cap.oldest = x.cap.oldest ∧ y.cap.next = x.cap.next
    ∧ y.cap.opened = x.cap.opened ∧ y.pool.pages = x.pool.pages ∧ y.pool.reserve = x.pool.reserve
    ∧ y.pool.limit = x.pool.limit

/-- A line changed in anything but these and its settings. -/
def Line.Other (x y : Line) : Prop :=
  y.att.list = x.att.list ∧ y.tx.queue = x.tx.queue ∧ y.cap.oldest = x.cap.oldest ∧ y.cap.next = x.cap.next
    ∧ y.cap.opened = x.cap.opened ∧ y.pool.pages = x.pool.pages ∧ y.pool.reserve = x.pool.reserve
    ∧ y.pool.limit = x.pool.limit ∧ y.io.settings = x.io.settings ∧ y.io.inForce = x.io.inForce

/-- The pool of a line with a new reserve and limit. -/
def withQuota (s : State) (l : LineId) (reserve limit : Nat) : State :=
  s.modPool l fun x => { x with reserve := reserve, limit := limit }

/-- One thing that a command does: on the lines on, and in the command blocks of the ports own. -/
inductive Edit (on : LineId → Prop) (own : PortId → Prop) : State → State → Prop where
  | work {s t : State} (l : LineId) (hl : on l) (w : WorkStep l s t) : Edit on own s t
  | line (s : State) (l : LineId) (f : Line → Line) (hl : on l) (h : (s.line l).Other (f (s.line l))) :
      Edit on own s (s.modLine l f)
  | settings (s : State) (l : LineId) (f : Line → Line) (hl : on l) (h : (s.line l).Apart (f (s.line l)))
      (hr : (s.line l).io.inRange = true → (f (s.line l)).io.inRange = true) : Edit on own s (s.modLine l f)
  | enqueue (s : State) (l : LineId) (es : List Entry) (hl : on l) (h : es.length ≤ (s.line l).tx.free) :
      Edit on own s (s.modTx l fun x => { x with queue := x.queue ++ es })
  | dequeue (s : State) (l : LineId) (e : Entry) (rest : List Entry) (hl : on l) (h : (s.line l).tx.queue = e :: rest) :
      Edit on own s (s.modTx l fun x => { x with queue := rest })
  | clearQueue (s : State) (l : LineId) (hl : on l) : Edit on own s (s.modTx l fun x => { x with queue := [] })
  | join (s : State) (l : LineId) (a : Attachment) (hl : on l) (h : (s.line l).attachment a.port = none)
      (hr : a.role = .watcher) : Edit on own s (s.modAtt l fun x => { x with list := x.list ++ [a] })
  | leave (s : State) (l : LineId) (p : PortId) (hl : on l) :
      Edit on own s (s.modAtt l fun x => { x with list := x.list.filter fun a => !decide (a.port = p) })
  | adjust (s : State) (l : LineId) (g : Attachment → Attachment) (hl : on l)
      (h : ∀ a : Attachment, (g a).port = a.port ∧ (g a).role = a.role) :
      Edit on own s (s.modAtt l fun x => { x with list := x.list.map g })
  | demote (s : State) (l : LineId) (p : PortId) (hl : on l) : Edit on own s (setRole s l p .watcher)
  | promote (s : State) (l : LineId) (p : PortId) (hl : on l) (h : (s.line l).writer = none) :
      Edit on own s (setRole s l p .writer)
  | take (s : State) (l : LineId) (w p : PortId) (hl : on l) (h : (s.line l).writer = some w) :
      Edit on own s (setRole (setRole s l w .watcher) l p .writer)
  | opening (s : State) (l : LineId) (c : Byte) (hl : on l) (ho : (s.line l).cap.opened = none)
      (hp : (s.line l).pool.pages ≠ []) (hr : Config.header + 1 ≤ (s.line l).room) : Edit on own s (openRecord s l c)
  | append (s : State) (l : LineId) (o : OpenRecord) (c : Byte) (hl : on l) (ho : (s.line l).cap.opened = some o) :
      Edit on own s (appendCharacter s l o c)
  | quota (s : State) (l : LineId) (reserve limit : Nat) (hl : on l) (h : quotaError s l reserve limit = none) :
      Edit on own s
        (if (s.line l).held - limit = 0 then withQuota s l reserve limit
        else dropPages (withQuota s l reserve limit) l ((s.line l).held - limit))
  | clear (s : State) (l : LineId) (hl : on l) (ho : (s.line l).cap.opened = none) (hp : (s.line l).pool.pages ≠ []) :
      Edit on own s (dropPages s l (s.line l).held)
  | port (s : State) (p : PortId) (f : Port → Port) (hp : own p)
      (h : (f (s.port p)).causes = (s.port p).causes ∧ (f (s.port p)).precedence = (s.port p).precedence) :
      Edit on own s (s.modPort p f)
  | causes (s : State) (p : PortId) (cs : List Cause) (hp : own p) (h : cs.Sublist (s.port p).causes) :
      Edit on own s (s.modPort p fun x => { x with causes := cs })
  | spend (s : State) : Edit on own s { s with freeIndex := s.freeIndex + 1 }

/-- Everything that a command does. -/
def Edits (on : LineId → Prop) (own : PortId → Prop) : State → State → Prop := Relation.ReflTransGen (Edit on own)

namespace Edits

variable {on on' : LineId → Prop} {own own' : PortId → Prop} {s t u : State}

theorem refl (s : State) : Edits on own s s := Relation.ReflTransGen.refl
theorem trans (h : Edits on own s t) (k : Edits on own t u) : Edits on own s u := Relation.ReflTransGen.trans h k
theorem one (h : Edit on own s t) : Edits on own s t := Relation.ReflTransGen.single h

theorem work {l : LineId} (hl : on l) (w : Work l s t) : Edits on own s t := by
  induction w with
  | refl => exact refl _
  | tail _ b ih => exact ih.trans (one (.work l hl b))

/-- A property that every edit keeps, all of them keep. -/
theorem keeps {P : State → State → Prop} (hr : ∀ s, P s s) (ht : ∀ {s t u}, P s t → P t u → P s u)
    (h : ∀ {s t}, Edit on own s t → P s t) (w : Edits on own s t) : P s t := by
  induction w with
  | refl => exact hr _
  | tail _ b ih => exact ht ih (h b)

/-- An invariant that every edit keeps, all of them keep. -/
theorem invariant {P : State → Prop} (h : ∀ {s t}, Edit on own s t → P s → P t) (w : Edits on own s t) (hs : P s) : P t := by
  induction w with
  | refl => exact hs
  | tail _ b ih => exact h b ih

end Edits

variable {on : LineId → Prop} {own : PortId → Prop} {l : LineId}

/-! ## The transmit unit -/

theorem edits_line (s : State) (f : Line → Line) (hl : on l) (h : (s.line l).Other (f (s.line l))) :
    Edits on own s (s.modLine l f) := .one (.line s l f hl h)

theorem edits_port (s : State) (p : PortId) (f : Port → Port) (hp : own p)
    (h : (f (s.port p)).causes = (s.port p).causes ∧ (f (s.port p)).precedence = (s.port p).precedence) :
    Edits on own s (s.modPort p f) := .one (.port s p f hp h)

theorem edits_post (s : State) (p : PortId) (k : CauseKind) (d : Nat) (hl : on l) : Edits on own s (s.post p k l d) :=
  .one (.work l hl (.post s p k d))

theorem edits_unpost (s : State) (p : PortId) (k : CauseKind) (hl : on l) : Edits on own s (s.unpost p k l) :=
  .one (.work l hl (.unpost s p k))

/-- A change of the transmit unit that leaves the queue. -/
theorem edits_tx (s : State) (f : Transmit → Transmit) (hl : on l) (h : (f (s.line l).tx).queue = (s.line l).tx.queue) :
    Edits on own s (s.modTx l f) := edits_line s _ hl ⟨rfl, h, rfl, rfl, rfl, rfl, rfl, rfl, rfl, rfl⟩

theorem edits_hold (s : State) (f : Hold → Hold) (hl : on l) : Edits on own s (s.modHold l f) :=
  edits_line s _ hl ⟨rfl, rfl, rfl, rfl, rfl, rfl, rfl, rfl, rfl, rfl⟩

theorem edits_cond (s : State) (f : Condition → Condition) (hl : on l) : Edits on own s (s.modCond l f) :=
  edits_line s _ hl ⟨rfl, rfl, rfl, rfl, rfl, rfl, rfl, rfl, rfl, rfl⟩

theorem edits_io (s : State) (f : Interface → Interface) (hl : on l)
    (h : (f (s.line l).io).settings = (s.line l).io.settings ∧ (f (s.line l).io).inForce = (s.line l).io.inForce) :
    Edits on own s (s.modIo l f) :=
  edits_line s _ hl ⟨rfl, rfl, rfl, rfl, rfl, rfl, rfl, rfl, h.1, h.2⟩

/-- A change of settings that keeps them in range. -/
theorem edits_settings (s : State) (f : Interface → Interface) (hl : on l)
    (hr : (s.line l).io.inRange = true → (f (s.line l).io).inRange = true) : Edits on own s (s.modIo l f) :=
  .one (.settings s l _ hl ⟨rfl, rfl, rfl, rfl, rfl, rfl, rfl, rfl⟩ hr)

theorem refreshTransmitter_edits (s : State) (hl : on l) : Edits on own s (refreshTransmitter s l) := by
  refine edits_line s _ hl ?_
  dsimp only
  split <;> exact ⟨rfl, rfl, rfl, rfl, rfl, rfl, rfl, rfl, rfl, rfl⟩

theorem testDrain_edits (s : State) (hl : on l) : Edits on own s (testDrain s l) := by
  unfold testDrain
  split
  · exact (edits_post s _ _ _ hl).trans (edits_tx _ _ hl rfl)
  · exact .refl s

theorem startPoint_edits (s : State) (hl : on l) : Edits on own s (startPoint s l) := by
  unfold startPoint
  have h0 : Edits on own s (s.modLine l fun x => { x with tx := { x.tx with inUse := x.io.inForce.txUse } }) :=
    edits_line s _ hl ⟨rfl, rfl, rfl, rfl, rfl, rfl, rfl, rfl, rfl, rfl⟩
  have head : ∀ (e : Entry) (rest : List Entry) (state : TxState), (s.line l).tx.queue = e :: rest →
      Edits on own s ((s.modLine l fun x => { x with tx := { x.tx with inUse := x.io.inForce.txUse } }).modTx l fun x =>
        { x with queue := rest, state := state }) := by
    intro e rest state hq
    have h1 := Edits.one (Edit.dequeue (on := on) (own := own) s l e rest hl hq)
    have h2 := edits_line (on := on) (own := own) (s.modTx l fun x => { x with queue := rest })
      (fun x => { x with tx := { x.tx with inUse := x.io.inForce.txUse, state := state } }) hl
      ⟨rfl, rfl, rfl, rfl, rfl, rfl, rfl, rfl, rfl, rfl⟩
    simpa using h1.trans h2
  split
  · exact h0.trans (edits_tx _ _ hl rfl)
  · split
    · exact h0.trans (edits_tx _ _ hl rfl)
    · split
      · exact h0.trans (edits_tx _ _ hl rfl)
      · rename_i c rest hq
        exact (head _ rest _ hq).trans (testDrain_edits _ hl)
      · rename_i d p rest hq
        exact ((head _ rest _ hq).trans (testDrain_edits _ hl)).trans (.work hl (event_work _ _ _ (by simp [bytesLE])))

theorem kickTransmitter_edits (s : State) (hl : on l) : Edits on own s (kickTransmitter s l) := by
  unfold kickTransmitter
  split
  · exact startPoint_edits s hl
  · exact .refl s

theorem setPause_edits (s : State) (hl : on l) : Edits on own s (setPause s l) := edits_tx s _ hl rfl

theorem endPause_edits (s : State) (hl : on l) : Edits on own s (endPause s l) := by
  unfold endPause
  have h := edits_tx (on := on) (own := own) s (fun x => { x with pause := false }) hl rfl
  split
  · exact h.trans (startPoint_edits _ hl)
  · exact h

theorem restartLease_edits (s : State) (hl : on l) : Edits on own s (restartLease s l) :=
  edits_line s _ hl ⟨rfl, rfl, rfl, rfl, rfl, rfl, rfl, rfl, rfl, rfl⟩

theorem placeEntries_edits (s : State) (p : PortId) (es : List Entry) (hl : on l) (h : es.length ≤ (s.line l).tx.free) :
    Edits on own s (placeEntries s l p es) := by
  have h1 := Edits.one (Edit.enqueue (on := on) (own := own) s l es hl h)
  have h2 := edits_tx (on := on) (own := own) (s.modTx l fun x => { x with queue := x.queue ++ es })
    (fun x => { x with drainMark := some p }) hl rfl
  have h3 := h1.trans h2
  simp only [State.modTx_eq, State.modLine_modLine] at h3
  unfold placeEntries
  exact h3.trans (restartLease_edits _ hl)

theorem completeCommand_edits (s : State) (p : PortId) (r : Results) (hp : own p) : Edits on own s (completeCommand s p r) :=
  edits_port s p _ hp ⟨rfl, rfl⟩

theorem prepare_edits (s : State) (p : PortId) (r : Results) (hp : own p) : Edits on own s (prepare s p r) :=
  edits_port s p _ hp ⟨rfl, rfl⟩

/-- The port whose command waits on the line is one of the ports own. -/
def Line.waitingIn (own : PortId → Prop) (x : Line) : Prop := ∀ w, x.tx.waiting = some w → own w.port

theorem endWaiting_edits (s : State) (code : ErrorCode) (hl : on l) (hw : (s.line l).waitingIn own) :
    Edits on own s (endWaiting s l code) := by
  unfold endWaiting
  have h := edits_tx (on := on) (own := own) s (fun x => { x with waiting := none }) hl rfl
  split
  · exact .refl s
  · rename_i p r e
    exact h.trans (completeCommand_edits _ _ _ (hw _ e))
  · rename_i p d e
    exact h.trans (completeCommand_edits _ _ _ (hw _ e))

theorem placeRun_edits (s : State) (hl : on l) (hm : (s.line l).lengthOk) (hw : (s.line l).waitingIn own) :
    Edits on own s (placeRun s l) := by
  unfold placeRun
  split
  · rename_i p remaining e
    split
    · have hlen : ((remaining.take (s.line l).tx.free).map Entry.character).length ≤ (s.line l).tx.free := by simp
      have h1 := placeEntries_edits (on := on) (own := own) s p _ hl hlen
      have hm1 : ((placeEntries s l p ((remaining.take (s.line l).tx.free).map Entry.character)).line l).lengthOk := by
        simpa [placeEntries, restartLease, Line.lengthOk] using hm
      have h2 : Edits on own s (settle (plainSent (placeEntries s l p ((remaining.take (s.line l).tx.free).map Entry.character)) l
          (byteOf p.val) (remaining.take (s.line l).tx.free)) l) :=
        (h1.trans (.work hl (plainSent_work _ _ _ hm1))).trans (.work hl (settle_work _))
      dsimp only
      split
      · refine Edits.trans ?_ (kickTransmitter_edits _ hl)
        exact (h2.trans (edits_tx _ _ hl rfl)).trans (completeCommand_edits _ _ _ (hw _ e))
      · exact (h2.trans (edits_tx _ _ hl rfl)).trans (kickTransmitter_edits _ hl)
    · exact .refl s
  · exact .refl s
  · exact .refl s

theorem placeMarker_edits (s : State) (hl : on l) (hw : (s.line l).waitingIn own) : Edits on own s (placeMarker s l) := by
  unfold placeMarker
  split
  · rename_i p d e
    split
    · rename_i hf
      refine Edits.trans ?_ (kickTransmitter_edits _ hl)
      exact ((placeEntries_edits s p _ hl (by simpa using hf)).trans (edits_tx _ _ hl rfl)).trans
        (completeCommand_edits _ _ _ (hw _ e))
    · exact .refl s
  · exact .refl s
  · exact .refl s

theorem cutBreak_queue (x : Line) : (cutBreak x).queue = x.tx.queue := by
  unfold cutBreak
  cases x.tx.state <;> rfl

theorem emptyQueue_edits (s : State) (hl : on l) : Edits on own s (emptyQueue s l) := by
  have h1 := edits_line (on := on) (own := own) s (fun x => { x with tx := { cutBreak x with drainMark := none } }) hl
    ⟨rfl, cutBreak_queue _, rfl, rfl, rfl, rfl, rfl, rfl, rfl, rfl⟩
  have h2 := h1.trans (.one (.clearQueue _ l hl))
  simpa [emptyQueue] using h2

theorem resetTransmit_edits (s : State) (hl : on l) : Edits on own s (resetTransmit s l) := by
  have h : Edits on own s ((emptyQueue s l).modTx l fun x => { x with flowSlot := none, pause := false }) :=
    (emptyQueue_edits s hl).trans (edits_tx _ _ hl rfl)
  unfold resetTransmit
  dsimp only
  split <;> first | exact h.trans (startPoint_edits _ hl) | exact h

theorem dropDrainMark_edits (s : State) (hl : on l) : Edits on own s (dropDrainMark s l) := edits_tx s _ hl rfl

end Sys2Proof.Machine
end

