-- ==== Sys2Proof/Laws/Causes.lean ====
section
/-! SUPPORT. What the shared operations do to the causes that stand with what they tell (R160, R162, R164, R167): one lemma for each
operation of the pool manager, the capture unit, the hold evaluation and the transmitter. -/

namespace Sys2Proof.Machine

variable {s t : State} {l : LineId} {p q : PortId}

/-! ## Causes of a kind for a line -/

theorem Cause.rank_eq_iff (c d : Cause) : c.rank = d.rank ↔ c.kind = d.kind ∧ c.line = d.line := by
  constructor
  · intro h
    have hc := c.line.isLt
    have hd := d.line.isLt
    unfold Cause.rank at h
    have e : c.kind.code = d.kind.code := by omega
    refine ⟨?_, Fin.ext (by omega)⟩
    cases hk : c.kind <;> cases hj : d.kind <;> first | rfl | (rw [hk, hj] at e; exact absurd e (by decide))
  · rintro ⟨h1, h2⟩
    simp only [Cause.rank, h1, h2]

theorem any_postCause (c : Cause) (cs : List Cause) (k : CauseKind) (j : LineId) :
    ((postCause c cs).any fun d => decide (d.kind = k ∧ d.line = j))
      = (decide (c.kind = k ∧ c.line = j) || cs.any fun d => decide (d.kind = k ∧ d.line = j)) := by
  induction cs with
  | nil => simp [postCause]
  | cons e es ih =>
    simp only [postCause]
    split
    · simp
    · split
      · rename_i h
        obtain ⟨h1, h2⟩ := (Cause.rank_eq_iff _ _).mp h
        simp [h1, h2]
      · simp only [List.any_cons, ih]
        rw [Bool.or_left_comm]

theorem mem_postCause {c d : Cause} {cs : List Cause} (h : d ∈ postCause c cs) : d = c ∨ d ∈ cs := by
  induction cs with
  | nil => simpa [postCause] using h
  | cons e es ih =>
    simp only [postCause] at h
    split at h
    · simpa using h
    · split at h
      · exact .inr h
      · rcases List.mem_cons.mp h with rfl | h
        · simp
        · rcases ih h with rfl | h
          · simp
          · simp [h]

theorem Port.hasCause_post (x : Port) (c : Cause) (k : CauseKind) (j : LineId) :
    ({ x with causes := postCause c x.causes } : Port).hasCause k j = (decide (c.kind = k ∧ c.line = j) || x.hasCause k j) :=
  any_postCause c x.causes k j

theorem any_dropCause (cs : List Cause) (k' k : CauseKind) (i j : LineId) :
    ((dropCause k' i cs).any fun d => decide (d.kind = k ∧ d.line = j))
      = ((cs.any fun d => decide (d.kind = k ∧ d.line = j)) && !decide (k' = k ∧ i = j)) := by
  induction cs with
  | nil => simp [dropCause]
  | cons c cs ih =>
    simp only [dropCause, List.filter_cons] at ih ⊢
    by_cases h : c.kind = k' ∧ c.line = i
    · obtain ⟨rfl, rfl⟩ := h
      simp only [decide_true, Bool.and_self, Bool.not_true, Bool.false_eq_true, if_false, ih, List.any_cons]
      by_cases e : c.kind = k ∧ c.line = j <;> simp [e]
    · have hb : (decide (c.kind = k') && decide (c.line = i)) = false := by
        rw [← Bool.decide_and]; exact decide_eq_false h
      rw [hb]
      simp only [Bool.not_false, if_true, List.any_cons, ih]
      by_cases e : c.kind = k ∧ c.line = j
      · have : ¬ (k' = k ∧ i = j) := fun e' => h ⟨e.1.trans e'.1.symm, e.2.trans e'.2.symm⟩
        simp [e, this]
      · simp [e]

theorem Port.hasCause_drop (x : Port) (k' k : CauseKind) (i j : LineId) :
    ({ x with causes := dropCause k' i x.causes } : Port).hasCause k j = (x.hasCause k j && !decide (k' = k ∧ i = j)) :=
  any_dropCause x.causes k' k i j

theorem State.hasCause_post (s : State) (p : PortId) (k' : CauseKind) (d : Nat) (k : CauseKind) :
    ((s.post p k' l d).port p).hasCause k l = (decide (k' = k) || (s.port p).hasCause k l) := by
  simp only [State.post, State.port_modPort_self, Port.hasCause_post, and_true]

theorem State.hasCause_unpost (s : State) (p : PortId) (k' k : CauseKind) :
    ((s.unpost p k' l).port p).hasCause k l = ((s.port p).hasCause k l && !decide (k' = k)) := by
  simp only [State.unpost, State.port_modPort_self, Port.hasCause_drop, and_true]

/-! ## The attachment of a port -/

theorem find_map_port (as : List Attachment) (p q : PortId) (g : Attachment → Attachment) (hg : ∀ a : Attachment, (g a).port = a.port) :
    (as.map fun a => if a.port = p then g a else a).find? (fun a => decide (a.port = q))
      = if q = p then (as.find? fun a => decide (a.port = q)).map g else as.find? fun a => decide (a.port = q) := by
  induction as with
  | nil => simp
  | cons a as ih =>
    by_cases h1 : a.port = p <;> by_cases h2 : a.port = q <;> by_cases h3 : q = p <;> simp_all

theorem State.attachment_modAttachment (s : State) (l : LineId) (p q : PortId) (g : Attachment → Attachment)
    (hg : ∀ a : Attachment, (g a).port = a.port) :
    ((s.modAttachment l p g).line l).attachment q
      = if q = p then ((s.line l).attachment q).map g else (s.line l).attachment q := by
  simp only [State.modAttachment_eq, State.modAtt_eq, State.line_modLine_self, Line.attachment]
  exact find_map_port _ _ _ g hg

theorem State.attachment_modAttachment_self {s : State} {a : Attachment} (g : Attachment → Attachment)
    (hg : ∀ a : Attachment, (g a).port = a.port) (ha : (s.line l).attachment p = some a) :
    ((s.modAttachment l p g).line l).attachment p = some (g a) := by
  rw [State.attachment_modAttachment _ _ _ _ _ hg, if_pos rfl, ha, Option.map_some]

@[simp] theorem State.port_modAttachment (s : State) (l : LineId) (p q : PortId) (g : Attachment → Attachment) :
    (s.modAttachment l p g).port q = s.port q := rfl

/-! ## The causes of a line -/

/-- The causes of every port for a line agree with its attachment there. -/
structure CausesTold (s : State) (l : LineId) : Prop where
  agree : ∀ p, (s.line l).causesAgree l p (s.port p)

/-- The causes of a port for a line agree with its attachment there, but for the LEVEL DATA cause, which alone rests on the log. -/
def Line.marksAgree (ln : Line) (l : LineId) (p : PortId) (x : Port) : Prop :=
  match ln.attachment p with
  | none => ∀ c ∈ x.causes, c.line ≠ l
  | some a =>
    (x.hasCause .overtaken l = true ↔ a.overtaken = true)
      ∧ (x.hasCause .condition l = true ↔ a.conditionEnable = true ∧ a.latch ≠ 0)
      ∧ (a.mode = .none → x.hasCause .data l = false)

/-- Every port's causes for a line agree with its attachment there, but for LEVEL DATA causes. -/
structure MarksTold (s : State) (l : LineId) : Prop where
  agree : ∀ p, (s.line l).marksAgree l p (s.port p)

theorem Line.causesAgree_iff (ln : Line) (l : LineId) (p : PortId) (x : Port) :
    ln.causesAgree l p x ↔ ln.marksAgree l p x
      ∧ ∀ a k, ln.attachment p = some a → a.mode = .level k → (x.hasCause .data l = true ↔ k.toNat ≤ ln.unread a) := by
  unfold Line.causesAgree Line.marksAgree
  cases ln.attachment p with
  | none => simp
  | some a =>
    simp only [Option.some.injEq]
    constructor
    · rintro ⟨h1, h2, h3⟩
      refine ⟨⟨h1, h2, fun hm => by rw [hm] at h3; exact h3⟩, ?_⟩
      rintro a' k rfl hm
      rw [hm] at h3
      exact h3
    · rintro ⟨⟨h1, h2, h3⟩, h4⟩
      refine ⟨h1, h2, ?_⟩
      cases hm : a.mode with
      | none => exact h3 hm
      | first b => trivial
      | level k => exact h4 a k rfl hm

/-- The causes of a port with an attachment, but for LEVEL DATA. -/
theorem Line.marksAgree_some {ln : Line} {x : Port} {a : Attachment} (ha : ln.attachment p = some a) :
    ln.marksAgree l p x ↔ (x.hasCause .overtaken l = true ↔ a.overtaken = true)
      ∧ (x.hasCause .condition l = true ↔ a.conditionEnable = true ∧ a.latch ≠ 0) ∧ (a.mode = .none → x.hasCause .data l = false) := by
  unfold Line.marksAgree
  rw [ha]

/-- The causes of a port with an attachment. -/
theorem Line.causesAgree_some {ln : Line} {x : Port} {a : Attachment} (ha : ln.attachment p = some a) :
    ln.causesAgree l p x ↔ ln.marksAgree l p x ∧ ∀ k, a.mode = .level k → (x.hasCause .data l = true ↔ k.toNat ≤ ln.unread a) := by
  rw [Line.causesAgree_iff]
  refine and_congr_right fun _ => ⟨fun h k hm => h a k ha hm, fun h a' k e hm => ?_⟩
  rw [ha] at e
  cases e
  exact h k hm

/-- A port without an attachment has no LEVEL DATA cause to agree. -/
theorem Line.causesAgree_none {ln : Line} {x : Port} (ha : ln.attachment p = none) : ln.causesAgree l p x ↔ ln.marksAgree l p x := by
  rw [Line.causesAgree_iff]
  exact and_iff_left fun a k e => by rw [ha] at e; cases e

theorem CausesTold.marks (h : CausesTold s l) : MarksTold s l := ⟨fun p => ((Line.causesAgree_iff _ _ _ _).mp (h.agree p)).1⟩

/-- What the causes of a line rest on, but for the log: the attachments and the causes. -/
def SameMarks (l : LineId) (s t : State) : Prop :=
  (∀ p, (t.line l).attachment p = (s.line l).attachment p) ∧ ∀ p, (t.port p).causes = (s.port p).causes

theorem MarksTold.keep (h : MarksTold s l) (k : SameMarks l s t) : MarksTold t l := by
  refine ⟨fun p => ?_⟩
  have h := h.agree p
  unfold Line.marksAgree Port.hasCause at h ⊢
  rw [k.1 p, k.2 p]
  exact h

/-- A change that leaves the attachments, the causes, the closed records and the oldest number keeps what is told. -/
theorem CausesTold.keep (h : CausesTold s l) (k : SameMarks l s t) (hc : (t.line l).closed = (s.line l).closed)
    (ho : (t.line l).cap.oldest = (s.line l).cap.oldest) : CausesTold t l := by
  refine ⟨fun p => (Line.causesAgree_iff _ _ _ _).mpr ⟨(h.marks.keep k).agree p, fun a n ha hm => ?_⟩⟩
  rw [k.1 p] at ha
  have := ((Line.causesAgree_iff _ _ _ _).mp (h.agree p)).2 a n ha hm
  unfold Line.unread Line.unreadRecords Port.hasCause at this ⊢
  rw [k.2 p, hc, ho]
  exact this

/-- A change of one line in anything but its attachments. -/
theorem SameMarks.line (s : State) (f : Line → Line) (h : (f (s.line l)).att.list = (s.line l).att.list) :
    SameMarks l s (s.modLine l f) := by
  refine ⟨fun p => ?_, fun p => rfl⟩
  rw [State.line_modLine_self]
  unfold Line.attachment
  rw [h]

theorem CausesTold.line (h : CausesTold s l) (f : Line → Line) (h1 : (f (s.line l)).att.list = (s.line l).att.list)
    (h2 : (f (s.line l)).closed = (s.line l).closed) (h3 : (f (s.line l)).cap.oldest = (s.line l).cap.oldest) :
    CausesTold (s.modLine l f) l :=
  h.keep (.line s f h1) (by rw [State.line_modLine_self]; exact h2) (by rw [State.line_modLine_self]; exact h3)

theorem CausesTold.hold (h : CausesTold s l) (f : Hold → Hold) : CausesTold (s.modHold l f) l := h.line _ rfl rfl rfl
theorem CausesTold.tx (h : CausesTold s l) (f : Transmit → Transmit) : CausesTold (s.modTx l f) l := h.line _ rfl rfl rfl
theorem CausesTold.cond (h : CausesTold s l) (f : Condition → Condition) : CausesTold (s.modCond l f) l := h.line _ rfl rfl rfl
theorem CausesTold.io (h : CausesTold s l) (f : Interface → Interface) : CausesTold (s.modIo l f) l := h.line _ rfl rfl rfl

theorem CausesTold.pool (h : CausesTold s l) (f : Pool → Pool) (hf : ∀ x : Pool, (f x).pages = x.pages) :
    CausesTold (s.modPool l f) l := by
  refine h.line _ rfl ?_ rfl
  unfold Line.closed
  dsimp only
  rw [hf]

/-! ## One port after the other -/

/-- An action for a port of a line: other ports and their attachments stay, and so do the closed records and the oldest number. -/
def ForPort (l : LineId) (p : PortId) (s t : State) : Prop :=
  (∀ q, q ≠ p → t.port q = s.port q ∧ (t.line l).attachment q = (s.line l).attachment q)
    ∧ (t.line l).closed = (s.line l).closed ∧ (t.line l).cap.oldest = (s.line l).cap.oldest

theorem ForPort.refl (l : LineId) (p : PortId) (s : State) : ForPort l p s s := ⟨fun _ _ => ⟨rfl, rfl⟩, rfl, rfl⟩

theorem ForPort.trans {u : State} (h : ForPort l p s t) (k : ForPort l p t u) : ForPort l p s u :=
  ⟨fun q hq => ⟨(k.1 q hq).1.trans (h.1 q hq).1, (k.1 q hq).2.trans (h.1 q hq).2⟩, k.2.1.trans h.2.1, k.2.2.trans h.2.2⟩

theorem ForPort.post (s : State) (p : PortId) (k : CauseKind) (d : Nat) : ForPort l p s (s.post p k l d) :=
  ⟨fun _ hq => ⟨State.port_modPort_ne _ _ _ _ hq, rfl⟩, rfl, rfl⟩

theorem ForPort.unpost (s : State) (p : PortId) (k : CauseKind) : ForPort l p s (s.unpost p k l) :=
  ⟨fun _ hq => ⟨State.port_modPort_ne _ _ _ _ hq, rfl⟩, rfl, rfl⟩

theorem ForPort.modAttachment (s : State) (p : PortId) (g : Attachment → Attachment) (hg : ∀ a : Attachment, (g a).port = a.port) :
    ForPort l p s (s.modAttachment l p g) := by
  refine ⟨fun q hq => ⟨rfl, ?_⟩, ?_, ?_⟩
  · rw [State.attachment_modAttachment _ _ _ _ _ hg, if_neg hq]
  all_goals simp [State.modAttachment_eq, Line.closed]

theorem ForPort.marks_other (h : ForPort l p s t) (hq : q ≠ p) :
    (t.line l).marksAgree l q (t.port q) ↔ (s.line l).marksAgree l q (s.port q) := by
  unfold Line.marksAgree
  rw [(h.1 q hq).1, (h.1 q hq).2]

theorem ForPort.told_other (h : ForPort l p s t) (hq : q ≠ p) :
    (t.line l).causesAgree l q (t.port q) ↔ (s.line l).causesAgree l q (s.port q) := by
  rw [Line.causesAgree_iff, Line.causesAgree_iff, h.marks_other hq]
  unfold Line.unread Line.unreadRecords
  rw [(h.1 q hq).1, (h.1 q hq).2, h.2.1, h.2.2]

/-- An action that works out the causes of each port in turn leaves them told. -/
theorem eachPort_told (f : State → PortId → State) (h1 : ∀ s p, ForPort l p s (f s p))
    (h2 : ∀ s p, (s.line l).marksAgree l p (s.port p) → ((f s p).line l).causesAgree l p ((f s p).port p)) (h : MarksTold s l) :
    CausesTold (eachPort f s) l := by
  have marks : ∀ s p, (∀ q, (s.line l).marksAgree l q (s.port q)) → ∀ q, ((f s p).line l).marksAgree l q ((f s p).port q) := by
    intro s p h q
    by_cases e : q = p
    · subst e
      exact ((Line.causesAgree_iff _ _ _ _).mp (h2 s q (h q))).1
    · exact ((h1 s p).marks_other e).mpr (h q)
  have m0 := marks s 0 h.agree
  have m1 := marks _ 1 m0
  have a0 := h2 s 0 (h.agree 0)
  have a1 := h2 _ 1 (m0 1)
  have a2 := h2 _ 2 (m1 2)
  have c0 := ((h1 (f s 0) 1).told_other (q := 0) (by decide)).mpr a0
  refine ⟨fun p => ?_⟩
  have hp : p = 0 ∨ p = 1 ∨ p = 2 := by revert p; decide
  rcases hp with rfl | rfl | rfl
  · exact ((h1 (f (f s 0) 1) 2).told_other (by decide)).mpr c0
  · exact ((h1 (f (f s 0) 1) 2).told_other (by decide)).mpr a1
  · exact a2

/-- An action for each port that keeps what is told at its own port keeps what is told. -/
theorem eachPort_keeps (f : State → PortId → State) (h1 : ∀ s p, ForPort l p s (f s p))
    (h2 : ∀ s p, (s.line l).causesAgree l p (s.port p) → ((f s p).line l).causesAgree l p ((f s p).port p)) (h : CausesTold s l) :
    CausesTold (eachPort f s) l := by
  have one : ∀ s p, CausesTold s l → CausesTold (f s p) l := by
    refine fun s p h => ⟨fun q => ?_⟩
    by_cases e : q = p
    · subst e
      exact h2 s q (h.agree q)
    · exact ((h1 s p).told_other e).mpr (h.agree q)
  exact one _ 2 (one _ 1 (one _ 0 h))

theorem levelData_forPort (s : State) (p : PortId) : ForPort l p s (levelData l s p) := by
  unfold levelData
  split
  · exact .refl l p s
  · split
    · split
      · exact .post s p .data 0
      · exact .unpost s p .data
    · exact .refl l p s
    · exact .refl l p s

/-- A LEVEL DATA cause worked out again is right, whatever it was (R167). -/
theorem levelData_told (s : State) (p : PortId) (h : (s.line l).marksAgree l p (s.port p)) :
    ((levelData l s p).line l).causesAgree l p ((levelData l s p).port p) := by
  unfold levelData
  cases ha : (s.line l).attachment p with
  | none => exact (Line.causesAgree_none ha).mpr h
  | some a =>
    have hs := (Line.marksAgree_some ha).mp h
    cases hm : a.mode with
    | none =>
      simp only [hm]
      exact (Line.causesAgree_some ha).mpr ⟨h, fun k e => by rw [hm] at e; cases e⟩
    | first b =>
      simp only [hm]
      exact (Line.causesAgree_some ha).mpr ⟨h, fun k e => by rw [hm] at e; cases e⟩
    | level k =>
      simp only [hm] at hs ⊢
      split
      · rename_i hk
        refine (Line.causesAgree_some (ln := (s.post p .data l 0).line l) ha).mpr ⟨(Line.marksAgree_some ha).mpr ?_, fun j e => ?_⟩
        · simp only [State.hasCause_post, hm]
          exact ⟨by simpa using hs.1, by simpa using hs.2.1, fun e => by cases e⟩
        · rw [hm] at e
          cases e
          simp only [State.hasCause_post, decide_true, Bool.true_or, true_iff]
          exact hk
      · rename_i hk
        refine (Line.causesAgree_some (ln := (s.unpost p .data l).line l) ha).mpr ⟨(Line.marksAgree_some ha).mpr ?_, fun j e => ?_⟩
        · simp only [State.hasCause_unpost, hm]
          exact ⟨by simpa using hs.1, by simpa using hs.2.1, fun e => by cases e⟩
        · rw [hm] at e
          cases e
          simp only [State.hasCause_unpost, decide_true, Bool.not_true, Bool.and_false, Bool.false_eq_true, false_iff]
          exact hk

theorem modeKept_told {a : Attachment} (ha : (s.line l).attachment p = some a) (hm : ∀ k, a.mode ≠ .level k)
    (h : (s.line l).marksAgree l p (s.port p)) : (s.line l).causesAgree l p (s.port p) :=
  (Line.causesAgree_some ha).mpr ⟨h, fun k e => absurd e (hm k)⟩

theorem completionData_forPort (s : State) (p : PortId) : ForPort l p s (completionData l s p) := by
  unfold completionData
  split
  · exact .refl l p s
  · split
    · exact levelData_forPort s p
    · split
      · exact (ForPort.post s p .data 0).trans (.modAttachment _ p _ fun _ => rfl)
      · exact .refl l p s
    · exact .refl l p s
    · exact .refl l p s

/-- The DATA cause at a completion is right for the log as it then stands, whatever it was (R166, R167). -/
theorem completionData_told (s : State) (p : PortId) (h : (s.line l).marksAgree l p (s.port p)) :
    ((completionData l s p).line l).causesAgree l p ((completionData l s p).port p) := by
  unfold completionData
  cases ha : (s.line l).attachment p with
  | none => exact (Line.causesAgree_none ha).mpr h
  | some a =>
    cases hm : a.mode with
    | none => simp only [hm]; exact modeKept_told ha (by simp [hm]) h
    | level k => simp only [hm]; exact levelData_told s p h
    | first b =>
      cases b with
      | false => simp only [hm]; exact modeKept_told ha (by simp [hm]) h
      | true =>
        simp only [hm]
        split
        · have hs := (Line.marksAgree_some ha).mp h
          have ha' : (((s.post p .data l 0).modAttachment l p fun x => { x with mode := x.mode.disarmed }).line l).attachment p
              = some { a with mode := a.mode.disarmed } :=
            State.attachment_modAttachment_self (s := s.post p .data l 0) (fun x => { x with mode := x.mode.disarmed }) (fun _ => rfl) ha
          refine modeKept_told ha' (by simp [hm, Mode.disarmed]) ((Line.marksAgree_some ha').mpr ?_)
          simp only [State.port_modAttachment, State.hasCause_post]
          exact ⟨by simpa using hs.1, by simpa using hs.2.1, fun e => by rw [hm] at e; cases e⟩
        · exact modeKept_told ha (by simp [hm]) h

theorem overtakePort_forPort (report : OldestReport) (s : State) (p : PortId) : ForPort l p s (overtakePort report l s p) := by
  unfold overtakePort
  split
  · exact .refl l p s
  · split
    · have h := ForPort.modAttachment (l := l) s p (fun x => { x with overtaken := true }) fun _ => rfl
      exact (h.trans (.post _ p .overtaken 0)).trans (levelData_forPort _ p)
    · exact levelData_forPort s p

/-- The causes of a port after a report of a new oldest number are right (R114, R162, R167). -/
theorem overtakePort_told (report : OldestReport) (s : State) (p : PortId) (h : (s.line l).marksAgree l p (s.port p)) :
    ((overtakePort report l s p).line l).causesAgree l p ((overtakePort report l s p).port p) := by
  unfold overtakePort
  cases ha : (s.line l).attachment p with
  | none => exact (Line.causesAgree_none ha).mpr h
  | some a =>
    simp only
    split
    · refine levelData_told _ p ?_
      have hs := (Line.marksAgree_some ha).mp h
      have ha' : (((s.modAttachment l p fun x => { x with overtaken := true }).post p .overtaken l 0).line l).attachment p
          = some { a with overtaken := true } :=
        State.attachment_modAttachment_self (fun x => { x with overtaken := true }) (fun _ => rfl) ha
      refine (Line.marksAgree_some ha').mpr ?_
      simp only [State.hasCause_post, State.port_modAttachment]
      exact ⟨by simp, by simpa using hs.2.1, by simpa using hs.2.2⟩
    · exact levelData_told s p h

/-- After a report of a new oldest number the causes are right, whatever the log was before (R28, R114). -/
theorem reportOldest_told (report : OldestReport) (h : MarksTold s l) : CausesTold (reportOldest report s l) l :=
  eachPort_told _ (overtakePort_forPort report) (overtakePort_told report) h

theorem reportAdvance_told (old : Seq) (h : MarksTold s l) : CausesTold (reportAdvance old s l) l := reportOldest_told _ h

/-- After the report of a completed record the causes are right, whatever the log was before (R13, R166, R167). -/
theorem reportComplete_told (h : MarksTold s l) : CausesTold (reportComplete s l) l :=
  eachPort_told _ completionData_forPort completionData_told (h.keep (.line s _ rfl))

/-! ## Pages and records -/

theorem recyclePage_marks (s : State) (oldest : Page) (rest : List Page) : SameMarks l s (recyclePage s l oldest rest) := by
  unfold recyclePage
  exact .line s _ rfl

theorem placeRecord_marks (s : State) (kind : RecordKind) (cause detail : Byte) (body : List Byte) :
    SameMarks l s (placeRecord s l kind cause detail body) := by
  unfold placeRecord
  exact .line s _ rfl

theorem closeRecord_marks (s : State) (o : OpenRecord) (cause : CloseCause) (detail : Byte) :
    SameMarks l s (closeRecord s l o cause detail) := by
  unfold closeRecord
  exact .line s _ rfl

theorem requestPage_told (h : CausesTold s l) : CausesTold (requestPage s l).1 l := by
  unfold requestPage
  split
  · have e : ∀ rest : List Nat, ({ s with freePages := rest } : State).line l = s.line l := fun _ => rfl
    refine h.keep ⟨fun p => ?_, fun _ => rfl⟩ ?_ ?_
    all_goals simp only [giveFree, State.line_modLine_self, e]
    · rfl
    · simp [Line.closed, Page.fresh]
  · split
    · exact h
    · split
      · exact h
      · dsimp only
        unfold recycle
        exact reportAdvance_told _ (h.marks.keep (recyclePage_marks s _ _))

theorem ensureRoom_told (bytes : Nat) (h : CausesTold s l) : CausesTold (ensureRoom s l bytes).1 l := by
  unfold ensureRoom
  split
  · exact h
  · exact requestPage_told h

theorem releasePages_told (count : Nat) (h : CausesTold s l) : CausesTold (releasePages s l count) l := by
  unfold releasePages
  split
  · exact h
  · refine reportAdvance_told _ (h.marks.keep ⟨fun p => ?_, fun _ => rfl⟩)
    simp only [dropPages, State.line_modLine_self]
    rfl

theorem writeRecord_told (kind : RecordKind) (cause detail : Byte) (body : List Byte) (discard : State → State)
    (hd : ∀ t, CausesTold t l → CausesTold (discard t) l) (h : CausesTold s l) :
    CausesTold (writeRecord s l kind cause detail body discard) l := by
  have hr := ensureRoom_told (Config.header + body.length) h
  unfold writeRecord
  split
  · rename_i t e
    rw [e] at hr
    dsimp only at hr
    exact reportComplete_told (hr.marks.keep (placeRecord_marks t _ _ _ _))
  · rename_i t e
    rw [e] at hr
    dsimp only at hr
    exact hd t hr

theorem discardChars_told (n : Nat) (h : CausesTold s l) : CausesTold (discardChars s l n) l := h.pool _ fun _ => rfl

theorem discardEvent_told (h : CausesTold s l) : CausesTold (discardEvent s l) l := h.pool _ fun _ => rfl

theorem closeOpen_told (cause : CloseCause) (detail : Byte) (h : CausesTold s l) : CausesTold (closeOpen s l cause detail) l := by
  unfold closeOpen
  split
  · exact h
  · exact reportComplete_told (h.marks.keep (closeRecord_marks s _ _ _))

theorem placeEvent_told (e : Event) (argument : List Byte) (h : CausesTold s l) : CausesTold (placeEvent s l e argument) l :=
  writeRecord_told _ _ _ _ _ (fun _ => discardEvent_told) h

theorem groupEvent_told (e : Event) (argument : List Byte) (h : CausesTold s l) : CausesTold (groupEvent s l e argument) l :=
  placeEvent_told e argument (closeOpen_told _ _ h)

theorem flushFrozen_told (h : CausesTold s l) : CausesTold (flushFrozen s l) l := by
  unfold flushFrozen
  split
  · refine CausesTold.hold (groupEvent_told _ _ ?_) _
    exact h.pool _ fun _ => rfl
  · exact h

theorem plainEvent_told (e : Event) (argument : List Byte) (h : CausesTold s l) : CausesTold (plainEvent s l e argument) l :=
  flushFrozen_told (placeEvent_told e argument (flushFrozen_told (closeOpen_told _ _ h)))

theorem writePieces_told (source : Byte) (pieces : List (List Byte)) :
    ∀ s : State, CausesTold s l → CausesTold (writePieces l source pieces s) l := by
  induction pieces with
  | nil => exact fun _ h => h
  | cons x xs ih => exact fun s h => ih _ (writeRecord_told _ _ _ _ _ (fun _ => discardChars_told _) h)

theorem groupSent_told (source : Byte) (run : List Byte) (h : CausesTold s l) : CausesTold (groupSent s l source run) l := by
  unfold groupSent
  split
  · exact writePieces_told _ _ _ (closeOpen_told _ _ h)
  · exact h

theorem plainSent_told (source : Byte) (run : List Byte) (h : CausesTold s l) : CausesTold (plainSent s l source run) l := by
  unfold plainSent
  split
  · exact flushFrozen_told (writePieces_told _ _ _ (flushFrozen_told (closeOpen_told _ _ h)))
  · exact h

theorem closeAtCapacity_told (h : CausesTold s l) : CausesTold (closeAtCapacity s l) l := by
  unfold closeAtCapacity
  split
  · exact h
  · split
    · exact closeOpen_told _ _ h
    · exact h

/-- A change of the newest page that keeps the records on it keeps the closed records. -/
theorem records_onCurrentPage (f : Page → Page) (hf : ∀ pg : Page, (f pg).records = pg.records) (pages : List Page) :
    (onCurrentPage f pages).flatMap (·.records) = pages.flatMap (·.records) := by
  induction pages with
  | nil => rfl
  | cons pg pgs ih =>
    cases pgs with
    | nil => simp [onCurrentPage, hf]
    | cons pg' pgs => simp only [onCurrentPage, List.flatMap_cons] at ih ⊢; rw [ih]

theorem openRecord_told (c : Byte) (h : CausesTold s l) : CausesTold (openRecord s l c) l := by
  unfold openRecord
  refine h.line _ rfl ?_ rfl
  exact records_onCurrentPage (Page.take (s.line l).cap.next (Config.header + 1)) (fun _ => rfl) (s.line l).pool.pages

theorem appendCharacter_told (o : OpenRecord) (c : Byte) (h : CausesTold s l) : CausesTold (appendCharacter s l o c) l := by
  unfold appendCharacter
  refine h.line _ rfl ?_ rfl
  exact records_onCurrentPage (fun pg => { pg with occupied := pg.occupied + 1 }) (fun _ => rfl) (s.line l).pool.pages

theorem placeCharacter_told (c : Byte) (h : CausesTold s l) : CausesTold (placeCharacter s l c).1 l := by
  have hr := ensureRoom_told (Config.header + 1) h
  unfold placeCharacter
  split
  · exact appendCharacter_told _ c h
  · split
    · rename_i t e
      rw [e] at hr
      dsimp only at hr ⊢
      exact openRecord_told c hr
    · rename_i t e
      rw [e] at hr
      dsimp only at hr ⊢
      exact discardChars_told _ hr

theorem resetWatch_told (h : CausesTold s l) : CausesTold (resetWatch s l) l := by
  unfold resetWatch
  exact h.line _ rfl rfl rfl

theorem captureErrored_told (r : Received) (h : CausesTold s l) : CausesTold (captureErrored s l r) l := by
  unfold captureErrored
  exact resetWatch_told (flushFrozen_told (writeRecord_told _ _ _ _ _ (fun _ => discardChars_told _) (closeOpen_told _ _ h)))

/-! ## The hold and condition events -/

theorem placeFlow_told (c : FlowChar) (h : CausesTold s l) : CausesTold (placeFlow s l c) l := by
  unfold placeFlow
  split
  · exact h
  · split
    · exact h.line _ rfl rfl rfl
    · exact h.tx _

theorem evaluateHold_told (h : CausesTold s l) : CausesTold (evaluateHold s l) l := by
  unfold evaluateHold
  split
  · exact plainEvent_told _ _ (placeFlow_told _ (h.hold _))
  · exact plainEvent_told _ _ (placeFlow_told _ (h.hold _))
  · exact h.hold _
  all_goals exact h

theorem settleWithin_told (k : Nat) : ∀ s : State, CausesTold s l → CausesTold (settleWithin k s l) l := by
  induction k with
  | zero =>
    intro s h
    unfold settleWithin clearMarks
    exact h.line _ rfl rfl rfl
  | succ k ih =>
    intro s h
    unfold settleWithin
    dsimp only
    split
    · exact ih _ (evaluateHold_told ((flushFrozen_told h).hold _))
    · exact flushFrozen_told h

theorem settle_told (h : CausesTold s l) : CausesTold (settle s l) l := settleWithin_told 8 s h

theorem askEvaluation_told (h : CausesTold s l) : CausesTold (askEvaluation s l) l := settle_told (h.hold _)

theorem event_told (e : Event) (argument : List Byte) (h : CausesTold s l) : CausesTold (event s l e argument) l :=
  settle_told (plainEvent_told e argument h)

theorem latchEvent_forPort (e : CondEvent) (s : State) (p : PortId) : ForPort l p s (latchEvent e l s p) := by
  unfold latchEvent
  split
  · exact .refl l p s
  · dsimp only
    have h := ForPort.modAttachment (l := l) s p (fun x => { x with latch := x.latch ||| e.bit }) fun _ => rfl
    split
    · exact h.trans (.post _ p .condition 0)
    · exact h

theorem CondEvent.latch_or_ne (x : BitVec 7) (e : CondEvent) : x ||| e.bit ≠ 0 := by
  revert x
  cases e <;> decide

/-- A condition event latched keeps what is told: CONDITION is pending where it is enabled, and the latch is not empty (R83, R164). -/
theorem latchEvent_told (e : CondEvent) (s : State) (p : PortId) (h : (s.line l).causesAgree l p (s.port p)) :
    ((latchEvent e l s p).line l).causesAgree l p ((latchEvent e l s p).port p) := by
  unfold latchEvent
  cases ha : (s.line l).attachment p with
  | none => exact h
  | some a =>
    obtain ⟨hm, hd⟩ := (Line.causesAgree_some ha).mp h
    have hs := (Line.marksAgree_some ha).mp hm
    have f := ForPort.modAttachment (l := l) s p (fun x => { x with latch := x.latch ||| e.bit }) fun _ => rfl
    have ha' : ((s.modAttachment l p fun x => { x with latch := x.latch ||| e.bit }).line l).attachment p
        = some { a with latch := a.latch ||| e.bit } :=
      State.attachment_modAttachment_self (fun x => { x with latch := x.latch ||| e.bit }) (fun _ => rfl) ha
    have hu : ((s.modAttachment l p fun x => { x with latch := x.latch ||| e.bit }).line l).unread { a with latch := a.latch ||| e.bit }
        = (s.line l).unread a := by
      unfold Line.unread Line.unreadRecords
      rw [f.2.1, f.2.2]
    dsimp only
    split
    · rename_i hc
      refine (Line.causesAgree_some (ln := ((s.modAttachment l p _).post p .condition l 0).line l) ha').mpr
        ⟨(Line.marksAgree_some ha').mpr ?_, fun k hk => ?_⟩
      · simp only [State.hasCause_post, State.port_modAttachment]
        exact ⟨by simpa using hs.1, by simp only [decide_true, Bool.true_or, true_iff]; exact ⟨hc, e.latch_or_ne _⟩,
          by simpa using hs.2.2⟩
      · simp only [State.hasCause_post, State.port_modAttachment, State.line_post, hu]
        simpa using hd k hk
    · rename_i hc
      refine (Line.causesAgree_some ha').mpr ⟨(Line.marksAgree_some ha').mpr ?_, fun k hk => ?_⟩
      · simp only [State.port_modAttachment]
        refine ⟨hs.1, hs.2.1.trans ?_, hs.2.2⟩
        simp [hc]
      · rw [State.port_modAttachment, hu]
        exact hd k hk

theorem conditionEvent_told (e : CondEvent) (argument : List Byte) (h : CausesTold s l) :
    CausesTold (conditionEvent s l e argument) l :=
  event_told _ _ (eachPort_keeps _ (latchEvent_forPort e) (latchEvent_told e) h)

theorem groupCondition_told (e : CondEvent) (argument : List Byte) (h : CausesTold s l) :
    CausesTold (groupCondition s l e argument) l :=
  groupEvent_told _ _ (eachPort_keeps _ (latchEvent_forPort e) (latchEvent_told e) h)

/-! ## The transmitter -/

/-- A cause that tells of something past, posted at a port with an attachment, keeps what is told (R163, R166, R168). -/
theorem post_told (k : CauseKind) (d : Nat) (hk : k = .writeLost ∨ k = .watch ∨ k = .drained) (ha : (s.line l).attachment p ≠ none)
    (h : CausesTold s l) : CausesTold (s.post p k l d) l := by
  have f := ForPort.post (l := l) s p k d
  refine ⟨fun q => ?_⟩
  by_cases e : q = p
  · subst e
    obtain ⟨a, ha⟩ := Option.ne_none_iff_exists'.mp ha
    obtain ⟨hm, hd⟩ := (Line.causesAgree_some ha).mp (h.agree q)
    have hs := (Line.marksAgree_some ha).mp hm
    refine (Line.causesAgree_some (ln := (s.post q k l d).line l) ha).mpr ⟨(Line.marksAgree_some ha).mpr ?_, fun j hj => ?_⟩
    · simp only [State.hasCause_post]
      rcases hk with rfl | rfl | rfl <;> exact ⟨by simpa using hs.1, by simpa using hs.2.1, by simpa using hs.2.2⟩
    · simp only [State.hasCause_post]
      rcases hk with rfl | rfl | rfl <;> simpa using hd j hj
  · exact (f.told_other e).mpr (h.agree q)

/-- The drain mark of a line holds its writer or no port (R147). -/
def DrainHeld (s : State) (l : LineId) : Prop := ∀ p, (s.line l).tx.drainMark = some p → (s.line l).writer = some p

/-- The writer of a line has an attachment there. -/
theorem Line.attachment_of_writer {ln : Line} (h : ln.writer = some p) : ln.attachment p ≠ none := by
  obtain ⟨a, ha, rfl⟩ := Option.map_eq_some_iff.mp h
  have hm := List.mem_of_find?_eq_some ha
  unfold Line.attachment
  rw [ne_eq, List.find?_eq_none, not_forall]
  exact ⟨a, by simp [hm]⟩

theorem testDrain_told (hd : DrainHeld s l) (h : CausesTold s l) : CausesTold (testDrain s l) l := by
  unfold testDrain
  split
  · rename_i p _ e
    exact (post_told _ _ (.inr (.inr rfl)) (Line.attachment_of_writer (hd p e)) h).tx _
  · exact h

theorem startPoint_told (hd : DrainHeld s l) (h : CausesTold s l) : CausesTold (startPoint s l) l := by
  have h0 : CausesTold (s.modLine l fun x => { x with tx := { x.tx with inUse := x.io.inForce.txUse } }) l := h.line _ rfl rfl rfl
  have taken : ∀ (rest : List Entry) (state : TxState),
      CausesTold (testDrain ((s.modLine l fun x => { x with tx := { x.tx with inUse := x.io.inForce.txUse } }).modTx l fun x =>
        { x with queue := rest, state := state }) l) l := by
    intro rest state
    refine testDrain_told (fun p hp => ?_) (h0.tx _)
    simp only [State.modTx_eq, State.modLine_modLine, State.line_modLine_self] at hp ⊢
    exact hd p hp
  unfold startPoint
  dsimp only
  split
  · exact h0.tx _
  · split
    · exact h0.tx _
    · split
      · exact h0.tx _
      · exact taken _ _
      · exact event_told _ _ (taken _ _)

theorem kickTransmitter_told (hd : DrainHeld s l) (h : CausesTold s l) : CausesTold (kickTransmitter s l) l := by
  unfold kickTransmitter
  split
  · exact startPoint_told hd h
  · exact h

theorem endPause_told (hd : DrainHeld s l) (h : CausesTold s l) : CausesTold (endPause s l) l := by
  unfold endPause
  dsimp only
  split
  · refine startPoint_told (fun p hp => ?_) (h.tx _)
    simp only [State.modTx_eq, State.line_modLine_self] at hp ⊢
    exact hd p hp
  · exact h.tx _

/-- Causes of other lines are told as they were after work on a line. -/
theorem Work.told_other {k : LineId} (w : Work l s t) (hk : k ≠ l) (h : CausesTold s k) : CausesTold t k := by
  obtain ⟨_, _, _, _, hl, hp, _⟩ := w.frame
  refine ⟨fun p => ?_⟩
  obtain ⟨cs, e, hf⟩ := hp p
  have has : ∀ c, (t.port p).hasCause c k = (s.port p).hasCause c k := by
    intro c
    have e1 : ∀ xs : List Cause, (xs.any fun d => decide (d.kind = c ∧ d.line = k))
        = ((xs.filter fun d => decide (d.line ≠ l)).any fun d => decide (d.kind = c ∧ d.line = k)) := by
      intro xs
      rw [List.any_filter]
      congr 1
      funext d
      by_cases h1 : d.line = k
      · subst h1; simp [hk]
      · simp [h1]
    unfold Port.hasCause
    rw [e]
    dsimp only
    rw [e1 cs, hf, ← e1]
  have mem : (∀ c ∈ (t.port p).causes, c.line ≠ k) ↔ ∀ c ∈ (s.port p).causes, c.line ≠ k := by
    have e2 : ∀ xs : List Cause, (∀ c ∈ xs, c.line ≠ k) ↔ ∀ c ∈ xs.filter (fun d => decide (d.line ≠ l)), c.line ≠ k := by
      intro xs
      refine ⟨fun h c hc => h c (List.mem_filter.mp hc).1, fun h c hc hck => h c (List.mem_filter.mpr ⟨hc, ?_⟩) hck⟩
      rw [hck]; exact decide_eq_true hk
    rw [e]
    dsimp only
    rw [e2 cs, hf, ← e2]
  have h := h.agree p
  unfold Line.causesAgree at h ⊢
  simp only [has, mem, hl k hk]
  exact h

end Sys2Proof.Machine
end

