-- ==== Sys2Proof/Laws/Commands.lean ====
section
/-! SUPPORT. One lemma for each operation above the transmit unit, up to exec: what it does is edits of the lines and ports it is
given. -/

namespace Sys2Proof.Machine

variable {on : LineId → Prop} {own : PortId → Prop} {l : LineId}

/-! ## Attachments and causes -/

theorem modAttachment_edits (s : State) (p : PortId) (g : Attachment → Attachment) (hl : on l)
    (h : ∀ a : Attachment, (g a).port = a.port ∧ (g a).role = a.role) : Edits on own s (s.modAttachment l p g) := by
  refine .one (.adjust s l (fun a => if a.port = p then g a else a) hl fun a => ?_)
  split
  · exact h a
  · exact ⟨rfl, rfl⟩

theorem each_edits (f : State → PortId → State) (h : ∀ s p, Edits on own s (f s p)) (s : State) :
    Edits on own s (eachPort f s) := ((h s 0).trans (h _ 1)).trans (h _ 2)

theorem latchEvent_edits (e : CondEvent) (s : State) (p : PortId) (hl : on l) : Edits on own s (latchEvent e l s p) := by
  unfold latchEvent
  split
  · exact .refl s
  · have h := modAttachment_edits (on := on) (own := own) s p (fun x => { x with latch := x.latch ||| e.bit }) hl
      fun _ => ⟨rfl, rfl⟩
    dsimp only
    split
    · exact h.trans (edits_post _ _ _ _ hl)
    · exact h

theorem event_edits (s : State) (e : Event) (argument : List Byte) (ha : argument.length ≤ 4) (hl : on l) :
    Edits on own s (event s l e argument) := .work hl (event_work s e argument ha)

theorem groupEvent_edits (s : State) (e : Event) (argument : List Byte) (ha : argument.length ≤ 4) (hl : on l) :
    Edits on own s (groupEvent s l e argument) := .work hl (groupEvent_work s e argument ha)

theorem settle_edits (s : State) (hl : on l) : Edits on own s (settle s l) := .work hl (settle_work s)

theorem askEvaluation_edits (s : State) (hl : on l) : Edits on own s (askEvaluation s l) := .work hl (askEvaluation_work s)

theorem conditionEvent_edits (s : State) (e : CondEvent) (argument : List Byte) (ha : argument.length ≤ 4) (hl : on l) :
    Edits on own s (conditionEvent s l e argument) :=
  (each_edits _ (fun t p => latchEvent_edits e t p hl) s).trans (event_edits _ _ _ ha hl)

theorem groupCondition_edits (s : State) (e : CondEvent) (argument : List Byte) (ha : argument.length ≤ 4) (hl : on l) :
    Edits on own s (groupCondition s l e argument) :=
  (each_edits _ (fun t p => latchEvent_edits e t p hl) s).trans (groupEvent_edits _ _ _ ha hl)

/-! ## The watch unit and stored characters -/

theorem resetWatch_edits (s : State) (hl : on l) : Edits on own s (resetWatch s l) :=
  edits_line s _ hl ⟨rfl, rfl, rfl, rfl, rfl, rfl, rfl, rfl, rfl, rfl⟩

theorem captureErrored_edits (s : State) (r : Received) (hl : on l) : Edits on own s (captureErrored s l r) := by
  have h1 := closeOpen_work (l := l) s .error 0
  have h2 := writeRecord_work (l := l) (closeOpen s l .error 0) .text CloseCause.error.code r.detail [r.value]
    (fun t => discardChars t l 1) (by simp [Config.header, Config.payload]) h1.2 fun t => discardChars_work t 1
  exact (Edits.work hl ((h1.1.trans h2).trans (flushFrozen_work _))).trans (resetWatch_edits _ hl)

/-- Placing a character is edits, and leaves the settings in force. -/
theorem placeCharacter_edits (s : State) (c : Byte) (hl : on l) :
    Edits on own s (placeCharacter s l c).1 ∧ ((placeCharacter s l c).1.line l).io = (s.line l).io := by
  unfold placeCharacter
  split
  · rename_i o ho
    exact ⟨.one (.append s l o c hl ho), by simp [appendCharacter]⟩
  · rename_i ho
    obtain ⟨a, _, h3⟩ := ensureRoom_spec (l := l) s (Config.header + 1) (by simp [Config.header, Config.payload]) ho
    split
    · rename_i t e
      rw [e] at a h3
      dsimp only at a h3 ⊢
      refine ⟨(Edits.work hl a).trans (.one (.opening t l c hl (a.opened ho) (h3 rfl).1 (h3 rfl).2)), ?_⟩
      simp [openRecord, a.io]
    · rename_i t e
      rw [e] at a
      dsimp only at a ⊢
      refine ⟨(Edits.work hl a).trans (.work hl (discardChars_work t 1)), ?_⟩
      simp [discardChars, a.io]

theorem feedSlots_edits (s : State) (c : Byte) (hl : on l) : Edits on own s (feedSlots s l c) :=
  edits_line s _ hl ⟨rfl, rfl, rfl, rfl, rfl, rfl, rfl, rfl, rfl, rfl⟩

/-- A turn of RESPOND is edits, and leaves the settings in force. -/
theorem respond_edits (s : State) (slot : Fin 4) (hl : on l) (hm : (s.line l).lengthOk) :
    Edits on own s (respond s l slot) ∧ ((respond s l slot).line l).io = (s.line l).io := by
  have skip : ∀ r : Byte, Edits on own s (groupEvent s l .responseSkipped [byteOf slot.val, r])
      ∧ ((groupEvent s l .responseSkipped [byteOf slot.val, r]).line l).io = (s.line l).io := fun r =>
    ⟨groupEvent_edits _ _ _ (by simp) hl, (groupEvent_work s .responseSkipped [byteOf slot.val, r] (by simp)).io⟩
  unfold respond
  dsimp only
  split
  · exact skip 1
  · split
    · exact skip 2
    · rename_i hq
      have h1 := Edits.one (Edit.enqueue (on := on) (own := own) s l (((s.line l).watch[slot.val]).response.map .character) hl
        (by rw [List.length_map]; exact Nat.le_of_not_lt hq))
      have h2 := groupSent_work (l := l)
        (s.modTx l fun x => { x with queue := x.queue ++ ((s.line l).watch[slot.val]).response.map .character })
        (byteOf (16 + slot.val)) ((s.line l).watch[slot.val]).response (by simpa [Line.lengthOk] using hm)
      have h3 := groupEvent_work (l := l)
        (groupSent (s.modTx l fun x => { x with queue := x.queue ++ ((s.line l).watch[slot.val]).response.map .character }) l
          (byteOf (16 + slot.val)) ((s.line l).watch[slot.val]).response) Event.responseSent [byteOf slot.val] (by simp)
      refine ⟨h1.trans (.work hl (h2.trans h3)), ?_⟩
      rw [(h2.trans h3).io]
      simp

theorem respondAll_edits (slots : List (Fin 4)) (hl : on l) : ∀ s : State, (s.line l).lengthOk →
    Edits on own s (respondAll l slots s) ∧ ((respondAll l slots s).line l).io = (s.line l).io := by
  induction slots with
  | nil => intro s _; exact ⟨.refl s, rfl⟩
  | cons slot slots ih =>
    intro s hm
    unfold respondAll
    split
    · have h := respond_edits (on := on) (own := own) s slot hl hm
      have k := ih (respond s l slot) (by unfold Line.lengthOk at hm ⊢; rw [h.2]; exact hm)
      exact ⟨h.1.trans k.1, k.2.trans h.2⟩
    · exact ih s hm

theorem freezeAll_work (slots : List (Fin 4)) : ∀ s : State, Work l s (freezeAll l slots s) := by
  induction slots with
  | nil => intro s; exact .refl s
  | cons slot slots ih =>
    intro s
    unfold freezeAll
    split
    · exact (freezeAction_work s _).trans (ih _)
    · exact ih s

theorem postWatch_work (slot : Fin 4) (s : State) (p : PortId) : Work l s (postWatch slot l s p) := by
  unfold postWatch
  split
  · exact .refl s
  · split
    · exact .one (.post s p .watch slot.val)
    · exact .refl s

theorem each_work (f : State → PortId → State) (h : ∀ s p, Work l s (f s p)) (s : State) : Work l s (eachPort f s) :=
  ((h s 0).trans (h _ 1)).trans (h _ 2)

theorem watchAttention_work (s : State) (slots : List (Fin 4)) : Work l s (watchAttention s l slots) := by
  unfold watchAttention
  split
  · exact .refl s
  · exact each_work _ (fun t p => postWatch_work _ t p) s

theorem watchClose_work (s : State) (slots : List (Fin 4)) : Work l s (watchClose s l slots) := by
  unfold watchClose
  split
  · exact .refl s
  · exact (closeOpen_work s _ _).1

theorem actOnCharacter_edits (s : State) (c : Byte) (hl : on l) (hm : (s.line l).lengthOk) :
    Edits on own s (actOnCharacter s l c) := by
  unfold actOnCharacter
  dsimp only
  have h1 := (watchClose_work (l := l) (feedSlots s l c) (matchingSlots (s.line l) c)).trans (closeAtCapacity_work _)
  have hm1 : ((closeAtCapacity (watchClose (feedSlots s l c) l (matchingSlots (s.line l) c)) l).line l).lengthOk :=
    Line.lengthOk_of h1 (by simpa [feedSlots, Line.lengthOk] using hm)
  have h2 := respondAll_edits (on := on) (own := own) (matchingSlots (s.line l) c) hl _ hm1
  have h3 := ((freezeAll_work (l := l) (matchingSlots (s.line l) c) (respondAll l (matchingSlots (s.line l) c)
    (closeAtCapacity (watchClose (feedSlots s l c) l (matchingSlots (s.line l) c)) l))).trans (flushFrozen_work _)).trans
    (watchAttention_work _ (matchingSlots (s.line l) c))
  exact (((feedSlots_edits s c hl).trans (.work hl h1)).trans h2.1).trans (.work hl h3)

theorem storeCharacter_edits (s : State) (c : Byte) (hl : on l) (hm : (s.line l).lengthOk) :
    Edits on own s (storeCharacter s l c) := by
  have h := placeCharacter_edits (on := on) (own := own) s c hl
  unfold storeCharacter
  split
  · rename_i t e
    rw [e] at h
    exact h.1.trans (settle_edits t hl)
  · rename_i t e
    rw [e] at h
    have hm1 : (t.line l).lengthOk := by unfold Line.lengthOk at hm ⊢; rw [h.2]; exact hm
    have k := (h.1.trans (actOnCharacter_edits t c hl hm1)).trans (settle_edits _ hl)
    dsimp only
    split
    · exact k
    · exact k.trans (kickTransmitter_edits _ hl)

/-! ## The line condition unit -/

/-- A level told moves the receiver and the mark of the transmitter, and nothing else of the line. -/
theorem Line.seeLevel_frame (level : Level) (x : Line) :
    x.seeLevel level
      = { x with io := { x.io with level := level, receiver := x.receiverTold level }, tx := x.tx.levelTold } := rfl

theorem seeLevel_edits (s : State) (level : Level) (hl : on l) : Edits on own s (s.modLine l (Line.seeLevel level)) :=
  edits_line s _ hl ⟨rfl, rfl, rfl, rfl, rfl, rfl, rfl, rfl, rfl, rfl⟩

theorem startWatching_edits (s : State) (level : Level) (hl : on l) : Edits on own s (s.modLine l (Line.startWatching level)) :=
  edits_line s _ hl ⟨rfl, rfl, rfl, rfl, rfl, rfl, rfl, rfl, rfl, rfl⟩

theorem takeLevelReport_edits (s : State) (level : Level) (hl : on l) : Edits on own s (takeLevelReport s l level) := by
  unfold takeLevelReport
  split
  · exact (edits_cond _ _ hl).trans (conditionEvent_edits _ _ _ (by simp) hl)
  all_goals first | exact edits_cond _ _ hl | exact .refl s

theorem beginHunt_edits (s : State) (hl : on l) : Edits on own s (beginHunt s l) :=
  (edits_cond s _ hl).trans (resetWatch_edits _ hl)

theorem enterHuntState_edits (s : State) (hl : on l) : Edits on own s (enterHuntState s l) :=
  (beginHunt_edits s hl).trans (conditionEvent_edits _ _ _ (by simp) hl)

/-- Settings in range have a divisor other than 0, and so has every entry of their hunt list (R42). -/
theorem Settings.inRange_divisor {x : Settings} (h : x.inRange = true) : x.divisor ≠ 0 ∧ ∀ d ∈ x.huntList, d ≠ 0 := by
  simp only [Settings.inRange, Bool.and_eq_true, decide_eq_true_eq, List.all_eq_true] at h
  obtain ⟨⟨⟨⟨⟨⟨⟨⟨⟨⟨h1, _⟩, _⟩, _⟩, _⟩, _⟩, _⟩, h8⟩, _⟩, _⟩, _⟩ := h
  exact ⟨h1, h8⟩

/-- Another divisor than 0 keeps settings in range (R42). -/
theorem Settings.inRange_with_divisor {x : Settings} (h : x.inRange = true) {d : Half} (hd : d ≠ 0) :
    ({ x with divisor := d } : Settings).inRange = true := by
  simp only [Settings.inRange, Bool.and_eq_true, decide_eq_true_eq] at h ⊢
  obtain ⟨⟨⟨⟨⟨⟨⟨⟨⟨⟨_, h2⟩, h3⟩, h4⟩, h5⟩, h6⟩, h7⟩, h8⟩, h9⟩, h10⟩, h11⟩ := h
  exact ⟨⟨⟨⟨⟨⟨⟨⟨⟨⟨hd, h2⟩, h3⟩, h4⟩, h5⟩, h6⟩, h7⟩, h8⟩, h9⟩, h10⟩, h11⟩

/-- The divisor in use by a receiver is never 0. -/
theorem Line.rxDivisor_ne {x : Line} (h : x.io.inForce.inRange = true) : x.rxDivisor ≠ 0 := by
  have k := Settings.inRange_divisor h
  unfold Line.rxDivisor
  split
  · rw [List.getD_eq_getElem?_getD]
    rcases e : x.io.inForce.huntList[x.cond.huntIndex]? with _ | d
    · exact k.1
    · exact k.2 d (List.mem_of_getElem? e)
  · exact k.1

theorem lockRate_edits (s : State) (hl : on l) : Edits on own s (lockRate s l) := by
  unfold lockRate
  refine ((Edits.one (.settings s l _ hl ⟨rfl, rfl, rfl, rfl, rfl, rfl, rfl, rfl⟩ ?_)).trans (refreshTransmitter_edits _ hl)).trans
    (conditionEvent_edits _ _ _ (by simp [bytesLE]) hl)
  intro h
  simp only [Interface.inRange, Bool.and_eq_true] at h ⊢
  have hd := Line.rxDivisor_ne (x := s.line l) h.2
  exact ⟨Settings.inRange_with_divisor h.1 hd, Settings.inRange_with_divisor h.2 hd⟩

theorem huntCharacter_edits (s : State) (r : Received) (hl : on l) : Edits on own s (huntCharacter s l r) := by
  unfold huntCharacter
  have h := edits_cond (on := on) (own := own) s (fun x => { x with huntDiscard := min (x.huntDiscard + 1) 65535 }) hl
  dsimp only
  split
  · exact h.trans (edits_cond _ _ hl)
  · split
    · exact h.trans (lockRate_edits _ hl)
    · exact h.trans (edits_cond _ _ hl)

theorem scoreEntry_edits (s : State) (entry : Bool) (hl : on l) : Edits on own s (scoreEntry s l entry) := by
  unfold scoreEntry
  have h := edits_cond (on := on) (own := own) s (fun x => { x with score := pushScore entry x.score }) hl
  dsimp only
  split
  · exact h.trans (enterHuntState_edits _ hl)
  · exact h

theorem runCharacter_edits (s : State) (r : Received) (hl : on l) (hm : (s.line l).lengthOk) :
    Edits on own s (runCharacter s l r) := by
  unfold runCharacter
  have h := edits_cond (on := on) (own := own) s (fun x => { x with nullPending := false }) hl
  dsimp only
  split
  · exact (h.trans (edits_cond _ _ hl)).trans (conditionEvent_edits _ _ _ (by simp) hl)
  · split
    · exact ((h.trans (captureErrored_edits _ r hl)).trans (settle_edits _ hl)).trans (scoreEntry_edits _ _ hl)
    · split
      · exact h
      · exact (h.trans (storeCharacter_edits _ _ hl (by simpa [Line.lengthOk] using hm))).trans (scoreEntry_edits _ _ hl)

theorem classify_edits (s : State) (r : Received) (hl : on l) (hm : (s.line l).lengthOk) : Edits on own s (classify s l r) := by
  unfold classify
  split
  · exact .refl s
  · split
    · exact runCharacter_edits s r hl hm
    · split
      · exact setPause_edits s hl
      · split
        · exact endPause_edits s hl
        · split
          · exact .refl s
          · exact runCharacter_edits s r hl hm
  · exact .refl s
  · split
    · exact edits_cond _ _ hl
    · exact .refl s
  · exact huntCharacter_edits s r hl

/-! ## Attachments and the writer role -/

theorem writerSet_edits (s : State) (p : Option PortId) (reason : WriterReason) (hl : on l) :
    Edits on own s (writerSet s l p reason) := event_edits _ _ _ (by simp) hl

theorem edits_lease (s : State) (t : Option Timer) (hl : on l) : Edits on own s (s.modAtt l fun x => { x with leaseTimer := t }) :=
  edits_line s _ hl ⟨rfl, rfl, rfl, rfl, rfl, rfl, rfl, rfl, rfl, rfl⟩

theorem loseWriter_edits (s : State) (reason : WriterReason) (hl : on l) : Edits on own s (loseWriter s l reason) :=
  ((edits_lease s none hl).trans (dropDrainMark_edits _ hl)).trans (writerSet_edits _ _ _ hl)

theorem clearOvertaken_edits (s : State) (p : PortId) (hl : on l) : Edits on own s (clearOvertaken s l p) :=
  (modAttachment_edits s p (fun a => { a with overtaken := false }) hl fun _ => ⟨rfl, rfl⟩).trans (edits_unpost _ _ _ hl)

theorem attachOrUpdate_edits (s : State) (p : PortId) (a : AttachArgs) (hl : on l) : Edits on own s (attachOrUpdate s l p a) := by
  unfold attachOrUpdate
  split
  · rename_i h
    have k := Edit.join (on := on) (own := own) s l
      { port := p, role := .watcher
        cursor := if a.fromOldest then (s.line l).cap.oldest else (s.line l).cap.next
        overtaken := false, mode := a.mode, lossless := a.lossless, conditionEnable := a.conditionEnable
        watchEnable := a.watchEnable, latch := 0 } hl h rfl
    have e := State.modLine_congr s l (f := fun x =>
        { x with
          att :=
            { x.att with
              list := x.att.list ++
                [{ port := p, role := .watcher, cursor := if a.fromOldest then x.cap.oldest else x.cap.next, overtaken := false
                   mode := a.mode, lossless := a.lossless, conditionEnable := a.conditionEnable, watchEnable := a.watchEnable
                   latch := 0 }] } })
      (g := fun x =>
        { x with
          att :=
            { x.att with
              list := x.att.list ++
                [{ port := p, role := .watcher
                   cursor := if a.fromOldest then (s.line l).cap.oldest else (s.line l).cap.next, overtaken := false
                   mode := a.mode, lossless := a.lossless, conditionEnable := a.conditionEnable, watchEnable := a.watchEnable
                   latch := 0 }] } }) rfl
    rw [e]
    exact .one k
  · have h := modAttachment_edits (on := on) (own := own) s p
      (fun x => { x with
        mode := a.mode, lossless := a.lossless, conditionEnable := a.conditionEnable, watchEnable := a.watchEnable }) hl
      fun _ => ⟨rfl, rfl⟩
    dsimp only
    split
    · exact (h.trans (modAttachment_edits _ p (fun x => { x with cursor := (s.line l).cap.oldest }) hl
        fun _ => ⟨rfl, rfl⟩)).trans (clearOvertaken_edits _ p hl)
    · exact h

theorem Line.waitingIn_of {s t : State} (h : (t.line l).tx.waiting = (s.line l).tx.waiting) (hw : (s.line l).waitingIn own) :
    (t.line l).waitingIn own := by
  unfold Line.waitingIn at hw ⊢
  rw [h]; exact hw

theorem Work.waiting {s t : State} (w : Work l s t) : (t.line l).tx.waiting = (s.line l).tx.waiting :=
  w.frame.2.2.2.2.2.2.2.2.2.2.2.2.2.1

theorem grantRole_edits (s : State) (p : PortId) (flush : Bool) (hl : on l) (hw : (s.line l).waitingIn own) :
    Edits on own s (grantRole s l p flush) := by
  unfold grantRole
  split
  · rename_i hn
    exact (((Edits.one (.promote s l p hl hn)).trans (dropDrainMark_edits _ hl)).trans (writerSet_edits _ _ _ hl)).trans
      (restartLease_edits _ hl)
  · rename_i w hs
    split
    · exact restartLease_edits s hl
    · have h1 : Edits on own s (setRole ((setRole s l w .watcher).post w .writeLost l 2) l p .writer) :=
        (Edits.one (Edit.take s l w p hl hs)).trans (edits_post _ w .writeLost 2 hl)
      have h2 := h1.trans (writerSet_edits (on := on) (own := own) _ (some p) .take hl)
      have e1 : ((setRole ((setRole s l w .watcher).post w .writeLost l 2) l p .writer).line l).tx.waiting
          = (s.line l).tx.waiting := by
        simp [setRole, State.modAttachment_eq, State.post_eq]
      have e2 := (event_work (l := l) (setRole ((setRole s l w .watcher).post w .writeLost l 2) l p .writer) .writerSet
        [portByte (some p), WriterReason.take.code] (by simp)).waiting
      have e3 : ((dropDrainMark (writerSet (setRole ((setRole s l w .watcher).post w .writeLost l 2) l p .writer) l (some p) .take)
          l).line l).tx.waiting = (s.line l).tx.waiting := by
        rw [← e1, ← e2]
        simp [dropDrainMark, writerSet]
      have h3 := (h2.trans (dropDrainMark_edits _ hl)).trans (endWaiting_edits _ .writeLost hl (Line.waitingIn_of e3 hw))
      refine Edits.trans ?_ (restartLease_edits _ hl)
      split
      · exact h3.trans (emptyQueue_edits _ hl)
      · exact h3

theorem levelData_edits (s : State) (p : PortId) (hl : on l) : Edits on own s (levelData l s p) := .work hl (levelData_noted s p).1

theorem attachCauses_edits (s : State) (p : PortId) (hl : on l) : Edits on own s (attachCauses s l p) := by
  unfold attachCauses
  split
  · exact .refl s
  · rename_i a _
    have h := edits_unpost (on := on) (own := own) s p .data hl
    have k : ∀ t, Edits on own s t → Edits on own s
        (if a.conditionEnable = true ∧ a.latch ≠ 0 then t.post p .condition l 0 else t.unpost p .condition l) := by
      intro t ht
      split
      · exact ht.trans (edits_post _ _ _ _ hl)
      · exact ht.trans (edits_unpost _ _ _ hl)
    dsimp only
    refine k _ ?_
    split
    · exact (h.trans (modAttachment_edits _ p (fun x => { x with mode := .first true }) hl fun _ => ⟨rfl, rfl⟩)).trans
        (.work hl (completionData_noted _ p).1)
    · exact h.trans (levelData_edits _ p hl)
    · exact h

theorem removeAttachment_edits (s : State) (p : PortId) (reason : WriterReason) (hl : on l) :
    Edits on own s (removeAttachment s l p reason) := by
  have h := Edits.one (Edit.leave (on := on) (own := own) s l p hl)
  unfold removeAttachment
  refine Edits.trans ?_ (askEvaluation_edits _ hl)
  split
  · exact h.trans (loseWriter_edits _ _ hl)
  · exact h

end Sys2Proof.Machine
end

