-- ==== Sys2Proof/Laws/Exec.lean ====
section
/-! SUPPORT. What exec can do: for every command, edits of the lines that it acts on and of the ports that it owns. -/

namespace Sys2Proof.Machine

open Host

variable {on : LineId → Prop} {own : PortId → Prop} {l : LineId}

/-! ## The taking of a command -/

theorem takeCommand_edits (s : State) (p : PortId) (dataIn : Bool) (act : State → State) (hp : own p)
    (h : Edits on own (beginCommand s p dataIn) (act (beginCommand s p dataIn))) : Edits on own s (takeCommand s p dataIn act) := by
  unfold takeCommand
  split
  · exact .refl s
  · split
    · exact Edits.trans (edits_port s p _ hp ⟨rfl, rfl⟩) h
    · exact edits_port s p _ hp ⟨rfl, rfl⟩

theorem withLine_edits (s : State) (p : PortId) (act : LineId → State) (hp : own p)
    (h : ∀ l, lineOf (s.port p).line = some l → Edits on own s (act l)) : Edits on own s (withLine s p act) := by
  unfold withLine
  split
  · exact prepare_edits s p _ hp
  · exact h _ ‹_›

theorem withControl_edits (s : State) (p : PortId) (act : LineId → State) (hp : own p)
    (h : ∀ l, lineOf (s.port p).line = some l → Edits on own s (act l)) : Edits on own s (withControl s p act) := by
  refine withLine_edits s p _ hp fun l hl => ?_
  split
  · exact h l hl
  · exact prepare_edits s p _ hp

@[simp] theorem beginCommand_line (s : State) (p : PortId) (d : Bool) (k : LineId) : (beginCommand s p d).line k = s.line k := rfl

@[simp] theorem beginCommand_portLine (s : State) (p : PortId) (d : Bool) : ((beginCommand s p d).port p).line = (s.port p).line := by
  simp [beginCommand]

theorem failCheck_edits (s : State) (p : PortId) (code : ErrorCode) (hp : own p) : Edits on own s (failCheck s p code) :=
  prepare_edits s p _ hp

/-- A command whose rule first reads LINE: what it does on the line named is what it does. -/
theorem lineCommand_edits (s : State) (p : PortId) (d : Bool) (act : State → LineId → State) (hp : own p)
    (hon : ∀ l, lineOf (s.port p).line = some l → on l)
    (h : ∀ t l, on l → (∀ k, t.line k = s.line k) → Edits on own t (act t l)) :
    Edits on own s (takeCommand s p d fun t => withLine t p fun l => act t l) :=
  takeCommand_edits s p d _ hp (withLine_edits _ p _ hp fun l hl => h _ l (hon l (by simpa using hl)) fun _ => rfl)

theorem controlCommand_edits (s : State) (p : PortId) (d : Bool) (act : State → LineId → State) (hp : own p)
    (hon : ∀ l, lineOf (s.port p).line = some l → on l)
    (h : ∀ t l, on l → (∀ k, t.line k = s.line k) → Edits on own t (act t l)) :
    Edits on own s (takeCommand s p d fun t => withControl t p fun l => act t l) :=
  takeCommand_edits s p d _ hp (withControl_edits _ p _ hp fun l hl => h _ l (hon l (by simpa using hl)) fun _ => rfl)

/-! ## Reads -/

theorem flushOpen_work (s : State) : Work l s (flushOpen s l) := (closeOpen_work s _ _).1.trans (flushFrozen_work _)

theorem testOvertaken_edits (s : State) (p : PortId) (hl : on l) : Edits on own s (testOvertaken s l p) := by
  unfold testOvertaken
  split
  · exact .refl s
  · rename_i a _
    have k : ∀ t, Edits on own s t → Edits on own s (if a.lossless = true then askEvaluation t l else t) := by
      intro t ht
      split
      · exact ht.trans (askEvaluation_edits _ hl)
      · exact ht
    dsimp only
    refine k _ ?_
    split
    · exact (clearOvertaken_edits s p hl).trans (levelData_edits _ p hl)
    · exact .refl s

theorem passItem_edits (s : State) (p : PortId) (item : Item) (rest : List Item) (c : DataIn) (hp : own p)
    (hl : ∀ l, c.line? = some l → on l) : Edits on own s (passItem s p item rest c) := by
  cases c with
  | readNew l stop maximum delivered missing =>
    unfold passItem
    exact ((modAttachment_edits s p (fun a => { a with cursor := item.next }) (hl l rfl) fun _ => ⟨rfl, rfl⟩).trans
      (levelData_edits _ p (hl l rfl))).trans (edits_port _ p _ hp ⟨rfl, rfl⟩)
  | readHistory l position stop count delivered =>
    unfold passItem
    refine edits_port s p _ hp ?_
    exact ⟨rfl, rfl⟩
  | lineStatus record =>
    unfold passItem
    refine edits_port s p _ hp ?_
    exact ⟨rfl, rfl⟩

theorem beginFill_edits (s : State) (p : PortId) (c : DataIn) (hp : own p) : Edits on own s (beginFill s p c) :=
  edits_port s p _ hp ⟨rfl, rfl⟩

theorem endDelivery_edits (s : State) (p : PortId) (hp : own p) (hl : ∀ l, (s.port p).phase.line? = some l → on l) :
    Edits on own s (endDelivery s p) := by
  have h := edits_port (on := on) (own := own) s p (fun x => { x with buffer := [], transferLength := 0, readPoint := 0 }) hp
    ⟨rfl, rfl⟩
  unfold endDelivery
  dsimp only
  split
  · rename_i l stop maximum delivered missing _ e
    have h1 := h.trans (testOvertaken_edits (on := on) (own := own) _ p (hl l (by rw [e]; rfl)))
    split
    · exact h1.trans (completeCommand_edits _ _ _ hp)
    · split
      · exact h1.trans (beginFill_edits _ _ _ hp)
      · exact h1.trans (completeCommand_edits _ _ _ hp)
  · split
    · exact h.trans (beginFill_edits _ _ _ hp)
    · exact h.trans (completeCommand_edits _ _ _ hp)
  · exact h.trans (completeCommand_edits _ _ _ hp)
  all_goals exact h

theorem phase_passItem_line (s : State) (p : PortId) (item : Item) (rest : List Item) (c : DataIn) :
    ((passItem s p item rest c).port p).phase.line? = c.line? := by
  cases c with
  | readNew l stop maximum delivered missing =>
    unfold passItem
    dsimp only
    rw [State.port_modPort_self]
    cases item.gap <;> rfl
  | readHistory l position stop count delivered => unfold passItem; rw [State.port_modPort_self]; rfl
  | lineStatus record => unfold passItem; rw [State.port_modPort_self]; rfl

/-! ## SET LINE applied -/

theorem turnFlowOff_edits (s : State) (hl : on l) : Edits on own s (turnFlowOff s l) := by
  unfold turnFlowOff
  have k : ∀ t, Edits on own s t → Edits on own s
      (endPause (t.modAtt l fun x => { x with list := x.list.map fun a => { a with lossless := false } }) l) := by
    intro t ht
    exact (ht.trans (.one (.adjust t l (fun a => { a with lossless := false }) hl fun _ => ⟨rfl, rfl⟩))).trans (endPause_edits _ hl)
  dsimp only
  refine k _ ?_
  split
  · exact .work hl (((leaveHold_work s .none).trans (placeFlow_work _ .xon)).trans (event_work _ .holdEnd [] (by simp)))
  · exact .work hl (leaveHold_work s .none)
  · exact .refl s

/-- Telling the hold of a reset is work on its line: pages, log and queue stay. -/
theorem tellHold_work (s : State) : Work l s (tellHold s l) := by
  unfold tellHold
  split
  · exact leaveHold_work s .none
  · exact leaveHold_work s .none
  · exact .refl s

/-- The record of a reset or a line off, with its HOLD END, is work on its line. -/
theorem eventWithHoldEnd_work (wasHeld : Bool) (s : State) (e : Event) (argument : List Byte) (ha : argument.length ≤ 4) :
    Work l s (eventWithHoldEnd wasHeld s l e argument) := by
  unfold eventWithHoldEnd
  split
  · exact ((groupEvent_work s e argument ha).trans (groupEvent_work _ .holdEnd [] (by simp))).trans (settle_work _)
  · exact (plainEvent_work s e argument ha).trans (settle_work _)

theorem turnLineOff_edits (s : State) (hl : on l) (hw : (s.line l).waitingIn own) : Edits on own s (turnLineOff s l) := by
  unfold turnLineOff
  have h1 := Edits.one (Edit.clearQueue (on := on) (own := own) s l hl)
  have h2 := edits_line (on := on) (own := own) (s.modTx l fun x => { x with queue := [] })
    (fun x =>
      { x with
        io := { x.io with receiver := .waitMarking }
        cond :=
          { x.cond with
            state := .off, downTimer := none, upTimer := none, nullPending := false, huntOnUp := false
            patternProgress := 0, huntDiscard := 0 }
        tx :=
          { x.tx with
            queue := [], flowSlot := none, state := .idle, pause := false, drainMark := none, inUse := x.io.inForce.txUse } })
    hl ⟨rfl, by simp, rfl, rfl, rfl, rfl, rfl, rfl, rfl, rfl⟩
  have h3 := h1.trans h2
  simp only [State.modTx_eq, State.modLine_modLine] at h3
  refine (h3.trans (.work hl (tellHold_work _))).trans ?_
  refine (endWaiting_edits _ _ hl ?_).trans (.work hl (eventWithHoldEnd_work _ _ .lineOff [] (by simp)))
  refine Line.waitingIn_of (s := s) ?_ hw
  rw [(tellHold_work _).waiting]
  simp

theorem formatSetEffects_edits (s : State) (hl : on l) : Edits on own s (formatSetEffects s l) :=
  (edits_cond s _ hl).trans (resetWatch_edits _ hl)

theorem reportLevelAfresh_edits (s : State) (hl : on l) : Edits on own s (reportLevelAfresh s l) := by
  unfold reportLevelAfresh
  exact ((Edits.one (.spend s)).trans (startWatching_edits _ _ hl)).trans (takeLevelReport_edits _ _ hl)

theorem formatSetArgument_length (x : Settings) : (formatSetArgument x).length ≤ 4 := by simp [formatSetArgument, bytesLE]

theorem turnLineOn_edits (s : State) (hl : on l) : Edits on own s (turnLineOn s l) := by
  unfold turnLineOn
  dsimp only
  refine Edits.trans ?_ (reportLevelAfresh_edits _ hl)
  refine Edits.trans ?_ (settle_edits _ hl)
  refine Edits.trans ?_ (groupEvent_edits _ _ _ (formatSetArgument_length _) hl)
  refine Edits.trans ?_ (formatSetEffects_edits _ hl)
  refine Edits.trans ?_ (groupEvent_edits _ _ _ (by simp) hl)
  refine Edits.trans (.one (.settings s l _ hl ⟨rfl, rfl, rfl, rfl, rfl, rfl, rfl, rfl⟩ ?_)) (refreshTransmitter_edits _ hl)
  intro h
  simp only [Interface.inRange, Bool.and_eq_true] at h ⊢
  exact ⟨h.1, h.1⟩

theorem applyFormat_edits (s : State) (old : Settings) (hl : on l) : Edits on own s (applyFormat s l old) := by
  unfold applyFormat
  dsimp only
  split
  · exact ((edits_cond s _ hl).trans (formatSetEffects_edits _ hl)).trans (event_edits _ _ _ (formatSetArgument_length _) hl)
  · split
    · exact (formatSetEffects_edits s hl).trans (event_edits _ _ _ (formatSetArgument_length _) hl)
    · exact .refl s

theorem retimeLease_edits (s : State) (old : Settings) (hl : on l) : Edits on own s (retimeLease s l old) :=
  edits_line s _ hl ⟨rfl, rfl, rfl, rfl, rfl, rfl, rfl, rfl, rfl, rfl⟩

theorem retimeHold_edits (s : State) (hl : on l) : Edits on own s (retimeHold s l) :=
  edits_line s _ hl ⟨rfl, rfl, rfl, rfl, rfl, rfl, rfl, rfl, rfl, rfl⟩

theorem applyMaxLength_edits (s : State) (hl : on l) : Edits on own s (applyMaxLength s l) := by
  unfold applyMaxLength
  split
  · exact .refl s
  · split
    · exact (Edits.work hl (closeOpen_work s _ _).1).trans (settle_edits _ hl)
    · exact .refl s

theorem applyPins_edits (s : State) (old : Settings) (hl : on l) : Edits on own s (applyPins s l old) := by
  unfold applyPins
  dsimp only
  split
  · exact reportLevelAfresh_edits s hl
  · exact .refl s

theorem applyOthers_edits (s : State) (old : Settings) (hl : on l) : Edits on own s (applyOthers s l old) := by
  unfold applyOthers
  dsimp only
  have h := ((((edits_line (on := on) (own := own) s (fun x =>
      { x with
        cap := { x.cap with idleTimer := x.cap.idleTimer.map (retimeTimer s.timebase x.io.inForce.idleGap.toNat) }
        cond :=
          { x.cond with
            downTimer := x.cond.downTimer.map (retimeTimer s.timebase x.io.inForce.downTime.toNat)
            upTimer := x.cond.upTimer.map (retimeTimer s.timebase x.io.inForce.upTime.toNat)
            nullPending := x.cond.nullPending && x.io.inForce.breakNull } }) hl ⟨rfl, rfl, rfl, rfl, rfl, rfl, rfl, rfl, rfl, rfl⟩).trans
    (applyMaxLength_edits _ hl)).trans (retimeLease_edits _ old hl)).trans (retimeHold_edits _ hl)).trans
    (refreshTransmitter_edits _ hl)
  split
  · exact h
  · exact h.trans (applyPins_edits _ old hl)

/-- A writer lease and a hold timeout in range keep settings in range (R42). -/
theorem Settings.inRange_with_times {x y : Settings} (h : x.inRange = true) (k : y.inRange = true) (b c : Bool) :
    ({ x with lease := y.lease, holdTimeout := y.holdTimeout, inversion := b, flow := c } : Settings).inRange = true := by
  simp only [Settings.inRange, Bool.and_eq_true, decide_eq_true_eq] at h k ⊢
  obtain ⟨⟨⟨⟨⟨⟨⟨⟨⟨⟨h1, h2⟩, h3⟩, h4⟩, h5⟩, h6⟩, h7⟩, h8⟩, h9⟩, _⟩, _⟩ := h
  exact ⟨⟨⟨⟨⟨⟨⟨⟨⟨⟨h1, h2⟩, h3⟩, h4⟩, h5⟩, h6⟩, h7⟩, h8⟩, h9⟩, k.1.2⟩, k.2⟩

theorem storeSettings_edits (s : State) (old new : Settings) (hl : on l) (hn : new.inRange = true) :
    Edits on own s (storeSettings s l old new) := by
  unfold storeSettings
  dsimp only
  refine (((Edits.one (.settings s l _ hl ⟨rfl, rfl, rfl, rfl, rfl, rfl, rfl, rfl⟩ ?_)).trans (retimeLease_edits _ old hl)).trans
    (retimeHold_edits _ hl)).trans (refreshTransmitter_edits _ hl)
  intro h
  simp only [Interface.inRange, Bool.and_eq_true] at h ⊢
  exact ⟨hn, Settings.inRange_with_times h.2 hn _ _⟩

theorem turnFlowOff_waiting (s : State) : ((turnFlowOff s l).line l).tx.waiting = (s.line l).tx.waiting := by
  have start : ∀ t : State, ((startPoint t l).line l).tx.waiting = (t.line l).tx.waiting := by
    intro t
    have drain : ∀ u : State, ((testDrain u l).line l).tx.waiting = (u.line l).tx.waiting := by
      intro u; unfold testDrain; split <;> simp
    unfold startPoint
    dsimp only
    split
    · simp
    · split
      · simp
      · split
        · simp
        · rw [drain]; simp
        · rw [(event_work _ _ _ (by simp [bytesLE])).waiting, drain]; simp
  have pause : ∀ t : State, ((endPause t l).line l).tx.waiting = (t.line l).tx.waiting := by
    intro t
    unfold endPause
    dsimp only
    split
    · rw [start]; simp
    · simp
  have keep : ∀ t : State, ((t.modAtt l fun x => { x with list := x.list.map fun a => { a with lossless := false } }).line l).tx
      = (t.line l).tx := by
    intro t
    rw [State.modAtt_eq, State.line_modLine_self]
  have h1 : ((event (placeFlow (leaveHold s l .none) l .xon) l .holdEnd []).line l).tx.waiting = (s.line l).tx.waiting :=
    (((leaveHold_work s .none).trans (placeFlow_work _ .xon)).trans (event_work _ .holdEnd [] (by simp))).waiting
  have h2 : ((leaveHold s l .none).line l).tx.waiting = (s.line l).tx.waiting := (leaveHold_work s .none).waiting
  unfold turnFlowOff
  dsimp only
  rw [pause, keep]
  cases (s.line l).hold.state with
  | none => dsimp only
  | held => dsimp only; rw [h1]
  | spent => dsimp only; rw [h2]

theorem applySettings_edits (s : State) (new : Settings) (hl : on l) (hw : (s.line l).waitingIn own)
    (hs : (s.line l).io.inRange = true) (hn : new.inRange = true) : Edits on own s (applySettings s l new) := by
  have ho : (s.line l).io.inForce.inRange = true := by
    simp only [Interface.inRange, Bool.and_eq_true] at hs
    exact hs.2
  have flow : ∀ (x : Interface) (f : Bool),
      ({ x with settings := new, inForce := { (s.line l).io.inForce with flow := f } } : Interface).inRange = true := by
    intro x f
    simp only [Interface.inRange, Bool.and_eq_true]
    exact ⟨hn, ho⟩
  have whole : ∀ x : Interface, x.inRange = true → ({ x with inForce := new } : Interface).inRange = true := by
    intro x hx
    simp only [Interface.inRange, Bool.and_eq_true] at hx ⊢
    exact ⟨hx.1, hn⟩
  have part : ∀ x : Interface, x.inRange = true →
      ({ x with
        inForce :=
          { new with
            divisor := (s.line l).io.inForce.divisor, format := (s.line l).io.inForce.format } } : Interface).inRange = true := by
    intro x hx
    simp only [Interface.inRange, Bool.and_eq_true] at hx ⊢
    exact ⟨hx.1, Settings.inRange_with_divisor hn (Settings.inRange_divisor ho).1⟩
  unfold applySettings
  dsimp only
  split
  · have k : ∀ t, Edits on own s t → Edits on own s (if new.enable = true then turnLineOn t l else t) := by
      intro t ht
      split
      · exact ht.trans (turnLineOn_edits _ hl)
      · exact ht
    refine k _ ?_
    split
    · exact (storeSettings_edits s _ new hl hn).trans (turnFlowOff_edits _ hl)
    · exact storeSettings_edits s _ new hl hn
  · have k : ∀ t, Edits on own s t → (t.line l).tx.waiting = (s.line l).tx.waiting → Edits on own s
        (if new.enable = true then
          applyOthers (applyFormat (t.modIo l fun x => { x with inForce := new }) l (s.line l).io.inForce) l (s.line l).io.inForce
        else
          applyOthers (turnLineOff (t.modIo l fun x =>
            { x with
              inForce :=
                { new with divisor := (s.line l).io.inForce.divisor, format := (s.line l).io.inForce.format } }) l) l
            (s.line l).io.inForce) := by
      intro t ht he
      split
      · have h := edits_settings (on := on) (own := own) t (fun x => { x with inForce := new }) hl (whole _)
        exact ((ht.trans h).trans (applyFormat_edits _ _ hl)).trans (applyOthers_edits _ _ hl)
      · have h := edits_settings (on := on) (own := own) t (fun x =>
          { x with
            inForce :=
              { new with divisor := (s.line l).io.inForce.divisor, format := (s.line l).io.inForce.format } }) hl (part _)
        exact ((ht.trans h).trans (turnLineOff_edits _ hl (Line.waitingIn_of (by simpa using he) hw))).trans
          (applyOthers_edits _ _ hl)
    have h := edits_settings (on := on) (own := own) s (fun x =>
      { x with settings := new, inForce := { (s.line l).io.inForce with flow := new.flow } }) hl fun _ => flow _ _
    refine k _ ?_ ?_
    · split
      · exact h.trans (turnFlowOff_edits _ hl)
      · exact h
    · split
      · rw [turnFlowOff_waiting]; simp
      · simp

/-! ## The ends of data-out phases -/

theorem endSendData_edits (s : State) (p : PortId) (count : Nat) (hl : on l) (hp : own p) (hm : (s.line l).lengthOk) :
    Edits on own s (endSendData s p l count) := by
  unfold endSendData
  split
  · exact completeCommand_edits _ _ _ hp
  · split
    · exact completeCommand_edits _ _ _ hp
    · have h := (edits_tx (on := on) (own := own) s (fun x => { x with waiting := some (.send p (s.port p).buffer) }) hl rfl).trans
        (edits_port _ p (fun x => { x with phase := .waiting l }) hp ⟨rfl, rfl⟩)
      refine h.trans (placeRun_edits _ hl (by simpa [Line.lengthOk] using hm) ?_)
      intro w hw
      simp only [State.line_modPort, State.modTx_eq, State.line_modLine_self, Option.some.injEq] at hw
      subst hw
      exact hp

/-- Settings that a record gives are in range (R61). -/
theorem settingsOf_inRange {bs : List Byte} {x : Settings} (h : settingsOf bs = some x) : x.inRange = true := by
  unfold settingsOf at h
  dsimp only at h
  split at h
  · exact absurd h (by simp)
  · split at h
    · split at h
      · rename_i hr
        rw [← Option.some.inj h]
        exact hr
      · exact absurd h (by simp)
    · exact absurd h (by simp)

theorem endSetLineData_edits (s : State) (p : PortId) (hl : on l) (hp : own p) (hw : (s.line l).waitingIn own)
    (hs : (s.line l).io.inRange = true) : Edits on own s (endSetLineData s p l) := by
  unfold endSetLineData
  split
  · exact failCheck_edits _ _ _ hp
  · split
    · exact (applySettings_edits s _ hl hw hs (settingsOf_inRange ‹_›)).trans (prepare_edits _ _ _ hp)
    · exact failCheck_edits _ _ _ hp

theorem endSetWatchData_edits (s : State) (p : PortId) (slot : Fin 4) (hl : on l) (hp : own p) :
    Edits on own s (endSetWatchData s p l slot) := by
  unfold endSetWatchData
  split
  · exact failCheck_edits _ _ _ hp
  · split
    · exact (edits_line s _ hl ⟨rfl, rfl, rfl, rfl, rfl, rfl, rfl, rfl, rfl, rfl⟩).trans (prepare_edits _ _ _ hp)
    · exact failCheck_edits _ _ _ hp

/-! ## The pool commands -/

theorem clearLog_edits (s : State) (p : PortId) (hl : on l) : Edits on own s (clearLog s l p) := by
  unfold clearLog
  dsimp only
  refine Edits.trans ?_ (settle_edits _ hl)
  have h1 := closeOpen_work (l := l) s .event 0
  have h2 : Edits on own s ((closeOpen s l .event 0).modPool l fun x => { x with frozen := false, frozenDue := false }) :=
    (Edits.work hl h1.1).trans (.work hl (quiet_pool _ _ rfl))
  have ho : (((closeOpen s l .event 0).modPool l fun x => { x with frozen := false, frozenDue := false }).line l).cap.opened
      = none := by simpa using h1.2
  have h3 : ∀ t : State, (t.line l).cap.opened = none →
      Edits on own t (releasePages t l (t.line l).held) ∧ ((releasePages t l (t.line l).held).line l).cap.opened = none := by
    intro t hn
    unfold releasePages
    split
    · exact ⟨.refl t, hn⟩
    · rename_i hz
      have hp : (t.line l).pool.pages ≠ [] := fun e => hz (by simp [Line.held, e])
      have hr := reportAdvance_noted (l := l) (t.line l).cap.oldest (dropPages t l (t.line l).held)
      refine ⟨(Edits.one (.clear t l hl hn hp)).trans (.work hl hr.1), ?_⟩
      rw [hr.2.2.1]
      have e : ((dropPages t l (t.line l).held).line l).cap.opened = (t.line l).cap.opened := by
        unfold dropPages
        rw [State.line_modLine_self]
        rfl
      rw [e]; exact hn
  have h4 := h3 _ ho
  have h5 := (h2.trans h4.1).trans (.work hl (placeEvent_work _ .cleared [byteOf p.val] (by simp) h4.2))
  split
  · exact h5.trans (.work hl (quiet_pool _ _ rfl))
  · exact h5

/-! ## Every command -/

/-- Settings in range have a maximum record length in range (R42). -/
theorem SettingsOk.length {s : State} (h : SettingsOk s) (l : LineId) : (s.line l).lengthOk := by
  have k := h l
  simp only [Interface.inRange, Settings.inRange, Bool.and_eq_true, decide_eq_true_eq] at k
  exact k.2.1.1.1.1.1.1.1.1.2.2

theorem State.waitingIn_owns (s : State) (c : Instr) (l : LineId) (h : s.actsOn c l) : (s.line l).waitingIn (s.owns c) :=
  fun w hw => .inr ⟨l, h, w, hw, rfl⟩

theorem State.owns_port (s : State) (c : Instr) (p : PortId) (h : c.port? = some p) : s.owns c p := .inl h

theorem portReset_edits (s : State) (p : PortId) (hp : own p) (hl : ∀ l, on l) (hw : ∀ l, (s.line l).waitingIn own) :
    Edits on own s ((List.finRange 16).foldl (resetOnLine p)
      ((resetCommand s p).modPort p fun x => { x with collision := false, causes := [], resetAsserted := true })) := by
  have h1 : Edits on own s (resetCommand s p) := by
    unfold resetCommand
    split <;> first | exact completeCommand_edits _ _ _ hp | exact endWaiting_edits _ _ (hl _) (hw _)
  have h2 : Edits on own s ((resetCommand s p).modPort p fun x => { x with collision := false, causes := [], resetAsserted := true }) := by
    have a := edits_port (on := on) (own := own) (resetCommand s p) p
      (fun x => { x with collision := false, resetAsserted := true }) hp ⟨rfl, rfl⟩
    have b := Edits.one (Edit.causes (on := on) (own := own)
      ((resetCommand s p).modPort p fun x => { x with collision := false, resetAsserted := true }) p [] hp (List.nil_sublist _))
    simpa using (h1.trans a).trans b
  have h3 : ∀ (ls : List LineId) (t : State), Edits on own t (ls.foldl (resetOnLine p) t) := by
    intro ls
    induction ls with
    | nil => intro t; exact .refl t
    | cons l ls ih =>
      intro t
      refine Edits.trans ?_ (ih _)
      unfold resetOnLine
      split
      · exact removeAttachment_edits _ _ _ (hl l)
      · exact .refl t
  exact h2.trans (h3 _ _)

theorem abortCommand_edits (s : State) (p : PortId) (hp : own p) (hl : ∀ l, (s.port p).phase.line? = some l → on l)
    (hw : ∀ l, (s.port p).phase.line? = some l → (s.line l).waitingIn own) : Edits on own s (abortCommand s p) := by
  unfold abortCommand
  split
  · exact completeCommand_edits _ _ _ hp
  · exact completeCommand_edits _ _ _ hp
  · rename_i l _ _ _ _ e
    exact (testOvertaken_edits s p (hl l (by rw [e]; rfl))).trans (completeCommand_edits _ _ _ hp)
  · rename_i l _ _ _ _ _ e
    exact (testOvertaken_edits s p (hl l (by rw [e]; rfl))).trans (completeCommand_edits _ _ _ hp)
  all_goals first | exact completeCommand_edits _ _ _ hp | skip
  rename_i l e
  exact endWaiting_edits s _ (hl l (by rw [e]; rfl)) (hw l (by rw [e]; rfl))

theorem dataRead_edits (s : State) (p : PortId) (hp : own p) (hl : ∀ l, (s.port p).phase.line? = some l → on l) :
    Edits on own s
      (let t := passItems
          (s.modPort p fun x => { x with shiftedOut := x.dataByte, readPoint := x.readPoint + 1, pointer := nextOffset 16 }) p
        if (s.port p).readPoint + 1 = (s.port p).transferLength then endDelivery t p else t) := by
  have h1 := edits_port (on := on) (own := own) s p
    (fun x => { x with shiftedOut := x.dataByte, readPoint := x.readPoint + 1, pointer := nextOffset 16 }) hp ⟨rfl, rfl⟩
  have h2 : ∀ t : State, (t.port p).phase = (s.port p).phase →
      Edits on own t (passItems t p) ∧ ((passItems t p).port p).phase.line? = (s.port p).phase.line? := by
    intro t e
    unfold passItems
    split
    · rename_i c item rest e2
      have e3 : (s.port p).phase.line? = c.line? := by rw [← e, e2]; rfl
      split
      · refine ⟨passItem_edits t p item rest c hp fun l h => hl l (by rw [e3]; exact h), ?_⟩
        rw [phase_passItem_line, e3]
      · exact ⟨.refl t, by rw [e]⟩
    all_goals exact ⟨.refl t, by rw [e]⟩
  have h3 := h2 (s.modPort p fun x => { x with shiftedOut := x.dataByte, readPoint := x.readPoint + 1, pointer := nextOffset 16 })
    (by simp)
  dsimp only
  split
  · exact (h1.trans h3.1).trans (endDelivery_edits _ p hp fun l h => hl l (by rw [← h3.2]; exact h))
  · exact h1.trans h3.1

theorem dataWrite_edits (s : State) (p : PortId) (byte : Byte) (hp : own p) (hm : SettingsOk s)
    (hl : ∀ l, (s.port p).phase.line? = some l → on l) (hw : ∀ l, (s.port p).phase.line? = some l → (s.line l).waitingIn own) :
    ∃ t, execDataWrite p byte s = .next t ∧ Edits on own s t := by
  unfold execDataWrite
  refine ⟨_, rfl, ?_⟩
  split
  · exact .refl s
  · have h1 := edits_port (on := on) (own := own) s p (fun x => { x with pointer := nextOffset 16 }) hp ⟨rfl, rfl⟩
    dsimp only
    split
    · rename_i c e
      have hl' : on c.line := hl _ (by rw [e]; rfl)
      have hw' : (s.line c.line).waitingIn own := hw _ (by rw [e]; rfl)
      have h2 := h1.trans (edits_port (on := on) (own := own) _ p (fun x => { x with buffer := x.buffer ++ [byte] }) hp ⟨rfl, rfl⟩)
      split
      · have h3 := h2.trans (edits_port (on := on) (own := own) _ p
          (fun x => { x with transferLength := 0, phase := .completing {} }) hp ⟨rfl, rfl⟩)
        split
        · exact h3.trans (endSendData_edits _ p _ hl' hp (hm.length _))
        · exact h3.trans (endSetLineData_edits _ p hl' hp hw' (hm _))
        · exact h3.trans (endSetWatchData_edits _ p _ hl' hp)
      · exact h2
    all_goals exact h1

theorem fillEnd_edits (s : State) (p : PortId) (hp : own p) : ∃ t, execFillEnd p s = .next t ∧ Edits on own s t := by
  unfold execFillEnd
  have deliver_edits : ∀ (c : DataIn) (f : Fill), Edits on own s (deliver s p c f) := fun c f => edits_port s p _ hp ⟨rfl, rfl⟩
  refine ⟨_, rfl, ?_⟩
  split
  · split
    · exact completeCommand_edits _ _ _ hp
    · dsimp only
      split
      · exact completeCommand_edits _ _ _ hp
      · exact deliver_edits _ _
  · split
    · exact completeCommand_edits _ _ _ hp
    · dsimp only
      split
      · exact completeCommand_edits _ _ _ hp
      · exact deliver_edits _ _
  · exact deliver_edits _ _
  all_goals exact .refl s

/-- UP TIMER EXPIRY. -/
theorem execUpTimerExpiry_edits (s : State) (l : LineId) (hl : on l) :
    ∃ t, execUpTimerExpiry l s = .next t ∧ Edits on own s t := by
  refine ⟨_, rfl, ?_⟩
  split
  · have h : Edits on own s
        (groupCondition (s.modLine l fun x =>
          { x with
            cond :=
              { x.cond with
                state := .run, upTimer := none, huntOnUp := false
                downTimer := if x.io.level = .spacing then some (startTimer s.timebase) else none } }) l .lineUp []) :=
      Edits.trans (edits_line s _ hl ⟨rfl, rfl, rfl, rfl, rfl, rfl, rfl, rfl, rfl, rfl⟩) (groupCondition_edits _ .lineUp [] (by simp) hl)
    refine Edits.trans ?_ (settle_edits _ hl)
    split
    · exact (h.trans (beginHunt_edits _ hl)).trans (groupCondition_edits _ .huntStart [] (by simp) hl)
    · exact h
  · exact .refl s

/-- What every command other than DEVICE RESET and TIMEBASE ADVANCE does: it answers a next state, by edits of the lines that it
acts on and of the command blocks that it owns. -/
theorem exec_edits (c : Instr) (s : State) (hm : SettingsOk s) (hr : ∀ a b d, c ≠ .deviceReset a b d) (ht : c ≠ .timebaseAdvance) :
    ∃ t, exec c s = .next t ∧ Edits (s.actsOn c) (s.owns c) s t := by
  cases c with
  | nextCause p =>
    refine ⟨_, rfl, takeCommand_edits s p _ _ (s.owns_port _ p rfl) ?_⟩
    have hp := s.owns_port (.nextCause p) p rfl
    split
    · exact prepare_edits _ _ _ hp
    · rename_i c rest e
      refine Edits.trans ?_ (prepare_edits _ _ _ hp)
      split
      · refine .one (.causes _ p rest hp ?_)
        rw [e]
        exact List.sublist_cons_self c rest
      · exact .refl _
  | readTime p =>
    exact ⟨_, rfl, takeCommand_edits s p _ _ (s.owns_port _ p rfl) (prepare_edits _ _ _ (s.owns_port _ p rfl))⟩
  | attach p =>
    have hp := s.owns_port (.attach p) p rfl
    refine ⟨_, rfl, lineCommand_edits s p _ _ hp (fun l h => h) fun t l hl e => ?_⟩
    dsimp only
    split
    · exact failCheck_edits _ _ _ hp
    · split
      · exact failCheck_edits _ _ _ hp
      · split
        · exact prepare_edits _ _ _ hp
        · refine Edits.trans ?_ (prepare_edits _ _ _ hp)
          refine Edits.trans ?_ (askEvaluation_edits _ hl)
          refine Edits.trans ?_ (attachCauses_edits _ _ hl)
          have h := attachOrUpdate_edits (on := s.actsOn (.attach p)) (own := s.owns (.attach p)) t p
            (attachArgs (t.port p).option (t.port p).count) hl
          have hw : ((attachOrUpdate t l p (attachArgs (t.port p).option (t.port p).count)).line l).waitingIn
              (s.owns (.attach p)) := by
            refine Line.waitingIn_of (s := s) ?_ (s.waitingIn_owns _ l hl)
            rw [← e l]
            unfold attachOrUpdate
            split
            · simp
            · dsimp only
              split <;> simp [clearOvertaken, State.modAttachment_eq]
          split
          · exact h.trans (grantRole_edits _ _ _ hl hw)
          · exact h
  | detach p =>
    have hp := s.owns_port (.detach p) p rfl
    refine ⟨_, rfl, lineCommand_edits s p _ _ hp (fun l h => h) fun t l hl e => ?_⟩
    split
    · exact failCheck_edits _ _ _ hp
    · refine Edits.trans ?_ (prepare_edits _ _ _ hp)
      refine Edits.trans ?_ (removeAttachment_edits _ _ _ hl)
      have h := Edits.one (Edit.causes (on := s.actsOn (.detach p)) (own := s.owns (.detach p)) t p
        ((t.port p).causes.filter fun c => !decide (c.line = l)) hp List.filter_sublist)
      exact h
  | releaseWrite p =>
    have hp := s.owns_port (.releaseWrite p) p rfl
    refine ⟨_, rfl, lineCommand_edits s p _ _ hp (fun l h => h) fun t l hl e => ?_⟩
    split
    · exact ((Edits.one (.demote t l p hl)).trans (loseWriter_edits _ _ hl)).trans (prepare_edits _ _ _ hp)
    · exact failCheck_edits _ _ _ hp
  | readNew p =>
    have hp := s.owns_port (.readNew p) p rfl
    refine ⟨_, rfl, lineCommand_edits s p _ _ hp (fun l h => h) fun t l hl e => ?_⟩
    split
    · exact failCheck_edits _ _ _ hp
    · rename_i a _
      have h : Edits (s.actsOn (.readNew p)) (s.owns (.readNew p)) t
          (settle (match a.mode with
            | .first _ => (flushOpen t l).unpost p .data l
            | .level _ | .none => flushOpen t l) l) := by
        refine Edits.trans ?_ (settle_edits _ hl)
        split
        · exact (Edits.work hl (flushOpen_work t)).trans (edits_unpost _ _ _ hl)
        · exact .work hl (flushOpen_work t)
        · exact .work hl (flushOpen_work t)
      dsimp only
      split
      · exact h.trans (failCheck_edits _ _ _ hp)
      · split
        · exact h.trans (completeCommand_edits _ _ _ hp)
        · exact h.trans (beginFill_edits _ _ _ hp)
  | readHistory p =>
    have hp := s.owns_port (.readHistory p) p rfl
    refine ⟨_, rfl, lineCommand_edits s p _ _ hp (fun l h => h) fun t l hl e => ?_⟩
    dsimp only
    split
    · exact failCheck_edits _ _ _ hp
    · split
      · exact prepare_edits _ _ _ hp
      · exact completeCommand_edits _ _ _ hp
      · split
        · exact completeCommand_edits _ _ _ hp
        · refine Edits.trans ?_ (beginFill_edits _ _ _ hp)
          refine Edits.trans ?_ (settle_edits _ hl)
          split
          · exact .work hl (flushOpen_work t)
          · exact .refl t
  | countNew p =>
    have hp := s.owns_port (.countNew p) p rfl
    exact ⟨_, rfl, lineCommand_edits s p _ _ hp (fun l h => h) fun t l hl e => prepare_edits _ _ _ hp⟩
  | seek p =>
    have hp := s.owns_port (.seek p) p rfl
    refine ⟨_, rfl, lineCommand_edits s p _ _ hp (fun l h => h) fun t l hl e => ?_⟩
    split
    · exact failCheck_edits _ _ _ hp
    · dsimp only
      split
      · exact failCheck_edits _ _ _ hp
      · refine Edits.trans ?_ (prepare_edits _ _ _ hp)
        have h1 := (modAttachment_edits (on := s.actsOn (.seek p)) (own := s.owns (.seek p)) t p
          (fun a => { a with cursor := seekCursor (t.line l) (t.port p).option.toNat (t.port p).position }) hl
          fun _ => ⟨rfl, rfl⟩).trans (clearOvertaken_edits _ p hl)
        refine h1.trans ?_
        unfold seekData
        split
        · exact .refl _
        · split
          · exact levelData_edits _ p hl
          · split
            · exact edits_unpost _ _ _ hl
            · exact .refl _
          · exact .refl _
  | lineStatus p =>
    have hp := s.owns_port (.lineStatus p) p rfl
    refine ⟨_, rfl, lineCommand_edits s p _ _ hp (fun l h => h) fun t l hl e => ?_⟩
    split
    · exact beginFill_edits _ _ _ hp
    · split
      · exact beginFill_edits _ _ _ hp
      · exact failCheck_edits _ _ _ hp
  | send p =>
    have hp := s.owns_port (.send p) p rfl
    refine ⟨_, rfl, lineCommand_edits s p _ _ hp (fun l h => h) fun t l hl e => ?_⟩
    dsimp only
    split
    · exact failCheck_edits _ _ _ hp
    · split
      · exact failCheck_edits _ _ _ hp
      · split
        · exact failCheck_edits _ _ _ hp
        · exact ((restartLease_edits t hl).trans (edits_unpost _ _ _ hl)).trans (edits_port _ p _ hp ⟨rfl, rfl⟩)
  | sendBreak p =>
    have hp := s.owns_port (.sendBreak p) p rfl
    refine ⟨_, rfl, lineCommand_edits s p _ _ hp (fun l h => h) fun t l hl e => ?_⟩
    dsimp only
    split
    · exact failCheck_edits _ _ _ hp
    · split
      · exact failCheck_edits _ _ _ hp
      · split
        · exact failCheck_edits _ _ _ hp
        · have h := ((restartLease_edits (on := s.actsOn (.sendBreak p)) (own := s.owns (.sendBreak p)) t hl).trans
            (edits_tx _ (fun x => { x with waiting := some (.sendBreak p (t.port p).value.toNat) }) hl rfl)).trans
            (edits_port _ p (fun x => { x with phase := .waiting l }) hp ⟨rfl, rfl⟩)
          refine h.trans (placeMarker_edits _ hl ?_)
          intro w hw
          simp only [State.line_modPort, State.modTx_eq, State.line_modLine_self, Option.some.injEq] at hw
          subst hw
          exact hp
  | resetLine p =>
    have hp := s.owns_port (.resetLine p) p rfl
    refine ⟨_, rfl, controlCommand_edits s p _ _ hp (fun l h => h) fun t l hl e => ?_⟩
    dsimp only
    split
    · exact failCheck_edits _ _ _ hp
    · refine Edits.trans ?_ (prepare_edits _ _ _ hp)
      refine Edits.trans ?_ (.work hl (eventWithHoldEnd_work _ _ _ _ (by simp)))
      refine Edits.trans ?_ (each_edits _ (fun t q => latchEvent_edits _ t q hl) _)
      have h1 := (resetTransmit_edits (on := s.actsOn (.resetLine p)) (own := s.owns (.resetLine p)) t hl).trans
        (.work hl (tellHold_work _))
      have h2 : ∀ u : State, Edits (s.actsOn (.resetLine p)) (s.owns (.resetLine p)) u (resetReceive u l) := fun u =>
        (edits_cond u _ hl).trans (resetWatch_edits _ hl)
      split
      · exact (h1.trans (.work hl (placeFlow_work _ _))).trans (h2 _)
      · exact h1.trans (h2 _)
  | enterHunt p =>
    have hp := s.owns_port (.enterHunt p) p rfl
    refine ⟨_, rfl, controlCommand_edits s p _ _ hp (fun l h => h) fun t l hl e => ?_⟩
    split
    · exact failCheck_edits _ _ _ hp
    · exact (edits_cond _ _ hl).trans (prepare_edits _ _ _ hp)
    all_goals exact (enterHuntState_edits t hl).trans (prepare_edits _ _ _ hp)
  | setLine p =>
    have hp := s.owns_port (.setLine p) p rfl
    exact ⟨_, rfl, controlCommand_edits s p _ _ hp (fun l h => h) fun t l hl e => edits_port _ p _ hp ⟨rfl, rfl⟩⟩
  | setWatch p =>
    have hp := s.owns_port (.setWatch p) p rfl
    refine ⟨_, rfl, controlCommand_edits s p _ _ hp (fun l h => h) fun t l hl e => ?_⟩
    split
    · exact edits_port _ p _ hp ⟨rfl, rfl⟩
    · exact failCheck_edits _ _ _ hp
  | setQuota p =>
    have hp := s.owns_port (.setQuota p) p rfl
    refine ⟨_, rfl, controlCommand_edits s p _ _ hp (fun l h => h) fun t l hl e => ?_⟩
    dsimp only
    split
    · exact failCheck_edits _ _ _ hp
    · rename_i hq
      refine Edits.trans ?_ (prepare_edits _ _ _ hp)
      refine Edits.trans ?_ (askEvaluation_edits _ hl)
      have h := Edits.one (Edit.quota (on := s.actsOn (.setQuota p)) (own := s.owns (.setQuota p)) t l _ _ hl hq)
      change Edits _ _ t (releasePages (withQuota t l _ _) l _)
      unfold releasePages
      split
      · rename_i hz
        rw [if_pos hz] at h
        exact h
      · rename_i hz
        rw [if_neg hz] at h
        exact h.trans (.work hl (reportAdvance_noted _ _).1)
  | clearHistory p =>
    have hp := s.owns_port (.clearHistory p) p rfl
    refine ⟨_, rfl, controlCommand_edits s p _ _ hp (fun l h => h) fun t l hl e => ?_⟩
    split
    · exact failCheck_edits _ _ _ hp
    · exact (clearLog_edits t p hl).trans (prepare_edits _ _ _ hp)
  | freeze p =>
    have hp := s.owns_port (.freeze p) p rfl
    refine ⟨_, rfl, controlCommand_edits s p _ _ hp (fun l h => h) fun t l hl e => ?_⟩
    refine Edits.trans ?_ (prepare_edits _ _ _ hp)
    split
    · exact .refl t
    · exact .work hl (((quiet_pool t _ rfl).trans (plainEvent_work _ _ _ (by simp))).trans (askEvaluation_work _))
  | thaw p =>
    have hp := s.owns_port (.thaw p) p rfl
    refine ⟨_, rfl, controlCommand_edits s p _ _ hp (fun l h => h) fun t l hl e => ?_⟩
    dsimp only
    split
    · exact prepare_edits _ _ _ hp
    · refine Edits.trans ?_ (prepare_edits _ _ _ hp)
      exact .work hl (((quiet_pool t _ rfl).trans (plainEvent_work _ _ _ (by simp [bytesLE]))).trans (askEvaluation_work _))
  | clearCondition p =>
    have hp := s.owns_port (.clearCondition p) p rfl
    refine ⟨_, rfl, lineCommand_edits s p _ _ hp (fun l h => h) fun t l hl e => ?_⟩
    split
    · exact failCheck_edits _ _ _ hp
    · exact ((modAttachment_edits t p (fun x => { x with latch := 0 }) hl fun _ => ⟨rfl, rfl⟩).trans
        (edits_unpost _ _ _ hl)).trans (prepare_edits _ _ _ hp)
  | rearm p =>
    have hp := s.owns_port (.rearm p) p rfl
    refine ⟨_, rfl, lineCommand_edits s p _ _ hp (fun l h => h) fun t l hl e => ?_⟩
    split
    · exact failCheck_edits _ _ _ hp
    · split
      · rename_i a _ _ _ _
        have h := modAttachment_edits (on := s.actsOn (.rearm p)) (own := s.owns (.rearm p)) t p
          (fun x => { x with mode := .first (decide ((t.line l).unread a = 0)) }) hl fun _ => ⟨rfl, rfl⟩
        dsimp only
        refine Edits.trans ?_ (prepare_edits _ _ _ hp)
        split
        · exact h.trans (edits_post _ _ _ _ hl)
        · exact h
      all_goals exact failCheck_edits _ _ _ hp
  | abort p =>
    have hp := s.owns_port (.abort p) p rfl
    refine ⟨_, rfl, ?_⟩
    split
    · exact .refl s
    · exact (abortCommand_edits s p hp (fun l h => h) fun l h => s.waitingIn_owns _ l h).trans (edits_port _ p _ hp ⟨rfl, rfl⟩)
  | badCommand p code =>
    exact ⟨_, rfl, takeCommand_edits s p _ _ (s.owns_port _ p rfl) (prepare_edits _ _ _ (s.owns_port _ p rfl))⟩
  | argumentWrite p offset byte =>
    have hp := s.owns_port (.argumentWrite p offset byte) p rfl
    refine ⟨_, rfl, ?_⟩
    split
    · exact .refl s
    · refine edits_port s p _ hp ?_
      dsimp only
      unfold Port.storeArgument
      split_ifs <;> exact ⟨rfl, rfl⟩
  | dataWrite p byte =>
    exact dataWrite_edits s p byte (s.owns_port _ p rfl) hm (fun l h => h) fun l h => s.waitingIn_owns _ l h
  | dataRead p =>
    have hp := s.owns_port (.dataRead p) p rfl
    refine ⟨_, rfl, ?_⟩
    split
    · exact edits_port s p _ hp ⟨rfl, rfl⟩
    · split
      · exact dataRead_edits s p hp fun l h => h
      all_goals exact edits_port s p _ hp ⟨rfl, rfl⟩
  | fillEnd p => exact fillEnd_edits s p (s.owns_port _ p rfl)
  | portReset p =>
    refine ⟨_, rfl, ?_⟩
    split
    · exact .refl s
    · exact portReset_edits s p (s.owns_port _ p rfl) (fun _ => trivial) fun l => s.waitingIn_owns _ l trivial
  | portResetRelease p => exact ⟨_, rfl, edits_port s p _ (s.owns_port _ p rfl) ⟨rfl, rfl⟩⟩
  | deviceReset a b d => exact absurd rfl (hr a b d)
  | timebaseAdvance => exact absurd rfl ht
  | characterComplete l data parity stop =>
    refine ⟨_, rfl, ?_⟩
    split
    · exact .refl s
    · split
      · have hl : s.actsOn (.characterComplete l data parity stop) l := rfl
        refine Edits.trans (edits_io s _ hl ⟨rfl, rfl⟩) (classify_edits _ _ hl ?_)
        have h := hm.length l
        rw [Line.lengthOk] at h ⊢
        simpa using h
      all_goals exact .refl s
  | receiveLevelReport l level =>
    have h : Edits (s.actsOn (.receiveLevelReport l level)) (s.owns (.receiveLevelReport l level)) s
        (s.modIo l fun x => { x with pinHigh := (s.line l).pinAfter level }) := edits_io s _ rfl ⟨rfl, rfl⟩
    refine ⟨_, rfl, ?_⟩
    dsimp only
    split
    · exact (h.trans (seeLevel_edits _ _ rfl)).trans (takeLevelReport_edits _ _ rfl)
    · exact h
  | idleTimerExpiry l =>
    refine ⟨_, rfl, ?_⟩
    split
    · exact .work rfl ((closeOpen_work s _ _).1.trans (settle_work _))
    · exact .refl s
  | downTimerExpiry l =>
    refine ⟨_, rfl, ?_⟩
    split
    · have hl : s.actsOn (.downTimerExpiry l) l := rfl
      refine Edits.trans ?_ (endPause_edits _ hl)
      exact Edits.trans (edits_cond s _ hl) (conditionEvent_edits _ .lineDown [] (by simp) hl)
    · exact .refl s
  | upTimerExpiry l => exact execUpTimerExpiry_edits s l rfl
  | leaseExpiry l =>
    refine ⟨_, rfl, ?_⟩
    split
    · exact .refl s
    · rename_i w _
      split
      · refine Edits.trans ?_ (loseWriter_edits _ _ rfl)
        refine Edits.trans ?_ (endWaiting_edits _ _ rfl ?_)
        · exact Edits.trans (Edits.one (.demote s l w rfl)) (edits_post (on := s.actsOn (.leaseExpiry l)) (l := l) _ w .writeLost 4 rfl)
        · refine Line.waitingIn_of (s := s) ?_ (s.waitingIn_owns _ l rfl)
          simp [setRole, State.modAttachment_eq]
      · exact .refl s
  | holdTimerExpiry l =>
    refine ⟨_, rfl, ?_⟩
    split
    · exact .work rfl (((leaveHold_work s .spent).trans (placeFlow_work _ .xon)).trans (event_work _ .holdTimeout [] (by simp)))
    · exact .refl s
  | pacingGapExpiry l =>
    refine ⟨_, rfl, ?_⟩
    split
    · split
      · exact startPoint_edits s rfl
      · exact .refl s
    all_goals exact .refl s
  | breakDurationExpiry l =>
    refine ⟨_, rfl, ?_⟩
    split
    · split
      · exact edits_line s _ rfl ⟨rfl, cutBreak_queue _, rfl, rfl, rfl, rfl, rfl, rfl, rfl, rfl⟩
      · exact .refl s
    all_goals exact .refl s
  | breakClosingEnd l =>
    refine ⟨_, rfl, ?_⟩
    split
    · exact startPoint_edits s rfl
    all_goals exact .refl s
  | sendCharacterEnd l =>
    refine ⟨_, rfl, ?_⟩
    split
    · split
      · exact startPoint_edits s rfl
      · exact edits_line s _ rfl ⟨rfl, rfl, rfl, rfl, rfl, rfl, rfl, rfl, rfl, rfl⟩
    all_goals exact .refl s
  | sendRunPlacement l => exact ⟨_, rfl, placeRun_edits s rfl (hm.length l) (s.waitingIn_owns _ l rfl)⟩
  | breakMarkerPlacement l => exact ⟨_, rfl, placeMarker_edits s rfl (s.waitingIn_owns _ l rfl)⟩
  | completion p =>
    refine ⟨_, rfl, ?_⟩
    split
    · exact completeCommand_edits _ _ _ (s.owns_port _ p rfl)
    all_goals exact .refl s
  | falseStart l => exact ⟨_, rfl, edits_io s _ rfl ⟨rfl, rfl⟩⟩

end Sys2Proof.Machine
end

