-- ==== Sys2Proof/Laws/Invariants.lean ====
section
/-! SUPPORT. The invariants of the part are kept by each edit. A proof about a step goes through exec_edits and these. -/

namespace Sys2Proof.Machine

variable {on : LineId → Prop} {own : PortId → Prop} {s t : State}

/-! ## One line at a time -/

/-- What an edit does to the queue, the attachments and the settings of each line: nothing, or what the edit says. -/
theorem State.line_modLine_cases (s : State) (l k : LineId) (f : Line → Line) {P : Line → Prop}
    (h : P (s.line k)) (hf : k = l → P (f (s.line l))) : P ((s.modLine l f).line k) := by
  rw [State.line_modLine]
  split
  · exact hf ‹_›
  · exact h

/-! ## Settings (R42) -/

theorem WorkStep.settings {l : LineId} (w : WorkStep l s t) (h : SettingsOk s) : SettingsOk t := by
  intro k
  by_cases e : k = l
  · subst e
    have := (Work.one w).io
    rw [this]; exact h k
  · rw [w.frame.2.2.2.2.1 k e]; exact h k

theorem Edit.settings_ok (w : Edit on own s t) (h : SettingsOk s) : SettingsOk t := by
  have keep : ∀ (l : LineId) (f : Line → Line), ((s.line l).io.inRange = true → (f (s.line l)).io.inRange = true) →
      SettingsOk (s.modLine l f) := fun l f hf k =>
    State.line_modLine_cases s l k f (P := fun x => x.io.inRange = true) (h k) fun _ => hf (h l)
  cases w with
  | work l hl w => exact w.settings h
  | line l f hl k =>
    refine keep l f fun hs => ?_
    obtain ⟨_, _, _, _, _, _, _, _, e1, e2⟩ := k
    simp only [Interface.inRange] at hs ⊢
    rw [e1, e2]; exact hs
  | settings l f hl k hr => exact keep l f hr
  | enqueue l es hl k => exact keep l _ id
  | dequeue l e rest hl k => exact keep l _ id
  | clearQueue l hl => exact keep l _ id
  | join l a hl k hr => exact keep l _ id
  | leave l p hl => exact keep l _ id
  | adjust l g hl k => exact keep l _ id
  | demote l p hl => exact keep l _ id
  | promote l p hl k => exact keep l _ id
  | take l w p hl k =>
    unfold setRole
    simp only [State.modAttachment_eq, State.modAtt_eq, State.modLine_modLine]
    exact keep l _ id
  | opening l c hl ho hp hr => exact keep l _ id
  | append l o c hl ho => exact keep l _ id
  | quota l reserve limit hl k =>
    have h1 : SettingsOk (withQuota s l reserve limit) := keep l _ id
    split
    · exact h1
    · intro k
      exact State.line_modLine_cases _ l k _ (P := fun x => x.io.inRange = true) (h1 k) fun _ => h1 l
  | clear l hl ho hp =>
    intro k
    exact State.line_modLine_cases _ l k _ (P := fun x => x.io.inRange = true) (h k) fun _ => h l
  | port p f hp k => exact fun l => h l
  | causes p cs hp k => exact fun l => h l
  | spend => exact fun l => h l

/-! ## Queues (R133) -/

theorem WorkStep.queue {l : LineId} (w : WorkStep l s t) (k : LineId) : (t.line k).tx.queue = (s.line k).tx.queue := by
  by_cases e : k = l
  · subst e
    exact w.frame.2.2.2.2.2.2.2.2.2.2.1
  · rw [w.frame.2.2.2.2.1 k e]

theorem Edit.queueBound (w : Edit on own s t) (h : QueueBound s) : QueueBound t := by
  have keep : ∀ (u : State) (l : LineId) (f : Line → Line), QueueBound u →
      (f (u.line l)).tx.queue.length ≤ Config.queueSize → QueueBound (u.modLine l f) := fun u l f hu hf k =>
    State.line_modLine_cases u l k f (P := fun x => x.tx.queue.length ≤ Config.queueSize) (hu k) fun _ => hf
  cases w with
  | work l hl w => exact fun k => by rw [w.queue k]; exact h k
  | line l f hl k => exact keep s l f h (by rw [k.2.1]; exact h l)
  | settings l f hl k hr => exact keep s l f h (by rw [k.2.1]; exact h l)
  | enqueue l es hl k =>
    refine keep s l _ h ?_
    have := h l
    simp only [Transmit.free] at k
    simp only [List.length_append]
    omega
  | dequeue l e rest hl k =>
    refine keep s l _ h ?_
    have := h l
    rw [k] at this
    exact Nat.le_of_succ_le this
  | clearQueue l hl => exact keep s l _ h (by simp)
  | join l a hl k hr => exact keep s l _ h (h l)
  | leave l p hl => exact keep s l _ h (h l)
  | adjust l g hl k => exact keep s l _ h (h l)
  | demote l p hl => exact keep s l _ h (h l)
  | promote l p hl k => exact keep s l _ h (h l)
  | take l w p hl k =>
    unfold setRole
    simp only [State.modAttachment_eq, State.modAtt_eq, State.modLine_modLine]
    exact keep s l _ h (h l)
  | opening l c hl ho hp hr => exact keep s l _ h (h l)
  | append l o c hl ho => exact keep s l _ h (h l)
  | quota l reserve limit hl k =>
    have h1 : QueueBound (withQuota s l reserve limit) := keep s l _ h (h l)
    split
    · exact h1
    · exact keep { withQuota s l reserve limit with freePages := _ } l _ h1 (h1 l)
  | clear l hl ho hp => exact keep { s with freePages := _ } l _ h (h l)
  | port p f hp k => exact fun l => h l
  | causes p cs hp k => exact fun l => h l
  | spend => exact fun l => h l

/-! ## Attachments (R98) -/

/-- A line's attachment list in order (R98). -/
def Line.tableOk (x : Line) : Prop :=
  (x.att.list.map (·.port)).Nodup ∧ (x.att.list.filter fun a => decide (a.role = .writer)).length ≤ 1

theorem WorkStep.attachmentTable {l : LineId} (w : WorkStep l s t) (h : AttachmentTable s) : AttachmentTable t := by
  intro k
  by_cases e : k = l
  · subst e
    cases w with
    | mark g hg =>
      have e1 : ∀ as : List Attachment, (as.map g).map (·.port) = as.map (·.port) := by
        intro as
        simp only [List.map_map]
        refine List.map_congr_left fun a _ => ?_
        simp only [Function.comp]
        rw [(hg a).1]
      have e2 : ∀ as : List Attachment, ((as.map g).filter fun a => decide (a.role = .writer)).length
          = (as.filter fun a => decide (a.role = .writer)).length := by
        intro as
        rw [List.filter_map, List.length_map]
        congr 1
        refine List.filter_congr fun a _ => ?_
        simp only [Function.comp]
        rw [(hg a).1]
      simp only [State.modAtt_eq, State.line_modLine_self]
      rw [e1, e2]; exact h k
    | post p kk d => exact h k
    | unpost p kk => exact h k
    | quiet f hf =>
      simp only [State.line_modLine_self]
      rw [hf]; exact h k
    | give n rest ho hn hm hf =>
      unfold giveFree
      simp only [State.line_modLine_self]; exact h k
    | recycle oldest rest ho hn hz hp =>
      unfold recyclePage
      simp only [State.line_modLine_self]; exact h k
    | place kind cause detail body ho hp hr =>
      unfold placeRecord
      simp only [State.line_modLine_self]; exact h k
    | close o cause detail ho =>
      unfold closeRecord
      simp only [State.line_modLine_self]; exact h k
  · rw [w.frame.2.2.2.2.1 k e]; exact h k

/-- A role set on a list changes no port. -/
theorem map_port_role (as : List Attachment) (p : PortId) (r : Role) :
    (as.map fun a => if a.port = p then { a with role := r } else a).map (·.port) = as.map (·.port) := by
  simp only [List.map_map]
  refine List.map_congr_left fun a _ => ?_
  simp only [Function.comp]
  split <;> rfl

/-- Making one port a watcher adds no writer. -/
theorem writers_demote (as : List Attachment) (p : PortId) :
    ((as.map fun a => if a.port = p then { a with role := .watcher } else a).filter fun a => decide (a.role = .writer)).length
      ≤ (as.filter fun a => decide (a.role = .writer)).length := by
  induction as with
  | nil => simp
  | cons a as ih =>
    simp only [List.map_cons, List.filter_cons]
    split_ifs <;> simp_all
    all_goals omega

/-- Making one port the writer of a list without one leaves at most one. -/
theorem writers_promote (as : List Attachment) (p : PortId) (hn : (as.map (·.port)).Nodup) (h : ∀ a ∈ as, a.role = .watcher) :
    ((as.map fun a => if a.port = p then { a with role := .writer } else a).filter fun a => decide (a.role = .writer)).length
      ≤ 1 := by
  induction as with
  | nil => simp
  | cons a as ih =>
    have ih := ih (List.nodup_cons.mp hn).2 fun b hb => h b (by simp [hb])
    simp only [List.map_cons, List.filter_cons]
    by_cases e : a.port = p
    · have rest : ∀ b ∈ as, b.port ≠ p := by
        intro b hb e'
        apply (List.nodup_cons.mp hn).1
        exact List.mem_map.mpr ⟨b, hb, e'.trans e.symm⟩
      have e0 : ((as.map fun a => if a.port = p then { a with role := Role.writer } else a).filter
          fun a => decide (a.role = .writer)) = [] := by
        rw [List.filter_eq_nil_iff]
        intro b hb
        obtain ⟨c, hc, rfl⟩ := List.mem_map.mp hb
        rw [if_neg (rest c hc)]
        simp [h c (by simp [hc])]
      rw [e0]
      simp [e]
    · simp [e, h a (by simp), ih]

/-- A line without a writer has watchers only. -/
theorem Line.writer_none {x : Line} (h : x.writer = none) : ∀ a ∈ x.att.list, a.role = .watcher := by
  intro a ha
  simp only [Line.writer, Option.map_eq_none_iff, List.find?_eq_none] at h
  have := h a ha
  cases e : a.role with
  | watcher => rfl
  | writer => simp [e] at this

/-- With at most one writer, making the writer a watcher leaves none. -/
theorem watchers_demote (as : List Attachment) (w : PortId)
    (h1 : (as.filter fun a => decide (a.role = .writer)).length ≤ 1)
    (hw : (as.find? fun a => decide (a.role = .writer)).map (·.port) = some w) :
    ∀ a ∈ as.map (fun a => if a.port = w then { a with role := Role.watcher } else a), a.role = .watcher := by
  intro a ha
  obtain ⟨b, hb, rfl⟩ := List.mem_map.mp ha
  split
  · rfl
  · rename_i e
    cases er : b.role with
    | watcher => rfl
    | writer =>
      obtain ⟨c, hc, ec⟩ := Option.map_eq_some_iff.mp hw
      have mc : c ∈ as.filter fun a => decide (a.role = .writer) := by
        rw [List.mem_filter]
        exact ⟨List.mem_of_find?_eq_some hc, List.find?_some (p := fun a : Attachment => decide (a.role = .writer)) hc⟩
      have mb : b ∈ as.filter fun a => decide (a.role = .writer) := by
        rw [List.mem_filter]
        exact ⟨hb, by simp [er]⟩
      have : b = c := by
        rcases hl : as.filter (fun a => decide (a.role = .writer)) with _ | ⟨d, _ | ⟨d', ds⟩⟩
        · rw [hl] at mb; simp at mb
        · rw [hl] at mb mc
          simp only [List.mem_singleton] at mb mc
          rw [mb, mc]
        · rw [hl] at h1
          simp at h1
      exact absurd (this ▸ ec) e

theorem Edit.attachmentTable (w : Edit on own s t) (h : AttachmentTable s) : AttachmentTable t := by
  have keep : ∀ (u : State) (l : LineId) (f : Line → Line), AttachmentTable u → (f (u.line l)).tableOk →
      AttachmentTable (u.modLine l f) := fun u l f hu hf k =>
    State.line_modLine_cases u l k f (P := Line.tableOk) (hu k) fun _ => hf
  have demote : ∀ (l : LineId) (p : PortId), AttachmentTable (setRole s l p .watcher) := by
    intro l p
    refine keep s l _ h ⟨?_, ?_⟩
    · rw [map_port_role]; exact (h l).1
    · exact (writers_demote _ p).trans (h l).2
  cases w with
  | work l hl w => exact w.attachmentTable h
  | line l f hl k => exact keep s l f h (by unfold Line.tableOk; rw [k.1]; exact h l)
  | settings l f hl k hr => exact keep s l f h (by unfold Line.tableOk; rw [k.1]; exact h l)
  | enqueue l es hl k => exact keep s l _ h (h l)
  | dequeue l e rest hl k => exact keep s l _ h (h l)
  | clearQueue l hl => exact keep s l _ h (h l)
  | join l a hl k hr =>
    refine keep s l _ h ⟨?_, ?_⟩
    · simp only [List.map_append, List.map_cons, List.map_nil]
      refine List.nodup_append'.mpr ⟨(h l).1, by simp, ?_⟩
      simp only [List.disjoint_singleton]
      intro hm
      obtain ⟨b, hb, eb⟩ := List.mem_map.mp hm
      simp only [Line.attachment, List.find?_eq_none] at k
      exact k b hb (by simp [eb])
    · simp only [List.filter_append, List.length_append]
      have := (h l).2
      simp [hr, this]
  | leave l p hl =>
    refine keep s l _ h ⟨?_, ?_⟩
    · exact List.Nodup.sublist (List.Sublist.map _ List.filter_sublist) (h l).1
    · exact (List.Sublist.length_le (List.Sublist.filter _ List.filter_sublist)).trans (h l).2
  | adjust l g hl k =>
    refine keep s l _ h ⟨?_, ?_⟩
    · have e : (((s.line l).att.list.map g).map (·.port)) = (s.line l).att.list.map (·.port) := by
        simp only [List.map_map]
        exact List.map_congr_left fun a _ => (k a).1
      rw [e]; exact (h l).1
    · rw [List.filter_map, List.length_map]
      refine le_of_eq_of_le ?_ (h l).2
      congr 1
      exact List.filter_congr fun a _ => by simp [Function.comp, (k a).2]
  | demote l p hl => exact demote l p
  | promote l p hl k =>
    refine keep s l _ h ⟨?_, ?_⟩
    · rw [map_port_role]; exact (h l).1
    · exact writers_promote _ p (h l).1 (Line.writer_none k)
  | take l w p hl k =>
    refine keep (setRole s l w .watcher) l _ (demote l w) ⟨?_, ?_⟩
    · rw [map_port_role]; exact (demote l w l).1
    · refine writers_promote _ p (demote l w l).1 ?_
      have e : ((setRole s l w .watcher).line l).att.list
          = (s.line l).att.list.map fun a => if a.port = w then { a with role := .watcher } else a := by
        simp [setRole, State.modAttachment_eq]
      rw [e]
      exact watchers_demote _ w (h l).2 k
  | opening l c hl ho hp hr => exact keep s l _ h (h l)
  | append l o c hl ho => exact keep s l _ h (h l)
  | quota l reserve limit hl k =>
    have h1 : AttachmentTable (withQuota s l reserve limit) := keep s l _ h (h l)
    split
    · exact h1
    · exact keep { withQuota s l reserve limit with freePages := _ } l _ h1 (h1 l)
  | clear l hl ho hp => exact keep { s with freePages := _ } l _ h (h l)
  | port p f hp k => exact fun l => h l
  | causes p cs hp k => exact fun l => h l
  | spend => exact fun l => h l

/-! ## Causes (R160, R170) -/

theorem postCause_head (c : Cause) (cs : List Cause) : ∀ d ∈ postCause c cs, d = c ∨ d ∈ cs := by
  induction cs with
  | nil => simp [postCause]
  | cons e es ih =>
    intro d hd
    simp only [postCause] at hd
    split at hd
    · simpa using hd
    · split at hd
      · exact .inr hd
      · rcases List.mem_cons.mp hd with rfl | hd
        · simp
        · rcases ih d hd with rfl | h
          · simp
          · simp [h]

theorem postCause_order (c : Cause) (cs : List Cause) (h : (cs.map Cause.rank).Pairwise (· < ·)) :
    ((postCause c cs).map Cause.rank).Pairwise (· < ·) := by
  induction cs with
  | nil => simp [postCause]
  | cons e es ih =>
    simp only [List.map_cons, List.pairwise_cons, List.mem_map, forall_exists_index, and_imp,
      forall_apply_eq_imp_iff₂] at h
    simp only [postCause]
    split
    · rename_i hlt
      simp only [List.map_cons, List.pairwise_cons, List.mem_cons, List.mem_map]
      refine ⟨?_, ?_, h.2⟩
      · rintro r (rfl | ⟨d, hd, rfl⟩)
        · exact hlt
        · exact hlt.trans (h.1 d hd)
      · rintro r ⟨d, hd, rfl⟩
        exact h.1 d hd
    · split
      · simp only [List.map_cons, List.pairwise_cons, List.mem_map]
        refine ⟨?_, h.2⟩
        rintro r ⟨d, hd, rfl⟩
        exact h.1 d hd
      · rename_i h1 h2
        simp only [List.map_cons, List.pairwise_cons, List.mem_map]
        refine ⟨?_, ih h.2⟩
        rintro r ⟨d, hd, rfl⟩
        rcases postCause_head c es d hd with rfl | hd
        · omega
        · exact h.1 d hd

theorem CauseOrder.modPort {u : State} {p : PortId} {f : Port → Port} (h : CauseOrder u)
    (hf : ((f (u.port p)).causes.map Cause.rank).Pairwise (· < ·)) : CauseOrder (u.modPort p f) := by
  intro q
  rw [State.port_modPort]
  split
  · exact hf
  · exact h q

theorem CauseOrder.of_ports {u v : State} (h : CauseOrder u) (e : ∀ p, v.port p = u.port p) : CauseOrder v :=
  fun p => by rw [e p]; exact h p

theorem WorkStep.causeOrder {l : LineId} (w : WorkStep l s t) (h : CauseOrder s) : CauseOrder t := by
  cases w with
  | post p k d => exact h.modPort (postCause_order _ _ (h p))
  | unpost p k => exact h.modPort ((h p).sublist (List.Sublist.map _ List.filter_sublist))
  | mark g hg => exact h
  | quiet f hf => exact h
  | give n rest ho hn hm hf => exact h
  | recycle oldest rest ho hn hz hp => exact h
  | place kind cause detail body ho hp hr => exact h
  | close o cause detail ho => exact h

theorem Edit.causeOrder (w : Edit on own s t) (h : CauseOrder s) : CauseOrder t := by
  cases w with
  | work l hl w => exact w.causeOrder h
  | quota l reserve limit hl k => split <;> exact h
  | port p f hp k => exact h.modPort (by rw [k.1]; exact h p)
  | causes p cs hp k => exact h.modPort ((h p).sublist (List.Sublist.map _ k))
  | line l f hl k => exact h
  | settings l f hl k hr => exact h
  | enqueue l es hl k => exact h
  | dequeue l e rest hl k => exact h
  | clearQueue l hl => exact h
  | join l a hl k hr => exact h
  | leave l p hl => exact h
  | adjust l g hl k => exact h
  | demote l p hl => exact h
  | promote l p hl k => exact h
  | take l w p hl k => exact h
  | opening l c hl ho hp hr => exact h
  | append l o c hl ho => exact h
  | clear l hl ho hp => exact h
  | spend => exact h

end Sys2Proof.Machine
end

