-- ==== Sys2Proof/Laws/Pages.lean ====
section
/-! SUPPORT. The pages and the quotas under each edit: which pages there are, and the bounds of R29. -/

namespace Sys2Proof.Machine
variable {on : LineId → Prop} {own : PortId → Prop} {s t : State}

/-! ## Sums over the lines -/

/-- A sum over the lines as a list is a sum over their names. -/
theorem State.sum_lines (s : State) (g : Line → Nat) : (s.lines.toList.map g).sum = ∑ l : LineId, g (s.line l) := by
  have e : s.lines.toList = List.ofFn fun l : LineId => s.line l := by
    apply List.ext_getElem
    · simp
    · intro i h1 h2
      rw [List.getElem_ofFn]
      rfl
  rw [e, List.map_ofFn, List.sum_ofFn]
  rfl

/-- Two sums over the lines that differ at one line. -/
theorem sum_change {f g : LineId → Nat} (l : LineId) (h : ∀ k, k ≠ l → g k = f k) :
    (∑ k, g k) + f l = (∑ k, f k) + g l := by
  rw [← Finset.sum_erase_add _ g (Finset.mem_univ l), ← Finset.sum_erase_add _ f (Finset.mem_univ l)]
  have e : ∑ k ∈ Finset.univ.erase l, g k = ∑ k ∈ Finset.univ.erase l, f k :=
    Finset.sum_congr rfl fun k hk => h k (Finset.ne_of_mem_erase hk)
  rw [e]; omega

/-- How often a page is on the free list and the page lists. -/
def State.countPage (s : State) (n : Nat) : Nat :=
  s.freePages.count n + ∑ l : LineId, ((s.line l).pool.pages.map (·.number)).count n

theorem pagePartition_iff (s : State) : PagePartition s ↔ ∀ n, s.countPage n = (List.range Config.pageCount).count n := by
  unfold PagePartition
  rw [List.perm_iff_count]
  have e : ∀ n, (s.freePages ++ (List.finRange 16).flatMap fun l => (s.line l).pool.pages.map (·.number)).count n
      = s.countPage n := by
    intro n
    rw [List.count_append, List.count_flatMap]
    unfold State.countPage
    rw [← List.sum_ofFn, List.ofFn_eq_map]
    rfl
  constructor
  · intro h n; rw [← e n]; exact h n
  · intro h n; rw [e n]; exact h n

/-- Pages keep their places when the free list and the page lists count each page as before. -/
theorem PagePartition.of_count (h : PagePartition s) (e : ∀ n, t.countPage n = s.countPage n) : PagePartition t := by
  rw [pagePartition_iff] at h ⊢
  exact fun n => (e n).trans (h n)

theorem countPage_of_same (hf : t.freePages = s.freePages)
    (hl : ∀ l, (t.line l).pool.pages.map (·.number) = (s.line l).pool.pages.map (·.number)) (n : Nat) :
    t.countPage n = s.countPage n := by
  unfold State.countPage
  rw [hf]
  simp only [hl]

theorem map_number_onCurrentPage (f : Page → Page) (hf : ∀ pg, (f pg).number = pg.number) (ps : List Page) :
    (onCurrentPage f ps).map (·.number) = ps.map (·.number) := by
  induction ps with
  | nil => rfl
  | cons a as ih =>
    cases as with
    | nil => simp [onCurrentPage, hf]
    | cons b bs =>
      simp only [onCurrentPage, List.map_cons] at ih ⊢
      rw [ih]

/-- A change of one line, and of the free list, that keeps the count of each page. -/
theorem countPage_change {l : LineId} (n : Nat) (hk : ∀ k, k ≠ l → t.line k = s.line k)
    (h : t.freePages.count n + ((t.line l).pool.pages.map (·.number)).count n
      = s.freePages.count n + ((s.line l).pool.pages.map (·.number)).count n) : t.countPage n = s.countPage n := by
  have := sum_change (f := fun k => ((s.line k).pool.pages.map (·.number)).count n)
    (g := fun k => ((t.line k).pool.pages.map (·.number)).count n) l fun k e => by rw [hk k e]
  unfold State.countPage
  omega

theorem modLine_same (u : State) (l : LineId) (f : Line → Line)
    (hf : (f (u.line l)).pool.pages.map (·.number) = (u.line l).pool.pages.map (·.number)) (n : Nat) :
    (u.modLine l f).countPage n = u.countPage n :=
  countPage_of_same (s := u) (t := u.modLine l f) rfl (fun k => by
    rw [State.line_modLine]
    split
    · rename_i e
      subst e
      exact hf
    · rfl) n

theorem WorkStep.countPage {l : LineId} (w : WorkStep l s t) (n : Nat) : t.countPage n = s.countPage n := by
  cases w with
  | post p k d => exact countPage_of_same rfl (fun _ => rfl) n
  | unpost p k => exact countPage_of_same rfl (fun _ => rfl) n
  | mark g hg => exact modLine_same s l _ rfl n
  | quiet f hf => exact modLine_same s l _ (by rw [hf]) n
  | give m rest ho hn hm hf =>
    refine countPage_change (l := l) n (fun k hk => State.line_modLine_ne _ _ _ _ hk) ?_
    unfold giveFree
    simp only [State.line_modLine_self, State.freePages_modLine]
    rw [hf]
    change _ + ((((s.line l).pool.pages ++ [Page.fresh m]).map (·.number)).count n) = _
    simp only [List.map_append, List.count_append, List.map_cons, List.map_nil, Page.fresh, List.count_cons, List.count_nil]
    omega
  | recycle oldest rest ho hn hz hp =>
    refine countPage_change (l := l) n (fun k hk => State.line_modLine_ne _ _ _ _ hk) ?_
    unfold recyclePage
    simp only [State.line_modLine_self, State.freePages_modLine]
    rw [hp]
    simp only [List.map_append, List.count_append, List.map_cons, List.map_nil, Page.fresh, List.count_cons, List.count_nil]
    omega
  | place kind cause detail body ho hp hr =>
    refine modLine_same s l _ ?_ n
    dsimp only
    refine map_number_onCurrentPage _ (fun pg => ?_) _
    rfl
  | close o cause detail ho =>
    refine modLine_same s l _ ?_ n
    dsimp only
    refine map_number_onCurrentPage _ (fun pg => ?_) _
    rfl


/-- Pages dropped from a line are at the tail of the free list. -/
theorem dropPages_countPage (u : State) (l : LineId) (k n : Nat) : (dropPages u l k).countPage n = u.countPage n := by
  refine countPage_change (l := l) n (fun k hk => State.line_modLine_ne _ _ _ _ hk) ?_
  unfold dropPages
  simp only [State.line_modLine_self, State.freePages_modLine, List.count_append]
  have e : (u.line l).pool.pages.map (·.number)
      = ((u.line l).pool.pages.take k).map (·.number) ++ ((u.line l).pool.pages.drop k).map (·.number) := by
    rw [← List.map_append, List.take_append_drop]
  rw [e, List.count_append]
  have : ((({ u with freePages := u.freePages ++ ((u.line l).pool.pages.take k).map (·.number) } : State).line l)) = u.line l := rfl
  omega

theorem Edit.countPage (w : Edit on own s t) (n : Nat) : t.countPage n = s.countPage n := by
  cases w with
  | work l hl w => exact w.countPage n
  | line l f hl k => exact modLine_same s l f (by rw [k.2.2.2.2.2.1]) n
  | settings l f hl k hr => exact modLine_same s l f (by rw [k.2.2.2.2.2.1]) n
  | enqueue l es hl k => exact modLine_same s l _ rfl n
  | dequeue l e rest hl k => exact modLine_same s l _ rfl n
  | clearQueue l hl => exact modLine_same s l _ rfl n
  | join l a hl k hr => exact modLine_same s l _ rfl n
  | leave l p hl => exact modLine_same s l _ rfl n
  | adjust l g hl k => exact modLine_same s l _ rfl n
  | demote l p hl => exact modLine_same s l _ rfl n
  | promote l p hl k => exact modLine_same s l _ rfl n
  | take l w p hl k =>
    unfold setRole
    simp only [State.modAttachment_eq, State.modAtt_eq, State.modLine_modLine]
    exact modLine_same s l _ rfl n
  | opening l c hl ho hp hr =>
    refine modLine_same s l _ ?_ n
    dsimp only
    refine map_number_onCurrentPage _ (fun pg => ?_) _
    rfl
  | append l o c hl ho =>
    refine modLine_same s l _ ?_ n
    dsimp only
    refine map_number_onCurrentPage _ (fun pg => ?_) _
    rfl
  | quota l reserve limit hl k =>
    have h1 : (withQuota s l reserve limit).countPage n = s.countPage n := modLine_same s l _ rfl n
    split
    · exact h1
    · rw [dropPages_countPage]; exact h1
  | clear l hl ho hp => exact dropPages_countPage s l _ n
  | port p f hp k => exact countPage_of_same rfl (fun _ => rfl) n
  | causes p cs hp k => exact countPage_of_same rfl (fun _ => rfl) n
  | spend => exact countPage_of_same rfl (fun _ => rfl) n

theorem Edit.pagePartition (w : Edit on own s t) (h : PagePartition s) : PagePartition t := h.of_count w.countPage

/-! ## Quotas (R24, R29) -/

/-- The bounds of R29 with the sums written over the names of the lines. -/
theorem quotaBounds_iff (s : State) : QuotaBounds s ↔
    (∀ l, 1 ≤ (s.line l).pool.reserve ∧ (s.line l).pool.reserve ≤ 128 ∧ (s.line l).pool.reserve ≤ (s.line l).pool.limit
      ∧ (s.line l).pool.limit ≤ Config.pageCount ∧ (s.line l).held ≤ (s.line l).pool.limit)
    ∧ ∑ l, (s.line l).pool.reserve ≤ Config.pageCount
    ∧ ∑ l, ((s.line l).pool.reserve - (s.line l).held) ≤ s.freePages.length := by
  unfold QuotaBounds State.outstanding
  rw [State.sum_lines, State.sum_lines]

/-- The bounds hold still when one line changes within its range and the sums stay within theirs. -/
theorem QuotaBounds.change {l : LineId} (h : QuotaBounds s) (hk : ∀ k, k ≠ l → t.line k = s.line k)
    (hl : 1 ≤ (t.line l).pool.reserve ∧ (t.line l).pool.reserve ≤ 128 ∧ (t.line l).pool.reserve ≤ (t.line l).pool.limit
      ∧ (t.line l).pool.limit ≤ Config.pageCount ∧ (t.line l).held ≤ (t.line l).pool.limit)
    (hr : ∑ k, (s.line k).pool.reserve + (t.line l).pool.reserve ≤ Config.pageCount + (s.line l).pool.reserve)
    (ho : ∑ k, ((s.line k).pool.reserve - (s.line k).held) + ((t.line l).pool.reserve - (t.line l).held)
      ≤ t.freePages.length + ((s.line l).pool.reserve - (s.line l).held)) : QuotaBounds t := by
  rw [quotaBounds_iff] at h ⊢
  have e1 := sum_change (f := fun k => (s.line k).pool.reserve) (g := fun k => (t.line k).pool.reserve) l
    fun k e => by rw [hk k e]
  have e2 := sum_change (f := fun k => (s.line k).pool.reserve - (s.line k).held)
    (g := fun k => (t.line k).pool.reserve - (t.line k).held) l fun k e => by rw [hk k e]
  refine ⟨fun k => ?_, by omega, by omega⟩
  by_cases e : k = l
  · subst e; exact hl
  · rw [hk k e]; exact h.1 k

/-- The bounds hold still when a line keeps its reserve, its limit and the number of its pages. -/
theorem QuotaBounds.modLine {u : State} {l : LineId} {f : Line → Line} (h : QuotaBounds u)
    (h1 : (f (u.line l)).pool.reserve = (u.line l).pool.reserve) (h2 : (f (u.line l)).pool.limit = (u.line l).pool.limit)
    (h3 : (f (u.line l)).pool.pages.length = (u.line l).pool.pages.length) : QuotaBounds (u.modLine l f) := by
  have hq := h
  rw [quotaBounds_iff] at hq
  refine h.change (l := l) (fun k hk => State.line_modLine_ne _ _ _ _ hk) ?_ ?_ ?_
  all_goals simp only [State.line_modLine_self, Line.held, h1, h2, h3, State.freePages_modLine]
  · exact hq.1 l
  · have := hq.2.1
    omega
  · have := hq.2.2
    simp only [Line.held] at this
    omega

theorem length_onCurrentPage (f : Page → Page) (ps : List Page) : (onCurrentPage f ps).length = ps.length := by
  induction ps with
  | nil => rfl
  | cons a as ih =>
    cases as with
    | nil => simp [onCurrentPage]
    | cons b bs =>
      simp only [onCurrentPage, List.length_cons] at ih ⊢
      omega

theorem WorkStep.quotaBounds {l : LineId} (w : WorkStep l s t) (h : QuotaBounds s) : QuotaBounds t := by
  cases w with
  | post p k d => exact h
  | unpost p k => exact h
  | mark g hg => exact h.modLine rfl rfl rfl
  | quiet f hf => exact h.modLine (by rw [hf]) (by rw [hf]) (by rw [hf])
  | give m rest ho hn hm hf =>
    have hq := h
    rw [quotaBounds_iff] at hq
    simp only [mayTakeFree, Bool.and_eq_true, Bool.or_eq_true, decide_eq_true_eq, State.outstanding, State.sum_lines] at hm
    rw [hf, List.length_cons] at hm
    have e : ((giveFree s l m rest).line l).pool = { (s.line l).pool with pages := (s.line l).pool.pages ++ [Page.fresh m] } := by
      unfold giveFree
      rw [State.line_modLine_self]
      rfl
    have eh : ((giveFree s l m rest).line l).held = (s.line l).held + 1 := by
      simp only [Line.held, e]
      simp
    have q1 := hq.1 l
    refine h.change (l := l) (fun k hk => State.line_modLine_ne _ _ _ _ hk) ?_ ?_ ?_
    · rw [eh, e]
      exact ⟨q1.1, q1.2.1, q1.2.2.1, q1.2.2.2.1, hm.1⟩
    · rw [e]
      have := hq.2.1
      dsimp only
      omega
    · have ef : (giveFree s l m rest).freePages = rest := rfl
      rw [eh, e, ef]
      have h2 := hq.2.2
      rw [hf, List.length_cons] at h2
      dsimp only
      rcases hm.2 with h3 | h3 <;> omega
  | recycle oldest rest ho hn hz hp =>
    refine h.modLine rfl rfl ?_
    rw [hp]
    simp
  | place kind cause detail body ho hp hr =>
    refine h.modLine rfl rfl ?_
    dsimp only
    exact length_onCurrentPage _ _
  | close o cause detail ho =>
    refine h.modLine rfl rfl ?_
    dsimp only
    exact length_onCurrentPage _ _

/-- The oldest pages of a line dropped, with another reserve and limit for it. -/
theorem QuotaBounds.drop {u : State} {l : LineId} {d : Nat} (h : QuotaBounds s) (hk : ∀ k, k ≠ l → u.line k = s.line k)
    (hp : (u.line l).pool.pages = (s.line l).pool.pages) (hf : u.freePages = s.freePages)
    (hl : 1 ≤ (u.line l).pool.reserve ∧ (u.line l).pool.reserve ≤ 128 ∧ (u.line l).pool.reserve ≤ (u.line l).pool.limit
      ∧ (u.line l).pool.limit ≤ Config.pageCount) (hh : (s.line l).held - d ≤ (u.line l).pool.limit)
    (hr : ∑ k, (s.line k).pool.reserve + (u.line l).pool.reserve ≤ Config.pageCount + (s.line l).pool.reserve)
    (ho : ∑ k, ((s.line k).pool.reserve - (s.line k).held) + ((u.line l).pool.reserve - ((s.line l).held - d))
      ≤ s.freePages.length + ((s.line l).held - ((s.line l).held - d)) + ((s.line l).pool.reserve - (s.line l).held)) :
    QuotaBounds (dropPages u l d) := by
  have e : ((dropPages u l d).line l).pool = { (u.line l).pool with pages := (u.line l).pool.pages.drop d } := by
    unfold dropPages
    rw [State.line_modLine_self]
    rfl
  have eh : ((dropPages u l d).line l).held = (s.line l).held - d := by
    simp only [Line.held, e, hp]
    simp
  have ef : (dropPages u l d).freePages.length = s.freePages.length + ((s.line l).held - ((s.line l).held - d)) := by
    unfold dropPages
    simp only [State.freePages_modLine, List.length_append, List.length_map, List.length_take, hp, hf, Line.held]
    omega
  refine h.change (l := l) (fun k hk' => (State.line_modLine_ne _ _ _ _ hk').trans (hk k hk')) ?_ ?_ ?_
  · rw [eh, e]
    exact ⟨hl.1, hl.2.1, hl.2.2.1, hl.2.2.2, hh⟩
  · rw [e]; exact hr
  · rw [eh, e, ef]; exact ho

theorem Edit.quotaBounds (w : Edit on own s t) (h : QuotaBounds s) : QuotaBounds t := by
  have hq := h
  rw [quotaBounds_iff] at hq
  cases w with
  | work l hl w => exact w.quotaBounds h
  | line l f hl k =>
    exact h.modLine k.2.2.2.2.2.2.1 k.2.2.2.2.2.2.2.1 (by rw [k.2.2.2.2.2.1])
  | settings l f hl k hr =>
    exact h.modLine k.2.2.2.2.2.2.1 k.2.2.2.2.2.2.2 (by rw [k.2.2.2.2.2.1])
  | enqueue l es hl k => exact h.modLine rfl rfl rfl
  | dequeue l e rest hl k => exact h.modLine rfl rfl rfl
  | clearQueue l hl => exact h.modLine rfl rfl rfl
  | join l a hl k hr => exact h.modLine rfl rfl rfl
  | leave l p hl => exact h.modLine rfl rfl rfl
  | adjust l g hl k => exact h.modLine rfl rfl rfl
  | demote l p hl => exact h.modLine rfl rfl rfl
  | promote l p hl k => exact h.modLine rfl rfl rfl
  | take l w p hl k =>
    unfold setRole
    simp only [State.modAttachment_eq, State.modAtt_eq, State.modLine_modLine]
    exact h.modLine rfl rfl rfl
  | opening l c hl ho hp hr =>
    refine h.modLine rfl rfl ?_
    dsimp only
    exact length_onCurrentPage _ _
  | append l o c hl ho =>
    refine h.modLine rfl rfl ?_
    dsimp only
    exact length_onCurrentPage _ _
  | quota l reserve limit hl k =>
    have e : ((withQuota s l reserve limit).line l).pool = { (s.line l).pool with reserve := reserve, limit := limit } := by
      simp [withQuota]
    have hk : ∀ k, k ≠ l → (withQuota s l reserve limit).line k = s.line k := fun k hk =>
      State.line_modLine_ne _ _ _ _ hk
    have hf : (withQuota s l reserve limit).freePages = s.freePages := rfl
    simp only [quotaError, outstandingAfter, reservesAfter, State.outstanding, State.sum_lines] at k
    split_ifs at k with k1 k2 k3 k4
    have hle : (s.line l).pool.reserve ≤ ∑ k, (s.line k).pool.reserve :=
      Finset.single_le_sum (f := fun k => (s.line k).pool.reserve) (fun _ _ => Nat.zero_le _) (Finset.mem_univ l)
    have hle2 : (s.line l).pool.reserve - (s.line l).held ≤ ∑ k, ((s.line k).pool.reserve - (s.line k).held) :=
      Finset.single_le_sum (f := fun k => (s.line k).pool.reserve - (s.line k).held) (fun _ _ => Nat.zero_le _)
        (Finset.mem_univ l)
    have hd : QuotaBounds (dropPages (withQuota s l reserve limit) l ((s.line l).held - limit)) := by
      refine h.drop hk (by rw [e]) hf ?_ ?_ ?_ ?_
      all_goals rw [e]
      all_goals simp only [Config.pageCount]
      all_goals omega
    split
    · rename_i hz
      have eh : ((withQuota s l reserve limit).line l).held = (s.line l).held := by simp [Line.held, e]
      refine h.change (l := l) hk ?_ ?_ ?_
      · rw [eh, e]
        simp only [Config.pageCount]
        omega
      · rw [e]
        simp only [Config.pageCount]
        omega
      · rw [eh, e, hf]
        dsimp only
        omega
    · exact hd
  | clear l hl ho hp =>
    have q1 := hq.1 l
    refine h.drop (fun _ _ => rfl) rfl rfl ⟨q1.1, q1.2.1, q1.2.2.1, q1.2.2.2.1⟩ ?_ ?_ ?_
    · omega
    · have := hq.2.1
      omega
    · have := hq.2.2
      omega
  | port p f hp k => exact h
  | causes p cs hp k => exact h
  | spend => exact h

end Sys2Proof.Machine
end

