-- ==== Sys2Proof/Laws/Logs.lean ====
section
/-! SUPPORT. The log of a line under each edit: its numbers stay consecutive, and its pages fit their records (R1, R2, R4, R26). -/

namespace Sys2Proof.Machine
variable {on : LineId → Prop} {own : PortId → Prop} {s t : State}

/-! ## Runs of sequence numbers (R2) -/

theorem nextSeq_ne (q : Seq) : nextSeq q ≠ 0 := by
  unfold nextSeq
  split
  · decide
  · bv_omega

theorem seqRun_length (q : Seq) (n : Nat) : (seqRun q n).length = n := by
  induction n generalizing q with
  | zero => rfl
  | succ n ih => simp [seqRun, ih]

theorem seqRun_succ (q : Seq) (n : Nat) : seqRun q (n + 1) = seqRun q n ++ [nextSeq^[n] q] := by
  induction n generalizing q with
  | zero => rfl
  | succ n ih =>
    rw [seqRun, ih (nextSeq q)]
    simp [seqRun]

theorem seqRun_drop (q : Seq) (n k : Nat) (h : k ≤ n) : (seqRun q n).drop k = seqRun (nextSeq^[k] q) (n - k) := by
  induction k generalizing q n with
  | zero => simp
  | succ k ih =>
    cases n with
    | zero => omega
    | succ n =>
      simp only [seqRun, List.drop_succ_cons, Function.iterate_succ_apply]
      rw [ih _ _ (by omega)]
      congr 1
      omega

/-- Numbers in order: they run from the first up to the next, and 0 is neither. -/
def InRun (first next : Seq) (qs : List Seq) : Prop :=
  first ≠ 0 ∧ next ≠ 0 ∧ qs = seqRun first qs.length ∧ next = nextSeq^[qs.length] first

/-- One more number given. -/
theorem InRun.give {first next : Seq} {qs : List Seq} (h : InRun first next qs) : InRun first (nextSeq next) (qs ++ [next]) := by
  obtain ⟨h1, h2, h3, h4⟩ := h
  refine ⟨h1, nextSeq_ne _, ?_, ?_⟩
  · rw [List.length_append, List.length_singleton, seqRun_succ, ← h3, ← h4]
  · rw [List.length_append, List.length_singleton, Function.iterate_succ_apply', ← h4]

/-- The oldest numbers gone. -/
theorem InRun.drop {first next : Seq} {qs : List Seq} (h : InRun first next qs) (k : Nat) :
    InRun ((qs.drop k).head?.getD next) next (qs.drop k) := by
  obtain ⟨h1, h2, h3, h4⟩ := h
  by_cases hk : k < qs.length
  · have e : qs.drop k = seqRun (nextSeq^[k] first) (qs.length - k) := by
      conv_lhs => rw [h3]
      exact seqRun_drop _ _ _ hk.le
    have eh : (qs.drop k).head?.getD next = nextSeq^[k] first := by
      rw [e]
      obtain ⟨m, hm⟩ : ∃ m, qs.length - k = m + 1 := ⟨qs.length - k - 1, by omega⟩
      rw [hm]; rfl
    rw [eh]
    refine ⟨?_, h2, ?_, ?_⟩
    · cases k with
      | zero => exact h1
      | succ k => rw [Function.iterate_succ_apply']; exact nextSeq_ne _
    · rw [List.length_drop]; exact e
    · rw [List.length_drop, ← Function.iterate_add_apply, Nat.sub_add_cancel hk.le]
      exact h4
  · have e : qs.drop k = [] := List.drop_eq_nil_of_le (by omega)
    rw [e]
    exact ⟨h2, h2, rfl, rfl⟩

/-! ## Pages (R4, R26) -/

theorem LogRecord.size_pos (r : LogRecord) : 0 < r.size := by simp [LogRecord.size, Config.header]

theorem sizes_zero (rs : List LogRecord) (h : (rs.map LogRecord.size).sum = 0) : rs = [] := by
  cases rs with
  | nil => rfl
  | cons r rs =>
    have := r.size_pos
    simp only [List.map_cons, List.sum_cons] at h
    omega

theorem Page.laid_occupied {o : Option OpenRecord} {pg : Page} (h : pg.laid o) :
    pg.occupied = 0 ↔ pg.records = [] ∧ o = none := by
  rw [h.1]
  constructor
  · intro e
    refine ⟨sizes_zero _ (by omega), ?_⟩
    cases o with
    | none => rfl
    | some o => simp [OpenRecord.size, Config.header] at e
  · rintro ⟨e1, e2⟩
    simp [e1, e2]

/-- The numbers on pages, with that of the open record last. -/
def pageSeqs (pages : List Page) (o : Option OpenRecord) : List Seq :=
  (pages.flatMap (·.records)).map (·.seq) ++ (o.map (·.seq)).toList

theorem pageSeqs_cons (pg : Page) (pages : List Page) (o : Option OpenRecord) :
    pageSeqs (pg :: pages) o = pg.records.map (·.seq) ++ pageSeqs pages o := by
  simp [pageSeqs]

/-- Well laid pages give the first of their numbers as the oldest. -/
theorem oldestOf_laid {o : Option OpenRecord} {pages : List Page} (next : Seq) (h : pagesLaid o pages) :
    oldestOf pages next = (pageSeqs pages o).head?.getD next := by
  match pages, h with
  | [], h =>
    have h : o = none := h
    simp [oldestOf, pageSeqs, h]
  | [pg], h =>
    have h : pg.laid o := h
    have eo : oldestOf [pg] next = if pg.occupied = 0 then next else pg.firstSeq := rfl
    rw [eo]
    split
    · rename_i e
      obtain ⟨e1, e2⟩ := (Page.laid_occupied h).mp e
      simp [pageSeqs, e1, e2]
    · rename_i e
      have hs : pageSeqs [pg] o = pg.records.map (·.seq) ++ (o.map (·.seq)).toList := by simp [pageSeqs]
      rw [hs]
      rcases hh : (pg.records.map (·.seq) ++ (o.map (·.seq)).toList).head? with _ | q
      · rw [List.head?_eq_none_iff, List.append_eq_nil_iff] at hh
        exfalso
        refine e ((Page.laid_occupied h).mpr ⟨by simpa using hh.1, ?_⟩)
        cases o with
        | none => rfl
        | some o => simp at hh
      · exact h.2 q hh
  | pg :: pg' :: rest, h =>
    obtain ⟨h1, h2, h3⟩ := h
    have eo : oldestOf (pg :: pg' :: rest) next = if pg.occupied = 0 then next else pg.firstSeq := rfl
    rw [eo, if_neg fun e => h2 ((Page.laid_occupied h1).mp e).1, pageSeqs_cons]
    obtain ⟨r, rs, er⟩ := List.exists_cons_of_ne_nil h2
    have := h1.2 r.seq (by simp [er])
    simp [er, this]

theorem pagesLaid_tail {o : Option OpenRecord} {pg : Page} {pages : List Page} (h : pagesLaid o (pg :: pages))
    (ho : o = none ∨ pages ≠ []) : pagesLaid o pages := by
  cases pages with
  | nil => exact ho.resolve_right (by simp)
  | cons a as => exact h.2.2

theorem pagesLaid_drop {o : Option OpenRecord} {pages : List Page} (k : Nat) (h : pagesLaid o pages)
    (ho : o = none ∨ k < pages.length) : pagesLaid o (pages.drop k) := by
  induction k generalizing pages with
  | zero => exact h
  | succ k ih =>
    cases pages with
    | nil => exact h
    | cons a as =>
      rw [List.drop_succ_cons]
      refine ih (pagesLaid_tail h ?_) ?_
      · rcases ho with ho | ho
        · exact .inl ho
        · right
          rintro rfl
          simp at ho
      · rcases ho with ho | ho
        · exact .inl ho
        · right
          simp only [List.length_cons] at ho
          omega

theorem pageSeqs_drop (pages : List Page) (o : Option OpenRecord) (k : Nat) :
    pageSeqs (pages.drop k) o = (pageSeqs pages o).drop ((pages.take k).flatMap (·.records)).length := by
  have e : (pages.flatMap (·.records)).map (·.seq)
      = ((pages.take k).flatMap (·.records)).map (·.seq) ++ ((pages.drop k).flatMap (·.records)).map (·.seq) := by
    rw [← List.map_append, ← List.flatMap_append, List.take_append_drop]
  unfold pageSeqs
  rw [e, List.append_assoc, List.drop_left' (by simp)]

/-- A fresh page after pages that all hold records. -/
theorem pagesLaid_fresh {pages : List Page} (n : Nat) (h : pagesLaid none pages) (hn : ∀ pg ∈ pages.getLast?, pg.records ≠ []) :
    pagesLaid none (pages ++ [Page.fresh n]) := by
  have hf : (Page.fresh n).laid none := by simp [Page.laid, Page.fresh]
  match pages, h with
  | [], _ => exact hf
  | [pg], h => exact ⟨h, hn pg (by simp), hf⟩
  | pg :: pg' :: rest, h =>
    refine ⟨h.1, h.2.1, ?_⟩
    exact pagesLaid_fresh (pages := pg' :: rest) n h.2.2 (by simpa using hn)

/-- The newest page changed, and the open record with it. -/
theorem pagesLaid_current {o o' : Option OpenRecord} {pages : List Page} (f : Page → Page) (h : pagesLaid o pages)
    (hp : pages ≠ []) (hf : ∀ pg : Page, pg.laid o → (f pg).laid o') : pagesLaid o' (onCurrentPage f pages) := by
  match pages, h with
  | [], _ => exact absurd rfl hp
  | [pg], h => exact hf pg h
  | pg :: pg' :: rest, h =>
    have ih := pagesLaid_current (pages := pg' :: rest) f h.2.2 (by simp) hf
    have hne : onCurrentPage f (pg' :: rest) ≠ [] := by
      intro e
      have := length_onCurrentPage f (pg' :: rest)
      rw [e] at this
      simp at this
    obtain ⟨a, as, ea⟩ := List.exists_cons_of_ne_nil hne
    simp only [onCurrentPage]
    rw [ea] at ih ⊢
    exact ⟨h.1, h.2.1, ih⟩

theorem pageSeqs_current {o o' : Option OpenRecord} {pages : List Page} (f : Page → Page) (more : List Seq)
    (hp : pages ≠ [])
    (hf : ∀ pg : Page, (f pg).records.map (·.seq) ++ (o'.map (·.seq)).toList
      = pg.records.map (·.seq) ++ (o.map (·.seq)).toList ++ more) :
    pageSeqs (onCurrentPage f pages) o' = pageSeqs pages o ++ more := by
  match pages with
  | [] => exact absurd rfl hp
  | [pg] => simpa [onCurrentPage, pageSeqs] using hf pg
  | pg :: pg' :: rest =>
    have ih := pageSeqs_current (pages := pg' :: rest) f more (by simp) hf
    simp only [onCurrentPage]
    rw [pageSeqs_cons, ih, pageSeqs_cons pg, List.append_assoc]

/-! ## Logs (R1) -/

/-- What LogKept says of one line. -/
def Line.logKept (x : Line) : Prop := x.consecutive ∧ pagesLaid x.cap.opened x.pool.pages

theorem Line.logSeqs_eq (x : Line) : x.logSeqs = pageSeqs x.pool.pages x.cap.opened := rfl

theorem LogKept.modLine {u : State} {l : LineId} {f : Line → Line} (h : LogKept u) (hf : (f (u.line l)).logKept) :
    LogKept (u.modLine l f) := fun k =>
  State.line_modLine_cases u l k f (P := Line.logKept) (h k) fun _ => hf

/-- A line that keeps its log as it is. -/
theorem Line.logKept_same {x y : Line} (h : x.logKept) (h1 : y.cap.oldest = x.cap.oldest) (h2 : y.cap.next = x.cap.next)
    (h3 : y.cap.opened = x.cap.opened) (h4 : y.pool.pages = x.pool.pages) : y.logKept := by
  unfold Line.logKept Line.consecutive Line.logSeqs Line.closed at h ⊢
  rw [h1, h2, h3, h4]; exact h

/-- A line whose oldest pages go. -/
theorem Line.logKept_drop {x y : Line} {k : Nat} (h : x.logKept) (ho : x.cap.opened = none ∨ k < x.pool.pages.length)
    (h1 : y.cap.oldest = oldestOf (x.pool.pages.drop k) x.cap.next) (h2 : y.cap.next = x.cap.next)
    (h3 : y.cap.opened = x.cap.opened) (h4 : y.pool.pages = x.pool.pages.drop k) : y.logKept := by
  have hl := pagesLaid_drop k h.2 ho
  refine ⟨?_, by rw [h3, h4]; exact hl⟩
  have hr : InRun x.cap.oldest x.cap.next (pageSeqs x.pool.pages x.cap.opened) := h.1
  have hd := hr.drop ((x.pool.pages.take k).flatMap (·.records)).length
  rw [← pageSeqs_drop, ← oldestOf_laid _ hl] at hd
  unfold Line.consecutive
  rw [Line.logSeqs_eq, h1, h2, h3, h4]
  exact hd

theorem Page.take_join_laid (r : LogRecord) (pg : Page) (h : pg.laid none) : ((pg.take r.seq r.size).join r).laid none := by
  have hz := Page.laid_occupied h
  refine ⟨?_, ?_⟩
  · simp [Page.take, Page.join, h.1]
  · intro q hq
    simp only [Page.take, Page.join] at hq ⊢
    by_cases e : pg.occupied = 0
    · rw [if_pos e]
      simp [(hz.mp e).1] at hq
      exact hq
    · rw [if_neg e]
      have hn : pg.records ≠ [] := fun e' => e (hz.mpr ⟨e', rfl⟩)
      obtain ⟨a, as, ea⟩ := List.exists_cons_of_ne_nil hn
      refine h.2 q ?_
      rw [ea] at hq ⊢
      simpa using hq

theorem Page.take_laid (o : OpenRecord) (pg : Page) (h : pg.laid none) : (pg.take o.seq o.size).laid (some o) := by
  have hz := Page.laid_occupied h
  refine ⟨?_, ?_⟩
  · simp [Page.take, h.1]
  · intro q hq
    simp only [Page.take] at hq ⊢
    by_cases e : pg.occupied = 0
    · rw [if_pos e]
      simp [(hz.mp e).1] at hq
      exact hq
    · rw [if_neg e]
      have hn : pg.records ≠ [] := fun e' => e (hz.mpr ⟨e', rfl⟩)
      obtain ⟨a, as, ea⟩ := List.exists_cons_of_ne_nil hn
      refine h.2 q ?_
      rw [ea] at hq ⊢
      simpa using hq

/-- The newest page of a line that needs a page holds a record. -/
theorem Line.needsPage_last {x : Line} (h : pagesLaid none x.pool.pages) (hn : x.needsPage) :
    ∀ pg ∈ x.pool.pages.getLast?, pg.records ≠ [] := by
  intro pg hp he
  have last : ∀ ps : List Page, pagesLaid none ps → pg ∈ ps.getLast? → pg.laid none := by
    intro ps
    induction ps with
    | nil => simp
    | cons a as ih =>
      intro hl hm
      cases as with
      | nil =>
        simp only [List.getLast?_singleton, Option.mem_def, Option.some.injEq] at hm
        exact hm ▸ hl
      | cons b bs => exact ih hl.2.2 (by simpa using hm)
  have hz := (Page.laid_occupied (last _ h hp)).mpr ⟨he, rfl⟩
  rcases hn with hn | ⟨need, h1, h2⟩
  · rw [hn] at hp; simp at hp
  · unfold Line.room at h2
    rw [Option.mem_def.mp hp] at h2
    simp only [hz] at h2
    omega

theorem WorkStep.logKept {l : LineId} (w : WorkStep l s t) (h : LogKept s) : LogKept t := by
  have hl : (s.line l).logKept := h l
  cases w with
  | post p k d => exact h
  | unpost p k => exact h
  | mark g hg => exact h.modLine (Line.logKept_same hl rfl rfl rfl rfl)
  | quiet f hf =>
    refine h.modLine (Line.logKept_same hl ?_ ?_ ?_ ?_)
    all_goals rw [hf]
  | give n rest ho hn hm hf =>
    refine LogKept.modLine (u := { s with freePages := rest }) h ⟨?_, ?_⟩
    · have hl' : (State.line { s with freePages := rest } l).logKept := hl
      have := hl'.1
      unfold Line.consecutive Line.logSeqs Line.closed at this ⊢
      simpa [Page.fresh] using this
    · have h2 := hl.2
      rw [ho] at h2
      change pagesLaid (s.line l).cap.opened ((s.line l).pool.pages ++ [Page.fresh n])
      rw [ho]
      exact pagesLaid_fresh n h2 (Line.needsPage_last h2 hn)
  | recycle oldest rest ho hn hz hp =>
    have h2 := hl.2
    rw [ho] at h2
    have hlast := Line.needsPage_last h2 hn
    have hd := Line.logKept_drop (x := s.line l) (k := 1)
      (y := { s.line l with
        cap := { (s.line l).cap with oldest := oldestOf rest (s.line l).cap.next }
        pool := { (s.line l).pool with pages := rest } }) hl (.inl ho) (by rw [hp]; rfl) rfl rfl (by rw [hp]; rfl)
    refine h.modLine ⟨?_, ?_⟩
    · have := hd.1
      unfold Line.consecutive Line.logSeqs Line.closed at this ⊢
      simpa [Page.fresh] using this
    · have h3 := hd.2
      dsimp only at h3 ⊢
      rw [ho] at h3 ⊢
      refine pagesLaid_fresh _ h3 fun pg hpg => hlast pg ?_
      rw [hp]
      cases rest with
      | nil => simp at hpg
      | cons a as => simpa using hpg
  | place kind cause detail body ho hp hr =>
    have h2 := hl.2
    have h1 : InRun (s.line l).cap.oldest (s.line l).cap.next (pageSeqs (s.line l).pool.pages (s.line l).cap.opened) := hl.1
    rw [ho] at h1 h2
    refine h.modLine ⟨?_, ?_⟩
    · unfold Line.consecutive
      rw [Line.logSeqs_eq]
      dsimp only
      rw [ho, pageSeqs_current (o := none) _ [(s.line l).cap.next] hp]
      · exact h1.give
      · intro pg
        simp [Page.take, Page.join]
    · dsimp only
      rw [ho]
      exact pagesLaid_current _ h2 hp fun pg hpg => Page.take_join_laid _ pg hpg
  | close o cause detail ho =>
    have h2 := hl.2
    have h1 : InRun (s.line l).cap.oldest (s.line l).cap.next (pageSeqs (s.line l).pool.pages (s.line l).cap.opened) := hl.1
    rw [ho] at h1 h2
    have hp : (s.line l).pool.pages ≠ [] := by
      intro e
      rw [e] at h2
      exact absurd h2 (by simp [pagesLaid])
    refine h.modLine ⟨?_, ?_⟩
    · unfold Line.consecutive
      rw [Line.logSeqs_eq]
      dsimp only
      rw [pageSeqs_current (o := some o) _ [] hp, List.append_nil]
      · exact h1
      · intro pg
        simp [Page.join]
    · dsimp only
      refine pagesLaid_current _ h2 hp fun pg hpg => ⟨?_, ?_⟩
      · have := hpg.1
        simp only [Page.join, List.map_append, List.sum_append, List.map_cons, List.map_nil, List.sum_cons, List.sum_nil,
          Option.map_none, Option.getD_none, Option.map_some, Option.getD_some, LogRecord.size, OpenRecord.size] at this ⊢
        omega
      · intro q hq
        refine hpg.2 q ?_
        simpa [Page.join] using hq

theorem Edit.logKept (w : Edit on own s t) (h : LogKept s) : LogKept t := by
  cases w with
  | work l hl w => exact w.logKept h
  | line l f hl k =>
    exact h.modLine (Line.logKept_same (h l) k.2.2.1 k.2.2.2.1 k.2.2.2.2.1 k.2.2.2.2.2.1)
  | settings l f hl k hr =>
    exact h.modLine (Line.logKept_same (h l) k.2.2.1 k.2.2.2.1 k.2.2.2.2.1 k.2.2.2.2.2.1)
  | enqueue l es hl k => exact h.modLine (Line.logKept_same (h l) rfl rfl rfl rfl)
  | dequeue l e rest hl k => exact h.modLine (Line.logKept_same (h l) rfl rfl rfl rfl)
  | clearQueue l hl => exact h.modLine (Line.logKept_same (h l) rfl rfl rfl rfl)
  | join l a hl k hr => exact h.modLine (Line.logKept_same (h l) rfl rfl rfl rfl)
  | leave l p hl => exact h.modLine (Line.logKept_same (h l) rfl rfl rfl rfl)
  | adjust l g hl k => exact h.modLine (Line.logKept_same (h l) rfl rfl rfl rfl)
  | demote l p hl => exact h.modLine (Line.logKept_same (h l) rfl rfl rfl rfl)
  | promote l p hl k => exact h.modLine (Line.logKept_same (h l) rfl rfl rfl rfl)
  | take l w p hl k =>
    unfold setRole
    simp only [State.modAttachment_eq, State.modAtt_eq, State.modLine_modLine]
    exact h.modLine (Line.logKept_same (h l) rfl rfl rfl rfl)
  | opening l c hl ho hp hr =>
    have h2 := (h l).2
    have h1 : InRun (s.line l).cap.oldest (s.line l).cap.next (pageSeqs (s.line l).pool.pages (s.line l).cap.opened) := (h l).1
    rw [ho] at h1 h2
    refine h.modLine ⟨?_, ?_⟩
    · unfold Line.consecutive
      rw [Line.logSeqs_eq]
      dsimp only
      rw [pageSeqs_current (o := none) _ [(s.line l).cap.next] hp]
      · exact h1.give
      · intro pg
        simp [Page.take]
    · dsimp only
      refine pagesLaid_current _ h2 hp fun pg hpg => ?_
      exact Page.take_laid
        { seq := (s.line l).cap.next, time := s.timebase, body := [c], room := (s.line l).room - Config.header } pg hpg
  | append l o c hl ho =>
    have h2 := (h l).2
    have h1 : InRun (s.line l).cap.oldest (s.line l).cap.next (pageSeqs (s.line l).pool.pages (s.line l).cap.opened) := (h l).1
    rw [ho] at h1 h2
    have hp : (s.line l).pool.pages ≠ [] := by
      intro e
      rw [e] at h2
      exact absurd h2 (by simp [pagesLaid])
    refine h.modLine ⟨?_, ?_⟩
    · unfold Line.consecutive
      rw [Line.logSeqs_eq]
      dsimp only
      rw [pageSeqs_current (o := some o) _ [] hp, List.append_nil]
      · exact h1
      · intro pg
        simp
    · dsimp only
      refine pagesLaid_current _ h2 hp fun pg hpg => ⟨?_, ?_⟩
      · have := hpg.1
        simp only [Option.map_some, Option.getD_some, OpenRecord.size, List.length_append, List.length_singleton] at this ⊢
        omega
      · intro q hq
        exact hpg.2 q hq
  | quota l reserve limit hl k =>
    have h1 : LogKept (withQuota s l reserve limit) := h.modLine (Line.logKept_same (h l) rfl rfl rfl rfl)
    split
    · exact h1
    · rename_i hz
      have e : (withQuota s l reserve limit).line l
          = { s.line l with pool := { (s.line l).pool with reserve := reserve, limit := limit } } := by simp [withQuota]
      simp only [quotaError] at k
      split_ifs at k with k1 k2 k3 k4
      refine LogKept.modLine (u := { withQuota s l reserve limit with freePages := _ }) h1 ?_
      refine Line.logKept_drop (k := (s.line l).held - limit) (h1 l) (.inr ?_) rfl rfl rfl rfl
      rw [e]
      simp only [Line.held] at hz ⊢
      omega
  | clear l hl ho hp =>
    refine LogKept.modLine (u := { s with freePages := _ }) h ?_
    exact Line.logKept_drop (k := (s.line l).held) (h l) (.inl ho) rfl rfl rfl rfl
  | port p f hp k => exact h
  | causes p cs hp k => exact h
  | spend => exact h

end Sys2Proof.Machine
end

