-- ==== Sys2Proof/Tests/Slice0.lean ====
section
/-! SUPPORT. The tests: ill-formed terms that the check refuses, one step of each command on a small state, and for every statement a
state and operands that meet its hypotheses. -/

open Sys2Proof Sys2Proof.Machine

namespace Sys2Proof.Tests

set_option Elab.async false

/-! ## Small states -/

/-- The state after reset with line L0 and port P0 changed. -/
def st (f : Line → Line) (g : Port → Port) : State := (State.reset.modLine 0 f).modPort 0 g

/-- The state that a command leaves. -/
def result (c : Instr) (s : State) : State :=
  match exec c s with
  | .next t => t
  | .fault _ => s
  | .refused _ => s

/-- An event record with no body. -/
def evt (q : Seq) : LogRecord := { seq := q, time := 0, kind := .event, cause := 1, detail := 0, body := [] }

/-- A page that holds records. -/
def pageOf (n : Nat) (rs : List LogRecord) : Page :=
  { number := n, firstSeq := (rs.head?.map (·.seq)).getD 0, occupied := (rs.map LogRecord.size).sum, records := rs }

/-- A line whose log holds two records. -/
def logged (x : Line) : Line :=
  { x with cap := { x.cap with next := 3 }, pool := { x.pool with pages := [pageOf 0 [evt 1, evt 2]] } }

/-- A line with an open record above the two records. -/
def opened (x : Line) : Line :=
  { x with
    cap :=
      { oldest := 1, next := 4, opened := some { seq := 3, time := 0, body := [0x41], room := 212 }
        idleTimer := some { start := 0, due := true } }
    pool := { x.pool with pages := [{ pageOf 0 [evt 1, evt 2] with occupied := 37 }] } }

/-- A watcher of a port. -/
def watcher (p : PortId) (m : Mode) : Attachment :=
  { port := p, role := .watcher, cursor := 1, overtaken := false, mode := m, lossless := false, conditionEnable := true
    watchEnable := true, latch := 1 }

/-- A writer of a port. -/
def writer (p : PortId) : Attachment := { watcher p .none with role := .writer }

/-- A line with attachments. -/
def attached (as : List Attachment) (x : Line) : Line := { x with att := { x.att with list := as } }

/-- A line in a condition state. -/
def inState (c : CondState) (x : Line) : Line := { x with cond := { x.cond with state := c } }

/-- A line with a transmit unit changed. -/
def sends (f : Transmit → Transmit) (x : Line) : Line := { x with tx := f x.tx }

/-- A line with a character in progress, at the divisor and format in force. -/
def receiving (x : Line) : Line :=
  { x with io := { x.io with receiver := .inCharacter x.io.inForce.divisor x.io.inForce.format .carried } }

/-- A line in loopback, its transmitter as well, with the start edge of the work in hand still to come to the receiver. -/
def looped (x : Line) : Line :=
  { x with
    io := { x.io with inForce := { x.io.inForce with loopback := true } }
    tx := { x.tx with inUse := { x.tx.inUse with loopback := true, edgeAhead := true } } }

/-- The character that completes on a line, from the one in progress. -/
def completing (x : Line) (data : Byte) (parity stop : Bool) : Received :=
  Driven.carried.sampled x.io.inForce.format data parity stop

theorem completes_completing {x : Line}
    (h : x.io.receiver = .inCharacter x.io.inForce.divisor x.io.inForce.format .carried) (data : Byte) (parity stop : Bool) :
    x.completes data parity stop (completing x data parity stop) :=
  ⟨_, _, _, h, rfl⟩

/-- A port in a phase. -/
def inPhase (ph : Phase) (x : Port) : Port := { x with phase := ph }

/-- A timer that is due, and one that is not. -/
def dueTimer : Timer := { start := 0, due := true }
def newTimer : Timer := { start := 0, due := false }

/-- The waiting of ports and lines agrees, as a check that a state can be put to. -/
def agrees (s : State) : Bool :=
  decide (∀ p l, (s.port p).phase = .waiting l ↔ (s.line l).tx.waiting.map Waiting.port = some p)
    && decide (∀ l, (s.line l).tx.waiting.map Waiting.port = none ∨ (s.line l).tx.waiting.map Waiting.port = (s.line l).writer)

theorem agrees_waiting {s : State} (h : agrees s = true) : WaitingAgrees s := by
  simp only [agrees, Bool.and_eq_true, decide_eq_true_eq] at h
  refine ⟨fun p l => (h.1 p l).trans Option.map_eq_some_iff, fun l w hw => ?_⟩
  have := h.2 l
  simp only [hw, Option.map_some] at this
  exact (this.resolve_left (by simp)).symm

/-! ## Ill-formed commands -/

theorem test_badCommand_of_a_command_is_refused : (Instr.badCommand 0 0x10).wellFormed = false := by decide
theorem test_badCommand_of_abort_is_refused : (Instr.badCommand 0 0x7F).wellFormed = false := by decide
theorem test_badCommand_of_no_command_is_accepted : (Instr.badCommand 0 0x55).wellFormed = true := by decide
theorem test_argumentWrite_below_is_refused : (Instr.argumentWrite 0 1 0).wellFormed = false := by decide
theorem test_argumentWrite_above_is_refused : (Instr.argumentWrite 0 14 0).wellFormed = false := by decide
theorem test_argumentWrite_bounds_are_accepted :
    (Instr.argumentWrite 0 2 0).wellFormed = true ∧ (Instr.argumentWrite 0 13 0).wellFormed = true := by decide

theorem test_transaction_of_arguments_and_a_code :
    transaction 1 0x02 [5, 0x10, 0x34, 0x12]
        = [.argumentWrite 1 2 5, .argumentWrite 1 3 0x10, .argumentWrite 1 4 0x34, .argumentWrite 1 5 0x12]
      ∧ transaction 1 0x00 [0x10] = [.attach 1] ∧ transaction 1 0x8E [0, 0, 7] = [.dataRead 1] := by decide

/-! ## One step of each command -/

theorem test_nextCause :
    let s := st id fun x => { x with causes := [⟨.writeLost, 0, 4⟩, ⟨.drained, 1, 0⟩] }
    ((result (.nextCause 0) s).port 0).phase
        = .completing { line := some 0, option := some 2, count := some 1, value := some 4 }
      ∧ ((result (.nextCause 0) s).port 0).causes = [⟨.drained, 1, 0⟩] := by decide +kernel

theorem test_readTime :
    ((result (.readTime 0) { State.reset with timebase := 7 }).port 0).phase = .completing { value := some 7 } := by decide +kernel

theorem test_attach :
    let s := st id fun x => { x with option := 0x01, count := 0x0100 }
    ((result (.attach 0) s).line 0).writer = some 0
      ∧ ((result (.attach 0) s).line 0).closed.map (fun r => (r.seq, r.cause, r.body)) = [(1, 0x10, [0, 1])] := by decide +kernel

theorem test_attach_update_keeps_the_latch :
    let s := st (attached [watcher 0 .none]) fun x => { x with count := 0x0203 }
    ((result (.attach 0) s).line 0).att.list.map (fun a => (a.mode, a.latch)) = [(.level 3, 1)] := by decide +kernel

theorem test_detach :
    ((result (.detach 0) (st (attached [writer 0, watcher 1 .none]) id)).line 0).att.list.map (·.port) = [1] := by decide +kernel

theorem test_releaseWrite :
    ((result (.releaseWrite 0) (st (attached [writer 0]) id)).line 0).att.list.map (·.role) = [.watcher] := by decide +kernel

theorem test_readNew :
    ((result (.readNew 0) (st (attached [watcher 0 .none] ∘ logged) id)).port 0).phase = .filling (.readNew 0 3 0 0 0) := by
  decide +kernel

theorem test_readHistory :
    ((result (.readHistory 0) (st logged fun x => { x with position := 2, count := 1 })).port 0).phase
      = .filling (.readHistory 0 2 3 1 0) := by decide +kernel

theorem test_countNew :
    ((result (.countNew 0) (st logged id)).port 0).phase
      = .completing { count := some 2, value := some 24, position := some 1 } := by decide +kernel

theorem test_seek :
    ((result (.seek 0) (st (attached [watcher 0 .none] ∘ logged) fun x => { x with option := 1 })).line 0).att.list.map (·.cursor)
      = [3] := by decide +kernel

theorem test_lineStatus :
    ((result (.lineStatus 0) (st logged fun x => { x with option := 1 })).port 0).phase
      = .filling (.lineStatus Settings.atReset.encode) := by decide +kernel

theorem test_settings_record_at_reset :
    Settings.atReset.encode
      = [0x0D, 48, 0, 0, 0, 120, 20, 0, 0, 6, 0xD0, 7, 100, 0, 4, 1, 48, 0, 12, 0, 4, 0, 2, 0, 0, 0, 0, 0, 0x0D, 0, 0, 0, 0x88, 0x13] := by
  decide +kernel

theorem test_send :
    ((result (.send 0) (st (attached [writer 0]) fun x => { x with count := 3 })).port 0).phase = .writing (.send 0 3) := by
  decide +kernel

theorem test_sendBreak :
    ((result (.sendBreak 0) (st (attached [writer 0]) fun x => { x with value := 10 })).line 0).tx.state
      = .breaking 10 newTimer := by decide +kernel

theorem test_resetLine :
    let t := result (.resetLine 0) (st (inState .brk ∘ sends fun x => { x with queue := [.character 1], state := .sending 2 }) id)
    (t.line 0).tx.queue = [] ∧ (t.line 0).cond.state = .run ∧ (t.line 0).closed.map (·.cause) = [8] := by decide +kernel

/-- A HELD line whose freeze count has so many records to go. -/
def counting (k : Nat) (x : Line) : Line :=
  { x with hold := { state := .held, timer := none, evalDue := false }, pool := { x.pool with freezePending := some k } }

theorem test_resetLine_of_a_held_line_is_one_group :
    let t := result (.resetLine 0) (st (counting 1 ∘ logged) id)
    (t.line 0).closed.map (·.cause) = [1, 1, 8, 33, 48] ∧ (t.line 0).pool.frozen = true := by decide +kernel

theorem test_enterHunt : ((result (.enterHunt 0) State.reset).line 0).cond.state = .hunt := by decide +kernel

theorem test_enterHunt_down : ((result (.enterHunt 0) (st (inState .down) id)).line 0).cond.huntOnUp = true := by decide +kernel

theorem test_setLine : ((result (.setLine 0) State.reset).port 0).phase = .writing (.setLine 0) := by decide +kernel

theorem test_setWatch :
    ((result (.setWatch 0) (st id fun x => { x with option := 3 })).port 0).phase = .writing (.setWatch 0 3) := by decide +kernel

theorem test_setQuota :
    ((result (.setQuota 0) (st id fun x => { x with count := 1, value := 2 })).line 0).pool.limit = 2 := by decide +kernel

theorem test_clearHistory :
    let t := result (.clearHistory 0) (st logged id)
    (t.line 0).closed.map (fun r => (r.seq, r.cause)) = [(3, 0x32)] ∧ (t.line 0).cap.oldest = 3 := by decide +kernel

theorem test_freeze : ((result (.freeze 0) State.reset).line 0).pool.frozen = true := by decide +kernel

theorem test_thaw :
    let s := st (fun x => { x with pool := { x.pool with frozen := true, discardedChars := 300, discardedEvents := 2 } }) id
    ((result (.thaw 0) s).port 0).phase = .completing { count := some 2, value := some 300 }
      ∧ ((result (.thaw 0) s).line 0).closed.map (·.body) = [[44, 1, 0, 2]] := by decide +kernel

theorem test_clearCondition :
    ((result (.clearCondition 0) (st (attached [watcher 0 .none]) id)).port 0).phase = .completing { value := some 1 } := by
  decide +kernel

theorem test_rearm :
    ((result (.rearm 0) (st (attached [watcher 0 (.first false)] ∘ logged) id)).port 0).causes = [⟨.data, 0, 0⟩] := by decide +kernel

theorem test_abort :
    ((result (.abort 0) (st id (inPhase (.writing (.send 0 5))))).port 0).error = .aborted
      ∧ ((result (.abort 0) (st id (inPhase (.writing (.send 0 5))))).port 0).count = 5 := by decide +kernel

theorem test_abort_keeps_the_mark_of_a_cursor_far_behind :
    let s := st (attached [{ watcher 0 .none with overtaken := true }] ∘ fun x =>
      { x with cap := { x.cap with oldest := 0xC0000000, next := 0xC0000000 } }) (inPhase (.filling (.readNew 0 0xC0000000 0 0 0)))
    (result (.abort 0) s |>.line 0).att.list.map (·.overtaken) = [true] := by decide +kernel

theorem test_badCommand :
    ((result (.badCommand 0 0x55) State.reset).port 0).phase = .completing { code := .badCommand } := by decide +kernel

theorem test_argumentWrite : ((result (.argumentWrite 0 7 0xAB) State.reset).port 0).position = 0xAB00 := by decide +kernel

theorem test_dataWrite :
    let s := st id fun x => { x with phase := .writing (.setLine 0), transferLength := 34 }
    ((result (.dataWrite 0 9) s).port 0).buffer = [9] := by decide +kernel

theorem test_dataWrite_last_byte_of_a_watch_record :
    let record : List Byte := [1, 2, 0, 0] ++ [0x41, 0x42] ++ List.replicate 25 0
    let s := st id fun x => { x with phase := .writing (.setWatch 0 2), transferLength := 32, buffer := record }
    (((result (.dataWrite 0 0) s).line 0).watch[2]).pattern = [0x41, 0x42] := by decide +kernel

theorem test_dataRead :
    let s := st id fun x => { x with phase := .reading (.lineStatus [5, 6]) [], transferLength := 2, buffer := [5, 6] }
    ((result (.dataRead 0) s).port 0).shiftedOut = 5 ∧ ((result (.dataRead 0) s).port 0).readPoint = 1 := by decide +kernel

theorem test_fillEnd :
    let s := st (attached [watcher 0 .none] ∘ logged) (inPhase (.filling (.readNew 0 3 1 0 0)))
    ((result (.fillEnd 0) s).port 0).buffer = [1, 0, 0, 0, 0, 0, 0, 0, 3, 1, 0, 0] := by decide +kernel

/-- A line whose log has gone on far past the early numbers. -/
def farOn (x : Line) : Line :=
  { x with
    cap := { x.cap with oldest := 0xC0000001, next := 0xC0000002 }, pool := { x.pool with pages := [pageOf 0 [evt 0xC0000001]] } }

theorem test_fillEnd_past_the_end_is_a_gap_alone :
    let s := st (attached [{ watcher 0 .none with overtaken := true }] ∘ farOn) (inPhase (.filling (.readNew 0 4 0 0 0)))
    ((result (.fillEnd 0) s).port 0).buffer = [1, 0, 0, 0, 0, 0, 0, 0, 4, 0, 4, 0, 0, 0, 0, 0xC0] := by decide +kernel

theorem test_portReset :
    ((result (.portReset 0) (st (attached [writer 0]) id)).line 0).att.list = []
      ∧ ((result (.portReset 0) (st (attached [writer 0]) id)).port 0).resetAsserted = true := by decide +kernel

theorem test_portResetRelease :
    ((result (.portResetRelease 0) (st id fun x => { x with resetAsserted := true })).port 0).resetAsserted = false := by decide +kernel

theorem test_deviceReset :
    ((result (.deviceReset 0 1 3) State.reset).port 2).precedence = 3 ∧ (result (.deviceReset 0 1 3) State.reset).timebase = 0 := by
  decide +kernel

theorem test_timebaseAdvance :
    let s := st (fun x => { x with cap := { x.cap with idleTimer := some newTimer } }) id
    (result .timebaseAdvance { s with timebase := 18 }).timebase = 19
      ∧ ((result .timebaseAdvance { s with timebase := 19 }).line 0).cap.idleTimer = some dueTimer := by decide +kernel

theorem test_characterComplete :
    ((result (.characterComplete 0 0x41 false true) (st receiving id)).line 0).cap.opened
        = some { seq := 1, time := 0, body := [0x41], room := 236 }
      ∧ result (.characterComplete 0 0x41 false true) State.reset = State.reset := by decide +kernel

theorem test_characterComplete_break :
    ((result (.characterComplete 0 0 false false) (st receiving id)).line 0).cond.state = .brk := by decide +kernel

theorem test_receiveLevelReport :
    ((result (.receiveLevelReport 0 .spacing) State.reset).line 0).cond.downTimer = some newTimer
      ∧ ((result (.receiveLevelReport 0 .spacing) State.reset).line 0).io.pinHigh = false := by decide +kernel

theorem test_a_sent_break_is_received_in_loopback :
    let s := st (looped ∘ sends fun x => { x with state := .breaking 10 newTimer }) id
    let t := result (.receiveLevelReport 0 .spacing) s
    (t.line 0).io.level = .spacing ∧ (t.line 0).io.pinHigh = true
      ∧ ((result (.characterComplete 0 0x55 false true) t).line 0).cond.state = .brk
      ∧ ((result (.receiveLevelReport 0 .marking) (result (.breakDurationExpiry 0) (t.modTx 0 fun x =>
        { x with state := .breaking 10 dueTimer }))).line 0).io.receiver = .inCharacter 48 Settings.atReset.format .carried := by
  decide +kernel

/-- A level told to line 0 of a state, and a character that completes there. -/
def told (level : Level) (s : State) : State := result (.receiveLevelReport 0 level) s
def taken (data : Byte) (s : State) : Option (List Byte) :=
  ((result (.characterComplete 0 data false true) s).line 0).cap.opened.map (·.body)

/-- The start bit begins the character that the transmitter sends; an edge within it, the event's bits. -/
theorem test_a_sent_character_is_received_in_loopback :
    let s := st (looped ∘ sends fun x => { x with state := .sending 0x41 }) id
    taken 0x55 (told .spacing s) = some [0x41]
      ∧ taken 0x55 (told .spacing (result (.falseStart 0) (told .marking (told .spacing s)))) = some [0x55]
      ∧ ((told .marking (told .spacing s)).line 0).io.receiver = .inCharacter 48 Settings.atReset.format (.character 0x41) := by
  decide +kernel

theorem test_idleTimerExpiry :
    ((result (.idleTimerExpiry 0) (st opened id)).line 0).closed.map (fun r => (r.seq, r.cause)) = [(1, 1), (2, 1), (3, 1)] := by
  decide +kernel

theorem test_downTimerExpiry :
    ((result (.downTimerExpiry 0) (st (fun x => { x with cond := { x.cond with downTimer := some dueTimer } }) id)).line 0).cond.state
      = .down := by decide +kernel

theorem test_upTimerExpiry :
    let s := st (fun x => { x with cond := { x.cond with state := .down, upTimer := some dueTimer, huntOnUp := true } }) id
    ((result (.upTimerExpiry 0) s).line 0).cond.state = .hunt
      ∧ ((result (.upTimerExpiry 0) s).line 0).closed.map (·.cause) = [4, 5] := by decide +kernel

theorem test_leaseExpiry :
    let s := st (fun x => { attached [writer 0] x with att := { list := [writer 0], leaseTimer := some dueTimer } }) id
    ((result (.leaseExpiry 0) s).line 0).writer = none ∧ ((result (.leaseExpiry 0) s).port 0).causes = [⟨.writeLost, 0, 4⟩] := by
  decide +kernel

theorem test_holdTimerExpiry :
    let s := st (fun x => { logged x with hold := { state := .held, timer := some dueTimer, evalDue := false } }) id
    ((result (.holdTimerExpiry 0) s).line 0).hold.state = .spent
      ∧ ((result (.holdTimerExpiry 0) s).line 0).tx.state = .sending 0x11 := by decide +kernel

theorem test_pacingGapExpiry :
    ((result (.pacingGapExpiry 0) (st (sends fun x => { x with state := .gap 2 dueTimer, queue := [.character 9] }) id)).line 0).tx.state
      = .sending 9 := by decide +kernel

theorem test_breakDurationExpiry :
    ((result (.breakDurationExpiry 0) (st (sends fun x => { x with state := .breaking 10 dueTimer }) id)).line 0).tx.state
      = .closing := by decide +kernel

theorem test_breakClosingEnd :
    ((result (.breakClosingEnd 0) (st (sends fun x => { x with state := .closing }) id)).line 0).tx.state = .idle := by decide +kernel

theorem test_sendCharacterEnd :
    ((result (.sendCharacterEnd 0) (st (sends fun x => { x with state := .sending 1, queue := [.character 9] }) id)).line 0).tx.state
      = .sending 9 := by decide +kernel

theorem test_sendRunPlacement :
    let s := st (attached [writer 0] ∘ sends fun x => { x with waiting := some (.send 0 [1, 2]) }) (inPhase (.waiting 0))
    ((result (.sendRunPlacement 0) s).port 0).phase = .idle ∧ ((result (.sendRunPlacement 0) s).line 0).tx.queue = [.character 2] := by
  decide +kernel

theorem test_breakMarkerPlacement :
    let s := st (attached [writer 0] ∘ sends fun x => { x with state := .closing, waiting := some (.sendBreak 0 10) })
      (inPhase (.waiting 0))
    ((result (.breakMarkerPlacement 0) s).line 0).tx.queue = [.marker 10 0] := by decide +kernel

theorem test_completion :
    ((result (.completion 0) (st id (inPhase (.completing { code := .quota, count := some 3 })))).port 0).status = 0x08
      ∧ ((result (.completion 0) (st id (inPhase (.completing { code := .quota, count := some 3 })))).port 0).count = 3 := by
  decide +kernel

theorem test_falseStart :
    let s := st (fun x => { x with io := { x.io with receiver := .inCharacter 48 x.io.inForce.format .carried } }) id
    ((result (.falseStart 0) s).line 0).io.receiver = .between := by decide +kernel

/-! ## Witnesses: for every statement, states and operands that meet its hypotheses, at the bounds of their ranges -/

/-- Two of the invariants at a state with a log, a writer and a waiting SEND. -/
def busy : State :=
  { st (attached [writer 0, watcher 1 (.level 1)] ∘ sends (fun x => { x with queue := [.character 1], waiting := some (.send 0 [2]) })
      ∘ logged) (inPhase (.waiting 0)) with
    freePages := (List.range 2048).drop 1
    pending := [.receiveLevelReport 0 .marking] }

theorem test_busy_tables : SettingsOk busy ∧ QueueBound busy ∧ AttachmentTable busy ∧ CauseOrder busy ∧ MarksClear busy := by
  unfold SettingsOk QueueBound AttachmentTable CauseOrder MarksClear; decide +kernel

theorem test_busy_pages : PagePartition busy := by
  have h : busy.freePages ++ (List.finRange 16).flatMap (fun l => (busy.line l).pool.pages.map (·.number))
      = (List.range 2048).drop 1 ++ [0] := by decide +kernel
  have k : List.range Config.pageCount = [0] ++ (List.range 2048).drop 1 := by decide +kernel
  unfold PagePartition
  rw [h, k]
  exact List.perm_append_comm

theorem test_busy_quotas : QuotaBounds busy := by unfold QuotaBounds; decide +kernel

/-- Every log is kept where only line 0 holds a page, and its pages are laid out. -/
theorem logKept_of_first {s : State} (h : ∀ l, (s.line l).consecutive)
    (k : ∀ l : LineId, l ≠ 0 → (s.line l).cap.opened = none ∧ (s.line l).pool.pages = [])
    (z : pagesLaid (s.line 0).cap.opened (s.line 0).pool.pages) : LogKept s := by
  intro l
  refine ⟨h l, ?_⟩
  by_cases hl : l = 0
  · subst hl
    exact z
  · rw [(k l hl).1, (k l hl).2]
    rfl

theorem test_busy_logs : LogKept busy := by
  refine logKept_of_first (by unfold Line.consecutive; decide +kernel) (by decide +kernel) ?_
  have z : (busy.line 0).cap.opened = none ∧ (busy.line 0).pool.pages = [pageOf 0 [evt 1, evt 2]] := by decide +kernel
  rw [z.1, z.2]
  exact ⟨by decide +kernel, by simp [pageOf, evt]⟩

theorem test_busy_waiting : WaitingAgrees busy := agrees_waiting (by decide +kernel)

theorem test_busy_steps : ∃ t, step busy = .next t := ⟨_, rfl⟩

theorem test_witness_StepTakesTheFrontCommand :
    busy.pending = .receiveLevelReport 0 .marking :: [] ∧ State.reset.pending = [] := by decide +kernel

theorem test_witness_CommandsActWithinTheirScope :
    SettingsOk busy ∧ (∀ a b d, Instr.completion 0 ≠ .deviceReset a b d) ∧ Instr.completion 0 ≠ .timebaseAdvance
      ∧ (∀ k, ¬ busy.actsOn (.completion 0) k) ∧ ¬ busy.actsOn (.sendRunPlacement 0) 1
      ∧ ¬ busy.owns (.sendRunPlacement 0) 1 := by
  refine ⟨test_busy_tables.1, nofun, nofun, fun _ h => h, by simp [State.actsOn, Instr.scope], ?_⟩
  rintro (h | ⟨l, h, w, hw, hp⟩)
  · cases h
  · have hl : l = 0 := h
    subst hl
    have e : (busy.line 0).tx.waiting = some (.send 0 [2]) := by decide +kernel
    rw [e] at hw
    cases hw
    exact absurd hp (by decide)

theorem test_witness_AnEventThatDoesNotStandHasNoEffect :
    timerDue (State.reset.line 0).cap.idleTimer = false ∧ timerDue (State.reset.line 0).cond.downTimer = false
      ∧ timerDue (State.reset.line 0).cond.upTimer = false ∧ timerDue (State.reset.line 0).att.leaseTimer = false
      ∧ timerDue (State.reset.line 0).hold.timer = false
      ∧ (∀ d u, ((st (sends fun x => { x with state := .gap 2 newTimer }) id).line 0).tx.state = .gap d u → u.due = false)
      ∧ (∀ d u, ((st (sends fun x => { x with state := .breaking 10 newTimer }) id).line 0).tx.state = .breaking d u → u.due = false)
      ∧ (State.reset.line 0).tx.state ≠ .closing ∧ (∀ c, (State.reset.line 0).tx.state ≠ .sending c)
      ∧ (State.reset.line 0).tx.waiting = none
      ∧ (let s := st (sends fun x => { x with queue := List.replicate 55 (.character 0), waiting := some (.send 0 (List.replicate 10 1)) }) id
        ∀ q r, (s.line 0).tx.waiting = some (.send q r) → (s.line 0).tx.free < min 10 r.length)
      ∧ (let s := st (sends fun x => { x with queue := List.replicate 64 (.character 0), waiting := some (.sendBreak 0 10) }) id
        ∀ q d, (s.line 0).tx.waiting = some (.sendBreak q d) → (s.line 0).tx.free = 0)
      ∧ (∀ c, (State.reset.port 0).phase ≠ .filling c) ∧ (∀ r, (State.reset.port 0).phase ≠ .completing r) := by
  refine ⟨rfl, rfl, rfl, rfl, rfl, fun d u h => ?_, fun d u h => ?_, by decide +kernel, fun c h => ?_, rfl, fun q r h => ?_,
    fun q d h => ?_, fun c h => ?_, fun r h => ?_⟩
  · cases (show TxState.gap 2 newTimer = .gap d u from h); rfl
  · cases (show TxState.breaking 10 newTimer = .breaking d u from h); rfl
  · cases (show TxState.idle = .sending c from h)
  · cases (show some (Waiting.send 0 (List.replicate 10 1)) = some (.send q r) from h); decide +kernel
  · decide +kernel
  · cases (show Phase.idle = .filling c from h)
  · cases (show Phase.idle = .completing r from h)

theorem test_witness_TimebaseAdvancesByOneMillisecond :
    ({ State.reset with timebase := 0xFFFFFFFF#32 } : State).timebase = 0xFFFFFFFF#32
      ∧ ((st (sends fun x => { x with state := .gap 2 newTimer }) id).line 0).tx.state = .gap 2 newTimer
      ∧ ((st (sends fun x => { x with state := .breaking 10 newTimer }) id).line 0).tx.state = .breaking 10 newTimer
      ∧ ∀ d u, (State.reset.line 0).tx.state ≠ .gap d u ∧ (State.reset.line 0).tx.state ≠ .breaking d u :=
  ⟨rfl, rfl, rfl, fun _ _ => ⟨nofun, nofun⟩⟩

theorem test_witness_PortResetClearsThePort :
    (WaitingAgrees busy ∧ (busy.port 0).resetAsserted = false ∧ (busy.port 0).idle = false ∧ (busy.port 1).idle = true)
      ∧ ((st id fun x => { x with resetAsserted := true }).port 0).resetAsserted = true :=
  ⟨⟨test_busy_waiting, by decide +kernel⟩, by decide +kernel⟩

theorem test_witness_TheWindowIsLaidOut :
    ((st id fun x => { x with resetAsserted := true }).port 0).resetAsserted = true ∧ (State.reset.port 0).resetAsserted = false
      ∧ 17 ≤ (17 : BitVec 5).toNat ∧ 17 ≤ (31 : BitVec 5).toNat ∧ (0x55 : Byte) ∉ commandCodes
      ∧ (List.replicate 12 (0 : Byte)).length = 12 ∧ (List.replicate 16 (0 : Byte)).length ≤ 16 := by decide +kernel

theorem test_witness_AttentionFollowsTheCauseSet :
    (∃ t, exec (.deviceReset 0 0 0) State.reset = .next t)
      ∧ ((State.reset.port 0).resetAsserted = false ∧ ∃ t, exec (.portReset 0) State.reset = .next t) :=
  ⟨⟨_, rfl⟩, by decide +kernel, ⟨_, rfl⟩⟩

theorem test_witness_APortThatIsNotReadyTakesNoCommand :
    ((Instr.readTime 0).codePort? = some 0 ∧ (busy.port 0).resetAsserted = false ∧ (busy.port 0).idle = false)
      ∧ (((st id fun x => { x with resetAsserted := true }).port 0).resetAsserted = true ∧ (Instr.badCommand 0 0x55).codePort? = some 0) := by
  decide +kernel

theorem test_witness_BadLineAndBadCommandAreRefused :
    ((Instr.attach 0).scope = .named 0 ∧ ((st id fun x => { x with line := 16 }).port 0).ready
        ∧ 16 ≤ ((st id fun x => { x with line := 16 }).port 0).line.toNat ∧ 16 ≤ ((st id fun x => { x with line := 255 }).port 0).line.toNat)
      ∧ (State.reset.port 0).ready :=
  ⟨⟨rfl, ⟨by decide +kernel, by decide +kernel⟩, by decide +kernel, by decide +kernel⟩, by decide +kernel, by decide +kernel⟩

theorem test_witness_CompletionGivesTheResults :
    ((st id (inPhase (.completing { code := .quota }))).port 0).phase = .completing { code := .quota }
      ∧ SettingsOk busy ∧ WaitingAgrees busy ∧ (busy.port 1).idle = true ∧ Instr.sendRunPlacement 0 ≠ .deviceReset 0 0 0
      ∧ (∃ t, exec (.sendRunPlacement 0) busy = .next t) ∧ (∃ t, exec (.dataRead 1) busy = .next t)
      ∧ (Instr.sendRunPlacement 0).port? ≠ some 1 :=
  ⟨rfl, test_busy_tables.1, test_busy_waiting, by decide +kernel, nofun, ⟨_, rfl⟩, ⟨_, rfl⟩, nofun⟩

theorem test_witness_AbortEndsTheCommand :
    ((State.reset.port 0).resetAsserted = false ∧ (State.reset.port 0).phase = .idle)
      ∧ ((st id (inPhase (.completing {}))).port 0).phase = .completing {}
      ∧ ((st id (inPhase (.filling (.readHistory 0 1 3 0 0)))).port 0).phase = .filling (.readHistory 0 1 3 0 0)
      ∧ ((st id (inPhase (.reading (.lineStatus []) []))).port 0).phase = .reading (.lineStatus []) []
      ∧ ((st id (inPhase (.writing (.send 0 512)))).port 0).phase = .writing (.send 0 512)
      ∧ ((st id (inPhase (.writing (.setLine 0)))).port 0).phase = .writing (.setLine 0)
      ∧ (WaitingAgrees busy ∧ (busy.port 0).resetAsserted = false ∧ (busy.port 0).phase = .waiting 0
        ∧ (busy.line 0).tx.waiting = some (.send 0 [2]))
      ∧ (let s := st (sends fun x => { x with waiting := some (.sendBreak 0 10) }) (inPhase (.waiting 0))
        (s.port 0).phase = .waiting 0 ∧ (s.line 0).tx.waiting = some (.sendBreak 0 10))
      ∧ (let s := st (attached [watcher 0 .none] ∘ logged) (inPhase (.reading (.readNew 0 3 0 0 0) []))
        (s.port 0).phase = .reading (.readNew 0 3 0 0 0) [] ∧ (s.line 0).attachment 0 = some (watcher 0 .none)
          ∧ (watcher 0 .none).lossless = false)
      ∧ ((st (attached [watcher 0 .none]) (inPhase (.filling (.readNew 0 3 0 0 0)))).port 0).phase = .filling (.readNew 0 3 0 0 0) :=
  ⟨by decide +kernel, rfl, rfl, rfl, rfl, rfl, ⟨test_busy_waiting, by decide +kernel⟩, by decide +kernel, by decide +kernel, rfl⟩

theorem test_witness_ArgumentWriteStoresTheByte :
    ((State.reset.port 0).resetAsserted = false ∧ (State.reset.port 0).idle = true ∧ (busy.port 0).resetAsserted = false ∧ (busy.port 0).idle = false)
      ∧ 2 ≤ (2 : BitVec 5).toNat ∧ (13 : BitVec 5).toNat ≤ 13 ∧ (1 : BitVec 5).toNat < 2 ∧ 13 < (14 : BitVec 5).toNat
      ∧ (3 : BitVec 5) ≠ 2 := by decide +kernel

theorem test_witness_ReadTimeLatchesTheTimebase :
    (State.reset.port 0).ready ∧ ((busy.port 0).resetAsserted = false ∧ (busy.port 0).idle = false)
      ∧ (SettingsOk busy ∧ WaitingAgrees busy ∧ (busy.port 1).idle = true ∧ (∃ t, exec (.argumentWrite 1 9 0) busy = .next t)
        ∧ (9 : BitVec 5).toNat < 10) :=
  ⟨⟨by decide +kernel, by decide +kernel⟩, by decide +kernel, test_busy_tables.1, test_busy_waiting, by decide +kernel, ⟨_, rfl⟩, by decide⟩

/-- A port with causes of every kind, on a line where it has an attachment in a mode. -/
def causing (m : Mode) : State :=
  st (attached [watcher 0 m] ∘ logged) fun x =>
    { x with causes := [⟨.data, 0, 0⟩, ⟨.drained, 1, 0⟩] }

theorem test_witness_NextCauseReportsTheFirstCause :
    ((State.reset.port 0).ready ∧ (State.reset.port 0).causes = [])
      ∧ (CauseOrder (causing (.level 1)) ∧ ((causing (.level 1)).port 0).ready
        ∧ ((causing (.level 1)).port 0).causes = ⟨.data, 0, 0⟩ :: [⟨.drained, 1, 0⟩]
        ∧ ((causing (.level 1)).line 0).attachment 0 = some (watcher 0 (.level 1)))
      ∧ (CauseOrder (causing (.first false)) ∧ ((causing (.first false)).line 0).attachment 0 = some (watcher 0 (.first false)))
      ∧ (let s := st id fun x => { x with causes := [⟨.overtaken, 0, 0⟩, ⟨.writeLost, 0, 4⟩] }
        CauseOrder s ∧ (s.port 0).causes = ⟨.overtaken, 0, 0⟩ :: [⟨.writeLost, 0, 4⟩])
      ∧ (let s := st id fun x => { x with causes := [⟨.writeLost, 15, 4⟩] }
        CauseOrder s ∧ (s.port 0).causes = ⟨.writeLost, 15, 4⟩ :: []) := by
  unfold CauseOrder Port.ready; decide +kernel

theorem test_witness_CountNewReportsTheUnread :
    (((st id fun x => { x with line := 16 }).port 0).ready ∧ 16 ≤ ((st id fun x => { x with line := 16 }).port 0).line.toNat)
      ∧ (st (attached [watcher 0 .none] ∘ logged) id).calls 0 0
      ∧ (st id fun x => { x with line := 15 }).calls 0 15 := by
  unfold State.calls Port.ready; decide +kernel

theorem test_witness_ClearConditionReturnsTheLatch :
    (((st id fun x => { x with line := 16 }).port 0).ready ∧ 16 ≤ ((st id fun x => { x with line := 16 }).port 0).line.toNat)
      ∧ (State.reset.calls 0 0 ∧ (State.reset.line 0).attachment 0 = none)
      ∧ ((st (attached [watcher 0 .none]) id).calls 0 0
        ∧ ((st (attached [watcher 0 .none]) id).line 0).attachment 0 = some (watcher 0 .none)
        ∧ (watcher 0 .none).conditionEnable = true) := by
  unfold State.calls Port.ready; decide +kernel

theorem test_witness_RearmArmsOrPosts :
    (((st id fun x => { x with line := 16 }).port 0).ready ∧ 16 ≤ ((st id fun x => { x with line := 16 }).port 0).line.toNat)
      ∧ (State.reset.calls 0 0 ∧ (State.reset.line 0).attachment 0 = none)
      ∧ ((st (attached [watcher 0 (.level 1)]) id).calls 0 0
        ∧ ((st (attached [watcher 0 (.level 1)]) id).line 0).attachment 0 = some (watcher 0 (.level 1))
        ∧ ∀ b, (watcher 0 (.level 1)).mode ≠ .first b)
      ∧ (let s := st (attached [watcher 0 (.first true)] ∘ logged) id
        s.calls 0 0 ∧ (s.line 0).attachment 0 = some (watcher 0 (.first true)) ∧ 0 < (s.line 0).unread (watcher 0 (.first true)))
      ∧ (let s := st (attached [watcher 0 (.first false)]) id
        s.calls 0 0 ∧ (s.line 0).attachment 0 = some (watcher 0 (.first false)) ∧ (s.line 0).unread (watcher 0 (.first false)) = 0) := by
  unfold State.calls Port.ready; decide +kernel

/-- A watcher on a log, its port with an OPTION and a POSITION. -/
def seeking (m : Mode) (option : Byte) (position : Word) : State :=
  st (attached [watcher 0 m] ∘ logged) fun x => { x with option := option, position := position }

theorem test_witness_SeekSetsTheCursor :
    (State.reset.calls 0 0 ∧ (State.reset.line 0).attachment 0 = none)
      ∧ ((seeking .none 3 0).calls 0 0 ∧ ((seeking .none 3 0).line 0).attachment 0 ≠ none ∧ 2 < ((seeking .none 3 0).port 0).option.toNat)
      ∧ (((seeking .none 2 0).port 0).option = 2 ∧ ((seeking .none 2 0).port 0).position = 0)
      ∧ ((seeking (.level 1) 2 3).calls 0 0 ∧ ((seeking (.level 1) 2 3).line 0).attachment 0 = some (watcher 0 (.level 1))
        ∧ ((seeking (.level 1) 2 3).port 0).option.toNat ≤ 2 ∧ ((seeking (.level 1) 2 3).port 0).position ≠ 0
        ∧ seqDist 1 3 ≤ seqDist ((seeking (.level 1) 2 3).line 0).cap.oldest ((seeking (.level 1) 2 3).line 0).cap.next)
      ∧ (((seeking .none 2 4).port 0).option = 2
        ∧ seqDist ((seeking .none 2 4).line 0).cap.oldest ((seeking .none 2 4).line 0).cap.next < seqDist 1 4)
      ∧ ((seeking .none 0 0).port 0).option = 0 ∧ ((seeking .none 1 0).port 0).option = 1 := by
  unfold State.calls Port.ready; decide +kernel

theorem test_witness_LineStatusReturnsOneRecord :
    ((seeking .none 2 0).calls 0 0 ∧ 1 < ((seeking .none 2 0).port 0).option.toNat)
      ∧ ((seeking .none 0 0).calls 0 0 ∧ ((seeking .none 0 0).port 0).option = 0)
      ∧ ((seeking .none 1 0).calls 0 0 ∧ ((seeking .none 1 0).port 0).option = 1) := by
  unfold State.calls Port.ready; decide +kernel

theorem test_witness_ReadNewFixesItsEnd :
    (State.reset.calls 0 0 ∧ (State.reset.line 0).attachment 0 = none)
      ∧ (let s := st (attached [watcher 0 (.first false)] ∘ logged) id
        s.calls 0 0 ∧ (s.line 0).attachment 0 = some (watcher 0 (.first false)) ∧ (s.line 0).cap.opened = none ∧ MarksClear s
          ∧ seqBelow 1 (s.line 0).cap.next = true)
      ∧ (let s := st (attached [{ watcher 0 .none with cursor := 3 }] ∘ logged) id
        s.calls 0 0 ∧ (s.line 0).attachment 0 = some { watcher 0 .none with cursor := 3 } ∧ seqBelow 3 (s.line 0).cap.next = false)
      ∧ (let s := st (attached [watcher 0 .none] ∘ opened) fun x => { x with position := 2 }
        s.calls 0 0 ∧ (s.line 0).cap.opened = some { seq := 3, time := 0, body := [0x41], room := 212 } ∧ (s.line 0).pool.pages ≠ []
          ∧ (s.line 0).pool.freezePending = none ∧ MarksClear s ∧ (s.line 0).attachment 0 = some (watcher 0 .none)
          ∧ (s.port 0).position ≠ 0 ∧ placeInLog (s.line 0) (s.port 0).position = .within
          ∧ (s.port 0).position ≠ (s.line 0).cap.next ∧ openInRange (s.line 0) (s.port 0).position (s.port 0).count.toNat = true
          ∧ openInRange (s.line 0) (s.port 0).position 1 = false) := by
  unfold State.calls Port.ready MarksClear; decide +kernel

/-- A line with an open record, and P0's cursor on it or past it. -/
def following (cursor : Sys2Proof.Seq) (m : Mode) : State := st (attached [{ watcher 0 m with cursor := cursor }] ∘ opened) id

theorem test_witness_ReadNewFixesItsEnd_flush :
    (following 3 (.first true)).calls 0 0 ∧ MarksClear (following 3 (.first true)) ∧ ((following 3 (.first true)).line 0).shortLog
      ∧ ((following 3 (.first true)).line 0).attachment 0 = some { watcher 0 (.first true) with cursor := 3 }
      ∧ ((following 3 (.first true)).line 0).cap.opened = some { seq := 3, time := 0, body := [0x41], room := 212 }
      ∧ seqBelow 3 ((following 3 (.first true)).line 0).cap.next = true ∧ seqBelow 4 ((following 4 .none).line 0).cap.next = false := by
  unfold State.calls Port.ready MarksClear Line.shortLog; decide +kernel

theorem test_witness_ReadNewFixesItsEnd_log : LogKept (following 3 (.first true)) := by
  refine logKept_of_first (by unfold Line.consecutive; decide +kernel) (by decide +kernel) ?_
  have z : ((following 3 (.first true)).line 0).cap.opened = some { seq := 3, time := 0, body := [0x41], room := 212 }
      ∧ ((following 3 (.first true)).line 0).pool.pages = [{ pageOf 0 [evt 1, evt 2] with occupied := 37 }] := by decide +kernel
  rw [z.1, z.2]
  exact ⟨by decide +kernel, by simp [pageOf, evt]⟩

theorem test_witness_ReadHistoryPlacesItsStart :
    (State.reset.calls 0 0 ∧ (State.reset.port 0).position = 0)
      ∧ (let s := st (fun x => { x with cap := { x.cap with oldest := 4, next := 4 } }) fun x => { x with position := 3 }
        s.calls 0 0 ∧ (s.port 0).position ≠ 0 ∧ seqDist 4 4 < seqDist 4 3 ∧ seqBelow 3 4 = true)
      ∧ (let s := st logged fun x => { x with position := 3 }
        s.calls 0 0 ∧ (s.port 0).position ≠ 0 ∧ (s.port 0).position = (s.line 0).cap.next)
      ∧ (seqDist 1 3 < seqDist 1 4 ∧ seqBelow 4 1 = false)
      ∧ (let s := st logged fun x => { x with position := 2 }
        s.calls 0 0 ∧ (s.port 0).position ≠ 0 ∧ (s.port 0).position ≠ (s.line 0).cap.next ∧ seqDist 1 2 ≤ seqDist 1 3 ∧ MarksClear s
          ∧ (s.line 0).cap.opened = none) := by
  unfold State.calls Port.ready MarksClear; decide +kernel

theorem test_witness_AFillPlacesWholeRecords :
    (([] : List Byte).length ≤ 512 ∧ ∀ r ∈ [evt 1, { evt 2 with body := List.replicate 236 0 }], r.body.length ≤ 236)
      ∧ (List.replicate 512 (0 : Byte)).length ≤ 512 ∧ (List.replicate 264 (0 : Byte)).length ≤ 264
      ∧ (evt 1).body.length < 256 ∧ 4294967295 < 4294967296 := by decide +kernel

theorem test_witness_FillEndLoadsTheBuffer :
    (let s := st (attached [{ watcher 0 .none with overtaken := true }] ∘ logged) (inPhase (.filling (.readNew 0 3 1 0 0)));
      (s.port 0).phase = .filling (.readNew 0 3 1 0 0) ∧ (s.line 0).attachment 0 = some { watcher 0 .none with overtaken := true }
        ∧ (s.line 0).consecutive ∧ (1 : Sys2Proof.Seq) ≠ 0)
      ∧ (let s := st (attached [{ watcher 0 .none with cursor := 3 }] ∘ logged) (inPhase (.filling (.readNew 0 3 0 1 0)))
        (s.port 0).phase = .filling (.readNew 0 3 0 1 0) ∧ (s.line 0).attachment 0 = some { watcher 0 .none with cursor := 3 })
      ∧ (let s := st (attached [{ watcher 0 .none with overtaken := true }] ∘ farOn) (inPhase (.filling (.readNew 0 4 0 0 0)))
        (s.port 0).phase = .filling (.readNew 0 4 0 0 0) ∧ (s.line 0).attachment 0 = some { watcher 0 .none with overtaken := true }
          ∧ (s.line 0).consecutive ∧ ¬ seqDist (s.line 0).cap.oldest 4 ≤ seqDist (s.line 0).cap.oldest (s.line 0).cap.next)
      ∧ (let s := st logged (inPhase (.filling (.readHistory 0 1 3 0 0)))
        (s.port 0).phase = .filling (.readHistory 0 1 3 0 0) ∧ seqDist (s.line 0).cap.oldest 1 ≤ seqDist (s.line 0).cap.oldest (s.line 0).cap.next
          ∧ (s.line 0).consecutive)
      ∧ (let s := st logged (inPhase (.filling (.readHistory 0 3 3 2 2)))
        (s.port 0).phase = .filling (.readHistory 0 3 3 2 2) ∧ seqDist (s.line 0).cap.oldest 3 ≤ seqDist (s.line 0).cap.oldest (s.line 0).cap.next)
      ∧ (let s := st (fun x => { x with cap := { x.cap with oldest := 4, next := 4 } }) (inPhase (.filling (.readHistory 0 1 3 0 0)))
        (s.port 0).phase = .filling (.readHistory 0 1 3 0 0)
          ∧ ¬ seqDist (s.line 0).cap.oldest 1 ≤ seqDist (s.line 0).cap.oldest (s.line 0).cap.next) := by
  unfold Line.consecutive; decide +kernel

/-- A port that reads a buffer, with its read point at the last byte of the first record. -/
def delivering (c : DataIn) (items : List Item) (length : Nat) : State :=
  st (attached [{ watcher 0 (.level 1) with cursor := 1 }] ∘ logged) fun x =>
    { x with phase := .reading c items, transferLength := length, readPoint := 11 }

theorem test_witness_DataReadHandsOutTheByte :
    ((State.reset.port 0).resetAsserted = false ∧ (State.reset.port 0).dataReady = false)
      ∧ ((st id (inPhase (.writing (.setLine 0)))).port 0).phase = .writing (.setLine 0)
      ∧ (let s := delivering (.readNew 0 3 0 0 0) [⟨13, 2, none⟩] 13
        (s.port 0).resetAsserted = false ∧ (s.port 0).phase = .reading (.readNew 0 3 0 0 0) [⟨13, 2, none⟩]
          ∧ (s.port 0).readPoint + 1 ≠ (s.port 0).transferLength ∧ (⟨13, 2, none⟩ : Item).stop ≠ (s.port 0).readPoint + 1)
      ∧ (let s := delivering (.readNew 0 3 0 0 0) [⟨12, 2, none⟩, ⟨24, 3, none⟩] 24
        (⟨12, 2, none⟩ : Item).stop = (s.port 0).readPoint + 1 ∧ (⟨12, 2, none⟩ : Item).stop ≠ (s.port 0).transferLength
          ∧ (s.line 0).attachment 0 = some (watcher 0 (.level 1)))
      ∧ (let s := delivering (.readHistory 0 1 3 0 0) [⟨12, 2, none⟩, ⟨24, 3, none⟩] 24
        (s.port 0).phase = .reading (.readHistory 0 1 3 0 0) [⟨12, 2, none⟩, ⟨24, 3, none⟩]) := by decide +kernel

theorem test_witness_TheEndOfADeliveryGoesOn :
    (let s := delivering (.lineStatus []) [] 12;
      (s.port 0).resetAsserted = false ∧ (s.port 0).readPoint + 1 = (s.port 0).transferLength
        ∧ (s.port 0).phase = .reading (.lineStatus []) [])
      ∧ (let s := delivering (.readHistory 0 1 3 0 0) [⟨12, 2, none⟩] 12
        (s.port 0).phase = .reading (.readHistory 0 1 3 0 0) [⟨12, 2, none⟩]
          ∧ (⟨12, 2, none⟩ : Item).stop = (s.port 0).transferLength ∧ seqBelow 2 3 = true)
      ∧ seqBelow 3 3 = false
      ∧ (let s := delivering (.readNew 0 3 1 0 0) [⟨12, 2, none⟩] 12
        (s.port 0).readPoint + 1 = (s.port 0).transferLength ∧ (⟨12, 2, none⟩ : Item).stop = (s.port 0).transferLength
          ∧ (s.port 0).phase = .reading (.readNew 0 3 1 0 0) [⟨12, 2, none⟩]
          ∧ (s.line 0).attachment 0 = some (watcher 0 (.level 1)) ∧ (watcher 0 (.level 1)).lossless = false
          ∧ seqDist (s.line 0).cap.oldest 3 ≤ seqDist (s.line 0).cap.oldest (s.line 0).cap.next
          ∧ seqDist (s.line 0).cap.oldest 2 < seqDist (s.line 0).cap.oldest 3)
      ∧ ¬ seqDist 0xC0000001 4 ≤ seqDist 0xC0000001 0xC0000002
      ∧ ((⟨12, 0xFFFFFFFF, none⟩ : Item).gap = none ∧ ¬ seqDist 1 0xFFFFFFFF ≤ seqDist 1 3 ∧ seqDist 1 3 ≤ seqDist 1 3) := by decide +kernel

/-- P0 with ATTACH arguments, on a line with attachments. -/
def attaching (f : Line → Line) (option : Byte) (count : Half) : State := st f fun x => { x with option := option, count := count, precedence := 2 }

theorem test_witness_AttachChecksItsArguments :
    ((attaching id 0 0x0300).calls 0 0 ∧ (attachArgs 0 0x0300).bad = true)
      ∧ ((attaching id 0 0x0200).calls 0 0 ∧ (attachArgs 0 0x0200).bad = true) ∧ (attachArgs 2 0).bad = true
      ∧ (attachArgs 5 0).bad = true ∧ (attachArgs 0x87 0x0201).bad = false
      ∧ ((attachArgs 8 0).lossless = true ∧ (State.reset.line 0).io.inForce.flow = false)
      ∧ (let s := attaching (attached [writer 1]) 1 0
        s.calls 0 0 ∧ (attachArgs 1 0).bad = false ∧ (attachArgs 1 0).lossless = false ∧ (attachArgs 1 0).writer = true
          ∧ (s.line 0).writer = some 1 ∧ (attachArgs 1 0).take = false)
      ∧ (let s := (attaching (attached [writer 1]) 3 0).modPort 1 fun x => { x with precedence := 2 }
        s.calls 0 0 ∧ (attachArgs 3 0).take = true ∧ (s.port 0).precedence ≤ (s.port 1).precedence ∧ (s.line 0).writer = some 1) := by
  unfold State.calls Port.ready; decide +kernel

theorem test_witness_AttachMakesOrUpdates :
    (let s := attaching logged 0x10 0x0201;
      s.calls 0 0 ∧ (attachArgs 0x10 0x0201).bad = false ∧ (attachArgs 0x10 0x0201).lossless = false
        ∧ (attachArgs 0x10 0x0201).writer = false ∧ (s.line 0).attachment 0 = none ∧ (s.line 0).noHold ∧ MarksClear s)
      ∧ (let s := attaching (attached [watcher 0 .none] ∘ logged) 0x20 0x0100
        s.calls 0 0 ∧ (attachArgs 0x20 0x0100).bad = false ∧ (attachArgs 0x20 0x0100).writer = false
          ∧ (s.line 0).attachment 0 = some (watcher 0 .none))
      ∧ (let s := attaching (fun x => { x with io := { x.io with inForce := { x.io.inForce with flow := true } } }) 8 0
        s.calls 0 0 ∧ (attachArgs 8 0).bad = false ∧ (attachArgs 8 0).lossless = true ∧ (s.line 0).io.inForce.flow = true) := by
  unfold State.calls Port.ready Line.noHold MarksClear; decide +kernel

theorem test_witness_AttachGrantsTheWriterRole :
    (let s := attaching id 1 0;
      s.calls 0 0 ∧ (attachArgs 1 0).bad = false ∧ (attachArgs 1 0).lossless = false ∧ (attachArgs 1 0).writer = true
        ∧ AttachmentTable s ∧ (s.line 0).writer = none ∧ (s.line 0).noHold)
      ∧ (let s := attaching (attached [writer 0]) 1 0
        AttachmentTable s ∧ s.calls 0 0 ∧ (s.line 0).writer = some 0)
      ∧ (let s := attaching (attached [writer 1] ∘ sends fun x => { x with waiting := some (.send 1 [2]) }) 7 0
        s.calls 0 0 ∧ AttachmentTable s ∧ (attachArgs 7 0).bad = false ∧ (attachArgs 7 0).take = true ∧ (attachArgs 7 0).flush = true
          ∧ (s.line 0).writer = some 1 ∧ (s.port 1).precedence < (s.port 0).precedence
          ∧ (s.line 0).tx.waiting = some (.send 1 [2])) := by
  unfold State.calls Port.ready Line.noHold AttachmentTable; decide +kernel

theorem test_witness_AttachGrantsTheWriterRole_made :
    (let s := attaching (attached [{ watcher 0 .none with overtaken := true }, watcher 1 .none] ∘ logged) 0x11 0;
      s.calls 0 0 ∧ (attachArgs 0x11 0).bad = false ∧ (attachArgs 0x11 0).writer = true ∧ (attachArgs 0x11 0).fromOldest = true
        ∧ AttachmentTable s ∧ (s.line 0).writer = none ∧ roleRefused s 0 0 (attachArgs 0x11 0).take = none ∧ (s.line 0).noHold
        ∧ MarksClear s ∧ (s.line 0).roomy 14 ∧ (s.line 0).attachment 0 = some { watcher 0 .none with overtaken := true }
        ∧ (s.line 0).attachment 1 = some (watcher 1 .none))
      ∧ ((attaching logged 0x11 0).line 0).attachment 0 = none := by
  unfold State.calls Port.ready AttachmentTable Line.noHold MarksClear Line.roomy; decide +kernel

theorem test_witness_AttachGrantsTheWriterRole_waiting :
    WaitingAgrees (attaching (attached [{ watcher 0 .none with overtaken := true }, watcher 1 .none] ∘ logged) 0x11 0)
      ∧ WaitingAgrees
        ((attaching (attached [writer 1] ∘ sends fun x => { x with waiting := some (.send 1 [2]) }) 7 0).modPort 1 (inPhase (.waiting 0))) :=
  ⟨agrees_waiting (by decide +kernel), agrees_waiting (by decide +kernel)⟩

theorem test_witness_DetachRemovesTheAttachment :
    (State.reset.calls 0 0 ∧ (State.reset.line 0).attachment 0 = none)
      ∧ (let s := st (attached [writer 0] ∘ logged) id
        s.calls 0 0 ∧ (s.line 0).attachment 0 ≠ none ∧ (s.line 0).writer = some 0 ∧ AttachmentTable s ∧ (s.line 0).noHold)
      ∧ (let s := st (attached [watcher 0 .none, writer 1] ∘ logged) id
        s.calls 0 0 ∧ (s.line 0).attachment 0 ≠ none ∧ (s.line 0).writer ≠ some 0 ∧ (s.line 0).noHold ∧ MarksClear s) := by
  unfold State.calls Port.ready Line.noHold AttachmentTable MarksClear; decide +kernel

theorem test_witness_ReleaseWriteGivesUpTheRole :
    (((st id fun x => { x with line := 16 }).port 0).ready ∧ 16 ≤ ((st id fun x => { x with line := 16 }).port 0).line.toNat)
      ∧ (State.reset.calls 0 0 ∧ (State.reset.line 0).writer ≠ some 0)
      ∧ (let s := st (attached [writer 0] ∘ logged) id
        AttachmentTable s ∧ s.calls 0 0 ∧ (s.line 0).writer = some 0 ∧ (s.line 0).attachment 0 = some (writer 0)
          ∧ (s.line 0).roomy 14) := by
  unfold State.calls Port.ready AttachmentTable Line.roomy; decide +kernel

theorem test_witness_LeaseExpiryTakesTheRole :
    let s := { busy with lines := (busy.modAtt 0 fun x => { x with leaseTimer := some dueTimer }).lines }
    AttachmentTable s ∧ WaitingAgrees s ∧ (s.line 0).writer = some 0 ∧ timerDue (s.line 0).att.leaseTimer = true
      ∧ (s.line 0).tx.waiting = some (.send 0 [2]) := by
  refine ⟨?_, agrees_waiting (by decide +kernel), by decide +kernel⟩
  unfold AttachmentTable; decide +kernel

/-- The writer P0 with a COUNT, and a line with a queue of a length and a transmitter in SENDING. -/
def queued (n : Nat) (f : Transmit → Transmit) (g : Port → Port) : State :=
  st (attached [writer 0] ∘ logged ∘ sends fun x => f { x with queue := List.replicate n (.character 0), state := .sending 1 }) g

theorem test_witness_ASendTakesItsData :
    ((queued 0 id id).calls 0 0 ∧ ((queued 0 id id).port 0).count.toNat = 0)
      ∧ 512 < ((queued 0 id fun x => { x with count := 513 }).port 0).count.toNat
      ∧ (let s := st id fun x => { x with count := 1 }
        s.calls 0 0 ∧ 1 ≤ (s.port 0).count.toNat ∧ (s.line 0).writer ≠ some 0)
      ∧ (let s := st (attached [writer 0] ∘ inState .off) fun x => { x with count := 512 }
        s.calls 0 0 ∧ (s.port 0).count.toNat ≤ 512 ∧ (s.line 0).writer = some 0 ∧ (s.line 0).cond.state = .off)
      ∧ (let s := queued 0 id fun x => { x with count := 1 }
        s.calls 0 0 ∧ (s.line 0).writer = some 0 ∧ (s.line 0).cond.state ≠ .off)
      ∧ ((State.reset.port 0).resetAsserted = false ∧ (State.reset.port 0).phase ≠ .writing (.send 0 2))
      ∧ (let s := queued 0 id fun x => { x with phase := .writing (.send 0 2), transferLength := 2 }
        (s.port 0).phase = .writing (.send 0 2) ∧ (s.port 0).buffer.length + 1 ≠ (s.port 0).transferLength)
      ∧ (let s := queued 0 id fun x => { x with phase := .writing (.send 0 2), transferLength := 2, buffer := [7] }
        (s.port 0).phase = .writing (.send 0 2) ∧ (s.port 0).buffer.length + 1 = (s.port 0).transferLength
          ∧ (s.line 0).writer = some 0 ∧ (s.line 0).cond.state ≠ .off) := by
  unfold State.calls Port.ready; decide +kernel

theorem test_witness_AWaitingSendPlacesARun :
    (let s := queued 54 (fun x => { x with waiting := some (.send 0 (List.replicate 11 1)) }) (inPhase (.waiting 0));
      SettingsOk s ∧ (s.line 0).writer.isSome = true ∧ (s.line 0).tx.waiting = some (.send 0 (List.replicate 11 1))
        ∧ min 10 (List.replicate 11 (1 : Byte)).length ≤ 64 - (s.line 0).tx.queue.length ∧ (s.line 0).tx.state.waits = false
        ∧ 64 - (s.line 0).tx.queue.length < 11)
      ∧ (let s := queued 54 (fun x => { x with waiting := some (.send 0 (List.replicate 10 1)) }) (inPhase (.waiting 0))
        SettingsOk s ∧ (s.line 0).tx.waiting = some (.send 0 (List.replicate 10 1)) ∧ List.replicate 10 (1 : Byte) ≠ []
          ∧ 10 ≤ 64 - (s.line 0).tx.queue.length ∧ (s.line 0).tx.state.waits = false ∧ MarksClear s
          ∧ (s.line 0).io.inForce.logSent = true ∧ 10 ≤ (s.line 0).io.inForce.maxLength.toNat ∧ (s.line 0).roomy 22)
      ∧ 1 ≤ 1 := by
  unfold SettingsOk MarksClear Line.roomy; decide +kernel

/-- The writer P0 with a SEND or SEND BREAK that waits at a transmitter in IDLE or PAUSED with a queue of a length. -/
def resting (paused : Bool) (n : Nat) (w : Option Waiting) : State :=
  st (attached [writer 0] ∘ logged ∘ sends fun x =>
    { x with
      queue := List.replicate n (.character 0), state := if paused then .paused else .idle, pause := paused, waiting := w })
    fun x => { x with phase := if w.isSome then .waiting 0 else .idle, value := 5000 }

theorem test_witness_AWaitingSendPlacesARun_at_rest :
    (let s := resting false 0 (some (.send 0 (1 :: List.replicate 63 2)));
      SettingsOk s ∧ (s.line 0).writer.isSome = true ∧ (s.line 0).tx.waiting = some (.send 0 (1 :: List.replicate 63 2))
        ∧ (s.line 0).noHold ∧ (s.line 0).tx.flowSlot = none ∧ (s.line 0).tx.state = .idle ∧ (s.line 0).tx.pause = false
        ∧ (s.line 0).tx.queue = [])
      ∧ ((resting false 0 (some (.send 0 [1]))).line 0).tx.waiting = some (.send 0 [1])
      ∧ ((resting false 0 (some (.send 0 (1 :: List.replicate 64 2)))).line 0).tx.waiting = some (.send 0 (1 :: List.replicate 64 2))
      ∧ (let s := resting true 54 (some (.send 0 (1 :: List.replicate 10 2)))
        (s.line 0).tx.waiting = some (.send 0 (1 :: List.replicate 10 2)) ∧ (s.line 0).tx.state = .paused ∧ (s.line 0).tx.pause = true
          ∧ min 10 (10 + 1) ≤ 64 - (s.line 0).tx.queue.length ∧ 64 - (s.line 0).tx.queue.length < 10 + 1)
      ∧ ((resting true 54 (some (.send 0 (1 :: List.replicate 9 2)))).line 0).tx.waiting = some (.send 0 (1 :: List.replicate 9 2)) := by
  unfold SettingsOk Line.noHold; decide +kernel

theorem test_witness_SendBreakPlacesAMarker :
    ((queued 0 id fun x => { x with value := 9 }).calls 0 0 ∧ ((queued 0 id fun x => { x with value := 9 }).port 0).value.toNat < 10)
      ∧ 5000 < ((queued 0 id fun x => { x with value := 5001 }).port 0).value.toNat
      ∧ (let s := st id fun x => { x with value := 10 }
        s.calls 0 0 ∧ 10 ≤ (s.port 0).value.toNat ∧ (s.line 0).writer ≠ some 0)
      ∧ (let s := st (attached [writer 0] ∘ inState .off) fun x => { x with value := 5000 }
        s.calls 0 0 ∧ (s.port 0).value.toNat ≤ 5000 ∧ (s.line 0).writer = some 0 ∧ (s.line 0).cond.state = .off)
      ∧ (let s := queued 63 id fun x => { x with value := 10 }
        s.calls 0 0 ∧ (s.line 0).writer = some 0 ∧ (s.line 0).cond.state ≠ .off ∧ (s.line 0).tx.state.waits = false
          ∧ (s.line 0).tx.queue.length < 64)
      ∧ 64 ≤ ((queued 64 id fun x => { x with value := 10 }).line 0).tx.queue.length
      ∧ (let s := queued 63 (fun x => { x with waiting := some (.sendBreak 0 10) }) (inPhase (.waiting 0))
        (s.line 0).tx.waiting = some (.sendBreak 0 10) ∧ (s.line 0).tx.queue.length < 64 ∧ (s.line 0).tx.state.waits = false) := by
  unfold State.calls Port.ready; decide +kernel

theorem test_witness_SendBreakPlacesAMarker_at_rest :
    (let s := resting false 0 none;
      s.calls 0 0 ∧ 10 ≤ (s.port 0).value.toNat ∧ (s.port 0).value.toNat ≤ 5000 ∧ (s.line 0).writer = some 0
        ∧ (s.line 0).cond.state ≠ .off ∧ (s.line 0).noHold ∧ (s.line 0).tx.flowSlot = none ∧ (s.line 0).tx.state = .idle
        ∧ (s.line 0).tx.pause = false ∧ (s.line 0).tx.queue = [])
      ∧ (let s := resting false 0 (some (.sendBreak 0 10))
        (s.line 0).tx.waiting = some (.sendBreak 0 10) ∧ (s.line 0).tx.state = .idle ∧ (s.line 0).noHold)
      ∧ (let s := resting true 63 (some (.sendBreak 0 10))
        (s.line 0).tx.state = .paused ∧ (s.line 0).tx.pause = true ∧ (s.line 0).tx.queue.length < 64
          ∧ (s.line 0).tx.waiting = some (.sendBreak 0 10)) := by
  unfold State.calls Port.ready Line.noHold; decide +kernel

/-- A line whose transmitter has ended its gap, with its flow slot, pause and queue. -/
def gapped (f : Transmit → Transmit) : State := st (logged ∘ sends fun x => f { x with state := .gap 2 dueTimer }) id

theorem test_witness_AStartPointTakesTheNextWork :
    ((gapped id).line 0).tx.state = .gap 2 dueTimer ∧ dueTimer.due = true
      ∧ ((st (sends fun x => { x with state := .closing }) id).line 0).tx.state = .closing
      ∧ (((queued 1 id id).line 0).tx.state = .sending 1 ∧ ((queued 1 id id).line 0).io.inForce.pacing = 0)
      ∧ ((gapped fun x => { x with flowSlot := some .xon }).line 0).tx.flowSlot = some .xon
      ∧ (((gapped fun x => { x with pause := true }).line 0).tx.flowSlot = none ∧ ((gapped fun x => { x with pause := true }).line 0).tx.pause = true)
      ∧ (((gapped id).line 0).tx.pause = false ∧ ((gapped id).line 0).tx.queue = [])
      ∧ ((gapped fun x => { x with queue := [.character 7] }).line 0).tx.queue = .character 7 :: []
      ∧ (((gapped fun x => { x with queue := [.marker 10 0] }).line 0).tx.queue = .marker 10 0 :: []
        ∧ ((gapped fun x => { x with queue := [.marker 10 0] }).line 0).noHold) := by
  unfold Line.noHold; decide +kernel

theorem test_witness_AStartPointTakesTheNextWork_pin :
    ((st looped id).line 0).tx.inUse.loopback = true ∧ (State.reset.line 0).tx.inUse.loopback = false
      ∧ ((queued 1 id id).line 0).tx.state = .sending 1
      ∧ ((st (sends fun x => { x with state := .breaking 10 newTimer }) id).line 0).tx.state = .breaking 10 newTimer
      ∧ (∀ c, (State.reset.line 0).tx.state ≠ .sending c) ∧ ∀ d u, (State.reset.line 0).tx.state ≠ .breaking d u :=
  ⟨rfl, rfl, rfl, rfl, nofun, nofun⟩

theorem test_witness_TheEndOfAWorkAtTheTransmitter :
    (let s := queued 1 (fun x => { x with drainMark := some 0 }) id;
      (s.line 0).tx.state = .sending 1 ∧ (s.line 0).io.inForce.pacing = 0 ∧ (s.line 0).tx.flowSlot = none ∧ (s.line 0).tx.pause = false
        ∧ (s.line 0).tx.queue = .character 0 :: [] ∧ (s.line 0).tx.drainMark = some 0)
      ∧ ((queued 2 id id).line 0).tx.queue = .character 0 :: [.character 0]
      ∧ (let s := st (fun x => { x with io := { x.io with inForce := { x.io.inForce with pacing := 1 } }, tx := { x.tx with state := .sending 1 } }) id
        (s.line 0).tx.state = .sending 1 ∧ (s.line 0).io.inForce.pacing ≠ 0)
      ∧ ((st (sends fun x => { x with state := .breaking 10 dueTimer }) id).line 0).tx.state = .breaking 10 dueTimer
      ∧ (let last := fun x : TxState => (st (sends fun y => { y with state := x, queue := [.marker 10 0], drainMark := some 0 }) id).line 0
        ((last (.gap 2 dueTimer)).tx.state = .gap 2 dueTimer ∧ (last .closing).tx.state = .closing
          ∧ (last .closing).tx.flowSlot = none ∧ (last .closing).tx.pause = false ∧ (last .closing).tx.queue = .marker 10 0 :: []
          ∧ (last .closing).tx.drainMark = some 0)) := by decide +kernel

theorem test_witness_CharactersHaveTheirBitsAndMarks :
    let f : Format := { sevenBits := true, parity := .odd, twoStops := true }
    let even : Format := { f with parity := .even }
    let driven := fun x : TxState => (st (looped ∘ sends fun y => { y with state := x }) id).line 0
    ((6 < (if f.sevenBits then 7 else 8) ∧ f.parity ≠ .noParity ∧ f.parity = .odd ∧ even.parity = .even)
        ∧ (1 + (if f.sevenBits then 7 else 8) + (if f.parity = .noParity then 0 else 1) ≤ 10 ∧ 10 < (frameBits f 0).length))
      ∧ ((driven (.sending 1)).io.inForce.loopback = true ∧ (driven (.sending 1)).tx.inUse.loopback = true
        ∧ (driven (.sending 1)).tx.inUse.divisor = 48 ∧ (driven (.sending 1)).tx.inUse.format = Settings.atReset.format
        ∧ (driven (.sending 1)).tx.inUse.edgeAhead = true ∧ (driven (.sending 1)).rxDivisor = 48
        ∧ (driven (.sending 1)).tx.state = .sending 1 ∧ (driven (.breaking 10 newTimer)).tx.state = .breaking 10 newTimer
        ∧ (driven (.sending 1)).io.receiver = .between
        ∧ ((driven (.sending 1)).seeLevel .spacing).io.receiver = .inCharacter 48 Settings.atReset.format (.character 1)
        ∧ ((driven (.sending 1)).seeLevel .marking).tx.inUse.edgeAhead = false)
      ∧ ((State.reset.line 0).io.inForce.loopback = false
        ∧ ((State.reset.line 0).seeLevel .spacing).io.receiver = .inCharacter 48 Settings.atReset.format .carried)
      ∧ ((st receiving id).line 0).io.receiver = .inCharacter 48 Settings.atReset.format .carried := by decide +kernel

/-- The flow option, break-null suppression pending and a strip character on a line. -/
def classed (x : Line) : Line :=
  { x with
    io := { x.io with inForce := { x.io.inForce with flow := true, stripPresent := true, strip := 0x7F } }
    cond := { x.cond with nullPending := true } }

theorem test_witness_CharactersThatAreNotStored :
    ((st (inState .off) id).line 0).cond.state = .off
      ∧ (∀ d f k, (State.reset.line 0).io.receiver ≠ .inCharacter d f k)
      ∧ (let s := st (receiving ∘ inState .brk) id
        (s.line 0).completes 1 false true (completing (s.line 0) 1 false true) ∧ (s.line 0).cond.state = .brk)
      ∧ (let s := st (receiving ∘ inState .down) id
        let r := fun b => completing (s.line 0) b false false
        (∀ b, (s.line 0).completes b false false (r b)) ∧ (s.line 0).cond.state = .down ∧ (r 0).candidate = true ∧ (r 1).candidate = false)
      ∧ (let s := st (receiving ∘ classed ∘ sends fun x => { x with pause := true, state := .paused }) id
        let r := fun b => completing (s.line 0) b false true
        (∀ b, (s.line 0).completes b false true (r b))
          ∧ (s.line 0).cond.state = .run ∧ (s.line 0).io.inForce.flow = true ∧ (r 0x13).errored = false ∧ (r 0x13).value = 0x13
          ∧ (r 0x11).value = 0x11 ∧ (s.line 0).tx.state = .paused ∧ (State.reset.line 0).tx.state ≠ .paused
          ∧ ((r 0x7F).errored = false ∧ ¬ ((r 0x7F).value = 0x13 ∨ (r 0x7F).value = 0x11)
            ∧ (s.line 0).io.inForce.stripPresent = true ∧ (r 0x7F).value = (s.line 0).io.inForce.strip)
          ∧ ((s.line 0).cond.nullPending = true ∧ (r 0).value = 0 ∧ (r 0).value ≠ (s.line 0).io.inForce.strip)) :=
  ⟨rfl, nofun, ⟨completes_completing rfl _ _ _, rfl⟩, ⟨fun _ => completes_completing rfl _ _ _, by decide +kernel⟩,
    fun _ => completes_completing rfl _ _ _, by decide +kernel⟩

theorem test_witness_AnErroredCharacterIsABreakOrLoggedAlone :
    (let s := st (receiving ∘ logged) id;
      let r := fun b => completing (s.line 0) b false false
      (∀ b, (s.line 0).completes b false false (r b))
        ∧ (s.line 0).cond.state = .run ∧ (r 0).candidate = true
        ∧ ((r 1).errored = true ∧ (r 1).candidate = false ∧ (s.line 0).io.inForce.autoHunt = false ∧ (s.line 0).roomy 13))
      ∧ (let x := st (receiving ∘ fun x => { x with
            io := { x.io with inForce := { x.io.inForce with autoHunt := true, threshold := 1 } } }) id
        (x.line 0).completes 1 false false (completing (x.line 0) 1 false false)
          ∧ (x.line 0).io.inForce.autoHunt = true ∧ (completing (x.line 0) 1 false false).candidate = false
          ∧ (x.line 0).io.inForce.threshold.toNat ≤ (((x.line 0).cond.score ++ [true]).drop 0).count true) := by
  refine ⟨⟨fun _ => completes_completing rfl _ _ _, ?_⟩, completes_completing rfl _ _ _, ?_⟩ <;> (try unfold Line.roomy) <;> decide +kernel

theorem test_witness_AStoredCharacterOpensOrJoins :
    (let s := st (receiving ∘ logged) id;
      let r := completing (s.line 0) 0x41 false true
      (s.line 0).completes 0x41 false true r
        ∧ (s.line 0).stores r ∧ (s.line 0).io.inForce.autoHunt = false ∧ (∀ i : Fin 4, ((s.line 0).watch[i.val]).enabled = false)
        ∧ (s.line 0).roomy 0 ∧ (s.line 0).tx.queue = [] ∧ (s.line 0).cap.opened = none ∧ 13 ≤ (s.line 0).room
        ∧ 1 < min 120 ((s.line 0).room - 12))
      ∧ (let s := st (receiving ∘ fun x => { opened x with io := { x.io with inForce := { x.io.inForce with maxLength := 2 } } }) id
        let r := completing (s.line 0) 0x41 false true
        (s.line 0).completes 0x41 false true r ∧ (s.line 0).stores r
          ∧ (s.line 0).cap.opened = some { seq := 3, time := 0, body := [0x41], room := 212 } ∧ (s.line 0).roomy 0
          ∧ min (s.line 0).io.inForce.maxLength.toNat 212 ≤ [0x41, (0x41 : Byte)].length) := by
  refine ⟨⟨completes_completing rfl _ _ _, ?_⟩, completes_completing rfl _ _ _, ?_⟩ <;> unfold Line.roomy Line.stores <;> decide +kernel

theorem test_witness_AHuntMovesAndLocks :
    let s := st (receiving ∘ inState .hunt) id
    let r := fun b stop => completing (s.line 0) b false stop
    (∀ b stop, (s.line 0).completes b false stop (r b stop))
      ∧ (s.line 0).cond.state = .hunt ∧ (r 1 false).errored = true
      ∧ ((r 1 true).errored = false ∧ (s.line 0).io.inForce.huntPattern = [0x0D] ∧ (r 1 true).value ≠ 0x0D)
      ∧ ((r 0x0D true).errored = false ∧ (s.line 0).io.inForce.huntPattern = [(r 0x0D true).value])
      ∧ (let x := st (receiving ∘ fun x => { inState .hunt x with
            io := { x.io with inForce := { x.io.inForce with huntPattern := [1, 2] } }
            cond := { x.cond with state := .hunt, patternProgress := 1 } }) id
        (x.line 0).io.inForce.huntPattern = [1, 2] ∧ (x.line 0).cond.patternProgress = 1 ∧ (r 2 true).value = 2 ∧ (r 1 true).value ≠ 2) :=
  ⟨fun _ _ => completes_completing rfl _ _ _, by decide +kernel⟩

theorem test_witness_LevelReportsMoveTheCondition :
    ((State.reset.line 0).io.inForce.loopback = false ∧ (State.reset.line 0).cond.state = .run
        ∧ ((st (inState .off) id).line 0).cond.state = .off ∧ ((st (inState .brk) id).line 0).cond.state = .brk
        ∧ ((st (inState .down) id).line 0).cond.state = .down ∧ ((st (inState .hunt) id).line 0).cond.state = .hunt
        ∧ (State.reset.line 0).io.receiver = .between)
      ∧ (let s := st (looped ∘ sends fun x => { x with state := .breaking 10 newTimer }) id
        (s.line 0).io.inForce.loopback = true ∧ (s.line 0).cond.state ≠ .off ∧ Level.spacing ≠ (s.line 0).io.level
          ∧ (s.line 0).tx.state = .breaking 10 newTimer)
      ∧ (let s := st (looped ∘ fun x => { x with io := { x.io with level := .spacing, receiver := .waitMarking } }) id
        (s.line 0).io.inForce.loopback = true ∧ Level.marking ≠ (s.line 0).io.level ∧ (s.line 0).tx.state = .idle
          ∧ (s.line 0).io.receiver = .waitMarking)
      ∧ (((st (looped ∘ sends fun x => { x with state := .sending 1 }) id).line 0).tx.state = .sending 1
        ∧ ((st (looped ∘ sends fun x => { x with state := .sending 1 }) id).line 0).io.level ≠ .spacing)
      ∧ ((st looped id).line 0).io.level = .marking
      ∧ ((st receiving id).line 0).io.receiver = .inCharacter 48 Settings.atReset.format .carried
      ∧ ∀ d f k, (State.reset.line 0).io.receiver ≠ .inCharacter d f k :=
  ⟨by decide +kernel, by decide +kernel, by decide +kernel, by decide +kernel, by decide +kernel, rfl, nofun⟩

theorem test_witness_TimerExpiriesMoveTheLine :
    (timerDue ((st opened id).line 0).cap.idleTimer = true
        ∧ ((st opened id).line 0).cap.opened = some { seq := 3, time := 0, body := [0x41], room := 212 } ∧ ((st opened id).line 0).roomy 0)
      ∧ (let s := st (fun x => { x with cond := { x.cond with downTimer := some dueTimer } }) id
        timerDue (s.line 0).cond.downTimer = true ∧ (s.line 0).tx.state ≠ .paused)
      ∧ (let s := st (fun x => { logged x with cond := { x.cond with state := .down, upTimer := some dueTimer, huntOnUp := true } }) id
        timerDue (s.line 0).cond.upTimer = true ∧ (s.line 0).cond.huntOnUp = true ∧ (s.line 0).roomy 24)
      ∧ (let s := st (fun x => { x with cond := { x.cond with state := .down, upTimer := some dueTimer } }) id
        timerDue (s.line 0).cond.upTimer = true ∧ ¬ ((s.line 0).io.inForce.autoHunt = true ∨ (s.line 0).cond.huntOnUp = true)) := by
  unfold Line.roomy; decide +kernel

theorem test_witness_EnterHuntAndResetLine :
    ((st (attached [writer 1]) id).calls 0 0 ∧ ((st (attached [writer 1]) id).line 0).hasControl 0 = false)
      ∧ ((st (inState .off) id).calls 0 0 ∧ ((st (inState .off) id).line 0).hasControl 0 = true ∧ ((st (inState .off) id).line 0).cond.state = .off)
      ∧ ((st (inState .down) id).calls 0 0 ∧ ((st (inState .down) id).line 0).cond.state = .down ∧ ((st (inState .down) id).line 0).noHold)
      ∧ (State.reset.calls 0 0 ∧ (State.reset.line 0).hasControl 0 = true ∧ (State.reset.line 0).cond.state ≠ .off
        ∧ (State.reset.line 0).cond.state ≠ .down ∧ (State.reset.line 0).noHold)
      ∧ ((gapped id).line 0).tx.state = .gap 2 dueTimer := by
  unfold State.calls Port.ready Line.noHold; decide +kernel

theorem test_witness_EnterHuntAndResetLine_held :
    let held := fun (h : HoldState) (x : TxState) => st (logged ∘ fun y =>
      { y with hold := { state := h, timer := none, evalDue := false }, tx := { y.tx with state := x } }) id
    ((held .held .idle).calls 0 0 ∧ ((held .held .idle).line 0).hasControl 0 = true ∧ ((held .held .idle).line 0).cond.state ≠ .off
        ∧ ((held .held .idle).line 0).hold.state = .held ∧ ((held .held .idle).line 0).roomy 25
        ∧ ((held .held .idle).line 0).tx.state = .idle)
      ∧ ((held .spent .idle).line 0).hold.state = .spent ∧ ((held .held .paused).line 0).tx.state = .paused
      ∧ ((held .held (.gap 2 newTimer)).line 0).tx.state = .gap 2 newTimer ∧ ((held .held (.sending 1)).line 0).tx.state = .sending 1
      ∧ ((held .held (.breaking 10 newTimer)).line 0).tx.state = .breaking 10 newTimer
      ∧ ((held .held .closing).line 0).tx.state = .closing
      ∧ (let s := st (counting 3 ∘ opened) id
        s.calls 0 0 ∧ (s.line 0).hasControl 0 = true ∧ (s.line 0).cond.state ≠ .off ∧ (s.line 0).hold.state = .held
          ∧ (s.line 0).pool.pages ≠ [] ∧ 37 ≤ (s.line 0).room ∧ (s.line 0).pool.frozenDue = false ∧ (s.line 0).hold.evalDue = false
          ∧ (s.line 0).pool.freezePending = some 3 ∧ 3 ≤ 2 + ((s.line 0).closing .event 0).length) := by
  unfold State.calls Port.ready Line.roomy; decide +kernel

/-- A port at the last byte of a settings record. -/
def setting (x : Settings) (f : Line → Line) : State :=
  st f fun y => { y with phase := .writing (.setLine 0), transferLength := 34, buffer := x.encode.take 33 }

theorem test_witness_SetLineReplacesTheSettings :
    let old := Settings.atReset
    let off := { Settings.atReset with enable := false }
    (State.reset.calls 0 0 ∧ (State.reset.line 0).hasControl 0 = true ∧ ((st (attached [writer 1]) id).line 0).hasControl 0 = false)
      ∧ (let s := setting old logged
        (s.port 0).resetAsserted = false ∧ (s.port 0).phase = .writing (.setLine 0) ∧ (s.port 0).buffer.length + 1 = (s.port 0).transferLength
          ∧ settingsOf ((s.port 0).buffer ++ [0x13]) = some old ∧ (s.line 0).hasControl 0 = true ∧ (s.line 0).cond.state ≠ .off
          ∧ (s.line 0).hold.state = .none ∧ (s.line 0).tx.state ≠ .paused ∧ (s.line 0).roomy 0
          ∧ settingsOf ((s.port 0).buffer ++ [0xFF]) = none)
      ∧ ((setting old (inState .hunt)).line 0).cond.state = .hunt
      ∧ ((setting old opened).line 0).cap.opened = some { seq := 3, time := 0, body := [0x41], room := 212 }
      ∧ settingsOf (((setting { old with lease := 3600, divisor := 12, maxLength := 1 } id).port 0).buffer ++ [0x13])
        = some { old with lease := 3600, divisor := 12, maxLength := 1 }
      ∧ settingsOf (((setting off id).port 0).buffer ++ [0x13]) = some off
      ∧ (((setting old (inState .off ∘ logged)).line 0).cond.state = .off ∧ ((setting old (inState .off ∘ logged)).line 0).roomy 27)
      ∧ ((setting off (sends fun x => { x with waiting := some (.send 1 [2]) })).line 0).tx.waiting = some (.send 1 [2]) := by
  unfold State.calls Port.ready Line.roomy; decide +kernel

/-- A line with the flow option on, in a state of the hold and of the transmitter. -/
def flowing (h : HoldState) (tx : TxState) (queue : List Entry) (x : Line) : Line :=
  let on := { Settings.atReset with flow := true }
  { logged x with
    io := { x.io with settings := on, inForce := on }
    hold := { state := h, timer := some dueTimer, evalDue := false }
    tx := { x.tx with state := tx, queue := queue } }

theorem test_witness_SetLineReplacesTheSettings_flow :
    let old := Settings.atReset
    (let s := setting old (flowing .held .idle []);
      s.endsSetLine 0 0 0x13 old ∧ (s.line 0).io.settings.flow = true ∧ old.flow = false ∧ (s.line 0).cond.state ≠ .off
        ∧ (s.line 0).hold.state = .held ∧ (s.line 0).roomy 27 ∧ (s.line 0).tx.state = .idle
        ∧ (s.line 0).io.inForce.loopback = old.loopback ∧ (s.line 0).io.inForce.inversion = old.inversion)
      ∧ (let off := { old with enable := false };
        (setting off (flowing .held .idle [])).endsSetLine 0 0 0x13 off ∧ ((setting off (flowing .held .idle [])).line 0).roomy 24)
      ∧ (setting { old with divisor := 12 } (flowing .held .idle [])).endsSetLine 0 0 0x13 { old with divisor := 12 }
      ∧ (setting old (flowing .held (.sending 1) [])).endsSetLine 0 0 0x13 old
      ∧ ((setting old (flowing .spent (.sending 1) [])).line 0).hold.state = .spent
      ∧ ((setting old (flowing .none .paused [.marker 10 0])).line 0).tx.queue = .marker 10 0 :: []
      ∧ ((setting old (flowing .none .paused [.character 1])).line 0).tx.state = .paused := by
  unfold State.endsSetLine Line.roomy; decide +kernel

theorem test_witness_SetLineReplacesTheSettings_level :
    let low := { Settings.atReset with inversion := true }
    let loop := { Settings.atReset with loopback := true }
    let in' := fun (new : Settings) (c : CondState) => setting new (inState c ∘ logged)
    ((in' low .run).endsSetLine 0 0 0x13 low ∧ ((in' low .run).line 0).hold.state = .none ∧ ((in' low .run).line 0).tx.state ≠ .paused
        ∧ ((in' low .run).line 0).io.inForce.inversion ≠ low.inversion ∧ ((in' low .run).line 0).io.pinHigh = low.inversion
        ∧ ((in' low .run).line 0).cond.downTimer = none)
      ∧ ((in' loop .brk).endsSetLine 0 0 0x13 loop ∧ ((in' loop .brk).line 0).cond.state = .brk ∧ ((in' loop .brk).line 0).roomy 15
        ∧ ((in' loop .brk).line 0).cap.opened = none ∧ loop.flow = false)
      ∧ ((in' loop .down).endsSetLine 0 0 0x13 loop ∧ ((in' loop .down).line 0).cond.upTimer = none)
      ∧ ((in' low .off).endsSetLine 0 0 0x13 low ∧ ((in' low .off).line 0).cond.state = .off)
      ∧ ((in' loop .off).endsSetLine 0 0 0x13 loop ∧ ((in' loop .off).line 0).hold.state = .none) := by
  unfold State.endsSetLine Line.roomy; decide +kernel

theorem test_witness_SetLineReplacesTheSettings_timers :
    let leased := { Settings.atReset with lease := 1 }
    let new := { Settings.atReset with lease := 2, downTime := 60000, upTime := 10, idleGap := 1000, flow := true }
    let s := setting new (fun x => { opened x with io := { x.io with settings := leased, inForce := leased } })
    s.endsSetLine 0 0 0x13 new ∧ leased.lease ≠ 0 ∧ new.lease ≠ 0 ∧ (s.line 0).cond.state = .run ∧ (s.line 0).roomy 0
      ∧ (s.line 0).cap.opened = some { seq := 3, time := 0, body := [0x41], room := 212 } ∧ 1 < new.maxLength.toNat
      ∧ (setting { new with enable := false } (inState .off)).endsSetLine 0 0 0x13 { new with enable := false } := by
  unfold State.endsSetLine Line.roomy; decide +kernel

theorem test_witness_TheSettingsRecordIsReadBack :
    Settings.atReset.inRange = true ∧ settingsOf Settings.atReset.encode = some Settings.atReset
      ∧ ({ Settings.atReset with
          divisor := 65535, idleGap := 1000, maxLength := 236, upTime := 10, threshold := 16, huntList := [1, 2, 3, 4, 5, 6]
          huntPattern := [1, 2], lease := 3600, holdTimeout := 60000 } : Settings).inRange = true
      ∧ formatOf 15 = none ∧ formatOf 16 = none ∧ (formatOf 14).isSome = true := by decide +kernel

theorem test_witness_SetWatchReplacesTheSlot :
    ((st (attached [writer 1]) id).calls 0 0 ∧ ((st (attached [writer 1]) id).line 0).hasControl 0 = false)
      ∧ ((st id fun x => { x with option := 4 }).calls 0 0 ∧ (State.reset.line 0).hasControl 0 = true
        ∧ 3 < ((st id fun x => { x with option := 4 }).port 0).option.toNat)
      ∧ ((st id fun x => { x with option := 3 }).port 0).option.toNat = (3 : Fin 4).val
      ∧ (let s := st id fun x => { x with phase := .writing (.setWatch 0 3), transferLength := 32, buffer := [1, 12, 16, 5] ++ List.replicate 27 7 }
        (s.port 0).resetAsserted = false ∧ (s.port 0).phase = .writing (.setWatch 0 3) ∧ (s.port 0).buffer.length + 1 = (s.port 0).transferLength
          ∧ (watchOf ((s.port 0).buffer ++ [7])).isSome = true ∧ (s.line 0).hasControl 0 = true
          ∧ ((s.port 0).buffer ++ [7]).length = 32)
      ∧ watchOf (1 :: List.replicate 31 0) = none ∧ watchOf (64 :: List.replicate 31 1) = none
      ∧ watchOf ([0, 13] ++ List.replicate 30 0) = none ∧ watchOf ([0, 0, 17] ++ List.replicate 29 0) = none
      ∧ watchOf (8 :: List.replicate 31 0) = none := by
  unfold State.calls Port.ready; decide +kernel

/-- A slot that is on, with a pattern and a response. -/
def slot : WatchSlot := { WatchSlot.atReset with enabled := true, pattern := [1, 1, 2], response := [3], respond := true, progress := 2 }

theorem test_witness_AWatchSlotMatchesAndResponds :
    (slot.enabled = true ∧ slot.progress < slot.pattern.length ∧ slot.pattern.take slot.progress <:+ [0, 1, 1]
        ∧ ∀ j : Fin 4, slot.progress < j.val → ¬ slot.pattern.take j.val <:+ [0, 1, 1])
      ∧ ((slot.feed 2).2 = true ∧ (slot.feed 1).1.progress = 2) ∧ WatchSlot.atReset.enabled = false
      ∧ (let s := st (attached [writer 0] ∘ fun x => { x with watch := x.watch.set 0 slot }) id
        (s.line 0).writer.isSome = true ∧ ((s.line 0).watch[0]).always = false)
      ∧ (let s := st (fun x => { logged x with watch := x.watch.set 0 slot }) id
        (s.line 0).writer.isSome = false ∧ ((s.line 0).watch[0]).response.length ≤ 64 - (s.line 0).tx.queue.length
          ∧ ((s.line 0).watch[0]).response ≠ [] ∧ (s.line 0).io.inForce.logSent = true ∧ 1 ≤ (s.line 0).io.inForce.maxLength.toNat
          ∧ (s.line 0).roomy 26)
      ∧ 64 - ((queued 64 id id).line 0).tx.queue.length < 1 := by
  unfold Line.roomy; decide +kernel

/-- A slot with the pattern 42h and actions. -/
def acting (close attention freeze : Bool) (freezeAfter : Byte) : WatchSlot :=
  { WatchSlot.atReset with
    enabled := true, pattern := [0x42], close := close, attention := attention, freeze := freeze, freezeAfter := freezeAfter }

/-- A line with an open record and a character in progress, slot 1 of which matches 42h, watched by P0. -/
def matching (w : WatchSlot) : State :=
  st (receiving ∘ attached [watcher 0 .none] ∘ opened ∘ fun x => { x with watch := x.watch.set 1 w }) id

theorem test_witness_AWatchSlotMatchesAndResponds_actions :
    (let s := matching (acting true true true 0);
      let r := completing (s.line 0) 0x42 false true
      (s.line 0).completes 0x42 false true r
        ∧ ((s.line 0).stores r ∧ (s.line 0).io.inForce.autoHunt = false
          ∧ (s.line 0).cap.opened = some { seq := 3, time := 0, body := [0x41], room := 212 } ∧ (s.line 0).roomy 13
          ∧ (s.line 0).pool.frozen = false ∧ (s.line 0).noHold ∧ (s.line 0).tx.queue = []
          ∧ (∀ j : Fin 4, (((s.line 0).watch[j.val]).feed r.value).2 = decide (j = 1))
          ∧ ((s.line 0).watch[1]).respond = false ∧ ((s.line 0).watch[1]).close = true ∧ ((s.line 0).watch[1]).freeze = true
          ∧ ((s.line 0).watch[1]).freezeAfter = 0 ∧ ((s.line 0).watch[1]).attention = true
          ∧ (s.line 0).attachment 0 = some (watcher 0 .none) ∧ (watcher 0 .none).watchEnable = true
          ∧ (placeCharacter ((s.modIo 0 fun x => { x with receiver := .between }).modCond 0 fun x => { x with nullPending := false })
              0 r.value).2 = true))
      ∧ (acting true false false 0).freeze = false ∧ (acting true false true 1).freezeAfter ≠ 0
      ∧ (let s := matching (acting true true true 0)
        ([1] : List (Fin 4)).Pairwise (· < ·) ∧ ((s.line 0).watch[1]).close = true ∧ ((s.line 0).watch[0]).close = false
          ∧ ((s.line 0).watch[0]).attention = false ∧ (s.port 0).hasCause .watch 0 = false
          ∧ (s.line 0).attachment 1 = none) := by
  refine ⟨⟨completes_completing rfl _ _ _, ?_⟩, ?_⟩ <;> (try unfold Line.roomy Line.stores Line.noHold) <;> decide +kernel

/-- A line that may take no free page: it holds one page, its reserve and limit. -/
def full (x : Line) : Line := { logged x with pool := { (logged x).pool with reserve := 1, limit := 1 } }

theorem test_witness_APageRequestIsAnswered :
    (let s := State.reset;
      (s.line 0).held < (s.line 0).pool.limit ∧ (s.line 0).held < (s.line 0).pool.reserve ∧ s.freePages = 0 :: (List.range 2048).drop 1)
      ∧ (let s := st full id
        ¬ (s.line 0).held < (s.line 0).pool.limit ∧ (s.line 0).pool.frozen = false ∧ (s.line 0).pool.pages = pageOf 0 [evt 1, evt 2] :: [])
      ∧ ((st (fun x => { full x with pool := { (full x).pool with frozen := true } }) id).line 0).pool.frozen = true
      ∧ (pageOf 1 [evt 3]).occupied ≠ 0 ∧ QuotaBounds busy
      ∧ (let s := st (fun x => { attached [watcher 0 .none] x with cap := { x.cap with oldest := 4, next := 4 } }) id
        (s.line 0).attachment 0 = some (watcher 0 .none) ∧ (watcher 0 .none).overtaken = false
          ∧ seqBelow 1 ({ oldest := 4, left := 3 } : OldestReport).oldest = true) := by
  unfold QuotaBounds; decide +kernel

/-- A line with a character in progress whose page has no room, on a number of pages of a limit. -/
def crowded (limit : Nat) (frozen : Bool) : State :=
  st (receiving ∘ attached [watcher 0 .none] ∘ fun x =>
    { logged x with
      pool := { (logged x).pool with pages := [{ pageOf 0 [evt 1, evt 2] with occupied := 240 }], reserve := 1, limit := limit, frozen := frozen } })
    id

theorem test_witness_APageRequestIsAnswered_for_a_character :
    (let s := crowded 2 false;
      let r := completing (s.line 0) 0x41 false true
      (s.line 0).completes 0x41 false true r
        ∧ ((s.line 0).stores r ∧ (s.line 0).io.inForce.autoHunt = false ∧ 2 ≤ (s.line 0).io.inForce.maxLength.toNat
          ∧ (s.line 0).cap.opened = none ∧ (s.line 0).tx.queue = [] ∧ MarksClear s
          ∧ (∀ i : Fin 4, ((s.line 0).watch[i.val]).enabled = false) ∧ (s.line 0).room < 13 ∧ s.mayTake 0
          ∧ s.freePages = 0 :: (List.range 2048).drop 1 ∧ (s.line 0).noHold))
      ∧ (let s := crowded 1 false
        ¬ s.mayTake 0 ∧ (s.line 0).pool.frozen = false ∧ (s.line 0).room < 13 ∧ (s.line 0).noHold
          ∧ (s.line 0).pool.pages = { pageOf 0 [evt 1, evt 2] with occupied := 240 } :: [])
      ∧ (let s := crowded 1 true
        ¬ s.mayTake 0 ∧ (s.line 0).pool.frozen = true ∧ s.pageless 0 12 ∧ s.pageless 0 13 ∧ MarksClear s
          ∧ (completing (s.line 0) 1 false false).errored = true ∧ (completing (s.line 0) 1 false false).candidate = false)
      ∧ (let s := (crowded 1 true).modCond 0 fun x => { x with downTimer := some dueTimer }
        timerDue (s.line 0).cond.downTimer = true ∧ (s.line 0).tx.state ≠ .paused ∧ s.pageless 0 12) := by
  refine ⟨⟨completes_completing rfl _ _ _, ?_⟩, ?_⟩ <;> unfold State.mayTake <;>
    (try unfold Line.stores) <;> (try unfold MarksClear) <;> (try unfold Line.noHold) <;> (try unfold State.pageless State.mayTake) <;> decide +kernel

/-- SET QUOTA with a reserve and a limit. -/
def quotas (f : Line → Line) (reserve : Half) (limit : Word) : State := st f fun x => { x with count := reserve, value := limit }

theorem test_witness_SetQuotaChecksAndReleases :
    ((quotas (attached [writer 1]) 1 1).calls 0 0 ∧ ((quotas (attached [writer 1]) 1 1).line 0).hasControl 0 = false)
      ∧ ((quotas id 0 1).calls 0 0 ∧ ((quotas id 0 1).line 0).hasControl 0 = true ∧ ¬ 1 ≤ ((quotas id 0 1).port 0).count.toNat)
      ∧ ¬ ((quotas id 129 2048).port 0).count.toNat ≤ 128 ∧ ¬ ((quotas id 1 2049).port 0).value.toNat ≤ 2048
      ∧ (let s := quotas (fun x => { logged x with pool := { (logged x).pool with pages := [pageOf 0 [evt 1], pageOf 1 [evt 2]], frozen := true } }) 1 1
        (s.line 0).pool.frozen = true ∧ ¬ (s.line 0).held ≤ (s.port 0).value.toNat)
      ∧ (let s := quotas (fun x => { logged x with pool := { (logged x).pool with pages := [pageOf 0 [evt 1], pageOf 1 [evt 2]] } }) 1 1
        s.calls 0 0 ∧ (s.port 0).value.toNat < (s.line 0).held ∧ (s.line 0).noHold ∧ MarksClear s
          ∧ (s.line 0).pool.pages.drop ((s.line 0).held - 1) = pageOf 1 [evt 2] :: [] ∧ (pageOf 1 [evt 2]).occupied ≠ 0)
      ∧ (let s := quotas id 128 2048
        1 ≤ (s.port 0).count.toNat ∧ (s.port 0).count.toNat ≤ 128 ∧ (s.port 0).value.toNat ≤ 2048
          ∧ ((List.finRange 16).map fun k => if k = 0 then 128 else (s.line k).pool.reserve).sum ≤ 2048 ∧ (s.line 0).pool.frozen = false)
      ∧ (let s := (quotas id 128 2048 : State)
        let t : State := { s with lines := s.lines.map fun x => { x with pool := { x.pool with reserve := 128 } } }
        let u : State := { t with freePages := [] }
        2048 < ((List.finRange 16).map fun k => if k = 0 then 129 else (t.line k).pool.reserve).sum
          ∧ u.freePages.length + ((u.line 0).held - 2048)
            < ((List.finRange 16).map fun k => if k = 0 then 128 - min (u.line 0).held 2048 else (u.line k).pool.reserve - (u.line k).held).sum) := by
  unfold State.calls Port.ready Line.noHold MarksClear; decide +kernel

/-- A line with a log, P1 free to clear it, in a state that keeps the bounds. -/
def clearing : State := { busy with lines := (busy.modAtt 0 fun x => { x with list := [] }).lines }

theorem test_witness_ClearHistoryEmptiesTheLog :
    (State.reset.calls 0 0 ∧ ((st (attached [writer 1]) id).line 0).hasControl 0 = false)
      ∧ ((st (fun x => { x with pool := { x.pool with frozen := true } }) id).line 0).pool.frozen = true
      ∧ (clearing.calls 1 0 ∧ (clearing.line 0).hasControl 1 = true ∧ (clearing.line 0).pool.frozen = false ∧ QuotaBounds clearing
        ∧ MarksClear clearing ∧ (clearing.line 0).pool.freezePending = none ∧ (clearing.line 0).noHold) := by
  unfold State.calls Port.ready Line.noHold MarksClear QuotaBounds; decide +kernel

theorem clearing_same : ∀ l, (clearing.line l).cap = (busy.line l).cap ∧ (clearing.line l).pool = (busy.line l).pool := by
  decide +kernel

theorem test_witness_ClearHistoryEmptiesTheLog_log : LogKept clearing := by
  intro l
  have h := test_busy_logs l
  have e := clearing_same l
  unfold Line.consecutive Line.logSeqs Line.closed at h ⊢
  rw [e.1, e.2]
  exact h

theorem test_witness_FreezeAndThaw :
    (State.reset.calls 0 0 ∧ (State.reset.line 0).hasControl 0 = true ∧ (State.reset.line 0).pool.frozen = false
        ∧ (State.reset.line 0).pool.freezePending = none ∧ (State.reset.line 0).hold.state = .none ∧ (State.reset.line 0).noHold)
      ∧ (((st (attached [writer 1]) id).line 0).hasControl 0 = false ∧ (st (attached [writer 1]) id).calls 0 0)
      ∧ (let s := st (fun x => { logged x with pool := { (logged x).pool with frozen := true } }) id
        s.calls 0 0 ∧ (s.line 0).pool.frozen = true ∧ (s.line 0).noHold ∧ (s.line 0).roomy 16)
      ∧ (let s := st (fun x => { logged x with pool := { (logged x).pool with freezePending := some 1 } }) id
        (s.line 0).pool.freezePending ≠ none ∧ (s.line 0).pool.freezePending = some 1)
      ∧ (let x := { (State.reset.line 0).pool with freezePending := some 2 }
        x.freezePending = some (0 + 2) ∧ x.freezePending = some (1 + 1) ∧ x.frozen = false) := by
  unfold State.calls Port.ready Line.noHold Line.roomy; decide +kernel

/-- A line whose lossless reader stands on its oldest page, where no free page may be taken. -/
def risky (h : HoldState) (x : Line) : Line :=
  { full x with
    io := { x.io with inForce := { x.io.inForce with flow := true } }
    att := { x.att with list := [{ watcher 0 .none with lossless := true }] }
    hold := { state := h, timer := some dueTimer, evalDue := false } }

theorem test_witness_TheHoldEvaluation :
    (let s := st (risky .none) id;
      (s.line 0).hold.state = .none ∧ (s.line 0).io.inForce.flow = true ∧ (s.line 0).pool.frozen = false
        ∧ ({ watcher 0 .none with lossless := true } : Attachment) ∈ (s.line 0).att.list ∧ (s.line 0).onOldestPage 1 = true
        ∧ ¬ (s.line 0).held < (s.line 0).pool.limit)
      ∧ ((st (risky .held) id).line 0).hold.state = .held ∧ ((st (risky .spent) id).line 0).hold.state = .spent
      ∧ ((State.reset.line 0).hold.state = .none ∧ (State.reset.line 0).io.inForce.flow = false ∧ (State.reset.line 0).pool.pages = [])
      ∧ ((st (fun x => { x with hold := { state := .held, timer := none, evalDue := false } }) id).line 0).hold.state = .held
      ∧ (State.reset.line 0).tx.state = .idle ∧ ((gapped id).line 0).tx.state ≠ .idle ∧ ((st (inState .off) id).line 0).cond.state = .off
      ∧ (timerDue ((st (risky .held) id).line 0).hold.timer = true ∧ ((st (risky .held) id).line 0).roomy 12)
      ∧ ((st (fun x => { x with pool := { x.pool with pages := [pageOf 0 [evt 1], pageOf 1 [evt 2]] } }) id).line 0).pool.pages
        = pageOf 0 [evt 1] :: pageOf 1 [evt 2] :: [] := by
  unfold Line.roomy; decide +kernel

/-- A line whose lossless reader, P0 in a phase, stands on its oldest page, with room, P0 with a COUNT and a VALUE. -/
def reading (ph : Phase) : State :=
  { st (risky .none) fun x =>
      { x with phase := ph, count := 1, value := 1, transferLength := if ph = .idle then 0 else 12, readPoint := if ph = .idle then 0 else 11 } with
    freePages := (List.range 2048).drop 1 }

theorem test_reading_marks : MarksClear (reading .idle) ∧ ((reading .idle).line 0).shortLog ∧ ((reading .idle).line 0).roomy 26
    ∧ ((reading .idle).line 0).pool.pages ≠ [] ∧ 28 ≤ ((reading .idle).line 0).room := by
  unfold MarksClear Line.shortLog Line.roomy; decide +kernel

theorem test_reading_log (ph : Phase) : LogKept (reading ph) := by
  intro l
  have h : ∀ l, (reading .idle).line l = (reading ph).line l := fun _ => rfl
  have k : ∀ l, ((reading .idle).line l).cap = (clearing.line l).cap ∧ ((reading .idle).line l).pool.pages = (clearing.line l).pool.pages := by
    decide +kernel
  have z := test_witness_ClearHistoryEmptiesTheLog_log l
  unfold Line.consecutive Line.logSeqs Line.closed at z ⊢
  rw [← h l, (k l).1, (k l).2]
  exact z

theorem test_witness_TheHoldEvaluation_asked :
    (let s := reading .idle;
      s.calls 0 0 ∧ (s.line 0).hasControl 0 = true ∧ quotaError s 0 (s.port 0).count.toNat (s.port 0).value.toNat = none
        ∧ (s.line 0).attachment 0 ≠ none ∧ (s.port 0).resetAsserted = false ∧ (s.line 0).pool.frozen = false
        ∧ ∀ k, k ≠ 0 → (s.line k).attachment 0 = none)
      ∧ (let a := attachArgs 8 0
        a.bad = false ∧ (a.lossless = true → ((reading .idle).line 0).io.inForce.flow = true) ∧ a.writer = false)
      ∧ roleRefused (reading .idle) 0 0 false = none
      ∧ (let s := reading (.filling (.readNew 0 3 0 0 0))
        (s.port 0).phase = .filling (.readNew 0 3 0 0 0)
          ∧ (s.line 0).attachment 0 = some { watcher 0 .none with lossless := true } ∧ (s.port 0).resetAsserted = false)
      ∧ (let s := reading (.reading (.readNew 0 3 0 0 0) [⟨12, 2, none⟩])
        (s.port 0).phase = .reading (.readNew 0 3 0 0 0) [⟨12, 2, none⟩] ∧ (s.port 0).readPoint + 1 = (s.port 0).transferLength)
      ∧ (let s := (reading .idle).modPool 0 fun x => { x with frozen := true, freezePending := none }
        (s.line 0).pool.frozen = true)
      ∧ (let s := crowded 2 false
        (s.line 0).pool.freezePending = none ∧ (s.line 0).room < 13 ∧ (requestPage s 0).2 = true) := by
  unfold State.calls Port.ready; decide +kernel

/-- The lossless ends of a READ NEW: its delivery and its ABORT, with room for the evaluation's record. -/
theorem test_witness_LosslessReadsEnd :
    let s := reading (.reading (.readNew 0 3 0 0 0) [⟨12, 2, none⟩])
    (s.port 0).resetAsserted = false ∧ (s.port 0).readPoint + 1 = (s.port 0).transferLength
      ∧ (⟨12, 2, none⟩ : Item).stop = (s.port 0).transferLength ∧ (s.line 0).attachment 0 = some { watcher 0 .none with lossless := true }
      ∧ (s.line 0).roomy 12 ∧ seqDist (s.line 0).cap.oldest 1 ≤ seqDist (s.line 0).cap.oldest (s.line 0).cap.next
      ∧ ¬ seqDist (s.line 0).cap.oldest 0xFFFFFFFF ≤ seqDist (s.line 0).cap.oldest (s.line 0).cap.next := by
  unfold Line.roomy; decide +kernel

theorem test_witness_EveryStepKeepsTheTables :
    SettingsOk busy ∧ QueueBound busy ∧ AttachmentTable busy ∧ CauseOrder busy ∧ ∃ t, step busy = .next t :=
  ⟨test_busy_tables.1, test_busy_tables.2.1, test_busy_tables.2.2.1, test_busy_tables.2.2.2.1, test_busy_steps⟩

/-- The state with a log, a writer and a waiting SEND, its ports with the causes that stand. -/
def standing : State :=
  (busy.modPort 0 fun x => { x with causes := [⟨.condition, 0, 0⟩] }).modPort 1 fun x =>
    { x with causes := [⟨.condition, 0, 0⟩, ⟨.data, 0, 0⟩] }

theorem test_standing_causes : CausesStand standing := by
  have h : ∀ (l : LineId) (p : PortId), l ≠ 0 ∨ p = 2 →
      (standing.line l).attachment p = none ∧ ∀ c ∈ (standing.port p).causes, c.line ≠ l := by decide +kernel
  have d : ∀ l : LineId, (standing.line l).tx.drainMark = none := by decide +kernel
  intro l
  refine ⟨fun p => ?_, fun p hp => by rw [d l] at hp; cases hp⟩
  by_cases hl : l ≠ 0 ∨ p = 2
  · unfold Line.causesAgree
    rw [(h l p hl).1]
    exact (h l p hl).2
  · rw [not_or, not_not] at hl
    obtain ⟨rfl, hp⟩ := hl
    have a0 : (standing.line 0).attachment 0 = some (writer 0) := by decide +kernel
    have a1 : (standing.line 0).attachment 1 = some (watcher 1 (.level 1)) := by decide +kernel
    have hp' : p = 0 ∨ p = 1 := by revert hp; revert p; decide
    rcases hp' with rfl | rfl <;> unfold Line.causesAgree
    · rw [a0]
      simp only [writer, watcher]
      decide +kernel
    · rw [a1]
      simp only [watcher]
      decide +kernel

theorem test_witness_EveryStepKeepsTheTables_causes :
    (AttachmentTable standing ∧ WaitingAgrees standing ∧ CausesStand standing ∧ ∃ t, step standing = .next t)
      ∧ ((standing.line 0).attachment 1 = some (watcher 1 (.level 1)) ∧ (watcher 1 (.level 1)).mode = .level 1)
      ∧ ((standing.line 0).attachment 0 = some (writer 0) ∧ (writer 0).mode = .none)
      ∧ (let s := st (attached [watcher 0 (.first true), watcher 1 (.first false)] ∘ logged) id
        (s.line 0).attachment 0 = some (watcher 0 (.first true)) ∧ 0 < (s.line 0).unread (watcher 0 (.first true))
          ∧ (s.line 0).attachment 1 = some (watcher 1 (.first false)))
      ∧ ((st (attached [watcher 0 (.first true)]) id).line 0).unread (watcher 0 (.first true)) = 0 :=
  ⟨⟨by unfold AttachmentTable; decide +kernel, agrees_waiting (by decide +kernel), test_standing_causes, ⟨_, rfl⟩⟩, by decide +kernel,
    by decide +kernel, by decide +kernel, by decide +kernel⟩

theorem test_witness_EveryStepKeepsThePages :
    SettingsOk busy ∧ PagePartition busy ∧ QuotaBounds busy ∧ ∃ t, step busy = .next t :=
  ⟨test_busy_tables.1, test_busy_pages, test_busy_quotas, test_busy_steps⟩

theorem test_witness_EveryStepKeepsTheLogs : SettingsOk busy ∧ LogKept busy ∧ ∃ t, step busy = .next t :=
  ⟨test_busy_tables.1, test_busy_logs, test_busy_steps⟩

theorem test_witness_EveryStepKeepsTheWaiting : AttachmentTable busy ∧ WaitingAgrees busy ∧ ∃ t, step busy = .next t :=
  ⟨test_busy_tables.2.2.1, test_busy_waiting, test_busy_steps⟩

theorem test_witness_EveryStepClearsTheMarks : MarksClear busy ∧ ∃ t, step busy = .next t :=
  ⟨test_busy_tables.2.2.2.2, test_busy_steps⟩

end Sys2Proof.Tests
end

section
/-! Proofs: the taking of a command by a ready port, what COMPLETION and ABORT then do to it, and COUNT NEW. -/

namespace Sys2Proof.Machine

open Host

/-! ## A ready port takes a command (R173, R175) -/

/-- A ready port takes a command: its rule acts on the state in which the port shows BUSY (R175). -/
theorem takeCommand_of_ready {s : State} {p : PortId} (hready : (s.port p).ready) (dataIn : Bool) (act : State → State) :
    takeCommand s p dataIn act = act (beginCommand s p dataIn) := by
  obtain ⟨hreset, hidle⟩ := hready
  simp [takeCommand, hreset, hidle]

/-- Results prepared by a command that changed nothing else are an answer. -/
theorem prepare_beginCommand (s : State) (p : PortId) (dataIn : Bool) (r : Results) :
    prepare (beginCommand s p dataIn) p r = s.answer p dataIn r :=
  State.modPort_modPort s p _ _

theorem lineOf_eq_none {b : Byte} (h : 16 ≤ b.toNat) : lineOf b = none := dif_neg (Nat.not_lt.mpr h)

/-- A line command of a ready port whose LINE names no line is answered with BAD LINE, whatever its rule. -/
theorem lineCommand_badLine {s : State} {p : PortId} (hready : (s.port p).ready) (hline : 16 ≤ (s.port p).line.toNat)
    (dataIn : Bool) (act : State → LineId → State) :
    takeCommand s p dataIn (fun t => withLine t p (act t)) = s.answer p dataIn { code := .badLine } := by
  have hnone : lineOf ((beginCommand s p dataIn).port p).line = none := by
    rw [beginCommand_portLine, lineOf_eq_none hline]
  rw [takeCommand_of_ready hready, withLine, hnone]
  exact prepare_beginCommand s p dataIn _

/-- A line command of a ready port acts on the line that LINE names. -/
theorem lineCommand_of_calls {s : State} {p : PortId} {l : LineId} (hcall : s.calls p l) (dataIn : Bool)
    (act : State → LineId → State) :
    takeCommand s p dataIn (fun t => withLine t p (act t)) = act (beginCommand s p dataIn) l := by
  obtain ⟨hready, hline⟩ := hcall
  rw [takeCommand_of_ready hready, withLine, beginCommand_portLine, hline]

/-! ## COMPLETION and ABORT of an answered command (R178, R179) -/

@[simp] theorem State.port_answer_self (s : State) (p : PortId) (dataIn : Bool) (r : Results) :
    (s.answer p dataIn r).port p = (s.port p).taken dataIn r := State.port_modPort_self s p _

@[simp] theorem State.lines_answer (s : State) (p : PortId) (dataIn : Bool) (r : Results) :
    (s.answer p dataIn r).lines = s.lines := rfl

@[simp] theorem Port.phase_taken (dataIn : Bool) (r : Results) (x : Port) : (x.taken dataIn r).phase = .completing r := rfl

@[simp] theorem Port.resetAsserted_taken (dataIn : Bool) (r : Results) (x : Port) :
    (x.taken dataIn r).resetAsserted = x.resetAsserted := rfl

/-- COMPLETION gives the port of an answered command its results. -/
theorem exec_completion_answer (s : State) (p : PortId) (dataIn : Bool) (r : Results) :
    exec (.completion p) (s.answer p dataIn r) = .next (completeCommand (s.answer p dataIn r) p r) := by
  change execCompletion p _ = _
  rw [execCompletion, State.port_answer_self, Port.phase_taken]

/-- An answered command that ends by ABORT completes with ABORTED and names no result (R179). -/
theorem abortCommand_answer (s : State) (p : PortId) (dataIn : Bool) (r : Results) :
    abortCommand (s.answer p dataIn r) p = completeCommand (s.answer p dataIn r) p { code := .aborted } := by
  rw [abortCommand, State.port_answer_self, Port.phase_taken]

/-- ABORT of an answered command that still shows BUSY. -/
theorem exec_abort_answer {s : State} {p : PortId} (hreset : (s.port p).resetAsserted = false) (dataIn : Bool) (r : Results) :
    exec (.abort p) (s.answer p dataIn r)
      = .next ((completeCommand (s.answer p dataIn r) p { code := .aborted }).modPort p
          fun x => { x with collision := false, pointer := 1 }) := by
  change execAbort p _ = _
  rw [execAbort, State.port_answer_self, Port.resetAsserted_taken, hreset, abortCommand_answer]
  rfl

/-- The port of an answered command once it has completed, with its results or with ABORTED. -/
@[simp] theorem port_completeCommand_answer (s : State) (p : PortId) (dataIn : Bool) (r r' : Results) :
    (completeCommand (s.answer p dataIn r) p r').port p = ((s.port p).taken dataIn r).complete r' := by
  simp [completeCommand]

@[simp] theorem lines_completeCommand (s : State) (p : PortId) (r : Results) : (completeCommand s p r).lines = s.lines := rfl

/-! ## COUNT NEW (R128) -/

/-- The records that COUNT NEW counts for a port: those its attachment has not read, every closed record without one. -/
def Line.recordsCounted (ln : Line) (p : PortId) : List LogRecord :=
  match ln.attachment p with
  | none => ln.closed
  | some a => ln.unreadRecords a

/-- What COUNT NEW reports to a port of a line; a delivered record has a header of 12 bytes before its body (R118). -/
def Line.countNewResults (ln : Line) (p : PortId) : Results where
  count := some (BitVec.ofNat 16 (min (ln.recordsCounted p).length 65535))
  value := some (BitVec.ofNat 32 ((ln.recordsCounted p).map fun r => 12 + r.body.length).sum)
  position := some ln.cap.oldest

theorem exec_countNew_badLine {s : State} {p : PortId} (hready : (s.port p).ready) (hline : 16 ≤ (s.port p).line.toNat) :
    exec (.countNew p) s = .next (s.answer p false { code := .badLine }) :=
  congrArg Outcome.next (lineCommand_badLine hready hline false _)

/-- COUNT NEW of a line answers its port and changes nothing else. -/
theorem exec_countNew_of_calls {s : State} {p : PortId} {l : LineId} (hcall : s.calls p l) :
    exec (.countNew p) s = .next (s.answer p false ((s.line l).countNewResults p)) := by
  change execCountNew p s = _
  rw [execCountNew, lineCommand_of_calls hcall false, beginCommand_line]
  exact congrArg Outcome.next (prepare_beginCommand s p false _)

/-- Settles O16: COUNT NEW is an answer with the line's counts, which COMPLETION writes to the port and ABORT drops. -/
theorem countNewReportsTheUnread : Obligations.CountNewReportsTheUnread := by
  refine ⟨fun s p => exec_countNew_badLine, fun s p l hcall =>
    ⟨(s.line l).recordsCounted p, rfl, _, exec_countNew_of_calls hcall, rfl, ?completion, ?abort⟩⟩
  case completion =>
    refine ⟨_, exec_completion_answer s p false _, ?_⟩
    simp [Port.complete, Port.taken, Port.idle, Port.busy, Port.dataReady, Line.countNewResults]
  case abort =>
    obtain ⟨⟨hreset, -⟩, -⟩ := hcall
    refine ⟨_, exec_abort_answer hreset false _, ?_⟩
    simp [Port.complete, Port.taken]

end Sys2Proof.Machine
end

section
/-! Proofs: the causes of a port and what posts them; CLEAR CONDITION and REARM. -/

namespace Sys2Proof.Machine

open Host

variable {s u : State} {l : LineId} {p : PortId}

/-! ## Causes of a kind for a line at a port (R160) -/

theorem Port.hasCause_iff {x : Port} {k : CauseKind} : x.hasCause k l = true ↔ ∃ c ∈ x.causes, c.kind = k ∧ c.line = l := by
  simp [Port.hasCause]

theorem mem_dropCause {k : CauseKind} {c : Cause} {cs : List Cause} :
    c ∈ dropCause k l cs ↔ c ∈ cs ∧ (c.kind ≠ k ∨ c.line ≠ l) := by
  simp [dropCause, or_iff_not_imp_left]

/-- After a post the port has a cause of that kind for that line (R160). -/
theorem State.exists_cause_post (s : State) (p : PortId) (k : CauseKind) (l : LineId) (d : Nat) :
    ∃ c ∈ ((s.post p k l d).port p).causes, c.kind = k ∧ c.line = l :=
  Port.hasCause_iff.mp (by simp [State.hasCause_post])

/-- After a removal the causes left are those of another kind or for another line. -/
theorem State.mem_causes_unpost {k : CauseKind} {c : Cause} :
    c ∈ ((s.unpost p k l).port p).causes ↔ c ∈ (s.port p).causes ∧ (c.kind ≠ k ∨ c.line ≠ l) := by
  rw [State.unpost_eq, State.port_modPort_self]
  exact mem_dropCause

theorem State.sameBlock_post (s : State) (p : PortId) (k : CauseKind) (l : LineId) (d : Nat) :
    (s.port p).SameBlock ((s.post p k l d).port p) := by
  rw [State.post_eq, State.port_modPort_self]
  rfl

theorem State.sameBlock_unpost (s : State) (p : PortId) (k : CauseKind) (l : LineId) :
    (s.port p).SameBlock ((s.unpost p k l).port p) := by
  rw [State.unpost_eq, State.port_modPort_self]
  rfl

/-! ## Commands that change an attachment and the port's own causes -/

/-- A change of an attachment, from the state in which the port's command is taken. -/
theorem modAttachment_beginCommand (s : State) (p : PortId) (dataIn : Bool) (l : LineId) (g : Attachment → Attachment) :
    (beginCommand s p dataIn).modAttachment l p g = beginCommand (s.modAttachment l p g) p dataIn := rfl

theorem post_beginCommand (s : State) (p : PortId) (dataIn : Bool) (k : CauseKind) (l : LineId) (d : Nat) :
    (beginCommand s p dataIn).post p k l d = beginCommand (s.post p k l d) p dataIn := by
  simp only [beginCommand, State.post_eq, State.modPort_modPort]

theorem unpost_beginCommand (s : State) (p : PortId) (dataIn : Bool) (k : CauseKind) (l : LineId) :
    (beginCommand s p dataIn).unpost p k l = beginCommand (s.unpost p k l) p dataIn := by
  simp only [beginCommand, State.unpost_eq, State.modPort_modPort]

/-- A command that changed nothing of its port but the causes completes with what the port held before it. -/
theorem Port.SameBlock.complete_taken {x y : Port} (h : x.SameBlock y) (dataIn : Bool) (r r' : Results) :
    ((x.taken dataIn r).complete r').SameBlock ((y.taken dataIn r).complete r') := by
  obtain ⟨cs, rfl⟩ : ∃ cs, y = { x with causes := cs } := ⟨_, h⟩
  rfl

/-- COMPLETION of a command whose effects left its port's block: the block takes the results, the causes and lines stay. -/
theorem exec_completion_answer_of_sameBlock (h : (s.port p).SameBlock (u.port p)) (dataIn : Bool) (r : Results) :
    ∃ v, exec (.completion p) (u.answer p dataIn r) = .next v ∧ v.lines = u.lines ∧ (v.port p).causes = (u.port p).causes
      ∧ (((s.port p).taken dataIn r).complete r).SameBlock (v.port p) :=
  ⟨_, exec_completion_answer u p dataIn r, rfl, by rw [port_completeCommand_answer]; rfl,
    by rw [port_completeCommand_answer]; exact h.complete_taken dataIn r r⟩

/-- ABORT of such a command while it shows BUSY: the block takes ABORTED and no result, the causes and lines stay (R179). -/
theorem exec_abort_answer_of_sameBlock (hreset : (s.port p).resetAsserted = false) (h : (s.port p).SameBlock (u.port p))
    (dataIn : Bool) (r : Results) :
    ∃ v, exec (.abort p) (u.answer p dataIn r) = .next v ∧ v.lines = u.lines ∧ (v.port p).causes = (u.port p).causes
      ∧ (((s.port p).taken dataIn r).complete { code := .aborted }).SameBlock (v.port p) := by
  have hreset' : (u.port p).resetAsserted = false := by rw [h]; exact hreset
  refine ⟨_, exec_abort_answer hreset' dataIn r, rfl, ?_, ?_⟩
  · rw [State.port_modPort_self, port_completeCommand_answer]; rfl
  · rw [State.port_modPort_self, port_completeCommand_answer]
    exact h.complete_taken dataIn r { code := .aborted }

/-! ## The latch of an attachment (R83, R164) -/

/-- A condition event is latched into the port's attachment. -/
theorem attachment_latchEvent {a : Attachment} (e : CondEvent) (ha : (s.line l).attachment p = some a) :
    ((latchEvent e l s p).line l).attachment p = some { a with latch := a.latch ||| e.bit } := by
  have hlatched := State.attachment_modAttachment_self (fun x => { x with latch := x.latch ||| e.bit }) (fun _ => rfl) ha
  rw [latchEvent, ha]
  dsimp only
  split <;> exact hlatched

/-- A condition event posts CONDITION at a port whose attachment has condition enable set (R164). -/
theorem exists_condition_latchEvent {a : Attachment} (e : CondEvent) (ha : (s.line l).attachment p = some a)
    (hc : a.conditionEnable = true) :
    ∃ c ∈ ((latchEvent e l s p).port p).causes, c.kind = .condition ∧ c.line = l := by
  rw [latchEvent, ha]
  dsimp only
  rw [if_pos hc]
  exact State.exists_cause_post _ p .condition l 0

/-! ## CLEAR CONDITION (R165) -/

/-- The latch of the port's attachment emptied, and its CONDITION cause removed. -/
def State.clearLatch (s : State) (l : LineId) (p : PortId) : State :=
  (s.modAttachment l p fun x => { x with latch := 0 }).unpost p .condition l

theorem State.attachment_clearLatch {a : Attachment} (ha : (s.line l).attachment p = some a) :
    ((s.clearLatch l p).line l).attachment p = some { a with latch := 0 } :=
  State.attachment_modAttachment_self (fun x => { x with latch := 0 }) (fun _ => rfl) ha

theorem State.sameBlock_clearLatch (s : State) (l : LineId) (p : PortId) : (s.port p).SameBlock ((s.clearLatch l p).port p) :=
  State.sameBlock_unpost (s.modAttachment l p fun x => { x with latch := 0 }) p .condition l

theorem exec_clearCondition_badLine (hready : (s.port p).ready) (hline : 16 ≤ (s.port p).line.toNat) :
    exec (.clearCondition p) s = .next (s.answer p false { code := .badLine }) :=
  congrArg Outcome.next (lineCommand_badLine hready hline false _)

theorem exec_clearCondition_notAttached (hcall : s.calls p l) (ha : (s.line l).attachment p = none) :
    exec (.clearCondition p) s = .next (s.answer p false { code := .notAttached }) := by
  change execClearCondition p s = _
  rw [execClearCondition, lineCommand_of_calls hcall false, beginCommand_line, ha]
  exact congrArg Outcome.next (prepare_beginCommand s p false _)

theorem exec_clearCondition_attached {a : Attachment} (hcall : s.calls p l) (ha : (s.line l).attachment p = some a) :
    exec (.clearCondition p) s = .next ((s.clearLatch l p).answer p false { value := some (a.latch.setWidth 32) }) := by
  change execClearCondition p s = _
  rw [execClearCondition, lineCommand_of_calls hcall false, beginCommand_line, ha]
  dsimp only
  rw [modAttachment_beginCommand, unpost_beginCommand, prepare_beginCommand]
  rfl

/-- Settles O17: CLEAR CONDITION of an attached port is the emptied latch answered with the latch; what follows is of that state. -/
theorem clearConditionReturnsTheLatch : Obligations.ClearConditionReturnsTheLatch := by
  refine ⟨fun s p => exec_clearCondition_badLine, fun s p l => exec_clearCondition_notAttached, ?attached,
    fun s p l a e => attachment_latchEvent e⟩
  case attached =>
    intro s p l a hcall ha
    have hcleared := State.attachment_clearLatch ha
    have hblock := State.sameBlock_clearLatch s l p
    refine ⟨_, exec_clearCondition_attached hcall ha, rfl, hcleared, ?causes, fun e => ⟨?latched, ?posted⟩, ?completion, ?abort⟩
    case causes =>
      rintro c hc ⟨hkind, hline⟩
      rw [State.port_answer_self] at hc
      obtain ⟨-, h⟩ := State.mem_causes_unpost.mp hc
      exact h.elim (· hkind) (· hline)
    case latched =>
      rw [attachment_latchEvent (s := (s.clearLatch l p).answer p false _) e hcleared]
      simp
    case posted =>
      exact exists_condition_latchEvent (s := (s.clearLatch l p).answer p false _) (a := { a with latch := 0 }) e hcleared
    case completion =>
      obtain ⟨v, hv, -, -, hport⟩ := exec_completion_answer_of_sameBlock hblock false _
      refine ⟨v, hv, ?_⟩
      rw [hport]
      simp [Port.complete, Port.taken, Port.idle, Port.busy, Port.dataReady]
    case abort =>
      obtain ⟨⟨hreset, -⟩, -⟩ := hcall
      obtain ⟨v, hv, hlines, -, hport⟩ := exec_abort_answer_of_sameBlock hreset hblock false _
      refine ⟨v, hv, ?_, ?_, ?_⟩
      · rw [hport]; rfl
      · rw [hport]; rfl
      · rw [State.line, hlines]; exact hcleared

/-! ## REARM (R169) -/

/-- What REARM does to a FIRST attachment: with unread records DATA is posted and armed is clear, with none armed is set. -/
def State.rearm (s : State) (l : LineId) (p : PortId) (a : Attachment) : State :=
  if 0 < (s.line l).unread a then (s.modAttachment l p fun x => { x with mode := .first false }).post p .data l 0
  else s.modAttachment l p fun x => { x with mode := .first true }

theorem State.sameBlock_rearm (s : State) (l : LineId) (p : PortId) (a : Attachment) :
    (s.port p).SameBlock ((s.rearm l p a).port p) := by
  unfold State.rearm
  split
  · exact State.sameBlock_post (s.modAttachment l p fun x => { x with mode := .first false }) p .data l 0
  · rfl

theorem exec_rearm_badLine (hready : (s.port p).ready) (hline : 16 ≤ (s.port p).line.toNat) :
    exec (.rearm p) s = .next (s.answer p false { code := .badLine }) :=
  congrArg Outcome.next (lineCommand_badLine hready hline false _)

theorem exec_rearm_notAttached (hcall : s.calls p l) (ha : (s.line l).attachment p = none) :
    exec (.rearm p) s = .next (s.answer p false { code := .notAttached }) := by
  change execRearm p s = _
  rw [execRearm, lineCommand_of_calls hcall false, beginCommand_line, ha]
  exact congrArg Outcome.next (prepare_beginCommand s p false _)

theorem exec_rearm_notFirst {a : Attachment} (hcall : s.calls p l) (ha : (s.line l).attachment p = some a)
    (hmode : ∀ b, a.mode ≠ .first b) : exec (.rearm p) s = .next (s.answer p false { code := .badArgument }) := by
  change execRearm p s = _
  rw [execRearm, lineCommand_of_calls hcall false, beginCommand_line, ha]
  cases hm : a.mode with
  | first b => exact absurd hm (hmode b)
  | none | level n =>
    dsimp only
    rw [hm]
    exact congrArg Outcome.next (prepare_beginCommand s p false _)

theorem exec_rearm_first {a : Attachment} {b : Bool} (hcall : s.calls p l) (ha : (s.line l).attachment p = some a)
    (hmode : a.mode = .first b) :
    exec (.rearm p) s = .next ((s.rearm l p a).answer p false { count := some (countHalf ((s.line l).unread a)) }) := by
  change execRearm p s = _
  rw [execRearm, lineCommand_of_calls hcall false, beginCommand_line, ha]
  dsimp only
  rw [hmode, State.rearm]
  dsimp only
  rw [modAttachment_beginCommand]
  by_cases hunread : 0 < (s.line l).unread a
  · rw [if_pos hunread, if_pos hunread, post_beginCommand, prepare_beginCommand, decide_eq_false hunread.ne']
  · rw [if_neg hunread, if_neg hunread, prepare_beginCommand, decide_eq_true (Nat.eq_zero_of_not_pos hunread)]

/-- A completion that leaves records unread at an armed attachment posts DATA and clears armed (R166). -/
theorem completionData_armed {a : Attachment} (ha : (s.line l).attachment p = some a) (hmode : a.mode = .first true)
    (hunread : 0 < (s.line l).unread a) :
    completionData l s p = (s.post p .data l 0).modAttachment l p fun x => { x with mode := x.mode.disarmed } := by
  rw [completionData, ha]
  dsimp only
  rw [hmode]
  exact if_pos hunread

/-- Settles O18: REARM of a FIRST attachment is its effect on the attachment and the causes, answered with the unread count. -/
theorem rearmArmsOrPosts : Obligations.RearmArmsOrPosts := by
  refine ⟨fun s p => exec_rearm_badLine,
    fun s p l hcall => ⟨exec_rearm_notAttached hcall, fun a => exec_rearm_notFirst hcall⟩, ?first, ?armed⟩
  case first =>
    intro s p l a b hcall ha hmode
    have hblock := State.sameBlock_rearm s l p a
    refine ⟨_, exec_rearm_first hcall ha hmode, rfl, ?completion, ?abort⟩
    case completion =>
      obtain ⟨v, hv, -, -, hport⟩ := exec_completion_answer_of_sameBlock hblock false _
      refine ⟨v, hv, ?_⟩
      rw [hport]
      simp [Port.complete, Port.taken, Port.idle, Port.busy, Port.dataReady, countHalf]
    case abort =>
      obtain ⟨⟨hreset, -⟩, -⟩ := hcall
      obtain ⟨v, hv, hlines, hcauses, hport⟩ := exec_abort_answer_of_sameBlock hreset hblock false _
      refine ⟨v, hv, ?_, hlines, ?_⟩
      · rw [hport]; rfl
      · rw [hcauses, State.port_answer_self]; rfl
  case armed =>
    intro s p l a ha hmode hunread
    rw [completionData_armed ha hmode hunread]
    refine ⟨?_, State.exists_cause_post s p .data l 0⟩
    rw [State.attachment_modAttachment_self (s := s.post p .data l 0) (fun x => { x with mode := x.mode.disarmed })
      (fun _ => rfl) ha, hmode]
    rfl

end Sys2Proof.Machine
end

section
/-! Proofs: work on a line passes over a port without an attachment there, so a port reset leaves the port no cause; ATTENTION. -/

namespace Sys2Proof.Machine

variable {s t u : State} {l : LineId} {p : PortId}

/-! ## Ports passed over (R160) -/

/-- A port without an attachment on a line is passed over: it gets none there, and its cause set stays. -/
def PassesOver (l : LineId) (p : PortId) (s t : State) : Prop :=
  (s.line l).attachment p = none → (t.line l).attachment p = none ∧ (t.port p).causes = (s.port p).causes

namespace PassesOver

theorem refl (l : LineId) (p : PortId) (s : State) : PassesOver l p s s := fun h => ⟨h, rfl⟩

theorem trans (h : PassesOver l p s t) (k : PassesOver l p t u) : PassesOver l p s u := fun hnone =>
  have ⟨hnone', hcauses⟩ := h hnone
  have ⟨hnone'', hcauses'⟩ := k hnone'
  ⟨hnone'', hcauses'.trans hcauses⟩

theorem of_sameMarks (h : SameMarks l s t) : PassesOver l p s t := fun hnone => ⟨(h.1 p).trans hnone, h.2 p⟩

/-- A change of the line in anything but its attachments. -/
theorem line (s : State) (f : Line → Line) (h : (f (s.line l)).att.list = (s.line l).att.list) :
    PassesOver l p s (s.modLine l f) := of_sameMarks (.line s f h)

/-- An action for each port in turn that leaves a port without an attachment. -/
theorem eachPort (f : State → PortId → State) (hf : ∀ s q, ForPort l q s (f s q))
    (hnone : ∀ s, (s.line l).attachment p = none → f s p = s) (s : State) : PassesOver l p s (eachPort f s) := by
  have one : ∀ s q, PassesOver l p s (f s q) := by
    intro s q hp
    by_cases e : p = q
    · subst e
      rw [hnone s hp]
      exact ⟨hp, rfl⟩
    · obtain ⟨hport, hatt⟩ := (hf s q).1 p e
      exact ⟨hatt.trans hp, by rw [hport]⟩
  exact ((one s 0).trans (one _ 1)).trans (one _ 2)

end PassesOver

theorem levelData_of_none (h : (s.line l).attachment p = none) : levelData l s p = s := by
  rw [levelData, h]

theorem completionData_of_none (h : (s.line l).attachment p = none) : completionData l s p = s := by
  rw [completionData, h]

theorem overtakePort_of_none (report : OldestReport) (h : (s.line l).attachment p = none) : overtakePort report l s p = s := by
  rw [overtakePort, h]

theorem reportAdvance_passesOver (old : Seq) (s : State) : PassesOver l p s (reportAdvance old s l) := by
  unfold reportAdvance reportOldest
  exact .eachPort _ (overtakePort_forPort _) (fun _ => overtakePort_of_none _) s

theorem reportComplete_passesOver (s : State) : PassesOver l p s (reportComplete s l) :=
  (PassesOver.line s _ rfl).trans (.eachPort _ completionData_forPort (fun _ => completionData_of_none) _)

theorem giveFree_marks (s : State) (n : Nat) (rest : List Nat) : SameMarks l s (giveFree s l n rest) :=
  SameMarks.line { s with freePages := rest } _ rfl

theorem recycle_passesOver (s : State) (oldest : Page) (rest : List Page) : PassesOver l p s (recycle s l oldest rest) := by
  unfold recycle
  exact (PassesOver.of_sameMarks (recyclePage_marks s oldest rest)).trans (reportAdvance_passesOver _ _)

theorem requestPage_passesOver (s : State) : PassesOver l p s (requestPage s l).1 := by
  unfold requestPage
  split
  · dsimp only
    exact .of_sameMarks (giveFree_marks s _ _)
  · split
    · exact .refl l p s
    · split
      · exact .refl l p s
      · dsimp only
        exact recycle_passesOver s _ _

theorem ensureRoom_passesOver (s : State) (bytes : Nat) : PassesOver l p s (ensureRoom s l bytes).1 := by
  unfold ensureRoom
  split
  · exact .refl l p s
  · exact requestPage_passesOver s

theorem writeRecord_passesOver (s : State) (kind : RecordKind) (cause detail : Byte) (body : List Byte) (discard : State → State)
    (hd : ∀ t, PassesOver l p t (discard t)) : PassesOver l p s (writeRecord s l kind cause detail body discard) := by
  have hroom := ensureRoom_passesOver (l := l) (p := p) s (Config.header + body.length)
  unfold writeRecord
  split
  · rename_i t e
    rw [e] at hroom
    exact (hroom.trans (.of_sameMarks (placeRecord_marks t _ _ _ _))).trans (reportComplete_passesOver _)
  · rename_i t e
    rw [e] at hroom
    exact hroom.trans (hd t)

theorem closeOpen_passesOver (s : State) (cause : CloseCause) (detail : Byte) :
    PassesOver l p s (closeOpen s l cause detail) := by
  unfold closeOpen
  split
  · exact .refl l p s
  · exact (PassesOver.of_sameMarks (closeRecord_marks s _ _ _)).trans (reportComplete_passesOver _)

theorem placeEvent_passesOver (s : State) (e : Event) (argument : List Byte) : PassesOver l p s (placeEvent s l e argument) :=
  writeRecord_passesOver s _ _ _ _ _ fun t => .line t _ rfl

theorem flushFrozen_passesOver (s : State) : PassesOver l p s (flushFrozen s l) := by
  unfold flushFrozen
  split
  · exact (((PassesOver.line s _ rfl).trans (closeOpen_passesOver _ _ _)).trans (placeEvent_passesOver _ _ _)).trans
      (.line _ _ rfl)
  · exact .refl l p s

theorem plainEvent_passesOver (s : State) (e : Event) (argument : List Byte) : PassesOver l p s (plainEvent s l e argument) :=
  (((closeOpen_passesOver s _ _).trans (flushFrozen_passesOver _)).trans (placeEvent_passesOver _ _ _)).trans
    (flushFrozen_passesOver _)

theorem placeFlow_passesOver (s : State) (c : FlowChar) : PassesOver l p s (placeFlow s l c) := by
  unfold placeFlow
  split
  · exact .refl l p s
  · split <;> exact .line s _ rfl

theorem evaluateHold_passesOver (s : State) : PassesOver l p s (evaluateHold s l) := by
  have hold : ∀ (f : Hold → Hold) (c : FlowChar) (e : Event), PassesOver l p s (plainEvent (placeFlow (s.modHold l f) l c) l e []) :=
    fun f c e => ((PassesOver.line s _ rfl).trans (placeFlow_passesOver _ c)).trans (plainEvent_passesOver _ e [])
  unfold evaluateHold
  split
  · exact hold _ _ _
  · exact hold _ _ _
  · exact .line s _ rfl
  all_goals exact .refl l p s

theorem settleWithin_passesOver (k : Nat) : ∀ s : State, PassesOver l p s (settleWithin k s l) := by
  induction k with
  | zero => exact fun s => .line s _ rfl
  | succ k ih =>
    intro s
    unfold settleWithin
    dsimp only
    split
    · exact (((flushFrozen_passesOver s).trans (.line _ _ rfl)).trans (evaluateHold_passesOver _)).trans (ih _)
    · exact flushFrozen_passesOver s

theorem askEvaluation_passesOver (s : State) : PassesOver l p s (askEvaluation s l) :=
  (PassesOver.line s _ rfl).trans (settleWithin_passesOver 8 _)

theorem event_passesOver (s : State) (e : Event) (argument : List Byte) : PassesOver l p s (event s l e argument) :=
  (plainEvent_passesOver s e argument).trans (settleWithin_passesOver 8 _)

theorem writerSet_passesOver (s : State) (q : Option PortId) (reason : WriterReason) :
    PassesOver l p s (writerSet s l q reason) := event_passesOver s .writerSet _

theorem dropDrainMark_passesOver (s : State) : PassesOver l p s (dropDrainMark s l) := .line s _ rfl

theorem loseWriter_passesOver (s : State) (reason : WriterReason) : PassesOver l p s (loseWriter s l reason) := by
  have hlease : PassesOver l p s (s.modAtt l fun x => { x with leaseTimer := none }) := .line s _ rfl
  exact (hlease.trans (dropDrainMark_passesOver _)).trans (writerSet_passesOver _ none reason)

/-! ## A port reset (R113, R180) -/

/-- The removal of a port's attachment posts nothing at the port: the records that tell of it are written after it. -/
theorem removeAttachment_causes (s : State) (l : LineId) (p : PortId) (reason : WriterReason) :
    ((removeAttachment s l p reason).port p).causes = (s.port p).causes := by
  have hnone : ((s.modAtt l fun x => { x with list := x.list.filter fun a => !decide (a.port = p) }).line l).attachment p
      = none := by
    simp [Line.attachment]
  have told : ∀ t, PassesOver l p (s.modAtt l fun x => { x with list := x.list.filter fun a => !decide (a.port = p) }) t →
      ((askEvaluation t l).port p).causes = (s.port p).causes := fun t h =>
    (h.trans (askEvaluation_passesOver t) hnone).2
  unfold removeAttachment
  dsimp only
  split
  · exact told _ (loseWriter_passesOver _ reason)
  · exact told _ (.refl l p _)

theorem resetOnLine_causes (s : State) (l : LineId) (p : PortId) :
    ((resetOnLine p s l).port p).causes = (s.port p).causes := by
  unfold resetOnLine
  split
  · exact removeAttachment_causes s l p .portReset
  · rfl

theorem resetOnLines_causes (p : PortId) (ls : List LineId) :
    ∀ s : State, ((ls.foldl (resetOnLine p) s).port p).causes = (s.port p).causes := by
  induction ls with
  | nil => exact fun _ => rfl
  | cons l ls ih => exact fun s => (ih _).trans (resetOnLine_causes s l p)

/-- A port that PORT RESET finds in service is left without causes. -/
theorem causes_exec_portReset (hreset : (s.port p).resetAsserted = false) (h : exec (.portReset p) s = .next t) :
    (t.port p).causes = [] := by
  change execPortReset p s = _ at h
  rw [execPortReset, hreset] at h
  obtain rfl := Host.Outcome.next.inj h
  exact (resetOnLines_causes p _ _).trans (by rw [State.port_modPort_self])

/-! ## Device reset (R181) -/

theorem causes_reset (p : PortId) : (State.reset.port p).causes = [] := by
  simp [State.reset, State.port, Port.atReset]

theorem causes_exec_deviceReset {a b d : BitVec 2} (p : PortId) (h : exec (.deviceReset a b d) s = .next t) :
    (t.port p).causes = [] := by
  obtain rfl := Host.Outcome.next.inj h
  fin_cases p <;> rfl

/-! ## ATTENTION (R161) -/

theorem Port.attention_iff {x : Port} : x.attention = true ↔ x.causes ≠ [] := by
  simp [Port.attention]

theorem Port.attention_iff_exists {x : Port} : x.attention = true ↔ ∃ c, c ∈ x.causes := by
  simp [Port.attention_iff, List.eq_nil_iff_forall_not_mem]

theorem Port.attention_of_nil {x : Port} (h : x.causes = []) : x.attention = false := by
  rw [Port.attention, h]
  rfl

/-- Bit 4 of a byte that six flags make, the lowest first. -/
theorem getLsbD_four_flags (b0 b1 b2 b3 b4 b5 : Bool) :
    (byteOf (b0.toNat + 2 * b1.toNat + 4 * b2.toNat + 8 * b3.toNat + 16 * b4.toNat + 32 * b5.toNat)).getLsbD 4 = b4 := by
  revert b0 b1 b2 b3 b4 b5
  decide

/-- The ATTENTION flag of STATUS is the ATTENTION output (R161, R174). -/
theorem Port.status_attention (x : Port) : x.status.getLsbD 4 = x.attention := getLsbD_four_flags _ _ _ _ _ _

theorem attention_post (s : State) (p : PortId) (k : CauseKind) (l : LineId) (d : Nat) :
    ((s.post p k l d).port p).attention = true :=
  have ⟨c, hc, _⟩ := s.exists_cause_post p k l d
  Port.attention_iff_exists.mpr ⟨c, hc⟩

theorem attention_unpost (s : State) (p : PortId) (k : CauseKind) (l : LineId) :
    ((s.unpost p k l).port p).attention = true ↔ ∃ c ∈ (s.port p).causes, c.kind ≠ k ∨ c.line ≠ l := by
  simp only [Port.attention_iff_exists, State.mem_causes_unpost]

/-- Settles O8: each clause is the cause set after the operation, by way of attention_iff. -/
theorem attentionFollowsTheCauseSet : Obligations.AttentionFollowsTheCauseSet :=
  ⟨fun x => ⟨x.attention_iff, x.status_attention, fun _ => rfl⟩, attention_post, attention_unpost,
    fun p => Port.attention_of_nil (causes_reset p),
    fun _ _ _ _ _ p h => Port.attention_of_nil (causes_exec_deviceReset p h),
    fun _ _ _ hreset h => Port.attention_of_nil (causes_exec_portReset hreset h)⟩

end Sys2Proof.Machine
end

section
/-! Proofs: COMPLETION gives a port its results, and on an idle port they stand. -/

namespace Sys2Proof.Machine

variable {on : LineId → Prop} {own : PortId → Prop} {s t : State} {p : PortId} {x y z : Port}

/-! ## An idle port (R173, R175) -/

theorem Port.idle_iff : x.idle = true ↔ x.phase = .idle := by
  cases h : x.phase <;> simp [Port.idle, Port.busy, Port.dataReady, h]

/-- A command owns no block of an idle port but its own: a port whose SEND or SEND BREAK waits is not idle (R138, R142). -/
theorem State.not_owns_of_idle {c : Instr} (hwait : WaitingAgrees s) (hidle : (s.port p).idle = true) (hport : c.port? ≠ some p) :
    ¬ s.owns c p := by
  obtain ⟨hagree, -⟩ := hwait
  rintro (hown | ⟨l, -, hw⟩)
  · exact hport hown
  · have hphase := (hagree p l).mpr hw
    rw [Port.idle_iff.mp hidle] at hphase
    cases hphase

/-! ## Blocks that are not owned stay -/

theorem Port.SameBlock.refl (x : Port) : x.SameBlock x := rfl

theorem Port.SameBlock.trans (h : x.SameBlock y) (k : y.SameBlock z) : x.SameBlock z := by
  rw [Port.SameBlock] at h k ⊢
  rw [k, h]

theorem WorkStep.sameBlock {l : LineId} (w : WorkStep l s t) (q : PortId) : (s.port q).SameBlock (t.port q) := by
  obtain ⟨-, -, -, -, -, hports, -⟩ := w.frame
  obtain ⟨cs, hcs, -⟩ := hports q
  rw [hcs]
  rfl

/-- An edit writes the command block of an owned port only. -/
theorem Edit.sameBlock {q : PortId} (hq : ¬ own q) (w : Edit on own s t) : (s.port q).SameBlock (t.port q) := by
  have owned_port : ∀ (p : PortId) (f : Port → Port), own p → (s.port q).SameBlock ((s.modPort p f).port q) := by
    intro p f hp
    have hne : q ≠ p := fun e => hq (e ▸ hp)
    rw [State.port_modPort_ne _ _ _ _ hne]
    exact .refl _
  cases w with
  | work l hl w => exact w.sameBlock q
  | port p f hp k => exact owned_port p f hp
  | causes p cs hp k => exact owned_port p _ hp
  | quota l reserve limit hl k => split <;> exact .refl _
  | line l f hl k => exact .refl _
  | settings l f hl k hr => exact .refl _
  | enqueue l es hl k => exact .refl _
  | dequeue l e rest hl k => exact .refl _
  | clearQueue l hl => exact .refl _
  | join l a hl k hr => exact .refl _
  | leave l p hl => exact .refl _
  | adjust l g hl k => exact .refl _
  | demote l p hl => exact .refl _
  | promote l p hl k => exact .refl _
  | take l w p hl k => exact .refl _
  | opening l c hl ho hp hr => exact .refl _
  | append l o c hl ho => exact .refl _
  | clear l hl ho hp => exact .refl _
  | spend => exact .refl _

theorem Edits.sameBlock {q : PortId} (hq : ¬ own q) (w : Edits on own s t) : (s.port q).SameBlock (t.port q) :=
  w.keeps (P := fun s t => (s.port q).SameBlock (t.port q)) (fun _ => .refl _) .trans (Edit.sameBlock hq)

/-- A command other than DEVICE RESET leaves the blocks that it does not own. -/
theorem exec_sameBlock {c : Instr} {q : PortId} (hset : SettingsOk s) (hreset : ∀ a b d, c ≠ .deviceReset a b d)
    (hexec : exec c s = .next t) (hq : ¬ s.owns c q) : (s.port q).SameBlock (t.port q) := by
  by_cases htime : c = .timebaseAdvance
  · subst htime
    obtain rfl := Host.Outcome.next.inj hexec
    exact .refl _
  · obtain ⟨u, hu, hedits⟩ := exec_edits c s hset hreset htime
    obtain rfl := Host.Outcome.next.inj (hu.symm.trans hexec)
    exact hedits.sameBlock hq

/-! ## Results that stand on an idle port (R178) -/

/-- A port that differs in its offset pointer, the byte last shifted out and its PORT RESET input alone. -/
def Port.SameResults (x y : Port) : Prop :=
  y = { x with pointer := y.pointer, shiftedOut := y.shiftedOut, resetAsserted := y.resetAsserted }

theorem Port.SameResults.refl (x : Port) : x.SameResults x := rfl

theorem Port.SameResults.modPort {f : Port → Port} (h : (s.port p).SameResults (f (s.port p))) :
    (s.port p).SameResults ((s.modPort p f).port p) := by
  rw [State.port_modPort_self]
  exact h

/-- Outside a data-in phase DATA hands out 00h (R173). -/
theorem dataRead_sameResults_of_idle (hidle : (s.port p).phase = .idle) (h : exec (.dataRead p) s = .next t) :
    (s.port p).SameResults (t.port p) := by
  change execDataRead p s = _ at h
  rw [execDataRead, hidle] at h
  obtain rfl := Host.Outcome.next.inj h
  split <;> exact .modPort rfl

/-- Outside a data-out phase a byte written at DATA is discarded (R173). -/
theorem dataWrite_sameResults_of_idle {b : Byte} (hidle : (s.port p).phase = .idle) (h : exec (.dataWrite p b) s = .next t) :
    (s.port p).SameResults (t.port p) := by
  change execDataWrite p b s = _ at h
  rw [execDataWrite, hidle] at h
  obtain rfl := Host.Outcome.next.inj h
  split
  · exact .refl _
  · exact .modPort rfl

theorem exec_fillEnd_of_idle (hidle : (s.port p).phase = .idle) : exec (.fillEnd p) s = .next s := by
  change execFillEnd p s = _
  rw [execFillEnd, hidle]

theorem exec_completion_of_idle (hidle : (s.port p).phase = .idle) : exec (.completion p) s = .next s := by
  change execCompletion p s = _
  rw [execCompletion, hidle]

theorem portResetRelease_sameResults (h : exec (.portResetRelease p) s = .next t) :
    (s.port p).SameResults (t.port p) := by
  obtain rfl := Host.Outcome.next.inj h
  exact .modPort rfl

/-- The port's own bytes at DATA, fills, completions and PORT RESET RELEASE leave the results of an idle port. -/
theorem exec_sameResults_of_idle {c : Instr} (hidle : (s.port p).phase = .idle)
    (hc : c = .dataRead p ∨ (∃ b, c = .dataWrite p b) ∨ c = .fillEnd p ∨ c = .completion p ∨ c = .portResetRelease p)
    (hexec : exec c s = .next t) : (s.port p).SameResults (t.port p) := by
  obtain rfl | ⟨b, rfl⟩ | rfl | rfl | rfl := hc
  · exact dataRead_sameResults_of_idle hidle hexec
  · exact dataWrite_sameResults_of_idle hidle hexec
  · obtain rfl := Host.Outcome.next.inj ((exec_fillEnd_of_idle hidle).symm.trans hexec)
    exact .refl _
  · obtain rfl := Host.Outcome.next.inj ((exec_completion_of_idle hidle).symm.trans hexec)
    exact .refl _
  · exact portResetRelease_sameResults hexec

/-! ## COMPLETION (R178) -/

theorem exec_completion_of_completing {r : Results} (hphase : (s.port p).phase = .completing r) :
    exec (.completion p) s = .next (completeCommand s p r) := by
  change execCompletion p s = _
  rw [execCompletion, hphase]

@[simp] theorem port_completeCommand_self (s : State) (p : PortId) (r : Results) :
    (completeCommand s p r).port p = (s.port p).complete r := State.port_modPort_self s p _

theorem port_completeCommand_ne {q : PortId} (s : State) (r : Results) (hq : q ≠ p) :
    (completeCommand s p r).port q = s.port q := State.port_modPort_ne s p q _ hq

/-- Settles O11: COMPLETION is completeCommand; afterwards the port is idle, so others do not own its block and its own idle
commands leave its results. -/
theorem completionGivesTheResults : Obligations.CompletionGivesTheResults := by
  refine ⟨?completion, fun c s t p hset hwait hidle hreset hexec => ⟨?others, ?own⟩⟩
  case completion =>
    intro s p r hphase
    refine ⟨_, exec_completion_of_completing hphase, lines_completeCommand s p r,
      fun q hq => port_completeCommand_ne s r hq, ?_⟩
    rw [port_completeCommand_self]
    simp [Port.complete, Port.busy, Port.dataReady]
  case others =>
    exact fun hport => exec_sameBlock hset hreset hexec (State.not_owns_of_idle hwait hidle hport)
  case own =>
    intro hc
    have hsame := exec_sameResults_of_idle (Port.idle_iff.mp hidle) hc hexec
    rw [hsame]
    exact ⟨rfl, rfl, rfl, rfl, rfl, rfl, rfl, hidle⟩

end Sys2Proof.Machine
end

section
/-! Proofs: the invariants that every edit keeps are kept by every step; the state after a device reset meets all of them. -/

namespace Sys2Proof.Machine

open Host

variable {s t : State}

/-! ## The state after a device reset (R181) -/

/-- Every line, port and page is as a device reset leaves it. -/
structure State.Fresh (s : State) : Prop where
  lines : ∀ l, ∃ high, s.line l = Line.atReset high
  ports : ∀ p, ∃ precedence inReset, s.port p = Port.atReset precedence inReset
  pages : s.freePages = List.range Config.pageCount

theorem fresh_reset : State.reset.Fresh where
  lines l := ⟨true, by simp [State.reset, State.line]⟩
  ports p := ⟨0, false, by simp [State.reset, State.port]⟩
  pages := by simp only [State.reset]

theorem line_deviceReset {a b d : BitVec 2} (h : exec (.deviceReset a b d) s = .next t) (l : LineId) :
    t.line l = Line.atReset (s.line l).io.pinHigh := by
  obtain rfl := Outcome.next.inj h
  simp [State.line]

theorem port_deviceReset {a b d : BitVec 2} (h : exec (.deviceReset a b d) s = .next t) (p : PortId) :
    t.port p = Port.atReset ((([a, b, d] : List (BitVec 2)).getD p.val 0).toNat) (s.port p).resetAsserted := by
  obtain rfl := Outcome.next.inj h
  fin_cases p <;> rfl

theorem fresh_deviceReset {a b d : BitVec 2} (h : exec (.deviceReset a b d) s = .next t) : t.Fresh where
  lines l := ⟨_, line_deviceReset h l⟩
  ports p := ⟨_, _, port_deviceReset h p⟩
  pages := by
    obtain rfl := Outcome.next.inj h
    simp only

namespace State.Fresh

theorem line_keeps {P : Line → Prop} (h : s.Fresh) (hp : ∀ high, P (Line.atReset high)) (l : LineId) : P (s.line l) := by
  obtain ⟨high, e⟩ := h.lines l
  exact e ▸ hp high

theorem causes (h : s.Fresh) (p : PortId) : (s.port p).causes = [] := by
  obtain ⟨_, _, e⟩ := h.ports p
  rw [e]
  rfl

theorem phase (h : s.Fresh) (p : PortId) : (s.port p).phase = .idle := by
  obtain ⟨_, _, e⟩ := h.ports p
  rw [e]
  rfl

theorem settingsOk (h : s.Fresh) : SettingsOk s :=
  h.line_keeps (P := fun x => x.io.inRange = true) (by decide)

theorem queueBound (h : s.Fresh) : QueueBound s :=
  h.line_keeps (P := fun x => x.tx.queue.length ≤ Config.queueSize) (by decide)

theorem attachmentTable (h : s.Fresh) : AttachmentTable s :=
  h.line_keeps (P := Line.tableOk) fun _ => ⟨List.nodup_nil, Nat.zero_le 1⟩

theorem causeOrder (h : s.Fresh) : CauseOrder s := fun p => by simp [h.causes p]

theorem pages_nil (h : s.Fresh) (l : LineId) : (s.line l).pool.pages = [] :=
  h.line_keeps (P := fun x => x.pool.pages = []) (fun _ => rfl) l

theorem pagePartition (h : s.Fresh) : PagePartition s := by
  simp [PagePartition, h.pages, h.pages_nil, List.flatMap_eq_nil_iff.mpr]

theorem quotaBounds (h : s.Fresh) : QuotaBounds s := by
  have hreserve : ∀ l, (s.line l).pool.reserve = 32 := h.line_keeps (P := fun x => x.pool.reserve = 32) fun _ => rfl
  have hlimit : ∀ l, (s.line l).pool.limit = 512 := h.line_keeps (P := fun x => x.pool.limit = 512) fun _ => rfl
  rw [quotaBounds_iff]
  simp [hreserve, hlimit, Line.held, h.pages_nil, h.pages, Config.pageCount]

theorem logKept (h : s.Fresh) : LogKept s :=
  h.line_keeps (P := Line.logKept) fun _ => ⟨⟨show (1 : Seq) ≠ 0 by decide, show (1 : Seq) ≠ 0 by decide, rfl, rfl⟩, rfl⟩

theorem waitingAgrees (h : s.Fresh) : WaitingAgrees s := by
  have hnone : ∀ l, (s.line l).tx.waiting = none := h.line_keeps (P := fun x => x.tx.waiting = none) fun _ => rfl
  constructor
  · simp [h.phase, hnone]
  · simp [hnone]

theorem marksClear (h : s.Fresh) : MarksClear s :=
  h.line_keeps (P := fun x => x.pool.frozenDue = false ∧ x.hold.evalDue = false) fun _ => ⟨rfl, rfl⟩

theorem causesStand (h : s.Fresh) : CausesStand s := fun l => by
  have hlist : (s.line l).att.list = [] := h.line_keeps (P := fun x => x.att.list = []) (fun _ => rfl) l
  have hmark : (s.line l).tx.drainMark = none := h.line_keeps (P := fun x => x.tx.drainMark = none) (fun _ => rfl) l
  constructor
  · intro p
    simp [Line.causesAgree, Line.attachment, hlist, h.causes p]
  · simp [hmark]

end State.Fresh

/-- Settles O55: the state after reset is fresh, and a fresh state meets each invariant. -/
theorem resetMeetsTheInvariants : Obligations.ResetMeetsTheInvariants :=
  have h := fresh_reset
  ⟨h.settingsOk, h.queueBound, h.attachmentTable, h.causeOrder, h.pagePartition, h.quotaBounds, h.logKept, h.waitingAgrees,
    h.marksClear, h.causesStand⟩

/-! ## One step -/

/-- What a step does: it idles, or it takes the front command from the state with the queue's rest. -/
theorem step_cases (h : step s = .next t) : t = s ∨ ∃ c rest, exec c { s with pending := rest } = .next t := by
  unfold step at h
  split at h
  · exact .inl (Outcome.next.inj h).symm
  · exact .inr ⟨_, _, h⟩

/-- An invariant that ignores the queue of commands and that every edit, every device reset and every advance of the timebase
keep is kept by every step. -/
theorem step_keeps {P : State → Prop} (hpending : ∀ s rest, P s → P { s with pending := rest })
    (hedit : ∀ {on : LineId → Prop} {own : PortId → Prop} {s t}, Edit on own s t → P s → P t)
    (hfresh : ∀ s : State, s.Fresh → P s)
    (htick : ∀ s t, exec .timebaseAdvance s = .next t → P s → P t)
    (hset : SettingsOk s) (hstep : step s = .next t) (hs : P s) : P t := by
  obtain rfl | ⟨c, rest, hexec⟩ := step_cases hstep
  · exact hs
  have hs' := hpending s rest hs
  by_cases hreset : ∃ a b d, c = .deviceReset a b d
  · obtain ⟨a, b, d, rfl⟩ := hreset
    exact hfresh t (fresh_deviceReset hexec)
  by_cases htime : c = .timebaseAdvance
  · subst htime
    exact htick _ t hexec hs'
  · have hother : ∀ a b d, c ≠ .deviceReset a b d := fun a b d e => hreset ⟨a, b, d, e⟩
    obtain ⟨u, hu, hedits⟩ := exec_edits c { s with pending := rest } hset hother htime
    obtain rfl := Outcome.next.inj (hu.symm.trans hexec)
    exact hedits.invariant hedit hs'

/-- Every line at an advance of the timebase. -/
theorem line_timebaseAdvance (h : exec .timebaseAdvance s = .next t) (l : LineId) :
    t.line l = (s.line l).tick (s.timebase + 1) := by
  obtain rfl := Outcome.next.inj h
  simp [State.line]

theorem port_timebaseAdvance (h : exec .timebaseAdvance s = .next t) (p : PortId) : t.port p = s.port p := by
  obtain rfl := Outcome.next.inj h
  rfl

theorem freePages_timebaseAdvance (h : exec .timebaseAdvance s = .next t) : t.freePages = s.freePages := by
  obtain rfl := Outcome.next.inj h
  rfl

/-- Every step keeps the settings in range. -/
theorem step_settingsOk (hset : SettingsOk s) (hstep : step s = .next t) : SettingsOk t :=
  step_keeps (P := SettingsOk) (fun _ _ h => h) Edit.settings_ok (fun _ => State.Fresh.settingsOk)
    (fun _ _ h hs l => by rw [line_timebaseAdvance h]; exact hs l) hset hstep hset

theorem step_queueBound (hset : SettingsOk s) (h : QueueBound s) (hstep : step s = .next t) : QueueBound t :=
  step_keeps (P := QueueBound) (fun _ _ h => h) Edit.queueBound (fun _ => State.Fresh.queueBound)
    (fun _ _ h hs l => by rw [line_timebaseAdvance h]; exact hs l) hset hstep h

theorem step_attachmentTable (hset : SettingsOk s) (h : AttachmentTable s) (hstep : step s = .next t) : AttachmentTable t :=
  step_keeps (P := AttachmentTable) (fun _ _ h => h) Edit.attachmentTable (fun _ => State.Fresh.attachmentTable)
    (fun _ _ h hs l => by rw [line_timebaseAdvance h]; exact hs l) hset hstep h

theorem step_causeOrder (hset : SettingsOk s) (h : CauseOrder s) (hstep : step s = .next t) : CauseOrder t :=
  step_keeps (P := CauseOrder) (fun _ _ h => h) Edit.causeOrder (fun _ => State.Fresh.causeOrder)
    (fun _ _ h hs p => by rw [port_timebaseAdvance h]; exact hs p) hset hstep h

theorem step_pagePartition (hset : SettingsOk s) (h : PagePartition s) (hstep : step s = .next t) : PagePartition t :=
  step_keeps (P := PagePartition) (fun _ _ h => h) Edit.pagePartition (fun _ => State.Fresh.pagePartition)
    (fun s t h hs => hs.of_count fun n =>
      countPage_of_same (freePages_timebaseAdvance h) (fun l => by rw [line_timebaseAdvance h]; rfl) n) hset hstep h

theorem step_quotaBounds (hset : SettingsOk s) (h : QuotaBounds s) (hstep : step s = .next t) : QuotaBounds t :=
  step_keeps (P := QuotaBounds) (fun _ _ h => h) Edit.quotaBounds (fun _ => State.Fresh.quotaBounds)
    (fun s t h hs => by
      rw [quotaBounds_iff] at hs ⊢
      simp only [line_timebaseAdvance h, freePages_timebaseAdvance h]
      exact hs) hset hstep h

theorem step_logKept (hset : SettingsOk s) (h : LogKept s) (hstep : step s = .next t) : LogKept t :=
  step_keeps (P := LogKept) (fun _ _ h => h) Edit.logKept (fun _ => State.Fresh.logKept)
    (fun _ _ h hs l => by rw [line_timebaseAdvance h]; exact hs l) hset hstep h

/-- Settles O57: the partition and the bounds are kept by each edit, by a device reset and by an advance of the timebase. -/
theorem everyStepKeepsThePages : Obligations.EveryStepKeepsThePages := fun _ _ hset hpages hquota hstep =>
  ⟨step_pagePartition hset hpages hstep, step_quotaBounds hset hquota hstep⟩

/-- Settles O58: a log is kept by each edit, by a device reset and by an advance of the timebase. -/
theorem everyStepKeepsTheLogs : Obligations.EveryStepKeepsTheLogs := fun _ _ hset hlog hstep => step_logKept hset hlog hstep

/-- Settles O1, which is how a step is defined on each queue. -/
theorem stepTakesTheFrontCommand : Obligations.StepTakesTheFrontCommand := by
  constructor
  · intro c rest s hpending
    rw [step, hpending]
  · intro s hpending
    rw [step, hpending]

end Sys2Proof.Machine
end

section
/-! Proofs: what writing records, reports and evaluations leave as it was, whatever the length of the records. -/

namespace Sys2Proof.Machine

variable {l : LineId} {s t u : State}

/-! ## Attachments changed in their marks -/

theorem Attachment.Marked.refl (a : Attachment) : a.Marked a := ⟨rfl, rfl⟩

theorem Attachment.Marked.trans {a b c : Attachment} (h : a.Marked b) (k : b.Marked c) : a.Marked c := by
  obtain ⟨hab, hmode⟩ := h
  obtain ⟨hbc, hmode'⟩ := k
  refine ⟨?_, hmode'.trans hmode⟩
  rw [hab] at hbc
  exact hbc

theorem Attachment.Marked.standing {a b : Attachment} (h : a.Marked b) : b.standing = a.standing := by
  obtain ⟨hab, hmode⟩ := h
  simp only [Attachment.standing, hmode]
  rw [hab]

theorem Attachment.Marked.port {a b : Attachment} (h : a.Marked b) : b.port = a.port := by rw [h.1]
theorem Attachment.Marked.role {a b : Attachment} (h : a.Marked b) : b.role = a.role := by rw [h.1]
theorem Attachment.Marked.latch {a b : Attachment} (h : a.Marked b) : b.latch = a.latch := by rw [h.1]
theorem Attachment.Marked.cursor {a b : Attachment} (h : a.Marked b) : b.cursor = a.cursor := by rw [h.1]
theorem Attachment.Marked.lossless {a b : Attachment} (h : a.Marked b) : b.lossless = a.lossless := by rw [h.1]

/-- Two states before and after records are written on a line: everything that work leaves stays, and the attachments change in
their overtaken marks and armed flags alone. -/
structure Recorded (l : LineId) (s t : State) : Prop where
  frame : WorkFrame l s t
  marked : ∃ g : Attachment → Attachment, (∀ a : Attachment, a.Marked (g a)) ∧ (t.line l).att.list = (s.line l).att.list.map g

namespace Recorded

theorem of_frame (frame : WorkFrame l s t) (hlist : (t.line l).att.list = (s.line l).att.list) : Recorded l s t :=
  ⟨frame, id, Attachment.Marked.refl, by simpa using hlist⟩

theorem refl (l : LineId) (s : State) : Recorded l s s := of_frame (.refl l s) rfl

theorem trans (h : Recorded l s t) (k : Recorded l t u) : Recorded l s u := by
  obtain ⟨hframe, g, hg, hlist⟩ := h
  obtain ⟨kframe, g', hg', hlist'⟩ := k
  exact ⟨hframe.trans kframe, g' ∘ g, fun a => (hg a).trans (hg' _), by rw [hlist', hlist, List.map_map]⟩

/-- A change of the line, and of the free list, in its log, its pages, its hold or its transmitter's state. -/
theorem of_line (s : State) (n : List Nat) (f : Line → Line) (hatt : (f (s.line l)).att = (s.line l).att)
    (hframe : WorkFrame l s (({ s with freePages := n } : State).modLine l f)) :
    Recorded l s (({ s with freePages := n } : State).modLine l f) := by
  refine of_frame hframe ?_
  have hline : (({ s with freePages := n } : State).modLine l f).line l = f (s.line l) := State.line_modLine_self _ _ _
  rw [hline, hatt]

theorem of_step (w : WorkStep l s t) : Recorded l s t := by
  have hframe := w.frame
  cases w with
  | post p k d => exact of_frame hframe rfl
  | unpost p k => exact of_frame hframe rfl
  | mark g h => exact ⟨hframe, g, h, by simp⟩
  | quiet f h =>
    refine of_line s s.freePages f ?_ hframe
    rw [h]
  | give n rest ho hn hm hf => exact of_line s rest _ rfl hframe
  | recycle oldest rest ho hn hz hp => exact of_line s s.freePages _ rfl hframe
  | place kind cause detail body ho hp hr => exact of_line s s.freePages _ rfl hframe
  | close o cause detail ho => exact of_line s s.freePages _ rfl hframe

theorem of_work (w : Work l s t) : Recorded l s t := w.keeps (refl l) trans of_step

/-! ### What stays, part by part -/

theorem pending (h : Recorded l s t) : t.pending = s.pending := h.frame.1
theorem timebase (h : Recorded l s t) : t.timebase = s.timebase := h.frame.2.1

theorem other (h : Recorded l s t) {k : LineId} (hk : k ≠ l) : t.line k = s.line k := h.frame.2.2.2.2.1 k hk

theorem causes (h : Recorded l s t) (p : PortId) : ∃ cs, t.port p = { s.port p with causes := cs }
    ∧ cs.filter (fun c => decide (c.line ≠ l)) = (s.port p).causes.filter fun c => decide (c.line ≠ l) :=
  h.frame.2.2.2.2.2.1 p

theorem sameBlock (h : Recorded l s t) (p : PortId) : (s.port p).SameBlock (t.port p) := by
  obtain ⟨cs, hcs, -⟩ := h.causes p
  rw [hcs]
  rfl

theorem io (h : Recorded l s t) : (t.line l).io = (s.line l).io := h.frame.2.2.2.2.2.2.1
theorem cond (h : Recorded l s t) : (t.line l).cond = (s.line l).cond := h.frame.2.2.2.2.2.2.2.1
theorem watch (h : Recorded l s t) : (t.line l).watch = (s.line l).watch := h.frame.2.2.2.2.2.2.2.2.1
theorem leaseTimer (h : Recorded l s t) : (t.line l).att.leaseTimer = (s.line l).att.leaseTimer :=
  h.frame.2.2.2.2.2.2.2.2.2.1
theorem queue (h : Recorded l s t) : (t.line l).tx.queue = (s.line l).tx.queue := h.frame.2.2.2.2.2.2.2.2.2.2.1
theorem pause (h : Recorded l s t) : (t.line l).tx.pause = (s.line l).tx.pause := h.frame.2.2.2.2.2.2.2.2.2.2.2.1
theorem drainMark (h : Recorded l s t) : (t.line l).tx.drainMark = (s.line l).tx.drainMark :=
  h.frame.2.2.2.2.2.2.2.2.2.2.2.2.1
theorem waiting (h : Recorded l s t) : (t.line l).tx.waiting = (s.line l).tx.waiting :=
  h.frame.2.2.2.2.2.2.2.2.2.2.2.2.2.1
theorem reserve (h : Recorded l s t) : (t.line l).pool.reserve = (s.line l).pool.reserve :=
  h.frame.2.2.2.2.2.2.2.2.2.2.2.2.2.2.1
theorem limit (h : Recorded l s t) : (t.line l).pool.limit = (s.line l).pool.limit :=
  h.frame.2.2.2.2.2.2.2.2.2.2.2.2.2.2.2.1
theorem opened (h : Recorded l s t) (ho : (s.line l).cap.opened = none) : (t.line l).cap.opened = none :=
  h.frame.2.2.2.2.2.2.2.2.2.2.2.2.2.2.2.2 ho

theorem standing (h : Recorded l s t) :
    (t.line l).att.list.map Attachment.standing = (s.line l).att.list.map Attachment.standing := by
  obtain ⟨-, g, hg, hlist⟩ := h
  rw [hlist, List.map_map]
  exact List.map_congr_left fun a _ => (hg a).standing

theorem latches (h : Recorded l s t) : (t.line l).latches = (s.line l).latches := by
  obtain ⟨-, g, hg, hlist⟩ := h
  rw [Line.latches, hlist, List.map_map]
  exact List.map_congr_left fun a _ => (hg a).latch

theorem recordFrame (h : Recorded l s t) : (s.line l).RecordFrame (t.line l) :=
  ⟨h.io, h.cond, h.watch, h.leaseTimer, h.standing, h.queue, h.pause, h.drainMark, h.waiting, h.reserve, h.limit⟩

/-- The attachment of a port stands with the same holdings. -/
theorem attachment (h : Recorded l s t) (p : PortId) : ∃ g : Attachment → Attachment, (∀ a : Attachment, a.Marked (g a))
    ∧ (t.line l).attachment p = ((s.line l).attachment p).map g := by
  obtain ⟨-, g, hg, hlist⟩ := h
  refine ⟨g, hg, ?_⟩
  rw [Line.attachment, Line.attachment, hlist, List.find?_map]
  congr 2
  funext a
  simp [(hg a).port]

theorem writer (h : Recorded l s t) : (t.line l).writer = (s.line l).writer := by
  obtain ⟨-, g, hg, hlist⟩ := h
  have hrole : ((fun a : Attachment => decide (a.role = .writer)) ∘ g) = fun a => decide (a.role = .writer) := by
    funext a
    simp [(hg a).role]
  rw [Line.writer, Line.writer, hlist, List.find?_map, hrole, Option.map_map]
  congr 1
  funext a
  exact (hg a).port

end Recorded

/-! ## Records of any length -/

theorem noted_recorded (h : Noted l s t) : Recorded l s t := .of_work h.1

theorem giveFree_recorded (s : State) (number : Nat) (rest : List Nat) : Recorded l s (giveFree s l number rest) :=
  .of_line s rest _ rfl (.of_line s rest _ rfl rfl rfl rfl rfl rfl rfl rfl rfl rfl id)

theorem recyclePage_recorded (s : State) (oldest : Page) (rest : List Page) :
    Recorded l s (recyclePage s l oldest rest) :=
  .of_line s s.freePages _ rfl (.of_line s s.freePages _ rfl rfl rfl rfl rfl rfl rfl rfl rfl rfl id)

theorem requestPage_recorded (s : State) : Recorded l s (requestPage s l).1 := by
  unfold requestPage
  split
  · exact giveFree_recorded s _ _
  · split
    · exact .refl l s
    · split
      · exact .refl l s
      · exact (recyclePage_recorded s _ _).trans (noted_recorded (reportAdvance_noted _ _))

theorem ensureRoom_recorded (s : State) (bytes : Nat) : Recorded l s (ensureRoom s l bytes).1 := by
  unfold ensureRoom
  split
  · exact .refl l s
  · exact requestPage_recorded s

theorem placeRecord_recorded (s : State) (kind : RecordKind) (cause detail : Byte) (body : List Byte) :
    Recorded l s (placeRecord s l kind cause detail body) :=
  .of_line s s.freePages _ rfl (.of_line s s.freePages _ rfl rfl rfl rfl rfl rfl rfl rfl rfl rfl id)

theorem writeRecord_recorded (s : State) (kind : RecordKind) (cause detail : Byte) (body : List Byte) (discard : State → State)
    (hd : ∀ t, Recorded l t (discard t)) : Recorded l s (writeRecord s l kind cause detail body discard) := by
  have hroom := ensureRoom_recorded (l := l) s (Config.header + body.length)
  unfold writeRecord
  split
  · rename_i t e
    rw [e] at hroom
    exact (hroom.trans (placeRecord_recorded t _ _ _ _)).trans (.of_work (reportComplete_work _))
  · rename_i t e
    rw [e] at hroom
    exact hroom.trans (hd t)

theorem writePieces_recorded (source : Byte) (pieces : List (List Byte)) :
    ∀ s : State, Recorded l s (writePieces l source pieces s) := by
  induction pieces with
  | nil => exact .refl l
  | cons piece pieces ih =>
    intro s
    exact (writeRecord_recorded s _ _ _ _ _ fun t => .of_work (discardChars_work t _)).trans (ih _)

theorem sentRecords_recorded (s : State) (source : Byte) (run : List Byte) : Recorded l s (sentRecords s l source run) :=
  writePieces_recorded source _ s

theorem closeOpen_recorded (s : State) (cause : CloseCause) (detail : Byte) : Recorded l s (closeOpen s l cause detail) :=
  .of_work (closeOpen_work s _ _).1

theorem flushFrozen_recorded (s : State) : Recorded l s (flushFrozen s l) := .of_work (flushFrozen_work s)

theorem groupSent_recorded (s : State) (source : Byte) (run : List Byte) : Recorded l s (groupSent s l source run) := by
  unfold groupSent
  split
  · exact (closeOpen_recorded s _ _).trans (sentRecords_recorded _ source run)
  · exact .refl l s

theorem plainSent_recorded (s : State) (source : Byte) (run : List Byte) : Recorded l s (plainSent s l source run) := by
  unfold plainSent
  split
  · exact (((closeOpen_recorded s _ _).trans (flushFrozen_recorded _)).trans (sentRecords_recorded _ source run)).trans
      (flushFrozen_recorded _)
  · exact .refl l s

/-- A whole argument list of any length may follow an event: the work of an event record asks nothing of its length here. -/
theorem placeEvent_recorded (s : State) (e : Event) (argument : List Byte) : Recorded l s (placeEvent s l e argument) :=
  writeRecord_recorded s _ _ _ _ _ fun t => .of_work (discardEvent_work t)

theorem groupEvent_recorded (s : State) (e : Event) (argument : List Byte) : Recorded l s (groupEvent s l e argument) :=
  (closeOpen_recorded s _ _).trans (placeEvent_recorded _ e argument)

theorem plainEvent_recorded (s : State) (e : Event) (argument : List Byte) : Recorded l s (plainEvent s l e argument) :=
  (((closeOpen_recorded s _ _).trans (flushFrozen_recorded _)).trans (placeEvent_recorded _ e argument)).trans
    (flushFrozen_recorded _)

theorem settle_recorded (s : State) : Recorded l s (settle s l) := .of_work (settle_work s)

theorem askEvaluation_recorded (s : State) : Recorded l s (askEvaluation s l) := .of_work (askEvaluation_work s)

theorem event_recorded (s : State) (e : Event) (argument : List Byte) : Recorded l s (event s l e argument) :=
  (plainEvent_recorded s e argument).trans (settle_recorded _)

/-! ## The working marks after a settling -/

/-- The working marks of a line are clear (log 10). -/
def Line.unmarked (x : Line) : Prop := x.pool.frozenDue = false ∧ x.hold.evalDue = false

theorem frozenDue_of_flushFrozen (h : ((flushFrozen s l).line l).hold.evalDue = false) : (s.line l).pool.frozenDue = false := by
  by_contra hdue
  rw [flushFrozen, if_pos (Bool.not_eq_false _ ▸ hdue)] at h
  simp at h

theorem settleWithin_unmarked (k : Nat) : ∀ s : State, ((settleWithin k s l).line l).unmarked := by
  induction k with
  | zero =>
    intro s
    simp [settleWithin, clearMarks, Line.unmarked]
  | succ k ih =>
    intro s
    rw [settleWithin]
    split
    · exact ih _
    · rename_i heval
      have heval' := Bool.not_eq_true _ ▸ heval
      have hdue := frozenDue_of_flushFrozen heval'
      have hsame : flushFrozen s l = s := by simp [flushFrozen, hdue]
      rw [hsame] at heval' ⊢
      exact ⟨hdue, heval'⟩

/-- A settled line has its working marks clear. -/
theorem settle_unmarked (s : State) : ((settle s l).line l).unmarked := settleWithin_unmarked 8 s

/-- Where nothing is due, a settling does nothing. -/
theorem settle_of_unmarked (h : (s.line l).unmarked) : settle s l = s := by
  obtain ⟨hdue, heval⟩ := h
  simp [settle, settleWithin, flushFrozen, hdue, heval]

end Sys2Proof.Machine
end

section
/-! Proofs: operations of a line that are sound: they leave the roles and the waiting SEND, keep the causes that stand with what
they tell, and leave no working mark. -/

namespace Sys2Proof.Machine

variable {l : LineId} {s t u : State}

/-! ## Calm operations -/

/-- The ports that hold attachments on a line, with their roles. -/
def Line.roles (x : Line) : List (PortId × Role) := x.att.list.map fun a => (a.port, a.role)

theorem Line.writer_eq_roles (x : Line) : x.writer = (x.roles.find? fun r => decide (r.2 = .writer)).map (·.1) := by
  rw [Line.writer, Line.roles, List.find?_map, Option.map_map]
  rfl

/-- A line before and after an operation that leaves the waiting SEND or SEND BREAK and the roles, and makes no drain mark. -/
structure Line.Calm (x y : Line) : Prop where
  waiting : y.tx.waiting = x.tx.waiting
  roles : y.roles = x.roles
  drain : ∀ p, y.tx.drainMark = some p → x.tx.drainMark = some p

theorem Line.Calm.refl (x : Line) : x.Calm x := ⟨rfl, rfl, fun _ => id⟩

theorem Line.Calm.trans {x y z : Line} (h : x.Calm y) (k : y.Calm z) : x.Calm z :=
  ⟨k.waiting.trans h.waiting, k.roles.trans h.roles, fun p hp => h.drain p (k.drain p hp)⟩

theorem Line.Calm.writer {x y : Line} (h : x.Calm y) : y.writer = x.writer := by
  rw [Line.writer_eq_roles, Line.writer_eq_roles, h.roles]

/-- The state before and after an operation of a line: other lines stay, and so do the ports, but for causes of the line. -/
structure OnLine (l : LineId) (s t : State) : Prop where
  other : ∀ k, k ≠ l → t.line k = s.line k
  causes : ∀ p, ∃ cs, t.port p = { s.port p with causes := cs }
    ∧ cs.filter (fun c => decide (c.line ≠ l)) = (s.port p).causes.filter fun c => decide (c.line ≠ l)

namespace OnLine

theorem refl (l : LineId) (s : State) : OnLine l s s := ⟨fun _ _ => rfl, fun _ => ⟨_, rfl, rfl⟩⟩

theorem trans (h : OnLine l s t) (k : OnLine l t u) : OnLine l s u := by
  refine ⟨fun j hj => (k.other j hj).trans (h.other j hj), fun p => ?_⟩
  obtain ⟨cs, hport, hcs⟩ := h.causes p
  obtain ⟨ds, kport, hds⟩ := k.causes p
  rw [hport] at kport hds
  exact ⟨ds, kport, hds.trans hcs⟩

/-- A change of the line, and of no port. -/
theorem of_lines (other : ∀ k, k ≠ l → t.line k = s.line k) (ports : ∀ p, t.port p = s.port p) : OnLine l s t :=
  ⟨other, fun p => ⟨_, ports p, rfl⟩⟩

theorem modLine (s : State) (f : Line → Line) : OnLine l s (s.modLine l f) :=
  of_lines (fun _ hk => State.line_modLine_ne _ _ _ _ hk) fun _ => rfl

theorem sameBlock (h : OnLine l s t) (p : PortId) : (s.port p).SameBlock (t.port p) := by
  obtain ⟨cs, hport, -⟩ := h.causes p
  rw [hport]
  rfl

theorem phase (h : OnLine l s t) (p : PortId) : (t.port p).phase = (s.port p).phase := by rw [h.sameBlock p]

/-- The causes of a port for another line stay. -/
theorem causes_other (h : OnLine l s t) {k : LineId} (hk : k ≠ l) (p : PortId) (c : Cause) (hc : c.line = k) :
    c ∈ (t.port p).causes ↔ c ∈ (s.port p).causes := by
  obtain ⟨cs, hport, hcs⟩ := h.causes p
  have hmem : c ∈ cs.filter (fun c => decide (c.line ≠ l)) ↔ c ∈ (s.port p).causes.filter fun c => decide (c.line ≠ l) := by
    rw [hcs]
  rw [hport]
  simpa [hc, hk] using hmem

end OnLine

/-- The state before and after a calm operation of a line. -/
structure Calm (l : LineId) (s t : State) : Prop extends OnLine l s t where
  line : (s.line l).Calm (t.line l)

namespace Calm

theorem refl (l : LineId) (s : State) : Calm l s s := ⟨.refl l s, .refl _⟩

theorem trans (h : Calm l s t) (k : Calm l t u) : Calm l s u := ⟨h.toOnLine.trans k.toOnLine, h.line.trans k.line⟩

theorem of_recorded (h : Recorded l s t) : Calm l s t where
  other _ := h.other
  causes := h.causes
  line := by
    refine ⟨h.waiting, ?_, fun p hp => h.drainMark ▸ hp⟩
    obtain ⟨g, hg, hlist⟩ := h.marked
    rw [Line.roles, hlist, List.map_map]
    exact List.map_congr_left fun a _ => by simp [(hg a).port, (hg a).role]

theorem of_work (w : Work l s t) : Calm l s t := of_recorded (.of_work w)

theorem modLine (s : State) (f : Line → Line) (h : (s.line l).Calm (f (s.line l))) : Calm l s (s.modLine l f) :=
  ⟨.modLine s f, by rw [State.line_modLine_self]; exact h⟩

/-- A change of the transmit unit that makes no drain mark and leaves what waits. -/
theorem modTx (s : State) (f : Transmit → Transmit) (hw : (f (s.line l).tx).waiting = (s.line l).tx.waiting)
    (hd : ∀ p, (f (s.line l).tx).drainMark = some p → (s.line l).tx.drainMark = some p) : Calm l s (s.modTx l f) :=
  modLine s _ ⟨hw, rfl, hd⟩

theorem modAttachments (s : State) (g : Attachment → Attachment) (hg : ∀ a : Attachment, (g a).port = a.port ∧ (g a).role = a.role) :
    Calm l s (s.modAtt l fun x => { x with list := x.list.map g }) := by
  refine modLine s _ ⟨rfl, ?_, fun _ => id⟩
  simp only [Line.roles, List.map_map]
  exact List.map_congr_left fun a _ => by simp [(hg a).1, (hg a).2]

theorem modAttachment (s : State) (p : PortId) (g : Attachment → Attachment)
    (hg : ∀ a : Attachment, (g a).port = a.port ∧ (g a).role = a.role) : Calm l s (s.modAttachment l p g) := by
  refine modAttachments s _ fun a => ?_
  split
  · exact hg a
  · exact ⟨rfl, rfl⟩

theorem post (s : State) (p : PortId) (k : CauseKind) (d : Nat) : Calm l s (s.post p k l d) := of_work (.one (.post s p k d))

theorem unpost (s : State) (p : PortId) (k : CauseKind) : Calm l s (s.unpost p k l) := of_work (.one (.unpost s p k))

theorem each (f : State → PortId → State) (h : ∀ s p, Calm l s (f s p)) (s : State) : Calm l s (eachPort f s) :=
  ((h s 0).trans (h _ 1)).trans (h _ 2)

theorem waiting (h : Calm l s t) (k : LineId) : (t.line k).tx.waiting = (s.line k).tx.waiting := by
  by_cases hk : k = l
  · exact hk ▸ h.line.waiting
  · rw [h.other k hk]

theorem writer (h : Calm l s t) (k : LineId) : (t.line k).writer = (s.line k).writer := by
  by_cases hk : k = l
  · exact hk ▸ h.line.writer
  · rw [h.other k hk]

theorem drainHeld (h : Calm l s t) (hd : DrainHeld s l) : DrainHeld t l := fun p hp =>
  (h.writer l).trans (hd p (h.line.drain p hp))

end Calm

/-- Causes that agree with the attachment of a port depend on which causes of the line it has, and on the line. -/
theorem Line.causesAgree_congr {x : Line} {p : PortId} {y z : Port} (h : ∀ c : Cause, c.line = l → (c ∈ z.causes ↔ c ∈ y.causes))
    (hy : x.causesAgree l p y) : x.causesAgree l p z := by
  have hcause : ∀ k, z.hasCause k l = y.hasCause k l := by
    intro k
    rw [Bool.eq_iff_iff, Port.hasCause_iff, Port.hasCause_iff]
    exact exists_congr fun c => and_congr_left fun hc => h c hc.2
  unfold Line.causesAgree at hy ⊢
  split at hy
  · exact fun c hc hl => hy c ((h c hl).mp hc) hl
  · simpa only [hcause] using hy

/-- The causes of a port for another line agree after an operation of a line as they did before it. -/
theorem OnLine.agree_other (h : OnLine l s t) {k : LineId} (hk : k ≠ l) {p : PortId}
    (hs : (s.line k).causesAgree k p (s.port p)) : (t.line k).causesAgree k p (t.port p) := by
  rw [h.other k hk]
  exact Line.causesAgree_congr (fun c hc => h.causes_other hk p c hc) hs

/-! ## Sound operations -/

/-- A calm operation of a line that keeps the causes that stand with what they tell and leaves no working mark. -/
structure Sound (l : LineId) (s t : State) : Prop where
  calm : Calm l s t
  told : DrainHeld s l → CausesTold s l → CausesTold t l
  clear : (s.line l).unmarked → (t.line l).unmarked

namespace Sound

theorem refl (l : LineId) (s : State) : Sound l s s := ⟨.refl l s, fun _ => id, id⟩

theorem trans (h : Sound l s t) (k : Sound l t u) : Sound l s u :=
  ⟨h.calm.trans k.calm, fun hd hs => k.told (h.calm.drainHeld hd) (h.told hd hs), fun hs => k.clear (h.clear hs)⟩

/-- A calm operation that keeps what is told is sound once the line is settled. -/
theorem settled (calm : Calm l s t) (told : DrainHeld s l → CausesTold s l → CausesTold t l) : Sound l s (settle t l) :=
  ⟨calm.trans (.of_work (settle_work t)), fun hd hs => settle_told (told hd hs), fun _ => settle_unmarked t⟩

/-- A change of a line in anything but its attachments, its closed records and its oldest number. -/
theorem modLine (s : State) (f : Line → Line) (hatt : (f (s.line l)).att.list = (s.line l).att.list)
    (hclosed : (f (s.line l)).closed = (s.line l).closed) (hold : (f (s.line l)).cap.oldest = (s.line l).cap.oldest)
    (hwait : (f (s.line l)).tx.waiting = (s.line l).tx.waiting)
    (hdrain : ∀ p, (f (s.line l)).tx.drainMark = some p → (s.line l).tx.drainMark = some p)
    (hmarks : (s.line l).unmarked → (f (s.line l)).unmarked) : Sound l s (s.modLine l f) where
  calm := .modLine s f ⟨hwait, by rw [Line.roles, hatt, Line.roles], hdrain⟩
  told _ hs := hs.line f hatt hclosed hold
  clear := by rw [State.line_modLine_self]; exact hmarks

theorem modTx (s : State) (f : Transmit → Transmit) (hw : (f (s.line l).tx).waiting = (s.line l).tx.waiting)
    (hd : ∀ p, (f (s.line l).tx).drainMark = some p → (s.line l).tx.drainMark = some p) : Sound l s (s.modTx l f) :=
  modLine s _ rfl rfl rfl hw hd id

theorem modCond (s : State) (f : Condition → Condition) : Sound l s (s.modCond l f) :=
  modLine s _ rfl rfl rfl rfl (fun _ => id) id

theorem modIo (s : State) (f : Interface → Interface) : Sound l s (s.modIo l f) :=
  modLine s _ rfl rfl rfl rfl (fun _ => id) id

theorem modHold (s : State) (f : Hold → Hold) (hf : (f (s.line l).hold).evalDue = (s.line l).hold.evalDue) :
    Sound l s (s.modHold l f) :=
  modLine s _ rfl rfl rfl rfl (fun _ => id) fun h => ⟨h.1, hf.trans h.2⟩

end Sound

/-! ## The transmitter -/

theorem event_sound (s : State) (e : Event) (argument : List Byte) : Sound l s (event s l e argument) :=
  .settled (.of_recorded (plainEvent_recorded s e argument)) fun _ hs => plainEvent_told e argument hs

theorem askEvaluation_sound (s : State) : Sound l s (askEvaluation s l) :=
  .settled (.of_work (quiet_hold s _)) fun _ hs => hs.hold _

theorem testDrain_calm (s : State) : Calm l s (testDrain s l) := by
  unfold testDrain
  split
  · exact (Calm.post s _ .drained 0).trans (.modTx _ _ rfl fun _ h => absurd h nofun)
  · exact .refl l s

theorem unmarked_testDrain (h : (s.line l).unmarked) : ((testDrain s l).line l).unmarked := by
  unfold testDrain
  split
  · rw [State.modTx_eq, State.line_modLine_self]
    exact h
  · exact h

theorem testDrain_sound (s : State) : Sound l s (testDrain s l) :=
  ⟨testDrain_calm s, testDrain_told, unmarked_testDrain⟩

theorem startPoint_sound (s : State) : Sound l s (startPoint s l) := by
  have huse : Sound l s (s.modLine l fun x => { x with tx := { x.tx with inUse := x.io.inForce.txUse } }) :=
    .modLine s _ rfl rfl rfl rfl (fun _ => id) id
  have taken : ∀ f : Transmit → Transmit, (∀ x, (f x).waiting = x.waiting) → (∀ x, (f x).drainMark = x.drainMark) →
      Sound l s ((s.modLine l fun x => { x with tx := { x.tx with inUse := x.io.inForce.txUse } }).modTx l f) := fun f hw hd =>
    huse.trans (.modTx _ f (hw _) fun p hp => hd _ ▸ hp)
  unfold startPoint
  dsimp only
  split
  · exact taken _ (fun _ => rfl) fun _ => rfl
  · split
    · exact taken _ (fun _ => rfl) fun _ => rfl
    · split
      · exact taken _ (fun _ => rfl) fun _ => rfl
      · refine Sound.trans ?_ (testDrain_sound _)
        exact taken _ (fun _ => rfl) fun _ => rfl
      · refine Sound.trans (Sound.trans ?_ (testDrain_sound _)) (event_sound _ _ _)
        exact taken _ (fun _ => rfl) fun _ => rfl

theorem kickTransmitter_sound (s : State) : Sound l s (kickTransmitter s l) := by
  unfold kickTransmitter
  split
  · exact startPoint_sound s
  · exact .refl l s

theorem setPause_sound (s : State) : Sound l s (setPause s l) := .modTx s _ rfl fun _ => id

theorem endPause_sound (s : State) : Sound l s (endPause s l) := by
  have hpause : Sound l s (s.modTx l fun x => { x with pause := false }) := .modTx s _ rfl fun _ => id
  unfold endPause
  dsimp only
  split
  · exact hpause.trans (startPoint_sound _)
  · exact hpause

theorem refreshTransmitter_sound (s : State) : Sound l s (refreshTransmitter s l) := by
  refine .modLine s _ ?_ ?_ ?_ ?_ ?_ ?_ <;> split <;> simp [Line.closed, Line.unmarked]

theorem restartLease_sound (s : State) : Sound l s (restartLease s l) :=
  .modLine s _ rfl rfl rfl rfl (fun _ => id) id

theorem dropDrainMark_sound (s : State) : Sound l s (dropDrainMark s l) := .modTx s _ rfl fun _ h => absurd h nofun

theorem waiting_cutBreak (x : Line) : (cutBreak x).waiting = x.tx.waiting := by
  unfold cutBreak
  split <;> rfl

theorem drainMark_cutBreak (x : Line) : (cutBreak x).drainMark = x.tx.drainMark := by
  unfold cutBreak
  split <;> rfl

theorem emptyQueue_sound (s : State) : Sound l s (emptyQueue s l) :=
  .modLine s _ rfl rfl rfl (waiting_cutBreak _) (fun _ h => absurd h nofun) id

theorem resetTransmit_sound (s : State) : Sound l s (resetTransmit s l) := by
  have hempty : Sound l s ((emptyQueue s l).modTx l fun x => { x with flowSlot := none, pause := false }) :=
    (emptyQueue_sound s).trans (.modTx _ _ rfl fun _ => id)
  unfold resetTransmit
  dsimp only
  split
  · exact hempty.trans (startPoint_sound _)
  · exact hempty.trans (startPoint_sound _)
  all_goals exact hempty

theorem placeFlow_sound (s : State) (c : FlowChar) : Sound l s (placeFlow s l c) := by
  unfold placeFlow
  split
  · exact .refl l s
  · split
    · exact .modLine s _ rfl rfl rfl rfl (fun _ => id) id
    · exact .modTx s _ rfl fun _ => id

theorem leaveHold_sound (s : State) (h : HoldState) : Sound l s (leaveHold s l h) :=
  .modHold s _ rfl

theorem tellHold_sound (s : State) : Sound l s (tellHold s l) := by
  unfold tellHold
  split
  · exact leaveHold_sound s _
  · exact leaveHold_sound s _
  · exact .refl l s

/-! ## Condition events -/

theorem latchEvent_calm (e : CondEvent) (s : State) (p : PortId) : Calm l s (latchEvent e l s p) := by
  have hlatch : Calm l s (s.modAttachment l p fun x => { x with latch := x.latch ||| e.bit }) :=
    .modAttachment s p _ fun _ => ⟨rfl, rfl⟩
  unfold latchEvent
  split
  · exact .refl l s
  · dsimp only
    split
    · exact hlatch.trans (.post _ p .condition 0)
    · exact hlatch

theorem eachLatch_told (e : CondEvent) (h : CausesTold s l) : CausesTold (eachPort (latchEvent e l) s) l :=
  eachPort_keeps _ (latchEvent_forPort e) (latchEvent_told e) h

theorem conditionEvent_sound (s : State) (e : CondEvent) (argument : List Byte) :
    Sound l s (conditionEvent s l e argument) :=
  .settled (t := plainEvent (eachPort (latchEvent e l) s) l e.event argument) ((Calm.each _ (latchEvent_calm e) s).trans (.of_recorded (plainEvent_recorded _ _ _)))
    fun _ hs => plainEvent_told _ _ (eachLatch_told e hs)

theorem groupCondition_calm (s : State) (e : CondEvent) (argument : List Byte) : Calm l s (groupCondition s l e argument) :=
  (Calm.each _ (latchEvent_calm e) s).trans (.of_recorded (groupEvent_recorded _ _ _))

/-! ## The watch unit and stored characters -/

theorem resetWatch_sound (s : State) : Sound l s (resetWatch s l) := .modLine s _ rfl rfl rfl rfl (fun _ => id) id

theorem respond_calm (s : State) (slot : Fin 4) : Calm l s (respond s l slot) := by
  unfold respond
  dsimp only
  split
  · exact .of_recorded (groupEvent_recorded s _ _)
  · split
    · exact .of_recorded (groupEvent_recorded s _ _)
    · have hqueue := fun f hw hd => Calm.modTx (l := l) s f hw hd
      exact ((hqueue _ rfl fun _ => id).trans (.of_recorded (groupSent_recorded _ _ _))).trans
        (.of_recorded (groupEvent_recorded _ _ _))

theorem respond_told (slot : Fin 4) (h : CausesTold s l) : CausesTold (respond s l slot) l := by
  unfold respond
  dsimp only
  split
  · exact groupEvent_told _ _ h
  · split
    · exact groupEvent_told _ _ h
    · exact groupEvent_told _ _ (groupSent_told _ _ (h.tx _))

theorem respondAll_calm (slots : List (Fin 4)) : ∀ s : State, Calm l s (respondAll l slots s) := by
  induction slots with
  | nil => exact .refl l
  | cons slot slots ih =>
    intro s
    rw [respondAll]
    split
    · exact (respond_calm s slot).trans (ih _)
    · exact ih s

theorem respondAll_told (slots : List (Fin 4)) : ∀ s : State, CausesTold s l → CausesTold (respondAll l slots s) l := by
  induction slots with
  | nil => exact fun _ => id
  | cons slot slots ih =>
    intro s h
    rw [respondAll]
    split
    · exact ih _ (respond_told slot h)
    · exact ih s h

theorem pages_freezeAction (v : Nat) (x : Pool) : (x.freezeAction v).pages = x.pages := by
  unfold Pool.freezeAction
  dsimp only
  split
  · rfl
  · split <;> split <;> rfl

theorem freezeAll_told (slots : List (Fin 4)) : ∀ s : State, CausesTold s l → CausesTold (freezeAll l slots s) l := by
  induction slots with
  | nil => exact fun _ => id
  | cons slot slots ih =>
    intro s h
    rw [freezeAll]
    split
    · exact ih _ (h.pool _ (pages_freezeAction _))
    · exact ih s h

theorem postWatch_told (slot : Fin 4) (p : PortId) (h : CausesTold s l) : CausesTold (postWatch slot l s p) l := by
  unfold postWatch
  split
  · exact h
  · rename_i a ha
    split
    · exact post_told .watch _ (.inr (.inl rfl)) (by rw [ha]; exact Option.some_ne_none a) h
    · exact h

theorem watchAttention_told (slots : List (Fin 4)) (h : CausesTold s l) : CausesTold (watchAttention s l slots) l := by
  unfold watchAttention
  split
  · exact h
  · exact postWatch_told _ 2 (postWatch_told _ 1 (postWatch_told _ 0 h))

theorem watchClose_told (slots : List (Fin 4)) (h : CausesTold s l) : CausesTold (watchClose s l slots) l := by
  unfold watchClose
  split
  · exact h
  · exact closeOpen_told _ _ h

theorem feedSlots_calm (s : State) (c : Byte) : Calm l s (feedSlots s l c) := .modLine s _ ⟨rfl, rfl, fun _ => id⟩

theorem actOnCharacter_calm (s : State) (c : Byte) : Calm l s (actOnCharacter s l c) := by
  have hclose := ((feedSlots_calm s c).trans (.of_work (watchClose_work (feedSlots s l c) (matchingSlots (s.line l) c)))).trans
    (.of_work (closeAtCapacity_work _))
  exact (((hclose.trans (respondAll_calm _ _)).trans (.of_work (freezeAll_work _ _))).trans
    (.of_work (flushFrozen_work _))).trans (.of_work (watchAttention_work _ _))

theorem actOnCharacter_told (c : Byte) (h : CausesTold s l) : CausesTold (actOnCharacter s l c) l := by
  have hfed : CausesTold (feedSlots s l c) l := h.line _ rfl rfl rfl
  exact watchAttention_told _ (flushFrozen_told (freezeAll_told _ _ (respondAll_told _ _
    (closeAtCapacity_told (watchClose_told _ hfed)))))

theorem openRecord_calm (s : State) (c : Byte) : Calm l s (openRecord s l c) := .modLine s _ ⟨rfl, rfl, fun _ => id⟩

theorem appendCharacter_calm (s : State) (o : OpenRecord) (c : Byte) : Calm l s (appendCharacter s l o c) :=
  .modLine s _ ⟨rfl, rfl, fun _ => id⟩

theorem placeCharacter_calm (s : State) (c : Byte) : Calm l s (placeCharacter s l c).1 := by
  have hroom := Calm.of_recorded (ensureRoom_recorded (l := l) s (Config.header + 1))
  unfold placeCharacter
  split
  · exact appendCharacter_calm s _ c
  · split
    · rename_i t e
      rw [e] at hroom
      exact hroom.trans (openRecord_calm t c)
    · rename_i t e
      rw [e] at hroom
      exact hroom.trans (.of_work (discardChars_work t 1))

theorem storeCharacter_sound (s : State) (c : Byte) : Sound l s (storeCharacter s l c) := by
  have hcalm := placeCharacter_calm (l := l) s c
  have htold : CausesTold s l → CausesTold (placeCharacter s l c).1 l := placeCharacter_told c
  unfold storeCharacter
  split
  · rename_i t e
    rw [e] at hcalm htold
    exact .settled hcalm fun _ => htold
  · rename_i t e
    rw [e] at hcalm htold
    have hacted : Sound l s (settle (actOnCharacter t l c) l) :=
      .settled (hcalm.trans (actOnCharacter_calm t c)) fun _ h => actOnCharacter_told c (htold h)
    dsimp only
    split
    · exact hacted
    · exact hacted.trans (kickTransmitter_sound _)

theorem captureErrored_sound (s : State) (r : Received) : Sound l s (settle (captureErrored s l r) l) := by
  have hwritten : Recorded l s (flushFrozen (writeRecord (closeOpen s l .error 0) l .text CloseCause.error.code r.detail [r.value]
      fun t => discardChars t l 1) l) :=
    ((closeOpen_recorded s _ _).trans (writeRecord_recorded _ _ _ _ _ _ fun t => .of_work (discardChars_work t 1))).trans
      (flushFrozen_recorded _)
  exact .settled ((Calm.of_recorded hwritten).trans (resetWatch_sound _).calm) fun _ => captureErrored_told r

/-! ## The line condition unit -/

theorem takeLevelReport_sound (s : State) (level : Level) : Sound l s (takeLevelReport s l level) := by
  unfold takeLevelReport
  split
  · exact (Sound.modCond s _).trans (conditionEvent_sound _ _ _)
  all_goals first | exact .modCond s _ | exact .refl l s

theorem seeLevel_sound (s : State) (level : Level) : Sound l s (s.modLine l (Line.seeLevel level)) :=
  .modLine s _ rfl rfl rfl rfl (fun _ => id) id

theorem startWatching_sound (s : State) (level : Level) : Sound l s (s.modLine l (Line.startWatching level)) :=
  .modLine s _ rfl rfl rfl rfl (fun _ => id) id

theorem beginHunt_sound (s : State) : Sound l s (beginHunt s l) := (Sound.modCond s _).trans (resetWatch_sound _)

theorem enterHuntState_sound (s : State) : Sound l s (enterHuntState s l) :=
  (beginHunt_sound s).trans (conditionEvent_sound _ _ _)

theorem lockRate_sound (s : State) : Sound l s (lockRate s l) := by
  have hrate : Sound l s (s.modLine l fun x =>
      { x with
        io :=
          { x.io with
            settings := { x.io.settings with divisor := (s.line l).rxDivisor }
            inForce := { x.io.inForce with divisor := (s.line l).rxDivisor } }
        cond := { x.cond with state := .run, patternProgress := 0 } }) :=
    .modLine s _ rfl rfl rfl rfl (fun _ => id) id
  exact (hrate.trans (refreshTransmitter_sound _)).trans (conditionEvent_sound _ _ _)

theorem huntCharacter_sound (s : State) (r : Received) : Sound l s (huntCharacter s l r) := by
  have hcount : Sound l s (s.modCond l fun x => { x with huntDiscard := min (x.huntDiscard + 1) 65535 }) := .modCond s _
  unfold huntCharacter
  dsimp only
  split
  · exact hcount.trans (.modCond _ _)
  · split
    · exact hcount.trans (lockRate_sound _)
    · exact hcount.trans (.modCond _ _)

theorem scoreEntry_sound (s : State) (entry : Bool) : Sound l s (scoreEntry s l entry) := by
  have hscore : Sound l s (s.modCond l fun x => { x with score := pushScore entry x.score }) := .modCond s _
  unfold scoreEntry
  dsimp only
  split
  · exact hscore.trans (enterHuntState_sound _)
  · exact hscore

theorem runCharacter_sound (s : State) (r : Received) : Sound l s (runCharacter s l r) := by
  have hnull : Sound l s (s.modCond l fun x => { x with nullPending := false }) := .modCond s _
  unfold runCharacter
  dsimp only
  split
  · exact (hnull.trans (.modCond _ _)).trans (conditionEvent_sound _ _ _)
  · split
    · exact (hnull.trans (captureErrored_sound _ r)).trans (scoreEntry_sound _ _)
    · split
      · exact hnull
      · exact (hnull.trans (storeCharacter_sound _ _)).trans (scoreEntry_sound _ _)

theorem classify_sound (s : State) (r : Received) : Sound l s (classify s l r) := by
  unfold classify
  split
  · exact .refl l s
  · split
    · exact runCharacter_sound s r
    · split
      · exact setPause_sound s
      · split
        · exact endPause_sound s
        · split
          · exact .refl l s
          · exact runCharacter_sound s r
  · exact .refl l s
  · split
    · exact .modCond s _
    · exact .refl l s
  · exact huntCharacter_sound s r

end Sys2Proof.Machine
end

section
/-! Proofs: the operations of a port's attachment, of the pool commands and of SET LINE are sound. -/

namespace Sys2Proof.Machine

variable {l : LineId} {s t u : State} {p : PortId}

/-! ## One port's attachment -/

/-- An operation of one port's attachment is sound where the causes of that port agree after it. -/
theorem Sound.forPort (calm : Calm l s t) (h : ForPort l p s t)
    (own : (s.line l).causesAgree l p (s.port p) → (t.line l).causesAgree l p (t.port p))
    (clear : (s.line l).unmarked → (t.line l).unmarked) : Sound l s t := by
  refine ⟨calm, fun _ hs => ⟨fun q => ?_⟩, clear⟩
  by_cases hq : q = p
  · exact hq ▸ own (hs.agree p)
  · exact (h.told_other hq).mpr (hs.agree q)

/-- The causes of a port agree with an attachment that is not in LEVEL mode once its marks agree. -/
theorem Line.causesAgree_of_marks {ln : Line} {x : Port} {a : Attachment} (ha : ln.attachment p = some a)
    (hmode : ∀ k, a.mode ≠ .level k) (h : ln.marksAgree l p x) : ln.causesAgree l p x :=
  (Line.causesAgree_some ha).mpr ⟨h, fun k hk => absurd hk (hmode k)⟩

theorem Line.marks_of_causesAgree {ln : Line} {x : Port} (h : ln.causesAgree l p x) : ln.marksAgree l p x :=
  ((Line.causesAgree_iff _ _ _ _).mp h).1

theorem levelData_sound (s : State) (p : PortId) : Sound l s (levelData l s p) := by
  obtain ⟨hwork, hpool, -, hhold, -⟩ := levelData_noted (l := l) s p
  refine .forPort (.of_work hwork) (levelData_forPort s p) (fun h => levelData_told s p (Line.marks_of_causesAgree h)) ?_
  simp only [Line.unmarked, hpool, hhold]
  exact id

/-- The attachments of a line are apart from its working marks. -/
theorem unmarked_modAttachment (s : State) (l : LineId) (p : PortId) (g : Attachment → Attachment) :
    ((s.modAttachment l p g).line l).unmarked ↔ (s.line l).unmarked := by
  simp [State.modAttachment_eq, Line.unmarked]

theorem unmarked_clearOvertaken (s : State) (l : LineId) (p : PortId) :
    ((clearOvertaken s l p).line l).unmarked ↔ (s.line l).unmarked := unmarked_modAttachment s l p _

/-- A port without an attachment is left by a change of its attachment. -/
theorem modAttachment_of_none (g : Attachment → Attachment) (h : (s.line l).attachment p = none) :
    s.modAttachment l p g = s := by
  have hlist : (s.line l).att.list.map (fun a => if a.port = p then g a else a) = (s.line l).att.list := by
    rw [Line.attachment, List.find?_eq_none] at h
    conv_rhs => rw [← List.map_id (s.line l).att.list]
    exact List.map_congr_left fun a ha => by simpa using fun e => absurd e (by simpa using h a ha)
  rw [State.modAttachment_eq, State.modAtt_eq]
  refine (State.modLine_congr (g := fun x => x) s l ?_).trans (State.modLine_id s l)
  simp [hlist]

/-- A cursor that moves, with a LEVEL DATA cause worked out again after it (R122, R167). -/
def moveCursor (s : State) (l : LineId) (p : PortId) (cursor : Seq) : State :=
  levelData l (s.modAttachment l p fun a => { a with cursor := cursor }) p

theorem moveCursor_sound (s : State) (p : PortId) (cursor : Seq) : Sound l s (moveCursor s l p cursor) := by
  have hcalm : Calm l s (s.modAttachment l p fun a => { a with cursor := cursor }) := .modAttachment s p _ fun _ => ⟨rfl, rfl⟩
  have hport : ForPort l p s (s.modAttachment l p fun a => { a with cursor := cursor }) := .modAttachment s p _ fun _ => rfl
  have hlevel := levelData_sound (l := l) (s.modAttachment l p fun a => { a with cursor := cursor }) p
  refine .forPort (hcalm.trans hlevel.calm) (hport.trans (levelData_forPort _ p)) (fun h => ?_)
    fun h => hlevel.clear ((unmarked_modAttachment s l p _).mpr h)
  refine levelData_told _ p ?_
  have hmarks := Line.marks_of_causesAgree h
  cases ha : (s.line l).attachment p with
  | none =>
    rw [modAttachment_of_none _ ha]
    exact hmarks
  | some a =>
    refine (Line.marksAgree_some (State.attachment_modAttachment_self (fun a => { a with cursor := cursor }) (fun _ => rfl) ha)).mpr ?_
    exact (Line.marksAgree_some ha).mp hmarks

theorem clearOvertaken_calm (s : State) (p : PortId) : Calm l s (clearOvertaken s l p) :=
  (Calm.modAttachment s p (fun a => { a with overtaken := false }) fun _ => ⟨rfl, rfl⟩).trans (.unpost _ p .overtaken)

theorem clearOvertaken_forPort (s : State) (p : PortId) : ForPort l p s (clearOvertaken s l p) :=
  (ForPort.modAttachment s p (fun a => { a with overtaken := false }) fun _ => rfl).trans (.unpost _ p .overtaken)

theorem attachment_clearOvertaken {a : Attachment} (ha : (s.line l).attachment p = some a) :
    ((clearOvertaken s l p).line l).attachment p = some { a with overtaken := false } :=
  State.attachment_modAttachment_self (fun x => { x with overtaken := false }) (fun _ => rfl) ha

/-- A mark cleared with its cause leaves both clear. -/
theorem marksAgree_clearOvertaken {a : Attachment} (ha : (s.line l).attachment p = some a)
    (hcond : (s.port p).hasCause .condition l = true ↔ a.conditionEnable = true ∧ a.latch ≠ 0)
    (hnone : a.mode = .none → (s.port p).hasCause .data l = false) :
    ((clearOvertaken s l p).line l).marksAgree l p ((clearOvertaken s l p).port p) := by
  refine (Line.marksAgree_some (attachment_clearOvertaken ha)).mpr ?_
  simp only [clearOvertaken, State.hasCause_unpost, State.port_modAttachment]
  exact ⟨by simp, by simpa using hcond, by simpa using hnone⟩

theorem testOvertaken_sound (s : State) (p : PortId) : Sound l s (testOvertaken s l p) := by
  unfold testOvertaken
  split
  · exact .refl l s
  · rename_i a ha
    have hmark : Sound l s (if (s.line l).inLog a.cursor then levelData l (clearOvertaken s l p) p else s) := by
      split
      · have hlevel := levelData_sound (l := l) (clearOvertaken s l p) p
        refine .forPort ((clearOvertaken_calm s p).trans hlevel.calm) ((clearOvertaken_forPort s p).trans (levelData_forPort _ p))
          (fun h => levelData_told _ p ?_) fun h => hlevel.clear ((unmarked_clearOvertaken s l p).mpr h)
        obtain ⟨-, hcond, hnone⟩ := (Line.marksAgree_some ha).mp (Line.marks_of_causesAgree h)
        exact marksAgree_clearOvertaken ha hcond hnone
      · exact .refl l s
    dsimp only
    split
    · exact hmark.trans (askEvaluation_sound _)
    · exact hmark

/-- A DATA cause may leave an attachment that is in FIRST mode (R166). -/
theorem unpostData_sound {a : Attachment} {armed : Bool} (ha : (s.line l).attachment p = some a) (hmode : a.mode = .first armed) :
    Sound l s (s.unpost p .data l) := by
  refine .forPort (.unpost s p .data) (.unpost s p .data) (fun h => ?_) id
  refine Line.causesAgree_of_marks (ln := (s.unpost p .data l).line l) ha (by simp [hmode]) ?_
  obtain ⟨hover, hcond, -⟩ := (Line.marksAgree_some ha).mp (Line.marks_of_causesAgree h)
  refine (Line.marksAgree_some (ln := (s.unpost p .data l).line l) ha).mpr ?_
  simp only [State.hasCause_unpost, hmode]
  exact ⟨by simpa using hover, by simpa using hcond, fun h => by cases h⟩

/-- SEEK of an attachment: the cursor, the overtaken mark and the DATA cause (R129, R166, R167). -/
theorem seek_sound (s : State) (p : PortId) (cursor : Seq) :
    Sound l s (seekData (clearOvertaken (s.modAttachment l p fun a => { a with cursor := cursor }) l p) l p) := by
  have hcursor : Calm l s (s.modAttachment l p fun a => { a with cursor := cursor }) := .modAttachment s p _ fun _ => ⟨rfl, rfl⟩
  have hport : ForPort l p s (s.modAttachment l p fun a => { a with cursor := cursor }) := .modAttachment s p _ fun _ => rfl
  have hplace : Sound l s (levelData l (clearOvertaken (s.modAttachment l p fun a => { a with cursor := cursor }) l p) p) := by
    have hlevel := levelData_sound (l := l) (clearOvertaken (s.modAttachment l p fun a => { a with cursor := cursor }) l p) p
    refine .forPort ((hcursor.trans (clearOvertaken_calm _ p)).trans hlevel.calm)
      ((hport.trans (clearOvertaken_forPort _ p)).trans (levelData_forPort _ p)) (fun h => levelData_told _ p ?_)
      fun h => hlevel.clear ((unmarked_clearOvertaken _ l p).mpr ((unmarked_modAttachment s l p _).mpr h))
    cases ha : (s.line l).attachment p with
    | none =>
      rw [modAttachment_of_none _ ha]
      rw [Line.causesAgree_none ha, Line.marksAgree, ha] at h
      have ha' : ((clearOvertaken s l p).line l).attachment p = none := by
        rw [clearOvertaken, State.line_unpost, modAttachment_of_none _ ha, ha]
      rw [Line.marksAgree, ha']
      exact fun c hc => h c (State.mem_causes_unpost.mp hc).1
    | some a =>
      have ha' := State.attachment_modAttachment_self (fun a => { a with cursor := cursor }) (fun _ => rfl) ha
      obtain ⟨-, hcond, hnone⟩ := (Line.marksAgree_some ha).mp (Line.marks_of_causesAgree h)
      exact marksAgree_clearOvertaken ha' hcond hnone
  generalize htaken : clearOvertaken (s.modAttachment l p fun a => { a with cursor := cursor }) l p = v at hplace ⊢
  unfold levelData at hplace
  unfold seekData
  split
  · rename_i hv
    simpa only [hv] using hplace
  · rename_i a hv
    simp only [hv] at hplace
    split
    · rename_i k hk
      simpa only [levelData, hv, hk] using hplace
    · rename_i b hb
      simp only [hb] at hplace
      split
      · exact hplace.trans (unpostData_sound hv hb)
      · exact hplace
    · rename_i hb
      simpa only [hb] using hplace

theorem clearLatch_sound (s : State) (p : PortId) : Sound l s (s.clearLatch l p) := by
  have hcalm : Calm l s (s.modAttachment l p fun a => { a with latch := 0 }) := .modAttachment s p _ fun _ => ⟨rfl, rfl⟩
  have hport : ForPort l p s (s.modAttachment l p fun a => { a with latch := 0 }) := .modAttachment s p _ fun _ => rfl
  refine .forPort (hcalm.trans (.unpost _ p .condition)) (hport.trans (.unpost _ p .condition)) (fun h => ?_)
    (unmarked_modAttachment s l p _).mpr
  cases ha : (s.line l).attachment p with
  | none =>
    rw [Line.causesAgree_none ha, Line.marksAgree, ha] at h
    have ha' : ((s.clearLatch l p).line l).attachment p = none := by
      rw [State.clearLatch, State.line_unpost, modAttachment_of_none _ ha, ha]
    rw [State.clearLatch, modAttachment_of_none _ ha] at ha' ⊢
    rw [Line.causesAgree_none ha', Line.marksAgree, ha']
    exact fun c hc => h c (State.mem_causes_unpost.mp hc).1
  | some a =>
    obtain ⟨hmarks, hlevel⟩ := (Line.causesAgree_some ha).mp h
    obtain ⟨hover, -, hnone⟩ := (Line.marksAgree_some ha).mp hmarks
    have hunread : ((s.clearLatch l p).line l).unread { a with latch := 0 } = (s.line l).unread a := by
      simp [Line.unread, Line.unreadRecords, Line.closed, State.clearLatch, State.modAttachment_eq]
    refine (Line.causesAgree_some (State.attachment_clearLatch ha)).mpr
      ⟨(Line.marksAgree_some (State.attachment_clearLatch ha)).mpr ?_, fun k hk => ?_⟩
    · simp only [State.clearLatch, State.hasCause_unpost, State.port_modAttachment]
      exact ⟨by simpa using hover, by simp, by simpa using hnone⟩
    · rw [hunread, ← hlevel k hk]
      simp [State.clearLatch, State.hasCause_unpost]

/-- An armed flag set, with or without a post of DATA, in FIRST mode (R166, R169). -/
theorem arm_sound {a : Attachment} (ha : (s.line l).attachment p = some a) (b : Bool) :
    Sound l s (s.modAttachment l p fun x => { x with mode := .first b }) := by
  refine .forPort (.modAttachment s p _ fun _ => ⟨rfl, rfl⟩) (.modAttachment s p _ fun _ => rfl) (fun h => ?_)
    (unmarked_modAttachment s l p _).mpr
  have ha' := State.attachment_modAttachment_self (fun x => { x with mode := .first b }) (fun _ => rfl) ha
  obtain ⟨hover, hcond, -⟩ := (Line.marksAgree_some ha).mp (Line.marks_of_causesAgree h)
  exact Line.causesAgree_of_marks ha' (by simp) ((Line.marksAgree_some ha').mpr ⟨hover, hcond, by simp⟩)

theorem postData_sound {a : Attachment} {armed : Bool} (ha : (s.line l).attachment p = some a) (hmode : a.mode = .first armed)
    (d : Nat) : Sound l s (s.post p .data l d) := by
  refine .forPort (.post s p .data d) (.post s p .data d) (fun h => ?_) id
  obtain ⟨hover, hcond, -⟩ := (Line.marksAgree_some ha).mp (Line.marks_of_causesAgree h)
  refine Line.causesAgree_of_marks (ln := (s.post p .data l d).line l) ha (by simp [hmode])
    ((Line.marksAgree_some (ln := (s.post p .data l d).line l) ha).mpr ?_)
  simp only [State.hasCause_post, hmode]
  exact ⟨by simpa using hover, by simpa using hcond, fun h => by cases h⟩

/-! ## Pages (R26, R33) -/

theorem dropPages_marks (s : State) (l : LineId) (count : Nat) : SameMarks l s (dropPages s l count) := by
  refine ⟨fun p => ?_, fun p => rfl⟩
  simp only [dropPages, State.line_modLine_self]
  rfl

theorem dropPages_calm (s : State) (l : LineId) (count : Nat) : Calm l s (dropPages s l count) where
  toOnLine := .of_lines (fun _ hk => State.line_modLine_ne _ _ _ _ hk) fun _ => rfl
  line := by
    rw [dropPages, State.line_modLine_self]
    exact ⟨rfl, rfl, fun _ => id⟩

theorem releasePages_calm (s : State) (count : Nat) : Calm l s (releasePages s l count) := by
  unfold releasePages
  split
  · exact .refl l s
  · exact (dropPages_calm s l count).trans (.of_work (reportAdvance_noted _ _).1)

theorem modPool_calm (s : State) (f : Pool → Pool) : Calm l s (s.modPool l f) := .modLine s _ ⟨rfl, rfl, fun _ => id⟩

/-- Pages released and an event record placed on what is left (R33). -/
theorem releasedEvent_calm (s : State) (count : Nat) (e : Event) (argument : List Byte) :
    Calm l s (placeEvent (releasePages s l count) l e argument) :=
  (releasePages_calm s count).trans (.of_recorded (placeEvent_recorded _ e argument))

theorem releasedEvent_told (count : Nat) (e : Event) (argument : List Byte) (h : CausesTold s l) :
    CausesTold (placeEvent (releasePages s l count) l e argument) l :=
  placeEvent_told _ _ (releasePages_told count h)

theorem clearLog_sound (s : State) (p : PortId) : Sound l s (clearLog s l p) := by
  have hclosed : Calm l s ((closeOpen s l .event 0).modPool l fun x => { x with frozen := false, frozenDue := false }) :=
    (Calm.of_recorded (closeOpen_recorded s .event 0)).trans (modPool_calm _ _)
  have htold : CausesTold s l →
      CausesTold ((closeOpen s l .event 0).modPool l fun x => { x with frozen := false, frozenDue := false }) l :=
    fun h => (closeOpen_told _ _ h).pool _ fun _ => rfl
  unfold clearLog
  dsimp only
  split
  · exact .settled ((hclosed.trans (releasedEvent_calm _ _ _ _)).trans (modPool_calm _ _))
      fun _ h => (releasedEvent_told _ _ _ (htold h)).pool _ fun _ => rfl
  · exact .settled (hclosed.trans (releasedEvent_calm _ _ _ _)) fun _ h => releasedEvent_told _ _ _ (htold h)

theorem releasePages_sound (s : State) (count : Nat) : Sound l s (releasePages s l count) where
  calm := releasePages_calm s count
  told _ h := releasePages_told count h
  clear := by
    unfold releasePages
    split
    · exact id
    · obtain ⟨-, hpool, -, hhold, -⟩ := reportAdvance_noted (l := l) (s.line l).cap.oldest (dropPages s l count)
      intro h
      rw [Line.unmarked, hpool, hhold, dropPages, State.line_modLine_self]
      exact h

theorem quota_sound (s : State) (reserve limit count : Nat) :
    Sound l s (askEvaluation (releasePages (s.modPool l fun x => { x with reserve := reserve, limit := limit }) l count) l) := by
  have hquota : Sound l s (s.modPool l fun x => { x with reserve := reserve, limit := limit }) :=
    .modLine s _ rfl rfl rfl rfl (fun _ => id) id
  exact (hquota.trans (releasePages_sound _ count)).trans (askEvaluation_sound _)

theorem askEvent_sound (s : State) (f : Pool → Pool) (hf : ∀ x : Pool, (f x).pages = x.pages) (e : Event) (argument : List Byte) :
    Sound l s (askEvaluation (plainEvent (s.modPool l f) l e argument) l) :=
  .settled (((modPool_calm s f).trans (.of_recorded (plainEvent_recorded _ e argument))).trans (.of_work (quiet_hold _ _)))
    fun _ h => (plainEvent_told _ _ (h.pool f hf)).hold _

/-! ## Settings -/

theorem formatSetEffects_sound (s : State) : Sound l s (formatSetEffects s l) := (Sound.modCond s _).trans (resetWatch_sound _)

theorem spend_sound (s : State) (n : Nat) : Sound l s { s with freeIndex := n } where
  calm := ⟨.of_lines (fun _ _ => rfl) fun _ => rfl, .refl _⟩
  told _ h := ⟨h.agree⟩
  clear := id

theorem reportLevelAfresh_sound (s : State) : Sound l s (reportLevelAfresh s l) :=
  ((spend_sound s _).trans (startWatching_sound _ _)).trans (takeLevelReport_sound _ _)

theorem eventWithHoldEnd_sound (wasHeld : Bool) (s : State) (e : Event) (argument : List Byte) :
    Sound l s (eventWithHoldEnd wasHeld s l e argument) := by
  unfold eventWithHoldEnd
  split
  · exact .settled (.of_recorded ((groupEvent_recorded s e argument).trans (groupEvent_recorded _ _ _)))
      fun _ h => groupEvent_told _ _ (groupEvent_told _ _ h)
  · exact event_sound s e argument

theorem resetReceive_sound (s : State) : Sound l s (resetReceive s l) := (Sound.modCond s _).trans (resetWatch_sound _)

theorem eachLatch_sound (e : CondEvent) (s : State) : Sound l s (eachPort (latchEvent e l) s) where
  calm := .each _ (latchEvent_calm e) s
  told _ := eachLatch_told e
  clear := by
    have hkept : ∀ (s : State) (p : PortId), ((latchEvent e l s p).line l).pool = (s.line l).pool
        ∧ ((latchEvent e l s p).line l).hold = (s.line l).hold := by
      intro s p
      unfold latchEvent
      split
      · exact ⟨rfl, rfl⟩
      · dsimp only
        split <;> simp [State.modAttachment_eq]
    simp only [Line.unmarked, eachPort, (hkept _ _).1, (hkept _ _).2]
    exact id

theorem turnLineOn_sound (s : State) : Sound l s (turnLineOn s l) := by
  have hon : Sound l s (s.modLine l fun x =>
      { x with
        io := { x.io with inForce := x.io.settings }, cond := { x.cond with state := .run }
        tx := { x.tx with pause := false, state := .idle } }) := .modLine s _ rfl rfl rfl rfl (fun _ => id) id
  have hfresh := hon.trans (refreshTransmitter_sound _)
  have hrecords : ∀ v : State, Sound l v (settle (groupEvent (formatSetEffects (groupEvent v l .lineOn []) l) l .formatSet
      (formatSetArgument (s.line l).io.settings)) l) := fun v =>
    .settled (((Calm.of_recorded (groupEvent_recorded v _ _)).trans (formatSetEffects_sound _).calm).trans
      (.of_recorded (groupEvent_recorded _ _ _)))
      fun hd h => groupEvent_told _ _ ((formatSetEffects_sound _).told
        ((Calm.of_recorded (groupEvent_recorded v _ _)).drainHeld hd) (groupEvent_told _ _ h))
  exact (hfresh.trans (hrecords _)).trans (reportLevelAfresh_sound _)

theorem applyFormat_sound (s : State) (old : Settings) : Sound l s (applyFormat s l old) := by
  unfold applyFormat
  dsimp only
  split
  · exact ((Sound.modCond s _).trans (formatSetEffects_sound _)).trans (event_sound _ _ _)
  · split
    · exact (formatSetEffects_sound s).trans (event_sound _ _ _)
    · exact .refl l s

theorem retimeLease_sound (s : State) (old : Settings) : Sound l s (retimeLease s l old) :=
  .modLine s _ rfl rfl rfl rfl (fun _ => id) id

theorem retimeHold_sound (s : State) : Sound l s (retimeHold s l) := .modLine s _ rfl rfl rfl rfl (fun _ => id) id

theorem applyMaxLength_sound (s : State) : Sound l s (applyMaxLength s l) := by
  unfold applyMaxLength
  split
  · exact .refl l s
  · split
    · exact .settled (.of_recorded (closeOpen_recorded s _ _)) fun _ h => closeOpen_told _ _ h
    · exact .refl l s

theorem applyPins_sound (s : State) (old : Settings) : Sound l s (applyPins s l old) := by
  unfold applyPins
  dsimp only
  split
  · exact reportLevelAfresh_sound s
  · exact .refl l s

theorem applyOthers_sound (s : State) (old : Settings) : Sound l s (applyOthers s l old) := by
  have htimers : ∀ f : Line → Line, (f (s.line l)).att.list = (s.line l).att.list → (f (s.line l)).closed = (s.line l).closed →
      (f (s.line l)).cap.oldest = (s.line l).cap.oldest → (f (s.line l)).tx = (s.line l).tx →
      ((s.line l).unmarked → (f (s.line l)).unmarked) →
      Sound l s (refreshTransmitter (retimeHold (retimeLease (applyMaxLength (s.modLine l f) l) l old) l) l) :=
    fun f h1 h2 h3 h4 h5 =>
      (((Sound.modLine s f h1 h2 h3 (by rw [h4]) (fun p => by rw [h4]; exact id) h5).trans (applyMaxLength_sound _)).trans
        (retimeLease_sound _ old)).trans ((retimeHold_sound _).trans (refreshTransmitter_sound _))
  unfold applyOthers
  dsimp only
  split
  · exact htimers _ rfl rfl rfl rfl id
  · refine Sound.trans ?_ (applyPins_sound _ old)
    exact htimers _ rfl rfl rfl rfl id

theorem storeSettings_sound (s : State) (old new : Settings) : Sound l s (storeSettings s l old new) := by
  have hstored : Sound l s (s.modLine l fun x =>
      { x with
        io :=
          { x.io with
            settings := new
            inForce :=
              { x.io.inForce with
                lease := new.lease, holdTimeout := new.holdTimeout, inversion := new.inversion
                flow := x.io.inForce.flow && new.flow } } }) := .modLine s _ rfl rfl rfl rfl (fun _ => id) id
  exact ((hstored.trans (retimeLease_sound _ old)).trans (retimeHold_sound _)).trans (refreshTransmitter_sound _)

/-- The lossless flags of a line cleared (R158). -/
theorem clearLossless_sound (s : State) :
    Sound l s (s.modAtt l fun x => { x with list := x.list.map fun a => { a with lossless := false } }) where
  calm := .modAttachments s _ fun _ => ⟨rfl, rfl⟩
  told := by
    refine fun _ hs => ⟨fun p => ?_⟩
    have hatt : ((s.modAtt l fun x => { x with list := x.list.map fun a => { a with lossless := false } }).line l).attachment p
        = ((s.line l).attachment p).map fun a => { a with lossless := false } := by
      simp only [State.modAtt_eq, State.line_modLine_self, Line.attachment, List.find?_map]
      rfl
    have h := hs.agree p
    unfold Line.causesAgree at h ⊢
    rw [hatt]
    cases ha : (s.line l).attachment p with
    | none =>
      rw [ha] at h
      exact h
    | some a =>
      rw [ha] at h
      simp only [State.modAtt_eq, Option.map_some, State.line_modLine_self]
      exact h
  clear := by
    rw [State.modAtt_eq, State.line_modLine_self]
    exact id

theorem turnFlowOff_sound (s : State) : Sound l s (turnFlowOff s l) := by
  have hended : Sound l s (match (s.line l).hold.state with
      | .held => event (placeFlow (leaveHold s l .none) l .xon) l .holdEnd []
      | .spent => leaveHold s l .none
      | .none => s) := by
    split
    · exact ((leaveHold_sound s _).trans (placeFlow_sound _ _)).trans (event_sound _ _ _)
    · exact leaveHold_sound s _
    · exact .refl l s
  exact (hended.trans (clearLossless_sound _)).trans (endPause_sound _)

end Sys2Proof.Machine
end

section
/-! Proofs: a rule for everything that records do to a line; the causes of every port but one, through records. -/

namespace Sys2Proof.Machine

variable {l : LineId} {s t u : State} {p : PortId}

/-! ## Rules for records and evaluations -/

/-- A line changed in its count of discarded events and in what it asks for alone; FROZEN is not asked for anew. -/
def Line.Asks (x y : Line) : Prop :=
  y = { x with
    pool :=
      { x.pool with discardedEvents := y.pool.discardedEvents, frozenDue := y.pool.frozenDue }
    hold := { x.hold with evalDue := y.hold.evalDue } }
  ∧ (y.pool.frozenDue = true → x.pool.frozenDue = true)

/-- What a relation needs in order to hold across every record that is written on a line. -/
structure WriteRule (l : LineId) (R : State → State → Prop) : Prop where
  refl : ∀ s, R s s
  trans : ∀ {s t u}, R s t → R t u → R s u
  asks : ∀ s (f : Line → Line), (s.line l).Asks (f (s.line l)) → R s (s.modLine l f)
  give : ∀ s n rest, R s (giveFree s l n rest)
  recycle : ∀ s oldest rest, (s.line l).pool.pages = oldest :: rest → R s (recycle s l oldest rest)
  place : ∀ s kind cause detail body, R s (reportComplete (placeRecord s l kind cause detail body) l)
  close : ∀ s o cause detail, (s.line l).cap.opened = some o → R s (reportComplete (closeRecord s l o cause detail) l)

namespace WriteRule

variable {R : State → State → Prop}

theorem pool (r : WriteRule l R) (s : State) (f : Pool → Pool) (h : (s.line l).Asks { s.line l with pool := f (s.line l).pool }) :
    R s (s.modPool l f) := r.asks s _ h

theorem ask (r : WriteRule l R) (s : State) (b : Bool) : R s (s.modHold l fun x => { x with evalDue := b }) := r.asks s _ ⟨rfl, id⟩

theorem requestPage (r : WriteRule l R) (s : State) : R s (requestPage s l).1 := by
  unfold Machine.requestPage
  split
  · exact r.give s _ _
  · split
    · exact r.refl s
    · split
      · exact r.refl s
      · exact r.recycle s _ _ ‹_›

theorem ensureRoom (r : WriteRule l R) (s : State) (bytes : Nat) : R s (ensureRoom s l bytes).1 := by
  unfold Machine.ensureRoom
  split
  · exact r.refl s
  · exact r.requestPage s

theorem writeRecord (r : WriteRule l R) (s : State) (kind : RecordKind) (cause detail : Byte) (body : List Byte)
    (discard : State → State) (hd : ∀ t, R t (discard t)) : R s (writeRecord s l kind cause detail body discard) := by
  have hroom := r.ensureRoom s (Config.header + body.length)
  unfold Machine.writeRecord
  split
  · rename_i t e
    rw [e] at hroom
    exact r.trans hroom (r.place t _ _ _ _)
  · rename_i t e
    rw [e] at hroom
    exact r.trans hroom (hd t)

theorem discardEvent (r : WriteRule l R) (s : State) : R s (discardEvent s l) := r.pool s _ ⟨rfl, id⟩

theorem closeOpen (r : WriteRule l R) (s : State) (cause : CloseCause) (detail : Byte) : R s (closeOpen s l cause detail) := by
  unfold Machine.closeOpen
  split
  · exact r.refl s
  · exact r.close s _ _ _ ‹_›

theorem placeEvent (r : WriteRule l R) (s : State) (e : Event) (argument : List Byte) : R s (placeEvent s l e argument) :=
  r.writeRecord s _ _ _ _ _ r.discardEvent

theorem groupEvent (r : WriteRule l R) (s : State) (e : Event) (argument : List Byte) : R s (groupEvent s l e argument) :=
  r.trans (r.closeOpen s _ _) (r.placeEvent _ e argument)

theorem flushFrozen (r : WriteRule l R) (s : State) : R s (flushFrozen s l) := by
  unfold Machine.flushFrozen
  split
  · exact r.trans (r.trans (r.pool s _ ⟨rfl, fun h => absurd h Bool.false_ne_true⟩) (r.groupEvent _ _ _)) (r.ask _ true)
  · exact r.refl s

theorem plainEvent (r : WriteRule l R) (s : State) (e : Event) (argument : List Byte) : R s (plainEvent s l e argument) :=
  r.trans (r.trans (r.trans (r.closeOpen s _ _) (r.flushFrozen _)) (r.placeEvent _ e argument)) (r.flushFrozen _)

theorem writePieces (r : WriteRule l R) (hchars : ∀ s count, R s (discardChars s l count)) (source : Byte)
    (pieces : List (List Byte)) : ∀ s : State, R s (writePieces l source pieces s) := by
  induction pieces with
  | nil => exact r.refl
  | cons piece pieces ih => exact fun s => r.trans (r.writeRecord s _ _ _ _ _ fun t => hchars t _) (ih _)

theorem groupSent (r : WriteRule l R) (hchars : ∀ s count, R s (discardChars s l count)) (s : State) (source : Byte) (run : List Byte) :
    R s (groupSent s l source run) := by
  unfold Machine.groupSent
  split
  · exact r.trans (r.closeOpen s _ _) (r.writePieces hchars _ _ _)
  · exact r.refl s

theorem plainSent (r : WriteRule l R) (hchars : ∀ s count, R s (discardChars s l count)) (s : State) (source : Byte) (run : List Byte) :
    R s (plainSent s l source run) := by
  unfold Machine.plainSent
  split
  · exact r.trans (r.trans (r.trans (r.closeOpen s _ _) (r.flushFrozen _)) (r.writePieces hchars _ _ _)) (r.flushFrozen _)
  · exact r.refl s

theorem evaluateHold (r : WriteRule l R) (hhold : ∀ s (f : Hold → Hold), R s (s.modHold l f))
    (hflow : ∀ s c, R s (placeFlow s l c)) (s : State) : R s (evaluateHold s l) := by
  have changed : ∀ (f : Hold → Hold) (c : FlowChar) (e : Event), R s (Machine.plainEvent (Machine.placeFlow (s.modHold l f) l c) l e []) :=
    fun f c e => r.trans (r.trans (hhold s f) (hflow _ c)) (r.plainEvent _ e [])
  unfold Machine.evaluateHold
  split
  · exact changed _ _ _
  · exact changed _ _ _
  · exact hhold s _
  all_goals exact r.refl s

theorem settleWithin (r : WriteRule l R) (hevaluate : ∀ s, R s (Machine.evaluateHold s l)) (k : Nat) :
    ∀ s : State, R s (settleWithin k s l) := by
  induction k with
  | zero =>
    exact fun s => r.asks s
      (fun x => { x with pool := { x.pool with frozenDue := false }, hold := { x.hold with evalDue := false } })
      ⟨rfl, fun h => absurd h Bool.false_ne_true⟩
  | succ k ih =>
    intro s
    rw [Machine.settleWithin]
    split
    · exact r.trans (r.trans (r.trans (r.flushFrozen s) (r.ask _ false)) (hevaluate _)) (ih _)
    · exact r.flushFrozen s

theorem settle (r : WriteRule l R) (hevaluate : ∀ s, R s (Machine.evaluateHold s l)) (s : State) : R s (settle s l) :=
  r.settleWithin hevaluate 8 s

theorem askEvaluation (r : WriteRule l R) (hevaluate : ∀ s, R s (Machine.evaluateHold s l)) (s : State) : R s (askEvaluation s l) :=
  r.trans (r.ask s true) (r.settle hevaluate _)

theorem event (r : WriteRule l R) (hevaluate : ∀ s, R s (Machine.evaluateHold s l)) (s : State) (e : Event) (argument : List Byte) :
    R s (event s l e argument) :=
  r.trans (r.plainEvent s e argument) (r.settle hevaluate _)

end WriteRule

/-- What a relation needs in order to hold across every event record, run and evaluation of a line, whatever it does to the hold. -/
structure LogRule (l : LineId) (R : State → State → Prop) : Prop where
  refl : ∀ s, R s s
  trans : ∀ {s t u}, R s t → R t u → R s u
  quiet : ∀ s (f : Line → Line), (s.line l).Quiet (f (s.line l)) → R s (s.modLine l f)
  give : ∀ s n rest, R s (giveFree s l n rest)
  recycle : ∀ s oldest rest, (s.line l).pool.pages = oldest :: rest → R s (recycle s l oldest rest)
  place : ∀ s kind cause detail body, R s (reportComplete (placeRecord s l kind cause detail body) l)
  close : ∀ s o cause detail, (s.line l).cap.opened = some o → R s (reportComplete (closeRecord s l o cause detail) l)

namespace LogRule

variable {R : State → State → Prop}

theorem write (r : LogRule l R) : WriteRule l R :=
  { r with
    asks := fun s f h => r.quiet s f (by
      rw [h.1]
      rfl) }

theorem placeFlow (r : LogRule l R) (s : State) (c : FlowChar) : R s (placeFlow s l c) := by
  unfold Machine.placeFlow
  split
  · exact r.refl s
  · split <;> exact r.quiet s _ rfl

theorem evaluateHold (r : LogRule l R) (s : State) : R s (evaluateHold s l) :=
  r.write.evaluateHold (fun s _ => r.quiet s _ rfl) r.placeFlow s

theorem settle (r : LogRule l R) (s : State) : R s (settle s l) := r.write.settle r.evaluateHold s

theorem askEvaluation (r : LogRule l R) (s : State) : R s (askEvaluation s l) := r.write.askEvaluation r.evaluateHold s

theorem event (r : LogRule l R) (s : State) (e : Event) (argument : List Byte) : R s (event s l e argument) :=
  r.write.event r.evaluateHold s e argument

end LogRule

/-! ## The causes of every port but one -/

/-- The overtaken mark of a port's attachment stands with its cause (R162). -/
def Line.markTold (ln : Line) (l : LineId) (p : PortId) (x : Port) : Prop :=
  ∀ a, ln.attachment p = some a → (x.hasCause .overtaken l = true ↔ a.overtaken = true)

/-- The causes of a line agree at every port but one, whose overtaken mark alone stands with its cause. -/
structure ToldBut (p : PortId) (s : State) (l : LineId) : Prop where
  agree : ∀ q, q ≠ p → (s.line l).causesAgree l q (s.port q)
  mark : (s.line l).markTold l p (s.port p)

/-- The same, with the LEVEL DATA causes left open. -/
structure MarksToldBut (p : PortId) (s : State) (l : LineId) : Prop where
  agree : ∀ q, q ≠ p → (s.line l).marksAgree l q (s.port q)
  mark : (s.line l).markTold l p (s.port p)

theorem ToldBut.marks (h : ToldBut p s l) : MarksToldBut p s l :=
  ⟨fun q hq => Line.marks_of_causesAgree (h.agree q hq), h.mark⟩

theorem CausesTold.but (h : CausesTold s l) (p : PortId) : ToldBut p s l :=
  ⟨fun q _ => h.agree q, fun _ ha => ((Line.marksAgree_some ha).mp (Line.marks_of_causesAgree (h.agree p))).1⟩

theorem Line.markTold_congr {x y : Line} {v w : Port} (hatt : y.attachment p = x.attachment p) (hcauses : w.causes = v.causes)
    (h : x.markTold l p v) : y.markTold l p w := by
  intro a ha
  rw [hatt] at ha
  rw [Port.hasCause, hcauses]
  exact h a ha

theorem MarksToldBut.keep (h : MarksToldBut p s l) (k : SameMarks l s t) : MarksToldBut p t l := by
  obtain ⟨hatt, hcauses⟩ := k
  refine ⟨fun q hq => ?_, Line.markTold_congr (hatt p) (hcauses p) h.mark⟩
  have := h.agree q hq
  unfold Line.marksAgree Port.hasCause at this ⊢
  rw [hatt q, hcauses q]
  exact this

theorem ToldBut.keep (h : ToldBut p s l) (k : SameMarks l s t) (hc : (t.line l).closed = (s.line l).closed)
    (ho : (t.line l).cap.oldest = (s.line l).cap.oldest) : ToldBut p t l := by
  obtain ⟨hatt, hcauses⟩ := k
  refine ⟨fun q hq => ?_, Line.markTold_congr (hatt p) (hcauses p) h.mark⟩
  have hunread : ∀ a, (t.line l).unread a = (s.line l).unread a := by
    intro a
    simp only [Line.unread, Line.unreadRecords, hc, ho]
  have := h.agree q hq
  unfold Line.causesAgree Port.hasCause at this ⊢
  rw [hatt q, hcauses q]
  simpa only [hunread] using this

/-- An action taken port by port gives the causes of every port but one, and keeps that one's mark told. -/
theorem eachPort_toldBut (f : State → PortId → State) (hport : ∀ s q, ForPort l q s (f s q))
    (htold : ∀ s q, (s.line l).marksAgree l q (s.port q) → ((f s q).line l).causesAgree l q ((f s q).port q))
    (hmark : ∀ s q, (s.line l).markTold l q (s.port q) → ((f s q).line l).markTold l q ((f s q).port q))
    (h : MarksToldBut p s l) : ToldBut p (eachPort f s) l := by
  have mark_step : ∀ (v : State) (q : PortId), (v.line l).markTold l p (v.port p) →
      ((f v q).line l).markTold l p ((f v q).port p) := by
    intro v q hv
    by_cases e : p = q
    · exact e ▸ hmark v p hv
    · obtain ⟨hsame, hatt⟩ := (hport v q).1 p e
      exact Line.markTold_congr hatt (by rw [hsame]) hv
  refine ⟨fun q hq => ?_, mark_step _ 2 (mark_step _ 1 (mark_step s 0 h.mark))⟩
  have hs := h.agree q hq
  have p0 := hport s 0
  have p1 := hport (f s 0) 1
  have p2 := hport (f (f s 0) 1) 2
  fin_cases q
  · exact (p2.told_other (by decide)).mpr ((p1.told_other (by decide)).mpr (htold s 0 hs))
  · exact (p2.told_other (by decide)).mpr (htold _ 1 ((p0.marks_other (by decide)).mpr hs))
  · exact htold _ 2 ((p1.marks_other (by decide)).mpr ((p0.marks_other (by decide)).mpr hs))

theorem levelData_mark (s : State) (q : PortId) (h : (s.line l).markTold l q (s.port q)) :
    ((levelData l s q).line l).markTold l q ((levelData l s q).port q) := by
  unfold levelData
  split
  · exact h
  · split
    · split
      · intro a ha
        simpa [State.hasCause_post] using h a ha
      · intro a ha
        simpa [State.hasCause_unpost] using h a ha
    · exact h
    · exact h

theorem completionData_mark (s : State) (q : PortId) (h : (s.line l).markTold l q (s.port q)) :
    ((completionData l s q).line l).markTold l q ((completionData l s q).port q) := by
  unfold completionData
  split
  · exact h
  · rename_i a ha
    split
    · exact levelData_mark s q h
    · split
      · intro b hb
        rw [State.attachment_modAttachment_self (s := s.post q .data l 0) (fun x => { x with mode := x.mode.disarmed })
          (fun _ => rfl) ha] at hb
        obtain rfl := Option.some.inj hb
        simpa [State.hasCause_post] using h a ha
      · exact h
    · exact h
    · exact h

theorem overtakePort_mark (report : OldestReport) (s : State) (q : PortId) (h : (s.line l).markTold l q (s.port q)) :
    ((overtakePort report l s q).line l).markTold l q ((overtakePort report l s q).port q) := by
  unfold overtakePort
  split
  · exact h
  · rename_i a ha
    split
    · refine levelData_mark _ q fun b hb => ?_
      rw [State.line_post, State.attachment_modAttachment_self (fun x => { x with overtaken := true }) (fun _ => rfl) ha] at hb
      obtain rfl := Option.some.inj hb
      simp [State.hasCause_post]
    · exact levelData_mark s q h

theorem MarksToldBut.complete (h : MarksToldBut p s l) : ToldBut p (reportComplete s l) l :=
  eachPort_toldBut _ completionData_forPort completionData_told completionData_mark (h.keep (.line s _ rfl))

theorem MarksToldBut.advance (old : Seq) (h : MarksToldBut p s l) : ToldBut p (reportAdvance old s l) l :=
  eachPort_toldBut _ (overtakePort_forPort _) (overtakePort_told _) (overtakePort_mark _) h

/-- Records, runs and evaluations keep the causes of every port but one. -/
theorem toldBut_rule (l : LineId) (p : PortId) : LogRule l fun s t => ToldBut p s l → ToldBut p t l where
  refl _ := id
  trans h k := fun hs => k (h hs)
  quiet s f hf h := by
    have hlist : (f (s.line l)).att.list = (s.line l).att.list := by rw [hf]
    have hclosed : (f (s.line l)).closed = (s.line l).closed := by
      rw [hf]
      rfl
    have hold : (f (s.line l)).cap.oldest = (s.line l).cap.oldest := by rw [hf]
    exact h.keep (.line s f hlist) (by rw [State.line_modLine_self, hclosed]) (by rw [State.line_modLine_self, hold])
  give s n rest h := by
    refine h.keep (SameMarks.line { s with freePages := rest } _ rfl) ?_ ?_
    · rw [giveFree, State.line_modLine_self]
      simp [Line.closed, Page.fresh, State.line]
    · rw [giveFree, State.line_modLine_self]
      rfl
  recycle s oldest rest _ h := (h.marks.keep (recyclePage_marks s oldest rest)).advance _
  place s kind cause detail body h := (h.marks.keep (placeRecord_marks s kind cause detail body)).complete
  close s o cause detail _ h := (h.marks.keep (closeRecord_marks s o cause detail)).complete

end Sys2Proof.Machine
end

section
/-! Proofs: what a lawful operation of the part keeps: the attachment tables, the waiting SENDs, the causes that stand and clear
working marks; the operations that begin and end a wait or change the writer. -/

namespace Sys2Proof.Machine

variable {l : LineId} {s t u : State} {p : PortId}

/-! ## Attachment tables by roles -/

theorem Line.tableOk_iff_roles (x : Line) :
    x.tableOk ↔ (x.roles.map (·.1)).Nodup ∧ (x.roles.filter fun r => decide (r.2 = .writer)).length ≤ 1 := by
  simp only [Line.tableOk, Line.roles, List.map_map, List.filter_map, List.length_map]
  rfl

theorem Line.Calm.tableOk {x y : Line} (h : x.Calm y) (hx : x.tableOk) : y.tableOk := by
  rw [Line.tableOk_iff_roles, h.roles]
  exact x.tableOk_iff_roles.mp hx

/-! ## Waits -/

/-- A port whose SEND or SEND BREAK waits. -/
def Port.waits (x : Port) : Prop := ∃ l, x.phase = .waiting l

theorem Port.not_waits_of_phase {x : Port} {ph : Phase} (h : x.phase = ph) (hph : ∀ l, ph ≠ .waiting l) : ¬ x.waits := by
  rintro ⟨l, hl⟩
  exact hph l (h.symm.trans hl)

/-- Ports and lines agree on what waits, and on every line but one it is the writer's. -/
structure WaitingElse (s : State) (l : LineId) : Prop where
  agree : ∀ p k, (s.port p).phase = .waiting k ↔ ∃ w, (s.line k).tx.waiting = some w ∧ w.port = p
  writer : ∀ k w, k ≠ l → (s.line k).tx.waiting = some w → (s.line k).writer = some w.port

theorem WaitingElse.of (h : WaitingAgrees s) (l : LineId) : WaitingElse s l := ⟨h.1, fun k w _ => h.2 k w⟩

/-- Where what waits on the line is the writer's too, all of it is. -/
theorem WaitingElse.all (h : WaitingElse s l) (hl : ∀ w, (s.line l).tx.waiting = some w → (s.line l).writer = some w.port) :
    WaitingAgrees s := by
  refine ⟨h.agree, fun k w hw => ?_⟩
  by_cases hk : k = l
  · subst hk
    exact hl w hw
  · exact h.writer k w hk hw

theorem WaitingElse.onLine (h : WaitingElse s l) (o : OnLine l s t) (hw : (t.line l).tx.waiting = (s.line l).tx.waiting) :
    WaitingElse t l := by
  have hwait : ∀ k, (t.line k).tx.waiting = (s.line k).tx.waiting := by
    intro k
    by_cases hk : k = l
    · exact hk ▸ hw
    · rw [o.other k hk]
  refine ⟨fun q k => ?_, fun k w hk hkw => ?_⟩
  · rw [o.phase, hwait]
    exact h.agree q k
  · rw [o.other k hk] at hkw ⊢
    exact h.writer k w hk hkw

/-- A port that does not wait has nothing waiting on any line. -/
theorem WaitingAgrees.not_waiting (h : WaitingAgrees s) (hp : ¬ (s.port p).waits) {k : LineId} {w : Waiting}
    (hw : (s.line k).tx.waiting = some w) : w.port ≠ p := by
  intro e
  exact hp ⟨k, (h.1 p k).mpr ⟨w, hw, e⟩⟩

/-- Nothing waits on the line of a writer that does not wait. -/
theorem WaitingAgrees.waiting_none (h : WaitingAgrees s) (hp : ¬ (s.port p).waits) (hwriter : (s.line l).writer = some p) :
    (s.line l).tx.waiting = none := by
  by_contra hne
  obtain ⟨w, hw⟩ := Option.ne_none_iff_exists'.mp hne
  have hwp := h.2 l w hw
  rw [hwriter] at hwp
  exact h.not_waiting hp hw (Option.some.inj hwp).symm

/-- A wait ended: the line's waiting SEND or SEND BREAK is gone, and its port completes with results. -/
def finishWaiting (s : State) (l : LineId) (p : PortId) (r : Results) : State :=
  completeCommand (s.modTx l fun x => { x with waiting := none }) p r

theorem line_finishWaiting (s : State) (l k : LineId) (p : PortId) (r : Results) :
    (finishWaiting s l p r).line k
      = if k = l then { s.line l with tx := { (s.line l).tx with waiting := none } } else s.line k := by
  rw [finishWaiting, completeCommand, State.line_modPort, State.modTx_eq, State.line_modLine]

theorem port_finishWaiting (s : State) (l : LineId) (p q : PortId) (r : Results) :
    (finishWaiting s l p r).port q = if q = p then (s.port p).complete r else s.port q :=
  State.port_modPort _ _ _ _

theorem causes_finishWaiting (s : State) (l : LineId) (p q : PortId) (r : Results) :
    ((finishWaiting s l p r).port q).causes = (s.port q).causes := by
  rw [port_finishWaiting]
  split
  · subst q
    rfl
  · rfl

theorem WaitingElse.finish {w : Waiting} (h : WaitingElse s l) (hw : (s.line l).tx.waiting = some w) (r : Results) :
    WaitingAgrees (finishWaiting s l w.port r) := by
  have hphase : (s.port w.port).phase = .waiting l := (h.agree _ _).mpr ⟨w, hw, rfl⟩
  refine ⟨fun q k => ?_, fun k v hv => ?_⟩
  · rw [port_finishWaiting, line_finishWaiting]
    by_cases hq : q = w.port <;> by_cases hk : k = l
    · simp [hq, hk, Port.complete]
    · rw [if_pos hq, if_neg hk]
      refine iff_of_false (by simp [Port.complete]) ?_
      rintro ⟨v, hv, hvq⟩
      have hother := (h.agree q k).mpr ⟨v, hv, hvq⟩
      rw [hq, hphase] at hother
      exact hk (Phase.waiting.inj hother).symm
    · rw [if_neg hq, if_pos hk, hk]
      refine iff_of_false (fun hql => ?_) (by simp)
      obtain ⟨v, hv, hvq⟩ := (h.agree q l).mp hql
      rw [hw] at hv
      obtain rfl := Option.some.inj hv
      exact hq hvq.symm
    · rw [if_neg hq, if_neg hk]
      exact h.agree q k
  · rw [line_finishWaiting] at hv ⊢
    by_cases hk : k = l
    · simp [hk] at hv
    · rw [if_neg hk] at hv ⊢
      exact h.writer k v hk hv

theorem endWaiting_of_none (code : ErrorCode) (h : (s.line l).tx.waiting = none) : endWaiting s l code = s := by
  rw [endWaiting, h]

/-- The end of a wait with a code is a wait ended, with the results that the code gives. -/
theorem endWaiting_of_some {w : Waiting} (code : ErrorCode) (h : (s.line l).tx.waiting = some w) :
    ∃ r : Results, r.code = code ∧ endWaiting s l code = finishWaiting s l w.port r := by
  cases w with
  | send q rest =>
    rw [endWaiting, h]
    exact ⟨{ code := code, count := some (countHalf rest.length) }, rfl, rfl⟩
  | sendBreak q d =>
    rw [endWaiting, h]
    exact ⟨{ code := code }, rfl, rfl⟩

theorem WaitingElse.endWaiting (h : WaitingElse s l) (code : ErrorCode) : WaitingAgrees (endWaiting s l code) := by
  cases hw : (s.line l).tx.waiting with
  | none =>
    rw [endWaiting_of_none code hw]
    exact h.all (by simp [hw])
  | some w =>
    obtain ⟨r, -, e⟩ := endWaiting_of_some code hw
    rw [e]
    exact h.finish hw r

theorem waiting_endWaiting (s : State) (l : LineId) (code : ErrorCode) : ((endWaiting s l code).line l).tx.waiting = none := by
  cases hw : (s.line l).tx.waiting with
  | none => rw [endWaiting_of_none code hw, hw]
  | some w =>
    obtain ⟨r, -, e⟩ := endWaiting_of_some code hw
    rw [e, line_finishWaiting, if_pos rfl]

/-- The end of a wait leaves every line but for what waits on its own. -/
theorem line_endWaiting (s : State) (l k : LineId) (code : ErrorCode) :
    (endWaiting s l code).line k
      = if k = l then { s.line l with tx := { (s.line l).tx with waiting := none } } else s.line k := by
  cases hw : (s.line l).tx.waiting with
  | none =>
    rw [endWaiting_of_none code hw]
    split
    · subst k
      rw [← hw]
    · rfl
  | some w =>
    obtain ⟨r, -, e⟩ := endWaiting_of_some code hw
    rw [e, line_finishWaiting]

theorem causes_endWaiting (s : State) (l : LineId) (code : ErrorCode) (q : PortId) :
    ((endWaiting s l code).port q).causes = (s.port q).causes := by
  cases hw : (s.line l).tx.waiting with
  | none => rw [endWaiting_of_none code hw]
  | some w =>
    obtain ⟨r, -, e⟩ := endWaiting_of_some code hw
    rw [e, causes_finishWaiting]

/-! ## Lawful operations -/

/-- An operation that keeps the tables, the waiting SENDs, the causes that stand and clear marks. -/
structure Lawful (s t : State) : Prop where
  table : AttachmentTable s → AttachmentTable t
  waiting : AttachmentTable s → WaitingAgrees s → WaitingAgrees t
  causes : AttachmentTable s → WaitingAgrees s → CausesStand s → CausesStand t
  marks : MarksClear s → MarksClear t

namespace Lawful

theorem refl (s : State) : Lawful s s := ⟨id, fun _ => id, fun _ _ => id, id⟩

theorem trans (h : Lawful s t) (k : Lawful t u) : Lawful s u where
  table hs := k.table (h.table hs)
  waiting ha hs := k.waiting (h.table ha) (h.waiting ha hs)
  causes ha hw hs := k.causes (h.table ha) (h.waiting ha hw) (h.causes ha hw hs)
  marks hs := k.marks (h.marks hs)

end Lawful

/-- Marks after an operation of one line. -/
theorem MarksClear.change (h : MarksClear s) (hk : ∀ k, k ≠ l → t.line k = s.line k) (hl : (t.line l).unmarked) : MarksClear t := by
  intro k
  by_cases e : k = l
  · subst e
    exact hl
  · rw [hk k e]
    exact h k

theorem AttachmentTable.change (h : AttachmentTable s) (hk : ∀ k, k ≠ l → t.line k = s.line k) (hl : (t.line l).tableOk) :
    AttachmentTable t := by
  intro k
  by_cases e : k = l
  · subst e
    exact hl
  · rw [hk k e]
    exact h k

theorem CausesStand.told (h : CausesStand s) (l : LineId) : CausesTold s l := ⟨(h l).1⟩

theorem CausesStand.held (h : CausesStand s) (l : LineId) : DrainHeld s l := (h l).2

theorem CausesStand.of (h : ∀ l, CausesTold s l ∧ DrainHeld s l) : CausesStand s := fun l => ⟨(h l).1.agree, (h l).2⟩

/-- Two states apart in one line and in causes for it. -/
structure Beside (l : LineId) (s t : State) : Prop where
  other : ∀ k, k ≠ l → t.line k = s.line k
  causes : ∀ k, k ≠ l → ∀ (p : PortId) (c : Cause), c.line = k → (c ∈ (t.port p).causes ↔ c ∈ (s.port p).causes)

namespace Beside

theorem of_onLine (h : OnLine l s t) : Beside l s t := ⟨h.other, fun _ hk p c hc => h.causes_other hk p c hc⟩

theorem trans (h : Beside l s t) (k : Beside l t u) : Beside l s u :=
  ⟨fun j hj => (k.other j hj).trans (h.other j hj), fun j hj p c hc => (k.causes j hj p c hc).trans (h.causes j hj p c hc)⟩

theorem of_causes (hk : ∀ k, k ≠ l → t.line k = s.line k) (hc : ∀ q, (t.port q).causes = (s.port q).causes) : Beside l s t :=
  ⟨hk, fun _ _ p _ _ => by rw [hc p]⟩

theorem endWaiting (s : State) (l : LineId) (code : ErrorCode) : Beside l s (endWaiting s l code) :=
  .of_causes (fun k hk => by rw [line_endWaiting, if_neg hk]) (causes_endWaiting s l code)

theorem agree_other (h : Beside l s t) {k : LineId} (hk : k ≠ l) {p : PortId} (hs : (s.line k).causesAgree k p (s.port p)) :
    (t.line k).causesAgree k p (t.port p) := by
  rw [h.other k hk]
  exact Line.causesAgree_congr (fun c hc => h.causes k hk p c hc) hs

theorem drainHeld_other (h : Beside l s t) {k : LineId} (hk : k ≠ l) (hs : DrainHeld s k) : DrainHeld t k := by
  unfold DrainHeld
  rw [h.other k hk]
  exact hs

end Beside

theorem CausesStand.change (h : CausesStand s) (b : Beside l s t) (told : CausesTold t l) (held : DrainHeld t l) : CausesStand t := by
  refine .of fun k => ?_
  by_cases hk : k = l
  · subst hk
    exact ⟨told, held⟩
  · exact ⟨⟨fun p => b.agree_other hk ((h.told k).agree p)⟩, b.drainHeld_other hk (h.held k)⟩

theorem Sound.lawful (h : Sound l s t) : Lawful s t where
  table ha := ha.change h.calm.other (h.calm.line.tableOk (ha l))
  waiting _ hw := by
    refine (WaitingElse.of hw l).onLine h.calm.toOnLine h.calm.line.waiting |>.all fun w hlw => ?_
    rw [h.calm.line.waiting] at hlw
    rw [h.calm.line.writer]
    exact hw.2 l w hlw
  causes _ _ hc := hc.change (.of_onLine h.calm.toOnLine) (h.told (hc.held l) (hc.told l)) (h.calm.drainHeld (hc.held l))
  marks hm := hm.change h.calm.other (h.clear (hm l))

/-- A change of a port's block that leaves its causes, and neither begins nor ends a wait. -/
theorem Lawful.modPort (s : State) (p : PortId) (f : Port → Port) (hc : (f (s.port p)).causes = (s.port p).causes)
    (hwait : ∀ l, (f (s.port p)).phase = .waiting l ↔ (s.port p).phase = .waiting l) : Lawful s (s.modPort p f) where
  table := id
  waiting _ hw := by
    refine ⟨fun q k => ?_, hw.2⟩
    rw [State.port_modPort, State.line_modPort, ← hw.1 q k]
    split
    · subst q
      exact hwait k
    · rfl
  causes _ _ hs := by
    refine .of fun k => ⟨⟨fun q => ?_⟩, hs.held k⟩
    rw [State.port_modPort, State.line_modPort]
    split
    · subst q
      exact Line.causesAgree_congr (fun c _ => by rw [hc]) ((hs.told k).agree p)
    · exact (hs.told k).agree q
  marks := id

/-- What a port's own command does: lawful, and the port waits after it only if it did before. -/
def Served (p : PortId) (s t : State) : Prop := ¬ (s.port p).waits → Lawful s t ∧ ¬ (t.port p).waits

namespace Served

theorem refl (p : PortId) (s : State) : Served p s s := fun h => ⟨.refl s, h⟩

theorem trans (h : Served p s t) (k : Served p t u) : Served p s u := fun hs =>
  ⟨(h hs).1.trans (k (h hs).2).1, (k (h hs).2).2⟩

theorem of_sound (h : Sound l s t) (p : PortId) : Served p s t := fun hs =>
  ⟨h.lawful, by rw [Port.waits, h.calm.phase]; exact hs⟩

theorem modPort (s : State) (p : PortId) (f : Port → Port) (hc : (f (s.port p)).causes = (s.port p).causes)
    (hf : ¬ (f (s.port p)).waits) : Served p s (s.modPort p f) := fun hs =>
  ⟨.modPort s p f hc fun l => iff_of_false (fun h => hf ⟨l, h⟩) fun h => hs ⟨l, h⟩, by rw [State.port_modPort_self]; exact hf⟩

theorem prepare (s : State) (p : PortId) (r : Results) : Served p s (prepare s p r) :=
  .modPort s p _ rfl (Port.not_waits_of_phase rfl nofun)

theorem failCheck (s : State) (p : PortId) (code : ErrorCode) : Served p s (failCheck s p code) := .prepare s p _

theorem complete (s : State) (p : PortId) (r : Results) : Served p s (completeCommand s p r) :=
  .modPort s p _ rfl (Port.not_waits_of_phase rfl nofun)

theorem beginFill (s : State) (p : PortId) (c : DataIn) : Served p s (beginFill s p c) :=
  .modPort s p _ rfl (Port.not_waits_of_phase rfl nofun)

theorem beginData (s : State) (p : PortId) (c : DataOut) (n : Nat) : Served p s (beginData s p c n) :=
  .modPort s p _ rfl (Port.not_waits_of_phase rfl nofun)

theorem deliver (s : State) (p : PortId) (c : DataIn) (f : Fill) : Served p s (deliver s p c f) :=
  .modPort s p _ rfl (Port.not_waits_of_phase rfl nofun)

end Served

theorem not_waits_beginCommand (s : State) (p : PortId) (dataIn : Bool) : ¬ ((beginCommand s p dataIn).port p).waits := by
  rw [beginCommand, State.port_modPort_self]
  exact Port.not_waits_of_phase rfl nofun

/-- A write of COMMAND is lawful where the command's own rule is. -/
theorem Lawful.takeCommand {dataIn : Bool} {act : State → State}
    (h : ¬ ((beginCommand s p dataIn).port p).waits → Lawful (beginCommand s p dataIn) (act (beginCommand s p dataIn))) :
    Lawful s (takeCommand s p dataIn act) := by
  unfold Machine.takeCommand
  split
  · exact .refl s
  · split
    · rename_i hidle
      have hphase := Port.idle_iff.mp hidle
      have hbegin : Served p s (beginCommand s p dataIn) := .modPort s p _ rfl (Port.not_waits_of_phase rfl nofun)
      exact (hbegin (Port.not_waits_of_phase hphase nofun)).1.trans (h (not_waits_beginCommand s p dataIn))
    · exact .modPort s p _ rfl fun _ => .rfl

/-- A line command is lawful where its rule is, on any line. -/
theorem Lawful.lineCommand {dataIn : Bool} {act : State → LineId → State}
    (h : ∀ (v : State) (l : LineId), ¬ (v.port p).waits → Lawful v (act v l)) :
    Lawful s (Machine.takeCommand s p dataIn fun v => withLine v p (act v)) := by
  refine .takeCommand fun hw => ?_
  unfold withLine
  split
  · exact (Served.failCheck _ p _ hw).1
  · exact h _ _ hw

/-- A command that needs the control right is lawful where its rule is. -/
theorem Lawful.controlCommand {dataIn : Bool} {act : State → LineId → State}
    (h : ∀ (v : State) (l : LineId), ¬ (v.port p).waits → Lawful v (act v l)) :
    Lawful s (Machine.takeCommand s p dataIn fun v => withControl v p (act v)) := by
  refine .lineCommand fun v l hw => ?_
  split
  · exact h v l hw
  · exact (Served.failCheck v p _ hw).1

/-! ## Waits begun and ended -/

theorem AttachmentTable.of_list (h : AttachmentTable s) (e : ∀ k, (t.line k).att.list = (s.line k).att.list) :
    AttachmentTable t := by
  intro k
  rw [e k]
  exact h k

/-- What stands stands on, where what it rests on stays. -/
theorem CausesStand.of_same (h : CausesStand s) (hatt : ∀ k, (t.line k).att.list = (s.line k).att.list)
    (hclosed : ∀ k, (t.line k).closed = (s.line k).closed) (hold : ∀ k, (t.line k).cap.oldest = (s.line k).cap.oldest)
    (hdrain : ∀ k, (t.line k).tx.drainMark = (s.line k).tx.drainMark) (hc : ∀ q, (t.port q).causes = (s.port q).causes) :
    CausesStand t := by
  refine .of fun k => ⟨(h.told k).keep ⟨fun q => ?_, hc⟩ (hclosed k) (hold k), fun q hq => ?_⟩
  · rw [Line.attachment, hatt]
    rfl
  · rw [hdrain] at hq
    rw [Line.writer, hatt]
    exact h.held k q hq

/-- The end of a wait is lawful. -/
theorem finishWaiting_lawful {w : Waiting} (hw : (s.line l).tx.waiting = some w) (r : Results) :
    Lawful s (finishWaiting s l w.port r) := by
  have field : ∀ {α : Type} (g : Line → α), (∀ x : Line, g { x with tx := { x.tx with waiting := none } } = g x) →
      ∀ k, g ((finishWaiting s l w.port r).line k) = g (s.line k) := by
    intro α g hg k
    rw [line_finishWaiting]
    split
    · subst k
      exact hg _
    · rfl
  exact
    { table := fun ha => ha.of_list (field (·.att.list) fun _ => rfl)
      waiting := fun _ hs => (WaitingElse.of hs l).finish hw r
      causes := fun _ _ hs => hs.of_same (field (·.att.list) fun _ => rfl) (field Line.closed fun _ => rfl)
        (field (·.cap.oldest) fun _ => rfl) (field (·.tx.drainMark) fun _ => rfl) (causes_finishWaiting s l w.port · r)
      marks := fun hm k => by
        rw [field (·.pool.frozenDue) (fun _ => rfl), field (·.hold.evalDue) fun _ => rfl]
        exact hm k }

theorem endWaiting_lawful (s : State) (l : LineId) (code : ErrorCode) : Lawful s (endWaiting s l code) := by
  cases hw : (s.line l).tx.waiting with
  | none =>
    rw [endWaiting_of_none code hw]
    exact .refl s
  | some w =>
    obtain ⟨r, -, e⟩ := endWaiting_of_some code hw
    rw [e]
    exact finishWaiting_lawful hw r

/-- The wait of a line's writer goes on, or begins, with other characters or another marker. -/
theorem changeWaiting_lawful {w v : Waiting} (hw : (s.line l).tx.waiting = some w) (hport : v.port = w.port) :
    Lawful s (s.modTx l fun x => { x with waiting := some v }) where
  table ha := by
    refine ha.change (fun _ hk => State.line_modLine_ne _ _ _ _ hk) ?_
    rw [State.modTx_eq, State.line_modLine_self]
    exact ha l
  waiting _ hs := by
    refine ⟨fun q k => ?_, fun k y hy => ?_⟩
    · rw [State.modTx_eq, State.port_modLine, hs.1 q k, State.line_modLine]
      split
      · subst k
        simp [hw, hport]
      · rfl
    · rw [State.modTx_eq, State.line_modLine] at hy ⊢
      split at hy
      · subst k
        obtain rfl := Option.some.inj hy
        rw [if_pos rfl, hport]
        exact hs.2 l w hw
      · rename_i hk
        rw [if_neg hk]
        exact hs.2 k y hy
  causes _ _ hs := hs.change (.of_onLine (.modLine s _)) ((hs.told l).tx _) fun q hq => by
    rw [State.modTx_eq, State.line_modLine_self] at hq ⊢
    exact hs.held l q hq
  marks hm := by
    refine hm.change (fun _ hk => State.line_modLine_ne _ _ _ _ hk) ?_
    rw [State.modTx_eq, State.line_modLine_self]
    exact hm l

/-- A SEND or SEND BREAK of a port begins to wait on a line. -/
def beginWaiting (s : State) (l : LineId) (p : PortId) (w : Waiting) : State :=
  (s.modTx l fun x => { x with waiting := some w }).modPort p fun x => { x with phase := .waiting l }

theorem beginWaiting_lawful {w : Waiting} (hport : w.port = p) (hp : ¬ (s.port p).waits) (hwriter : (s.line l).writer = some p) :
    Lawful s (beginWaiting s l p w) := by
  have field : ∀ {α : Type} (g : Line → α), (∀ x : Line, g { x with tx := { x.tx with waiting := some w } } = g x) →
      ∀ k, g ((beginWaiting s l p w).line k) = g (s.line k) := by
    intro α g hg k
    rw [beginWaiting, State.line_modPort, State.modTx_eq, State.line_modLine]
    split
    · subst k
      exact hg _
    · rfl
  have hcauses : ∀ q, ((beginWaiting s l p w).port q).causes = (s.port q).causes := by
    intro q
    rw [beginWaiting, State.port_modPort]
    split
    · subst q
      rfl
    · rfl
  refine
    { table := fun ha => ha.of_list (field (·.att.list) fun _ => rfl)
      waiting := fun _ hs => ?_
      causes := fun _ _ hs => hs.of_same (field (·.att.list) fun _ => rfl) (field Line.closed fun _ => rfl)
        (field (·.cap.oldest) fun _ => rfl) (field (·.tx.drainMark) fun _ => rfl) hcauses
      marks := fun hm k => by
        rw [field (·.pool.frozenDue) (fun _ => rfl), field (·.hold.evalDue) fun _ => rfl]
        exact hm k }
  have hnone := hs.waiting_none hp hwriter
  have hline : ∀ k, ((beginWaiting s l p w).line k).tx.waiting = if k = l then some w else (s.line k).tx.waiting := by
    intro k
    rw [beginWaiting, State.line_modPort, State.modTx_eq, State.line_modLine]
    split <;> rfl
  have hphase : ∀ q, ((beginWaiting s l p w).port q).phase = if q = p then .waiting l else (s.port q).phase := by
    intro q
    rw [beginWaiting, State.port_modPort]
    split <;> rfl
  refine ⟨fun q k => ?_, fun k v hv => ?_⟩
  · rw [hphase, hline]
    by_cases hq : q = p <;> by_cases hk : k = l
    · simp [hq, hk, hport]
    · rw [if_pos hq, if_neg hk]
      refine iff_of_false (fun e => hk (Phase.waiting.inj e).symm) ?_
      rintro ⟨v, hv, hvq⟩
      exact hs.not_waiting hp hv (hvq.trans hq)
    · rw [if_neg hq, if_pos hk, hs.1 q k, hk, hnone]
      refine iff_of_false (by simp) ?_
      rintro ⟨v, hv, hvq⟩
      obtain rfl := Option.some.inj hv
      exact hq (hvq.symm.trans hport)
    · rw [if_neg hq, if_neg hk]
      exact hs.1 q k
  · rw [field Line.writer fun _ => rfl]
    rw [hline] at hv
    split at hv
    · subst k
      obtain rfl := Option.some.inj hv
      rw [hport]
      exact hwriter
    · exact hs.2 k v hv

/-- Entries of the writer join the queue, and the drain mark holds it (R134, R146). -/
theorem placeEntries_lawful {es : List Entry} (hwriter : AttachmentTable s → WaitingAgrees s → (s.line l).writer = some p) :
    Lawful s (placeEntries s l p es) := by
  have hlist : ((s.modTx l fun x => { x with queue := x.queue ++ es, drainMark := some p }).line l).att = (s.line l).att := by
    rw [State.modTx_eq, State.line_modLine_self]
  have hqueue : Lawful s (s.modTx l fun x => { x with queue := x.queue ++ es, drainMark := some p }) :=
    { table := fun ha => ha.change (fun _ hk => State.line_modLine_ne _ _ _ _ hk) (by
        rw [State.modTx_eq, State.line_modLine_self]
        exact ha l)
      waiting := fun _ hs => by
        refine (WaitingElse.of hs l).onLine (.modLine s _) (by rw [State.line_modLine_self]) |>.all fun w hw => ?_
        rw [State.line_modLine_self] at hw ⊢
        exact hs.2 l w hw
      causes := fun ha hw hs => hs.change (.of_onLine (.modLine s _)) ((hs.told l).tx _) fun q hq => by
        rw [State.modTx_eq, State.line_modLine_self] at hq
        obtain rfl := Option.some.inj hq
        rw [Line.writer, hlist]
        exact hwriter ha hw
      marks := fun hm => hm.change (fun _ hk => State.line_modLine_ne _ _ _ _ hk) (by
        rw [State.modTx_eq, State.line_modLine_self]
        exact hm l) }
  exact hqueue.trans (restartLease_sound _).lawful

/-- A waiting SEND that places a run, or has no room for one, is lawful. -/
theorem placeRun_lawful (s : State) (l : LineId) : Lawful s (placeRun s l) := by
  unfold placeRun
  split
  · rename_i q remaining hw
    split
    · dsimp only
      have hplaced : Lawful s (placeEntries s l q ((remaining.take (s.line l).tx.free).map .character)) :=
        placeEntries_lawful fun _ hs => hs.2 l _ hw
      have hrecorded : Sound l (placeEntries s l q ((remaining.take (s.line l).tx.free).map .character))
          (settle (plainSent (placeEntries s l q ((remaining.take (s.line l).tx.free).map .character)) l (byteOf q.val)
            (remaining.take (s.line l).tx.free)) l) :=
        .settled (.of_recorded (plainSent_recorded _ _ _)) fun _ h => plainSent_told _ _ h
      have hkept : ((settle (plainSent (placeEntries s l q ((remaining.take (s.line l).tx.free).map .character)) l (byteOf q.val)
          (remaining.take (s.line l).tx.free)) l).line l).tx.waiting = some (.send q remaining) := by
        rw [hrecorded.calm.line.waiting, placeEntries, restartLease, State.line_modLine_self]
        simpa using hw
      refine Lawful.trans (hplaced.trans hrecorded.lawful) (Lawful.trans ?_ (kickTransmitter_sound _).lawful)
      split
      · exact finishWaiting_lawful hkept _
      · exact changeWaiting_lawful hkept rfl
    · exact .refl s
  · exact .refl s
  · exact .refl s

theorem placeMarker_lawful (s : State) (l : LineId) : Lawful s (placeMarker s l) := by
  unfold placeMarker
  split
  · rename_i q duration hw
    split
    · have hplaced : Lawful s (placeEntries s l q [.marker duration q]) := placeEntries_lawful fun _ hs => hs.2 l _ hw
      have hkept : ((placeEntries s l q [.marker duration q]).line l).tx.waiting = some (.sendBreak q duration) := by
        rw [placeEntries, restartLease, State.line_modLine_self]
        simpa using hw
      exact (hplaced.trans (finishWaiting_lawful hkept _)).trans (kickTransmitter_sound _).lawful
    · exact .refl s
  · exact .refl s
  · exact .refl s

end Sys2Proof.Machine
end

section
/-! Proofs: changes of the writer and of the attachments: what they keep of the tables, the waits, the causes and the marks. -/

namespace Sys2Proof.Machine

variable {l : LineId} {s t u : State} {p : PortId}

/-! ## Attachments that change in what no cause tells -/

/-- An attachment with the same port, cursor, mark, mode, condition enable and latch: all that its causes tell. -/
def Attachment.SameTold (a b : Attachment) : Prop :=
  b = { a with role := b.role, lossless := b.lossless, watchEnable := b.watchEnable }

theorem Line.causesAgree_sameTold {x y : Line} {q : PortId} {v : Port} {g : Attachment → Attachment} (hg : ∀ a : Attachment, a.SameTold (g a))
    (hatt : y.attachment q = (x.attachment q).map g) (hclosed : y.closed = x.closed) (hold : y.cap.oldest = x.cap.oldest)
    (h : x.causesAgree l q v) : y.causesAgree l q v := by
  unfold Line.causesAgree at h ⊢
  rw [hatt]
  cases ha : x.attachment q with
  | none =>
    rw [ha] at h
    exact h
  | some a =>
    rw [ha] at h
    have hunread : y.unread (g a) = x.unread a := by
      rw [hg a]
      simp only [Line.unread, Line.unreadRecords, hclosed, hold]
    simp only [Option.map_some, hunread]
    rw [hg a]
    exact h

theorem attachment_setRole (s : State) (l : LineId) (p q : PortId) (r : Role) :
    ((setRole s l p r).line l).attachment q
      = ((s.line l).attachment q).map fun a => if a.port = p then { a with role := r } else a := by
  rw [setRole, State.attachment_modAttachment s l p q (fun a => { a with role := r }) fun _ => rfl]
  by_cases hq : q = p
  · subst hq
    cases ha : (s.line l).attachment q with
    | none => simp
    | some a =>
      have hport : a.port = q := by simpa using List.find?_some ha
      simp [hport]
  · cases ha : (s.line l).attachment q with
    | none => simp [hq]
    | some a =>
      have hport : a.port = q := by simpa using List.find?_some ha
      simp [hport, hq]

/-- A role set changes no cause that stands. -/
theorem causesAgree_setRole (s : State) (p q : PortId) (r : Role) (v : Port) (h : (s.line l).causesAgree l q v) :
    ((setRole s l p r).line l).causesAgree l q v := by
  refine Line.causesAgree_sameTold (fun a => ?_) (attachment_setRole s l p q r) ?_ ?_ h
  · split <;> rfl
  · simp [setRole, State.modAttachment_eq, Line.closed]
  · simp [setRole, State.modAttachment_eq]

theorem onLine_setRole (s : State) (l : LineId) (p : PortId) (r : Role) : OnLine l s (setRole s l p r) :=
  .of_lines (fun _ hk => State.line_modLine_ne _ _ _ _ hk) fun _ => rfl

theorem waiting_setRole (s : State) (l : LineId) (p : PortId) (r : Role) :
    ((setRole s l p r).line l).tx.waiting = (s.line l).tx.waiting := by
  simp [setRole, State.modAttachment_eq]

theorem unmarked_setRole (s : State) (l : LineId) (p : PortId) (r : Role) :
    ((setRole s l p r).line l).unmarked ↔ (s.line l).unmarked := unmarked_modAttachment s l p _

/-- The table of a line once its writer's role is gone. -/
theorem table_demote (h : AttachmentTable s) (l : LineId) (p : PortId) : AttachmentTable (setRole s l p .watcher) :=
  (Edit.demote (on := fun _ => True) (own := fun _ => True) s l p trivial).attachmentTable h

/-- A role gained by a port with an attachment, on a line without a writer, makes it the writer (R105). -/
theorem writer_promote (h : (s.line l).writer = none) (ha : (s.line l).attachment p ≠ none) :
    ((setRole s l p .writer).line l).writer = some p := by
  have hroles : ∀ a ∈ (s.line l).att.list, a.role = .watcher := Line.writer_none h
  obtain ⟨a, ha⟩ := Option.ne_none_iff_exists'.mp ha
  have hlist : ((setRole s l p .writer).line l).att.list
      = (s.line l).att.list.map fun a => if a.port = p then { a with role := .writer } else a := by
    simp [setRole, State.modAttachment_eq]
  rw [Line.writer, hlist, List.find?_map]
  have hpred : ∀ b ∈ (s.line l).att.list,
      ((fun a : Attachment => decide (a.role = .writer)) ∘ fun a => if a.port = p then { a with role := .writer } else a) b
        = decide (b.port = p) := by
    intro b hb
    by_cases hport : b.port = p <;> simp [hport, hroles b hb]
  have hfind : (s.line l).att.list.find? ((fun a : Attachment => decide (a.role = .writer)) ∘
      fun a => if a.port = p then { a with role := .writer } else a) = some a := by
    rw [← ha, Line.attachment]
    clear ha hlist hroles
    generalize (s.line l).att.list = as at hpred
    induction as with
    | nil => rfl
    | cons b bs ih =>
      rw [List.find?_cons, List.find?_cons, hpred b List.mem_cons_self, ih fun c hc => hpred c (List.mem_cons_of_mem b hc)]
  have hport : a.port = p := by simpa using List.find?_some ha
  rw [hfind]
  simp [hport]

/-! ## The writer lost (R108, R109, R112) -/

/-- The line without its lease timer and its drain mark, before the record of the change of writer. -/
def forgetWriter (s : State) (l : LineId) : State := dropDrainMark (s.modAtt l fun x => { x with leaseTimer := none }) l

theorem loseWriter_eq (s : State) (l : LineId) (reason : WriterReason) :
    loseWriter s l reason = event (forgetWriter s l) l .writerSet [portByte none, reason.code] := rfl

theorem forgetWriter_sound (s : State) : Sound l s (forgetWriter s l) := by
  have hlease : Sound l s (s.modAtt l fun x => { x with leaseTimer := none }) := .modLine s _ rfl rfl rfl rfl (fun _ => id) id
  exact hlease.trans (dropDrainMark_sound _)

theorem forgetWriter_told (h : CausesTold s l) : CausesTold (forgetWriter s l) l := by
  have hlease : CausesTold (s.modAtt l fun x => { x with leaseTimer := none }) l := h.line _ rfl rfl rfl
  exact hlease.tx fun x => { x with drainMark := none }

theorem drainMark_forgetWriter (s : State) (l : LineId) : ((forgetWriter s l).line l).tx.drainMark = none := by
  simp [forgetWriter, dropDrainMark]

theorem DrainHeld.of_none (h : (s.line l).tx.drainMark = none) : DrainHeld s l := fun q hq => by
  rw [h] at hq
  cases hq

/-- A change of one line's roles, after which its drain mark is held and what waits on it is its writer's. -/
theorem Lawful.roles (table : AttachmentTable s → AttachmentTable t) (o : OnLine l s t)
    (hwait : (t.line l).tx.waiting = (s.line l).tx.waiting)
    (hown : WaitingAgrees s → ∀ w, (t.line l).tx.waiting = some w → (t.line l).writer = some w.port)
    (told : CausesTold s l → CausesTold t l) (held : DrainHeld s l → DrainHeld t l)
    (marks : (s.line l).unmarked → (t.line l).unmarked) : Lawful s t where
  table := table
  waiting _ hs := ((WaitingElse.of hs l).onLine o hwait).all (hown hs)
  causes _ _ hs := hs.change (.of_onLine o) (told (hs.told l)) (held (hs.held l))
  marks hm := hm.change o.other (marks (hm l))

/-- RELEASE WRITE: the writer gives up the role (R109). -/
theorem releaseWrite_lawful (hp : ¬ (s.port p).waits) (hwriter : (s.line l).writer = some p) (reason : WriterReason) :
    Lawful s (loseWriter (setRole s l p .watcher) l reason) := by
  have hforget := forgetWriter_sound (l := l) (setRole s l p .watcher)
  have hwait : ((forgetWriter (setRole s l p .watcher) l).line l).tx.waiting = (s.line l).tx.waiting :=
    hforget.calm.line.waiting.trans (waiting_setRole s l p _)
  have hforgotten : Lawful s (forgetWriter (setRole s l p .watcher) l) := by
    refine .roles (fun ha => hforget.lawful.table (table_demote ha l p)) ((onLine_setRole s l p _).trans hforget.calm.toOnLine)
      hwait (fun hs w hw => ?_) (fun h => ?_) (fun _ => .of_none (drainMark_forgetWriter _ l))
      (fun h => hforget.clear ((unmarked_setRole s l p _).mpr h))
    · rw [hwait, hs.waiting_none hp hwriter] at hw
      cases hw
    · have hdemoted : CausesTold (setRole s l p .watcher) l := ⟨fun q => causesAgree_setRole s p q _ _ (h.agree q)⟩
      exact forgetWriter_told hdemoted
  rw [loseWriter_eq]
  exact hforgotten.trans (event_sound _ _ _).lawful

/-- LEASE EXPIRY: the writer's wait ends and the role is lost (R112). -/
theorem leaseExpiry_lawful {w : PortId} (hwriter : (s.line l).writer = some w) :
    Lawful s (loseWriter (endWaiting ((setRole s l w .watcher).post w .writeLost l 4) l .writeLost) l .lease) := by
  have hpost := Calm.post (l := l) (setRole s l w .watcher) w .writeLost 4
  have honline : OnLine l s ((setRole s l w .watcher).post w .writeLost l 4) :=
    (onLine_setRole s l w _).trans hpost.toOnLine
  have hforget := forgetWriter_sound (l := l) (endWaiting ((setRole s l w .watcher).post w .writeLost l 4) l .writeLost)
  have hattached : ((setRole s l w .watcher).line l).attachment w ≠ none := by
    rw [attachment_setRole]
    simpa using Line.attachment_of_writer hwriter
  have hline : ∀ k, ((endWaiting ((setRole s l w .watcher).post w .writeLost l 4) l .writeLost).line k).att.list
      = ((setRole s l w .watcher).line k).att.list := by
    intro k
    rw [line_endWaiting]
    split
    · subst k
      rfl
    · rfl
  have hforgotten : Lawful s (forgetWriter (endWaiting ((setRole s l w .watcher).post w .writeLost l 4) l .writeLost) l) :=
    { table := fun ha => hforget.lawful.table ((table_demote ha l w).of_list hline)
      waiting := fun ha hs => hforget.lawful.waiting ((table_demote ha l w).of_list hline)
        (((WaitingElse.of hs l).onLine honline (waiting_setRole s l w _)).endWaiting _)
      causes := fun _ _ hs => by
        have hdemoted : CausesTold (setRole s l w .watcher) l := ⟨fun q => causesAgree_setRole s w q _ _ ((hs.told l).agree q)⟩
        have hposted := post_told .writeLost 4 (.inl rfl) hattached hdemoted
        have hended : CausesTold (endWaiting ((setRole s l w .watcher).post w .writeLost l 4) l .writeLost) l := by
          refine hposted.keep ⟨fun q => ?_, causes_endWaiting _ l _⟩ ?_ ?_ <;> rw [line_endWaiting, if_pos rfl]
          · rfl
          · rfl
        exact hs.change (((Beside.of_onLine honline).trans (.endWaiting _ l _)).trans (.of_onLine hforget.calm.toOnLine))
          (forgetWriter_told hended) (.of_none (drainMark_forgetWriter _ l))
      marks := fun hm => hforget.lawful.marks ((endWaiting_lawful _ l _).marks (hm.change honline.other
        ((unmarked_setRole s l w _).mpr (hm l)))) }
  rw [loseWriter_eq]
  exact hforgotten.trans (event_sound _ _ _).lawful

/-! ## An attachment removed (R108, R113) -/

/-- The line without a port's attachment. -/
def dropAttachment (s : State) (l : LineId) (p : PortId) : State :=
  s.modAtt l fun x => { x with list := x.list.filter fun a => !decide (a.port = p) }

theorem list_dropAttachment (s : State) (l : LineId) (p : PortId) :
    ((dropAttachment s l p).line l).att.list = (s.line l).att.list.filter fun a => !decide (a.port = p) := by
  simp [dropAttachment]

theorem attachment_dropAttachment_self (s : State) (l : LineId) (p : PortId) :
    ((dropAttachment s l p).line l).attachment p = none := by
  simp [Line.attachment, list_dropAttachment]

theorem attachment_dropAttachment_ne {q : PortId} (s : State) (l : LineId) (hq : q ≠ p) :
    ((dropAttachment s l p).line l).attachment q = (s.line l).attachment q := by
  rw [Line.attachment, Line.attachment, list_dropAttachment, List.find?_filter]
  congr 1
  funext a
  by_cases ha : a.port = q
  · simp [ha, hq]
  · simp [ha]

/-- A line keeps its writer when another port's attachment leaves (R98). -/
theorem writer_dropAttachment_ne (hwriter : (s.line l).writer ≠ some p) :
    ((dropAttachment s l p).line l).writer = (s.line l).writer := by
  rw [Line.writer] at hwriter
  rw [Line.writer, Line.writer, list_dropAttachment]
  generalize (s.line l).att.list = as at hwriter
  induction as with
  | nil => rfl
  | cons a as ih =>
    by_cases hrole : a.role = .writer
    · have hport : a.port ≠ p := by simpa [hrole] using hwriter
      simp [hrole, hport]
    · have htail := ih (by simpa [hrole] using hwriter)
      by_cases hport : a.port = p
      · rw [List.filter_cons_of_neg (by simp [hport]), htail, List.find?_cons_of_neg (by simp [hrole])]
      · rw [List.filter_cons_of_pos (by simp [hport]), List.find?_cons_of_neg (by simp [hrole]), htail,
          List.find?_cons_of_neg (by simp [hrole])]

theorem table_dropAttachment (h : AttachmentTable s) (l : LineId) (p : PortId) : AttachmentTable (dropAttachment s l p) :=
  (Edit.leave (on := fun _ => True) (own := fun _ => True) s l p trivial).attachmentTable h

theorem removeAttachment_eq (s : State) (l : LineId) (p : PortId) (reason : WriterReason) :
    removeAttachment s l p reason = askEvaluation (if (s.line l).writer = some p then
      event (forgetWriter (dropAttachment s l p) l) l .writerSet [portByte none, reason.code] else dropAttachment s l p) l := rfl

/-- What the removal of an attachment has done before its records. -/
def removed (s : State) (l : LineId) (p : PortId) : State :=
  if (s.line l).writer = some p then forgetWriter (dropAttachment s l p) l else dropAttachment s l p

theorem removeAttachment_sound (s : State) (p : PortId) (reason : WriterReason) :
    Sound l (removed s l p) (removeAttachment s l p reason) := by
  rw [removeAttachment_eq, removed]
  split
  · exact (event_sound _ _ _).trans (askEvaluation_sound _)
  · exact askEvaluation_sound _

theorem dropAttachment_removed (s : State) (p : PortId) : Sound l (dropAttachment s l p) (removed s l p) := by
  unfold removed
  split
  · exact forgetWriter_sound _
  · exact .refl l _

theorem onLine_dropAttachment (s : State) (l : LineId) (p : PortId) : OnLine l s (dropAttachment s l p) :=
  .of_lines (fun _ hk => State.line_modLine_ne _ _ _ _ hk) fun _ => rfl

theorem removed_onLine (s : State) (p : PortId) : OnLine l s (removed s l p) :=
  (onLine_dropAttachment s l p).trans (dropAttachment_removed s p).calm.toOnLine

theorem table_removed (h : AttachmentTable s) (l : LineId) (p : PortId) : AttachmentTable (removed s l p) :=
  (dropAttachment_removed s p).lawful.table (table_dropAttachment h l p)

theorem waiting_removed (s : State) (l : LineId) (p : PortId) :
    ((removed s l p).line l).tx.waiting = (s.line l).tx.waiting := by
  rw [(dropAttachment_removed s p).calm.line.waiting]
  simp [dropAttachment]

theorem waitingAgrees_removed (hp : ¬ (s.port p).waits) (hs : WaitingAgrees s) (l : LineId) : WaitingAgrees (removed s l p) := by
  refine ((WaitingElse.of hs l).onLine (removed_onLine s p) (waiting_removed s l p)).all fun w hw => ?_
  rw [waiting_removed] at hw
  have hwriter := hs.2 l w hw
  have hne : (s.line l).writer ≠ some p := by
    rw [hwriter]
    exact fun e => hs.not_waiting hp hw (Option.some.inj e)
  rw [removed, if_neg hne, writer_dropAttachment_ne hne, hwriter]

theorem unmarked_removed (h : (s.line l).unmarked) : ((removed s l p).line l).unmarked := by
  refine (dropAttachment_removed s p).clear ?_
  rw [dropAttachment, State.modAtt_eq, State.line_modLine_self]
  exact h

/-- With a port's attachment and its causes for the line gone, what is told of the other ports stands. -/
theorem told_removed (hagree : ∀ q, q ≠ p → (s.line l).causesAgree l q (s.port q)) (hnone : ∀ c ∈ (s.port p).causes, c.line ≠ l) :
    CausesTold (removed s l p) l := by
  have hdropped : CausesTold (dropAttachment s l p) l := by
    refine ⟨fun q => ?_⟩
    by_cases hq : q = p
    · subst hq
      rw [Line.causesAgree_none (attachment_dropAttachment_self s l q), Line.marksAgree, attachment_dropAttachment_self]
      exact hnone
    · refine Line.causesAgree_sameTold (g := id) (fun _ => rfl) ?_ ?_ ?_ (hagree q hq)
      · rw [attachment_dropAttachment_ne s l hq, Option.map_id]
        rfl
      · simp [dropAttachment, Line.closed]
      · simp [dropAttachment]
  unfold removed
  split
  · exact forgetWriter_told hdropped
  · exact hdropped

theorem held_removed (h : DrainHeld s l) (p : PortId) : DrainHeld (removed s l p) l := by
  unfold removed
  split
  · exact .of_none (drainMark_forgetWriter _ l)
  · rename_i hne
    intro q hq
    rw [writer_dropAttachment_ne hne]
    refine h q ?_
    simpa [dropAttachment] using hq

/-- A port's attachment removed, once the port has no cause for the line. -/
theorem removeAttachment_lawful (hp : ¬ (s.port p).waits) (hnone : ∀ c ∈ (s.port p).causes, c.line ≠ l) (reason : WriterReason) :
    Lawful s (removeAttachment s l p reason) := by
  have hremoved : Lawful s (removed s l p) :=
    { table := fun ha => table_removed ha l p
      waiting := fun _ hs => waitingAgrees_removed hp hs l
      causes := fun _ _ hs => hs.change (.of_onLine (removed_onLine s p)) (told_removed (fun q _ => (hs.told l).agree q) hnone)
        (held_removed (hs.held l) p)
      marks := fun hm => hm.change (removed_onLine s p).other (unmarked_removed (hm l)) }
  exact hremoved.trans (removeAttachment_sound s p reason).lawful

/-! ## Causes that are taken away -/

/-- The causes of a line taken away from a port, with the port's attachment there (R108). -/
theorem detach_lawful (hp : ¬ (s.port p).waits) (l : LineId) (reason : WriterReason) :
    Lawful s (removeAttachment (s.modPort p fun x => { x with causes := x.causes.filter fun c => !decide (c.line = l) }) l p reason) := by
  generalize hv : (s.modPort p fun x => { x with causes := x.causes.filter fun c => !decide (c.line = l) }) = v
  have hports : ∀ q, (v.port q).phase = (s.port q).phase := by
    subst hv
    intro q
    rw [State.port_modPort]
    split
    · subst q
      rfl
    · rfl
  have hlines : ∀ k, v.line k = s.line k := by
    subst hv
    exact fun k => rfl
  have hcauses : v.port p = { s.port p with causes := (s.port p).causes.filter fun c => !decide (c.line = l) } := by
    subst hv
    rw [State.port_modPort_self]
  have hne : ∀ q, q ≠ p → v.port q = s.port q := by
    subst hv
    exact fun q hq => State.port_modPort_ne _ _ _ _ hq
  have hbeside : Beside l s v := by
    refine ⟨fun k _ => hlines k, fun k hk q c hc => ?_⟩
    by_cases hq : q = p
    · subst hq
      rw [hcauses]
      simp [hc, hk]
    · rw [hne q hq]
  have hnone : ∀ c ∈ (v.port p).causes, c.line ≠ l := by
    rw [hcauses]
    intro c hc
    simpa using (List.mem_filter.mp hc).2
  have hvp : ¬ (v.port p).waits := by
    rw [Port.waits, hports]
    exact hp
  have hwaits : WaitingAgrees s → WaitingAgrees v := by
    rintro ⟨h1, h2⟩
    refine ⟨fun q k => ?_, fun k w => ?_⟩
    · rw [hports, hlines]
      exact h1 q k
    · rw [hlines]
      exact h2 k w
  have hremoved : Lawful s (removed v l p) :=
    { table := fun ha => table_removed (ha.of_list fun k => by rw [hlines]) l p
      waiting := fun _ hs => waitingAgrees_removed hvp (hwaits hs) l
      causes := fun _ _ hs => hs.change (hbeside.trans (.of_onLine (removed_onLine v p)))
        (told_removed (fun q hq => by rw [hlines, hne q hq]; exact (hs.told l).agree q) hnone)
        (held_removed (fun q hq => by rw [hlines] at hq ⊢; exact hs.held l q hq) p)
      marks := fun hm => (hm.change (fun k hk => by rw [(removed_onLine v p).other k hk, hlines])
        (unmarked_removed (by rw [hlines]; exact hm l))) }
  exact hremoved.trans (removeAttachment_sound v p reason).lawful

theorem mem_tail_hasCause {c : Cause} {rest : List Cause} {x : Port} {k : CauseKind} (h : x.causes = c :: rest)
    (hk : c.kind ≠ k ∨ c.line ≠ l) : ({ x with causes := rest } : Port).hasCause k l = x.hasCause k l := by
  have hne : ¬ (c.kind = k ∧ c.line = l) := fun e => hk.elim (· e.1) (· e.2)
  simp [Port.hasCause, h, hne]

/-- NEXT CAUSE takes away a cause that a report removes (R160, R170). -/
theorem reportCause_lawful {c : Cause} {rest : List Cause} (hcauses : (s.port p).causes = c :: rest)
    (hrem : removedByReport (s.line c.line) p c.kind = true) :
    Lawful s (s.modPort p fun x => { x with causes := rest }) where
  table := id
  waiting _ hs := by
    refine ⟨fun q k => ?_, hs.2⟩
    rw [State.port_modPort, State.line_modPort, ← hs.1 q k]
    split
    · subst q
      rfl
    · rfl
  causes _ _ hs := by
    refine .of fun k => ⟨⟨fun q => ?_⟩, hs.held k⟩
    rw [State.port_modPort, State.line_modPort]
    split
    · subst q
      have h := (hs.told k).agree p
      unfold Line.causesAgree at h ⊢
      split
      · rename_i ha
        rw [ha] at h
        exact fun d hd => h d (by rw [hcauses]; exact List.mem_cons_of_mem c hd)
      · rename_i a ha
        rw [ha] at h
        have kept : ∀ kind, (c.kind ≠ kind ∨ c.line ≠ k) →
            ({ s.port p with causes := rest } : Port).hasCause kind k = (s.port p).hasCause kind k := fun kind =>
          mem_tail_hasCause hcauses
        have hover : c.kind ≠ .overtaken := fun e => by simp [e, removedByReport] at hrem
        have hcond : c.kind ≠ .condition := fun e => by simp [e, removedByReport] at hrem
        rw [kept _ (.inl hover), kept _ (.inl hcond)]
        refine ⟨h.1, h.2.1, ?_⟩
        have hdata := h.2.2
        split
        · rename_i trigger hmode
          rw [hmode] at hdata
          rw [kept .data]
          · exact hdata
          · by_contra hboth
            simp only [not_or, not_not] at hboth
            obtain ⟨hkind, hline⟩ := hboth
            rw [hline, hkind] at hrem
            simp [removedByReport, ha, hmode] at hrem
        · rename_i hmode
          rw [hmode] at hdata
          simp only [Port.hasCause, hcauses, List.any_cons, Bool.or_eq_false_iff] at hdata
          exact hdata.2
        · trivial
    · exact (hs.told k).agree q
  marks := id

end Sys2Proof.Machine
end

section
/-! Proofs: ATTACH keeps the tables, the waits, the causes and the marks. -/

namespace Sys2Proof.Machine

variable {l : LineId} {s t u : State} {p : PortId}

/-! ## Operations that leave the causes of one port to be worked out -/

/-- An operation on a line as lawful, but for the causes of one port there, whose overtaken mark alone stays told. -/
structure LawfulBut (p : PortId) (l : LineId) (s t : State) : Prop where
  table : AttachmentTable s → AttachmentTable t
  waiting : WaitingAgrees s → WaitingAgrees t
  marks : MarksClear s → MarksClear t
  beside : Beside l s t
  told : ToldBut p s l → ToldBut p t l
  held : DrainHeld s l → DrainHeld t l
  attached : (s.line l).attachment p ≠ none → (t.line l).attachment p ≠ none
  idles : ¬ (s.port p).waits → ¬ (t.port p).waits

theorem LawfulBut.trans (h : LawfulBut p l s t) (k : LawfulBut p l t u) : LawfulBut p l s u where
  table := k.table ∘ h.table
  waiting := k.waiting ∘ h.waiting
  marks := k.marks ∘ h.marks
  beside := h.beside.trans k.beside
  told := k.told ∘ h.told
  held := k.held ∘ h.held
  attached := k.attached ∘ h.attached
  idles := k.idles ∘ h.idles

theorem attachment_ne_none_iff (x : Line) (p : PortId) : x.attachment p ≠ none ↔ p ∈ x.roles.map (·.1) := by
  simp [Line.attachment, Line.roles, List.find?_eq_none]

theorem Sound.lawfulBut (h : Sound l s t) (told : ToldBut p s l → ToldBut p t l) : LawfulBut p l s t where
  table := h.lawful.table
  waiting hs := by
    refine ((WaitingElse.of hs l).onLine h.calm.toOnLine h.calm.line.waiting).all fun w hw => ?_
    rw [h.calm.line.waiting] at hw
    rw [h.calm.line.writer]
    exact hs.2 l w hw
  marks := h.lawful.marks
  beside := .of_onLine h.calm.toOnLine
  told := told
  held := h.calm.drainHeld
  attached ha := by
    rw [attachment_ne_none_iff] at ha ⊢
    rw [h.calm.line.roles]
    exact ha
  idles hw := by
    rw [Port.waits, h.calm.phase]
    exact hw

/-- A change of the line that no cause tells of keeps the causes of every port but one. -/
theorem ToldBut.line (h : ToldBut p s l) (f : Line → Line) (hatt : (f (s.line l)).att.list = (s.line l).att.list)
    (hclosed : (f (s.line l)).closed = (s.line l).closed) (hold : (f (s.line l)).cap.oldest = (s.line l).cap.oldest) :
    ToldBut p (s.modLine l f) l :=
  h.keep (.line s f hatt) (by rw [State.line_modLine_self]; exact hclosed) (by rw [State.line_modLine_self]; exact hold)

theorem writerSet_lawfulBut (s : State) (q : Option PortId) (reason : WriterReason) :
    LawfulBut p l s (writerSet s l q reason) :=
  (event_sound s _ _).lawfulBut ((toldBut_rule l p).event s _ _)

theorem restartLease_lawfulBut (s : State) : LawfulBut p l s (restartLease s l) :=
  (restartLease_sound s).lawfulBut fun h => h.line _ rfl rfl rfl

theorem emptyQueue_lawfulBut (s : State) : LawfulBut p l s (emptyQueue s l) :=
  (emptyQueue_sound s).lawfulBut fun h => h.line _ rfl rfl rfl

theorem toldBut_setRole (h : ToldBut p s l) (q : PortId) (r : Role) : ToldBut p (setRole s l q r) l where
  agree v hv := causesAgree_setRole s q v r _ (h.agree v hv)
  mark := by
    intro a ha
    rw [attachment_setRole] at ha
    obtain ⟨b, hb, rfl⟩ := Option.map_eq_some_iff.mp ha
    have := h.mark b hb
    split <;> exact this

theorem toldBut_dropDrainMark (h : ToldBut p s l) : ToldBut p (dropDrainMark s l) l :=
  h.line (fun x => { x with tx := { x.tx with drainMark := none } }) rfl rfl rfl

theorem attached_setRole (q : PortId) (r : Role) (h : (s.line l).attachment p ≠ none) :
    ((setRole s l q r).line l).attachment p ≠ none := by
  rw [attachment_setRole]
  simpa using h

/-! ## The writer role granted (R105, R106) -/

theorem table_promote (h : AttachmentTable s) (hwriter : (s.line l).writer = none) : AttachmentTable (setRole s l p .writer) :=
  (Edit.promote (on := fun _ => True) (own := fun _ => True) s l p trivial hwriter).attachmentTable h

/-- The role granted on a line without a writer, before its record. -/
theorem promote_lawfulBut (hwriter : (s.line l).writer = none) (ha : (s.line l).attachment p ≠ none) :
    LawfulBut p l s (dropDrainMark (setRole s l p .writer) l) := by
  have hdrop := dropDrainMark_sound (l := l) (setRole s l p .writer)
  exact
    { table := fun h => hdrop.lawful.table (table_promote h hwriter)
      waiting := fun hs => by
        refine ((WaitingElse.of hs l).onLine ((onLine_setRole s l p _).trans hdrop.calm.toOnLine)
          (hdrop.calm.line.waiting.trans (waiting_setRole s l p _))).all fun w hw => ?_
        rw [hdrop.calm.line.waiting, waiting_setRole] at hw
        have hnone := hs.2 l w hw
        rw [hwriter] at hnone
        cases hnone
      marks := fun hm => hm.change ((onLine_setRole s l p _).trans hdrop.calm.toOnLine).other
        (hdrop.clear ((unmarked_setRole s l p _).mpr (hm l)))
      beside := .of_onLine ((onLine_setRole s l p _).trans hdrop.calm.toOnLine)
      told := fun h => toldBut_dropDrainMark (toldBut_setRole h p _)
      held := fun _ => .of_none (by simp [dropDrainMark])
      attached := fun _ => by
        have hrole := attached_setRole (s := s) (l := l) (p := p) p .writer ha
        rw [dropDrainMark, State.modTx_eq, State.line_modLine_self]
        exact hrole
      idles := id }

theorem table_take {w : PortId} (h : AttachmentTable s) (hwriter : (s.line l).writer = some w) :
    AttachmentTable (setRole (setRole s l w .watcher) l p .writer) :=
  (Edit.take (on := fun _ => True) (own := fun _ => True) s l w p trivial hwriter).attachmentTable h

/-- The role taken from another port, before its record, as setRole of the two and a post at the port that loses it. -/
def takeRole (s : State) (l : LineId) (w p : PortId) : State :=
  setRole ((setRole s l w .watcher).post w .writeLost l 2) l p .writer

theorem takeRole_eq (s : State) (l : LineId) (w p : PortId) :
    takeRole s l w p = (setRole (setRole s l w .watcher) l p .writer).post w .writeLost l 2 := rfl

theorem onLine_takeRole (s : State) (l : LineId) (w p : PortId) : OnLine l s (takeRole s l w p) := by
  rw [takeRole_eq]
  exact ((onLine_setRole s l w _).trans (onLine_setRole _ l p _)).trans (Calm.post _ w .writeLost 2).toOnLine

theorem toldBut_takeRole {w : PortId} (hwriter : (s.line l).writer = some w) (hwp : w ≠ p) (h : ToldBut p s l) :
    ToldBut p (takeRole s l w p) l := by
  have hroles := toldBut_setRole (toldBut_setRole h w .watcher) p .writer
  have hattached : ((setRole (setRole s l w .watcher) l p .writer).line l).attachment w ≠ none :=
    attached_setRole p _ (attached_setRole w _ (Line.attachment_of_writer hwriter))
  rw [takeRole_eq]
  generalize setRole (setRole s l w .watcher) l p .writer = v at hroles hattached
  have hport := ForPort.post (l := l) v w .writeLost 2
  refine ⟨fun q hq => ?_, ?_⟩
  · by_cases hqw : q = w
    · subst hqw
      obtain ⟨a, ha⟩ := Option.ne_none_iff_exists'.mp hattached
      obtain ⟨hmarks, hlevel⟩ := (Line.causesAgree_some ha).mp (hroles.agree q hq)
      obtain ⟨hover, hcond, hnone⟩ := (Line.marksAgree_some ha).mp hmarks
      refine (Line.causesAgree_some (ln := (v.post q .writeLost l 2).line l) ha).mpr
        ⟨(Line.marksAgree_some (ln := (v.post q .writeLost l 2).line l) ha).mpr ?_, fun k hk => ?_⟩
      · simp only [State.hasCause_post]
        exact ⟨by simpa using hover, by simpa using hcond, by simpa using hnone⟩
      · simp only [State.hasCause_post]
        simpa using hlevel k hk
    · exact (hport.told_other hqw).mpr (hroles.agree q hq)
  · obtain ⟨hsame, hatt⟩ := hport.1 p (Ne.symm hwp)
    exact Line.markTold_congr hatt (by rw [hsame]) hroles.mark

/-- The role taken, its record written and the line's wait ended (R106). -/
theorem take_lawfulBut {w : PortId} (hwriter : (s.line l).writer = some w) (hwp : w ≠ p) :
    LawfulBut p l s
      (endWaiting (dropDrainMark (writerSet (takeRole s l w p) l (some p) .take) l) l .writeLost) := by
  have hset := event_sound (l := l) (takeRole s l w p) .writerSet [portByte (some p), WriterReason.take.code]
  have hdrop := dropDrainMark_sound (l := l) (writerSet (takeRole s l w p) l (some p) .take)
  have hsound := hset.trans hdrop
  have honline := (onLine_takeRole s l w p).trans hsound.calm.toOnLine
  have hwait : ((dropDrainMark (writerSet (takeRole s l w p) l (some p) .take) l).line l).tx.waiting = (s.line l).tx.waiting := by
    rw [hsound.calm.line.waiting, takeRole_eq, State.line_post, waiting_setRole, waiting_setRole]
  generalize hv : dropDrainMark (writerSet (takeRole s l w p) l (some p) .take) l = v at hsound honline hwait
  have hline : ∀ k, ((endWaiting v l .writeLost).line k).att.list = (v.line k).att.list := by
    intro k
    rw [line_endWaiting]
    split
    · subst k
      rfl
    · rfl
  have htable : AttachmentTable s → AttachmentTable v := fun h => hsound.lawful.table (table_take h hwriter)
  exact
    { table := fun h => (htable h).of_list hline
      waiting := fun hs => ((WaitingElse.of hs l).onLine honline hwait).endWaiting _
      marks := fun hm => by
        refine (endWaiting_lawful v l _).marks (hm.change honline.other (hsound.clear ?_))
        rw [takeRole_eq, State.line_post, unmarked_setRole, unmarked_setRole]
        exact hm l
      beside := (Beside.of_onLine honline).trans (.endWaiting v l _)
      told := fun h => by
        have hrecorded := (toldBut_rule l p).event _ .writerSet [portByte (some p), WriterReason.take.code]
          (toldBut_takeRole hwriter hwp h)
        have hdropped : ToldBut p v l := hv ▸ toldBut_dropDrainMark hrecorded
        refine hdropped.keep ⟨fun q => ?_, causes_endWaiting v l _⟩ ?_ ?_ <;> rw [line_endWaiting, if_pos rfl]
        · rfl
        · rfl
      held := fun _ => .of_none (by
        rw [line_endWaiting, if_pos rfl, ← hv]
        simp [dropDrainMark])
      attached := fun ha => by
        rw [line_endWaiting, if_pos rfl]
        have hroles : (takeRole s l w p |>.line l).attachment p ≠ none := by
          rw [takeRole_eq, State.line_post]
          exact attached_setRole p _ (attached_setRole w _ ha)
        rw [attachment_ne_none_iff] at hroles ⊢
        rw [← hsound.calm.line.roles] at hroles
        exact hroles
      idles := fun hp => by
        have hvp : ¬ (v.port p).waits := by
          rw [Port.waits, honline.phase]
          exact hp
        cases hw : (v.line l).tx.waiting with
        | none =>
          rw [endWaiting_of_none _ hw]
          exact hvp
        | some y =>
          obtain ⟨r, -, e⟩ := endWaiting_of_some .writeLost hw
          rw [e, port_finishWaiting]
          split
          · exact Port.not_waits_of_phase rfl nofun
          · exact hvp }

theorem grantRole_lawfulBut (ha : (s.line l).attachment p ≠ none) (flush : Bool) : LawfulBut p l s (grantRole s l p flush) := by
  unfold grantRole
  split
  · rename_i hwriter
    exact ((promote_lawfulBut hwriter ha).trans (writerSet_lawfulBut _ _ _)).trans (restartLease_lawfulBut _)
  · rename_i w hwriter
    split
    · exact restartLease_lawfulBut s
    · rename_i hwp
      have htake := take_lawfulBut hwriter hwp
      dsimp only
      split
      · exact (htake.trans (emptyQueue_lawfulBut _)).trans (restartLease_lawfulBut _)
      · exact htake.trans (restartLease_lawfulBut _)

/-! ## The attachment made or updated (R103, R104) -/

theorem Calm.of_att (s : State) (f : Line → Line) (hw : (f (s.line l)).tx = (s.line l).tx)
    (hr : (f (s.line l)).roles = (s.line l).roles) : Calm l s (s.modLine l f) :=
  .modLine s f ⟨by rw [hw], hr, fun p => by rw [hw]; exact id⟩

/-- The attachment that an ATTACH makes (R103). -/
def newAttachment (x : Line) (p : PortId) (a : AttachArgs) : Attachment where
  port := p
  role := .watcher
  cursor := if a.fromOldest then x.cap.oldest else x.cap.next
  overtaken := false
  mode := a.mode
  lossless := a.lossless
  conditionEnable := a.conditionEnable
  watchEnable := a.watchEnable
  latch := 0

/-- The attachment that an ATTACH updates, but for what from-oldest does (R104). -/
def Attachment.update (a : AttachArgs) (x : Attachment) : Attachment :=
  { x with mode := a.mode, lossless := a.lossless, conditionEnable := a.conditionEnable, watchEnable := a.watchEnable }

/-- The attachment moved to the oldest number, with its overtaken mark cleared (R104). -/
def restart (s : State) (l : LineId) (p : PortId) (oldest : Seq) : State :=
  clearOvertaken (s.modAttachment l p fun x => { x with cursor := oldest }) l p

theorem attachOrUpdate_of_none (h : (s.line l).attachment p = none) (a : AttachArgs) :
    attachOrUpdate s l p a
      = s.modAtt l fun x => { x with list := x.list ++ [newAttachment (s.line l) p a] } := by
  rw [attachOrUpdate, h]
  exact State.modLine_congr s l rfl

theorem attachOrUpdate_of_some {b : Attachment} (h : (s.line l).attachment p = some b) (a : AttachArgs) :
    attachOrUpdate s l p a = if a.fromOldest then restart (s.modAttachment l p (Attachment.update a)) l p (s.line l).cap.oldest
      else s.modAttachment l p (Attachment.update a) := by
  rw [attachOrUpdate, h]
  rfl

theorem update_calm (s : State) (p : PortId) (a : AttachArgs) : Calm l s (s.modAttachment l p (Attachment.update a)) :=
  .modAttachment s p _ fun _ => ⟨rfl, rfl⟩

theorem restart_calm (s : State) (p : PortId) (oldest : Seq) : Calm l s (restart s l p oldest) :=
  (Calm.modAttachment s p (fun x => { x with cursor := oldest }) fun _ => ⟨rfl, rfl⟩).trans (clearOvertaken_calm _ p)

theorem unmarked_restart (s : State) (l : LineId) (p : PortId) (oldest : Seq) :
    ((restart s l p oldest).line l).unmarked ↔ (s.line l).unmarked :=
  (unmarked_clearOvertaken _ l p).trans (unmarked_modAttachment s l p _)

theorem attachment_restart {b : Attachment} (h : (s.line l).attachment p = some b) (oldest : Seq) :
    ((restart s l p oldest).line l).attachment p = some { b with cursor := oldest, overtaken := false } :=
  attachment_clearOvertaken (State.attachment_modAttachment_self (fun x => { x with cursor := oldest }) (fun _ => rfl) h)

theorem restart_forPort (s : State) (p : PortId) (oldest : Seq) : ForPort l p s (restart s l p oldest) :=
  (ForPort.modAttachment s p (fun x => { x with cursor := oldest }) fun _ => rfl).trans (clearOvertaken_forPort _ p)

theorem toldBut_forPort (h : ForPort l p s t) (hs : ToldBut p s l)
    (mark : (s.line l).markTold l p (s.port p) → (t.line l).markTold l p (t.port p)) : ToldBut p t l :=
  ⟨fun q hq => (h.told_other hq).mpr (hs.agree q hq), mark hs.mark⟩

theorem toldBut_update (h : ToldBut p s l) (a : AttachArgs) : ToldBut p (s.modAttachment l p (Attachment.update a)) l := by
  refine toldBut_forPort (.modAttachment s p _ fun _ => rfl) h fun hm b hb => ?_
  rw [State.attachment_modAttachment s l p p (Attachment.update a) fun _ => rfl, if_pos rfl] at hb
  obtain ⟨c, hc, rfl⟩ := Option.map_eq_some_iff.mp hb
  exact hm c hc

theorem toldBut_restart (h : ToldBut p s l) (oldest : Seq) : ToldBut p (restart s l p oldest) l := by
  refine toldBut_forPort (restart_forPort s p oldest) h fun hm b hb => ?_
  cases ha : (s.line l).attachment p with
  | none =>
    have hnone : ((restart s l p oldest).line l).attachment p = none := by
      rw [restart, clearOvertaken, State.line_unpost, modAttachment_of_none _ ha, modAttachment_of_none _ ha, ha]
    rw [hnone] at hb
    cases hb
  | some c =>
    rw [attachment_restart ha] at hb
    obtain rfl := Option.some.inj hb
    simp [restart, clearOvertaken, State.hasCause_unpost]

/-- An attachment joins the end of a list: other ports keep theirs. -/
theorem attachment_append (x : Line) (b : Attachment) (q : PortId) :
    ({ x with att := { x.att with list := x.att.list ++ [b] } } : Line).attachment q
      = (x.attachment q).or (if b.port = q then some b else none) := by
  by_cases hb : b.port = q <;> simp [Line.attachment, List.find?_append, hb]

theorem writer_append_watcher (x : Line) {b : Attachment} (hb : b.role = .watcher) :
    ({ x with att := { x.att with list := x.att.list ++ [b] } } : Line).writer = x.writer := by
  simp [Line.writer, List.find?_append, hb]

/-- An ATTACH's attachment, made or updated. -/
theorem attachOrUpdate_lawful (s : State) (l : LineId) (p : PortId) (a : AttachArgs) :
    (AttachmentTable s → AttachmentTable (attachOrUpdate s l p a)) ∧ (WaitingAgrees s → WaitingAgrees (attachOrUpdate s l p a))
      ∧ (MarksClear s → MarksClear (attachOrUpdate s l p a)) ∧ OnLine l s (attachOrUpdate s l p a)
      ∧ (CausesTold s l → ToldBut p (attachOrUpdate s l p a) l) ∧ (DrainHeld s l → DrainHeld (attachOrUpdate s l p a) l)
      ∧ ((attachOrUpdate s l p a).line l).attachment p ≠ none := by
  have updated : ∀ v : State, Calm l s v → ((v.line l).unmarked ↔ (s.line l).unmarked) → (ToldBut p s l → ToldBut p v l) →
      (v.line l).attachment p ≠ none →
      (AttachmentTable s → AttachmentTable v) ∧ (WaitingAgrees s → WaitingAgrees v) ∧ (MarksClear s → MarksClear v) ∧ OnLine l s v
        ∧ (CausesTold s l → ToldBut p v l) ∧ (DrainHeld s l → DrainHeld v l) ∧ (v.line l).attachment p ≠ none := by
    intro v hcalm hmarks htold hatt
    refine ⟨fun h => h.change hcalm.other (hcalm.line.tableOk (h l)), fun hs => ?_,
      fun hm => hm.change hcalm.other (hmarks.mpr (hm l)), hcalm.toOnLine, fun h => htold (h.but p), hcalm.drainHeld, hatt⟩
    refine ((WaitingElse.of hs l).onLine hcalm.toOnLine hcalm.line.waiting).all fun w hw => ?_
    rw [hcalm.line.waiting] at hw
    rw [hcalm.line.writer]
    exact hs.2 l w hw
  cases ha : (s.line l).attachment p with
  | some b =>
    have hb : ((s.modAttachment l p (Attachment.update a)).line l).attachment p = some (b.update a) :=
      State.attachment_modAttachment_self _ (fun _ => rfl) ha
    rw [attachOrUpdate_of_some ha]
    split
    · refine updated _ ((update_calm s p a).trans (restart_calm _ p _))
        ((unmarked_restart _ l p _).trans (unmarked_modAttachment s l p _)) (fun h => toldBut_restart (toldBut_update h a) _) ?_
      rw [attachment_restart hb]
      exact Option.some_ne_none _
    · refine updated _ (update_calm s p a) (unmarked_modAttachment s l p _) (fun h => toldBut_update h a) ?_
      rw [hb]
      exact Option.some_ne_none _
  | none =>
    rw [attachOrUpdate_of_none ha]
    have hline : ((s.modAtt l fun x => { x with list := x.list ++ [newAttachment (s.line l) p a] }).line l)
        = { s.line l with att := { (s.line l).att with list := (s.line l).att.list ++ [newAttachment (s.line l) p a] } } := by
      rw [State.modAtt_eq, State.line_modLine_self]
    have hwriter : ((s.modAtt l fun x => { x with list := x.list ++ [newAttachment (s.line l) p a] }).line l).writer
        = (s.line l).writer := by
      rw [hline]
      exact writer_append_watcher _ rfl
    have hnew : ((s.modAtt l fun x => { x with list := x.list ++ [newAttachment (s.line l) p a] }).line l).attachment p
        = some (newAttachment (s.line l) p a) := by
      rw [hline, attachment_append, ha, if_pos (by rfl)]
      rfl
    have honline : OnLine l s (s.modAtt l fun x => { x with list := x.list ++ [newAttachment (s.line l) p a] }) :=
      .modLine s _
    refine ⟨fun h => (Edit.join (on := fun _ => True) (own := fun _ => True) s l _ trivial ha rfl).attachmentTable h, fun hs => ?_,
      fun hm => hm.change honline.other (by rw [hline]; exact hm l), honline, fun h => ?_, fun h q hq => ?_, ?_⟩
    · refine ((WaitingElse.of hs l).onLine honline (by rw [hline])).all fun w hw => ?_
      rw [hwriter]
      rw [hline] at hw
      exact hs.2 l w hw
    · have hnone : ∀ c ∈ (s.port p).causes, c.line ≠ l := by
        have := Line.marks_of_causesAgree (h.agree p)
        rwa [Line.marksAgree, ha] at this
      refine ⟨fun q hq => Line.causesAgree_sameTold (g := id) (fun _ => rfl) ?_ ?_ ?_ (h.agree q), fun b hb => ?_⟩
      · rw [hline, attachment_append, if_neg (by simpa [newAttachment] using Ne.symm hq), Option.or_none, Option.map_id]
        rfl
      · rw [hline]
        rfl
      · rw [hline]
      · rw [hnew] at hb
        obtain rfl := Option.some.inj hb
        refine iff_of_false ?_ (by simp [newAttachment])
        rw [State.modAtt_eq, State.port_modLine, Port.hasCause_iff]
        rintro ⟨c, hc, -, hl⟩
        exact hnone c hc hl
    · rw [hwriter]
      rw [hline] at hq
      exact h q hq
    · rw [hnew]
      exact Option.some_ne_none _

/-! ## The causes that an ATTACH calls for (R164, R168) -/

theorem completionData_calm (s : State) (p : PortId) : Calm l s (completionData l s p) := .of_work (completionData_noted s p).1

theorem unmarked_completionData (s : State) (l : LineId) (p : PortId) :
    ((completionData l s p).line l).unmarked ↔ (s.line l).unmarked := by
  obtain ⟨-, hpool, -, hhold, -⟩ := completionData_noted (l := l) s p
  simp only [Line.unmarked, hpool, hhold]

theorem unmarked_levelData (s : State) (l : LineId) (p : PortId) :
    ((levelData l s p).line l).unmarked ↔ (s.line l).unmarked := by
  obtain ⟨-, hpool, -, hhold, -⟩ := levelData_noted (l := l) s p
  simp only [Line.unmarked, hpool, hhold]

/-- The DATA cause that an ATTACH calls for, after the old one is removed. -/
def attachData (s : State) (l : LineId) (p : PortId) (a : Attachment) : State :=
  match a.mode with
  | .first _ => completionData l ((s.unpost p .data l).modAttachment l p fun x => { x with mode := .first true }) p
  | .level _ => levelData l (s.unpost p .data l) p
  | .none => s.unpost p .data l

theorem attachCauses_of_some {a : Attachment} (ha : (s.line l).attachment p = some a) :
    attachCauses s l p = if a.conditionEnable ∧ a.latch ≠ 0 then (attachData s l p a).post p .condition l 0
      else (attachData s l p a).unpost p .condition l := by
  rw [attachCauses, ha]
  rfl

theorem attachData_calm (s : State) (p : PortId) (a : Attachment) : Calm l s (attachData s l p a) := by
  unfold attachData
  split
  · exact ((Calm.unpost s p .data).trans (.modAttachment _ p (fun x => { x with mode := .first true }) fun _ => ⟨rfl, rfl⟩)).trans (completionData_calm _ p)
  · exact (Calm.unpost s p .data).trans (.of_work (levelData_noted _ p).1)
  · exact .unpost s p .data

theorem unmarked_attachData (s : State) (l : LineId) (p : PortId) (a : Attachment) :
    ((attachData s l p a).line l).unmarked ↔ (s.line l).unmarked := by
  unfold attachData
  split
  · rw [unmarked_completionData, unmarked_modAttachment, State.line_unpost]
  · rw [unmarked_levelData, State.line_unpost]
  · rw [State.line_unpost]

theorem attachData_forPort (s : State) (p : PortId) (a : Attachment) : ForPort l p s (attachData s l p a) := by
  unfold attachData
  split
  · exact ((ForPort.unpost s p .data).trans (.modAttachment _ p (fun x => { x with mode := .first true }) fun _ => rfl)).trans (completionData_forPort _ p)
  · exact (ForPort.unpost s p .data).trans (levelData_forPort _ p)
  · exact .unpost s p .data

theorem attachCauses_forPort (s : State) (p : PortId) : ForPort l p s (attachCauses s l p) := by
  cases ha : (s.line l).attachment p with
  | none =>
    rw [attachCauses, ha]
    exact .refl l p s
  | some a =>
    rw [attachCauses_of_some ha]
    split
    · exact (attachData_forPort s p a).trans (.post _ p .condition 0)
    · exact (attachData_forPort s p a).trans (.unpost _ p .condition)

theorem attachCauses_calm (s : State) (p : PortId) : Calm l s (attachCauses s l p) := by
  cases ha : (s.line l).attachment p with
  | none =>
    rw [attachCauses, ha]
    exact .refl l s
  | some a =>
    rw [attachCauses_of_some ha]
    split
    · exact (attachData_calm s p a).trans (.post _ p .condition 0)
    · exact (attachData_calm s p a).trans (.unpost _ p .condition)

theorem unmarked_attachCauses (s : State) (l : LineId) (p : PortId) :
    ((attachCauses s l p).line l).unmarked ↔ (s.line l).unmarked := by
  cases ha : (s.line l).attachment p with
  | none => rw [attachCauses, ha]
  | some a =>
    rw [attachCauses_of_some ha]
    split
    · rw [State.line_post, unmarked_attachData]
    · rw [State.line_unpost, unmarked_attachData]

theorem levelData_of_level {a : Attachment} {k : Byte} (ha : (s.line l).attachment p = some a) (hmode : a.mode = .level k) :
    levelData l s p = if k.toNat ≤ (s.line l).unread a then s.post p .data l 0 else s.unpost p .data l := by
  simp only [levelData, ha, hmode]

/-- What the DATA part of an ATTACH leaves: the attachment but for its armed flag, the mark told, and DATA as its mode has it. -/
theorem attachData_spec {a : Attachment} (ha : (s.line l).attachment p = some a)
    (hmark : (s.port p).hasCause .overtaken l = true ↔ a.overtaken = true) :
    ∃ b, ((attachData s l p a).line l).attachment p = some b ∧ b.conditionEnable = a.conditionEnable ∧ b.latch = a.latch
      ∧ (((attachData s l p a).port p).hasCause .overtaken l = true ↔ b.overtaken = true)
      ∧ (b.mode = .none → ((attachData s l p a).port p).hasCause .data l = false)
      ∧ ∀ k, b.mode = .level k →
        (((attachData s l p a).port p).hasCause .data l = true ↔ k.toNat ≤ ((attachData s l p a).line l).unread b) := by
  unfold attachData
  cases hmode : a.mode with
  | none =>
    refine ⟨a, ha, rfl, rfl, ?_, fun _ => ?_, fun k hk => ?_⟩
    · simpa [State.hasCause_unpost] using hmark
    · simp [State.hasCause_unpost]
    · rw [hmode] at hk
      cases hk
  | level k =>
    dsimp only
    rw [levelData_of_level (s := s.unpost p .data l) ha hmode]
    split
    · rename_i hk
      refine ⟨a, ha, rfl, rfl, ?_, fun h => ?_, fun j hj => ?_⟩
      · simpa [State.hasCause_post, State.hasCause_unpost] using hmark
      · rw [hmode] at h
        cases h
      · rw [hmode] at hj
        obtain rfl := Mode.level.inj hj
        simpa [State.hasCause_post] using hk
    · rename_i hk
      refine ⟨a, ha, rfl, rfl, ?_, fun h => ?_, fun j hj => ?_⟩
      · simpa [State.hasCause_unpost] using hmark
      · rw [hmode] at h
        cases h
      · rw [hmode] at hj
        obtain rfl := Mode.level.inj hj
        simpa [State.hasCause_unpost] using hk
  | first armed =>
    have harmed : (((s.unpost p .data l).modAttachment l p fun x => { x with mode := .first true }).line l).attachment p
        = some { a with mode := .first true } :=
      State.attachment_modAttachment_self (s := s.unpost p .data l) (fun x => { x with mode := .first true }) (fun _ => rfl) ha
    simp only [completionData, harmed]
    split
    · refine ⟨{ a with mode := .first false }, ?_, rfl, rfl, ?_, nofun, nofun⟩
      · exact State.attachment_modAttachment_self
          (s := ((s.unpost p .data l).modAttachment l p fun x => { x with mode := .first true }).post p .data l 0)
          (fun x => { x with mode := x.mode.disarmed }) (fun _ => rfl) harmed
      · simpa [State.hasCause_post, State.hasCause_unpost] using hmark
    · refine ⟨_, harmed, rfl, rfl, ?_, nofun, nofun⟩
      simpa [State.hasCause_unpost] using hmark

/-- The causes of the port that attaches agree once an ATTACH has worked them out. -/
theorem told_attachCauses (ha : (s.line l).attachment p ≠ none) (h : ToldBut p s l) : CausesTold (attachCauses s l p) l := by
  obtain ⟨a, ha⟩ := Option.ne_none_iff_exists'.mp ha
  obtain ⟨b, hb, henable, hlatch, hover, hnone, hlevel⟩ := attachData_spec ha (h.mark a ha)
  refine ⟨fun q => ?_⟩
  by_cases hq : q = p
  · subst hq
    rw [attachCauses_of_some ha, ← henable, ← hlatch]
    generalize attachData s l q a = v at hb hover hnone hlevel
    split
    · rename_i hcond
      refine (Line.causesAgree_some (ln := (v.post q .condition l 0).line l) hb).mpr
        ⟨(Line.marksAgree_some (ln := (v.post q .condition l 0).line l) hb).mpr ?_, fun k hk => ?_⟩
      · simp only [State.hasCause_post]
        exact ⟨by simpa using hover, by simpa using hcond, by simpa using hnone⟩
      · simp only [State.hasCause_post]
        simpa using hlevel k hk
    · rename_i hcond
      refine (Line.causesAgree_some (ln := (v.unpost q .condition l).line l) hb).mpr
        ⟨(Line.marksAgree_some (ln := (v.unpost q .condition l).line l) hb).mpr ?_, fun k hk => ?_⟩
      · simp only [State.hasCause_unpost]
        exact ⟨by simpa using hover, by simpa using hcond, by simpa using hnone⟩
      · simp only [State.hasCause_unpost]
        simpa using hlevel k hk
  · exact ((attachCauses_forPort s p).told_other hq).mpr (h.agree q hq)

/-- What an ATTACH that passes its checks does to its line. -/
def attachOn (s : State) (l : LineId) (p : PortId) (a : AttachArgs) : State :=
  askEvaluation (attachCauses (if a.writer then grantRole (attachOrUpdate s l p a) l p a.flush else attachOrUpdate s l p a) l p) l

theorem attachOn_served (s : State) (l : LineId) (p : PortId) (a : AttachArgs) : Served p s (attachOn s l p a) := by
  obtain ⟨htable, hwait, hmarks, honline, htold, hheld, hatt⟩ := attachOrUpdate_lawful s l p a
  have hgrant := grantRole_lawfulBut hatt a.flush
  have granted : ∀ v, (AttachmentTable (attachOrUpdate s l p a) → AttachmentTable v) →
      (WaitingAgrees (attachOrUpdate s l p a) → WaitingAgrees v) → (MarksClear (attachOrUpdate s l p a) → MarksClear v) →
      Beside l (attachOrUpdate s l p a) v → (ToldBut p (attachOrUpdate s l p a) l → ToldBut p v l) →
      (DrainHeld (attachOrUpdate s l p a) l → DrainHeld v l) → (v.line l).attachment p ≠ none →
      (¬ ((attachOrUpdate s l p a).port p).waits → ¬ (v.port p).waits) → Served p s (askEvaluation (attachCauses v l p) l) := by
    intro v ktable kwait kmarks kbeside ktold kheld katt kidles hp
    have hcalm := attachCauses_calm (l := l) v p
    have hworked : Lawful s (attachCauses v l p) :=
      { table := fun h => (ktable (htable h)).change hcalm.other (hcalm.line.tableOk (ktable (htable h) l))
        waiting := fun _ hs => by
          have hv := kwait (hwait hs)
          refine ((WaitingElse.of hv l).onLine hcalm.toOnLine hcalm.line.waiting).all fun w hw => ?_
          rw [hcalm.line.waiting] at hw
          rw [hcalm.line.writer]
          exact hv.2 l w hw
        causes := fun _ _ hs => hs.change (((Beside.of_onLine honline).trans kbeside).trans (.of_onLine hcalm.toOnLine))
          (told_attachCauses katt (ktold (htold (hs.told l)))) (hcalm.drainHeld (kheld (hheld (hs.held l))))
        marks := fun hm => (kmarks (hmarks hm)).change hcalm.other ((unmarked_attachCauses v l p).mpr (kmarks (hmarks hm) l)) }
    have hask := askEvaluation_sound (l := l) (attachCauses v l p)
    refine ⟨hworked.trans hask.lawful, ?_⟩
    have hvp : ¬ (v.port p).waits := kidles (by rw [Port.waits, honline.phase]; exact hp)
    rw [Port.waits, hask.calm.phase, hcalm.phase]
    exact hvp
  unfold attachOn
  split
  · exact granted _ hgrant.table hgrant.waiting hgrant.marks hgrant.beside hgrant.told hgrant.held (hgrant.attached hatt) hgrant.idles
  · exact granted _ id id id (.of_onLine (.refl l _)) id id hatt id

end Sys2Proof.Machine
end

section
/-! Proofs: every command keeps the waits, the causes that stand and clear marks. -/

namespace Sys2Proof.Machine

open Host

variable {l : LineId} {s t u : State} {p : PortId}

/-- Every state that a command reaches is reached lawfully. -/
def LawfulCommand (c : Instr) : Prop := ∀ s t, exec c s = .next t → Lawful s t

theorem LawfulCommand.of_next {c : Instr} {f : State → State} (hexec : ∀ s, exec c s = .next (f s))
    (h : ∀ s, Lawful s (f s)) : LawfulCommand c := fun s t ht => by
  obtain rfl := Outcome.next.inj ((hexec s).symm.trans ht)
  exact h s

namespace Served

theorem prepared (h : Lawful s t) (hp : ¬ (t.port p).waits) (r : Results) : Lawful s (Machine.prepare t p r) :=
  h.trans (Served.prepare t p r hp).1

/-- A sound rule, with its results prepared. -/
theorem sound_prepare (h : Sound l s t) (r : Results) : Served p s (Machine.prepare t p r) := (of_sound h p).trans (.prepare t p r)

theorem endWaiting (s : State) (p : PortId) (l : LineId) (code : ErrorCode) : Served p s (endWaiting s l code) := by
  refine fun hp => ⟨endWaiting_lawful s l code, ?_⟩
  cases hw : (s.line l).tx.waiting with
  | none =>
    rw [endWaiting_of_none _ hw]
    exact hp
  | some w =>
    obtain ⟨r, -, e⟩ := endWaiting_of_some code hw
    rw [e, port_finishWaiting]
    split
    · exact Port.not_waits_of_phase rfl nofun
    · exact hp

end Served

/-! ## Commands that read -/

theorem lawful_readTime (p : PortId) : LawfulCommand (.readTime p) :=
  .of_next (fun _ => rfl) fun _ => .takeCommand fun hw => (Served.prepare _ p _ hw).1

theorem lawful_badCommand (p : PortId) (code : Byte) : LawfulCommand (.badCommand p code) :=
  .of_next (fun _ => rfl) fun _ => .takeCommand fun hw => (Served.failCheck _ p _ hw).1

theorem lawful_nextCause (p : PortId) : LawfulCommand (.nextCause p) :=
  .of_next (fun _ => rfl) fun s => .takeCommand fun hw => by
    generalize beginCommand s p false = v at hw
    split
    · exact (Served.prepare v p _ hw).1
    · rename_i c rest hcauses
      dsimp only
      split
      · rename_i hrem
        refine Served.prepared (reportCause_lawful hcauses hrem) ?_ _
        rw [State.port_modPort_self]
        exact hw
      · exact (Served.prepare v p _ hw).1

theorem flushOpen_calm (s : State) : Calm l s (flushOpen s l) :=
  .of_recorded ((closeOpen_recorded s .read 0).trans (flushFrozen_recorded _))

theorem flushOpen_told (h : CausesTold s l) : CausesTold (flushOpen s l) l := flushFrozen_told (closeOpen_told _ _ h)

theorem Mode.first_of_disarmed {m m' : Mode} {armed : Bool} (h : m'.disarmed = m.disarmed) (hm : m = .first armed) :
    ∃ armed', m' = .first armed' := by
  subst hm
  cases m' with
  | first armed' => exact ⟨armed', rfl⟩
  | none => cases h
  | level k => cases h

/-- What READ NEW does before its fill: the flush, and a FIRST attachment's DATA cause taken away (R119, R120, R166). -/
def takeRead (s : State) (l : LineId) (p : PortId) (a : Attachment) : State :=
  settle (match a.mode with | .first _ => (flushOpen s l).unpost p .data l | .level _ | .none => flushOpen s l) l

theorem takeRead_sound {a : Attachment} (ha : (s.line l).attachment p = some a) : Sound l s (takeRead s l p a) := by
  have hflush : Recorded l s (flushOpen s l) := (closeOpen_recorded s .read 0).trans (flushFrozen_recorded _)
  unfold takeRead
  split
  · rename_i armed hmode
    obtain ⟨g, hg, hatt⟩ := hflush.attachment p
    rw [ha] at hatt
    obtain ⟨armed', hmode'⟩ := Mode.first_of_disarmed (hg a).2 hmode
    have hunpost := unpostData_sound hatt hmode'
    exact .settled ((flushOpen_calm s).trans hunpost.calm) fun hd h =>
      hunpost.told ((flushOpen_calm s).drainHeld hd) (flushOpen_told h)
  all_goals exact .settled (flushOpen_calm s) fun _ => flushOpen_told

theorem lawful_readNew (p : PortId) : LawfulCommand (.readNew p) :=
  .of_next (fun _ => rfl) fun _ => .lineCommand fun v l hw => by
    split
    · exact (Served.failCheck v p _ hw).1
    · rename_i a ha
      have htaken := Served.of_sound (takeRead_sound ha) p
      change Lawful v (match ((takeRead v l p a).line l).attachment p with
        | none => _
        | some b => _)
      split
      · exact (htaken.trans (.failCheck _ p _) hw).1
      · split
        · exact (htaken.trans (.complete _ p _) hw).1
        · exact (htaken.trans (.beginFill _ p _) hw).1

theorem lawful_readHistory (p : PortId) : LawfulCommand (.readHistory p) :=
  .of_next (fun _ => rfl) fun s => .lineCommand fun v l hw => by
    dsimp only
    split
    · exact (Served.failCheck v p _ hw).1
    · split
      · exact (Served.prepare v p _ hw).1
      · exact (Served.complete v p _ hw).1
      · split
        · exact (Served.complete v p _ hw).1
        · have hflush : ∀ f : State, f = v ∨ f = flushOpen v l → Sound l v (settle f l) := by
            rintro f (rfl | rfl)
            · exact .settled (.refl l f) fun _ => id
            · exact .settled (flushOpen_calm v) fun _ => flushOpen_told
          refine ((Served.of_sound (hflush _ ?_) p).trans (.beginFill _ p _) hw).1
          split
          · exact .inr rfl
          · exact .inl rfl

theorem lawful_countNew (p : PortId) : LawfulCommand (.countNew p) :=
  .of_next (fun _ => rfl) fun _ => .lineCommand fun v _ hw => (Served.prepare v p _ hw).1

theorem lawful_lineStatus (p : PortId) : LawfulCommand (.lineStatus p) :=
  .of_next (fun _ => rfl) fun _ => .lineCommand fun v _ hw => by
    split
    · exact (Served.beginFill v p _ hw).1
    · split
      · exact (Served.beginFill v p _ hw).1
      · exact (Served.failCheck v p _ hw).1

theorem lawful_seek (p : PortId) : LawfulCommand (.seek p) :=
  .of_next (fun _ => rfl) fun _ => .lineCommand fun v l hw => by
    split
    · exact (Served.failCheck v p _ hw).1
    · dsimp only
      split
      · exact (Served.failCheck v p _ hw).1
      · exact (Served.sound_prepare (seek_sound v p _) _ hw).1

/-! ## Attachments -/

theorem lawful_attach (p : PortId) : LawfulCommand (.attach p) :=
  .of_next (fun _ => rfl) fun _ => .lineCommand fun v l hw => by
    dsimp only
    split
    · exact (Served.failCheck v p _ hw).1
    · split
      · exact (Served.failCheck v p _ hw).1
      · split
        · exact (Served.prepare v p _ hw).1
        · exact ((attachOn_served v l p _).trans (.prepare _ p _) hw).1

theorem lawful_detach (p : PortId) : LawfulCommand (.detach p) :=
  .of_next (fun _ => rfl) fun _ => .lineCommand fun v l hw => by
    split
    · exact (Served.failCheck v p _ hw).1
    · refine Served.prepared (detach_lawful hw l .detach) ?_ _
      rw [Port.waits, (removeAttachment_sound _ p _).calm.phase, (removed_onLine _ p).phase, State.port_modPort_self]
      exact hw

theorem lawful_releaseWrite (p : PortId) : LawfulCommand (.releaseWrite p) :=
  .of_next (fun _ => rfl) fun _ => .lineCommand fun v l hw => by
    split
    · rename_i hwriter
      refine Served.prepared (releaseWrite_lawful hw hwriter .release) ?_ _
      rw [loseWriter_eq, Port.waits, (event_sound (l := l) _ _ _).calm.phase, (forgetWriter_sound (l := l) _).calm.phase,
        (onLine_setRole v l p .watcher).phase]
      exact hw
    · exact (Served.failCheck v p _ hw).1

theorem lawful_clearCondition (p : PortId) : LawfulCommand (.clearCondition p) :=
  .of_next (fun _ => rfl) fun _ => .lineCommand fun v l hw => by
    split
    · exact (Served.failCheck v p _ hw).1
    · exact (Served.sound_prepare (clearLatch_sound v p) _ hw).1

theorem lawful_rearm (p : PortId) : LawfulCommand (.rearm p) :=
  .of_next (fun _ => rfl) fun _ => .lineCommand fun v l hw => by
    split
    · exact (Served.failCheck v p _ hw).1
    · rename_i a ha
      split
      · dsimp only
        have harm := arm_sound (s := v) ha (decide ((v.line l).unread a = 0))
        split
        · have harmed := State.attachment_modAttachment_self
            (fun x => { x with mode := .first (decide ((v.line l).unread a = 0)) }) (fun _ => rfl) ha
          exact (Served.sound_prepare (harm.trans (postData_sound harmed rfl 0)) _ hw).1
        · exact (Served.sound_prepare harm _ hw).1
      · exact (Served.failCheck v p _ hw).1
      · exact (Served.failCheck v p _ hw).1

theorem lawful_leaseExpiry (l : LineId) : LawfulCommand (.leaseExpiry l) :=
  .of_next (fun _ => rfl) fun s => by
    split
    · exact .refl s
    · rename_i w hwriter
      split
      · exact leaseExpiry_lawful hwriter
      · exact .refl s

/-! ## Commands that write to a line -/

/-- A DRAINED cause tells of something past: what is told stands without it (R163). -/
theorem unpostDrained_sound (s : State) (p : PortId) : Sound l s (s.unpost p .drained l) := by
  refine .forPort (.unpost s p .drained) (.unpost s p .drained) (fun h => ?_) id
  cases ha : (s.line l).attachment p with
  | none =>
    rw [Line.causesAgree_none (ln := (s.unpost p .drained l).line l) ha, Line.marksAgree, State.line_unpost, ha]
    rw [Line.causesAgree_none ha, Line.marksAgree, ha] at h
    exact fun c hc => h c (State.mem_causes_unpost.mp hc).1
  | some a =>
    obtain ⟨hmarks, hlevel⟩ := (Line.causesAgree_some ha).mp h
    obtain ⟨hover, hcond, hnone⟩ := (Line.marksAgree_some ha).mp hmarks
    refine (Line.causesAgree_some (ln := (s.unpost p .drained l).line l) ha).mpr
      ⟨(Line.marksAgree_some (ln := (s.unpost p .drained l).line l) ha).mpr ?_, fun k hk => ?_⟩
    · simp only [State.hasCause_unpost]
      exact ⟨by simpa using hover, by simpa using hcond, by simpa using hnone⟩
    · simp only [State.hasCause_unpost]
      simpa using hlevel k hk

theorem lawful_send (p : PortId) : LawfulCommand (.send p) :=
  .of_next (fun _ => rfl) fun _ => .lineCommand fun v l hw => by
    dsimp only
    split
    · exact (Served.failCheck v p _ hw).1
    split
    · exact (Served.failCheck v p _ hw).1
    split
    · exact (Served.failCheck v p _ hw).1
    · exact ((Served.of_sound ((restartLease_sound v).trans (unpostDrained_sound _ p)) p).trans (.beginData _ p _ _) hw).1

theorem lawful_sendBreak (p : PortId) : LawfulCommand (.sendBreak p) :=
  .of_next (fun _ => rfl) fun _ => .lineCommand fun v l hw => by
    dsimp only
    split
    · exact (Served.failCheck v p _ hw).1
    split
    · exact (Served.failCheck v p _ hw).1
    rename_i hwriter
    split
    · exact (Served.failCheck v p _ hw).1
    · have hlease := restartLease_sound (l := l) v
      refine (hlease.lawful.trans (beginWaiting_lawful (p := p) (w := .sendBreak p (v.port p).value.toNat) rfl ?_ ?_)).trans
        (placeMarker_lawful _ l)
      · rw [Port.waits, hlease.calm.phase]
        exact hw
      · rw [hlease.calm.line.writer]
        exact not_not.mp hwriter

theorem lawful_resetLine (p : PortId) : LawfulCommand (.resetLine p) :=
  .of_next (fun _ => rfl) fun _ => .controlCommand fun v l hw => by
    dsimp only
    split
    · exact (Served.failCheck v p _ hw).1
    · have hflow : ∀ w : State, Sound l w (if decide ((v.line l).hold.state = .held) = true then placeFlow w l .xon else w) := by
        intro w
        split
        · exact placeFlow_sound w .xon
        · exact .refl l w
      exact (Served.sound_prepare ((((((resetTransmit_sound v).trans (tellHold_sound _)).trans (hflow _)).trans
        (resetReceive_sound _)).trans (eachLatch_sound .lineReset _)).trans (eventWithHoldEnd_sound _ _ _ _)) _ hw).1

theorem lawful_enterHunt (p : PortId) : LawfulCommand (.enterHunt p) :=
  .of_next (fun _ => rfl) fun _ => .controlCommand fun v l hw => by
    split
    · exact (Served.failCheck v p _ hw).1
    · exact (Served.sound_prepare (Sound.modCond (l := l) v _) _ hw).1
    all_goals exact (Served.sound_prepare (enterHuntState_sound v) _ hw).1

theorem lawful_setLine (p : PortId) : LawfulCommand (.setLine p) :=
  .of_next (fun _ => rfl) fun _ => .controlCommand fun v _ hw => (Served.beginData v p _ _ hw).1

theorem lawful_setWatch (p : PortId) : LawfulCommand (.setWatch p) :=
  .of_next (fun _ => rfl) fun _ => .controlCommand fun v _ hw => by
    split
    · exact (Served.beginData v p _ _ hw).1
    · exact (Served.failCheck v p _ hw).1

/-! ## The pool commands -/

theorem lawful_setQuota (p : PortId) : LawfulCommand (.setQuota p) :=
  .of_next (fun _ => rfl) fun _ => .controlCommand fun v l hw => by
    dsimp only
    split
    · exact (Served.failCheck v p _ hw).1
    · exact (Served.sound_prepare (quota_sound v _ _ _) _ hw).1

theorem lawful_clearHistory (p : PortId) : LawfulCommand (.clearHistory p) :=
  .of_next (fun _ => rfl) fun _ => .controlCommand fun v l hw => by
    split
    · exact (Served.failCheck v p _ hw).1
    · exact (Served.sound_prepare (clearLog_sound v p) _ hw).1

theorem lawful_freeze (p : PortId) : LawfulCommand (.freeze p) :=
  .of_next (fun _ => rfl) fun _ => .controlCommand fun v l hw => by
    dsimp only
    split
    · exact (Served.prepare v p _ hw).1
    · exact (Served.sound_prepare (askEvent_sound v (fun x => { x with frozen := true, freezePending := none }) (fun _ => rfl)
        .frozen []) _ hw).1

theorem lawful_thaw (p : PortId) : LawfulCommand (.thaw p) :=
  .of_next (fun _ => rfl) fun _ => .controlCommand fun v l hw => by
    dsimp only
    split
    · exact (Served.prepare v p _ hw).1
    · exact (Served.sound_prepare (askEvent_sound v
        (fun x => { x with frozen := false, freezePending := none, discardedChars := 0, discardedEvents := 0 }) (fun _ => rfl)
        .thawed _) _ hw).1

/-! ## Fills and deliveries -/

/-- What an end of a fill or of a delivery may do, told once for every phase of the port. -/
theorem Lawful.of_phase {ph : Phase} (hph : (s.port p).phase = ph) (hnot : ∀ l, ph ≠ .waiting l) (h : Served p s t) : Lawful s t :=
  (h (Port.not_waits_of_phase hph hnot)).1

theorem lawful_fillEnd (p : PortId) : LawfulCommand (.fillEnd p) :=
  .of_next (fun _ => rfl) fun s => by
    split
    · rename_i hphase
      refine Lawful.of_phase hphase nofun ?_
      split
      · exact .complete s p _
      · dsimp only
        split
        · exact .complete s p _
        · exact .deliver s p _ _
    · rename_i hphase
      refine Lawful.of_phase hphase nofun ?_
      split
      · exact .complete s p _
      · dsimp only
        split
        · exact .complete s p _
        · exact .deliver s p _ _
    · rename_i hphase
      exact Lawful.of_phase hphase nofun (.deliver s p _ _)
    all_goals exact .refl s

theorem passItem_served (s : State) (p : PortId) (item : Item) (rest : List Item) (c : DataIn) :
    Served p s (passItem s p item rest c) := by
  unfold passItem
  split
  · rename_i l stop maximum delivered missing
    have hmove := Served.of_sound (moveCursor_sound (l := l) s p item.next) p
    exact hmove.trans (.modPort _ p _ rfl (Port.not_waits_of_phase rfl nofun))
  · exact .modPort s p _ rfl (Port.not_waits_of_phase rfl nofun)
  · exact .modPort s p _ rfl (Port.not_waits_of_phase rfl nofun)

theorem passItems_served (s : State) (p : PortId) : Served p s (passItems s p) := by
  unfold passItems
  split
  · split
    · exact passItem_served s p _ _ _
    · exact .refl p s
  all_goals exact .refl p s

theorem endDelivery_served (s : State) (p : PortId) : Served p s (endDelivery s p) := by
  have hcleared : Served p s (s.modPort p fun x => { x with buffer := [], transferLength := 0, readPoint := 0 }) := fun hp =>
    Served.modPort s p (fun x => { x with buffer := [], transferLength := 0, readPoint := 0 }) rfl hp hp
  unfold endDelivery
  dsimp only
  split
  · rename_i l stop maximum delivered missing items hphase
    have htested := hcleared.trans (.of_sound (testOvertaken_sound (l := l) _ p) p)
    split
    · exact htested.trans (.complete _ p _)
    · split
      · exact htested.trans (.beginFill _ p _)
      · exact htested.trans (.complete _ p _)
  · split
    · exact hcleared.trans (.beginFill _ p _)
    · exact hcleared.trans (.complete _ p _)
  · exact hcleared.trans (.complete _ p _)
  all_goals exact hcleared

theorem lawful_dataRead (p : PortId) : LawfulCommand (.dataRead p) :=
  .of_next (fun _ => rfl) fun s => by
    split
    · exact .modPort s p _ rfl fun _ => .rfl
    · split
      · rename_i c items hphase
        refine Lawful.of_phase hphase nofun ?_
        have hread : Served p s (s.modPort p fun x =>
            { x with shiftedOut := x.dataByte, readPoint := x.readPoint + 1, pointer := nextOffset 16 }) := fun hp =>
          Served.modPort s p (fun x =>
            { x with shiftedOut := x.dataByte, readPoint := x.readPoint + 1, pointer := nextOffset 16 }) rfl hp hp
        dsimp only
        split
        · exact (hread.trans (passItems_served _ p)).trans (endDelivery_served _ p)
        · exact hread.trans (passItems_served _ p)
      all_goals exact .modPort s p _ rfl fun _ => .rfl

/-! ## SET LINE applied, and the end of a data-out phase -/

theorem turnLineOff_served (s : State) (l : LineId) (p : PortId) : Served p s (turnLineOff s l) := by
  have hoff : Sound l s (s.modLine l fun x =>
      { x with
        io := { x.io with receiver := .waitMarking }
        cond :=
          { x.cond with
            state := .off, downTimer := none, upTimer := none, nullPending := false, huntOnUp := false
            patternProgress := 0, huntDiscard := 0 }
        tx :=
          { x.tx with
            queue := [], flowSlot := none, state := .idle, pause := false, drainMark := none, inUse := x.io.inForce.txUse } }) :=
    .modLine s _ rfl rfl rfl rfl nofun id
  exact ((Served.of_sound (hoff.trans (tellHold_sound _)) p).trans (.endWaiting _ p l .lineOff)).trans
    (.of_sound (eventWithHoldEnd_sound (l := l) _ _ _ _) p)

theorem applySettings_served (s : State) (l : LineId) (p : PortId) (new : Settings) : Served p s (applySettings s l new) := by
  have hflow : ∀ v : State, Sound l v (if ((s.line l).io.settings.flow && !new.flow) = true then turnFlowOff v l else v) := by
    intro v
    split
    · exact turnFlowOff_sound v
    · exact .refl l v
  unfold applySettings
  dsimp only
  split
  · have hstored := (storeSettings_sound (l := l) s (s.line l).io.inForce new).trans (hflow _)
    split
    · exact .of_sound (hstored.trans (turnLineOn_sound _)) p
    · exact .of_sound hstored p
  · have hstored := fun f => ((Sound.modIo (l := l) s fun x =>
      { x with settings := new, inForce := { (s.line l).io.inForce with flow := new.flow } }).trans (hflow _)).trans (.modIo _ f)
    split
    · exact .of_sound (((hstored fun x => { x with inForce := new }).trans (applyFormat_sound _ _)).trans (applyOthers_sound _ _)) p
    · exact ((Served.of_sound (hstored fun x =>
        { x with inForce := { new with divisor := (s.line l).io.inForce.divisor, format := (s.line l).io.inForce.format } }) p).trans
        (turnLineOff_served _ l p)).trans (.of_sound (applyOthers_sound _ _) p)

theorem endSetLineData_served (s : State) (p : PortId) (l : LineId) : Served p s (endSetLineData s p l) := by
  unfold endSetLineData
  split
  · exact .failCheck s p _
  · split
    · exact (applySettings_served s l p _).trans (.prepare _ p _)
    · exact .failCheck s p _

theorem endSetWatchData_served (s : State) (p : PortId) (l : LineId) (slot : Fin 4) : Served p s (endSetWatchData s p l slot) := by
  unfold endSetWatchData
  split
  · exact .failCheck s p _
  · rename_i w hw
    split
    · have hset : Sound l s (s.modLine l fun x => { x with watch := x.watch.set slot.val w }) :=
        .modLine s _ rfl rfl rfl rfl (fun _ => id) id
      exact .sound_prepare hset _
    · exact .failCheck s p _

theorem endSendData_lawful (hp : ¬ (s.port p).waits) (l : LineId) (count : Nat) : Lawful s (endSendData s p l count) := by
  unfold endSendData
  split
  · exact (Served.complete s p _ hp).1
  · rename_i hwriter
    split
    · exact (Served.complete s p _ hp).1
    · exact (beginWaiting_lawful (w := .send p (s.port p).buffer) rfl hp (not_not.mp hwriter)).trans (placeRun_lawful _ l)

theorem lawful_dataWrite (p : PortId) (byte : Byte) : LawfulCommand (.dataWrite p byte) :=
  .of_next (fun _ => rfl) fun s => by
    have hpointer : Lawful s (s.modPort p fun x => { x with pointer := nextOffset 16 }) := .modPort s p _ rfl fun _ => .rfl
    split
    · exact .refl s
    · dsimp only
      split
      · rename_i c hphase
        have hstored : Lawful s ((s.modPort p fun x => { x with pointer := nextOffset 16 }).modPort p fun x =>
            { x with buffer := x.buffer ++ [byte] }) := hpointer.trans (.modPort _ p _ rfl fun _ => .rfl)
        have hwriting : ¬ ((((s.modPort p fun x => { x with pointer := nextOffset 16 }).modPort p fun x =>
            { x with buffer := x.buffer ++ [byte] })).port p).waits := by
          rw [State.port_modPort_self, State.port_modPort_self]
          exact Port.not_waits_of_phase hphase nofun
        split
        · obtain ⟨hended, hidle⟩ := Served.modPort _ p (fun x : Port => { x with transferLength := 0, phase := .completing {} }) rfl
            (Port.not_waits_of_phase rfl nofun) hwriting
          refine hstored.trans (hended.trans ?_)
          cases c with
          | send l count => exact endSendData_lawful hidle l count
          | setLine l => exact (endSetLineData_served _ p l hidle).1
          | setWatch l slot => exact (endSetWatchData_served _ p l slot hidle).1
        · exact hstored
      all_goals exact hpointer

/-! ## ABORT, argument writes and COMPLETION -/

theorem abortCommand_served (s : State) (p : PortId) : Served p s (abortCommand s p) := by
  unfold abortCommand
  split
  · exact .complete s p _
  · exact .complete s p _
  · exact (Served.of_sound (testOvertaken_sound s p) p).trans (.complete _ p _)
  · exact (Served.of_sound (testOvertaken_sound s p) p).trans (.complete _ p _)
  · exact .complete s p _
  · exact .complete s p _
  · exact .complete s p _
  · exact .complete s p _
  · exact .complete s p _
  · exact .complete s p _
  · exact .complete s p _
  · exact .endWaiting s p _ _

theorem abortCommand_lawful (s : State) (p : PortId) : Lawful s (abortCommand s p) := by
  by_cases hp : (s.port p).waits
  · obtain ⟨l, hl⟩ := hp
    rw [abortCommand, hl]
    exact endWaiting_lawful s l .aborted
  · exact (abortCommand_served s p hp).1

theorem lawful_abort (p : PortId) : LawfulCommand (.abort p) :=
  .of_next (fun _ => rfl) fun s => by
    split
    · exact .refl s
    · exact (abortCommand_lawful s p).trans (.modPort _ p _ rfl fun _ => .rfl)

theorem storeArgument_block (offset : Nat) (b : Byte) (x : Port) :
    (x.storeArgument offset b).causes = x.causes ∧ (x.storeArgument offset b).phase = x.phase := by
  unfold Port.storeArgument
  split_ifs <;> exact ⟨rfl, rfl⟩

theorem lawful_argumentWrite (p : PortId) (offset : BitVec 5) (byte : Byte) : LawfulCommand (.argumentWrite p offset byte) :=
  .of_next (fun _ => rfl) fun s => by
    split
    · exact .refl s
    · have hblock : ∀ x : Port, ∀ y : Port, y.causes = x.causes ∧ y.phase = x.phase →
          ((if isArgument offset = true then if y.idle = true then y.storeArgument offset.toNat byte else { y with collision := true }
            else y).causes = x.causes
          ∧ (if isArgument offset = true then if y.idle = true then y.storeArgument offset.toNat byte else { y with collision := true }
            else y).phase = x.phase) := by
        intro x y hy
        obtain ⟨hcauses, hphase⟩ := storeArgument_block offset.toNat byte y
        split
        · split
          · exact ⟨hcauses.trans hy.1, hphase.trans hy.2⟩
          · exact hy
        · exact hy
      obtain ⟨hcauses, hphase⟩ := hblock (s.port p) { s.port p with pointer := nextOffset offset } ⟨rfl, rfl⟩
      exact .modPort s p _ hcauses fun l => iff_of_eq (congrArg (· = Phase.waiting l) hphase)

theorem lawful_completion (p : PortId) : LawfulCommand (.completion p) :=
  .of_next (fun _ => rfl) fun s => by
    split
    · rename_i hphase
      exact .of_phase hphase nofun (.complete s p _)
    all_goals exact .refl s

/-! ## Events of the line -/

theorem lawful_characterComplete (l : LineId) (data : Byte) (parity stop : Bool) :
    LawfulCommand (.characterComplete l data parity stop) :=
  .of_next (fun _ => rfl) fun s => by
    split
    · exact .refl s
    · split
      · exact ((Sound.modIo (l := l) s _).trans (classify_sound _ _)).lawful
      all_goals exact .refl s

theorem lawful_receiveLevelReport (l : LineId) (level : Level) : LawfulCommand (.receiveLevelReport l level) :=
  .of_next (fun _ => rfl) fun s => by
    have hpin := Sound.modIo (l := l) s fun x => { x with pinHigh := (s.line l).pinAfter level }
    dsimp only
    split
    · exact ((hpin.trans (seeLevel_sound _ level)).trans (takeLevelReport_sound _ level)).lawful
    · exact hpin.lawful

theorem lawful_falseStart (l : LineId) : LawfulCommand (.falseStart l) :=
  .of_next (fun _ => rfl) fun s => (Sound.modIo (l := l) s _).lawful

theorem lawful_idleTimerExpiry (l : LineId) : LawfulCommand (.idleTimerExpiry l) :=
  .of_next (fun _ => rfl) fun s => by
    split
    · exact (Sound.settled (Calm.of_recorded (closeOpen_recorded s .idle 0)) fun _ h => closeOpen_told _ _ h).lawful
    · exact .refl s

theorem lawful_downTimerExpiry (l : LineId) : LawfulCommand (.downTimerExpiry l) :=
  .of_next (fun _ => rfl) fun s => by
    split
    · exact (((Sound.modCond (l := l) s _).trans (conditionEvent_sound _ .lineDown [])).trans (endPause_sound _)).lawful
    · exact .refl s

theorem lawful_upTimerExpiry (l : LineId) : LawfulCommand (.upTimerExpiry l) :=
  .of_next (fun _ => rfl) fun s => by
    split
    · dsimp only
      have hup : Sound l s (s.modLine l fun x =>
          { x with
            cond :=
              { x.cond with
                state := .run, upTimer := none, huntOnUp := false
                downTimer := if x.io.level = .spacing then some (startTimer s.timebase) else none } }) :=
        .modLine s _ rfl rfl rfl rfl (fun _ => id) id
      refine (hup.trans (?_ : Sound l _ _)).lawful
      split
      · refine .settled (((groupCondition_calm _ .lineUp []).trans (beginHunt_sound _).calm).trans (groupCondition_calm _ .huntStart []))
          fun hd h => groupCondition_told _ _ ((beginHunt_sound _).told ?_ (groupCondition_told _ _ h))
        exact (groupCondition_calm _ .lineUp []).drainHeld hd
      · exact .settled (groupCondition_calm _ .lineUp []) fun _ h => groupCondition_told _ _ h
    · exact .refl s

theorem lawful_holdTimerExpiry (l : LineId) : LawfulCommand (.holdTimerExpiry l) :=
  .of_next (fun _ => rfl) fun s => by
    split
    · exact (((leaveHold_sound (l := l) s _).trans (placeFlow_sound _ _)).trans (event_sound _ _ _)).lawful
    · exact .refl s

theorem lawful_pacingGapExpiry (l : LineId) : LawfulCommand (.pacingGapExpiry l) :=
  .of_next (fun _ => rfl) fun s => by
    split
    · split
      · exact (startPoint_sound (l := l) s).lawful
      · exact .refl s
    all_goals exact .refl s

theorem lawful_breakDurationExpiry (l : LineId) : LawfulCommand (.breakDurationExpiry l) :=
  .of_next (fun _ => rfl) fun s => by
    split
    · split
      · have hcut : Sound l s (s.modLine l fun x => { x with tx := cutBreak x }) :=
          .modLine s _ rfl rfl rfl (waiting_cutBreak _) (fun _ h => by rwa [drainMark_cutBreak] at h) id
        exact hcut.lawful
      · exact .refl s
    all_goals exact .refl s

theorem lawful_breakClosingEnd (l : LineId) : LawfulCommand (.breakClosingEnd l) :=
  .of_next (fun _ => rfl) fun s => by
    split
    · exact (startPoint_sound (l := l) s).lawful
    all_goals exact .refl s

theorem lawful_sendCharacterEnd (l : LineId) : LawfulCommand (.sendCharacterEnd l) :=
  .of_next (fun _ => rfl) fun s => by
    split
    · split
      · exact (startPoint_sound (l := l) s).lawful
      · have hgap : Sound l s (s.modLine l fun x =>
            { x with
              tx :=
                { x.tx with
                  state := .gap x.io.inForce.pacing.toNat (startTimer s.timebase), inUse := x.io.inForce.txUse } }) :=
          .modLine s _ rfl rfl rfl rfl (fun _ => id) id
        exact hgap.lawful
    all_goals exact .refl s

theorem lawful_sendRunPlacement (l : LineId) : LawfulCommand (.sendRunPlacement l) :=
  .of_next (fun _ => rfl) fun s => placeRun_lawful s l

theorem lawful_breakMarkerPlacement (l : LineId) : LawfulCommand (.breakMarkerPlacement l) :=
  .of_next (fun _ => rfl) fun s => placeMarker_lawful s l

/-! ## PORT RESET (R113, R180) -/

theorem resetCommand_served (s : State) (p : PortId) : Served p s (resetCommand s p) := by
  unfold resetCommand
  split
  · exact .complete s p _
  · exact .complete s p _
  · exact .complete s p _
  · exact .complete s p _
  · exact .complete s p _
  · exact .complete s p _
  · exact .complete s p _
  · exact .endWaiting s p _ _

theorem resetCommand_lawful (s : State) (p : PortId) : Lawful s (resetCommand s p) := by
  by_cases hp : (s.port p).waits
  · obtain ⟨l, hl⟩ := hp
    rw [resetCommand, hl]
    exact endWaiting_lawful s l .aborted
  · exact (resetCommand_served s p hp).1

/-- The port of a reset waits no more. -/
theorem not_waits_resetCommand (h : WaitingAgrees s) (p : PortId) : ¬ ((resetCommand s p).port p).waits := by
  by_cases hp : (s.port p).waits
  · obtain ⟨l, hl⟩ := hp
    obtain ⟨w, hw, hwp⟩ := (h.1 p l).mp hl
    obtain ⟨r, -, e⟩ := endWaiting_of_some .aborted hw
    rw [resetCommand, hl]
    dsimp only
    rw [e, port_finishWaiting, if_pos hwp.symm]
    exact Port.not_waits_of_phase rfl nofun
  · exact (resetCommand_served s p hp).2

/-- What stands while a port in reset loses its attachments: every other port's causes, every drain mark, and no cause of its own. -/
structure OthersStand (p : PortId) (s : State) : Prop where
  agree : ∀ l q, q ≠ p → (s.line l).causesAgree l q (s.port q)
  held : ∀ l, DrainHeld s l
  none : (s.port p).causes = []
  idles : ¬ (s.port p).waits

/-- A part of a port reset. -/
structure Vacates (p : PortId) (s t : State) : Prop where
  table : AttachmentTable s → AttachmentTable t
  marks : MarksClear s → MarksClear t
  idles : ¬ (s.port p).waits → ¬ (t.port p).waits
  waiting : ¬ (s.port p).waits → WaitingAgrees s → WaitingAgrees t
  others : OthersStand p s → OthersStand p t
  told : OthersStand p s → ∀ k, CausesTold s k → CausesTold t k

theorem Vacates.refl (p : PortId) (s : State) : Vacates p s s := ⟨id, id, id, fun _ => id, id, fun _ _ => id⟩

theorem Vacates.trans (h : Vacates p s t) (k : Vacates p t u) : Vacates p s u where
  table := k.table ∘ h.table
  marks := k.marks ∘ h.marks
  idles := k.idles ∘ h.idles
  waiting hp hw := k.waiting (h.idles hp) (h.waiting hp hw)
  others := k.others ∘ h.others
  told ho l hl := k.told (h.others ho) l (h.told ho l hl)

theorem OthersStand.no_cause (h : OthersStand p s) (l : LineId) : ∀ c ∈ (s.port p).causes, c.line ≠ l := by
  rw [h.none]
  exact fun _ hc => nomatch hc

/-- On a line where the port in reset has no attachment, every cause stands. -/
theorem OthersStand.causesTold (h : OthersStand p s) (ha : (s.line l).attachment p = .none) : CausesTold s l where
  agree q := by
    by_cases hq : q = p
    · subst hq
      rw [Line.causesAgree_none ha, Line.marksAgree, ha]
      exact h.no_cause l
    · exact h.agree l q hq

/-- A line under a port reset: its causes stand after it. -/
theorem resetOnLine_told (h : OthersStand p s) (l : LineId) : CausesTold (resetOnLine p s l) l := by
  unfold resetOnLine
  split
  · have hremoved : CausesTold (removed s l p) l := told_removed (h.agree l) (h.no_cause l)
    exact (removeAttachment_sound s p .portReset).told (held_removed (h.held l) p) hremoved
  · rename_i ha
    exact h.causesTold (Option.not_isSome_iff_eq_none.mp ha)

theorem removeAttachment_onLine (s : State) (l : LineId) (p : PortId) (reason : WriterReason) :
    OnLine l s (removeAttachment s l p reason) := (removed_onLine s p).trans (removeAttachment_sound s p reason).calm.toOnLine

theorem resetOnLine_vacates (s : State) (l : LineId) (p : PortId) : Vacates p s (resetOnLine p s l) := by
  by_cases ha : ((s.line l).attachment p).isSome
  · have e : resetOnLine p s l = removeAttachment s l p .portReset := if_pos ha
    have hsound := removeAttachment_sound (l := l) s p .portReset
    have honline := removeAttachment_onLine s l p .portReset
    have hbeside := Beside.of_onLine honline
    have htold : OthersStand p s → CausesTold (removeAttachment s l p .portReset) l := fun h => e ▸ resetOnLine_told h l
    rw [e]
    have hidles : ¬ (s.port p).waits → ¬ ((removeAttachment s l p .portReset).port p).waits := fun hp => by
      rw [Port.waits, honline.phase]
      exact hp
    refine ⟨fun h => hsound.lawful.table (table_removed h l p), fun hm => ?_, hidles, fun hp hw => ?_,
      fun h => ⟨fun k q hq => ?_, fun k => ?_, ?_, hidles h.idles⟩, fun h k hk => ?_⟩
    · exact hsound.lawful.marks (hm.change (removed_onLine s p).other (unmarked_removed (hm l)))
    · have hremoved := waitingAgrees_removed hp hw l
      refine ((WaitingElse.of hremoved l).onLine hsound.calm.toOnLine hsound.calm.line.waiting).all fun w hlw => ?_
      rw [hsound.calm.line.waiting] at hlw
      rw [hsound.calm.line.writer]
      exact hremoved.2 l w hlw
    · by_cases hkl : k = l
      · subst hkl
        exact (htold h).agree q
      · exact hbeside.agree_other hkl (h.agree k q hq)
    · by_cases hkl : k = l
      · subst hkl
        exact hsound.calm.drainHeld (held_removed (h.held k) p)
      · exact hbeside.drainHeld_other hkl (h.held k)
    · rw [← e, resetOnLine_causes, h.none]
    · by_cases hkl : k = l
      · subst hkl
        exact htold h
      · exact ⟨fun q => hbeside.agree_other hkl (hk.agree q)⟩
  · have e : resetOnLine p s l = s := if_neg ha
    rw [e]
    exact .refl p s

theorem resetOnLines_vacates (p : PortId) (ls : List LineId) : ∀ s : State, Vacates p s (ls.foldl (resetOnLine p) s) := by
  induction ls with
  | nil => exact fun s => .refl p s
  | cons l ls ih => exact fun s => (resetOnLine_vacates s l p).trans (ih _)

theorem resetOnLines_told (p : PortId) (ls : List LineId) :
    ∀ s : State, OthersStand p s → ∀ l ∈ ls, CausesTold (ls.foldl (resetOnLine p) s) l := by
  induction ls with
  | nil => exact fun _ _ _ hl => nomatch hl
  | cons k ls ih =>
    intro s h l hl
    have hfirst := (resetOnLine_vacates s k p).others h
    rcases List.mem_cons.mp hl with rfl | hl
    · exact (resetOnLines_vacates p ls _).told hfirst _ (resetOnLine_told h _)
    · exact ih _ hfirst l hl

/-- A port's flags and causes cleared, and its reset asserted. -/
def clearPort (s : State) (p : PortId) : State :=
  s.modPort p fun x => { x with collision := false, causes := [], resetAsserted := true }

theorem othersStand_clearPort (h : CausesStand s) (hp : ¬ (s.port p).waits) : OthersStand p (clearPort s p) where
  agree l q hq := by
    rw [clearPort, State.port_modPort_ne _ _ _ _ hq]
    exact (h.told l).agree q
  held := h.held
  none := by rw [clearPort, State.port_modPort_self]
  idles := by
    rw [clearPort, State.port_modPort_self]
    exact hp

theorem lawful_portResetRelease (p : PortId) : LawfulCommand (.portResetRelease p) :=
  .of_next (fun _ => rfl) fun s => .modPort s p _ rfl fun _ => .rfl

theorem lawful_portReset (p : PortId) : LawfulCommand (.portReset p) :=
  .of_next (fun _ => rfl) fun s => by
    split
    · exact .refl s
    · change Lawful s ((List.finRange 16).foldl (resetOnLine p) (clearPort (resetCommand s p) p))
      have hended := resetCommand_lawful s p
      have hall := resetOnLines_vacates p (List.finRange 16) (clearPort (resetCommand s p) p)
      have hclear : WaitingAgrees (resetCommand s p) → WaitingAgrees (clearPort (resetCommand s p) p) := by
        refine fun hw => ⟨fun q k => ?_, hw.2⟩
        rw [clearPort, State.port_modPort, State.line_modPort, ← hw.1 q k]
        split
        · subst q
          rfl
        · rfl
      exact
        { table := fun ha => hall.table (hended.table ha)
          waiting := fun ha hw => by
            refine hall.waiting ?_ (hclear (hended.waiting ha hw))
            rw [clearPort, State.port_modPort_self]
            exact not_waits_resetCommand hw p
          causes := fun ha hw hs => by
            have ho := othersStand_clearPort (hended.causes ha hw hs) (not_waits_resetCommand hw p)
            exact .of fun k => ⟨resetOnLines_told p _ _ ho k (List.mem_finRange k), (hall.others ho).held k⟩
          marks := fun hm => hall.marks (hended.marks hm) }

/-! ## The timebase -/

theorem lawful_timebaseAdvance : LawfulCommand .timebaseAdvance := fun s t h => by
  have hline := line_timebaseAdvance h
  have hport := port_timebaseAdvance h
  exact
    { table := fun ha => ha.of_list fun k => by rw [hline]; rfl
      waiting := fun _ hw => by
        refine ⟨fun q k => ?_, fun k w hkw => ?_⟩
        · rw [hport, hline]
          exact hw.1 q k
        · rw [hline] at hkw ⊢
          exact hw.2 k w hkw
      causes := fun _ _ hs => hs.of_same (fun k => by rw [hline]; rfl) (fun k => by rw [hline]; rfl) (fun k => by rw [hline]; rfl)
        (fun k => by rw [hline]; rfl) fun q => by rw [hport]
      marks := fun hm k => by
        rw [hline]
        exact hm k }

/-! ## Every command -/

/-- Every command but a device reset is lawful. -/
theorem lawfulCommand (c : Instr) (hc : ∀ a b d, c ≠ .deviceReset a b d) : LawfulCommand c := by
  cases c with
  | nextCause p => exact lawful_nextCause p
  | readTime p => exact lawful_readTime p
  | attach p => exact lawful_attach p
  | detach p => exact lawful_detach p
  | releaseWrite p => exact lawful_releaseWrite p
  | readNew p => exact lawful_readNew p
  | readHistory p => exact lawful_readHistory p
  | countNew p => exact lawful_countNew p
  | seek p => exact lawful_seek p
  | lineStatus p => exact lawful_lineStatus p
  | send p => exact lawful_send p
  | sendBreak p => exact lawful_sendBreak p
  | resetLine p => exact lawful_resetLine p
  | enterHunt p => exact lawful_enterHunt p
  | setLine p => exact lawful_setLine p
  | setWatch p => exact lawful_setWatch p
  | setQuota p => exact lawful_setQuota p
  | clearHistory p => exact lawful_clearHistory p
  | freeze p => exact lawful_freeze p
  | thaw p => exact lawful_thaw p
  | clearCondition p => exact lawful_clearCondition p
  | rearm p => exact lawful_rearm p
  | abort p => exact lawful_abort p
  | badCommand p code => exact lawful_badCommand p code
  | argumentWrite p offset byte => exact lawful_argumentWrite p offset byte
  | dataWrite p byte => exact lawful_dataWrite p byte
  | dataRead p => exact lawful_dataRead p
  | fillEnd p => exact lawful_fillEnd p
  | portReset p => exact lawful_portReset p
  | portResetRelease p => exact lawful_portResetRelease p
  | deviceReset a b d => exact absurd rfl (hc a b d)
  | timebaseAdvance => exact lawful_timebaseAdvance
  | characterComplete l data parity stop => exact lawful_characterComplete l data parity stop
  | receiveLevelReport l level => exact lawful_receiveLevelReport l level
  | idleTimerExpiry l => exact lawful_idleTimerExpiry l
  | downTimerExpiry l => exact lawful_downTimerExpiry l
  | upTimerExpiry l => exact lawful_upTimerExpiry l
  | leaseExpiry l => exact lawful_leaseExpiry l
  | holdTimerExpiry l => exact lawful_holdTimerExpiry l
  | pacingGapExpiry l => exact lawful_pacingGapExpiry l
  | breakDurationExpiry l => exact lawful_breakDurationExpiry l
  | breakClosingEnd l => exact lawful_breakClosingEnd l
  | sendCharacterEnd l => exact lawful_sendCharacterEnd l
  | sendRunPlacement l => exact lawful_sendRunPlacement l
  | breakMarkerPlacement l => exact lawful_breakMarkerPlacement l
  | completion p => exact lawful_completion p
  | falseStart l => exact lawful_falseStart l

theorem Lawful.of_pending (s : State) (rest : List Instr) : Lawful s { s with pending := rest } where
  table := id
  waiting _ h := h
  causes _ _ h := h
  marks h := h

/-- A step is lawful, or it is a device reset. -/
theorem step_lawful (h : step s = .next t) : Lawful s t ∨ t.Fresh := by
  obtain rfl | ⟨c, rest, hexec⟩ := step_cases h
  · exact .inl (.refl t)
  · by_cases hreset : ∃ a b d, c = .deviceReset a b d
    · obtain ⟨a, b, d, rfl⟩ := hreset
      exact .inr (fresh_deviceReset hexec)
    · exact .inl ((Lawful.of_pending s rest).trans
        (lawfulCommand c (fun a b d e => hreset ⟨a, b, d, e⟩) _ t hexec))

end Sys2Proof.Machine
end

section
/-! Proofs: every step keeps the tables, the waits and the causes, and leaves the marks clear. -/

namespace Sys2Proof.Machine

variable {l : LineId} {s t u : State} {p : PortId}

/-- Settles O59: a step is lawful, or leaves the reset state, where nothing waits. -/
theorem everyStepKeepsTheWaiting : Obligations.EveryStepKeepsTheWaiting := fun _ _ htable hwaiting hstep =>
  (step_lawful hstep).elim (fun h => h.waiting htable hwaiting) State.Fresh.waitingAgrees

/-- Settles O60: a step is lawful, or leaves the reset state, where no mark stands. -/
theorem everyStepClearsTheMarks : Obligations.EveryStepClearsTheMarks := fun _ _ hmarks hstep =>
  (step_lawful hstep).elim (fun h => h.marks hmarks) State.Fresh.marksClear

/-! ## One port of an action for each port -/

/-- Two states agree in what an action for a port of a line reads. -/
structure SameAt (l : LineId) (p : PortId) (s t : State) : Prop where
  port : t.port p = s.port p
  attachment : (t.line l).attachment p = (s.line l).attachment p
  closed : (t.line l).closed = (s.line l).closed
  oldest : (t.line l).cap.oldest = (s.line l).cap.oldest

namespace SameAt

theorem refl (l : LineId) (p : PortId) (s : State) : SameAt l p s s := ⟨rfl, rfl, rfl, rfl⟩

theorem trans (h : SameAt l p s t) (k : SameAt l p t u) : SameAt l p s u :=
  ⟨k.port.trans h.port, k.attachment.trans h.attachment, k.closed.trans h.closed, k.oldest.trans h.oldest⟩

theorem of_forPort {q : PortId} (h : ForPort l q s t) (hp : p ≠ q) : SameAt l p s t := by
  obtain ⟨hother, hclosed, hold⟩ := h
  obtain ⟨hport, hatt⟩ := hother p hp
  exact ⟨hport, hatt, hclosed, hold⟩

theorem unread (h : SameAt l p s t) (a : Attachment) : (t.line l).unread a = (s.line l).unread a := by
  simp only [Line.unread, Line.unreadRecords, h.closed, h.oldest]

end SameAt

/-- At a port, an action for each port does what it does there on a state that agrees in what it reads. -/
theorem eachPort_at (f : State → PortId → State) (hf : ∀ s p, ForPort l p s (f s p)) (s : State) (p : PortId) :
    ∃ u, SameAt l p s u ∧ SameAt l p (f u p) (eachPort f s) := by
  have hp : p = 0 ∨ p = 1 ∨ p = 2 := by revert p; decide
  rcases hp with rfl | rfl | rfl
  · exact ⟨s, .refl l 0 s, (SameAt.of_forPort (hf (f s 0) 1) (by decide)).trans (.of_forPort (hf _ 2) (by decide))⟩
  · exact ⟨f s 0, .of_forPort (hf s 0) (by decide), .of_forPort (hf _ 2) (by decide)⟩
  · exact ⟨f (f s 0) 1, (SameAt.of_forPort (hf s 0) (by decide)).trans (.of_forPort (hf _ 1) (by decide)), .refl l 2 _⟩

/-! ## The report of a completed record (R166, R167) -/

/-- The DATA cause in LEVEL mode stands exactly at an unread count at or above the level (R167). -/
theorem hasCause_levelData {a : Attachment} {k : Byte} (ha : (s.line l).attachment p = some a) (hm : a.mode = .level k) :
    ((levelData l s p).port p).hasCause .data l = true ↔ k.toNat ≤ (s.line l).unread a := by
  rw [levelData_of_level ha hm]
  split
  · rename_i hk
    simp [State.hasCause_post, hk]
  · rename_i hk
    simp [State.hasCause_unpost, hk]

theorem completionData_of_level {a : Attachment} {k : Byte} (ha : (s.line l).attachment p = some a) (hm : a.mode = .level k) :
    completionData l s p = levelData l s p := by
  simp only [completionData, ha, hm]

theorem completionData_of_idle {a : Attachment} (ha : (s.line l).attachment p = some a)
    (hm : a.mode = .none ∨ a.mode = .first false ∨ (a.mode = .first true ∧ (s.line l).unread a = 0)) : completionData l s p = s := by
  rcases hm with hm | hm | ⟨hm, hu⟩
  · simp only [completionData, ha, hm]
  · simp only [completionData, ha, hm]
  · simp [completionData, ha, hm, hu]

theorem completionData_of_armed {a : Attachment} (ha : (s.line l).attachment p = some a) (hm : a.mode = .first true)
    (hu : 0 < (s.line l).unread a) :
    completionData l s p = (s.post p .data l 0).modAttachment l p fun x => { x with mode := x.mode.disarmed } := by
  simp only [completionData, ha, hm]
  exact if_pos hu

theorem pages_countRecord (x : Pool) : x.countRecord.pages = x.pages := by
  unfold Pool.countRecord
  split
  · rfl
  · split <;> rfl

/-- What a completed record does at each port with an attachment, as the statement of O56 has it. -/
theorem reportComplete_at {a : Attachment} (ha : (s.line l).attachment p = some a) :
    (∀ k, a.mode = .level k → (((reportComplete s l).port p).hasCause .data l = true ↔ k.toNat ≤ (s.line l).unread a))
      ∧ (a.mode = .first true → 0 < (s.line l).unread a →
        ((reportComplete s l).port p).hasCause .data l = true
          ∧ ∃ b, ((reportComplete s l).line l).attachment p = some b ∧ b.mode = .first false)
      ∧ (a.mode = .none ∨ a.mode = .first false ∨ (a.mode = .first true ∧ (s.line l).unread a = 0) →
        (reportComplete s l).port p = s.port p ∧ ((reportComplete s l).line l).attachment p = some a) := by
  obtain ⟨u, hbefore, hafter⟩ := eachPort_at (completionData l) completionData_forPort (s.modPool l Pool.countRecord) p
  have hcount : SameAt l p s (s.modPool l Pool.countRecord) := by
    refine ⟨rfl, ?_, ?_, ?_⟩ <;> rw [State.modPool_eq, State.line_modLine_self]
    · rfl
    · exact congrArg (fun pages : List Page => pages.flatMap (·.records)) (pages_countRecord _)
  have hu := hcount.trans hbefore
  have hau : (u.line l).attachment p = some a := hu.attachment.trans ha
  have e : reportComplete s l = eachPort (completionData l) (s.modPool l Pool.countRecord) := rfl
  rw [e, hafter.port, hafter.attachment]
  refine ⟨fun k hk => ?_, fun hm hpos => ?_, fun hm => ?_⟩
  · rw [completionData_of_level hau hk, ← hu.unread]
    exact hasCause_levelData hau hk
  · rw [completionData_of_armed hau hm (by rwa [hu.unread])]
    refine ⟨by simp [State.hasCause_post], _, State.attachment_modAttachment_self (s := u.post p .data l 0)
      (fun x => { x with mode := x.mode.disarmed }) (fun _ => rfl) hau, by simp [hm, Mode.disarmed]⟩
  · rw [completionData_of_idle hau (by rwa [hu.unread])]
    exact ⟨hu.port, hau⟩

/-- Settles O56: the tables are kept by each edit; the causes stand since a step is lawful; a record completion is told port by
port. -/
theorem everyStepKeepsTheTables : Obligations.EveryStepKeepsTheTables :=
  ⟨fun _ _ hset hqueue htable horder hstep =>
    ⟨step_settingsOk hset hstep, step_queueBound hset hqueue hstep, step_attachmentTable hset htable hstep,
      step_causeOrder hset horder hstep⟩,
    fun _ _ htable hwaiting hcauses hstep =>
      (step_lawful hstep).elim (fun h => h.causes htable hwaiting hcauses) State.Fresh.causesStand,
    fun _ _ _ _ ha => reportComplete_at ha⟩

end Sys2Proof.Machine
end

section
/-! Proofs: the frame of every command, the events that do not stand, device reset and the advance of the timebase. -/

namespace Sys2Proof.Machine

open Host

variable {on : LineId → Prop} {own : PortId → Prop} {s t u : State}

/-! ## The scope of a command -/

/-- What stays around the lines that a command acts on and the command blocks that it owns. -/
structure InScope (on : LineId → Prop) (own : PortId → Prop) (s t : State) : Prop where
  pending : t.pending = s.pending
  timebase : t.timebase = s.timebase
  advancePhase : t.advancePhase = s.advancePhase
  line : ∀ k, ¬ on k → t.line k = s.line k
  block : ∀ q, ¬ own q → (s.port q).SameBlock (t.port q)
  causes : ∀ q k, ¬ own q → ¬ on k →
    ((t.port q).causes.filter fun x => decide (x.line = k)) = (s.port q).causes.filter fun x => decide (x.line = k)
  precedence : ∀ q, (t.port q).precedence = (s.port q).precedence
  pages : (∀ k, ¬ on k) → t.freePages = s.freePages

namespace InScope

theorem refl (on : LineId → Prop) (own : PortId → Prop) (s : State) : InScope on own s s :=
  ⟨rfl, rfl, rfl, fun _ _ => rfl, fun _ _ => .refl _, fun _ _ _ _ => rfl, fun _ => rfl, fun _ => rfl⟩

theorem trans (h : InScope on own s t) (k : InScope on own t u) : InScope on own s u where
  pending := k.pending.trans h.pending
  timebase := k.timebase.trans h.timebase
  advancePhase := k.advancePhase.trans h.advancePhase
  line x hx := (k.line x hx).trans (h.line x hx)
  block q hq := (h.block q hq).trans (k.block q hq)
  causes q x hq hx := (k.causes q x hq hx).trans (h.causes q x hq hx)
  precedence q := (k.precedence q).trans (h.precedence q)
  pages hx := (k.pages hx).trans (h.pages hx)

/-- A change of one line, and of the free list. -/
theorem of_line {l : LineId} (hl : on l) (line : ∀ k, k ≠ l → t.line k = s.line k) (pending : t.pending = s.pending)
    (timebase : t.timebase = s.timebase) (advancePhase : t.advancePhase = s.advancePhase) (port : ∀ q, t.port q = s.port q) :
    InScope on own s t where
  pending := pending
  timebase := timebase
  advancePhase := advancePhase
  line k hk := line k fun e => hk (e ▸ hl)
  block q _ := by
    rw [port]
    exact .refl _
  causes q k _ _ := by rw [port]
  precedence q := by rw [port]
  pages hk := absurd hl (hk l)

theorem modLine {l : LineId} (hl : on l) (s : State) (f : Line → Line) : InScope on own s (s.modLine l f) :=
  .of_line hl (fun _ hk => State.line_modLine_ne _ _ _ _ hk) rfl rfl rfl fun _ => rfl

theorem setRole {l : LineId} (hl : on l) (s : State) (p : PortId) (r : Role) : InScope on own s (setRole s l p r) :=
  .of_line hl (fun _ hk => State.line_modLine_ne _ _ _ _ hk) rfl rfl rfl fun _ => rfl

theorem withQuota {l : LineId} (hl : on l) (s : State) (reserve limit : Nat) : InScope on own s (withQuota s l reserve limit) :=
  .of_line hl (fun _ hk => State.line_modLine_ne _ _ _ _ hk) rfl rfl rfl fun _ => rfl

theorem dropPages {l : LineId} (hl : on l) (s : State) (count : Nat) : InScope on own s (dropPages s l count) :=
  .of_line hl (fun _ hk => State.line_modLine_ne _ _ _ _ hk) rfl rfl rfl fun _ => rfl

theorem modPort {p : PortId} (hp : own p) (s : State) (f : Port → Port) (h : (f (s.port p)).precedence = (s.port p).precedence) :
    InScope on own s (s.modPort p f) where
  pending := rfl
  timebase := rfl
  advancePhase := rfl
  line _ _ := rfl
  block q hq := by
    have hne : q ≠ p := fun e => hq (e ▸ hp)
    rw [State.port_modPort_ne _ _ _ _ hne]
    exact .refl _
  causes q _ hq _ := by
    have hne : q ≠ p := fun e => hq (e ▸ hp)
    rw [State.port_modPort_ne _ _ _ _ hne]
  precedence q := by
    rw [State.port_modPort]
    split
    · subst q
      exact h
    · rfl
  pages _ := rfl

theorem of_work {l : LineId} (hl : on l) (w : WorkStep l s t) : InScope on own s t := by
  obtain ⟨hpending, htime, hphase, -, hother, hports, -⟩ := w.frame
  refine ⟨hpending, htime, hphase, fun k hk => hother k fun e => hk (e ▸ hl), fun q _ => w.sameBlock q, fun q k _ hk => ?_,
    fun q => ?_, fun hk => absurd hl (hk l)⟩
  · obtain ⟨cs, hcs, hfilter⟩ := hports q
    rw [hcs]
    have hkl : k ≠ l := fun e => hk (e ▸ hl)
    have hsub : ∀ xs : List Cause, (xs.filter fun c => decide (c.line = k))
        = (xs.filter fun c => decide (c.line ≠ l)).filter fun c => decide (c.line = k) := by
      intro xs
      rw [List.filter_filter]
      refine List.filter_congr fun c _ => ?_
      by_cases hc : c.line = k
      · simp [hc, hkl]
      · simp [hc]
    rw [hsub cs, hfilter, ← hsub]
  · rw [w.sameBlock q]

end InScope

theorem Edit.inScope (w : Edit on own s t) : InScope on own s t := by
  cases w with
  | work l hl w => exact .of_work hl w
  | line l f hl k => exact .modLine hl s f
  | settings l f hl k hr => exact .modLine hl s f
  | enqueue l es hl k => exact .modLine hl s _
  | dequeue l e rest hl k => exact .modLine hl s _
  | clearQueue l hl => exact .modLine hl s _
  | join l a hl k hr => exact .modLine hl s _
  | leave l p hl => exact .modLine hl s _
  | adjust l g hl k => exact .modLine hl s _
  | demote l p hl => exact .setRole hl s p _
  | promote l p hl k => exact .setRole hl s p _
  | take l w p hl k => exact (InScope.setRole hl s w _).trans (.setRole hl _ p _)
  | opening l c hl ho hp hr => exact .modLine hl s _
  | append l o c hl ho => exact .modLine hl s _
  | quota l reserve limit hl k =>
    split
    · exact .withQuota hl s _ _
    · exact (InScope.withQuota hl s _ _).trans (.dropPages hl _ _)
  | clear l hl ho hp => exact .dropPages hl s _
  | port p f hp k => exact .modPort hp s f k.2
  | causes p cs hp k => exact .modPort hp s _ rfl
  | spend => exact ⟨rfl, rfl, rfl, fun _ _ => rfl, fun _ _ => .refl _, fun _ _ _ _ => rfl, fun _ => rfl, fun _ => rfl⟩

/-- Settles O2: a command is a row of edits, and each stays in its scope. -/
theorem commandsActWithinTheirScope : Obligations.CommandsActWithinTheirScope := by
  intro c s hset hreset htime
  obtain ⟨t, hexec, hedits⟩ := exec_edits c s hset hreset htime
  have h : InScope (s.actsOn c) (s.owns c) s t := hedits.keeps (InScope.refl _ _) InScope.trans Edit.inScope
  exact ⟨t, hexec, h.pending, h.timebase, h.advancePhase, h.line, h.block, h.causes, h.precedence, h.pages⟩

/-! ## Events that do not stand (log 3) -/

theorem exec_pacingGapExpiry_of_not_due {s : State} {l : LineId} (h : ∀ d u, (s.line l).tx.state = .gap d u → u.due = false) :
    exec (.pacingGapExpiry l) s = .next s := by
  change execPacingGapExpiry l s = _
  unfold execPacingGapExpiry
  split
  · rename_i hstate
    rw [h _ _ hstate]
    rfl
  all_goals rfl

theorem exec_breakDurationExpiry_of_not_due {s : State} {l : LineId}
    (h : ∀ d u, (s.line l).tx.state = .breaking d u → u.due = false) : exec (.breakDurationExpiry l) s = .next s := by
  change execBreakDurationExpiry l s = _
  unfold execBreakDurationExpiry
  split
  · rename_i hstate
    rw [h _ _ hstate]
    rfl
  all_goals rfl

theorem exec_breakClosingEnd_of_not_closing {s : State} {l : LineId} (h : (s.line l).tx.state ≠ .closing) :
    exec (.breakClosingEnd l) s = .next s := by
  change execBreakClosingEnd l s = _
  unfold execBreakClosingEnd
  split
  · exact absurd ‹_› h
  all_goals rfl

theorem exec_sendCharacterEnd_of_not_sending {s : State} {l : LineId} (h : ∀ c, (s.line l).tx.state ≠ .sending c) :
    exec (.sendCharacterEnd l) s = .next s := by
  change execSendCharacterEnd l s = _
  unfold execSendCharacterEnd
  split
  · exact absurd ‹_› (h _)
  all_goals rfl

theorem exec_leaseExpiry_of_not_due {s : State} {l : LineId} (h : timerDue (s.line l).att.leaseTimer = false) :
    exec (.leaseExpiry l) s = .next s := by
  change execLeaseExpiry l s = _
  unfold execLeaseExpiry
  split
  · rfl
  · rw [h]
    rfl

/-- Without a waiting SEND, or with too little room for its run, none is placed. -/
theorem placeRun_of_no_room {s : State} {l : LineId}
    (h : ∀ q r, (s.line l).tx.waiting = some (.send q r) → (s.line l).tx.free < min 10 r.length) : placeRun s l = s := by
  unfold placeRun
  split
  · rename_i q r hw
    exact if_neg (Nat.not_le.mpr (h q r hw))
  all_goals rfl

theorem placeMarker_of_no_room {s : State} {l : LineId}
    (h : ∀ q d, (s.line l).tx.waiting = some (.sendBreak q d) → (s.line l).tx.free = 0) : placeMarker s l = s := by
  unfold placeMarker
  split
  · rename_i q d hw
    exact if_neg (by rw [h q d hw]; decide)
  all_goals rfl

theorem exec_fillEnd_of_not_filling {s : State} {p : PortId} (h : ∀ c, (s.port p).phase ≠ .filling c) :
    exec (.fillEnd p) s = .next s := by
  change execFillEnd p s = _
  unfold execFillEnd
  split
  · exact absurd ‹_› (h _)
  · exact absurd ‹_› (h _)
  · exact absurd ‹_› (h _)
  all_goals rfl

theorem exec_completion_of_not_completing {s : State} {p : PortId} (h : ∀ r, (s.port p).phase ≠ .completing r) :
    exec (.completion p) s = .next s := by
  change execCompletion p s = _
  unfold execCompletion
  split
  · exact absurd ‹_› (h _)
  all_goals rfl

/-- Settles O3, event by event. -/
theorem anEventThatDoesNotStandHasNoEffect : Obligations.AnEventThatDoesNotStandHasNoEffect := by
  intro s l p
  have expiry : ∀ {due : Bool} {act : State}, due = false → (Outcome.next (if due then act else s) : Outcome State Fault Refusal) = .next s := by
    rintro _ _ rfl
    rfl
  refine ⟨expiry, expiry, expiry, exec_leaseExpiry_of_not_due, expiry, exec_pacingGapExpiry_of_not_due,
    exec_breakDurationExpiry_of_not_due, exec_breakClosingEnd_of_not_closing, exec_sendCharacterEnd_of_not_sending, fun hw => ?_,
    fun h => congrArg Outcome.next (placeRun_of_no_room h), fun h => congrArg Outcome.next (placeMarker_of_no_room h),
    exec_fillEnd_of_not_filling, exec_completion_of_not_completing⟩
  exact ⟨congrArg Outcome.next (placeRun_of_no_room (by simp [hw])), congrArg Outcome.next (placeMarker_of_no_room (by simp [hw]))⟩

end Sys2Proof.Machine
end

section
/-! Proofs: reset values, the timebase, commands refused by their port, and argument writes. -/

namespace Sys2Proof.Machine

open Host

variable {s t u : State} {p : PortId} {l : LineId}

/-! ## Reset values and the timebase (R5, R181) -/

theorem strap_toNat (straps : BitVec 2) : straps.toNat = 2 * (straps.getLsbD 1).toNat + (straps.getLsbD 0).toNat := by
  revert straps
  decide

theorem port_reset (p : PortId) : State.reset.port p = Port.atReset 0 false := by
  simp [State.reset, State.port]

/-- Settles O4: the values are those of the definitions, and DEVICE RESET gives them to every line and port. -/
theorem resetGivesTheResetValues : Obligations.ResetGivesTheResetValues := by
  refine ⟨⟨rfl, fresh_reset.pages, rfl, rfl, fun l => ?_, fun high => ?_, port_reset, fun precedence inReset => ?_⟩, fun s a b d => ?_⟩
  · simp [State.reset, State.line]
  · cases high <;> decide
  · exact ⟨rfl, rfl, rfl, rfl, rfl, rfl, rfl, rfl, rfl, rfl, rfl, rfl, rfl, rfl, rfl, rfl, rfl, rfl⟩
  · exact ⟨_, rfl, rfl, rfl, (fresh_deviceReset rfl).pages, rfl, line_deviceReset rfl, port_deviceReset rfl, strap_toNat⟩

theorem tick_start_due (now : Word) (duration : Nat) (u : Timer) : (tickTimer now duration u).start = u.start
    ∧ ((tickTimer now duration u).due = true ↔ u.due = true ∨ duration ≤ (now - u.start).toNat) := by
  refine ⟨rfl, ?_⟩
  rw [tickTimer, Bool.or_eq_true, decide_eq_true_eq]
  rfl

theorem state_tick (now : Word) (x : Line) : (x.tick now).tx.state = x.tx.state.tick now := rfl

/-- Settles O5, which is how an advance and a tick are defined. -/
theorem timebaseAdvancesByOneMillisecond : Obligations.TimebaseAdvancesByOneMillisecond := by
  refine ⟨fun s => ⟨_, rfl, rfl, fun h => ?_, rfl, rfl, rfl, rfl, rfl, line_timebaseAdvance rfl⟩, by decide, tick_start_due,
    fun now x => ⟨rfl, rfl, rfl, rfl, rfl, fun d u h => ?_, fun d u h => ?_, fun h => ?_, rfl, rfl, rfl, rfl, rfl, rfl, rfl, rfl⟩⟩
  · rw [h]
    rfl
  · rw [state_tick, h]
    rfl
  · rw [state_tick, h]
    rfl
  · rw [state_tick]
    cases hstate : x.tx.state with
    | gap d u => exact absurd hstate (h d u).1
    | breaking d u => exact absurd hstate (h d u).2
    | idle => rfl
    | sending c => rfl
    | closing => rfl
    | paused => rfl

/-! ## Commands that their port refuses (R173, R175, R180) -/

/-- A write of COMMAND is a command taken by its port, with some rule. -/
theorem exec_of_codePort {c : Instr} (h : c.codePort? = some p) :
    ∃ dataIn act, ∀ s, exec c s = .next (takeCommand s p dataIn act) := by
  cases c <;> cases h <;> exact ⟨_, _, fun _ => rfl⟩

theorem takeCommand_of_not_idle (hreset : (s.port p).resetAsserted = false) (hidle : (s.port p).idle = false) (dataIn : Bool)
    (act : State → State) : takeCommand s p dataIn act = s.modPort p fun x => { x with collision := true, pointer := 1 } := by
  rw [takeCommand, hreset, hidle]
  rfl

theorem takeCommand_of_reset (hreset : (s.port p).resetAsserted = true) (dataIn : Bool) (act : State → State) :
    takeCommand s p dataIn act = s := by
  rw [takeCommand, hreset]
  rfl

/-- Settles O9: a port that is not idle discards the code; one in reset hears nothing. -/
theorem aPortThatIsNotReadyTakesNoCommand : Obligations.APortThatIsNotReadyTakesNoCommand := by
  refine ⟨fun c s p hport hreset hidle => ?_, fun s p hreset => ⟨fun c hport => ?_, ?_, fun o b => ?_, fun b => ?_, ?_⟩⟩
  · obtain ⟨dataIn, act, hexec⟩ := exec_of_codePort hport
    rw [hexec, takeCommand_of_not_idle hreset hidle]
  · obtain ⟨dataIn, act, hexec⟩ := exec_of_codePort hport
    rw [hexec, takeCommand_of_reset hreset]
  · exact congrArg Outcome.next (if_pos hreset)
  · exact congrArg Outcome.next (if_pos hreset)
  · exact congrArg Outcome.next (if_pos hreset)
  · exact congrArg Outcome.next (if_pos hreset)

/-- A line command reads its line from LINE before its rule. -/
theorem exec_of_named {c : Instr} (h : c.scope = .named p) :
    ∃ act : State → LineId → State, ∀ s, exec c s = .next (takeCommand s p c.dataIn fun v => withLine v p (act v)) := by
  cases c <;> cases h <;> exact ⟨_, fun _ => rfl⟩

theorem lineOf_eq_none_iff (b : Byte) : lineOf b = none ↔ 16 ≤ b.toNat := by
  unfold lineOf
  split <;> simp <;> omega

theorem lineOf_eq_some_iff (b : Byte) (l : LineId) : lineOf b = some l ↔ b.toNat = l.val := by
  unfold lineOf
  split
  · simp [Fin.ext_iff]
  · simp
    omega

/-- Settles O10: every line command checks its line first, and an unknown code is refused. -/
theorem badLineAndBadCommandAreRefused : Obligations.BadLineAndBadCommandAreRefused := by
  refine ⟨⟨fun c s p hscope hready hline => ?_, fun b => ⟨(lineOf_eq_none_iff b).symm, lineOf_eq_some_iff b⟩⟩, fun s p code hready => ?_⟩
  · obtain ⟨act, hexec⟩ := exec_of_named hscope
    rw [hexec, lineCommand_badLine hready hline]
  · exact congrArg Outcome.next ((takeCommand_of_ready hready false _).trans (prepare_beginCommand s p false _))

/-! ## Bytes of words (R172) -/

theorem length_bytesLE (k : Nat) : ∀ n, (bytesLE k n).length = k := by
  induction k with
  | zero => exact fun _ => rfl
  | succ k ih => exact fun n => congrArg (· + 1) (ih _)

/-- A byte of a number, lowest first. -/
theorem getElem?_bytesLE (k : Nat) : ∀ n i : Nat, i < k → (bytesLE k n)[i]? = some (byteOf (n / 256 ^ i)) := by
  induction k with
  | zero => exact fun _ _ h => absurd h (Nat.not_lt_zero _)
  | succ k ih =>
    intro n i hi
    cases i with
    | zero => simp [bytesLE]
    | succ i =>
      rw [bytesLE, List.getElem?_cons_succ, ih _ _ (by omega), Nat.div_div_eq_div_mul, pow_succ']

/-- A byte of a word is its bits from the byte's place on. -/
theorem byteOf_toNat_div {w : Nat} (x : BitVec w) (i : Nat) : byteOf (x.toNat / 256 ^ i) = (x >>> (8 * i)).setWidth 8 := by
  have hpow : 256 ^ i = 2 ^ (8 * i) := by rw [pow_mul]; norm_num
  rw [byteOf, hpow, ← Nat.shiftRight_eq_div_pow]
  refine BitVec.eq_of_getLsbD_eq fun j hj => ?_
  rw [BitVec.getLsbD_ofNat, BitVec.getLsbD_setWidth, BitVec.getLsbD_ushiftRight, Nat.testBit_shiftRight, BitVec.testBit_toNat]

theorem setWidth_shift_setByte {w : Nat} (x : BitVec w) (b : Byte) (i j : Nat) (hi : 8 * i + 8 ≤ w) (hj : 8 * j + 8 ≤ w) :
    ((setByte x i b) >>> (8 * j)).setWidth 8 = if j = i then b else (x >>> (8 * j)).setWidth 8 := by
  have h255 : ∀ m, Nat.testBit 255 m = decide (m < 8) := fun m => Nat.testBit_two_pow_sub_one 8 m
  refine BitVec.eq_of_getLsbD_eq fun m hm => ?_
  have hplace : 8 * j + m < w := by omega
  rw [BitVec.getLsbD_setWidth, BitVec.getLsbD_ushiftRight]
  simp only [setByte, BitVec.getLsbD_or, BitVec.getLsbD_and, BitVec.getLsbD_not, BitVec.getLsbD_ofNat, Nat.testBit_shiftLeft, h255,
    BitVec.testBit_toNat, hm, hplace, decide_true, Bool.true_and]
  by_cases hij : j = i
  · subst hij
    simp [hm]
  · rw [if_neg hij, BitVec.getLsbD_setWidth, BitVec.getLsbD_ushiftRight]
    by_cases hle : 8 * i ≤ 8 * j + m
    · have hout : ¬ 8 * j + m - 8 * i < 8 := by omega
      have hzero : b.getLsbD (8 * j + m - 8 * i) = false := BitVec.getLsbD_of_ge _ _ (by omega)
      simp [hout, hzero, hm]
    · simp [hle, hm]

/-- A byte set in a word is set among its bytes. -/
theorem bytesLE_setByte {w : Nat} (k : Nat) (hw : w = 8 * k) (x : BitVec w) (i : Nat) (hi : i < k) (b : Byte) :
    bytesLE k (setByte x i b).toNat = (bytesLE k x.toNat).set i b := by
  refine List.ext_getElem? fun j => ?_
  by_cases hj : j < k
  · rw [getElem?_bytesLE _ _ _ hj, List.getElem?_set, byteOf_toNat_div, setWidth_shift_setByte x b i j (by omega) (by omega),
      getElem?_bytesLE _ _ _ hj, byteOf_toNat_div, length_bytesLE]
    split_ifs <;> first | rfl | omega
  · rw [List.getElem?_eq_none (by rw [length_bytesLE]; omega),
      List.getElem?_eq_none (by rw [List.length_set, length_bytesLE]; omega)]

/-! ## The window (R172) -/

theorem windowRead_of_ready (hreset : (s.port p).resetAsserted = false) (o : BitVec 5) :
    windowRead s p o = if o = 16 then (s.port p).dataByte else (s.port p).windowBytes.getD o.toNat 0 := by
  rw [windowRead, hreset]
  rfl

theorem length_windowBytes (x : Port) : x.windowBytes.length = 16 := by simp [Port.windowBytes, length_bytesLE]

/-- An argument byte stored is a byte of the window set (R172). -/
theorem windowBytes_storeArgument (x : Port) (n : Nat) (b : Byte) (hlow : 2 ≤ n) (hhigh : n ≤ 13) :
    (x.storeArgument n b).windowBytes = x.windowBytes.set n b := by
  have hcount := fun i hi => congrArg (fun bytes => [x.status, x.error.code, x.line, x.option] ++ bytes ++ bytesLE 4 x.position.toNat
    ++ bytesLE 4 x.value.toNat ++ bytesLE 2 x.transferLength) (bytesLE_setByte 2 rfl x.count i hi b)
  have hposition := fun i hi => congrArg (fun bytes => [x.status, x.error.code, x.line, x.option] ++ bytesLE 2 x.count.toNat ++ bytes
    ++ bytesLE 4 x.value.toNat ++ bytesLE 2 x.transferLength) (bytesLE_setByte 4 rfl x.position i hi b)
  have hvalue := fun i hi => congrArg (fun bytes => [x.status, x.error.code, x.line, x.option] ++ bytesLE 2 x.count.toNat
    ++ bytesLE 4 x.position.toNat ++ bytes ++ bytesLE 2 x.transferLength) (bytesLE_setByte 4 rfl x.value i hi b)
  interval_cases n
  · rfl
  · rfl
  · exact hcount 0 (by decide)
  · exact hcount 1 (by decide)
  · exact hposition 0 (by decide)
  · exact hposition 1 (by decide)
  · exact hposition 2 (by decide)
  · exact hposition 3 (by decide)
  · exact hvalue 0 (by decide)
  · exact hvalue 1 (by decide)
  · exact hvalue 2 (by decide)
  · exact hvalue 3 (by decide)

/-! ## ARGUMENT WRITE (R172, R173) -/

theorem State.modPort_congr (s : State) (p : PortId) {f g : Port → Port} (h : f (s.port p) = g (s.port p)) :
    s.modPort p f = s.modPort p g := by
  rw [State.modPort, State.modPort, h]

theorem storeArgument_phase (x : Port) (n : Nat) (b : Byte) : (x.storeArgument n b).phase = x.phase
    ∧ (x.storeArgument n b).buffer = x.buffer ∧ (x.storeArgument n b).readPoint = x.readPoint
    ∧ (x.storeArgument n b).resetAsserted = x.resetAsserted := by
  unfold Port.storeArgument
  split_ifs <;> exact ⟨rfl, rfl, rfl, rfl⟩

theorem dataByte_storeArgument (x : Port) (n : Nat) (b : Byte) : (x.storeArgument n b).dataByte = x.dataByte := by
  obtain ⟨hphase, hbuffer, hpoint, -⟩ := storeArgument_phase x n b
  simp only [Port.dataByte, hphase, hbuffer, hpoint]

/-- The window after an argument byte is stored. -/
theorem windowRead_storeArgument {o : BitVec 5} (b : Byte) (hreset : (s.port p).resetAsserted = false)
    (ho : 2 ≤ o.toNat ∧ o.toNat ≤ 13) (o' : BitVec 5) :
    windowRead (s.modPort p fun x => ({ x with pointer := nextOffset o } : Port).storeArgument o.toNat b) p o'
      = if o' = o then b else windowRead s p o' := by
  obtain ⟨hlow, hhigh⟩ := ho
  obtain ⟨-, -, -, hstill⟩ := storeArgument_phase { s.port p with pointer := nextOffset o } o.toNat b
  have hport := State.port_modPort_self s p fun x => ({ x with pointer := nextOffset o } : Port).storeArgument o.toNat b
  rw [windowRead_of_ready (by rw [hport, hstill]; exact hreset), windowRead_of_ready hreset, hport, dataByte_storeArgument,
    windowBytes_storeArgument _ _ _ hlow hhigh, List.getD_eq_getElem?_getD, List.getElem?_set, length_windowBytes,
    List.getD_eq_getElem?_getD]
  by_cases heq : o' = o
  · subst heq
    have hne : o' ≠ 16 := fun e => absurd hhigh (by rw [e]; decide)
    rw [if_neg hne, if_pos rfl, if_pos (by omega), if_pos rfl]
    rfl
  · have hne : o.toNat ≠ o'.toNat := fun e => heq (BitVec.eq_of_toNat_eq e.symm)
    rw [if_neg hne, if_neg heq]
    rfl

theorem isArgument_iff (o : BitVec 5) : isArgument o = true ↔ 2 ≤ o.toNat ∧ o.toNat ≤ 13 := by simp [isArgument]

theorem exec_argumentWrite_of_idle {o : BitVec 5} {b : Byte} (hreset : (s.port p).resetAsserted = false)
    (hidle : (s.port p).idle = true) (ho : 2 ≤ o.toNat ∧ o.toNat ≤ 13) :
    exec (.argumentWrite p o b) s = .next (s.modPort p fun x => ({ x with pointer := nextOffset o } : Port).storeArgument o.toNat b) := by
  refine congrArg Outcome.next ((if_neg (by rw [hreset]; decide)).trans (State.modPort_congr s p ?_))
  exact (if_pos ((isArgument_iff o).mpr ho)).trans (if_pos hidle)

theorem exec_argumentWrite_of_not_idle {o : BitVec 5} {b : Byte} (hreset : (s.port p).resetAsserted = false)
    (hidle : (s.port p).idle = false) (ho : 2 ≤ o.toNat ∧ o.toNat ≤ 13) :
    exec (.argumentWrite p o b) s = .next (s.modPort p fun x => { x with collision := true, pointer := nextOffset o }) := by
  refine congrArg Outcome.next ((if_neg (by rw [hreset]; decide)).trans (State.modPort_congr s p ?_))
  exact (if_pos ((isArgument_iff o).mpr ho)).trans (if_neg (by rw [hidle]; decide))

theorem exec_argumentWrite_elsewhere {o : BitVec 5} {b : Byte} (hreset : (s.port p).resetAsserted = false)
    (ho : o.toNat < 2 ∨ 13 < o.toNat) :
    exec (.argumentWrite p o b) s = .next (s.modPort p fun x => { x with pointer := nextOffset o }) := by
  refine congrArg Outcome.next ((if_neg (by rw [hreset]; decide)).trans (State.modPort_congr s p ?_))
  refine if_neg ?_
  rw [isArgument_iff]
  omega

theorem nextOffset_of_argument {o : BitVec 5} (ho : o.toNat ≤ 13) : nextOffset o = o + 1 := by
  rw [nextOffset, if_neg]
  rintro (rfl | rfl) <;> exact absurd ho (by decide)

/-- Settles O13: a stored byte is one byte of the window set. -/
theorem argumentWriteStoresTheByte : Obligations.ArgumentWriteStoresTheByte := by
  refine ⟨fun s p o b hreset hlow hhigh => ⟨fun hidle => ?_, fun hidle => ?_⟩, fun s p o b hreset ho => exec_argumentWrite_elsewhere hreset ho⟩
  · refine ⟨_, exec_argumentWrite_of_idle hreset hidle ⟨hlow, hhigh⟩, ?_, fun o' ho' => ?_, rfl,
      fun q hq => State.port_modPort_ne _ _ _ _ hq⟩
    · rw [windowRead_storeArgument b hreset ⟨hlow, hhigh⟩, if_pos rfl]
    · rw [windowRead_storeArgument b hreset ⟨hlow, hhigh⟩, if_neg ho']
  · rw [exec_argumentWrite_of_not_idle hreset hidle ⟨hlow, hhigh⟩, nextOffset_of_argument hhigh]

end Sys2Proof.Machine
end

section
/-! Proofs: the window as it is laid out, and the transactions that reach it. -/

namespace Sys2Proof.Machine

open Host

variable {s : State} {p : PortId}

/-! ## Reads of the window (R172, R180) -/

theorem windowRead_count (hreset : (s.port p).resetAsserted = false) (i : Fin 2) :
    windowRead s p (BitVec.ofNat 5 (4 + i.val)) = ((s.port p).count >>> (8 * i.val)).setWidth 8 := by
  rw [windowRead_of_ready hreset, ← byteOf_toNat_div]
  fin_cases i <;> simp [Port.windowBytes, bytesLE]

theorem windowRead_position (hreset : (s.port p).resetAsserted = false) (i : Fin 4) :
    windowRead s p (BitVec.ofNat 5 (6 + i.val)) = ((s.port p).position >>> (8 * i.val)).setWidth 8 := by
  rw [windowRead_of_ready hreset, ← byteOf_toNat_div]
  fin_cases i <;> simp [Port.windowBytes, bytesLE, Nat.div_div_eq_div_mul]

theorem windowRead_value (hreset : (s.port p).resetAsserted = false) (i : Fin 4) :
    windowRead s p (BitVec.ofNat 5 (10 + i.val)) = ((s.port p).value >>> (8 * i.val)).setWidth 8 := by
  rw [windowRead_of_ready hreset, ← byteOf_toNat_div]
  fin_cases i <;> simp [Port.windowBytes, bytesLE, Nat.div_div_eq_div_mul]

theorem windowRead_transferLength (hreset : (s.port p).resetAsserted = false) (i : Fin 2) :
    windowRead s p (BitVec.ofNat 5 (14 + i.val)) = BitVec.ofNat 8 ((s.port p).transferLength / 256 ^ i.val) := by
  rw [windowRead_of_ready hreset]
  fin_cases i <;> simp [Port.windowBytes, bytesLE, byteOf]

theorem windowRead_above (hreset : (s.port p).resetAsserted = false) {o : BitVec 5} (ho : 17 ≤ o.toNat) : windowRead s p o = 0 := by
  have hne : o ≠ 16 := fun e => absurd ho (by rw [e]; decide)
  rw [windowRead_of_ready hreset, if_neg hne, List.getD_eq_getElem?_getD,
    List.getElem?_eq_none (by rw [length_windowBytes]; omega)]
  rfl

/-! ## Transactions (R172, R175) -/

theorem commandOf_wellFormed (p : PortId) (code : Byte) : (commandOf p code).wellFormed = true ∧ (commandOf p code).port? = some p := by
  revert p code
  decide +kernel

theorem commandOf_codePort (p : PortId) (code : Byte) : (commandOf p code).codePort? = some p ∨ commandOf p code = .abort p := by
  revert p code
  decide +kernel

theorem commandOf_of_not_mem (p : PortId) (code : Byte) (h : code ∉ commandCodes) : commandOf p code = .badCommand p code := by
  revert p code
  decide +kernel

/-- Every byte of a transaction that is a command is one that the port takes. -/
theorem writeOf_wellFormed {o : BitVec 5} {b : Byte} {c : Instr} (h : writeOf p o b = some c) :
    c.wellFormed = true ∧ c.port? = some p := by
  unfold writeOf at h
  split_ifs at h with hcommand hargument hdata
  · obtain rfl := Option.some.inj h
    exact commandOf_wellFormed p b
  · obtain rfl := Option.some.inj h
    exact ⟨hargument, rfl⟩
  · obtain rfl := Option.some.inj h
    exact ⟨rfl, rfl⟩

theorem readOf_wellFormed {o : BitVec 5} {c : Instr} (h : readOf p o = some c) : c.wellFormed = true ∧ c.port? = some p := by
  unfold readOf at h
  split_ifs at h
  obtain rfl := Option.some.inj h
  exact ⟨rfl, rfl⟩

theorem transactionFrom_wellFormed (p : PortId) (read : Bool) (bytes : List Byte) :
    ∀ o, ∀ c ∈ transactionFrom p read o bytes, c.wellFormed = true ∧ c.port? = some p := by
  induction bytes with
  | nil => exact fun _ _ h => nomatch h
  | cons b bs ih =>
    intro o c hc
    rw [transactionFrom, List.mem_append] at hc
    rcases hc with hc | hc
    · rw [Option.mem_toList] at hc
      split_ifs at hc
      · exact readOf_wellFormed hc
      · exact writeOf_wellFormed hc
    · exact ih _ c hc

/-- Bytes written at argument offsets in a row are argument writes in a row. -/
theorem transactionFrom_arguments (p : PortId) (bytes : List Byte) : ∀ o : BitVec 5, 2 ≤ o.toNat → o.toNat + bytes.length ≤ 14 →
    transactionFrom p false o bytes
      = (List.range bytes.length).map fun i => .argumentWrite p (BitVec.ofNat 5 (o.toNat + i)) (bytes.getD i 0) := by
  induction bytes with
  | nil => exact fun _ _ _ => rfl
  | cons b bs ih =>
    intro o hlow hhigh
    rw [List.length_cons] at hhigh
    have ho : o.toNat ≤ 13 := by omega
    have hzero : o ≠ 0 := fun e => absurd hlow (by rw [e]; decide)
    have hnext : (o + 1).toNat = o.toNat + 1 := by
      rw [BitVec.toNat_add]
      change (o.toNat + 1) % 32 = _
      omega
    rw [transactionFrom, nextOffset_of_argument ho, ih (o + 1) (by omega) (by omega), List.length_cons, List.range_succ_eq_map,
      List.map_cons, List.map_map, writeOf, if_neg hzero, if_pos ((isArgument_iff o).mpr ⟨hlow, ho⟩), hnext]
    refine congrArg₂ List.cons ?_ (List.map_congr_left fun i _ => ?_)
    · simp
    · simp [Nat.add_assoc, Nat.add_comm 1]

theorem transactionFrom_dataWrites (p : PortId) (bytes : List Byte) :
    transactionFrom p false 16 bytes = bytes.map fun b => .dataWrite p b := by
  induction bytes with
  | nil => rfl
  | cons b bs ih => exact congrArg (Instr.dataWrite p b :: ·) ih

theorem transactionFrom_dataReads (p : PortId) (bytes : List Byte) :
    transactionFrom p true 16 bytes = List.replicate bytes.length (.dataRead p) := by
  induction bytes with
  | nil => rfl
  | cons b bs ih => exact congrArg (Instr.dataRead p :: ·) ih

/-- Reads below DATA are no commands. -/
theorem transactionFrom_reads (p : PortId) (bytes : List Byte) : ∀ o : BitVec 5, o.toNat + bytes.length ≤ 16 →
    transactionFrom p true o bytes = [] := by
  induction bytes with
  | nil => exact fun _ _ => rfl
  | cons b bs ih =>
    intro o ho
    rw [List.length_cons] at ho
    have hdata : o ≠ 16 := fun e => absurd ho (by rw [e]; simp)
    have hlast : o ≠ 31 := fun e => absurd ho (by rw [e]; simp; omega)
    have hnext : nextOffset o = o + 1 := if_neg fun h => h.elim hdata hlast
    have hplace : (o + 1).toNat = o.toNat + 1 := by
      rw [BitVec.toNat_add]
      change (o.toNat + 1) % 32 = _
      omega
    rw [transactionFrom, hnext, ih _ (by omega), readOf, if_pos rfl, if_neg hdata]
    rfl

theorem header_unexamined (header : Byte) : (header ^^^ 0x60).getLsbD 7 = header.getLsbD 7
    ∧ (header ^^^ 0x60).setWidth 5 = header.setWidth 5 := by
  revert header
  decide +kernel

/-! ## STATUS (R174) -/

theorem getLsbD_flags (b0 b1 b2 b3 b4 b5 : Bool) :
    let x := byteOf (b0.toNat + 2 * b1.toNat + 4 * b2.toNat + 8 * b3.toNat + 16 * b4.toNat + 32 * b5.toNat)
    x.getLsbD 0 = b0 ∧ x.getLsbD 1 = b1 ∧ x.getLsbD 2 = b2 ∧ x.getLsbD 3 = b3 ∧ x.getLsbD 4 = b4 ∧ x.getLsbD 5 = b5
      ∧ x.getLsbD 6 = false ∧ x.getLsbD 7 = false := by
  revert b0 b1 b2 b3 b4 b5
  decide

theorem busy_dataReady (x : Port) : ¬ (x.busy = true ∧ x.dataReady = true) := by
  cases h : x.phase <;> simp [Port.busy, Port.dataReady, h]

theorem idle_iff_not_busy (x : Port) : x.idle = true ↔ x.busy = false ∧ x.dataReady = false := by
  simp [Port.idle]

/-- Settles O7: the window byte by byte, the transactions by their headers, STATUS bit by bit, and the codes. -/
theorem theWindowIsLaidOut : Obligations.TheWindowIsLaidOut := by
  refine ⟨fun s p => ⟨fun hreset o => ?_, fun hreset => ?_⟩, fun p => ?_, fun x => ?_, by decide⟩
  · rw [windowRead, hreset]
    rfl
  · exact ⟨windowRead_of_ready hreset 0, windowRead_of_ready hreset 1, windowRead_of_ready hreset 2, windowRead_of_ready hreset 3,
      windowRead_count hreset, windowRead_position hreset, windowRead_value hreset, windowRead_transferLength hreset,
      windowRead_of_ready hreset 16, fun o => windowRead_above hreset⟩
  · refine ⟨fun _ => rfl, fun header bytes => transactionFrom_wellFormed p _ bytes _, fun code => ⟨rfl, commandOf_codePort p code⟩,
      commandOf_of_not_mem p, rfl, fun bytes hlen => ?_, transactionFrom_dataWrites p, transactionFrom_dataReads p,
      fun bytes hlen => transactionFrom_reads p bytes 0 (by simpa using hlen), fun header bytes => ?_⟩
    · have h := transactionFrom_arguments p bytes 2 (by decide) (by rw [hlen]; decide)
      rw [hlen] at h
      exact h
    · obtain ⟨hread, hoffset⟩ := header_unexamined header
      rw [transaction, hread, hoffset, transaction]
  · obtain ⟨h0, h1, h2, h3, h4, h5, h6, h7⟩ := getLsbD_flags x.busy x.dataReady x.dataIn x.errorFlag x.attention x.collision
    exact ⟨h0, h1, h2, h3, h4, h5, h6, h7, busy_dataReady x, idle_iff_not_busy x⟩

end Sys2Proof.Machine
end

section
/-! Proofs: LINE STATUS and its records; the bits of a character. -/

namespace Sys2Proof.Machine

open Host

variable {s : State} {p : PortId} {l : LineId}

/-! ## LINE STATUS (R131, R132, R184) -/

/-- The block of a port that has taken a command whose rule is about to act. -/
def Port.begun (dataIn : Bool) (x : Port) : Port :=
  { x with collision := false, errorFlag := false, error := .none, dataIn := dataIn, phase := .completing {}, pointer := 1 }

@[simp] theorem port_beginCommand_self (s : State) (p : PortId) (dataIn : Bool) :
    (beginCommand s p dataIn).port p = (s.port p).begun dataIn := State.port_modPort_self s p _

theorem port_beginCommand_ne {q : PortId} (s : State) (dataIn : Bool) (hq : q ≠ p) : (beginCommand s p dataIn).port q = s.port q :=
  State.port_modPort_ne _ _ _ _ hq

/-- A number spelled in bytes is read back, but for what the bytes cannot hold. -/
theorem natLE_bytesLE (k : Nat) : ∀ n, natLE (bytesLE k n) = n % 256 ^ k := by
  induction k with
  | zero => exact fun n => (Nat.mod_one n).symm
  | succ k ih =>
    intro n
    have hbyte : (byteOf n).toNat = n % 256 := BitVec.toNat_ofNat n 8
    rw [bytesLE, natLE, ih, hbyte, pow_succ', Nat.mod_mul]

theorem natLE_bytesLE_toNat {w : Nat} (k : Nat) (hw : w = 8 * k) (x : BitVec w) : natLE (bytesLE k x.toNat) = x.toNat := by
  have hpow : 256 ^ k = 2 ^ w := by rw [hw, pow_mul]; norm_num
  rw [natLE_bytesLE, hpow]
  exact Nat.mod_eq_of_lt x.isLt

theorem length_flatMap_bytesLE (f : Nat → Nat) (is : List Nat) : (is.flatMap fun i => bytesLE 2 (f i)).length = 2 * is.length := by
  induction is with
  | nil => rfl
  | cons i is ih => rw [List.flatMap_cons, List.length_append, length_bytesLE, ih, List.length_cons]; omega

theorem length_encode (x : Settings) : x.encode.length = 34 := by
  simp only [Settings.encode, List.length_append, length_bytesLE, length_flatMap_bytesLE, List.length_range, List.length_cons,
    List.length_nil]

theorem byteOf_toNat_bool (b : Bool) : byteOf b.toNat = if b then 1 else 0 := by
  cases b <;> rfl

/-- The record that LINE STATUS returns for an option. -/
def Line.recordFor (ln : Line) (option : Byte) : Option (List Byte) :=
  if option = 0 then some ln.statusRecord else if option = 1 then some ln.io.settings.encode else none

theorem exec_lineStatus_of_calls (hcall : s.calls p l) :
    exec (.lineStatus p) s = .next (match (s.line l).recordFor (s.port p).option with
      | some record => beginFill (beginCommand s p true) p (.lineStatus record)
      | none => s.answer p true { code := .badArgument }) := by
  change execLineStatus p s = _
  rw [execLineStatus, lineCommand_of_calls hcall true, port_beginCommand_self, beginCommand_line]
  unfold Line.recordFor
  change Outcome.next (if (s.port p).option = 0 then _ else if (s.port p).option = 1 then _ else _) = _
  split_ifs
  · rfl
  · rfl
  · exact congrArg Outcome.next (prepare_beginCommand s p true _)

theorem exec_fillEnd_lineStatus {record : List Byte} (h : (s.port p).phase = .filling (.lineStatus record)) :
    exec (.fillEnd p) s = .next (deliver s p (.lineStatus record) { bytes := record, items := [] }) := by
  change execFillEnd p s = _
  rw [execFillEnd, h]

/-- Settles O20: the option picks the record, FILL END loads it, and the records are read back byte by byte. -/
theorem lineStatusReturnsOneRecord : Obligations.LineStatusReturnsOneRecord := by
  refine ⟨fun s p l hcall hoption => ?refused, fun s p l record hcall hrecord => ?taken, fun ln => ?layout⟩
  case refused =>
    have h0 : (s.port p).option ≠ 0 := fun e => absurd hoption (by rw [e]; decide)
    have h1 : (s.port p).option ≠ 1 := fun e => absurd hoption (by rw [e]; decide)
    rw [exec_lineStatus_of_calls hcall, Line.recordFor, if_neg h0, if_neg h1]
  case taken =>
    have hfor : (s.line l).recordFor (s.port p).option = some record := by
      rcases hrecord with ⟨ho, rfl⟩ | ⟨ho, rfl⟩
      · rw [Line.recordFor, if_pos ho]
      · rw [Line.recordFor, ho]
        rfl
    have hport : (beginFill (beginCommand s p true) p (.lineStatus record)).port p
        = { (s.port p).begun true with phase := .filling (.lineStatus record) } := by
      rw [beginFill, State.port_modPort_self, port_beginCommand_self]
    refine ⟨beginFill (beginCommand s p true) p (.lineStatus record), by rw [exec_lineStatus_of_calls hcall, hfor], rfl, ?_, ?_, ?_,
      _, exec_fillEnd_lineStatus (by rw [hport]), rfl, ?_, ?_, ?_, ?_⟩
    · rw [hport]
      rfl
    · rw [hport]
      rfl
    · rw [hport]
      rfl
    all_goals rw [deliver, State.port_modPort_self]
    rfl
  case layout =>
    refine ⟨length_encode _, rfl, rfl, rfl, natLE_bytesLE_toNat 2 rfl _, natLE_bytesLE_toNat 4 rfl _, natLE_bytesLE_toNat 4 rfl _,
      natLE_bytesLE 2 _, natLE_bytesLE 2 _, rfl, rfl, rfl, ?_, natLE_bytesLE 3 _, rfl, rfl, rfl, rfl, rfl, rfl, rfl⟩
    exact byteOf_toNat_bool ln.pool.frozen

/-! ## The bits of a character (R43, R46, R53) -/

theorem length_dataBits (f : Format) (c : Byte) : (dataBits f c).length = if f.sevenBits then 7 else 8 := by
  simp [dataBits]

/-- An exclusive-or over bits tells whether the count of ones is odd. -/
theorem foldl_xor_eq (bits : List Bool) : ∀ b : Bool, bits.foldl xor b = decide ((bits.count true + b.toNat) % 2 = 1) := by
  induction bits with
  | nil => exact fun b => by cases b <;> rfl
  | cons x xs ih =>
    intro b
    rw [List.foldl_cons, ih, List.count_cons]
    cases x <;> cases b <;> simp <;> omega

theorem oddOnes_iff (f : Format) (c : Byte) : oddOnes f c = true ↔ (dataBits f c).count true % 2 = 1 := by
  rw [oddOnes, foldl_xor_eq]
  simp

/-- The parity bit makes the count of ones even or odd (R46, R53). -/
theorem count_parityBit (f : Format) (c : Byte) :
    (f.parity = .even → ((dataBits f c).count true + (parityBit f c).toNat) % 2 = 0)
      ∧ (f.parity = .odd → ((dataBits f c).count true + (parityBit f c).toNat) % 2 = 1) := by
  have hodd := oddOnes_iff f c
  constructor
  · intro hparity
    rw [parityBit, hparity]
    cases h : oddOnes f c <;> simp [h] at hodd ⊢ <;> omega
  · intro hparity
    rw [parityBit, hparity]
    cases h : oddOnes f c <;> simp [h] at hodd ⊢ <;> omega

theorem length_frameBits (f : Format) (c : Byte) : (frameBits f c).length
    = 1 + (if f.sevenBits then 7 else 8) + (if f.parity = .noParity then 0 else 1) + (if f.twoStops then 2 else 1) := by
  simp only [frameBits, List.length_append, length_dataBits, List.length_replicate, List.length_singleton]
  split_ifs <;> rfl

/-- The bits of the frame: the data bits after the start bit, then the parity bit if there is one, then stop bits. -/
theorem frameBits_data (f : Format) (c : Byte) {i : Nat} (hi : i < if f.sevenBits then 7 else 8) :
    (frameBits f c)[i + 1]? = some (c.getLsbD i) := by
  have hlen := length_dataBits f c
  rw [frameBits, List.append_assoc, List.append_assoc, List.singleton_append, List.getElem?_cons_succ,
    List.getElem?_append_left (by omega)]
  simp [dataBits, hi]

theorem frameBits_parity (f : Format) (c : Byte) (h : f.parity ≠ .noParity) :
    (frameBits f c)[1 + (if f.sevenBits then 7 else 8)]? = some (parityBit f c) := by
  have hlen : ([false] ++ dataBits f c).length = 1 + if f.sevenBits then 7 else 8 := by
    rw [List.length_append, length_dataBits, List.length_singleton]
  rw [frameBits, List.append_assoc, ← hlen, List.getElem?_append_right le_rfl, Nat.sub_self, if_neg h]
  rfl

theorem frameBits_stop (f : Format) (c : Byte) {i : Nat}
    (hlow : 1 + (if f.sevenBits then 7 else 8) + (if f.parity = .noParity then 0 else 1) ≤ i) (hhigh : i < (frameBits f c).length) :
    (frameBits f c)[i]? = some true := by
  have hlen : ([false] ++ dataBits f c ++ (if f.parity = .noParity then [] else [parityBit f c])).length
      = 1 + (if f.sevenBits then 7 else 8) + (if f.parity = .noParity then 0 else 1) := by
    rw [List.length_append, List.length_append, length_dataBits, List.length_singleton]
    split_ifs <;> rfl
  rw [length_frameBits] at hhigh
  rw [frameBits, List.getElem?_append_right (by rw [hlen]; exact hlow), hlen, List.getElem?_replicate, if_pos (by omega)]

/-- What the receiver makes of a character as the transmitter drives it (R58). -/
theorem receivedCharacter_driven (f : Format) (c : Byte) :
    receivedCharacter f c (parityBit f c) true = { value := if f.sevenBits then c &&& 0x7F else c, framing := false, parity := false } := by
  simp [receivedCharacter, dataValue]

theorem spacing_sampled (f : Format) (data : Byte) (parity stop : Bool) :
    (Driven.spacing.sampled f data parity stop).candidate = true ∧ (Driven.spacing.sampled f data parity stop).value = 0 := by
  have hzero : dataValue f 0#8 = 0#8 := by
    unfold dataValue
    split <;> rfl
  simp [Driven.sampled, receivedCharacter, Received.candidate, hzero]

theorem completes_iff {x : Line} {d : Half} {f : Format} {k : Driven} (h : x.io.receiver = .inCharacter d f k) (data : Byte)
    (parity stop : Bool) (r : Received) : x.completes data parity stop r ↔ r = k.sampled f data parity stop := by
  constructor
  · rintro ⟨d', f', k', hreceiver, rfl⟩
    rw [h] at hreceiver
    obtain ⟨-, rfl, rfl⟩ := Receiver.inCharacter.inj hreceiver
    rfl
  · rintro rfl
    exact ⟨d, f, k, h, rfl⟩

/-- A start edge between characters begins one at the divisor and format in force. -/
theorem receiver_seeLevel_spacing {x : Line} (h : x.io.receiver = .between) :
    (x.seeLevel .spacing).io.receiver = .inCharacter x.rxDivisor x.io.inForce.format x.edgeDrives := by
  simp [Line.seeLevel, Line.receiverTold, h]

/-- Settles O38: bit by bit from the frame, and mark by mark from the sampled bits. -/
theorem charactersHaveTheirBitsAndMarks : Obligations.CharactersHaveTheirBitsAndMarks := by
  refine ⟨fun f c d => ⟨rfl, ?time, fun i => frameBits_data f c, length_frameBits f c, frameBits_parity f c, fun i => frameBits_stop f c,
      count_parityBit f c, receivedCharacter_driven f c, fun h => ?mark, rfl⟩,
    fun f data parity stop => ?marks, fun x d f k data parity stop r h => completes_iff h data parity stop r,
    fun f data parity stop => ⟨rfl, fun c => receivedCharacter_driven f c, spacing_sampled f data parity stop⟩,
    fun x data parity stop r hbetween hcompletes => ?edge⟩
  case time => rw [length_frameBits, characterTime, Config.bitTime]
  case mark => simp [receivedCharacter, h]
  case marks =>
    refine ⟨rfl, by simp [receivedCharacter], by simp [receivedCharacter], by simp [Received.errored], by simp [Received.candidate], rfl⟩
  case edge =>
    have hr := (completes_iff (receiver_seeLevel_spacing hbetween) data parity stop r).mp hcompletes
    refine ⟨fun hloop => ?_, fun c hloop hstate hahead hagree => ?_, fun c hloop hstate hnot => ?_, fun n u hloop hstate => ?_⟩
    · rw [hr, Line.edgeDrives, hloop]
      rfl
    · rw [hr, Line.edgeDrives, if_pos hloop, hstate]
      dsimp only
      rw [if_pos ⟨hahead, hagree⟩]
      exact receivedCharacter_driven _ c
    · rw [hr, Line.edgeDrives, if_pos hloop, hstate]
      dsimp only
      rw [if_neg hnot]
      rfl
    · rw [hr, Line.edgeDrives, if_pos hloop, hstate]
      exact spacing_sampled _ data parity stop

end Sys2Proof.Machine
end

section
/-! Proofs: the checks of line commands, the last byte of a data-out phase; NEXT CAUSE, the arguments of ATTACH, SET WATCH and SEND. -/

namespace Sys2Proof.Machine

open Host

variable {s : State} {p : PortId} {l : LineId}

/-! ## Checks (R100, R175) -/

theorem failCheck_beginCommand (s : State) (p : PortId) (dataIn : Bool) (code : ErrorCode) :
    failCheck (beginCommand s p dataIn) p code = s.answer p dataIn { code := code } := prepare_beginCommand s p dataIn _

theorem controlCommand_refused (hcall : s.calls p l) (hcontrol : (s.line l).hasControl p = false) (dataIn : Bool)
    (act : State → LineId → State) :
    takeCommand s p dataIn (fun t => withControl t p (act t)) = s.answer p dataIn { code := .noControl } := by
  have h := lineCommand_of_calls hcall dataIn fun t k => if (t.line k).hasControl p then act t k else failCheck t p .noControl
  refine h.trans ((if_neg ?_).trans (failCheck_beginCommand s p dataIn _))
  rw [beginCommand_line, hcontrol]
  decide

theorem controlCommand_of_calls (hcall : s.calls p l) (hcontrol : (s.line l).hasControl p = true) (dataIn : Bool)
    (act : State → LineId → State) :
    takeCommand s p dataIn (fun t => withControl t p (act t)) = act (beginCommand s p dataIn) l := by
  have h := lineCommand_of_calls hcall dataIn fun t k => if (t.line k).hasControl p then act t k else failCheck t p .noControl
  exact h.trans (if_pos hcontrol)

/-! ## The end of a data-out phase (R177) -/

/-- A port at the last byte of its data-out phase. -/
def Port.written (b : Byte) (x : Port) : Port :=
  { x with buffer := x.buffer ++ [b], transferLength := 0, phase := .completing {}, pointer := 16 }

/-- What a data-out command does at its last byte. -/
def DataOut.ends (v : State) (p : PortId) : DataOut → State
  | .send l count => endSendData v p l count
  | .setLine l => endSetLineData v p l
  | .setWatch l slot => endSetWatchData v p l slot

theorem exec_dataWrite_last {c : DataOut} {b : Byte} (hreset : (s.port p).resetAsserted = false)
    (hphase : (s.port p).phase = .writing c) (hlast : (s.port p).buffer.length + 1 = (s.port p).transferLength) :
    exec (.dataWrite p b) s = .next (c.ends (s.modPort p (Port.written b)) p) := by
  change execDataWrite p b s = _
  rw [execDataWrite, hreset, if_neg Bool.false_ne_true, hphase]
  dsimp only
  rw [if_pos hlast, State.modPort_modPort, State.modPort_modPort]
  cases c <;> rfl

theorem exec_dataWrite_more {c : DataOut} {b : Byte} (hreset : (s.port p).resetAsserted = false)
    (hphase : (s.port p).phase = .writing c) (hmore : (s.port p).buffer.length + 1 ≠ (s.port p).transferLength) :
    exec (.dataWrite p b) s = .next (s.modPort p fun x => { x with buffer := x.buffer ++ [b], pointer := 16 }) := by
  change execDataWrite p b s = _
  rw [execDataWrite, hreset, if_neg Bool.false_ne_true, hphase]
  dsimp only
  rw [if_neg hmore, State.modPort_modPort]
  rfl

theorem exec_dataWrite_outside {b : Byte} (hreset : (s.port p).resetAsserted = false) (hphase : ∀ c, (s.port p).phase ≠ .writing c) :
    exec (.dataWrite p b) s = .next (s.modPort p fun x => { x with pointer := 16 }) := by
  change execDataWrite p b s = _
  rw [execDataWrite, hreset, if_neg Bool.false_ne_true]
  cases h : (s.port p).phase with
  | writing c => exact absurd h (hphase c)
  | idle => rfl
  | completing r => rfl
  | filling c => rfl
  | reading c items => rfl
  | waiting l => rfl

theorem port_written (s : State) (p : PortId) (b : Byte) :
    (s.modPort p (Port.written b)).port p = (s.port p).written b := State.port_modPort_self s p _

/-! ## NEXT CAUSE (R160, R170) -/

/-- Causes in the order of their ranks are in the order of their kinds, and of their lines within a kind. -/
theorem Cause.order_of_rank_lt {c d : Cause} (h : c.rank < d.rank) :
    c.kind.code < d.kind.code ∨ (c.kind = d.kind ∧ c.line < d.line) := by
  have hcode : c.kind.code = d.kind.code → c.kind = d.kind := by
    cases c.kind <;> cases d.kind <;> decide
  have hc := c.line.isLt
  have hd := d.line.isLt
  unfold Cause.rank at h
  by_cases heq : c.kind.code = d.kind.code
  · exact .inr ⟨hcode heq, Fin.lt_def.mpr (by omega)⟩
  · exact .inl (by omega)

/-- The causes left at a port when its first cause is reported. -/
def Line.causesKept (ln : Line) (p : PortId) (c : Cause) (rest : List Cause) : List Cause :=
  if removedByReport ln p c.kind then rest else c :: rest

theorem exec_nextCause_nil (hready : (s.port p).ready) (hcauses : (s.port p).causes = []) :
    exec (.nextCause p) s
      = .next (s.answer p false { line := some 0xFF, option := some 0, count := some 0, value := some 0 }) := by
  change execNextCause p s = _
  have hbegun : ((s.port p).begun false).causes = [] := hcauses
  rw [execNextCause, takeCommand_of_ready hready, port_beginCommand_self, hbegun]
  exact congrArg Outcome.next (prepare_beginCommand s p false _)

theorem exec_nextCause_cons {c : Cause} {rest : List Cause} (hready : (s.port p).ready) (hcauses : (s.port p).causes = c :: rest) :
    exec (.nextCause p) s = .next ((s.answer p false
      { line := some (byteOf c.line.val), option := some (byteOf c.kind.code)
        count := some (countHalf ((s.line c.line).causesKept p c rest).length)
        value := some (causeDetail (s.line c.line) p c) }).modPort p
        fun x => { x with causes := (s.line c.line).causesKept p c rest }) := by
  change execNextCause p s = _
  have hbegun : ((s.port p).begun false).causes = c :: rest := hcauses
  rw [execNextCause, takeCommand_of_ready hready, port_beginCommand_self, hbegun]
  unfold Line.causesKept
  dsimp only
  rw [beginCommand_line]
  refine congrArg Outcome.next ?_
  cases removedByReport (s.line c.line) p c.kind with
  | true =>
    rw [if_pos rfl, if_pos rfl, State.port_modPort_self, prepare, State.modPort_modPort, beginCommand, State.modPort_modPort,
      State.answer, State.modPort_modPort]
    rfl
  | false =>
    rw [if_neg Bool.false_ne_true, if_neg Bool.false_ne_true, port_beginCommand_self, hbegun, prepare, beginCommand,
      State.modPort_modPort, State.answer, State.modPort_modPort]
    refine State.modPort_congr s p ?_
    rw [← hcauses]
    rfl

/-- Settles O15: the first cause is reported, and its kind tells whether it stays. -/
theorem nextCauseReportsTheFirstCause : Obligations.NextCauseReportsTheFirstCause := by
  refine ⟨⟨fun s p => exec_nextCause_nil, fun s p c rest hordered hready hcauses => ⟨fun d hd => ?order, _, _,
    exec_nextCause_cons hready hcauses, rfl, fun hkind => ?removed, fun hkind => ?stays, fun hkind a ha => ?data⟩⟩, fun ln p l d a ha => ?detail⟩
  case order =>
    have hranks := hordered p
    rw [hcauses, List.map_cons, List.pairwise_cons] at hranks
    exact Cause.order_of_rank_lt (hranks.1 _ (List.mem_map_of_mem hd))
  case removed => rcases hkind with h | h | h <;> simp [Line.causesKept, removedByReport, h]
  case stays => rcases hkind with h | h <;> simp [Line.causesKept, removedByReport, h]
  case data =>
    cases hmode : a.mode <;> simp [Line.causesKept, removedByReport, hkind, ha, hmode]
  case detail => simp [causeDetail, ha]

/-! ## The arguments of ATTACH (R102, R105, R182) -/

theorem bad_attachArgs_iff (o : Byte) (n : Half) : (attachArgs o n).bad = true
    ↔ 2 < n.toNat / 256 ∨ n = 0x0200 ∨ (o.getLsbD 1 = true ∧ o.getLsbD 0 = false) ∨ (o.getLsbD 2 = true ∧ o.getLsbD 1 = false) := by
  have hlevel : (n.toNat / 256 = 2 ∧ byteOf n.toNat = 0) ↔ n = 0x0200 := by
    rw [byteOf, ← BitVec.toNat_inj, ← BitVec.toNat_inj, BitVec.toNat_ofNat]
    change (n.toNat / 256 = 2 ∧ n.toNat % 2 ^ 8 = 0) ↔ n.toNat = 512
    omega
  rw [← hlevel]
  simp [AttachArgs.bad, attachArgs, or_assoc]

theorem exec_attach_bad {a : AttachArgs} (hcall : s.calls p l) (hargs : a = attachArgs (s.port p).option (s.port p).count)
    (hbad : a.bad = true) : exec (.attach p) s = .next (s.answer p false { code := .badArgument }) := by
  change execAttach p s = _
  subst hargs
  rw [execAttach, lineCommand_of_calls hcall false, port_beginCommand_self]
  exact congrArg Outcome.next ((if_pos hbad).trans (failCheck_beginCommand s p false _))

theorem exec_attach_lossless {a : AttachArgs} (hcall : s.calls p l) (hargs : a = attachArgs (s.port p).option (s.port p).count)
    (hlossless : a.lossless = true) (hflow : (s.line l).io.inForce.flow = false) :
    exec (.attach p) s = .next (s.answer p false { code := .badArgument }) := by
  change execAttach p s = _
  subst hargs
  rw [execAttach, lineCommand_of_calls hcall false, port_beginCommand_self, beginCommand_line]
  refine congrArg Outcome.next ?_
  have hcheck : ((attachArgs (s.port p).option (s.port p).count).lossless && !(s.line l).io.inForce.flow) = true := by
    rw [hlossless, hflow]
    rfl
  have hbegun : attachArgs ((s.port p).begun false).option ((s.port p).begun false).count
      = attachArgs (s.port p).option (s.port p).count := rfl
  dsimp only
  rw [hbegun, if_pos hcheck, ite_self]
  exact failCheck_beginCommand s p false _

theorem roleRefused_beginCommand (dataIn : Bool) (take : Bool) :
    roleRefused (beginCommand s p dataIn) l p take = roleRefused s l p take := by
  have hprecedence : ∀ q, ((beginCommand s p dataIn).port q).precedence = (s.port q).precedence := by
    intro q
    rw [beginCommand, State.port_modPort]
    split_ifs with h
    · rw [h]
    · rfl
  simp only [roleRefused, beginCommand_line, hprecedence]

theorem exec_attach_refused {a : AttachArgs} {code : ErrorCode} {w : PortId} (hcall : s.calls p l)
    (hargs : a = attachArgs (s.port p).option (s.port p).count) (hbad : a.bad = false)
    (hlossless : a.lossless = true → (s.line l).io.inForce.flow = true) (hwriter : a.writer = true)
    (hrefused : roleRefused s l p a.take = some (code, w)) :
    exec (.attach p) s = .next (s.answer p false { code := code, value := some (BitVec.ofNat 32 w.val) }) := by
  change execAttach p s = _
  rw [execAttach, lineCommand_of_calls hcall false, port_beginCommand_self, beginCommand_line]
  have hbegun : attachArgs ((s.port p).begun false).option ((s.port p).begun false).count = a := hargs.symm
  have hcheck : ¬ (a.lossless && !(s.line l).io.inForce.flow) = true := by
    rw [Bool.and_eq_true, Bool.not_eq_true']
    exact fun h => absurd (hlossless h.1) (by rw [h.2]; decide)
  dsimp only
  rw [hbegun, if_neg (by rw [hbad]; decide), if_neg hcheck, if_pos hwriter, roleRefused_beginCommand, hrefused]
  exact congrArg Outcome.next (prepare_beginCommand s p false _)

/-- Settles O27: the flags and levels are read off OPTION and COUNT, and each check answers before anything is done. -/
theorem attachChecksItsArguments : Obligations.AttachChecksItsArguments := by
  refine ⟨fun o n => ⟨rfl, rfl, rfl, rfl, rfl, rfl, rfl, rfl, BitVec.toNat_ofNat _ _, bad_attachArgs_iff o n⟩,
    fun s p l a hcall hargs => ⟨exec_attach_bad hcall hargs, exec_attach_lossless hcall hargs,
      fun w hbad hlossless hwriter hw hne => ⟨fun htake => ?_, fun htake hprecedence => ?_⟩⟩⟩
  · refine exec_attach_refused hcall hargs hbad hlossless hwriter ?_
    rw [roleRefused, hw, htake]
    exact if_neg hne
  · refine exec_attach_refused hcall hargs hbad hlossless hwriter ?_
    rw [roleRefused, hw, htake]
    exact (if_neg hne).trans (if_neg (Nat.not_lt.mpr hprecedence))

/-! ## SET WATCH (R85, R86, R183) -/

theorem exec_setWatch_slot {i : Fin 4} (hcall : s.calls p l) (hcontrol : (s.line l).hasControl p = true)
    (hoption : (s.port p).option.toNat = i.val) :
    exec (.setWatch p) s = .next (beginData (beginCommand s p false) p (.setWatch l i) watchLength) := by
  have hlt : (s.port p).option.toNat < 4 := by omega
  have hslot : (⟨(s.port p).option.toNat, hlt⟩ : Fin 4) = i := Fin.ext hoption
  change execSetWatch p s = _
  rw [execSetWatch, controlCommand_of_calls hcall hcontrol, port_beginCommand_self, ← hslot]
  exact congrArg Outcome.next (dif_pos hlt)

theorem exec_setWatch_bad (hcall : s.calls p l) (hcontrol : (s.line l).hasControl p = true) (hoption : 3 < (s.port p).option.toNat) :
    exec (.setWatch p) s = .next (s.answer p false { code := .badArgument }) := by
  have hge : ¬ (s.port p).option.toNat < 4 := by omega
  change execSetWatch p s = _
  rw [execSetWatch, controlCommand_of_calls hcall hcontrol, port_beginCommand_self]
  exact congrArg Outcome.next ((dif_neg hge).trans (failCheck_beginCommand s p false _))

theorem port_beginData_beginCommand (s : State) (p : PortId) (dataIn : Bool) (c : DataOut) (bytes : Nat) :
    (beginData (beginCommand s p dataIn) p c bytes).port p
      = { (s.port p).begun dataIn with phase := .writing c, transferLength := bytes, buffer := [], readPoint := 0 } := by
  rw [beginData, State.port_modPort_self, port_beginCommand_self]

theorem map_byteAt_range (bs : List Byte) (start n : Nat) (h : start + n ≤ bs.length) :
    ((List.range n).map fun i => byteAt bs (start + i)) = (bs.drop start).take n := by
  refine List.ext_getElem (by simp; omega) fun i hi hi' => ?_
  have hlt : start + i < bs.length := by simp at hi; omega
  simp [byteAt, List.getElem?_eq_getElem hlt]

/-- Settles O48: the checks answer alone; a record applied replaces the slot; its fields are read off its bytes. -/
theorem setWatchReplacesTheSlot : Obligations.SetWatchReplacesTheSlot := by
  refine ⟨fun s p l hcall => ⟨fun hcontrol => ?refused, fun hcontrol hoption => ?bad, fun i hcontrol hoption => ?taken⟩,
    fun s p l i b hreset hphase hlast => ⟨fun hnone => ?badRecord, fun w hw => ⟨fun hcontrol => ?lost, fun hcontrol => ?applied⟩⟩,
    fun bs hlength => ⟨?none, fun w hw => ?fields⟩⟩
  case refused => exact congrArg Outcome.next (controlCommand_refused hcall hcontrol false _)
  case bad => exact exec_setWatch_bad hcall hcontrol hoption
  case taken =>
    refine ⟨_, exec_setWatch_slot hcall hcontrol hoption, rfl, ?_, ?_, ?_, ?_⟩ <;> rw [port_beginData_beginCommand]
    all_goals rfl
  case badRecord =>
    refine ⟨_, exec_dataWrite_last hreset hphase hlast, ?_, ?_⟩ <;> rw [DataOut.ends, endSetWatchData, port_written]
    · rw [show watchOf ((s.port p).written b).buffer = none from hnone]
      rfl
    · rw [show watchOf ((s.port p).written b).buffer = none from hnone]
      dsimp only
      rw [failCheck, prepare, State.port_modPort_self]
  case lost =>
    refine ⟨_, exec_dataWrite_last hreset hphase hlast, ?_, ?_⟩ <;>
      rw [DataOut.ends, endSetWatchData, port_written, show watchOf ((s.port p).written b).buffer = some w from hw] <;>
      dsimp only <;> rw [State.line_modPort, hcontrol, if_neg Bool.false_ne_true]
    · rfl
    · rw [failCheck, prepare, State.port_modPort_self]
  case applied =>
    refine ⟨_, exec_dataWrite_last hreset hphase hlast, ?_, ?_, ?_⟩
    · rw [DataOut.ends, endSetWatchData, port_written, show watchOf ((s.port p).written b).buffer = some w from hw]
      dsimp only
      rw [State.line_modPort, hcontrol, if_pos rfl, prepare, State.port_modPort_self]
    · unfold watchOf at hw
      dsimp only at hw
      split_ifs at hw
      cases hw
      rfl
    · rw [DataOut.ends, endSetWatchData, port_written, show watchOf ((s.port p).written b).buffer = some w from hw]
      dsimp only
      rw [State.line_modPort, hcontrol, if_pos rfl, prepare, State.line_modPort, State.line_modLine_self, State.line_modPort]
  case none =>
    unfold watchOf
    dsimp only
    split_ifs with h
    · exact iff_of_true rfl h
    · exact iff_of_false nofun h
  case fields =>
    unfold watchOf at hw
    dsimp only at hw
    split_ifs at hw with h
    simp only [not_or, not_le, not_lt] at h
    obtain ⟨-, hpattern, -, hresponse, -⟩ := h
    cases hw
    refine ⟨rfl, rfl, rfl, rfl, rfl, rfl, rfl, map_byteAt_range bs 4 _ ?_, map_byteAt_range bs 16 _ ?_⟩
    · omega
    · omega

end Sys2Proof.Machine
end

section
/-! Proofs: the settings record is read back. -/

namespace Sys2Proof.Machine

/-! ## The fields of a settings record (R183) -/

theorem ofNat_natLE_bytesLE (x : Half) : BitVec.ofNat 16 (natLE (bytesLE 2 x.toNat)) = x := by
  rw [natLE_bytesLE_toNat 2 rfl, BitVec.ofNat_toNat, BitVec.setWidth_eq]

theorem toNat_byteOf_of_lt {n : Nat} (h : n < 256) : (byteOf n).toNat = n := by
  rw [byteOf, BitVec.toNat_ofNat]
  exact Nat.mod_eq_of_lt h

theorem formatOf_code (f : Format) : formatOf f.code = some f := by
  obtain ⟨sevenBits, parity, twoStops⟩ := f
  cases sevenBits <;> cases parity <;> cases twoStops <;> rfl

/-- The format byte, field by field (R183). -/
theorem code_format (f : Format) : f.code.toNat % 4 = (match f.parity with | .noParity => 0 | .even => 1 | .odd => 2)
    ∧ f.code.getLsbD 2 = f.sevenBits ∧ f.code.getLsbD 3 = f.twoStops ∧ f.code.toNat < 16 := by
  obtain ⟨sevenBits, parity, twoStops⟩ := f
  cases sevenBits <;> cases parity <;> cases twoStops <;> decide

theorem formatOf_eq_none_iff (b : Byte) : formatOf b = none ↔ 16 ≤ b.toNat ∨ b.toNat % 4 = 3 := by
  have hlt : b.toNat % 4 < 4 := Nat.mod_lt _ (by decide)
  unfold formatOf
  split_ifs with h
  · exact iff_of_true rfl (.inl h)
  · interval_cases hcode : b.toNat % 4 <;> simp [h]

theorem getLsbD_eight_flags (b0 b1 b2 b3 b4 b5 b6 b7 : Bool) :
    let x := byteOf (b0.toNat + 2 * b1.toNat + 4 * b2.toNat + 8 * b3.toNat + 16 * b4.toNat + 32 * b5.toNat + 64 * b6.toNat
      + 128 * b7.toNat)
    x.getLsbD 0 = b0 ∧ x.getLsbD 1 = b1 ∧ x.getLsbD 2 = b2 ∧ x.getLsbD 3 = b3 ∧ x.getLsbD 4 = b4 ∧ x.getLsbD 5 = b5
      ∧ x.getLsbD 6 = b6 ∧ x.getLsbD 7 = b7 := by
  revert b0 b1 b2 b3 b4 b5 b6 b7
  decide

/-- The bits of the flags byte of a settings record. -/
theorem getLsbD_flags_settings (x : Settings) : x.flags.getLsbD 0 = x.enable ∧ x.flags.getLsbD 1 = x.flow
    ∧ x.flags.getLsbD 2 = x.logSent ∧ x.flags.getLsbD 3 = x.breakNull ∧ x.flags.getLsbD 4 = x.autoHunt
    ∧ x.flags.getLsbD 5 = x.inversion ∧ x.flags.getLsbD 6 = x.loopback ∧ x.flags.getLsbD 7 = x.stripPresent :=
  getLsbD_eight_flags _ _ _ _ _ _ _ _

/-- Every setting in the range R42 gives it, in the terms of the rule. -/
theorem Settings.inRange_iff (x : Settings) : x.inRange = true ↔
    1 ≤ x.divisor.toNat ∧ (1 ≤ x.idleGap.toNat ∧ x.idleGap.toNat ≤ 1000)
      ∧ (1 ≤ x.maxLength.toNat ∧ x.maxLength.toNat ≤ 236) ∧ 100 ≤ x.downTime.toNat
      ∧ (10 ≤ x.upTime.toNat ∧ x.upTime.toNat ≤ 10000) ∧ (1 ≤ x.threshold.toNat ∧ x.threshold.toNat ≤ 16)
      ∧ (1 ≤ x.huntList.length ∧ x.huntList.length ≤ 6) ∧ (∀ d ∈ x.huntList, 1 ≤ d.toNat)
      ∧ (1 ≤ x.huntPattern.length ∧ x.huntPattern.length ≤ 2) ∧ x.lease.toNat ≤ 3600
      ∧ (100 ≤ x.holdTimeout.toNat ∧ x.holdTimeout.toNat ≤ 60000) := by
  have hpos : ∀ d : Half, d ≠ 0 ↔ 1 ≤ d.toNat := by
    intro d
    rw [Ne, ← BitVec.toNat_inj]
    change ¬ d.toNat = 0 ↔ _
    omega
  simp only [Settings.inRange, Bool.and_eq_true, decide_eq_true_eq, List.all_eq_true, hpos, and_assoc]

/-! ## The record read back -/

/-- A field of a list of hunt divisors, read at its place. -/
theorem halfAt_encode_hunt (x : Settings) {i : Nat} (hi : i < 6) : halfAt x.encode (16 + 2 * i) = x.huntList.getD i 0 := by
  interval_cases i <;> exact ofNat_natLE_bytesLE _

theorem huntList_encode (x : Settings) (h : x.huntList.length ≤ 6) :
    ((List.range x.huntList.length).map fun i => halfAt x.encode (16 + 2 * i)) = x.huntList := by
  refine List.ext_getElem (by simp) fun i hi hi' => ?_
  rw [List.getElem_map, List.getElem_range, halfAt_encode_hunt x (by omega), List.getD_eq_getElem _ _ hi']

theorem byteAt_encode_pattern (x : Settings) {i : Nat} (hi : i < 2) : byteAt x.encode (28 + i) = x.huntPattern.getD i 0 := by
  interval_cases i <;> rfl

theorem huntPattern_encode (x : Settings) (h : x.huntPattern.length ≤ 2) :
    ((List.range x.huntPattern.length).map fun i => byteAt x.encode (28 + i)) = x.huntPattern := by
  refine List.ext_getElem (by simp) fun i hi hi' => ?_
  rw [List.getElem_map, List.getElem_range, byteAt_encode_pattern x (by omega), List.getD_eq_getElem _ _ hi']

theorem halves_encode (x : Settings) : halfAt x.encode 1 = x.divisor ∧ halfAt x.encode 6 = x.idleGap ∧ halfAt x.encode 10 = x.downTime
    ∧ halfAt x.encode 12 = x.upTime ∧ halfAt x.encode 30 = x.lease ∧ halfAt x.encode 32 = x.holdTimeout :=
  ⟨ofNat_natLE_bytesLE _, ofNat_natLE_bytesLE _, ofNat_natLE_bytesLE _, ofNat_natLE_bytesLE _, ofNat_natLE_bytesLE _,
    ofNat_natLE_bytesLE _⟩

/-- The settings that a record of settings in range spells are those settings. -/
theorem settingsOf_encode (x : Settings) (h : x.inRange = true) : settingsOf x.encode = some x := by
  obtain ⟨-, -, -, -, -, -, ⟨hhunt1, hhunt6⟩, -, ⟨hpattern1, hpattern2⟩, -, -⟩ := x.inRange_iff.mp h
  have hhunt : (byteAt x.encode 14).toNat = x.huntList.length := toNat_byteOf_of_lt (by omega)
  have hpattern : (byteAt x.encode 15).toNat = x.huntPattern.length := toNat_byteOf_of_lt (by omega)
  have hformat : formatOf (byteAt x.encode 3) = some x.format := formatOf_code x.format
  have hflags : byteAt x.encode 0 = x.flags := rfl
  obtain ⟨hdivisor, hidle, hdown, hup, hlease, hhold⟩ := halves_encode x
  obtain ⟨h0, h1, h2, h3, h4, h5, h6, h7⟩ := getLsbD_flags_settings x
  unfold settingsOf
  dsimp only
  rw [hhunt, hpattern, hformat, hflags, h0, h1, h2, h3, h4, h5, h6, h7, hdivisor, hidle, hdown, hup, hlease, hhold,
    huntList_encode x hhunt6, huntPattern_encode x hpattern2]
  exact (if_pos ⟨hhunt1, hhunt6, hpattern1, hpattern2⟩).trans (if_pos h)

/-- A field of two bytes of a record, read as a number. -/
theorem half_encode_hunt (x : Settings) {i : Nat} (hi : i < 6) :
    natLE ((x.encode.drop (16 + 2 * i)).take 2) = (x.huntList.getD i 0).toNat := by
  interval_cases i <;> exact natLE_bytesLE_toNat 2 rfl _

/-- Settles O47: field by field, each read where it was written. -/
theorem theSettingsRecordIsReadBack : Obligations.TheSettingsRecordIsReadBack := by
  refine ⟨fun x h => ⟨length_encode x, settingsOf_encode x h⟩, fun bs x => settingsOf_inRange, rfl, fun x h => ?fields,
    formatOf_eq_none_iff, Settings.inRange_iff⟩
  case fields =>
    obtain ⟨-, -, -, -, -, -, ⟨-, hhunt6⟩, -, ⟨-, hpattern2⟩, -, -⟩ := x.inRange_iff.mp h
    exact ⟨getLsbD_flags_settings x, code_format x.format, natLE_bytesLE_toNat 2 rfl _, rfl, rfl, natLE_bytesLE_toNat 2 rfl _, rfl, rfl,
      natLE_bytesLE_toNat 2 rfl _, natLE_bytesLE_toNat 2 rfl _, toNat_byteOf_of_lt (by omega), toNat_byteOf_of_lt (by omega),
      fun i => half_encode_hunt x, fun i => byteAt_encode_pattern x, natLE_bytesLE_toNat 2 rfl _, natLE_bytesLE_toNat 2 rfl _⟩

end Sys2Proof.Machine
end

section
/-! Proofs: distances between sequence numbers; SEEK, READ HISTORY and the fill of a port buffer. -/

namespace Sys2Proof.Machine

open Host

variable {s u : State} {p : PortId} {l : LineId}

/-! ## Sequence numbers (R2) -/

theorem toNat_nextSeq (q : Seq) : (nextSeq q).toNat = if q.toNat = 4294967295 then 1 else q.toNat + 1 := by
  have hlt := q.isLt
  have hmax : q = 0xFFFFFFFF#32 ↔ q.toNat = 4294967295 := by
    rw [← BitVec.toNat_inj]
    exact Iff.rfl
  rw [nextSeq]
  by_cases h : q.toNat = 4294967295
  · rw [if_pos (hmax.mpr h), if_pos h]
    rfl
  · rw [if_neg (hmax.not.mpr h), if_neg h, BitVec.toNat_add]
    change (q.toNat + 1) % 2 ^ 32 = _
    omega

theorem toNat_pos_of_ne_zero {q : Seq} (h : q ≠ 0) : 0 < q.toNat :=
  Nat.pos_of_ne_zero fun e => h (BitVec.eq_of_toNat_eq e)

/-- The numbers given after one that is not 0 run through all but 0, around and around. -/
theorem toNat_iterate_nextSeq {q : Seq} (h : q ≠ 0) (k : Nat) : (nextSeq^[k] q).toNat = (q.toNat - 1 + k) % 4294967295 + 1 := by
  have hpos := toNat_pos_of_ne_zero h
  have hlt := q.isLt
  induction k with
  | zero => rw [Function.iterate_zero_apply]; omega
  | succ k ih =>
    rw [Function.iterate_succ_apply', toNat_nextSeq, ih]
    split_ifs <;> omega

theorem seqDist_eq (a b : Seq) : seqDist a b = if a.toNat ≤ b.toNat then b.toNat - a.toNat else 4294967295 - a.toNat + b.toNat := rfl

theorem seqDist_self (a : Seq) : seqDist a a = 0 := by rw [seqDist_eq, if_pos le_rfl, Nat.sub_self]

theorem seqDist_lt {a b : Seq} (ha : a ≠ 0) (hb : b ≠ 0) : seqDist a b < 4294967295 := by
  have hapos := toNat_pos_of_ne_zero ha
  have hbpos := toNat_pos_of_ne_zero hb
  have halt := a.isLt
  have hblt := b.isLt
  rw [seqDist_eq]
  split_ifs <;> omega

/-- The distance leads from one number to the other. -/
theorem iterate_seqDist {a b : Seq} (ha : a ≠ 0) (hb : b ≠ 0) : nextSeq^[seqDist a b] a = b := by
  have hapos := toNat_pos_of_ne_zero ha
  have hbpos := toNat_pos_of_ne_zero hb
  have halt := a.isLt
  have hblt := b.isLt
  refine BitVec.eq_of_toNat_eq ?_
  rw [toNat_iterate_nextSeq ha, seqDist_eq]
  split_ifs <;> omega

theorem seqDist_iterate {a : Seq} (ha : a ≠ 0) {k : Nat} (hk : k < 4294967295) : seqDist a (nextSeq^[k] a) = k := by
  have hapos := toNat_pos_of_ne_zero ha
  have halt := a.isLt
  rw [seqDist_eq, toNat_iterate_nextSeq ha]
  split_ifs <;> omega

theorem seqRun_take (q : Seq) (n : Nat) : ∀ k, k ≤ n → (seqRun q n).take k = seqRun q k := by
  induction n generalizing q with
  | zero => exact fun k hk => by rw [Nat.le_zero.mp hk]; rfl
  | succ n ih =>
    intro k hk
    cases k with
    | zero => rfl
    | succ k => exact congrArg (q :: ·) (ih (nextSeq q) k (by omega))

theorem seqRun_append {q : Seq} {n : Nat} {xs ys : List Seq} (h : xs ++ ys = seqRun q n) : xs = seqRun q xs.length := by
  have hlength := congrArg List.length h
  rw [List.length_append, seqRun_length] at hlength
  rw [← seqRun_take q n xs.length (by omega), ← h, List.take_left]

/-- The numbers of the closed records of a log of consecutive numbers (R1). -/
theorem Line.consecutive.closed {x : Line} (h : x.consecutive) : x.closed.map (·.seq) = seqRun x.cap.oldest x.closed.length := by
  obtain ⟨-, -, hrun, -⟩ := h
  have hclosed := seqRun_append hrun
  rwa [List.length_map] at hclosed

/-- The closed records from a number on carry the numbers from it on (R119, R121). -/
theorem Line.consecutive.range {x : Line} (h : x.consecutive) {start : Seq} (hstart : start ≠ 0) (k : Nat) :
    let range := (x.closed.take k).drop (seqDist x.cap.oldest start)
    range.map (·.seq) = seqRun start range.length := by
  obtain ⟨holdest, -, -, -⟩ := id h
  dsimp only
  by_cases hle : seqDist x.cap.oldest start ≤ (x.closed.take k).length
  · have htake : (x.closed.take k).map (·.seq) = seqRun x.cap.oldest (x.closed.take k).length := by
      rw [List.map_take, h.closed, List.length_take]
      rcases Nat.le_total k x.closed.length with hk | hk
      · rw [seqRun_take _ _ _ hk, Nat.min_eq_left hk]
      · rw [List.take_of_length_le (by rw [seqRun_length]; exact hk), Nat.min_eq_right hk]
    rw [List.map_drop, htake, seqRun_drop _ _ _ hle, iterate_seqDist holdest hstart, List.length_drop]
  · rw [List.drop_of_length_le (by omega)]
    rfl

/-! ## SEEK (R129) -/

theorem Port.SameBlock.taken {x y : Port} (h : x.SameBlock y) (dataIn : Bool) (r : Results) :
    (x.taken dataIn r).SameBlock (y.taken dataIn r) := by
  rw [Port.SameBlock] at h ⊢
  rw [h]
  rfl

theorem answered_answer (h : (s.port p).SameBlock (u.port p)) (r : Results) : Answered s (u.answer p false r) p r := by
  rw [Answered, State.port_answer_self]
  exact h.taken false r

theorem lines_levelData (s : State) (p : PortId) : (levelData l s p).lines = s.lines := by
  unfold levelData
  split
  · rfl
  · split
    · split <;> rfl
    · rfl
    · rfl

theorem lines_seekData (s : State) (p : PortId) : (seekData s l p).lines = s.lines := by
  unfold seekData
  split
  · rfl
  · split
    · exact lines_levelData s p
    · split <;> rfl
    · rfl

theorem line_seekData (s : State) (p : PortId) (k : LineId) : (seekData s l p).line k = s.line k := by
  rw [State.line, lines_seekData]
  rfl

theorem sameBlock_levelData (s : State) (p q : PortId) : (s.port q).SameBlock ((levelData l s p).port q) :=
  (levelData_sound s p).calm.toOnLine.sameBlock q

theorem levelData_beginCommand (s : State) (p : PortId) (dataIn : Bool) :
    levelData l (beginCommand s p dataIn) p = beginCommand (levelData l s p) p dataIn := by
  cases ha : (s.line l).attachment p with
  | none => rw [levelData_of_none ha, levelData_of_none (by rw [beginCommand_line]; exact ha)]
  | some a =>
    rw [levelData, levelData, beginCommand_line, ha]
    dsimp only
    cases a.mode with
    | level k =>
      dsimp only
      split_ifs
      · exact post_beginCommand s p dataIn .data l 0
      · exact unpost_beginCommand s p dataIn .data l
    | first b => rfl
    | none => rfl

theorem seekData_beginCommand (s : State) (p : PortId) (dataIn : Bool) :
    seekData (beginCommand s p dataIn) l p = beginCommand (seekData s l p) p dataIn := by
  rw [seekData, seekData, beginCommand_line]
  cases ha : (s.line l).attachment p with
  | none => rfl
  | some a =>
    dsimp only
    cases a.mode with
    | level k => exact levelData_beginCommand s p dataIn
    | first b =>
      dsimp only
      split_ifs
      · exact unpost_beginCommand s p dataIn .data l
      · rfl
    | none => rfl

theorem clearOvertaken_beginCommand (s : State) (p : PortId) (dataIn : Bool) :
    clearOvertaken (beginCommand s p dataIn) l p = beginCommand (clearOvertaken s l p) p dataIn := by
  rw [clearOvertaken, modAttachment_beginCommand, unpost_beginCommand]
  rfl

/-- The cursor of a port's attachment set, and its mark cleared. -/
def seekTo (s : State) (l : LineId) (p : PortId) (cursor : Seq) : State :=
  seekData (clearOvertaken (s.modAttachment l p fun a => { a with cursor := cursor }) l p) l p

theorem seekTo_sound (s : State) (p : PortId) (cursor : Seq) : Sound l s (seekTo s l p cursor) := seek_sound s p cursor

theorem exec_seek_notAttached (hcall : s.calls p l) (ha : (s.line l).attachment p = none) :
    exec (.seek p) s = .next (s.answer p false { code := .notAttached }) := by
  change execSeek p s = _
  rw [execSeek, lineCommand_of_calls hcall false, beginCommand_line, ha]
  exact congrArg Outcome.next (failCheck_beginCommand s p false _)

theorem exec_seek_attached {a : Attachment} (hcall : s.calls p l) (ha : (s.line l).attachment p = some a) :
    exec (.seek p) s = .next
      (if 2 < (s.port p).option.toNat ∨ ((s.port p).option.toNat = 2 ∧ (s.port p).position = 0)
        then s.answer p false { code := .badArgument }
        else (seekTo s l p (seekCursor (s.line l) (s.port p).option.toNat (s.port p).position)).answer p false
          { position := some (seekCursor (s.line l) (s.port p).option.toNat (s.port p).position)
            value := some (s.line l).cap.oldest }) := by
  change execSeek p s = _
  rw [execSeek, lineCommand_of_calls hcall false, beginCommand_line, ha, port_beginCommand_self]
  refine congrArg Outcome.next ?_
  dsimp only
  rw [failCheck_beginCommand, modAttachment_beginCommand, clearOvertaken_beginCommand, seekData_beginCommand, prepare_beginCommand]
  rfl

theorem attachment_seekTo {a : Attachment} (ha : (s.line l).attachment p = some a) (cursor : Seq) :
    ((seekTo s l p cursor).line l).attachment p = some { a with cursor := cursor, overtaken := false } := by
  rw [seekTo, line_seekData]
  exact attachment_clearOvertaken (State.attachment_modAttachment_self (fun x => { x with cursor := cursor }) (fun _ => rfl) ha)

/-- What SEEK leaves of its line: all but the attachments. -/
theorem line_seekTo (s : State) (l : LineId) (p : PortId) (cursor : Seq) :
    (seekTo s l p cursor).line l = { s.line l with att := ((seekTo s l p cursor).line l).att } := by
  rw [seekTo, line_seekData, clearOvertaken, State.line_unpost]
  simp only [State.modAttachment_eq, State.modAtt_eq, State.line_modLine_self]

theorem mem_causes_seekData (k : CauseKind) (hk : k ≠ .data) (h : ∀ c ∈ (s.port p).causes, ¬ (c.kind = k ∧ c.line = l)) :
    ∀ c ∈ ((seekData s l p).port p).causes, ¬ (c.kind = k ∧ c.line = l) := by
  have hunpost : ∀ c ∈ ((s.unpost p .data l).port p).causes, ¬ (c.kind = k ∧ c.line = l) := fun c hc =>
    h c (State.mem_causes_unpost.mp hc).1
  have hpost : ∀ c ∈ ((s.post p .data l 0).port p).causes, ¬ (c.kind = k ∧ c.line = l) := by
    intro c hc hkind
    rw [State.post_eq, State.port_modPort_self] at hc
    rcases mem_postCause hc with rfl | hmem
    · exact hk hkind.1.symm
    · exact h c hmem hkind
  unfold seekData
  split
  · exact h
  · split
    · unfold levelData
      split
      · exact h
      · split
        · split
          · exact hpost
          · exact hunpost
        · exact h
        · exact h
    · split
      · exact hunpost
      · exact h
    · exact h

theorem Line.inLog_iff (x : Line) (q : Seq) : x.inLog q = true ↔ seqDist x.cap.oldest q ≤ seqDist x.cap.oldest x.cap.next :=
  decide_eq_true_iff

theorem placeInLog_of_within {x : Line} {q : Seq} (h : seqDist x.cap.oldest q ≤ seqDist x.cap.oldest x.cap.next) :
    placeInLog x q = .within := if_pos ((x.inLog_iff q).mpr h)

theorem placeInLog_of_outside {x : Line} {q : Seq} (h : seqDist x.cap.oldest x.cap.next < seqDist x.cap.oldest q) :
    placeInLog x q = if seqBelow q x.cap.oldest then .below else .above :=
  if_neg (mt (x.inLog_iff q).mp (Nat.not_le.mpr h))

/-- Settles O19: the checks answer alone, and a SEEK that passes is its cursor set, its mark cleared and DATA worked out. -/
theorem seekSetsTheCursor : Obligations.SeekSetsTheCursor := by
  refine ⟨fun s p l hcall => ⟨exec_seek_notAttached hcall, fun ha hbad => ?bad⟩, fun s p l a hcall ha hoption hposition => ?passes⟩
  case bad =>
    obtain ⟨a, ha⟩ := Option.ne_none_iff_exists'.mp ha
    rw [exec_seek_attached hcall ha, if_pos (hbad.imp_right fun h => ⟨by rw [h.1]; rfl, h.2⟩)]
  case passes =>
    have hgood : ¬ (2 < (s.port p).option.toNat ∨ ((s.port p).option.toNat = 2 ∧ (s.port p).position = 0)) := by
      rintro (h | ⟨h, hzero⟩)
      · omega
      · exact hposition (BitVec.eq_of_toNat_eq h) hzero
    have hattached := attachment_seekTo ha (seekCursor (s.line l) (s.port p).option.toNat (s.port p).position)
    have hline := line_seekTo s l p (seekCursor (s.line l) (s.port p).option.toNat (s.port p).position)
    have hexec := exec_seek_attached hcall ha
    rw [if_neg hgood] at hexec
    refine ⟨(seekTo s l p (seekCursor (s.line l) (s.port p).option.toNat (s.port p).position)).answer p false _,
      seekCursor (s.line l) (s.port p).option.toNat (s.port p).position, hexec, fun h => by rw [h]; rfl, fun h => by rw [h]; rfl, fun h hin => ?_, fun h hout => ?_, hattached,
      answered_answer ((seekTo_sound s p _).calm.toOnLine.sameBlock p) _, ?overtaken, fun k hmode => ?level, ?_, ?_, ?_, ?_, ?_, ?_⟩
    · rw [h, show (2 : Byte).toNat = 2 from rfl, seekCursor, if_neg (by decide), if_neg (by decide), placeInLog_of_within hin]
    · rw [h, show (2 : Byte).toNat = 2 from rfl, seekCursor, if_neg (by decide), if_neg (by decide), placeInLog_of_outside hout]
      split_ifs <;> rfl
    case overtaken =>
      rw [State.port_answer_self]
      refine mem_causes_seekData .overtaken nofun fun c hc hkind => ?_
      obtain ⟨-, h⟩ := State.mem_causes_unpost.mp hc
      exact h.elim (· hkind.1) (· hkind.2)
    case level =>
      have hcleared := attachment_clearOvertaken (State.attachment_modAttachment_self
        (fun x => { x with cursor := seekCursor (s.line l) (s.port p).option.toNat (s.port p).position }) (fun _ => rfl) ha)
      have hdata := hasCause_levelData hcleared hmode
      rw [State.port_answer_self, ← Port.hasCause_iff]
      change Port.hasCause (((seekTo s l p _).port p).taken false _) .data l = true ↔ k.toNat ≤ ((seekTo s l p _).line l).unread _
      rw [seekTo, line_seekData, seekData, hcleared]
      dsimp only
      rw [hmode]
      exact hdata
    · exact (congrArg Line.cap hline :)
    · exact (congrArg Line.pool hline :)
    · exact (congrArg Line.tx hline :)
    · exact (congrArg Line.io hline :)
    · exact (congrArg Line.cond hline :)
    · exact (congrArg Line.hold hline :)

end Sys2Proof.Machine
end

section
/-! Proofs: READ HISTORY taken, the fills of a port buffer, and DATA READ within a buffer. -/

namespace Sys2Proof.Machine

open Host

variable {s t u : State} {p : PortId} {l : LineId}

/-! ## READ HISTORY taken (R125) -/

theorem exec_readHistory_zero (hcall : s.calls p l) (hzero : (s.port p).position = 0) :
    exec (.readHistory p) s = .next (s.answer p true { code := .badArgument }) := by
  change execReadHistory p s = _
  rw [execReadHistory, lineCommand_of_calls hcall true, port_beginCommand_self]
  exact congrArg Outcome.next ((if_pos hzero).trans (failCheck_beginCommand s p true _))

/-- READ HISTORY of a start other than 0, by the place of the start. -/
theorem exec_readHistory_placed (hcall : s.calls p l) (hstart : (s.port p).position ≠ 0) :
    exec (.readHistory p) s = .next (match placeInLog (s.line l) (s.port p).position with
      | .below => s.answer p true { code := .overtaken, position := some (s.line l).cap.oldest }
      | .above => completeCommand (beginCommand s p true) p { count := some 0, position := some (s.port p).position }
      | .within =>
        if (s.port p).position = (s.line l).cap.next then
          completeCommand (beginCommand s p true) p { count := some 0, position := some (s.port p).position }
        else
          let t := if openInRange (s.line l) (s.port p).position (s.port p).count.toNat then flushOpen (beginCommand s p true) l
            else beginCommand s p true
          beginFill (settle t l) p
            (.readHistory l (s.port p).position (t.line l).cap.next (s.port p).count.toNat 0)) := by
  change execReadHistory p s = _
  rw [execReadHistory, lineCommand_of_calls hcall true, port_beginCommand_self, beginCommand_line]
  have hposition : ((s.port p).begun true).position = (s.port p).position := rfl
  refine congrArg Outcome.next ((if_neg hstart).trans ?_)
  rw [hposition]
  cases placeInLog (s.line l) (s.port p).position with
  | below => exact prepare_beginCommand s p true _
  | above => rfl
  | within => rfl

/-- A command that completes as it is taken, with these results. -/
theorem port_complete_beginCommand (s : State) (p : PortId) (dataIn : Bool) (r : Results) :
    (completeCommand (beginCommand s p dataIn) p r).port p = ((s.port p).begun dataIn).complete r := by
  rw [port_completeCommand_self, port_beginCommand_self]

/-- Settles O22: the place of the start decides. -/
theorem readHistoryPlacesItsStart : Obligations.ReadHistoryPlacesItsStart := by
  intro s p l hcall
  have hcompleted : ∃ t, Outcome.next (completeCommand (beginCommand s p true) p
      { count := some 0, position := some (s.port p).position }) = (Outcome.next t : Outcome State Fault Refusal)
      ∧ t.lines = s.lines ∧ (t.port p).idle = true ∧ (t.port p).error = .none ∧ (t.port p).count = 0
      ∧ (t.port p).position = (s.port p).position ∧ (t.port p).value = (s.port p).value ∧ (t.port p).causes = (s.port p).causes := by
    refine ⟨_, rfl, rfl, ?_, ?_, ?_, ?_, ?_, ?_⟩ <;> rw [port_complete_beginCommand] <;> rfl
  refine ⟨exec_readHistory_zero hcall, fun hstart hout hbelow => ?below, fun hstart hend => ?completes, fun hstart hnext hin hmarks hopen => ?fills⟩
  case below => rw [exec_readHistory_placed hcall hstart, placeInLog_of_outside hout, if_pos hbelow]
  case completes =>
    rcases hend with hnext | ⟨hout, habove⟩
    · rw [exec_readHistory_placed hcall hstart, placeInLog_of_within (by rw [hnext])]
      dsimp only
      rw [if_pos hnext]
      exact hcompleted
    · rw [exec_readHistory_placed hcall hstart, placeInLog_of_outside hout, if_neg (by rw [habove]; decide)]
      exact hcompleted
  case fills =>
    have hunflushed : ¬ openInRange (s.line l) (s.port p).position (s.port p).count.toNat = true := by
      rw [openInRange, hopen]
      exact Bool.false_ne_true
    have hexec := exec_readHistory_placed hcall hstart
    rw [placeInLog_of_within hin] at hexec
    dsimp only at hexec
    rw [if_neg hnext, if_neg hunflushed, settle_of_unmarked (s := beginCommand s p true) (hmarks l), beginCommand_line] at hexec
    refine ⟨_, hexec, rfl, ?_, ?_⟩ <;> rw [beginFill, State.port_modPort_self]
    rw [port_beginCommand_self]
    rfl

/-! ## Fills (R118, R121, R126) -/

theorem length_bytes (r : LogRecord) : r.bytes.length = 12 + r.body.length := by
  simp only [LogRecord.bytes, headerBytes, List.length_append, length_bytesLE, List.length_cons, List.length_nil]

theorem bytes_ne_nil (r : LogRecord) : r.bytes ≠ [] := List.ne_nil_of_length_pos (by rw [length_bytes]; omega)

theorem fillRecords_nil (f : Fill) : fillRecords [] f = f := rfl

theorem fillRecords_cons (r : LogRecord) (rs : List LogRecord) (f : Fill) : fillRecords (r :: rs) f
    = if f.bytes.length + (12 + r.body.length) ≤ 512 then fillRecords rs (f.add r.bytes (nextSeq r.seq) none) else f := rfl

theorem length_bytes_add (r : LogRecord) (next : Seq) (gap : Option Nat) (f : Fill) :
    (f.add r.bytes next gap).bytes.length = f.bytes.length + (12 + r.body.length) :=
  (List.length_append ..).trans (by rw [length_bytes])

/-- What a fill has done to a buffer: it has placed these records, and left the others. -/
structure Filled (f g : Fill) (placed rest : List LogRecord) : Prop where
  bytes : g.bytes = f.bytes ++ placed.flatMap LogRecord.bytes
  fits : g.bytes.length ≤ 512
  full : ∀ r rs, rest = r :: rs → 512 < g.bytes.length + (12 + r.body.length)
  next : g.items.map Item.next = f.items.map Item.next ++ (placed.map fun r => nextSeq r.seq)
  gap : g.items.map Item.gap = f.items.map Item.gap ++ List.replicate placed.length none
  stop : g.items.map Item.stop = f.items.map Item.stop
    ++ (List.range placed.length).map fun k => f.bytes.length + ((placed.take (k + 1)).map fun r => 12 + r.body.length).sum

theorem Filled.stopped {f : Fill} (hfits : f.bytes.length ≤ 512) {rest : List LogRecord}
    (hfull : ∀ r rs, rest = r :: rs → 512 < f.bytes.length + (12 + r.body.length)) : Filled f f [] rest where
  bytes := (List.append_nil _).symm
  fits := hfits
  full := hfull
  next := (List.append_nil _).symm
  gap := (List.append_nil _).symm
  stop := (List.append_nil _).symm

theorem Filled.cons {f g : Fill} {r : LogRecord} {placed rest : List LogRecord}
    (h : Filled (f.add r.bytes (nextSeq r.seq) none) g placed rest) : Filled f g (r :: placed) rest where
  bytes := by rw [h.bytes, List.flatMap_cons, ← List.append_assoc]; rfl
  fits := h.fits
  full := h.full
  next := by rw [h.next]; simp [Fill.add]
  gap := by rw [h.gap]; simp [Fill.add, List.replicate_succ]
  stop := by
    rw [h.stop, length_bytes_add, List.length_cons, List.range_succ_eq_map, List.map_cons, List.map_map]
    simp [Fill.add, length_bytes, Function.comp_def, Nat.add_assoc]

/-- A fill places a beginning of its records. -/
theorem fillRecords_filled (records : List LogRecord) : ∀ f : Fill, f.bytes.length ≤ 512 →
    ∃ placed rest, records = placed ++ rest ∧ Filled f (fillRecords records f) placed rest := by
  induction records with
  | nil => exact fun f hf => ⟨[], [], rfl, .stopped hf nofun⟩
  | cons r rs ih =>
    intro f hf
    rw [fillRecords_cons]
    split_ifs with hfits
    · obtain ⟨placed, rest, hsplit, hfilled⟩ := ih (f.add r.bytes (nextSeq r.seq) none) (by rw [length_bytes_add]; exact hfits)
      exact ⟨r :: placed, rest, congrArg (r :: ·) hsplit, hfilled.cons⟩
    · refine ⟨[], r :: rs, rfl, .stopped hf fun r' rs' h => ?_⟩
      obtain ⟨rfl, -⟩ := List.cons.inj h
      omega

/-- Settles O23: the fill by its records in turn, the delivered forms byte by byte. -/
theorem aFillPlacesWholeRecords : Obligations.AFillPlacesWholeRecords := by
  refine ⟨fun records f hf hbodies => ?fill, fun r hr => ?record, ⟨rfl, rfl, rfl⟩, fun q time n hn => ?gap⟩
  case fill =>
    obtain ⟨placed, rest, hsplit, h⟩ := fillRecords_filled records f hf
    refine ⟨placed, rest, hsplit, h.bytes, h.fits, h.full, fun hroom hne hnone => ?_, h.next, h.gap, h.stop⟩
    subst hnone
    obtain ⟨r, rs, rfl⟩ := List.exists_cons_of_ne_nil hne
    have hfull := h.full r rs hsplit.symm
    have hbytes := h.bytes
    rw [List.flatMap_nil, List.append_nil] at hbytes
    have hbody := hbodies r List.mem_cons_self
    rw [hbytes] at hfull
    omega
  case record =>
    exact ⟨length_bytes r, natLE_bytesLE_toNat 4 rfl _, natLE_bytesLE_toNat 4 rfl _, rfl, rfl, toNat_byteOf_of_lt hr, rfl, rfl⟩
  case gap =>
    exact ⟨rfl, natLE_bytesLE_toNat 4 rfl _, natLE_bytesLE_toNat 4 rfl _, rfl, (natLE_bytesLE 4 n).trans (Nat.mod_eq_of_lt hn)⟩

/-! ## FILL END (R121, R123, R126, R176) -/

theorem closedBelow_eq (x : Line) (stop : Seq) : x.closedBelow stop
    = if seqDist x.cap.oldest stop ≤ seqDist x.cap.oldest x.cap.next then x.closed.take (seqDist x.cap.oldest stop) else [] := by
  simp only [Line.closedBelow, x.inLog_iff]

theorem recordsFor_eq (x : Line) (start stop : Seq) (m d : Nat) : recordsFor x start stop m d
    = if m = 0 then (x.closedBelow stop).drop (seqDist x.cap.oldest start)
      else ((x.closedBelow stop).drop (seqDist x.cap.oldest start)).take (m - d) := rfl

/-- The closed records from a number up to an end carry the numbers from it on. -/
theorem Line.consecutive.closedBelow {x : Line} (h : x.consecutive) {start : Seq} (hstart : start ≠ 0) (stop : Seq) :
    let range := (x.closedBelow stop).drop (seqDist x.cap.oldest start)
    range.map (·.seq) = seqRun start range.length := by
  rw [closedBelow_eq]
  split_ifs
  · exact h.range hstart _
  · simp [seqRun]

theorem exec_fillEnd_readNew {stop : Seq} {m d g : Nat} {a : Attachment}
    (hphase : (s.port p).phase = .filling (.readNew l stop m d g)) (ha : (s.line l).attachment p = some a) :
    exec (.fillEnd p) s = .next (if (readNewFill (s.line l) s.timebase a stop m d).bytes = []
      then completeCommand s p (readNewResults a.cursor d g)
      else deliver s p (.readNew l stop m d g) (readNewFill (s.line l) s.timebase a stop m d)) := by
  change execFillEnd p s = _
  rw [execFillEnd, hphase]
  dsimp only
  rw [ha]

theorem exec_fillEnd_readHistory {q stop : Seq} {n d : Nat} (hphase : (s.port p).phase = .filling (.readHistory l q stop n d)) :
    exec (.fillEnd p) s = .next (if seqDist (s.line l).cap.oldest q ≤ seqDist (s.line l).cap.oldest (s.line l).cap.next then
        if (fillRecords (recordsFor (s.line l) q stop n d) { bytes := [], items := [] }).bytes = [] then
          completeCommand s p { position := some q, count := some (countHalf d), value := some (s.line l).cap.oldest }
        else deliver s p (.readHistory l q stop n d) (fillRecords (recordsFor (s.line l) q stop n d) { bytes := [], items := [] })
      else completeCommand s p
        { code := .overtaken, position := some q, count := some (historyRest q stop n d), value := some (s.line l).cap.oldest }) := by
  change execFillEnd p s = _
  rw [execFillEnd, hphase]
  dsimp only
  by_cases h : seqDist (s.line l).cap.oldest q ≤ seqDist (s.line l).cap.oldest (s.line l).cap.next
  · rw [if_pos h, ((s.line l).inLog_iff q).mpr h]
    rfl
  · rw [if_neg h, Bool.eq_false_iff.mpr (mt ((s.line l).inLog_iff q).mp h)]
    rfl

theorem readNewFill_eq (x : Line) (time : Word) (a : Attachment) (stop : Seq) (m d : Nat) : readNewFill x time a stop m d
    = fillRecords (recordsFor x (if a.overtaken then x.cap.oldest else a.cursor) stop m d)
      (if a.overtaken then
        { bytes := gapBytes a.cursor time (seqDist a.cursor x.cap.oldest)
          items := [{ stop := 16, next := x.cap.oldest, gap := some (seqDist a.cursor x.cap.oldest) }] }
      else { bytes := [], items := [] }) := by
  unfold readNewFill
  split_ifs <;> rfl

/-- Settles O24: the fill is that of the records from the place up to the end, and what it placed decides. -/
theorem fillEndLoadsTheBuffer : Obligations.FillEndLoadsTheBuffer := by
  refine ⟨fun s p l stop m d g a hphase ha => ?readNew, fun s p l q stop n d hphase => ?readHistory⟩
  case readNew =>
    have hexec := exec_fillEnd_readNew hphase ha
    dsimp only
    rw [← closedBelow_eq]
    by_cases hempty : (readNewFill (s.line l) s.timebase a stop m d).bytes = []
    · rw [if_pos hempty] at hexec
      refine ⟨_, _, hexec, rfl, ?_, fun hrun hstart => hrun.closedBelow hstart stop, readNewFill_eq _ _ _ _ _ _, fun h => absurd hempty h,
        fun _ => ?_⟩
      · rw [port_completeCommand_self]
        rfl
      · rw [port_completeCommand_self]
        exact ⟨rfl, rfl, rfl, rfl, rfl⟩
    · rw [if_neg hempty] at hexec
      refine ⟨_, _, hexec, rfl, ?_, fun hrun hstart => hrun.closedBelow hstart stop, readNewFill_eq _ _ _ _ _ _, fun _ => ?_,
        fun h => absurd h hempty⟩
      · rw [deliver, State.port_modPort_self]
      · rw [deliver, State.port_modPort_self]
        exact ⟨rfl, rfl, rfl, rfl⟩
  case readHistory =>
    have hexec := exec_fillEnd_readHistory hphase
    dsimp only
    rw [← closedBelow_eq]
    by_cases hstands : seqDist (s.line l).cap.oldest q ≤ seqDist (s.line l).cap.oldest (s.line l).cap.next
    · rw [if_pos hstands] at hexec
      by_cases hempty : (fillRecords (recordsFor (s.line l) q stop n d) { bytes := [], items := [] }).bytes = []
      · rw [if_pos hempty] at hexec
        refine ⟨_, _, hexec, rfl, ?_, fun hrun hstart => hrun.closedBelow hstart stop, rfl, fun h => absurd hstands h,
          fun _ h => absurd hempty h, fun _ _ => ?_⟩
        · rw [port_completeCommand_self]
          rfl
        · rw [port_completeCommand_self]
          exact ⟨rfl, rfl, rfl, rfl, rfl⟩
      · rw [if_neg hempty] at hexec
        refine ⟨_, _, hexec, rfl, ?_, fun hrun hstart => hrun.closedBelow hstart stop, rfl, fun h => absurd hstands h, fun _ _ => ?_,
          fun _ h => absurd h hempty⟩
        · rw [deliver, State.port_modPort_self]
        · rw [deliver, State.port_modPort_self]
          exact ⟨rfl, rfl, rfl, rfl⟩
    · rw [if_neg hstands] at hexec
      refine ⟨_, _, hexec, rfl, ?_, fun hrun hstart => hrun.closedBelow hstart stop, rfl, fun _ => ?_, fun h => absurd h hstands,
        fun h => absurd h hstands⟩
      · rw [port_completeCommand_self]
        rfl
      · rw [port_completeCommand_self]
        exact ⟨rfl, rfl, rfl, rfl, rfl⟩

end Sys2Proof.Machine
end

section
/-! Proofs: DATA READ within a buffer; SEND taken and its data written. -/

namespace Sys2Proof.Machine

open Host

variable {s t u : State} {p : PortId} {l : LineId}

/-! ## DATA READ (R122, R127, R173, R176) -/

/-- A port in a data-in phase that has handed out a byte. -/
def Port.readOne (x : Port) : Port :=
  { x with shiftedOut := x.dataByte, readPoint := x.readPoint + 1, pointer := 16 }

theorem exec_dataRead_outside (hreset : (s.port p).resetAsserted = false) (hphase : ∀ c items, (s.port p).phase ≠ .reading c items) :
    exec (.dataRead p) s = .next (s.modPort p fun x => { x with shiftedOut := 0, pointer := 16 }) := by
  change execDataRead p s = _
  rw [execDataRead, hreset, if_neg Bool.false_ne_true]
  cases h : (s.port p).phase with
  | reading c items => exact absurd h (hphase c items)
  | idle => rfl
  | completing r => rfl
  | filling c => rfl
  | writing c => rfl
  | waiting l => rfl

theorem exec_dataRead_reading {c : DataIn} {items : List Item} (hreset : (s.port p).resetAsserted = false)
    (hphase : (s.port p).phase = .reading c items) :
    exec (.dataRead p) s = .next (if (s.port p).readPoint + 1 = (s.port p).transferLength
      then endDelivery (passItems (s.modPort p Port.readOne) p) p else passItems (s.modPort p Port.readOne) p) := by
  change execDataRead p s = _
  rw [execDataRead, hreset, if_neg Bool.false_ne_true, hphase]
  rfl

theorem Port.SameBlock.shiftedOut {x y : Port} (h : x.SameBlock y) : y.shiftedOut = x.shiftedOut := by rw [h]

theorem shiftedOut_passItem (s : State) (p : PortId) (item : Item) (rest : List Item) (c : DataIn) :
    ((passItem s p item rest c).port p).shiftedOut = (s.port p).shiftedOut := by
  unfold passItem
  split
  · rename_i l stop maximum delivered missing
    rw [State.port_modPort_self]
    exact ((moveCursor_sound (l := l) s p item.next).calm.toOnLine.sameBlock p).shiftedOut
  all_goals rw [State.port_modPort_self]

theorem shiftedOut_passItems (s : State) (p : PortId) : ((passItems s p).port p).shiftedOut = (s.port p).shiftedOut := by
  unfold passItems
  split
  · split
    · exact shiftedOut_passItem s p _ _ _
    · rfl
  all_goals rfl

theorem shiftedOut_endDelivery (s : State) (p : PortId) : ((endDelivery s p).port p).shiftedOut = (s.port p).shiftedOut := by
  have hcleared : ((s.modPort p fun x => { x with buffer := [], transferLength := 0, readPoint := 0 }).port p).shiftedOut
      = (s.port p).shiftedOut := by rw [State.port_modPort_self]
  have hcomplete : ∀ (v : State) (r : Results), ((completeCommand v p r).port p).shiftedOut = (v.port p).shiftedOut := fun v r => by
    rw [port_completeCommand_self]
    rfl
  have hfill : ∀ (v : State) (c : DataIn), ((beginFill v p c).port p).shiftedOut = (v.port p).shiftedOut := fun v c => by
    rw [beginFill, State.port_modPort_self]
  unfold endDelivery
  dsimp only
  split
  · rename_i l stop maximum delivered missing items hphase
    have htested := ((testOvertaken_sound (l := l)
      (s.modPort p fun x => { x with buffer := [], transferLength := 0, readPoint := 0 }) p).calm.toOnLine.sameBlock p).shiftedOut
    split
    · rw [hcomplete, htested, hcleared]
    · split
      · rw [hfill, htested, hcleared]
      · rw [hcomplete, htested, hcleared]
  · split
    · rw [hfill, hcleared]
    · rw [hcomplete, hcleared]
  · rw [hcomplete, hcleared]
  all_goals exact hcleared

theorem passItems_of_passed {c : DataIn} {i : Item} {rest : List Item} (hphase : (s.port p).phase = .reading c (i :: rest))
    (hstop : (s.port p).readPoint = i.stop) : passItems s p = passItem s p i rest c := by
  rw [passItems, hphase]
  exact if_pos hstop

theorem passItems_of_within {c : DataIn} {items : List Item} (hphase : (s.port p).phase = .reading c items)
    (hstop : ∀ i is, items = i :: is → i.stop ≠ (s.port p).readPoint) : passItems s p = s := by
  rw [passItems, hphase]
  cases items with
  | nil => rfl
  | cons i is => exact if_neg fun h => hstop i is rfl h.symm

theorem port_readOne (s : State) (p : PortId) : (s.modPort p Port.readOne).port p = (s.port p).readOne := State.port_modPort_self s p _

theorem attachment_moveCursor {a : Attachment} (ha : (s.line l).attachment p = some a) (cursor : Seq) :
    ((moveCursor s l p cursor).line l).attachment p = some { a with cursor := cursor } := by
  rw [moveCursor, State.line, lines_levelData]
  exact State.attachment_modAttachment_self (fun x => { x with cursor := cursor }) (fun _ => rfl) ha

theorem line_moveCursor (s : State) (l : LineId) (p : PortId) (cursor : Seq) :
    (moveCursor s l p cursor).line l = { s.line l with att := ((moveCursor s l p cursor).line l).att } := by
  have hline : (moveCursor s l p cursor).line l = (s.modAttachment l p fun a => { a with cursor := cursor }).line l := by
    rw [moveCursor, State.line, lines_levelData]
    rfl
  rw [hline]
  simp only [State.modAttachment_eq, State.modAtt_eq, State.line_modLine_self]

theorem data_moveCursor {a : Attachment} {k : Byte} (ha : (s.line l).attachment p = some a) (hmode : a.mode = .level k) (cursor : Seq) :
    ((moveCursor s l p cursor).port p).hasCause .data l = true
      ↔ k.toNat ≤ ((moveCursor s l p cursor).line l).unread { a with cursor := cursor } := by
  have hmoved := State.attachment_modAttachment_self (fun x => { x with cursor := cursor }) (fun _ => rfl) ha
  rw [moveCursor, State.line, lines_levelData]
  exact hasCause_levelData hmoved hmode

/-- Settles O25: the byte is the one at the read point, and a record passed moves the place of its read. -/
theorem dataReadHandsOutTheByte : Obligations.DataReadHandsOutTheByte := by
  refine ⟨fun s p hreset => ⟨fun hout => ?outside, fun c items hphase => ⟨?byte, fun hlast hstop => ?within⟩⟩,
    fun s p i rest hreset hstop hmore => ⟨fun l stop m d g a hphase ha => ?readNew, fun l q stop n d hphase => ?readHistory⟩⟩
  case outside =>
    refine exec_dataRead_outside hreset fun c items hphase => ?_
    rcases hout with hready | ⟨c', hwriting⟩
    · rw [Port.dataReady, hphase] at hready
      cases hready
    · rw [hphase] at hwriting
      cases hwriting
  case byte =>
    have hbyte : ((s.modPort p Port.readOne).port p).shiftedOut = (s.port p).buffer.getD (s.port p).readPoint 0 := by
      rw [port_readOne, Port.readOne, Port.dataByte, hphase]
    refine ⟨_, exec_dataRead_reading hreset hphase, ?_⟩
    split_ifs
    · rw [shiftedOut_endDelivery, shiftedOut_passItems, hbyte]
    · rw [shiftedOut_passItems, hbyte]
  case within =>
    have hread : ((s.modPort p Port.readOne).port p).phase = .reading c items := by rw [port_readOne]; exact hphase
    rw [exec_dataRead_reading hreset hphase, if_neg hlast, passItems_of_within hread (by rw [port_readOne]; exact hstop)]
    refine congrArg Outcome.next (State.modPort_congr s p ?_)
    rw [Port.readOne, Port.dataByte, hphase]
  case readNew =>
    have hread : ((s.modPort p Port.readOne).port p).phase = .reading (.readNew l stop m d g) (i :: rest) := by
      rw [port_readOne]
      exact hphase
    have hexec := exec_dataRead_reading hreset hphase
    rw [if_neg (by rw [← hstop]; exact hmore), passItems_of_passed hread (by rw [port_readOne]; exact hstop.symm)] at hexec
    have hattached : ((s.modPort p Port.readOne).line l).attachment p = some a := ha
    have hline := line_moveCursor (s.modPort p Port.readOne) l p i.next
    refine ⟨_, hexec, attachment_moveCursor hattached i.next, ?_, fun k hmode => ?_, (congrArg Line.cap hline :),
      (congrArg Line.pool hline :), (congrArg Line.tx hline :)⟩
    · rw [passItem, State.port_modPort_self] <;> rfl
    · rw [← Port.hasCause_iff, passItem, State.port_modPort_self]
      exact data_moveCursor hattached hmode i.next
  case readHistory =>
    have hread : ((s.modPort p Port.readOne).port p).phase = .reading (.readHistory l q stop n d) (i :: rest) := by
      rw [port_readOne]
      exact hphase
    have hexec := exec_dataRead_reading hreset hphase
    rw [if_neg (by rw [← hstop]; exact hmore), passItems_of_passed hread (by rw [port_readOne]; exact hstop.symm)] at hexec
    refine ⟨_, hexec, rfl, ?_⟩
    rw [passItem, State.port_modPort_self]

/-! ## SEND taken (R137) -/

theorem exec_send_of_calls (hcall : s.calls p l) : exec (.send p) s = .next
    (if (s.port p).count.toNat = 0 ∨ 512 < (s.port p).count.toNat then s.answer p false { code := .badArgument }
    else if (s.line l).writer ≠ some p then s.answer p false { code := .notWriter }
    else if (s.line l).cond.state = .off then s.answer p false { code := .lineOff }
    else beginData ((restartLease (beginCommand s p false) l).unpost p .drained l) p (.send l (s.port p).count.toNat)
      (s.port p).count.toNat) := by
  change execSend p s = _
  rw [execSend, lineCommand_of_calls hcall false, port_beginCommand_self, beginCommand_line]
  simp only [failCheck_beginCommand]
  rfl

/-- The lease timer of a line with a writer after a restart (R111). -/
theorem leaseTimer_restartLease (hwriter : (s.line l).writer.isSome = true) : ((restartLease s l).line l).att.leaseTimer
    = if (s.line l).io.inForce.lease = 0 then none else some { start := s.timebase, due := false } := by
  rw [restartLease, State.line_modLine_self]
  by_cases hlease : (s.line l).io.inForce.lease = 0
  · simp [hlease]
  · simp [hwriter, startTimer]

theorem line_restartLease (s : State) (l : LineId) : (restartLease s l).line l
    = { s.line l with att := { (s.line l).att with leaseTimer := ((restartLease s l).line l).att.leaseTimer } } := by
  rw [restartLease, State.line_modLine_self]

/-- Settles O33: the checks answer alone; each byte is stored; the last one ends the SEND or begins its wait. -/
theorem aSendTakesItsData : Obligations.ASendTakesItsData := by
  refine ⟨fun s p l hcall => ⟨fun hcount => ?_, fun hlow hhigh hwriter => ?_, fun hlow hhigh hwriter hoff => ?_,
      fun hlow hhigh hwriter hon => ?taken⟩,
    fun s p b hreset => ⟨fun hphase => exec_dataWrite_outside hreset hphase, fun c hphase hmore => exec_dataWrite_more hreset hphase hmore⟩,
    fun s p l n b hreset hphase hlast => ⟨fun hwriter => ?lost, fun hwriter hoff => ?off, fun hwriter hon => ?waits⟩⟩
  · rw [exec_send_of_calls hcall, if_pos hcount]
  · rw [exec_send_of_calls hcall, if_neg (by omega), if_pos hwriter]
  · rw [exec_send_of_calls hcall, if_neg (by omega), if_neg (not_not.mpr hwriter), if_pos hoff]
  case taken =>
    have hexec := exec_send_of_calls hcall
    rw [if_neg (by omega), if_neg (not_not.mpr hwriter), if_neg hon] at hexec
    have hlease := leaseTimer_restartLease (s := beginCommand s p false) (l := l) (by rw [beginCommand_line, hwriter]; rfl)
    have hline := line_restartLease (beginCommand s p false) l
    rw [hlease] at hline
    refine ⟨_, hexec, ?_, ?_, ?_, ?_, ?_, ?_, hline⟩ <;>
      rw [beginData, State.port_modPort_self, State.unpost_eq, State.port_modPort_self, restartLease, State.port_modLine,
        port_beginCommand_self]
    all_goals rfl
  case lost =>
    refine ⟨_, exec_dataWrite_last hreset hphase hlast, ?_, ?_, ?_, ?_⟩ <;>
      rw [DataOut.ends, endSendData, State.line_modPort, if_pos hwriter]
    · rfl
    all_goals rw [port_completeCommand_self]
    all_goals rfl
  case off =>
    refine ⟨_, exec_dataWrite_last hreset hphase hlast, ?_, ?_, ?_, ?_⟩ <;>
      rw [DataOut.ends, endSendData, State.line_modPort, if_neg (not_not.mpr hwriter), if_pos hoff]
    · rfl
    all_goals rw [port_completeCommand_self]
    all_goals rfl
  case waits =>
    rw [exec_dataWrite_last hreset hphase hlast, DataOut.ends, endSendData, State.line_modPort, if_neg (not_not.mpr hwriter), if_neg hon,
      port_written, State.modTx_eq, State.modLine_modPort, State.modPort_modPort]
    rfl

end Sys2Proof.Machine
end

section
/-! Proofs: what writing records keeps: hold and transmitter, freezes, the causes of every kind but DATA and OVERTAKEN. -/

namespace Sys2Proof.Machine

variable {l : LineId} {s t u : State} {p : PortId}

/-! ## Reports -/

theorem reportComplete_noted (s : State) : Noted l (s.modPool l Pool.countRecord) (reportComplete s l) :=
  .each _ completionData_noted _

theorem Pool.countRecord_of_none {x : Pool} (h : x.freezePending = none) : x.countRecord = x := by
  rw [Pool.countRecord, h]

theorem Pool.frozen_countRecord {x : Pool} (h : x.frozen = true) : x.countRecord.frozen = true := by
  unfold Pool.countRecord
  split
  · exact h
  · split <;> [rfl; exact h]

theorem Pool.discardedChars_countRecord (x : Pool) : x.countRecord.discardedChars = x.discardedChars := by
  unfold Pool.countRecord
  split
  · rfl
  · split <;> rfl

/-! ## Hold and transmitter through records -/

/-- Records leave the settings, the transmitter and the hold of the line, a frozen line frozen, and one with no count pending as it is. -/
structure HoldKept (l : LineId) (s t : State) : Prop where
  io : (t.line l).io = (s.line l).io
  tx : (t.line l).tx = (s.line l).tx
  state : (t.line l).hold.state = (s.line l).hold.state
  timer : (t.line l).hold.timer = (s.line l).hold.timer
  frozen : (s.line l).pool.frozen = true → (t.line l).pool.frozen = true
  pending : (s.line l).pool.freezePending = none →
    (t.line l).pool.freezePending = none ∧ (t.line l).pool.frozen = (s.line l).pool.frozen

namespace HoldKept

theorem refl (l : LineId) (s : State) : HoldKept l s s := ⟨rfl, rfl, rfl, rfl, id, fun h => ⟨h, rfl⟩⟩

theorem trans (h : HoldKept l s t) (k : HoldKept l t u) : HoldKept l s u where
  io := k.io.trans h.io
  tx := k.tx.trans h.tx
  state := k.state.trans h.state
  timer := k.timer.trans h.timer
  frozen := k.frozen ∘ h.frozen
  pending hs := ⟨(k.pending (h.pending hs).1).1, (k.pending (h.pending hs).1).2.trans (h.pending hs).2⟩

theorem of_noted (h : Noted l s t) : HoldKept l s t := by
  obtain ⟨work, hpool, -, hhold, htx, -⟩ := h
  exact ⟨work.io, htx, by rw [hhold], by rw [hhold], fun hs => by rw [hpool]; exact hs, fun hs => by rw [hpool]; exact ⟨hs, rfl⟩⟩

theorem modLine (s : State) (f : Line → Line) (hio : (f (s.line l)).io = (s.line l).io) (htx : (f (s.line l)).tx = (s.line l).tx)
    (hstate : (f (s.line l)).hold.state = (s.line l).hold.state) (htimer : (f (s.line l)).hold.timer = (s.line l).hold.timer)
    (hfrozen : (s.line l).pool.frozen = true → (f (s.line l)).pool.frozen = true)
    (hpending : (s.line l).pool.freezePending = none →
      (f (s.line l)).pool.freezePending = none ∧ (f (s.line l)).pool.frozen = (s.line l).pool.frozen) :
    HoldKept l s (s.modLine l f) := by
  constructor <;> rw [State.line_modLine_self] <;> assumption

theorem modPool (s : State) (f : Pool → Pool) (hfrozen : (s.line l).pool.frozen = true → (f (s.line l).pool).frozen = true)
    (hpending : (s.line l).pool.freezePending = none →
      (f (s.line l).pool).freezePending = none ∧ (f (s.line l).pool).frozen = (s.line l).pool.frozen) :
    HoldKept l s (s.modPool l f) := .modLine s _ rfl rfl rfl rfl hfrozen hpending

theorem countRecord (s : State) : HoldKept l s (s.modPool l Pool.countRecord) :=
  .modPool s _ Pool.frozen_countRecord fun h => by
    rw [Pool.countRecord_of_none h]
    exact ⟨h, rfl⟩

theorem reportComplete (s : State) : HoldKept l s (reportComplete s l) := (countRecord s).trans (of_noted (reportComplete_noted s))

theorem discardChars (s : State) (count : Nat) : HoldKept l s (discardChars s l count) := .modPool s _ id fun h => ⟨h, rfl⟩

end HoldKept

theorem line_giveFree (s : State) (l : LineId) (n : Nat) (rest : List Nat) : (giveFree s l n rest).line l
    = { s.line l with
        pool := { (s.line l).pool with pages := (s.line l).pool.pages ++ [Page.fresh n] }
        hold := { (s.line l).hold with evalDue := true } } := by
  rw [giveFree, State.line_modLine_self]
  rfl

theorem holdKept_rule (l : LineId) : WriteRule l (HoldKept l) where
  refl := .refl l
  trans := .trans
  asks s f hf := by
    refine .modLine s f ?_ ?_ ?_ ?_ ?_ ?_
    all_goals rw [hf.1]
    · exact id
    · exact fun h => ⟨h, rfl⟩
  give s n rest := by
    constructor <;> rw [line_giveFree]
    · exact id
    · exact fun h => ⟨h, rfl⟩
  recycle s oldest rest _ :=
    have hpage : HoldKept l s (recyclePage s l oldest rest) := .modLine s _ rfl rfl rfl rfl id fun h => ⟨h, rfl⟩
    hpage.trans (.of_noted (reportAdvance_noted _ _))
  place s kind cause detail body :=
    have hplaced : HoldKept l s (placeRecord s l kind cause detail body) := .modLine s _ rfl rfl rfl rfl id fun h => ⟨h, rfl⟩
    hplaced.trans (.reportComplete _)
  close s o cause detail _ :=
    have hclosed : HoldKept l s (closeRecord s l o cause detail) := .modLine s _ rfl rfl rfl rfl id fun h => ⟨h, rfl⟩
    hclosed.trans (.reportComplete _)

/-! ## Lines whose hold has nothing to do -/

/-- A line in no hold whose hold condition cannot be met: its flow option is off, or it is frozen (R152). -/
def Line.restful (x : Line) : Prop := x.hold.state = .none ∧ (x.io.inForce.flow = false ∨ x.pool.frozen = true)

theorem Line.noHold.restful {x : Line} (h : x.noHold) : x.restful := ⟨h.1, .inl h.2⟩

theorem HoldKept.restful (h : HoldKept l s t) (hs : (s.line l).restful) : (t.line l).restful :=
  ⟨h.state.trans hs.1, hs.2.imp (fun e => by rw [h.io]; exact e) h.frozen⟩

theorem HoldKept.noHold (h : HoldKept l s t) (hs : (s.line l).noHold) : (t.line l).noHold :=
  ⟨h.state.trans hs.1, by rw [h.io]; exact hs.2⟩

theorem holdCondition_of_restful (h : (s.line l).restful) : holdCondition s l = false := by
  obtain ⟨-, hflow | hfrozen⟩ := h
  · rw [holdCondition, hflow]
    rfl
  · rw [holdCondition, hfrozen]
    simp

theorem evaluateHold_of_restful (h : (s.line l).restful) : evaluateHold s l = s := by
  rw [evaluateHold, h.1, holdCondition_of_restful h]

/-- Records and evaluations of a line whose hold has nothing to do leave its hold and its transmitter. -/
theorem restful_rule (l : LineId) : WriteRule l fun s t => (s.line l).restful → HoldKept l s t where
  refl s _ := .refl l s
  trans h k hs := (h hs).trans (k ((h hs).restful hs))
  asks s f hf _ := (holdKept_rule l).asks s f hf
  give s n rest _ := (holdKept_rule l).give s n rest
  recycle s oldest rest hp _ := (holdKept_rule l).recycle s oldest rest hp
  place s kind cause detail body _ := (holdKept_rule l).place s kind cause detail body
  close s o cause detail ho _ := (holdKept_rule l).close s o cause detail ho

theorem restful_evaluateHold (s : State) (h : (s.line l).restful) : HoldKept l s (evaluateHold s l) := by
  rw [evaluateHold_of_restful h]
  exact .refl l s

theorem settle_holdKept (h : (s.line l).restful) : HoldKept l s (settle s l) := (restful_rule l).settle restful_evaluateHold s h

theorem askEvaluation_holdKept (h : (s.line l).restful) : HoldKept l s (askEvaluation s l) :=
  (restful_rule l).askEvaluation restful_evaluateHold s h

theorem event_holdKept (h : (s.line l).restful) (e : Event) (argument : List Byte) : HoldKept l s (event s l e argument) :=
  (restful_rule l).event restful_evaluateHold s e argument h

/-- An evaluation asked for on a line with nothing to do leaves the part as it is. -/
theorem askEvaluation_of_restful (h : (s.line l).restful) (hu : (s.line l).unmarked) : askEvaluation s l = s := by
  obtain ⟨hfrozenDue, hevalDue⟩ := hu
  have hasked : flushFrozen (s.modHold l fun x => { x with evalDue := true }) l = s.modHold l fun x => { x with evalDue := true } := by
    rw [flushFrozen, State.modHold_eq, State.line_modLine_self, hfrozenDue]
    rfl
  have hcleared : (s.modHold l fun x => { x with evalDue := true }).modHold l (fun x => { x with evalDue := false }) = s := by
    rw [State.modHold_eq, State.modHold_eq, State.modLine_modLine]
    refine (State.modLine_congr s l (g := fun x => x) ?_).trans (State.modLine_id s l)
    dsimp only
    rw [← hevalDue]
  have hsettled : settleWithin 7 s l = s := by
    rw [settleWithin, flushFrozen, hfrozenDue, if_neg Bool.false_ne_true]
    exact if_neg (by rw [hevalDue]; exact Bool.false_ne_true)
  have hdue : ((s.modHold l fun x => { x with evalDue := true }).line l).hold.evalDue = true := by
    rw [State.modHold_eq, State.line_modLine_self]
  rw [askEvaluation, settle, settleWithin, hasked, if_pos hdue, hcleared, evaluateHold_of_restful h, hsettled]

/-! ## Freezes through evaluations -/

/-- Event records and evaluations leave a frozen line frozen, one with no count pending as it is, and the count of discarded characters. -/
structure FreezeKept (l : LineId) (s t : State) : Prop where
  frozen : (s.line l).pool.frozen = true → (t.line l).pool.frozen = true
  pending : (s.line l).pool.freezePending = none →
    (t.line l).pool.freezePending = none ∧ (t.line l).pool.frozen = (s.line l).pool.frozen
  discardedChars : (t.line l).pool.discardedChars = (s.line l).pool.discardedChars

namespace FreezeKept

theorem of_holdKept (h : HoldKept l s t) (hchars : (t.line l).pool.discardedChars = (s.line l).pool.discardedChars) :
    FreezeKept l s t := ⟨h.frozen, h.pending, hchars⟩

theorem trans (h : FreezeKept l s t) (k : FreezeKept l t u) : FreezeKept l s u where
  frozen := k.frozen ∘ h.frozen
  pending hs := ⟨(k.pending (h.pending hs).1).1, (k.pending (h.pending hs).1).2.trans (h.pending hs).2⟩
  discardedChars := k.discardedChars.trans h.discardedChars

theorem of_pool (h : (t.line l).pool = (s.line l).pool) : FreezeKept l s t := by
  constructor <;> rw [h]
  · exact id
  · exact fun hs => ⟨hs, rfl⟩

end FreezeKept

theorem discardedChars_reportComplete (s : State) :
    ((reportComplete s l).line l).pool.discardedChars = (s.line l).pool.discardedChars := by
  rw [(reportComplete_noted s).2.1, State.modPool_eq, State.line_modLine_self]
  exact Pool.discardedChars_countRecord _

theorem freezeKept_rule (l : LineId) : WriteRule l (FreezeKept l) where
  refl s := .of_pool rfl
  trans := .trans
  asks s f hf := .of_holdKept ((holdKept_rule l).asks s f hf) (by rw [State.line_modLine_self, hf.1])
  give s n rest := .of_holdKept ((holdKept_rule l).give s n rest) (by rw [line_giveFree])
  recycle s oldest rest hp := .of_holdKept ((holdKept_rule l).recycle s oldest rest hp) (by
    rw [recycle, (reportAdvance_noted _ _).2.1, recyclePage, State.line_modLine_self])
  place s kind cause detail body := .of_holdKept ((holdKept_rule l).place s kind cause detail body) (by
    rw [discardedChars_reportComplete, placeRecord, State.line_modLine_self])
  close s o cause detail ho := .of_holdKept ((holdKept_rule l).close s o cause detail ho) (by
    rw [discardedChars_reportComplete, closeRecord, State.line_modLine_self])

theorem pool_placeFlow (s : State) (c : FlowChar) : ((placeFlow s l c).line l).pool = (s.line l).pool := by
  unfold placeFlow
  split
  · rfl
  · split
    · rw [State.line_modLine_self]
    · rw [State.modTx_eq, State.line_modLine_self]

theorem evaluateHold_freezeKept (s : State) : FreezeKept l s (evaluateHold s l) :=
  (freezeKept_rule l).evaluateHold (fun s f => .of_pool (by rw [State.modHold_eq, State.line_modLine_self]))
    (fun s c => .of_pool (pool_placeFlow s c)) s

/-! ## What the transmitter does in an evaluation -/

/-- A transmitter that flow characters were given to: it takes one when it waits, and holds one in its slot otherwise (R52, R56). -/
structure Transmit.Flowed (x y : Transmit) : Prop where
  rest : y = { x with flowSlot := y.flowSlot, state := y.state, inUse := y.inUse }
  state : (y.state = x.state ∧ y.inUse = x.inUse) ∨ (x.state.waits = true ∧ y.state.waits = false)

theorem Transmit.Flowed.refl (x : Transmit) : x.Flowed x := ⟨rfl, .inl ⟨rfl, rfl⟩⟩

theorem Transmit.Flowed.trans {x y z : Transmit} (h : x.Flowed y) (k : y.Flowed z) : x.Flowed z where
  rest := by
    rw [k.rest, h.rest]
  state := by
    rcases k.state with ⟨hstate, huse⟩ | ⟨hwaits, hz⟩
    · rw [hstate, huse]
      exact h.state
    · rcases h.state with ⟨hstate, -⟩ | ⟨-, hy⟩
      · exact .inr ⟨by rw [← hstate]; exact hwaits, hz⟩
      · rw [hy] at hwaits
        cases hwaits

/-- A transmitter with work in hand goes on with it. -/
theorem Transmit.Flowed.working {x y : Transmit} (h : x.Flowed y) (hx : x.state.waits = false) :
    y.state = x.state ∧ y.inUse = x.inUse := by
  rcases h.state with hsame | ⟨hwaits, -⟩
  · exact hsame
  · rw [hx] at hwaits
    cases hwaits

theorem Transmit.Flowed.not_paused {x y : Transmit} (h : x.Flowed y) (hx : x.state ≠ .paused) : y.state ≠ .paused := by
  rcases h.state with ⟨hstate, -⟩ | ⟨-, hy⟩
  · rw [hstate]
    exact hx
  · intro e
    rw [e] at hy
    cases hy

theorem flowed_rule (l : LineId) : WriteRule l fun s t => (s.line l).tx.Flowed (t.line l).tx where
  refl s := .refl _
  trans := .trans
  asks s f hf := by rw [((holdKept_rule l).asks s f hf).tx]; exact .refl _
  give s n rest := by rw [((holdKept_rule l).give s n rest).tx]; exact .refl _
  recycle s oldest rest hp := by rw [((holdKept_rule l).recycle s oldest rest hp).tx]; exact .refl _
  place s kind cause detail body := by rw [((holdKept_rule l).place s kind cause detail body).tx]; exact .refl _
  close s o cause detail ho := by rw [((holdKept_rule l).close s o cause detail ho).tx]; exact .refl _

theorem placeFlow_flowed (s : State) (c : FlowChar) : (s.line l).tx.Flowed ((placeFlow s l c).line l).tx := by
  unfold placeFlow
  split
  · exact .refl _
  · split
    · rename_i hwaits
      rw [State.line_modLine_self]
      exact ⟨rfl, .inr ⟨hwaits, rfl⟩⟩
    · rw [State.modTx_eq, State.line_modLine_self]
      exact ⟨rfl, .inl ⟨rfl, rfl⟩⟩

theorem evaluateHold_flowed (s : State) : (s.line l).tx.Flowed ((evaluateHold s l).line l).tx :=
  (flowed_rule l).evaluateHold (fun s f => by rw [State.modHold_eq, State.line_modLine_self]; exact .refl _) placeFlow_flowed s

theorem settle_flowed (s : State) : (s.line l).tx.Flowed ((settle s l).line l).tx := (flowed_rule l).settle evaluateHold_flowed s

theorem event_flowed (s : State) (e : Event) (argument : List Byte) : (s.line l).tx.Flowed ((event s l e argument).line l).tx :=
  (flowed_rule l).event evaluateHold_flowed s e argument

/-! ## Causes of the other kinds -/

/-- The causes that records and reports of a log neither post nor remove. -/
def Cause.apart (c : Cause) : Bool := decide (c.kind ≠ .data) && decide (c.kind ≠ .overtaken)

theorem filter_postCause_of {f : Cause → Bool} {c : Cause} (h : f c = false) (cs : List Cause) : (postCause c cs).filter f = cs.filter f := by
  induction cs with
  | nil => simp [postCause, h]
  | cons d ds ih =>
    unfold postCause
    split
    · simp [h]
    · split
      · rfl
      · rw [List.filter_cons, List.filter_cons, ih]

theorem filter_dropCause_of {f : Cause → Bool} {k : CauseKind} (h : ∀ c : Cause, c.kind = k → f c = false) (l : LineId) (cs : List Cause) :
    (dropCause k l cs).filter f = cs.filter f := by
  rw [dropCause, List.filter_filter]
  refine List.filter_congr fun c _ => ?_
  by_cases hk : c.kind = k
  · rw [h c hk]
    rfl
  · simp [hk]

/-- The causes of a test stay at every port. -/
def CausesKept (f : Cause → Bool) (s t : State) : Prop := ∀ q, (t.port q).causes.filter f = (s.port q).causes.filter f

namespace CausesKept

variable {f : Cause → Bool}

theorem refl (f : Cause → Bool) (s : State) : CausesKept f s s := fun _ => rfl

theorem trans (h : CausesKept f s t) (k : CausesKept f t u) : CausesKept f s u := fun q => (k q).trans (h q)

theorem of_causes (h : ∀ q, (t.port q).causes = (s.port q).causes) : CausesKept f s t := fun q => by rw [h]

theorem post {k : CauseKind} (hk : ∀ c : Cause, c.kind = k → f c = false) (s : State) (p : PortId) (l : LineId) (d : Nat) :
    CausesKept f s (s.post p k l d) := by
  intro q
  rw [State.post_eq, State.port_modPort]
  split
  · rename_i h
    rw [h]
    exact filter_postCause_of (hk _ rfl) _
  · rfl

theorem unpost {k : CauseKind} (hk : ∀ c : Cause, c.kind = k → f c = false) (s : State) (p : PortId) (l : LineId) :
    CausesKept f s (s.unpost p k l) := by
  intro q
  rw [State.unpost_eq, State.port_modPort]
  split
  · rename_i h
    rw [h]
    exact filter_dropCause_of hk l _
  · rfl

theorem each (g : State → PortId → State) (h : ∀ s p, CausesKept f s (g s p)) (s : State) : CausesKept f s (eachPort g s) :=
  ((h s 0).trans (h _ 1)).trans (h _ 2)

theorem levelData (hk : ∀ c : Cause, c.kind = .data → f c = false) (s : State) (p : PortId) : CausesKept f s (levelData l s p) := by
  unfold Machine.levelData
  split
  · exact refl f s
  · split
    · split
      · exact post hk s p l 0
      · exact unpost hk s p l
    · exact refl f s
    · exact refl f s

theorem completionData (hk : ∀ c : Cause, c.kind = .data → f c = false) (s : State) (p : PortId) :
    CausesKept f s (completionData l s p) := by
  unfold Machine.completionData
  split
  · exact refl f s
  · split
    · exact levelData hk s p
    · split
      · exact post hk s p l 0
      · exact refl f s
    · exact refl f s
    · exact refl f s

theorem reportComplete (hk : ∀ c : Cause, c.kind = .data → f c = false) (s : State) : CausesKept f s (reportComplete s l) :=
  .trans (t := s.modPool l Pool.countRecord) (.of_causes fun _ => rfl) (each _ (completionData hk) _)

theorem hasCause {k : CauseKind} (h : CausesKept f s t) (hk : ∀ c : Cause, c.kind = k → f c = true) (q : PortId) (l : LineId) :
    (t.port q).hasCause k l = (s.port q).hasCause k l := by
  have hfilter : ∀ x : Port, x.hasCause k l = (x.causes.filter f).any fun c => decide (c.kind = k ∧ c.line = l) := by
    intro x
    rw [Port.hasCause, List.any_filter]
    refine List.any_congr rfl fun c => ?_
    by_cases hc : c.kind = k
    · rw [hk c hc, Bool.true_and]
    · simp [hc]
  rw [hfilter, hfilter, h q]

/-- A cause of a kind that stays pending. -/
theorem exists_cause {k : CauseKind} (h : CausesKept f s t) (hk : ∀ c : Cause, c.kind = k → f c = true) {q : PortId} {l : LineId}
    (hs : ∃ c ∈ (s.port q).causes, c.kind = k ∧ c.line = l) : ∃ c ∈ (t.port q).causes, c.kind = k ∧ c.line = l := by
  rw [← Port.hasCause_iff] at hs ⊢
  rw [h.hasCause hk]
  exact hs

/-- The causes of a kind that stays are the same ones. -/
theorem filter_kind {k : CauseKind} (h : CausesKept f s t) (hk : ∀ c : Cause, c.kind = k → f c = true) (q : PortId) :
    (t.port q).causes.filter (fun c => decide (c.kind = k)) = (s.port q).causes.filter fun c => decide (c.kind = k) := by
  have hfilter : ∀ cs : List Cause, cs.filter (fun c => decide (c.kind = k)) = (cs.filter f).filter fun c => decide (c.kind = k) := by
    intro cs
    rw [List.filter_filter]
    refine List.filter_congr fun c _ => ?_
    by_cases hc : c.kind = k
    · simp [hc, hk c hc]
    · simp [hc]
  rw [hfilter (t.port q).causes, h q, ← hfilter]

end CausesKept

theorem Cause.apart_of_data {c : Cause} (h : c.kind = .data) : c.apart = false := by rw [Cause.apart, h]; rfl
theorem Cause.apart_of_overtaken {c : Cause} (h : c.kind = .overtaken) : c.apart = false := by rw [Cause.apart, h]; rfl
theorem Cause.apart_of_writeLost {c : Cause} (h : c.kind = .writeLost) : c.apart = true := by rw [Cause.apart, h]; rfl
theorem Cause.apart_of_condition {c : Cause} (h : c.kind = .condition) : c.apart = true := by rw [Cause.apart, h]; rfl
theorem Cause.apart_of_watch {c : Cause} (h : c.kind = .watch) : c.apart = true := by rw [Cause.apart, h]; rfl
theorem Cause.apart_of_drained {c : Cause} (h : c.kind = .drained) : c.apart = true := by rw [Cause.apart, h]; rfl

theorem overtakePort_causesKept (report : OldestReport) (s : State) (p : PortId) :
    CausesKept Cause.apart s (overtakePort report l s p) := by
  have hlevel : ∀ v : State, CausesKept Cause.apart v (levelData l v p) :=
    fun v => .levelData (fun _ => Cause.apart_of_data) v p
  unfold overtakePort
  split
  · exact .refl _ s
  · split
    · have hposted := CausesKept.post (fun _ => Cause.apart_of_overtaken) (s.modAttachment l p fun x => { x with overtaken := true }) p l 0
      exact CausesKept.trans (s := s) (t := (s.modAttachment l p fun x => { x with overtaken := true }).post p .overtaken l 0)
        hposted (hlevel _)
    · exact hlevel s

/-- Records, reports and evaluations leave every cause but those of DATA and OVERTAKEN. -/
theorem causesKept_rule (l : LineId) : LogRule l (CausesKept Cause.apart) where
  refl := .refl _
  trans := .trans
  quiet _ _ _ := .of_causes fun _ => rfl
  give _ _ _ := .of_causes fun _ => rfl
  recycle s oldest rest _ := .trans (t := recyclePage s l oldest rest) (.of_causes fun _ => rfl) (.each _ (overtakePort_causesKept _) _)
  place s kind cause detail body :=
    .trans (t := placeRecord s l kind cause detail body) (.of_causes fun _ => rfl) (.reportComplete (fun _ => Cause.apart_of_data) _)
  close s o cause detail _ :=
    .trans (t := closeRecord s l o cause detail) (.of_causes fun _ => rfl) (.reportComplete (fun _ => Cause.apart_of_data) _)

/-! ## Overtaken marks -/

/-- An overtaken mark that is set stays set. -/
def MarkStays (l : LineId) (s t : State) : Prop :=
  ∀ p a, (s.line l).attachment p = some a → a.overtaken = true → ∃ b, (t.line l).attachment p = some b ∧ b.overtaken = true

theorem MarkStays.of_attachment (h : ∀ p, (t.line l).attachment p = (s.line l).attachment p) : MarkStays l s t :=
  fun p a ha hmark => ⟨a, (h p).trans ha, hmark⟩

theorem MarkStays.trans (h : MarkStays l s t) (k : MarkStays l t u) : MarkStays l s u := fun p a ha hmark => by
  obtain ⟨b, hb, hb'⟩ := h p a ha hmark
  exact k p b hb hb'

theorem MarkStays.each (g : State → PortId → State) (h : ∀ s p, MarkStays l s (g s p)) (s : State) : MarkStays l s (eachPort g s) :=
  ((h s 0).trans (h _ 1)).trans (h _ 2)

theorem MarkStays.modAttachment (s : State) (q : PortId) (g : Attachment → Attachment) (hport : ∀ a : Attachment, (g a).port = a.port)
    (hmark : ∀ a : Attachment, a.overtaken = true → (g a).overtaken = true) : MarkStays l s (s.modAttachment l q g) := by
  intro p a ha ho
  rw [State.attachment_modAttachment _ _ _ _ _ hport, ha]
  split
  · exact ⟨_, rfl, hmark a ho⟩
  · exact ⟨a, rfl, ho⟩

theorem levelData_markStays (s : State) (p : PortId) : MarkStays l s (levelData l s p) :=
  .of_attachment fun q => by rw [State.line, lines_levelData]; rfl

theorem completionData_markStays (s : State) (p : PortId) : MarkStays l s (completionData l s p) := by
  unfold completionData
  split
  · exact .of_attachment fun _ => rfl
  · split
    · exact levelData_markStays s p
    · split
      · exact MarkStays.modAttachment (s.post p .data l 0) p _ (fun _ => rfl) fun _ => id
      · exact .of_attachment fun _ => rfl
    · exact .of_attachment fun _ => rfl
    · exact .of_attachment fun _ => rfl

theorem overtakePort_markStays (report : OldestReport) (s : State) (p : PortId) : MarkStays l s (overtakePort report l s p) := by
  unfold overtakePort
  split
  · exact .of_attachment fun _ => rfl
  · split
    · have hmarked := MarkStays.modAttachment (l := l) s p (fun x => { x with overtaken := true }) (fun _ => rfl) fun _ _ => rfl
      exact MarkStays.trans (t := (s.modAttachment l p fun x => { x with overtaken := true }).post p .overtaken l 0) hmarked
        (levelData_markStays _ p)
    · exact levelData_markStays s p

theorem MarkStays.line (s : State) (n : List Nat) (f : Line → Line) (h : (f (s.line l)).att = (s.line l).att) :
    MarkStays l s (({ s with freePages := n } : State).modLine l f) :=
  .of_attachment fun p => by
    rw [State.line_modLine_self, Line.attachment, Line.attachment]
    exact congrArg (fun x : Attachments => x.list.find? _) h

theorem reportComplete_markStays (s : State) : MarkStays l s (reportComplete s l) :=
  .trans (t := s.modPool l Pool.countRecord) (.line s s.freePages _ rfl) (.each _ completionData_markStays _)

/-- Records, reports and evaluations clear no overtaken mark (R114). -/
theorem markStays_rule (l : LineId) : LogRule l (MarkStays l) where
  refl _ := .of_attachment fun _ => rfl
  trans := .trans
  quiet s f hf := .line s s.freePages f (by rw [hf])
  give s n rest := by
    unfold giveFree
    exact .line s rest _ rfl
  recycle s oldest rest _ :=
    .trans (t := recyclePage s l oldest rest) (.line s s.freePages _ rfl) (.each _ (overtakePort_markStays _) _)
  place s kind cause detail body :=
    .trans (t := placeRecord s l kind cause detail body) (.line s s.freePages _ rfl) (reportComplete_markStays _)
  close s o cause detail _ :=
    .trans (t := closeRecord s l o cause detail) (.line s s.freePages _ rfl) (reportComplete_markStays _)

end Sys2Proof.Machine
end

section
/-! Proofs: records written on a page that has room for them, one after the other. -/

namespace Sys2Proof.Machine

variable {l : LineId} {s t u : State} {p : PortId}

/-! ## Counts of records (R36) -/

theorem Pool.countRecord_pages (x : Pool) (ps : List Page) : ({ x with pages := ps } : Pool).countRecord = { x.countRecord with pages := ps } := by
  cases h : x.freezePending with
  | none => simp [Pool.countRecord, h]
  | some c =>
    simp only [Pool.countRecord, h]
    split <;> rfl

theorem Pool.countRecords_pages (k : Nat) : ∀ (x : Pool) (ps : List Page),
    Pool.countRecord^[k] { x with pages := ps } = { Pool.countRecord^[k] x with pages := ps } := by
  induction k with
  | zero => exact fun _ _ => rfl
  | succ k ih =>
    intro x ps
    rw [Function.iterate_succ_apply, Function.iterate_succ_apply, Pool.countRecord_pages, ih]

theorem Pool.countRecords_of_none {x : Pool} (h : x.freezePending = none) (k : Nat) : Pool.countRecord^[k] x = x :=
  Function.iterate_fixed (Pool.countRecord_of_none h) k

/-! ## The current page (R4) -/

theorem getLast?_onCurrentPage (f : Page → Page) (ps : List Page) : (onCurrentPage f ps).getLast? = ps.getLast?.map f := by
  induction ps with
  | nil => rfl
  | cons pg pgs ih =>
    cases pgs with
    | nil => rfl
    | cons pg' pgs =>
      have hne : onCurrentPage f (pg' :: pgs) ≠ [] := fun e => by
        have hlength := length_onCurrentPage f (pg' :: pgs)
        rw [e] at hlength
        cases hlength
      obtain ⟨x, xs, hx⟩ := List.exists_cons_of_ne_nil hne
      rw [onCurrentPage, hx, List.getLast?_cons_cons, ← hx, ih, List.getLast?_cons_cons]
      exact List.cons_ne_nil _ _

theorem closed_onCurrentPage {f : Page → Page} {rs : List LogRecord} (hf : ∀ pg : Page, (f pg).records = pg.records ++ rs) :
    ∀ {ps : List Page}, ps ≠ [] → (onCurrentPage f ps).flatMap (·.records) = ps.flatMap (·.records) ++ rs := by
  intro ps
  induction ps with
  | nil => exact fun h => absurd rfl h
  | cons pg pgs ih =>
    intro _
    cases pgs with
    | nil => simp [onCurrentPage, hf]
    | cons pg' pgs =>
      simp only [onCurrentPage, List.flatMap_cons] at ih ⊢
      rw [ih (List.cons_ne_nil _ _)]
      simp

theorem onCurrentPage_ne_nil {f : Page → Page} {ps : List Page} (h : ps ≠ []) : onCurrentPage f ps ≠ [] :=
  List.ne_nil_of_length_pos (by rw [length_onCurrentPage]; exact List.length_pos_of_ne_nil h)

/-- The room after bytes are taken of the current page. -/
theorem room_onCurrentPage {x y : Line} {f : Page → Page} {bytes : Nat} (hf : ∀ pg : Page, (f pg).occupied = pg.occupied + bytes)
    (hy : y.pool.pages = onCurrentPage f x.pool.pages) : y.room = x.room - bytes := by
  rw [Line.room, Line.room, hy, getLast?_onCurrentPage]
  cases x.pool.pages.getLast? with
  | none => simp
  | some pg => simp [hf, Nat.sub_sub]

/-! ## Attachments through reports -/

/-- An attachment with its armed flag, if it has one, clear. -/
def Attachment.disarmed (a : Attachment) : Attachment := { a with mode := a.mode.disarmed }

theorem Mode.disarmed_disarmed (m : Mode) : m.disarmed.disarmed = m.disarmed := by cases m <;> rfl

/-- The attachments of a line stay but for their armed flags, and the causes of every port but for DATA. -/
structure Told (l : LineId) (s t : State) : Prop where
  attachments : (t.line l).att.list.map Attachment.disarmed = (s.line l).att.list.map Attachment.disarmed
  causes : CausesKept (fun c => decide (c.kind ≠ .data)) s t

theorem Told.refl (l : LineId) (s : State) : Told l s s := ⟨rfl, .refl _ s⟩

theorem Told.trans (h : Told l s t) (k : Told l t u) : Told l s u := ⟨k.attachments.trans h.attachments, h.causes.trans k.causes⟩

theorem Told.of_att (hatt : (t.line l).att = (s.line l).att) (hports : ∀ q, (t.port q).causes = (s.port q).causes) : Told l s t :=
  ⟨by rw [hatt], .of_causes hports⟩

theorem not_data_of_data {c : Cause} (h : c.kind = .data) : decide (c.kind ≠ .data) = false := by rw [h]; rfl

theorem completionData_told_disarmed (s : State) (p : PortId) : Told l s (completionData l s p) where
  causes := .completionData (fun _ => not_data_of_data) s p
  attachments := by
    unfold completionData
    split
    · rfl
    · split
      · rw [State.line, lines_levelData]
        rfl
      · split
        · rw [State.modAttachment_eq, State.modAtt_eq, State.line_modLine_self, List.map_map]
          refine List.map_congr_left fun a _ => ?_
          dsimp only [Function.comp_apply]
          split
          · simp [Attachment.disarmed, Mode.disarmed_disarmed]
          · rfl
        · rfl
      · rfl
      · rfl

theorem reportComplete_disarmed (s : State) : Told l s (reportComplete s l) :=
  .trans (t := s.modPool l Pool.countRecord) (.of_att (by rw [State.modPool_eq, State.line_modLine_self]) fun _ => rfl)
    (((completionData_told_disarmed _ 0).trans (completionData_told_disarmed _ 1)).trans (completionData_told_disarmed _ 2))

/-- The port's attachment after reports: its overtaken mark, cursor and latch among what stays. -/
theorem Told.attachment (h : Told l s t) {a : Attachment} (ha : (s.line l).attachment p = some a) :
    ∃ b, (t.line l).attachment p = some b ∧ b.disarmed = a.disarmed := by
  have hfind : ∀ xs : List Attachment, (xs.find? fun a => decide (a.port = p)).map Attachment.disarmed
      = (xs.map Attachment.disarmed).find? fun a => decide (a.port = p) := fun xs => by
    rw [List.find?_map]
    rfl
  have heq : ((t.line l).attachment p).map Attachment.disarmed = some a.disarmed := by
    rw [Line.attachment, hfind, h.attachments, ← hfind, ← Line.attachment, ha]
    rfl
  exact Option.map_eq_some_iff.mp heq

/-! ## Records written on a page with room -/

/-- These records were written at the newest end of the log, in so many bytes of the current page, so many of them with a fresh
number; no page was asked for. -/
structure Wrote (l : LineId) (rs : List LogRecord) (n bytes : Nat) (s t : State) : Prop where
  recorded : Recorded l s t
  told : Told l s t
  closed : (t.line l).closed = (s.line l).closed ++ rs
  oldest : (t.line l).cap.oldest = (s.line l).cap.oldest
  next : (t.line l).cap.next = nextSeq^[n] (s.line l).cap.next
  pages : (t.line l).pool.pages ≠ []
  held : (t.line l).held = (s.line l).held
  room : (t.line l).room = (s.line l).room - bytes
  pool : (t.line l).pool = { Pool.countRecord^[rs.length] (s.line l).pool with pages := (t.line l).pool.pages }
  hold : (t.line l).hold = (s.line l).hold
  tx : (t.line l).tx = (s.line l).tx
  freePages : t.freePages = s.freePages

namespace Wrote

theorem refl (h : (s.line l).pool.pages ≠ []) : Wrote l [] 0 0 s s :=
  ⟨.refl l s, .refl l s, (List.append_nil _).symm, rfl, rfl, h, rfl, rfl, rfl, rfl, rfl, rfl⟩

theorem trans {rs qs : List LogRecord} {n m a b : Nat} (h : Wrote l rs n a s t) (k : Wrote l qs m b t u) :
    Wrote l (rs ++ qs) (m + n) (a + b) s u where
  recorded := h.recorded.trans k.recorded
  told := h.told.trans k.told
  closed := by rw [k.closed, h.closed, List.append_assoc]
  oldest := k.oldest.trans h.oldest
  next := by rw [k.next, h.next, Function.iterate_add_apply]
  pages := k.pages
  held := k.held.trans h.held
  room := by rw [k.room, h.room, Nat.sub_sub]
  pool := by
    rw [k.pool, h.pool, Pool.countRecords_pages, List.length_append, Nat.add_comm, Function.iterate_add_apply]
  hold := k.hold.trans h.hold
  tx := k.tx.trans h.tx
  freePages := k.freePages.trans h.freePages

/-- A record placed or closed on the current page, before its report. -/
theorem reported {r : LogRecord} {n bytes : Nat} (recorded : Recorded l s t) (told : Told l s t)
    (closed : (t.line l).closed = (s.line l).closed ++ [r]) (oldest : (t.line l).cap.oldest = (s.line l).cap.oldest)
    (next : (t.line l).cap.next = nextSeq^[n] (s.line l).cap.next) (pages : (t.line l).pool.pages ≠ [])
    (held : (t.line l).held = (s.line l).held) (room : (t.line l).room = (s.line l).room - bytes)
    (pool : (t.line l).pool = { (s.line l).pool with pages := (t.line l).pool.pages }) (hold : (t.line l).hold = (s.line l).hold)
    (tx : (t.line l).tx = (s.line l).tx) (freePages : t.freePages = s.freePages) :
    Wrote l [r] n bytes s (reportComplete t l) := by
  obtain ⟨-, hpool, hcap, hhold, htx, hfree⟩ := reportComplete_noted (l := l) t
  rw [State.modPool_eq, State.line_modLine_self] at hpool hcap hhold htx
  dsimp only at hpool hcap hhold htx
  have hpages : ((reportComplete t l).line l).pool.pages = (t.line l).pool.pages := by rw [hpool, pages_countRecord]
  refine ⟨recorded.trans (.of_work (reportComplete_work t)), told.trans (reportComplete_disarmed t), ?_, by rw [hcap]; exact oldest,
    by rw [hcap]; exact next, by rw [hpages]; exact pages, ?_, ?_, ?_, hhold.trans hold, htx.trans tx, hfree.trans freePages⟩
  · rw [← closed, Line.closed, Line.closed, hpages]
  · rw [← held, Line.held, Line.held, hpages]
  · rw [← room, Line.room, Line.room, hpages]
  · rw [hpages, hpool, pool, Pool.countRecord_pages]
    rfl

theorem place (hpages : (s.line l).pool.pages ≠ []) (kind : RecordKind) (cause detail : Byte) (body : List Byte) :
    Wrote l [{ seq := (s.line l).cap.next, time := s.timebase, kind := kind, cause := cause, detail := detail, body := body }]
      1 (12 + body.length) s (reportComplete (placeRecord s l kind cause detail body) l) := by
  have hline := State.line_modLine_self s l fun x =>
    let r : LogRecord := { seq := x.cap.next, time := s.timebase, kind := kind, cause := cause, detail := detail, body := body }
    { x with
      cap := { x.cap with next := nextSeq x.cap.next }
      pool := { x.pool with pages := onCurrentPage (fun pg => (pg.take r.seq r.size).join r) x.pool.pages } }
  change (placeRecord s l kind cause detail body).line l = _ at hline
  refine .reported (placeRecord_recorded s kind cause detail body) (.of_att (by rw [hline]) fun _ => rfl) ?_ (by rw [hline])
    (by rw [hline]; rfl) ?_ ?_ ?_ (by rw [hline]) (by rw [hline]) (by rw [hline]) rfl
  · rw [hline]
    exact closed_onCurrentPage (fun _ => rfl) hpages
  · rw [hline]
    exact onCurrentPage_ne_nil hpages
  · rw [hline]
    exact length_onCurrentPage _ _
  · rw [hline]
    exact room_onCurrentPage (fun _ => rfl) rfl

theorem close {o : OpenRecord} (hpages : (s.line l).pool.pages ≠ []) (ho : (s.line l).cap.opened = some o) (cause : CloseCause)
    (detail : Byte) : Wrote l [o.closed cause detail] 0 0 s (reportComplete (closeRecord s l o cause detail) l) := by
  have hline := State.line_modLine_self s l fun x =>
    { x with
      cap := { x.cap with opened := none, idleTimer := none }
      pool := { x.pool with pages := onCurrentPage (Page.join (o.closed cause detail)) x.pool.pages } }
  change (closeRecord s l o cause detail).line l = _ at hline
  refine .reported (.of_work (.one (.close s o cause detail ho))) (.of_att (by rw [hline]) fun _ => rfl) ?_ (by rw [hline])
    (by rw [hline]; rfl) ?_ ?_ ?_ (by rw [hline]) (by rw [hline]) (by rw [hline]) rfl
  · rw [hline]
    exact closed_onCurrentPage (fun _ => rfl) hpages
  · rw [hline]
    exact onCurrentPage_ne_nil hpages
  · rw [hline]
    exact length_onCurrentPage _ _
  · rw [hline]
    exact room_onCurrentPage (f := Page.join (o.closed cause detail)) (bytes := 0) (fun _ => rfl) rfl

end Wrote

end Sys2Proof.Machine
end

section
/-! Proofs: event records on a page that has room for them; the latching of condition events. -/

namespace Sys2Proof.Machine

variable {l : LineId} {s t u : State} {p : PortId}

/-! ## One record after the other, where the page has room (R2, R4, R16) -/

theorem ensureRoom_of_room {bytes : Nat} (hpages : (s.line l).pool.pages ≠ []) (hroom : bytes ≤ (s.line l).room) :
    ensureRoom s l bytes = (s, true) := if_pos ⟨hpages, hroom⟩

theorem closeOpen_of_none (h : (s.line l).cap.opened = none) (cause : CloseCause) (detail : Byte) :
    closeOpen s l cause detail = s := by
  rw [closeOpen, h]

theorem closeOpen_of_some {o : OpenRecord} (h : (s.line l).cap.opened = some o) (cause : CloseCause) (detail : Byte) :
    closeOpen s l cause detail = reportComplete (closeRecord s l o cause detail) l := by
  rw [closeOpen, h]

theorem opened_closeOpen (s : State) (l : LineId) (cause : CloseCause) (detail : Byte) :
    ((closeOpen s l cause detail).line l).cap.opened = none := (closeOpen_work s cause detail).2

theorem Line.closing_of_none {x : Line} (h : x.cap.opened = none) (cause : CloseCause) (detail : Byte) :
    x.closing cause detail = [] := by
  rw [Line.closing, h]
  rfl

theorem Line.closing_of_some {x : Line} {o : OpenRecord} (h : x.cap.opened = some o) (cause : CloseCause) (detail : Byte) :
    x.closing cause detail = [o.closed cause detail] := by
  rw [Line.closing, h]
  rfl

theorem closeOpen_wrote (hpages : (s.line l).pool.pages ≠ []) (cause : CloseCause) (detail : Byte) :
    Wrote l ((s.line l).closing cause detail) 0 0 s (closeOpen s l cause detail) := by
  cases ho : (s.line l).cap.opened with
  | none =>
    rw [closeOpen_of_none ho, Line.closing_of_none ho]
    exact .refl hpages
  | some o =>
    rw [closeOpen_of_some ho, Line.closing_of_some ho]
    exact .close hpages ho cause detail

theorem writeRecord_wrote (hpages : (s.line l).pool.pages ≠ []) (kind : RecordKind) (cause detail : Byte) {body : List Byte}
    (discard : State → State) (hroom : 12 + body.length ≤ (s.line l).room) :
    Wrote l [{ seq := (s.line l).cap.next, time := s.timebase, kind := kind, cause := cause, detail := detail, body := body }]
      1 (12 + body.length) s (writeRecord s l kind cause detail body discard) := by
  have hensured : ensureRoom s l (Config.header + body.length) = (s, true) := ensureRoom_of_room hpages hroom
  rw [writeRecord, hensured]
  exact .place hpages kind cause detail body

theorem placeEvent_wrote (hpages : (s.line l).pool.pages ≠ []) (e : Event) {argument : List Byte}
    (hroom : 12 + argument.length ≤ (s.line l).room) :
    Wrote l [eventRecord s l e argument] 1 (12 + argument.length) s (placeEvent s l e argument) :=
  writeRecord_wrote hpages .event e.code 0 _ hroom

/-- The records of a group lie side by side (R16, R18). -/
theorem groupEvent_wrote (hpages : (s.line l).pool.pages ≠ []) (e : Event) {argument : List Byte}
    (hroom : 12 + argument.length ≤ (s.line l).room) :
    Wrote l ((s.line l).closing .event 0 ++ [eventRecord s l e argument]) 1 (12 + argument.length) s
      (groupEvent s l e argument) := by
  have hclose := closeOpen_wrote hpages .event 0
  have hplace := placeEvent_wrote hclose.pages e (argument := argument) (by rw [hclose.room]; exact hroom)
  have hrecord : eventRecord (closeOpen s l .event 0) l e argument = eventRecord s l e argument := by
    rw [eventRecord, eventRecord, hclose.next, hclose.recorded.timebase]
    rfl
  rw [hrecord] at hplace
  have hboth := hclose.trans hplace
  rw [Nat.zero_add] at hboth
  exact hboth

theorem opened_groupEvent (s : State) (l : LineId) (e : Event) (argument : List Byte) :
    ((groupEvent s l e argument).line l).cap.opened = none :=
  (placeEvent_recorded _ e argument).opened (opened_closeOpen s l _ _)

theorem opened_plainEvent (s : State) (l : LineId) (e : Event) (argument : List Byte) :
    ((plainEvent s l e argument).line l).cap.opened = none :=
  (flushFrozen_recorded _).opened ((placeEvent_recorded _ e argument).opened
    ((flushFrozen_recorded _).opened (opened_closeOpen s l _ _)))

theorem opened_event (s : State) (l : LineId) (e : Event) (argument : List Byte) :
    ((event s l e argument).line l).cap.opened = none := by
  rw [event]
  exact (settle_recorded _).opened (opened_plainEvent s l e argument)

/-! ## Lines with no freeze count pending (R36) -/

theorem flushFrozen_of_not_due (h : (s.line l).pool.frozenDue = false) : flushFrozen s l = s := by
  rw [flushFrozen, h, if_neg Bool.false_ne_true]

/-- Records leave the freeze of a line as it was where no count is pending. -/
theorem Wrote.pool_of_none {rs : List LogRecord} {n bytes : Nat} (h : Wrote l rs n bytes s t)
    (hnone : (s.line l).pool.freezePending = none) :
    (t.line l).pool = { (s.line l).pool with pages := (t.line l).pool.pages } := by
  have hpool := h.pool
  rw [Pool.countRecords_of_none hnone] at hpool
  exact hpool

theorem Wrote.unmarked {rs : List LogRecord} {n bytes : Nat} (h : Wrote l rs n bytes s t)
    (hnone : (s.line l).pool.freezePending = none) (hs : (s.line l).unmarked) : (t.line l).unmarked := by
  refine ⟨?_, ?_⟩
  · rw [h.pool_of_none hnone]
    exact hs.1
  · rw [h.hold]
    exact hs.2

/-- A page with room for records, less the bytes written. -/
theorem Wrote.roomy {rs : List LogRecord} {n bytes more : Nat} (h : Wrote l rs n bytes s t)
    (hs : (s.line l).roomy (bytes + more)) : (t.line l).roomy more := by
  obtain ⟨-, hroom, hnone, hdue, heval⟩ := hs
  obtain ⟨hdue', heval'⟩ := h.unmarked hnone ⟨hdue, heval⟩
  refine ⟨h.pages, ?_, ?_, hdue', heval'⟩
  · rw [h.room]
    omega
  · rw [h.pool_of_none hnone]
    exact hnone

theorem Line.roomy.mono {x : Line} {a b : Nat} (h : x.roomy b) (hab : a ≤ b) : x.roomy a := by
  obtain ⟨hpages, hroom, hrest⟩ := h
  exact ⟨hpages, hab.trans hroom, hrest⟩

theorem Line.roomy.unmarked {x : Line} {bytes : Nat} (h : x.roomy bytes) : x.unmarked := by
  obtain ⟨-, -, -, hdue, heval⟩ := h
  exact ⟨hdue, heval⟩

/-- No FROZEN record comes between the records where no count is pending. -/
theorem plainEvent_of_roomy {argument : List Byte} (h : (s.line l).roomy (12 + argument.length)) (e : Event) :
    plainEvent s l e argument = groupEvent s l e argument := by
  obtain ⟨hpages, hroom, hnone, hdue, heval⟩ := h
  have hclosed := (closeOpen_wrote hpages .event 0).unmarked hnone ⟨hdue, heval⟩
  have hgroup := (groupEvent_wrote hpages e hroom).unmarked hnone ⟨hdue, heval⟩
  rw [plainEvent, flushFrozen_of_not_due hclosed.1]
  exact flushFrozen_of_not_due hgroup.1

theorem event_of_roomy {argument : List Byte} (h : (s.line l).roomy (12 + argument.length)) (e : Event) :
    event s l e argument = groupEvent s l e argument := by
  obtain ⟨hpages, hroom, hnone, hdue, heval⟩ := id h
  rw [event, plainEvent_of_roomy h]
  exact settle_of_unmarked ((groupEvent_wrote hpages e hroom).unmarked hnone ⟨hdue, heval⟩)

theorem event_wrote {argument : List Byte} (h : (s.line l).roomy (12 + argument.length)) (e : Event) :
    Wrote l ((s.line l).closing .event 0 ++ [eventRecord s l e argument]) 1 (12 + argument.length) s (event s l e argument) := by
  rw [event_of_roomy h]
  exact groupEvent_wrote h.1 e h.2.1

/-! ## What a claim about an event needs of the log -/

/-- Lines that agree in their log and in what may bring a record of its own. -/
structure Line.SameLog (x y : Line) : Prop where
  cap : y.cap = x.cap
  pool : y.pool = x.pool
  evalDue : y.hold.evalDue = x.hold.evalDue

theorem Line.SameLog.refl (x : Line) : x.SameLog x := ⟨rfl, rfl, rfl⟩

theorem Line.SameLog.trans {x y z : Line} (h : x.SameLog y) (k : y.SameLog z) : x.SameLog z :=
  ⟨k.cap.trans h.cap, k.pool.trans h.pool, k.evalDue.trans h.evalDue⟩

theorem Line.SameLog.roomy {x y : Line} (h : x.SameLog y) {bytes : Nat} : y.roomy bytes ↔ x.roomy bytes := by
  rw [Line.roomy, Line.roomy, Line.room, Line.room, h.pool, h.evalDue]

theorem Line.SameLog.closed {x y : Line} (h : x.SameLog y) : y.closed = x.closed := by
  rw [Line.closed, Line.closed, h.pool]

theorem Line.SameLog.closing {x y : Line} (h : x.SameLog y) (cause : CloseCause) (detail : Byte) :
    y.closing cause detail = x.closing cause detail := by
  rw [Line.closing, Line.closing, h.cap]

theorem Line.SameLog.unmarked {x y : Line} (h : x.SameLog y) : y.unmarked ↔ x.unmarked := by
  rw [Line.unmarked, Line.unmarked, h.pool, h.evalDue]

theorem eventRecord_of_sameLog (h : (s.line l).SameLog (t.line l)) (htime : t.timebase = s.timebase) (e : Event) (argument : List Byte) :
    eventRecord t l e argument = eventRecord s l e argument := by
  rw [eventRecord, eventRecord, h.cap, htime]

theorem logsEvent_of_wrote {e : Event} {argument : List Byte} {bytes : Nat}
    (h : (s.line l).roomy (12 + argument.length) →
      Wrote l ((s.line l).closing .event 0 ++ [eventRecord s l e argument]) 1 bytes s t)
    (hopened : (t.line l).cap.opened = none) : LogsEvent s t l e argument := by
  intro hroomy
  obtain hwrote := h hroomy
  refine ⟨?_, hopened, hwrote.next, hwrote.oldest⟩
  rw [hwrote.closed, List.append_assoc]

theorem logsEvent_event (s : State) (l : LineId) (e : Event) (argument : List Byte) :
    LogsEvent s (event s l e argument) l e argument :=
  logsEvent_of_wrote (fun h => event_wrote h e) (opened_event s l e argument)

/-- A claim about an event holds of states whose logs are the same. -/
theorem LogsEvent.congr {s' t' : State} {e : Event} {argument : List Byte} (h : LogsEvent s' t' l e argument)
    (hs : (s.line l).SameLog (s'.line l)) (htime : s'.timebase = s.timebase) (hcap : (t.line l).cap = (t'.line l).cap)
    (hpool : (t.line l).pool = (t'.line l).pool) : LogsEvent s t l e argument := by
  intro hroomy
  obtain ⟨hclosed, hopened, hnext, hold⟩ := h (hs.roomy.mpr hroomy)
  refine ⟨?_, by rw [hcap]; exact hopened, by rw [hcap, hnext, hs.cap], by rw [hcap, hold, hs.cap]⟩
  rw [Line.closed, hpool, ← Line.closed, hclosed, hs.closed, hs.closing, eventRecord_of_sameLog hs htime]

/-! ## Condition events latched (R83, R164) -/

/-- An attachment that has latched a condition event. -/
def Attachment.latched (e : CondEvent) (a : Attachment) : Attachment := { a with latch := a.latch ||| e.bit }

/-- A line whose attachments have latched a condition event. -/
def Line.latched (e : CondEvent) (x : Line) : Line := { x with att := { x.att with list := x.att.list.map (Attachment.latched e) } }

theorem line_latchEvent (e : CondEvent) (s : State) (p : PortId) : (latchEvent e l s p).line l
    = { s.line l with att := { (s.line l).att with
          list := (s.line l).att.list.map fun a => if a.port = p then a.latched e else a } } := by
  unfold latchEvent
  split
  · rename_i hnone
    have hall : (s.line l).att.list.map (fun a => if a.port = p then a.latched e else a) = (s.line l).att.list.map id := by
      refine List.map_congr_left fun a ha => if_neg fun hport => ?_
      exact absurd (decide_eq_true hport) (List.find?_eq_none.mp hnone a ha)
    rw [hall, List.map_id]
  · rename_i a ha
    have hline := State.line_modLine_self s l fun x => { x with att := { x.att with
      list := x.att.list.map fun a => if a.port = p then a.latched e else a } }
    dsimp only
    split
    · rw [State.line_post]
      exact hline
    · exact hline

/-- Every attachment of a line latches an event once. -/
theorem line_eachLatch (e : CondEvent) (s : State) : (eachPort (latchEvent e l) s).line l = (s.line l).latched e := by
  rw [eachPort, line_latchEvent, line_latchEvent, line_latchEvent, Line.latched]
  simp only [List.map_map]
  congr 2
  refine List.map_congr_left fun a _ => ?_
  obtain ⟨q, rest⟩ := a
  fin_cases q <;> rfl

theorem eachLatch_calm (e : CondEvent) (s : State) : Calm l s (eachPort (latchEvent e l) s) := .each _ (latchEvent_calm e) s

theorem sameLog_eachLatch (e : CondEvent) (s : State) : (s.line l).SameLog ((eachPort (latchEvent e l) s).line l) := by
  rw [line_eachLatch]
  exact ⟨rfl, rfl, rfl⟩

theorem timebase_eachLatch (e : CondEvent) (s : State) : (eachPort (latchEvent e l) s).timebase = s.timebase := by
  have hone : ∀ (u : State) (p : PortId), (latchEvent e l u p).timebase = u.timebase := by
    intro u p
    unfold latchEvent
    split
    · rfl
    · dsimp only
      split <;> rfl
  rw [eachPort, hone, hone, hone]

theorem attachment_latched (e : CondEvent) (x : Line) (p : PortId) :
    (x.latched e).attachment p = (x.attachment p).map (Attachment.latched e) := by
  rw [Line.attachment, Line.latched, List.find?_map]
  rfl

theorem exists_condition_eachLatch {a : Attachment} (e : CondEvent) (ha : (s.line l).attachment p = some a)
    (hc : a.conditionEnable = true) : ∃ c ∈ ((eachPort (latchEvent e l) s).port p).causes, c.kind = .condition ∧ c.line = l := by
  obtain ⟨u, hbefore, hafter⟩ := eachPort_at (latchEvent e l) (latchEvent_forPort e) s p
  rw [hafter.port]
  exact exists_condition_latchEvent e (hbefore.attachment.trans ha) hc

/-- After a condition event its record and whatever follows it leave the latch and CONDITION. -/
theorem latchesEvent_of {e : CondEvent} (hatt : (u.line l).att.list = (s.line l).att.list)
    (hlatches : (t.line l).latches = ((eachPort (latchEvent e l) u).line l).latches)
    (hcauses : CausesKept Cause.apart (eachPort (latchEvent e l) u) t) : LatchesEvent s t l e := by
  refine ⟨?_, fun p a ha hc => hcauses.exists_cause (fun _ => Cause.apart_of_condition) (exists_condition_eachLatch e ?_ hc)⟩
  · change (t.line l).latches = _
    rw [hlatches, line_eachLatch, Line.latches, Line.latched, List.map_map, hatt]
    rfl
  · rw [Line.attachment, hatt]
    exact ha

theorem event_causesKept (s : State) (e : Event) (argument : List Byte) : CausesKept Cause.apart s (event s l e argument) :=
  (causesKept_rule l).event s e argument

theorem latchesEvent_conditionEvent (hatt : (u.line l).att.list = (s.line l).att.list) (e : CondEvent) (argument : List Byte) :
    LatchesEvent s (conditionEvent u l e argument) l e :=
  latchesEvent_of hatt (event_recorded _ _ _).latches (event_causesKept _ _ _)

theorem logsEvent_conditionEvent (hlog : (s.line l).SameLog (u.line l)) (htime : u.timebase = s.timebase) (e : CondEvent)
    (argument : List Byte) : LogsEvent s (conditionEvent u l e argument) l e.event argument :=
  (logsEvent_event (eachPort (latchEvent e l) u) l e.event argument).congr (hlog.trans (sameLog_eachLatch e u))
    ((timebase_eachLatch e u).trans htime) rfl rfl

end Sys2Proof.Machine
end

section
/-! Proofs: RELEASE WRITE, LEASE EXPIRY and DETACH: the writer's role and an attachment given up. -/

namespace Sys2Proof.Machine

open Host

variable {l : LineId} {s t u : State} {p : PortId}

/-! ## A command answered after its effects (log 7, R178, R179) -/

theorem answered_prepare (h : ((s.port p).begun false).SameBlock (t.port p)) (r : Results) : Answered s (prepare t p r) p r := by
  rw [Answered, prepare, State.port_modPort_self, Port.SameBlock]
  rw [Port.SameBlock] at h
  rw [h]
  rfl

theorem exec_abort_of_answered {r : Results} (h : Answered s t p r) (hreset : (s.port p).resetAsserted = false) :
    ∃ u, exec (.abort p) t = .next u ∧ (u.port p).error = .aborted ∧ u.lines = t.lines := by
  have hblock : t.port p = { (s.port p).taken false r with causes := (t.port p).causes } := h
  have hphase : (t.port p).phase = .completing r := by rw [hblock]; rfl
  have hreset' : (t.port p).resetAsserted = false := by rw [hblock]; exact hreset
  refine ⟨(completeCommand t p { code := .aborted }).modPort p fun x => { x with collision := false, pointer := nextOffset 0 },
    ?_, ?_, rfl⟩
  · change execAbort p t = _
    rw [execAbort, hreset', if_neg Bool.false_ne_true, abortCommand, hphase]
  · rw [State.port_modPort_self, completeCommand, State.port_modPort_self]
    rfl

/-! ## The role and the marks of the writer given up -/

theorem line_setRole (s : State) (l : LineId) (p : PortId) (r : Role) : (setRole s l p r).line l
    = { s.line l with att := { (s.line l).att with
          list := (s.line l).att.list.map fun a => if a.port = p then { a with role := r } else a } } :=
  State.line_modLine_self s l _

theorem line_forgetWriter (s : State) (l : LineId) : (forgetWriter s l).line l
    = { s.line l with att := { (s.line l).att with leaseTimer := none }, tx := { (s.line l).tx with drainMark := none } } := by
  rw [forgetWriter, dropDrainMark, State.modTx_eq, State.line_modLine_self, State.modAtt_eq, State.line_modLine_self]

theorem Line.writer_congr {x y : Line} (h : y.att.list = x.att.list) : y.writer = x.writer := by
  rw [Line.writer, Line.writer, h]

theorem Line.attachment_congr {x y : Line} (h : y.att.list = x.att.list) (q : PortId) : y.attachment q = x.attachment q := by
  rw [Line.attachment, Line.attachment, h]

theorem writer_of_watchers {x : Line} (h : ∀ a ∈ x.att.list, a.role = .watcher) : x.writer = none := by
  rw [Line.writer, Option.map_eq_none_iff, List.find?_eq_none]
  intro a ha
  rw [h a ha]
  decide

/-- The writer made a watcher leaves the line without one (R98). -/
theorem writer_demote (h : AttachmentTable s) (hwriter : (s.line l).writer = some p) :
    ((setRole s l p .watcher).line l).writer = none := by
  refine writer_of_watchers ?_
  rw [line_setRole]
  exact watchers_demote _ p (h l).2 hwriter

/-- The writer's attachment taken off the list leaves the line without a writer (R98, R108). -/
theorem writer_dropAttachment_self (h : AttachmentTable s) (hwriter : (s.line l).writer = some p) :
    ((dropAttachment s l p).line l).writer = none := by
  refine writer_of_watchers fun a ha => ?_
  rw [list_dropAttachment, List.mem_filter] at ha
  obtain ⟨hmem, hport⟩ := ha
  have hdemoted := watchers_demote _ p (h l).2 hwriter a (List.mem_map.mpr ⟨a, hmem, if_neg (by simpa using hport)⟩)
  exact hdemoted

theorem hasControl_of_none {x : Line} (h : x.writer = none) (q : PortId) : x.hasControl q = true := by
  rw [Line.hasControl, h]

/-! ## RELEASE WRITE (R109) -/

theorem exec_releaseWrite_of_calls (hcall : s.calls p l) : exec (.releaseWrite p) s = .next
    (if (s.line l).writer = some p then
      prepare (event (forgetWriter (setRole (beginCommand s p false) l p .watcher) l) l .writerSet [0xFF, 3]) p {}
    else s.answer p false { code := .notWriter }) := by
  change execReleaseWrite p s = _
  rw [execReleaseWrite, lineCommand_of_calls hcall false, beginCommand_line, failCheck_beginCommand]
  rfl

theorem causes_prepare (s : State) (p q : PortId) (r : Results) : ((prepare s p r).port q).causes = (s.port q).causes := by
  rw [prepare, State.port_modPort]
  split
  · rename_i e
    rw [e]
  · rfl

theorem causes_beginCommand (s : State) (p q : PortId) (dataIn : Bool) :
    ((beginCommand s p dataIn).port q).causes = (s.port q).causes := by
  rw [beginCommand, State.port_modPort]
  split
  · rename_i e
    rw [e]
  · rfl

/-- Settles O31: the demotion and the marks are changed before WRITER SET, whose record leaves them. -/
theorem releaseWriteGivesUpTheRole : Obligations.ReleaseWriteGivesUpTheRole := by
  refine ⟨fun s p hready hline => congrArg Outcome.next (lineCommand_badLine hready hline false _), fun s p l hcall hwriter => ?_,
    fun s p l a htable hcall hwriter ha => ?_⟩
  · rw [exec_releaseWrite_of_calls hcall, if_neg hwriter]
  have hexec := exec_releaseWrite_of_calls hcall
  rw [if_pos hwriter] at hexec
  generalize hv : forgetWriter (setRole (beginCommand s p false) l p .watcher) l = v at hexec
  have hline : v.line l = { s.line l with
      att := { list := (s.line l).att.list.map fun a => if a.port = p then { a with role := .watcher } else a, leaseTimer := none }
      tx := { (s.line l).tx with drainMark := none } } := by
    rw [← hv, line_forgetWriter, line_setRole]
    rfl
  have hports : ∀ q, v.port q = (beginCommand s p false).port q := by
    rw [← hv]
    exact fun _ => rfl
  have hwriter' : (v.line l).writer = none := by
    rw [← writer_demote htable hwriter, hline, line_setRole]
    rfl
  have hattached : (v.line l).attachment p = some { a with role := .watcher } := by
    have hrole := attachment_setRole s l p p .watcher
    rw [ha, Option.map_some, if_pos (by simpa using List.find?_some ha)] at hrole
    rw [← hrole, hline, line_setRole]
    rfl
  have hlogs : LogsEvent s (event v l .writerSet [0xFF, 3]) l .writerSet [0xFF, 3] :=
    (logsEvent_event v l .writerSet [0xFF, 3]).congr (by rw [hline]; exact ⟨rfl, rfl, rfl⟩) (by rw [← hv]; rfl) rfl rfl
  have hrecorded := event_recorded (l := l) v .writerSet [0xFF, 3]
  have hcauses := event_causesKept (l := l) v .writerSet [0xFF, 3]
  generalize event v l .writerSet [0xFF, 3] = w at *
  obtain ⟨g, hg, hatt⟩ := hrecorded.attachment p
  rw [hattached] at hatt
  have hblock := hrecorded.sameBlock p
  rw [hports, port_beginCommand_self] at hblock
  have hanswered := answered_prepare hblock {}
  refine ⟨_, g { a with role := .watcher }, hexec, hatt, (hg _).standing, (hg _).latch, hrecorded.writer.trans hwriter',
    hrecorded.leaseTimer.trans (by rw [hline]), hasControl_of_none (hrecorded.writer.trans hwriter'), hlogs,
    hrecorded.drainMark.trans (by rw [hline]), hrecorded.queue.trans (by rw [hline]), hrecorded.waiting.trans (by rw [hline]),
    fun q => ?_, hanswered, exec_abort_of_answered hanswered hcall.1.1⟩
  rw [causes_prepare, hcauses.filter_kind (fun _ => Cause.apart_of_writeLost) q, hports, causes_beginCommand]

/-! ## The end of a wait (R140, R142) -/

theorem endWaiting_of_send {q : PortId} {rest : List Byte} (code : ErrorCode) (h : (s.line l).tx.waiting = some (.send q rest)) :
    endWaiting s l code = finishWaiting s l q { code := code, count := some (countHalf rest.length) } := by
  rw [endWaiting, h]
  rfl

theorem timebase_endWaiting (s : State) (l : LineId) (code : ErrorCode) : (endWaiting s l code).timebase = s.timebase := by
  unfold endWaiting
  split <;> rfl

/-- The port whose SEND or SEND BREAK ended is idle, with the code. -/
theorem port_endWaiting_of_some {w : Waiting} (code : ErrorCode) (h : (s.line l).tx.waiting = some w) :
    ((endWaiting s l code).port w.port).idle = true ∧ ((endWaiting s l code).port w.port).error = code := by
  obtain ⟨r, hr, heq⟩ := endWaiting_of_some code h
  rw [heq, port_finishWaiting, if_pos rfl]
  exact ⟨rfl, hr⟩

theorem count_endWaiting_of_send {q : PortId} {rest : List Byte} (code : ErrorCode)
    (h : (s.line l).tx.waiting = some (.send q rest)) :
    ((endWaiting s l code).port q).count = BitVec.ofNat 16 (min rest.length 65535) := by
  rw [endWaiting_of_send code h, port_finishWaiting, if_pos rfl]
  rfl

/-! ## LEASE EXPIRY (R111, R112) -/

/-- The line of a writer that loses its role at the end of its lease, before WRITER SET. -/
def leaseLost (s : State) (l : LineId) (w : PortId) : State :=
  forgetWriter (endWaiting ((setRole s l w .watcher).post w .writeLost l 4) l .writeLost) l

theorem exec_leaseExpiry_of_due {w : PortId} (hwriter : (s.line l).writer = some w) (hdue : timerDue (s.line l).att.leaseTimer = true) :
    exec (.leaseExpiry l) s = .next (event (leaseLost s l w) l .writerSet [0xFF, 4]) := by
  change execLeaseExpiry l s = _
  rw [execLeaseExpiry, hwriter]
  dsimp only
  rw [if_pos hdue]
  rfl

theorem line_leaseLost (s : State) (l : LineId) (w : PortId) : (leaseLost s l w).line l = { s.line l with
      att :=
        { list := (s.line l).att.list.map fun a => if a.port = w then { a with role := .watcher } else a, leaseTimer := none }
      tx := { (s.line l).tx with waiting := none, drainMark := none } } := by
  rw [leaseLost, line_forgetWriter, line_endWaiting, if_pos rfl, State.line_post, line_setRole]

/-- Settles O32: the role, the mark and the wait go before WRITER SET, whose record leaves them. -/
theorem leaseExpiryTakesTheRole : Obligations.LeaseExpiryTakesTheRole := by
  intro s l w htable hagrees hwriter hdue
  have hline := line_leaseLost s l w
  have hposted : ∃ c ∈ ((leaseLost s l w).port w).causes, c.kind = .writeLost ∧ c.line = l := by
    have hcauses : ((leaseLost s l w).port w).causes = (((setRole s l w .watcher).post w .writeLost l 4).port w).causes :=
      causes_endWaiting _ l .writeLost w
    rw [hcauses]
    exact State.exists_cause_post _ w .writeLost l 4
  have hwaiting : (((setRole s l w .watcher).post w .writeLost l 4).line l).tx.waiting = (s.line l).tx.waiting := by
    rw [State.line_post, line_setRole]
  have hends : ∀ x, (s.line l).tx.waiting = some x → ((leaseLost s l w).port w).idle = true
      ∧ ((leaseLost s l w).port w).error = .writeLost := by
    intro x hx
    have hport : w = x.port := Option.some.inj (hwriter.symm.trans (hagrees.2 l x hx))
    rw [hport]
    exact port_endWaiting_of_some .writeLost (hport ▸ hwaiting.trans hx)
  have hcount : ∀ r, (s.line l).tx.waiting = some (.send w r) →
      ((leaseLost s l w).port w).count = BitVec.ofNat 16 (min r.length 65535) :=
    fun r hr => count_endWaiting_of_send .writeLost (hwaiting.trans hr)
  have hwriter' : ((leaseLost s l w).line l).writer = none := by
    rw [← writer_demote htable hwriter, hline, line_setRole]
    rfl
  have hlogs : LogsEvent s (event (leaseLost s l w) l .writerSet [0xFF, 4]) l .writerSet [0xFF, 4] :=
    (logsEvent_event (leaseLost s l w) l .writerSet [0xFF, 4]).congr (by rw [hline]; exact ⟨rfl, rfl, rfl⟩)
      (timebase_endWaiting _ l .writeLost) rfl rfl
  have hrecorded := event_recorded (l := l) (leaseLost s l w) .writerSet [0xFF, 4]
  have hcauses := event_causesKept (l := l) (leaseLost s l w) .writerSet [0xFF, 4]
  refine ⟨_, exec_leaseExpiry_of_due hwriter hdue, ?_⟩
  generalize event (leaseLost s l w) l .writerSet [0xFF, 4] = t at *
  generalize leaseLost s l w = v at *
  have hblock : t.port w = { v.port w with causes := (t.port w).causes } := hrecorded.sameBlock w
  refine ⟨hrecorded.writer.trans hwriter', hrecorded.leaseTimer.trans (by rw [hline]), hrecorded.standing.trans (by rw [hline]),
    hcauses.exists_cause (fun _ => Cause.apart_of_writeLost) hposted, hrecorded.queue.trans (by rw [hline]),
    hrecorded.drainMark.trans (by rw [hline]), hrecorded.waiting.trans (by rw [hline]), fun x hx => ?_, fun r hr => ?_,
    hrecorded.io.trans (by rw [hline]), hrecorded.cond.trans (by rw [hline]), hlogs⟩
  · rw [hblock]
    exact hends x hx
  · rw [hblock]
    exact hcount r hr

/-! ## DETACH (R108) -/

/-- A port that has taken a DETACH and holds no cause for the line. -/
def dropCauses (s : State) (l : LineId) (p : PortId) : State :=
  (beginCommand s p false).modPort p fun x => { x with causes := x.causes.filter fun c => !decide (c.line = l) }

theorem exec_detach_of_calls (hcall : s.calls p l) : exec (.detach p) s = .next
    (match (s.line l).attachment p with
    | none => s.answer p false { code := .notAttached }
    | some _ => prepare (removeAttachment (dropCauses s l p) l p .detach) p {}) := by
  change execDetach p s = _
  rw [execDetach, lineCommand_of_calls hcall false, beginCommand_line]
  cases (s.line l).attachment p with
  | none =>
    dsimp only
    rw [failCheck_beginCommand]
  | some a => rfl

theorem line_removed (s : State) (l : LineId) (p : PortId) : (removed s l p).line l = { s.line l with
    att :=
      { list := (s.line l).att.list.filter fun a => !decide (a.port = p)
        leaseTimer := if (s.line l).writer = some p then none else (s.line l).att.leaseTimer }
    tx := { (s.line l).tx with drainMark := if (s.line l).writer = some p then none else (s.line l).tx.drainMark } } := by
  have hdropped : (dropAttachment s l p).line l = { s.line l with att := { (s.line l).att with
      list := (s.line l).att.list.filter fun a => !decide (a.port = p) } } := State.line_modLine_self s l _
  rw [removed]
  split
  · rw [line_forgetWriter, hdropped]
  · exact hdropped

theorem timebase_removed (s : State) (l : LineId) (p : PortId) : (removed s l p).timebase = s.timebase := by
  unfold removed
  split <;> rfl

/-- WRITER SET, where the writer leaves, and the evaluation, in terms of the line without the attachment. -/
theorem removeAttachment_eq_removed (s : State) (l : LineId) (p : PortId) (reason : WriterReason) :
    removeAttachment s l p reason = askEvaluation
      (if (s.line l).writer = some p then event (removed s l p) l .writerSet [0xFF, reason.code] else removed s l p) l := by
  rw [removeAttachment_eq, removed]
  by_cases h : (s.line l).writer = some p
  · rw [if_pos h, if_pos h, if_pos h]
    rfl
  · rw [if_neg h, if_neg h, if_neg h]

theorem removeAttachment_recorded (s : State) (p : PortId) (reason : WriterReason) :
    Recorded l (removed s l p) (removeAttachment s l p reason) := by
  rw [removeAttachment_eq_removed]
  split
  · exact (event_recorded _ _ _).trans (askEvaluation_recorded _)
  · exact askEvaluation_recorded _

/-- An evaluation after an event finds nothing to do where the hold has nothing to do. -/
theorem askEvaluation_event_of_restful (h : (s.line l).restful) (e : Event) (argument : List Byte) :
    askEvaluation (event s l e argument) l = event s l e argument :=
  askEvaluation_of_restful ((event_holdKept h e argument).restful h) (settle_unmarked _)

/-- Settles O30: the attachment and the causes go before WRITER SET and the evaluation, which leave the others. -/
theorem detachRemovesTheAttachment : Obligations.DetachRemovesTheAttachment := by
  intro s p l hcall
  have hexec := exec_detach_of_calls hcall
  refine ⟨fun hnone => ?_, fun hsome => ?_⟩
  · rw [hnone] at hexec
    exact hexec
  obtain ⟨a, ha⟩ := Option.ne_none_iff_exists'.mp hsome
  rw [ha] at hexec
  have hport : (dropCauses s l p).port p = { (s.port p).begun false with
      causes := (s.port p).causes.filter fun c => !decide (c.line = l) } := by
    rw [dropCauses, State.port_modPort_self, port_beginCommand_self]
    rfl
  have hline : (dropCauses s l p).line l = s.line l := rfl
  have htime : (dropCauses s l p).timebase = s.timebase := rfl
  generalize dropCauses s l p = v at *
  have hremoved := line_removed v l p
  rw [hline] at hremoved
  have hrecorded := removeAttachment_recorded (l := l) v p .detach
  have hcauses := removeAttachment_causes v l p .detach
  have hblock := hrecorded.sameBlock p
  have hlog : (s.line l).SameLog ((removed v l p).line l) := by
    rw [hremoved]
    exact ⟨rfl, rfl, rfl⟩
  have hrestful : (s.line l).noHold → ((removed v l p).line l).restful := by
    intro hnohold
    rw [hremoved]
    exact hnohold.restful
  have hlist : ((removed v l p).line l).att.list = ((dropAttachment s l p).line l).att.list := by
    rw [hremoved, list_dropAttachment]
  have htable : AttachmentTable s → (s.line l).writer = some p → ((removed v l p).line l).writer = none :=
    fun htable hwriter => (Line.writer_congr hlist).trans (writer_dropAttachment_self htable hwriter)
  have hnone : ((removed v l p).line l).attachment p = none :=
    (Line.attachment_congr hlist p).trans (attachment_dropAttachment_self s l p)
  have hmade := removeAttachment_eq_removed v l p .detach
  rw [hline] at hmade
  have hevent : (s.line l).writer = some p → (s.line l).noHold →
      LogsEvent s (removeAttachment v l p .detach) l .writerSet [0xFF, 5] := by
    intro hwriter hnohold
    rw [hmade, if_pos hwriter, askEvaluation_event_of_restful (hrestful hnohold)]
    exact (logsEvent_event _ l .writerSet [0xFF, 5]).congr hlog ((timebase_removed v l p).trans htime) rfl rfl
  have hkept : (s.line l).writer ≠ some p → (s.line l).noHold → MarksClear s →
      (removeAttachment v l p .detach).line l = (removed v l p).line l := by
    intro hwriter hnohold hmarks
    rw [hmade, if_neg hwriter, askEvaluation_of_restful (hrestful hnohold) (hlog.unmarked.mpr (hmarks l))]
  have hports : (removed v l p).port p = v.port p := by
    rw [removed]
    split <;> rfl
  rw [hports, hport] at hblock
  rw [hport] at hcauses
  generalize removeAttachment v l p .detach = t at *
  generalize removed v l p = r at *
  obtain ⟨g, -, hatt⟩ := hrecorded.attachment p
  rw [hnone] at hatt
  refine ⟨_, hexec, hatt, hrecorded.standing.trans ?_, ?_, answered_prepare (hblock.trans rfl) {},
    hrecorded.queue.trans (by rw [hremoved]), hrecorded.io.trans (by rw [hremoved]), hrecorded.cond.trans (by rw [hremoved]),
    fun hwriter => ⟨hrecorded.leaseTimer.trans ?_, hrecorded.drainMark.trans ?_, fun htab => hrecorded.writer.trans (htable htab hwriter),
      hevent hwriter⟩,
    fun hwriter => ⟨hrecorded.leaseTimer.trans ?_, fun hnohold hmarks => ?_⟩⟩
  · rw [hremoved]
    simp only [decide_not]
  · rw [causes_prepare, hcauses]
    simp only [decide_not]
  · rw [hremoved, if_pos hwriter]
  · rw [hremoved]
    exact if_pos hwriter
  · rw [hremoved, if_neg hwriter]
  · have hsame := hkept hwriter hnohold hmarks
    rw [hremoved] at hsame
    exact ⟨(congrArg Line.cap hsame :), (congrArg Line.pool hsame :)⟩

end Sys2Proof.Machine
end

section
/-! Proofs: what keeps the VALUE of a port, READ TIME, and PORT RESET. -/

namespace Sys2Proof.Machine

open Host

variable {l : LineId} {s t u : State} {p : PortId}

/-! ## VALUE kept (R6, R178) -/

/-- A port's VALUE field stays. -/
def ValueKept (p : PortId) (s t : State) : Prop := (t.port p).value = (s.port p).value

namespace ValueKept

theorem refl (p : PortId) (s : State) : ValueKept p s s := rfl

theorem trans (h : ValueKept p s t) (k : ValueKept p t u) : ValueKept p s u := Eq.trans k h

theorem of_sameBlock (h : (s.port p).SameBlock (t.port p)) : ValueKept p s t := by
  rw [ValueKept, h]

theorem of_onLine (h : OnLine l s t) : ValueKept p s t := of_sameBlock (h.sameBlock p)

theorem of_sound (h : Sound l s t) : ValueKept p s t := of_onLine h.calm.toOnLine

theorem of_recorded (h : Recorded l s t) : ValueKept p s t := of_sameBlock (h.sameBlock p)

theorem modPort (s : State) (q : PortId) (f : Port → Port) (h : ∀ x : Port, (f x).value = x.value) : ValueKept p s (s.modPort q f) := by
  rw [ValueKept, State.port_modPort]
  split
  · rename_i e
    rw [e]
    exact h _
  · rfl

theorem prepare (s : State) (q : PortId) (r : Results) : ValueKept p s (prepare s q r) := .modPort s q _ fun _ => rfl

theorem failCheck (s : State) (q : PortId) (code : ErrorCode) : ValueKept p s (failCheck s q code) := .prepare s q _

theorem complete (s : State) (q : PortId) {r : Results} (h : r.value = none) : ValueKept p s (completeCommand s q r) :=
  .modPort s q _ fun x => by
    change r.value.getD x.value = x.value
    rw [h]
    rfl

theorem beginFill (s : State) (q : PortId) (c : DataIn) : ValueKept p s (beginFill s q c) := .modPort s q _ fun _ => rfl

theorem beginData (s : State) (q : PortId) (c : DataOut) (n : Nat) : ValueKept p s (beginData s q c n) := .modPort s q _ fun _ => rfl

theorem endWaiting (s : State) (l : LineId) (code : ErrorCode) : ValueKept p s (endWaiting s l code) := by
  unfold Machine.endWaiting
  split
  · exact refl p s
  · exact .complete (s.modTx l _) _ rfl
  · exact .complete (s.modTx l _) _ rfl

theorem placeMarker (s : State) (l : LineId) : ValueKept p s (placeMarker s l) := by
  unfold Machine.placeMarker
  split
  · split
    · rename_i q duration _ _
      have hplaced : ValueKept p s ((placeEntries s l q [.marker duration q]).modTx l fun x => { x with waiting := none }) := rfl
      have hdone := hplaced.trans (.complete (r := { code := .none }) _ q rfl)
      exact hdone.trans (.of_sound (kickTransmitter_sound (l := l) _))
    · exact refl p s
  · exact refl p s
  · exact refl p s

theorem sound_prepare (h : Sound l s t) (r : Results) : ValueKept p s (Machine.prepare t p r) := (of_sound h).trans (.prepare t p r)

theorem takeCommand {dataIn : Bool} {act : State → State} (h : ∀ v, ValueKept p v (act v)) :
    ValueKept p s (takeCommand s p dataIn act) := by
  unfold Machine.takeCommand
  split
  · exact refl p s
  · split
    · have hbegun : ValueKept p s (beginCommand s p dataIn) := .modPort s p _ fun _ => rfl
      exact hbegun.trans (h _)
    · exact .modPort s p _ fun _ => rfl

theorem lineCommand {dataIn : Bool} {act : State → LineId → State} (h : ∀ v l, ValueKept p v (act v l)) :
    ValueKept p s (Machine.takeCommand s p dataIn fun v => withLine v p (act v)) := .takeCommand fun v => by
  unfold withLine
  split
  · exact .failCheck v p _
  · exact h v _

theorem controlCommand {dataIn : Bool} {act : State → LineId → State} (h : ∀ v l, ValueKept p v (act v l)) :
    ValueKept p s (Machine.takeCommand s p dataIn fun v => withControl v p (act v)) := .lineCommand fun v l => by
  split
  · exact h v l
  · exact .failCheck v p _

end ValueKept

/-- A command that keeps the VALUE of a port. -/
def KeepsValue (p : PortId) (c : Instr) : Prop := ∀ s t, exec c s = .next t → ValueKept p s t

theorem KeepsValue.of_next {c : Instr} {f : State → State} (hexec : ∀ s, exec c s = .next (f s)) (h : ∀ s, ValueKept p s (f s)) :
    KeepsValue p c := fun s t ht => by
  obtain rfl := Outcome.next.inj ((hexec s).symm.trans ht)
  exact h s

/-! ### The commands that a port takes -/

theorem grantRole_valueKept (s : State) (l : LineId) (q : PortId) (flush : Bool) : ValueKept p s (grantRole s l q flush) := by
  unfold grantRole
  split
  · have hrole : ValueKept p s (dropDrainMark (setRole s l q .writer) l) := rfl
    exact (hrole.trans (.of_recorded (event_recorded (l := l) _ _ _))).trans (.of_sound (restartLease_sound _))
  · split
    · exact .of_sound (restartLease_sound s)
    · rename_i w _ _
      have htaken : ValueKept p s (takeRole s l w q) := .of_onLine (onLine_takeRole s l w q)
      have hended := ((htaken.trans (.of_recorded (event_recorded (l := l) _ .writerSet [portByte (some q), WriterReason.take.code]))).trans
        (.of_sound (dropDrainMark_sound (l := l) _))).trans (.endWaiting _ l .writeLost)
      dsimp only
      split
      · exact (hended.trans (.of_sound (emptyQueue_sound (l := l) _))).trans (.of_sound (restartLease_sound (l := l) _))
      · exact hended.trans (.of_sound (restartLease_sound (l := l) _))

theorem attachOn_valueKept (s : State) (l : LineId) (q : PortId) (a : AttachArgs) : ValueKept p s (attachOn s l q a) := by
  obtain ⟨-, -, -, honline, -⟩ := attachOrUpdate_lawful s l q a
  have hmade : ValueKept p s (attachOrUpdate s l q a) := .of_onLine honline
  have hcaused : ∀ v : State, ValueKept p v (askEvaluation (attachCauses v l q) l) := fun v =>
    (ValueKept.of_onLine (attachCauses_calm v q).toOnLine).trans (.of_recorded (askEvaluation_recorded _))
  unfold attachOn
  split
  · exact (hmade.trans (grantRole_valueKept _ l q _)).trans (hcaused _)
  · exact hmade.trans (hcaused _)

theorem keepsValue_nextCause (p : PortId) : KeepsValue p (.nextCause p) :=
  .of_next (fun _ => rfl) fun s => .takeCommand fun v => by
    split
    · exact .prepare v p _
    · rename_i c rest _
      have hcause : ValueKept p v (if removedByReport (v.line c.line) p c.kind then v.modPort p fun x => { x with causes := rest } else v) := by
        split
        · exact .modPort v p _ fun _ => rfl
        · exact .refl p v
      exact hcause.trans (.prepare _ p _)

theorem keepsValue_readHistory (p : PortId) : KeepsValue p (.readHistory p) :=
  .of_next (fun _ => rfl) fun s => .lineCommand fun v l => by
    dsimp only
    split
    · exact .failCheck v p _
    · split
      · exact .prepare v p _
      · exact .complete v p rfl
      · split
        · exact .complete v p rfl
        · have hsettled : ∀ f : State, ValueKept p v f → ValueKept p v (settle f l) := fun f h => h.trans (.of_recorded (settle_recorded f))
          refine (hsettled _ ?_).trans (.beginFill _ p _)
          split
          · exact .of_onLine (flushOpen_calm v).toOnLine
          · exact .refl p v

theorem keepsValue_lineStatus (p : PortId) : KeepsValue p (.lineStatus p) :=
  .of_next (fun _ => rfl) fun _ => .lineCommand fun v _ => by
    split
    · exact .beginFill v p _
    · split
      · exact .beginFill v p _
      · exact .failCheck v p _

theorem keepsValue_seek (p : PortId) : KeepsValue p (.seek p) :=
  .of_next (fun _ => rfl) fun _ => .lineCommand fun v l => by
    split
    · exact .failCheck v p _
    · dsimp only
      split
      · exact .failCheck v p _
      · exact .sound_prepare (seek_sound v p _) _

theorem keepsValue_attach (p : PortId) : KeepsValue p (.attach p) :=
  .of_next (fun _ => rfl) fun _ => .lineCommand fun v l => by
    dsimp only
    split
    · exact .failCheck v p _
    · split
      · exact .failCheck v p _
      · split
        · exact .prepare v p _
        · exact (attachOn_valueKept v l p _).trans (.prepare _ p _)

theorem keepsValue_detach (p : PortId) : KeepsValue p (.detach p) :=
  .of_next (fun _ => rfl) fun _ => .lineCommand fun v l => by
    split
    · exact .failCheck v p _
    · have hcauses : ValueKept p v (v.modPort p fun x => { x with causes := x.causes.filter fun c => !decide (c.line = l) }) :=
        .modPort v p _ fun _ => rfl
      exact (hcauses.trans (.of_onLine (removeAttachment_onLine _ l p .detach))).trans (.prepare _ p _)

theorem keepsValue_releaseWrite (p : PortId) : KeepsValue p (.releaseWrite p) :=
  .of_next (fun _ => rfl) fun _ => .lineCommand fun v l => by
    split
    · have hforgot : ValueKept p v (forgetWriter (setRole v l p .watcher) l) := rfl
      exact (hforgot.trans (.of_recorded (event_recorded (l := l) _ .writerSet [portByte none, WriterReason.release.code]))).trans
        (.prepare _ p _)
    · exact .failCheck v p _

theorem keepsValue_clearCondition (p : PortId) : KeepsValue p (.clearCondition p) :=
  .of_next (fun _ => rfl) fun _ => .lineCommand fun v l => by
    split
    · exact .failCheck v p _
    · exact .sound_prepare (clearLatch_sound v p) _

theorem keepsValue_rearm (p : PortId) : KeepsValue p (.rearm p) :=
  .of_next (fun _ => rfl) fun _ => .lineCommand fun v l => by
    split
    · exact .failCheck v p _
    · rename_i a _
      split
      · have hrearmed : ValueKept p v (if 0 < (v.line l).unread a then
            (v.modAttachment l p fun x => { x with mode := .first (decide ((v.line l).unread a = 0)) }).post p .data l 0
            else v.modAttachment l p fun x => { x with mode := .first (decide ((v.line l).unread a = 0)) }) := by
          split
          · exact .of_sameBlock (State.sameBlock_post _ p .data l 0)
          · exact .refl p v
        exact hrearmed.trans (.prepare _ p _)
      · exact .failCheck v p _
      · exact .failCheck v p _

theorem keepsValue_send (p : PortId) : KeepsValue p (.send p) :=
  .of_next (fun _ => rfl) fun _ => .lineCommand fun v l => by
    dsimp only
    split
    · exact .failCheck v p _
    split
    · exact .failCheck v p _
    split
    · exact .failCheck v p _
    · have hunposted : ValueKept p v ((restartLease v l).unpost p .drained l) :=
        .of_sameBlock (State.sameBlock_unpost (restartLease v l) p .drained l)
      exact hunposted.trans (.beginData _ p _ _)

theorem keepsValue_sendBreak (p : PortId) : KeepsValue p (.sendBreak p) :=
  .of_next (fun _ => rfl) fun _ => .lineCommand fun v l => by
    dsimp only
    split
    · exact .failCheck v p _
    split
    · exact .failCheck v p _
    split
    · exact .failCheck v p _
    · have hwaits : ∀ w : State, ValueKept p w (w.modPort p fun x => { x with phase := .waiting l }) :=
        fun w => .modPort w p _ fun _ => rfl
      exact (hwaits ((restartLease v l).modTx l _)).trans (.placeMarker _ l)

theorem keepsValue_resetLine (p : PortId) : KeepsValue p (.resetLine p) :=
  .of_next (fun _ => rfl) fun _ => .controlCommand fun v l => by
    dsimp only
    split
    · exact .failCheck v p _
    · have hflow : ∀ w : State, Sound l w (if decide ((v.line l).hold.state = .held) = true then placeFlow w l .xon else w) := by
        intro w
        split
        · exact placeFlow_sound w .xon
        · exact .refl l w
      exact .sound_prepare ((((((resetTransmit_sound v).trans (tellHold_sound _)).trans (hflow _)).trans
        (resetReceive_sound _)).trans (eachLatch_sound .lineReset _)).trans (eventWithHoldEnd_sound _ _ _ _)) _

theorem keepsValue_enterHunt (p : PortId) : KeepsValue p (.enterHunt p) :=
  .of_next (fun _ => rfl) fun _ => .controlCommand fun v l => by
    split
    · exact .failCheck v p _
    · exact .sound_prepare (Sound.modCond (l := l) v _) _
    all_goals exact .sound_prepare (enterHuntState_sound v) _

theorem keepsValue_setWatch (p : PortId) : KeepsValue p (.setWatch p) :=
  .of_next (fun _ => rfl) fun _ => .controlCommand fun v _ => by
    split
    · exact .beginData v p _ _
    · exact .failCheck v p _

theorem keepsValue_setQuota (p : PortId) : KeepsValue p (.setQuota p) :=
  .of_next (fun _ => rfl) fun _ => .controlCommand fun v l => by
    dsimp only
    split
    · exact .failCheck v p _
    · exact .sound_prepare (quota_sound v _ _ _) _

theorem keepsValue_clearHistory (p : PortId) : KeepsValue p (.clearHistory p) :=
  .of_next (fun _ => rfl) fun _ => .controlCommand fun v l => by
    split
    · exact .failCheck v p _
    · exact .sound_prepare (clearLog_sound v p) _

theorem keepsValue_freeze (p : PortId) : KeepsValue p (.freeze p) :=
  .of_next (fun _ => rfl) fun _ => .controlCommand fun v l => by
    dsimp only
    split
    · exact .prepare v p _
    · exact .sound_prepare (askEvent_sound v (fun x => { x with frozen := true, freezePending := none }) (fun _ => rfl) .frozen []) _

theorem keepsValue_thaw (p : PortId) : KeepsValue p (.thaw p) :=
  .of_next (fun _ => rfl) fun _ => .controlCommand fun v l => by
    dsimp only
    split
    · exact .prepare v p _
    · exact .sound_prepare (askEvent_sound v
        (fun x => { x with frozen := false, freezePending := none, discardedChars := 0, discardedEvents := 0 }) (fun _ => rfl)
        .thawed _) _

/-- Of the commands that a port takes, READ NEW alone can write VALUE before COMPLETION (R123, log 7). -/
theorem keepsValue_of_codePort {c : Instr} (hc : c.codePort? = some p) (hread : c ≠ .readNew p) : KeepsValue p c := by
  cases c <;> cases hc
  case nextCause => exact keepsValue_nextCause p
  case readTime => exact .of_next (fun _ => rfl) fun _ => .takeCommand fun v => .prepare v p _
  case attach => exact keepsValue_attach p
  case detach => exact keepsValue_detach p
  case releaseWrite => exact keepsValue_releaseWrite p
  case readNew => exact absurd rfl hread
  case readHistory => exact keepsValue_readHistory p
  case countNew => exact .of_next (fun _ => rfl) fun _ => .lineCommand fun v _ => .prepare v p _
  case seek => exact keepsValue_seek p
  case lineStatus => exact keepsValue_lineStatus p
  case send => exact keepsValue_send p
  case sendBreak => exact keepsValue_sendBreak p
  case resetLine => exact keepsValue_resetLine p
  case enterHunt => exact keepsValue_enterHunt p
  case setLine => exact .of_next (fun _ => rfl) fun _ => .controlCommand fun v _ => .beginData v p _ _
  case setWatch => exact keepsValue_setWatch p
  case setQuota => exact keepsValue_setQuota p
  case clearHistory => exact keepsValue_clearHistory p
  case freeze => exact keepsValue_freeze p
  case thaw => exact keepsValue_thaw p
  case clearCondition => exact keepsValue_clearCondition p
  case rearm => exact keepsValue_rearm p
  case badCommand => exact .of_next (fun _ => rfl) fun _ => .takeCommand fun v => .failCheck v p _

/-! ## PORT RESET (R113, R180) -/

/-- A port reset on a line leaves the port's own block and causes. -/
theorem port_resetOnLine (s : State) (l : LineId) (p : PortId) : (resetOnLine p s l).port p = s.port p := by
  unfold resetOnLine
  split
  · have hblock := (removeAttachment_onLine s l p .portReset).sameBlock p
    rw [Port.SameBlock, removeAttachment_causes] at hblock
    exact hblock
  · rfl

theorem port_resetOnLines (p : PortId) (ls : List LineId) : ∀ s : State, (ls.foldl (resetOnLine p) s).port p = s.port p := by
  induction ls with
  | nil => exact fun _ => rfl
  | cons l ls ih => exact fun s => (ih _).trans (port_resetOnLine s l p)

theorem attachment_removeAttachment (s : State) (l : LineId) (p : PortId) (reason : WriterReason) :
    ((removeAttachment s l p reason).line l).attachment p = none := by
  have hlist : ((removed s l p).line l).att.list = ((dropAttachment s l p).line l).att.list := by
    rw [line_removed, list_dropAttachment]
  obtain ⟨g, -, hatt⟩ := (removeAttachment_recorded (l := l) s p reason).attachment p
  rw [hatt, Line.attachment_congr hlist, attachment_dropAttachment_self]
  rfl

theorem attachment_resetOnLine (s : State) (l : LineId) (p : PortId) : ((resetOnLine p s l).line l).attachment p = none := by
  unfold resetOnLine
  split
  · exact attachment_removeAttachment s l p .portReset
  · rename_i h
    exact Option.not_isSome_iff_eq_none.mp h

/-- Line after line a port reset takes the port's attachments, and gives none back. -/
theorem attachment_resetOnLines (p : PortId) (l : LineId) (ls : List LineId) : ∀ s : State,
    (l ∈ ls ∨ (s.line l).attachment p = none) → ((ls.foldl (resetOnLine p) s).line l).attachment p = none := by
  induction ls with
  | nil => exact fun s h => h.resolve_left List.not_mem_nil
  | cons k ks ih =>
    intro s h
    refine ih _ ?_
    by_cases hkl : l = k
    · rw [hkl]
      exact .inr (attachment_resetOnLine s k p)
    · refine h.imp (fun hmem => (List.mem_cons.mp hmem).resolve_left hkl) fun hnone => ?_
      have hother : (resetOnLine p s k).line l = s.line l := by
        unfold resetOnLine
        split
        · exact (removeAttachment_onLine s k p .portReset).other l hkl
        · rfl
      rw [hother]
      exact hnone

/-- The command in flight at a port reset ends with NONE on an idle port and with ABORTED otherwise. -/
theorem port_resetCommand (h : WaitingAgrees s) (p : PortId) : ∃ r : Results, (resetCommand s p).port p = (s.port p).complete r
    ∧ r.code = if (s.port p).idle then .none else .aborted := by
  have completes : ∀ r : Results, (completeCommand s p r).port p = (s.port p).complete r := port_completeCommand_self s p
  rw [resetCommand]
  split <;> rename_i hphase
  case h_1 => exact ⟨_, completes _, by rw [Port.idle_iff.mpr hphase]; rfl⟩
  case h_8 l =>
    obtain ⟨w, hw, hport⟩ := (h.1 p l).mp hphase
    obtain ⟨r, hr, hended⟩ := endWaiting_of_some .aborted hw
    refine ⟨r, ?_, ?_⟩
    · rw [hended, hport, port_finishWaiting, if_pos rfl]
    · rw [hr, Port.idle, Port.busy, hphase]
      rfl
  all_goals exact ⟨_, completes _, by rw [Port.idle, Port.busy, Port.dataReady, hphase]; rfl⟩

theorem exec_portReset_of_clear (hreset : (s.port p).resetAsserted = false) : exec (.portReset p) s = .next
    ((List.finRange 16).foldl (resetOnLine p)
      ((resetCommand s p).modPort p fun x => { x with collision := false, causes := [], resetAsserted := true })) := by
  change execPortReset p s = _
  rw [execPortReset, hreset, if_neg Bool.false_ne_true]

/-- Settles O6: the lines lose the port's attachments one after the other and leave its block, which the reset has cleared. -/
theorem portResetClearsThePort : Obligations.PortResetClearsThePort := by
  refine ⟨fun s p hagrees hreset => ?_, fun s p => ⟨fun hreset => ?_, rfl⟩⟩
  · refine ⟨_, exec_portReset_of_clear hreset, ?_⟩
    obtain ⟨r, hport, hcode⟩ := port_resetCommand hagrees p
    generalize resetCommand s p = v at hport
    have hcleared : ((List.finRange 16).foldl (resetOnLine p)
        (v.modPort p fun x => { x with collision := false, causes := [], resetAsserted := true })).port p
        = { (s.port p).complete r with collision := false, causes := [], resetAsserted := true } := by
      rw [port_resetOnLines, State.port_modPort_self, hport]
    have hnone : ∀ l, (((List.finRange 16).foldl (resetOnLine p)
        (v.modPort p fun x => { x with collision := false, causes := [], resetAsserted := true })).line l).attachment p = none :=
      fun l => attachment_resetOnLines p l _ _ (.inl (List.mem_finRange l))
    generalize (List.finRange 16).foldl (resetOnLine p)
      (v.modPort p fun x => { x with collision := false, causes := [], resetAsserted := true }) = t at hcleared hnone
    rw [hcleared]
    refine ⟨rfl, rfl, rfl, rfl, rfl, rfl, rfl, rfl, hcode, ?_,
      fun l => ⟨hnone l, fun hwriter => Line.attachment_of_writer hwriter (hnone l)⟩⟩
    change decide (r.code ≠ .none) = _
    rw [hcode]
    cases (s.port p).idle <;> rfl
  · change execPortReset p s = _
    rw [execPortReset, hreset, if_pos rfl]

/-! ## READ TIME (R6) -/

/-- The commands of a port: the codes it takes, and its own bytes, fills, completions and resets. -/
theorem cases_of_port {c : Instr} (hport : c.port? = some p) : c.codePort? = some p ∨ c = .abort p
    ∨ (∃ o b, c = .argumentWrite p o b) ∨ c = .portReset p
    ∨ (c = .dataRead p ∨ (∃ b, c = .dataWrite p b) ∨ c = .fillEnd p ∨ c = .completion p ∨ c = .portResetRelease p) := by
  cases c <;> cases hport <;> simp [Instr.codePort?]

theorem storeArgument_value (x : Port) {offset : Nat} (b : Byte) (h : offset < 10 ∨ 13 < offset) :
    (x.storeArgument offset b).value = x.value := by
  unfold Port.storeArgument
  split
  · rfl
  split
  · rfl
  split
  · rfl
  split
  · rfl
  rw [if_neg (by omega)]

/-- An idle port keeps its VALUE under its own transactions, but for READ NEW and a write of VALUE. -/
theorem keepsValue_of_idle {c : Instr} (hidle : (s.port p).idle = true) (hport : c.port? = some p) (hread : c ≠ .readNew p)
    (hwrite : ∀ o b, c = .argumentWrite p o b → o.toNat < 10 ∨ 13 < o.toNat) (hexec : exec c s = .next t) : ValueKept p s t := by
  have hphase := Port.idle_iff.mp hidle
  rcases cases_of_port hport with hcode | rfl | ⟨o, b, rfl⟩ | rfl | hown
  · exact keepsValue_of_codePort hcode hread s t hexec
  · obtain rfl := Outcome.next.inj hexec
    split
    · exact .refl p s
    · rw [abortCommand, hphase]
      exact (ValueKept.complete s p rfl).trans (.modPort _ p _ fun _ => rfl)
  · obtain rfl := Outcome.next.inj hexec
    split
    · exact .refl p s
    · refine .modPort s p _ fun x => ?_
      dsimp only
      split
      · split
        · exact storeArgument_value _ b (hwrite o b rfl)
        · rfl
      · rfl
  · obtain rfl := Outcome.next.inj hexec
    split
    · exact .refl p s
    · rw [ValueKept, port_resetOnLines, State.port_modPort_self, resetCommand, hphase]
      exact ValueKept.complete s p rfl
  · have hsame := exec_sameResults_of_idle hphase hown hexec
    rw [ValueKept, hsame]

/-- Settles O14: VALUE is the timebase at the taking; no step but READ NEW, a write of VALUE or DEVICE RESET writes it on an idle port. -/
theorem readTimeLatchesTheTimebase : Obligations.ReadTimeLatchesTheTimebase := by
  refine ⟨fun s p hready => ?_, fun s p hreset hidle => ?_, fun c s t p hset hagrees hidle hexec hread hreset hwrite => ?_⟩
  · have hexec : exec (.readTime p) s = .next (s.answer p false { value := some s.timebase }) := by
      change execReadTime p s = _
      rw [execReadTime, takeCommand_of_ready hready, prepare_beginCommand]
      rfl
    refine ⟨_, hexec, rfl, ⟨_, exec_completion_answer s p false _, ?_⟩, _, exec_abort_answer hready.1 false _, ?_⟩
    · rw [port_completeCommand_answer]
      exact ⟨rfl, rfl, rfl, rfl, rfl, rfl, rfl, rfl⟩
    · rw [State.port_modPort_self, port_completeCommand_answer]
      exact ⟨rfl, rfl⟩
  · change execReadTime p s = _
    rw [execReadTime, takeCommand_of_not_idle hreset hidle]
  · by_cases hport : c.port? = some p
    · exact keepsValue_of_idle hidle hport hread hwrite hexec
    · exact ValueKept.of_sameBlock (exec_sameBlock hset hreset hexec (State.not_owns_of_idle hagrees hidle hport))

end Sys2Proof.Machine
end

section
/-! Proofs: start points of the transmitter, what they take and what they tell (R51 to R55, R135, R146). -/

namespace Sys2Proof.Machine

open Host

variable {l : LineId} {s t u : State} {p : PortId}

/-! ## The taking of an entry and its drain (R135, R146) -/

theorem testDrain_of_more (h : (s.line l).tx.queue ≠ [] ∨ (s.line l).tx.drainMark = none) : testDrain s l = s := by
  unfold testDrain
  split
  · rename_i hqueue hmark
    rcases h with h | h
    · exact absurd hqueue h
    · rw [h] at hmark
      cases hmark
  · rfl

theorem testDrain_of_last (hqueue : (s.line l).tx.queue = []) (hmark : (s.line l).tx.drainMark = some p) :
    testDrain s l = (s.post p .drained l 0).modTx l fun x => { x with drainMark := none } := by
  rw [testDrain, hqueue, hmark]

theorem line_testDrain (s : State) (l : LineId) : (testDrain s l).line l = { s.line l with tx := { (s.line l).tx with
    drainMark := if (s.line l).tx.queue = [] then none else (s.line l).tx.drainMark } } := by
  by_cases h : (s.line l).tx.queue ≠ [] ∨ (s.line l).tx.drainMark = none
  · rw [testDrain_of_more h]
    split
    · rename_i hqueue
      rw [← h.resolve_left (not_not.mpr hqueue)]
    · rfl
  · obtain ⟨hqueue, hmark⟩ := not_or.mp h
    obtain ⟨p, hp⟩ := Option.ne_none_iff_exists'.mp hmark
    rw [testDrain_of_last (not_not.mp hqueue) hp, State.modTx_eq, State.line_modLine_self, State.line_post, if_pos (not_not.mp hqueue)]

theorem timebase_testDrain (s : State) (l : LineId) : (testDrain s l).timebase = s.timebase := by
  unfold testDrain
  split <;> rfl

theorem exists_drained_testDrain (hqueue : (s.line l).tx.queue = []) (hmark : (s.line l).tx.drainMark = some p) :
    ∃ c ∈ ((testDrain s l).port p).causes, c.kind = .drained ∧ c.line = l := by
  rw [testDrain_of_last hqueue hmark]
  exact State.exists_cause_post s p .drained l 0

/-! ## A start point (R44, R52) -/

/-- The transmitter of a line that takes what is in force, and then its next work. -/
def Line.starting (x : Line) (f : Transmit → Transmit) : Line := { x with tx := f { x.tx with inUse := x.io.inForce.txUse } }

theorem modTx_starting (s : State) (l : LineId) (f : Transmit → Transmit) :
    ((s.modLine l fun x => { x with tx := { x.tx with inUse := x.io.inForce.txUse } }).modTx l f)
      = s.modLine l fun x => x.starting f := by
  rw [State.modTx_eq, State.modLine_modLine]
  rfl

theorem startPoint_of_flow {c : FlowChar} (h : (s.line l).tx.flowSlot = some c) : startPoint s l
    = s.modLine l fun x => x.starting fun y => { y with flowSlot := none, state := .sending c.code } := by
  rw [startPoint, h]
  exact modTx_starting s l _

theorem startPoint_of_pause (hflow : (s.line l).tx.flowSlot = none) (h : (s.line l).tx.pause = true) : startPoint s l
    = s.modLine l fun x => x.starting fun y => { y with state := .paused } := by
  rw [startPoint, hflow, h]
  exact (if_pos rfl).trans (modTx_starting s l fun y => { y with state := .paused })

theorem startPoint_of_empty (hflow : (s.line l).tx.flowSlot = none) (hpause : (s.line l).tx.pause = false)
    (h : (s.line l).tx.queue = []) : startPoint s l = s.modLine l fun x => x.starting fun y => { y with state := .idle } := by
  rw [startPoint, hflow, hpause, h]
  exact (if_neg Bool.false_ne_true).trans (modTx_starting s l fun y => { y with state := .idle })

theorem startPoint_of_character {b : Byte} {rest : List Entry} (hflow : (s.line l).tx.flowSlot = none)
    (hpause : (s.line l).tx.pause = false) (h : (s.line l).tx.queue = .character b :: rest) : startPoint s l
    = testDrain (s.modLine l fun x => x.starting fun y => { y with queue := rest, state := .sending b }) l := by
  rw [startPoint, hflow, hpause, h]
  exact (if_neg Bool.false_ne_true).trans
    (congrArg (testDrain · l) (modTx_starting s l fun y => { y with queue := rest, state := .sending b }))

theorem startPoint_of_marker {d : Nat} {q : PortId} {rest : List Entry} (hflow : (s.line l).tx.flowSlot = none)
    (hpause : (s.line l).tx.pause = false) (h : (s.line l).tx.queue = .marker d q :: rest) : startPoint s l
    = event (testDrain (s.modLine l fun x => x.starting fun y =>
        { y with queue := rest, state := .breaking d (startTimer s.timebase) }) l) l .breakSent [byteOf d, byteOf (d / 256), byteOf q.val] := by
  rw [startPoint, hflow, hpause, h]
  exact (if_neg Bool.false_ne_true).trans (congrArg (fun v => event (testDrain v l) l .breakSent _)
    (modTx_starting s l fun y => { y with queue := rest, state := .breaking d (startTimer s.timebase) }))

/-- An event that brings the transmitter of a line to a start point (R53, R54). -/
def State.starts (s : State) (c : Instr) (l : LineId) : Prop :=
  (c = .pacingGapExpiry l ∧ ∃ d u, (s.line l).tx.state = .gap d u ∧ u.due = true)
    ∨ (c = .breakClosingEnd l ∧ (s.line l).tx.state = .closing)
    ∨ (c = .sendCharacterEnd l ∧ (∃ b, (s.line l).tx.state = .sending b) ∧ (s.line l).io.inForce.pacing = 0)

theorem exec_of_starts {c : Instr} (h : s.starts c l) : exec c s = .next (startPoint s l) := by
  rcases h with ⟨rfl, d, u, hstate, hdue⟩ | ⟨rfl, hstate⟩ | ⟨rfl, ⟨b, hstate⟩, hpacing⟩
  · change execPacingGapExpiry l s = _
    rw [execPacingGapExpiry, hstate]
    exact congrArg Outcome.next (if_pos hdue)
  · change execBreakClosingEnd l s = _
    rw [execBreakClosingEnd, hstate]
  · change execSendCharacterEnd l s = _
    rw [execSendCharacterEnd, hstate]
    exact congrArg Outcome.next (if_pos hpacing)

/-! ### What a start point leaves -/

/-- A line whose transmitter alone changes at a start point, with the settings in force taken and the waiting SEND left. -/
structure Line.Started (x y : Line) : Prop where
  io : y.io = x.io
  cond : y.cond = x.cond
  watch : y.watch = x.watch
  waiting : y.tx.waiting = x.tx.waiting
  inUse : y.tx.inUse = x.io.inForce.txUse

/-- The line of a start point that takes a character. -/
theorem line_takeEntry (s : State) (l : LineId) (rest : List Entry) (state : TxState) :
    (testDrain (s.modLine l fun x => x.starting fun y => { y with queue := rest, state := state }) l).line l
      = { s.line l with tx := { (s.line l).tx with
          inUse := (s.line l).io.inForce.txUse, queue := rest, state := state
          drainMark := if rest = [] then none else (s.line l).tx.drainMark } } := by
  rw [line_testDrain, State.line_modLine_self]
  rfl

theorem timebase_takeEntry (s : State) (l : LineId) (rest : List Entry) (state : TxState) :
    (testDrain (s.modLine l fun x => x.starting fun y => { y with queue := rest, state := state }) l).timebase = s.timebase :=
  timebase_testDrain _ l

/-- BREAK SENT leaves the break that began with it. -/
theorem breakSent_working {d : Nat} {timer : Timer} (h : (s.line l).tx.state = .breaking d timer) (argument : List Byte) :
    ((event s l .breakSent argument).line l).tx.state = .breaking d timer
      ∧ ((event s l .breakSent argument).line l).tx.inUse = (s.line l).tx.inUse := by
  obtain ⟨hstate, huse⟩ := (event_flowed (l := l) s .breakSent argument).working (by rw [h]; rfl)
  exact ⟨hstate.trans h, huse⟩

theorem startPoint_started (s : State) (l : LineId) : (s.line l).Started ((startPoint s l).line l) := by
  cases hflow : (s.line l).tx.flowSlot with
  | some c =>
    rw [startPoint_of_flow hflow, State.line_modLine_self]
    exact ⟨rfl, rfl, rfl, rfl, rfl⟩
  | none =>
    cases hpause : (s.line l).tx.pause with
    | true =>
      rw [startPoint_of_pause hflow hpause, State.line_modLine_self]
      exact ⟨rfl, rfl, rfl, rfl, rfl⟩
    | false =>
      match hqueue : (s.line l).tx.queue with
      | [] =>
        rw [startPoint_of_empty hflow hpause hqueue, State.line_modLine_self]
        exact ⟨rfl, rfl, rfl, rfl, rfl⟩
      | .character b :: rest =>
        rw [startPoint_of_character hflow hpause hqueue, line_takeEntry]
        exact ⟨rfl, rfl, rfl, rfl, rfl⟩
      | .marker d q :: rest =>
        rw [startPoint_of_marker hflow hpause hqueue]
        have hline := line_takeEntry s l rest (.breaking d (startTimer s.timebase))
        generalize testDrain _ l = v at hline
        obtain ⟨-, huse⟩ := breakSent_working (s := v) (l := l) (by rw [hline]) [byteOf d, byteOf (d / 256), byteOf q.val]
        have hrecorded := event_recorded (l := l) v .breakSent [byteOf d, byteOf (d / 256), byteOf q.val]
        exact ⟨hrecorded.io.trans (by rw [hline]), hrecorded.cond.trans (by rw [hline]), hrecorded.watch.trans (by rw [hline]),
          hrecorded.waiting.trans (by rw [hline]), huse.trans (by rw [hline])⟩

/-- Settles O36: one case for each work that a start point takes; the level and the polarity at the pin. -/
theorem aStartPointTakesTheNextWork : Obligations.AStartPointTakesTheNextWork := by
  refine ⟨fun s l c hstarts => ?_, fun inCharacter x => ?_⟩
  · have hstarted := startPoint_started s l
    refine ⟨_, exec_of_starts hstarts, hstarted.inUse, fun f hflow => ?_, fun hflow hpause => ?_, fun hflow hpause hqueue => ?_,
      fun b rest hflow hpause hqueue => ?_, fun d q rest hflow hpause hqueue => ?_, hstarted.io, hstarted.cond, hstarted.watch,
      hstarted.waiting⟩
    · rw [startPoint_of_flow hflow, State.line_modLine_self]
      refine ⟨?_, rfl, rfl, rfl, rfl⟩
      cases f <;> rfl
    · rw [startPoint_of_pause hflow hpause, State.line_modLine_self]
      exact ⟨rfl, rfl, rfl⟩
    · rw [startPoint_of_empty hflow hpause hqueue, State.line_modLine_self]
      exact ⟨rfl, hqueue, rfl⟩
    · rw [startPoint_of_character hflow hpause hqueue, line_takeEntry]
      exact ⟨rfl, rfl, rfl⟩
    · rw [startPoint_of_marker hflow hpause hqueue]
      have hline := line_takeEntry s l rest (.breaking d (startTimer s.timebase))
      have htime := timebase_takeEntry s l rest (.breaking d (startTimer s.timebase))
      generalize testDrain _ l = v at hline htime
      obtain ⟨hstate, -⟩ := breakSent_working (s := v) (l := l) (by rw [hline]) [byteOf d, byteOf (d / 256), byteOf q.val]
      exact ⟨(event_recorded _ _ _).queue.trans (by rw [hline]), fun _ => hstate,
        (logsEvent_event v l .breakSent _).congr (by rw [hline]; exact ⟨rfl, rfl, rfl⟩) htime rfl rfl⟩
  · rw [Line.transmitPinHigh]
    refine ⟨fun hloop => by rw [hloop]; cases x.tx.inUse.inversion <;> rfl, fun hloop => ?_⟩
    rw [hloop, if_neg Bool.false_ne_true]
    refine ⟨fun c hstate => ?_, fun d u hstate => ?_, fun hsending hbreaking => ?_⟩
    · rw [hstate]
      cases inCharacter <;> cases x.tx.inUse.inversion <;> simp [TxState.level]
    · rw [hstate]
      cases x.tx.inUse.inversion <;> rfl
    · cases hstate : x.tx.state with
      | sending c => exact absurd hstate (hsending c)
      | breaking d u => exact absurd hstate (hbreaking d u)
      | idle => cases x.tx.inUse.inversion <;> rfl
      | gap d u => cases x.tx.inUse.inversion <;> rfl
      | closing => cases x.tx.inUse.inversion <;> rfl
      | paused => cases x.tx.inUse.inversion <;> rfl

/-! ## DRAINED (R135, R146) -/

/-- What follows the taking of an entry, and leaves queue, mark and DRAINED causes, tells the drain as the taking does. -/
theorem DrainTold.then {rest : List Entry} (h : DrainTold s t l rest) (hqueue : (u.line l).tx.queue = (t.line l).tx.queue)
    (hmark : (u.line l).tx.drainMark = (t.line l).tx.drainMark) (hcauses : CausesKept Cause.apart t u) : DrainTold s u l rest := by
  obtain ⟨htaken, hlast, hmore⟩ := h
  refine ⟨hqueue.trans htaken, fun p hrest hp => ?_, fun hcase => ?_⟩
  · obtain ⟨hposted, hnone⟩ := hlast p hrest hp
    exact ⟨hcauses.exists_cause (fun _ => Cause.apart_of_drained) hposted, hmark.trans hnone⟩
  · obtain ⟨hkept, hnone⟩ := hmore hcase
    exact ⟨hmark.trans hkept, fun p => (hcauses.filter_kind (fun _ => Cause.apart_of_drained) p).trans (hnone p)⟩

theorem takeEntry_drainTold (s : State) (l : LineId) (rest : List Entry) (state : TxState) : DrainTold s
    (testDrain (s.modLine l fun x => x.starting fun y => { y with queue := rest, state := state }) l) l rest := by
  have hline := line_takeEntry s l rest state
  have hstarting := State.line_modLine_self s l fun x => x.starting fun y => { y with queue := rest, state := state }
  refine ⟨by rw [hline], fun p hrest hp => ⟨?_, ?_⟩, fun hcase => ⟨?_, ?_⟩⟩
  · exact exists_drained_testDrain (by rw [hstarting]; exact hrest) (by rw [hstarting]; exact hp)
  · rw [hline]
    exact if_pos hrest
  · rw [hline]
    dsimp only
    split
    · rename_i hrest
      exact (hcase.resolve_left (not_not.mpr hrest)).symm
    · rfl
  · rw [testDrain_of_more (by rw [hstarting]; exact hcase)]
    exact fun _ => rfl

theorem startPoint_drainTold {e : Entry} {rest : List Entry} (hflow : (s.line l).tx.flowSlot = none)
    (hpause : (s.line l).tx.pause = false) (hqueue : (s.line l).tx.queue = e :: rest) : DrainTold s (startPoint s l) l rest := by
  cases e with
  | character b =>
    rw [startPoint_of_character hflow hpause hqueue]
    exact takeEntry_drainTold s l rest _
  | marker d q =>
    rw [startPoint_of_marker hflow hpause hqueue]
    have htold := takeEntry_drainTold s l rest (.breaking d (startTimer s.timebase))
    generalize testDrain _ l = v at htold
    have hrecorded := event_recorded (l := l) v .breakSent [byteOf d, byteOf (d / 256), byteOf q.val]
    exact htold.then hrecorded.queue hrecorded.drainMark (event_causesKept v _ _)

/-- Settles O37: DRAINED is told by the taking, and BREAK SENT leaves it; the other two ends change the transmitter alone. -/
theorem theEndOfAWorkAtTheTransmitter : Obligations.TheEndOfAWorkAtTheTransmitter := by
  refine ⟨fun s l c e rest hflow hpause hqueue => ⟨startPoint_drainTold hflow hpause hqueue, fun hstarts => ?_⟩,
    fun s l => ⟨fun b hstate hpacing => ?_, fun d u hstate hdue => ?_⟩⟩
  · refine ⟨_, exec_of_starts hstarts, startPoint_drainTold hflow hpause hqueue, fun b he => ?_⟩
    subst he
    have hstarting := State.line_modLine_self s l fun x => x.starting fun y => { y with queue := rest, state := .sending b }
    rw [startPoint_of_character hflow hpause hqueue, line_takeEntry]
    refine ⟨fun hcase => ?_, rfl, rfl⟩
    rw [testDrain_of_more (by rw [hstarting]; exact hcase)]
    rfl
  · have hexec : exec (.sendCharacterEnd l) s = .next (s.modLine l fun x => { x with tx := { x.tx with
        state := .gap x.io.inForce.pacing.toNat (startTimer s.timebase), inUse := x.io.inForce.txUse } }) := by
      change execSendCharacterEnd l s = _
      rw [execSendCharacterEnd, hstate]
      exact congrArg Outcome.next (if_neg hpacing)
    refine ⟨_, hexec, rfl, ?_⟩
    rw [State.line_modLine_self]
    exact ⟨rfl, rfl, rfl, rfl, rfl, rfl⟩
  · have hexec : exec (.breakDurationExpiry l) s = .next (s.modLine l fun x => { x with tx := cutBreak x }) := by
      change execBreakDurationExpiry l s = _
      rw [execBreakDurationExpiry, hstate]
      exact congrArg Outcome.next (if_pos hdue)
    refine ⟨_, hexec, rfl, ?_⟩
    rw [State.line_modLine_self, cutBreak, hstate]
    exact ⟨rfl, rfl, rfl, rfl, rfl, rfl, rfl, rfl⟩

end Sys2Proof.Machine
end

section
/-! Proofs: SEND BREAK and the placement of its marker (R142). -/

namespace Sys2Proof.Machine

open Host

variable {l : LineId} {s t u : State} {p : PortId}

/-! ## Work given to the transmitter (R52) -/

theorem kickTransmitter_of_working (h : (s.line l).tx.state.waits = false) : kickTransmitter s l = s := by
  rw [kickTransmitter, h, if_neg Bool.false_ne_true]

theorem kickTransmitter_of_waits (h : (s.line l).tx.state.waits = true) : kickTransmitter s l = startPoint s l := by
  rw [kickTransmitter, h, if_pos rfl]

/-! ## Entries placed (R134, R146) -/

/-- The lease timer of a line after a restart at a reading (R111). -/
def Line.restartedLease (x : Line) (now : Word) : Option Timer :=
  if x.writer.isSome ∧ x.io.inForce.lease ≠ 0 then some (startTimer now) else none

theorem Line.restartedLease_of_writer {x : Line} (h : x.writer.isSome = true) (now : Word) :
    x.restartedLease now = if x.io.inForce.lease = 0 then none else some { start := now, due := false } := by
  rw [Line.restartedLease]
  by_cases hlease : x.io.inForce.lease = 0
  · simp [hlease]
  · simp [h, startTimer]

theorem line_placeEntries (s : State) (l : LineId) (p : PortId) (es : List Entry) : (placeEntries s l p es).line l
    = { s.line l with
        att := { (s.line l).att with leaseTimer := (s.line l).restartedLease s.timebase }
        tx := { (s.line l).tx with queue := (s.line l).tx.queue ++ es, drainMark := some p } } := by
  rw [placeEntries, restartLease, State.line_modLine_self, State.modTx_eq, State.line_modLine_self]
  rfl

/-! ## A break marker placed -/

/-- A waiting SEND BREAK whose marker has joined the queue, and which has completed, before the start point that follows. -/
def markerPlaced (s : State) (l : LineId) (p : PortId) (d : Nat) : State :=
  completeCommand ((placeEntries s l p [.marker d p]).modTx l fun x => { x with waiting := none }) p { code := .none }

theorem placeMarker_of_room {d : Nat} (hwaiting : (s.line l).tx.waiting = some (.sendBreak p d))
    (hroom : (s.line l).tx.queue.length < 64) : placeMarker s l = kickTransmitter (markerPlaced s l p d) l := by
  rw [placeMarker, hwaiting]
  refine if_pos ?_
  rw [Transmit.free, Config.queueSize]
  omega

theorem line_markerPlaced (s : State) (l : LineId) (p : PortId) (d : Nat) : (markerPlaced s l p d).line l
    = { s.line l with
        att := { (s.line l).att with leaseTimer := (s.line l).restartedLease s.timebase }
        tx := { (s.line l).tx with queue := (s.line l).tx.queue ++ [.marker d p], drainMark := some p, waiting := none } } := by
  have hline : ((placeEntries s l p [.marker d p]).modTx l fun x => { x with waiting := none }).line l = _ :=
    State.line_modLine_self (placeEntries s l p [.marker d p]) l fun x => { x with tx := { x.tx with waiting := none } }
  rw [line_placeEntries] at hline
  exact hline

theorem port_markerPlaced (s : State) (l : LineId) (p : PortId) (d : Nat) :
    (markerPlaced s l p d).port p = (s.port p).complete { code := .none } := by
  rw [markerPlaced, port_completeCommand_self]
  rfl

theorem timebase_markerPlaced (s : State) (l : LineId) (p : PortId) (d : Nat) : (markerPlaced s l p d).timebase = s.timebase := rfl

/-! ## SEND BREAK taken -/

/-- A SEND BREAK that has passed its checks waits on the line. -/
def breakWaits (s : State) (l : LineId) (p : PortId) (d : Nat) : State :=
  ((restartLease (beginCommand s p false) l).modTx l fun x => { x with waiting := some (.sendBreak p d) }).modPort p fun x =>
    { x with phase := .waiting l }

theorem exec_sendBreak_of_calls (hcall : s.calls p l) : exec (.sendBreak p) s = .next
    (if (s.port p).value.toNat < 10 ∨ 5000 < (s.port p).value.toNat then s.answer p false { code := .badArgument }
    else if (s.line l).writer ≠ some p then s.answer p false { code := .notWriter }
    else if (s.line l).cond.state = .off then s.answer p false { code := .lineOff }
    else placeMarker (breakWaits s l p (s.port p).value.toNat) l) := by
  change execSendBreak p s = _
  rw [execSendBreak, lineCommand_of_calls hcall false, port_beginCommand_self, beginCommand_line]
  simp only [failCheck_beginCommand]
  rfl

theorem line_breakWaits (s : State) (l : LineId) (p : PortId) (d : Nat) : (breakWaits s l p d).line l
    = { s.line l with
        att := { (s.line l).att with leaseTimer := (s.line l).restartedLease s.timebase }
        tx := { (s.line l).tx with waiting := some (.sendBreak p d) } } := by
  have hline : (breakWaits s l p d).line l = _ :=
    State.line_modLine_self (restartLease (beginCommand s p false) l) l fun x =>
      { x with tx := { x.tx with waiting := some (.sendBreak p d) } }
  rw [restartLease, State.line_modLine_self] at hline
  exact hline

theorem restartedLease_breakWaits (s : State) (l : LineId) (p : PortId) (d : Nat) :
    ((breakWaits s l p d).line l).restartedLease s.timebase = (s.line l).restartedLease s.timebase := by
  rw [line_breakWaits]
  rfl

theorem port_breakWaits (s : State) (l : LineId) (p : PortId) (d : Nat) :
    (breakWaits s l p d).port p = { (s.port p).begun false with phase := .waiting l } := by
  rw [breakWaits, State.port_modPort_self]
  exact congrArg (fun x : Port => { x with phase := .waiting l }) (port_beginCommand_self s p false)

/-- SEND BREAK and BREAK MARKER PLACEMENT come to the same placing. -/
theorem exec_placesMarker {n : Nat} {c : Instr}
    (hc : (c = .sendBreak p ∧ s.calls p l ∧ n = (s.port p).value.toNat ∧ 10 ≤ n ∧ n ≤ 5000 ∧ (s.line l).writer = some p
        ∧ (s.line l).cond.state ≠ .off)
      ∨ (c = .breakMarkerPlacement l ∧ (s.line l).tx.waiting = some (.sendBreak p n))) :
    ∃ v att, exec c s = .next (placeMarker v l)
      ∧ v.line l = { s.line l with att := att, tx := { (s.line l).tx with waiting := some (.sendBreak p n) } }
      ∧ v.timebase = s.timebase := by
  rcases hc with ⟨rfl, hcall, rfl, hlow, hhigh, hwriter, hon⟩ | ⟨rfl, hwaiting⟩
  · have hexec := exec_sendBreak_of_calls hcall
    rw [if_neg (by omega), if_neg (not_not.mpr hwriter), if_neg hon] at hexec
    exact ⟨_, _, hexec, line_breakWaits s l p _, rfl⟩
  · refine ⟨s, (s.line l).att, rfl, ?_, rfl⟩
    rw [← hwaiting]

/-- Settles O35: the marker joins the queue of a working transmitter, and a waiting one takes it at the start point. -/
theorem sendBreakPlacesAMarker : Obligations.SendBreakPlacesAMarker := by
  refine ⟨fun s p l => ⟨fun hcall => ⟨fun hbad => ?_, fun hlow hhigh hwriter => ?_, fun hlow hhigh hwriter hoff => ?_,
    fun hlow hhigh hwriter hon hworking => ?_⟩, fun d hwaiting hroom hworking => ?_⟩,
    fun s p l n c hc hnohold hflow => ⟨fun hidle hpause hqueue => ?_, fun hpaused hpause hroom => ?_⟩⟩
  · rw [exec_sendBreak_of_calls hcall, if_pos hbad]
  · rw [exec_sendBreak_of_calls hcall, if_neg (by omega), if_pos hwriter]
  · rw [exec_sendBreak_of_calls hcall, if_neg (by omega), if_neg (not_not.mpr hwriter), if_pos hoff]
  · have hexec := exec_sendBreak_of_calls hcall
    rw [if_neg (by omega), if_neg (not_not.mpr hwriter), if_neg hon] at hexec
    have hlease := Line.restartedLease_of_writer (x := s.line l) (by rw [hwriter]; rfl) s.timebase
    generalize (s.port p).value.toNat = d at hexec ⊢
    have hline := line_breakWaits s l p d
    have hport := port_breakWaits s l p d
    have hrestarted := restartedLease_breakWaits s l p d
    have htime : (breakWaits s l p d).timebase = s.timebase := rfl
    generalize breakWaits s l p d = v at hexec hline hport hrestarted htime
    refine ⟨_, hexec, ?_⟩
    by_cases hroom : (s.line l).tx.queue.length < 64
    · have hplaced := line_markerPlaced v l p d
      rw [htime, hrestarted, hlease, hline] at hplaced
      rw [placeMarker_of_room (by rw [hline]) (by rw [hline]; exact hroom),
        kickTransmitter_of_working (by rw [hplaced]; exact hworking), hplaced, port_markerPlaced]
      exact ⟨rfl, rfl, rfl, rfl, fun _ => ⟨rfl, rfl, rfl⟩, fun hfull => absurd hroom (by omega)⟩
    · have hfull : placeMarker v l = v := by
        refine placeMarker_of_no_room fun q d' _ => ?_
        rw [hline, Transmit.free, Config.queueSize]
        exact Nat.sub_eq_zero_of_le (Nat.le_of_not_lt hroom)
      rw [hfull, hline, hport, hlease]
      exact ⟨rfl, rfl, rfl, rfl, fun hroom' => absurd hroom' hroom, fun _ => ⟨rfl, rfl, rfl⟩⟩
  · have hplaced := line_markerPlaced s l p d
    have hdone := placeMarker_of_room hwaiting hroom
    rw [kickTransmitter_of_working (by rw [hplaced]; exact hworking)] at hdone
    refine ⟨markerPlaced s l p d, congrArg Outcome.next hdone, ?_⟩
    rw [hplaced, port_markerPlaced]
    exact ⟨rfl, rfl, rfl, rfl, rfl⟩
  · obtain ⟨v, att, hexec, hline, htime⟩ := exec_placesMarker hc
    have hplaced := line_markerPlaced v l p n
    have hport := port_markerPlaced v l p n
    have htime' := (timebase_markerPlaced v l p n).trans htime
    rw [placeMarker_of_room (by rw [hline]) (by rw [hline]; exact hqueue ▸ (by decide))] at hexec
    refine ⟨_, hexec, ?_⟩
    rw [hline] at hplaced
    generalize markerPlaced v l p n = w at hplaced hport htime'
    rw [kickTransmitter_of_waits (by rw [hplaced]; exact hidle ▸ rfl),
      startPoint_of_marker (d := n) (q := p) (rest := []) (by rw [hplaced]; exact hflow) (by rw [hplaced]; exact hpause)
        (by rw [hplaced]; exact congrArg (· ++ [Entry.marker n p]) hqueue)]
    have htaken := line_takeEntry w l [] (.breaking n (startTimer w.timebase))
    have htimed := timebase_takeEntry w l [] (.breaking n (startTimer w.timebase))
    obtain ⟨-, hlast, -⟩ := takeEntry_drainTold w l [] (.breaking n (startTimer w.timebase))
    obtain ⟨hdrained, -⟩ := hlast p rfl (by rw [hplaced])
    have hsame : (w.port p).SameBlock ((testDrain (w.modLine l fun x => x.starting fun y =>
        { y with queue := [], state := .breaking n (startTimer w.timebase) }) l).port p) := by
      rw [testDrain_of_last (p := p) (by rw [State.line_modLine_self]; rfl) (by rw [State.line_modLine_self, hplaced]; rfl)]
      exact State.sameBlock_post _ p .drained l 0
    generalize testDrain _ l = r at htaken htimed hdrained hsame
    rw [hplaced, htime'] at htaken
    obtain ⟨hstate, huse⟩ := breakSent_working (s := r) (l := l) (by rw [htaken]) [byteOf n, byteOf (n / 256), byteOf p.val]
    have hrecorded := event_recorded (l := l) r .breakSent [byteOf n, byteOf (n / 256), byteOf p.val]
    have hcauses := event_causesKept (l := l) r .breakSent [byteOf n, byteOf (n / 256), byteOf p.val]
    have hlogs : LogsEvent s (event r l .breakSent [byteOf n, byteOf (n / 256), byteOf p.val]) l .breakSent _ :=
      (logsEvent_event r l .breakSent _).congr (by rw [htaken]; exact ⟨rfl, rfl, rfl⟩) (htimed.trans htime') rfl rfl
    have hblock := (hsame.trans (hrecorded.sameBlock p) : (w.port p).SameBlock _)
    rw [hport] at hblock
    exact ⟨hstate, hrecorded.queue.trans (by rw [htaken]), huse.trans (by rw [htaken]), hrecorded.drainMark.trans (by rw [htaken]; rfl),
      hcauses.exists_cause (fun _ => Cause.apart_of_drained) hdrained, hrecorded.waiting.trans (by rw [htaken]),
      by rw [hblock]; rfl, by rw [hblock]; rfl, hlogs, hrecorded.io.trans (by rw [htaken]), hrecorded.cond.trans (by rw [htaken]),
      hrecorded.watch.trans (by rw [htaken])⟩
  · obtain ⟨v, att, hexec, hline, htime⟩ := exec_placesMarker hc
    have hplaced := line_markerPlaced v l p n
    have hport := port_markerPlaced v l p n
    rw [placeMarker_of_room (by rw [hline]) (by rw [hline]; exact hroom)] at hexec
    refine ⟨_, hexec, ?_⟩
    rw [hline] at hplaced
    generalize markerPlaced v l p n = w at hplaced hport
    rw [kickTransmitter_of_waits (by rw [hplaced]; exact hpaused ▸ rfl),
      startPoint_of_pause (by rw [hplaced]; exact hflow) (by rw [hplaced]; exact hpause), State.line_modLine_self, hplaced]
    refine ⟨?_, ?_, ?_, rfl, rfl, rfl⟩
    · rw [Line.starting, ← hpaused]
    · rw [State.port_modLine, hport]
      rfl
    · rw [State.port_modLine, hport]
      rfl

end Sys2Proof.Machine
end

section
/-! Proofs: a waiting SEND places a run; the SENT records of a run (R20, R21, R139, R140). -/

namespace Sys2Proof.Machine

open Host

variable {l : LineId} {s t u : State} {p : PortId}

/-! ## The pieces of a run (R21) -/

theorem flatten_runPieces {m : Nat} (hm : 1 ≤ m) (k : Nat) : ∀ run : List Byte, run.length ≤ k → (runPieces k m run).flatten = run := by
  induction k with
  | zero => exact fun run h => (List.length_eq_zero_iff.mp (Nat.le_zero.mp h)).symm
  | succ k ih =>
    intro run h
    cases run with
    | nil => rfl
    | cons c cs =>
      have hdrop : ((c :: cs).drop m).length ≤ k := by
        rw [List.length_drop]
        omega
      rw [runPieces, List.flatten_cons, ih _ hdrop, List.take_append_drop]

theorem runPieces_pieces {m : Nat} (hm : 1 ≤ m) (k : Nat) : ∀ run : List Byte, ∀ x ∈ runPieces k m run, x ≠ [] ∧ x.length ≤ m := by
  induction k with
  | zero => exact fun run x hx => absurd hx List.not_mem_nil
  | succ k ih =>
    intro run x hx
    cases run with
    | nil => exact absurd hx List.not_mem_nil
    | cons c cs =>
      rcases List.mem_cons.mp hx with rfl | hx
      · refine ⟨List.ne_nil_of_length_pos ?_, List.length_take_le _ _⟩
        rw [List.length_take, List.length_cons]
        omega
      · exact ih _ x hx

/-- Every piece of a run but the last is full. -/
theorem runPieces_full {m : Nat} (k : Nat) : ∀ (run : List Byte) (xs : List (List Byte)) (x : List Byte),
    runPieces k m run = xs ++ [x] → ∀ y ∈ xs, y.length = m := by
  induction k with
  | zero => exact fun run xs x h => by simp [runPieces] at h
  | succ k ih =>
    intro run xs x h y hy
    cases run with
    | nil => simp [runPieces] at h
    | cons c cs =>
      cases xs with
      | nil => cases hy
      | cons z zs =>
        rw [runPieces, List.cons_append] at h
        obtain ⟨hhead, htail⟩ := List.cons.inj h
        rcases List.mem_cons.mp hy with rfl | hy
        · have hne : (c :: cs).drop m ≠ [] := by
            intro hempty
            rw [hempty] at htail
            cases k <;> simp [runPieces] at htail
          rw [← hhead, List.length_take]
          have hlength := List.length_pos_of_ne_nil hne
          rw [List.length_drop] at hlength
          omega
        · exact ih _ zs x htail y hy

theorem runPieces_of_short {m : Nat} {run : List Byte} (hne : run ≠ []) (hshort : run.length ≤ m) :
    runPieces run.length m run = [run] := by
  cases run with
  | nil => exact absurd rfl hne
  | cons c cs =>
    rw [List.length_cons, runPieces, List.take_of_length_le hshort, List.drop_of_length_le hshort]
    cases cs <;> rfl

/-! ## The SENT records of a run (R20) -/

theorem plainSent_of_off (h : (s.line l).io.inForce.logSent = false) (source : Byte) (run : List Byte) : plainSent s l source run = s := by
  rw [plainSent, h, if_neg Bool.false_ne_true]

/-- The SENT record of a run that one record holds. -/
def sentRecord (s : State) (l : LineId) (source : Byte) (run : List Byte) : LogRecord :=
  { seq := (s.line l).cap.next, time := s.timebase, kind := .sent, cause := 0, detail := source, body := run }

/-- A run of at most the maximum record length makes one SENT record after the close of the open one. -/
theorem closedSent_wrote {source : Byte} {run : List Byte} (hne : run ≠ []) (hshort : run.length ≤ (s.line l).io.inForce.maxLength.toNat)
    (hpages : (s.line l).pool.pages ≠ []) (hroom : 12 + run.length ≤ (s.line l).room) :
    Wrote l ((s.line l).closing .sent 0 ++ [sentRecord s l source run]) 1 (12 + run.length) s
      (sentRecords (closeOpen s l .sent 0) l source run) := by
  have hclose := closeOpen_wrote hpages .sent 0
  have hmax : ((closeOpen s l .sent 0).line l).io = (s.line l).io := hclose.recorded.io
  have hwrite := writeRecord_wrote hclose.pages .sent 0 source (body := run) (fun t => discardChars t l run.length)
    (by rw [hclose.room]; exact hroom)
  have hrecord : sentRecord (closeOpen s l .sent 0) l source run = sentRecord s l source run := by
    rw [sentRecord, sentRecord, hclose.next, hclose.recorded.timebase]
    rfl
  change Wrote l [sentRecord (closeOpen s l .sent 0) l source run] 1 _ _ _ at hwrite
  rw [hrecord] at hwrite
  have hboth := hclose.trans hwrite
  rw [Nat.zero_add] at hboth
  rw [sentRecords, hmax, runPieces_of_short hne hshort]
  exact hboth

/-- A run of a SEND on a page with room: no FROZEN record and no evaluation comes with its record. -/
theorem plainSent_wrote {source : Byte} {run : List Byte} (hon : (s.line l).io.inForce.logSent = true) (hne : run ≠ [])
    (hshort : run.length ≤ (s.line l).io.inForce.maxLength.toNat) (hroomy : (s.line l).roomy (12 + run.length)) :
    Wrote l ((s.line l).closing .sent 0 ++ [sentRecord s l source run]) 1 (12 + run.length) s (settle (plainSent s l source run) l) := by
  obtain ⟨hpages, hroom, hnone, hdue, heval⟩ := hroomy
  have hwrote := closedSent_wrote (source := source) hne hshort hpages hroom
  have hclosed := (closeOpen_wrote hpages .sent 0).unmarked hnone ⟨hdue, heval⟩
  have hunmarked := hwrote.unmarked hnone ⟨hdue, heval⟩
  rw [plainSent, hon, if_pos rfl, flushFrozen_of_not_due hclosed.1, flushFrozen_of_not_due hunmarked.1, settle_of_unmarked hunmarked]
  exact hwrote

theorem opened_plainSent (hon : (s.line l).io.inForce.logSent = true) (source : Byte) (run : List Byte) :
    ((settle (plainSent s l source run) l).line l).cap.opened = none := by
  rw [plainSent, hon, if_pos rfl]
  exact (settle_recorded _).opened ((flushFrozen_recorded _).opened ((sentRecords_recorded _ source run).opened
    ((flushFrozen_recorded _).opened (opened_closeOpen s l .sent 0))))

theorem discardChars_flowed (s : State) (count : Nat) : (s.line l).tx.Flowed ((discardChars s l count).line l).tx := by
  rw [discardChars, State.modPool_eq, State.line_modLine_self]
  exact .refl _

/-! ## A run placed (R134, R139) -/

/-- The run of a waiting SEND queued, its records written and the line settled. -/
def runSent (s : State) (l : LineId) (p : PortId) (rest : List Byte) : State :=
  settle (plainSent (placeEntries s l p ((rest.take (s.line l).tx.free).map .character)) l (byteOf p.val)
    (rest.take (s.line l).tx.free)) l

/-- What a waiting SEND is after its run: complete with none remaining, or waiting with the rest. -/
def sendOn (s : State) (l : LineId) (p : PortId) (rest : List Byte) : State :=
  if rest = [] then completeCommand (s.modTx l fun x => { x with waiting := none }) p { code := .none, count := some 0 }
  else s.modTx l fun x => { x with waiting := some (.send p rest) }

theorem placeRun_of_room {rest : List Byte} (hwaiting : (s.line l).tx.waiting = some (.send p rest))
    (hroom : min 10 rest.length ≤ 64 - (s.line l).tx.queue.length) :
    placeRun s l = kickTransmitter (sendOn (runSent s l p rest) l p (rest.drop (64 - (s.line l).tx.queue.length))) l := by
  rw [placeRun, hwaiting]
  exact if_pos hroom

/-- The line of a waiting SEND once its run is queued, before the records of the run. -/
theorem line_runQueued (s : State) (l : LineId) (p : PortId) (rest : List Byte) :
    (placeEntries s l p ((rest.take (s.line l).tx.free).map .character)).line l = { s.line l with
      att := { (s.line l).att with leaseTimer := (s.line l).restartedLease s.timebase }
      tx := { (s.line l).tx with
        queue := (s.line l).tx.queue ++ (rest.take (64 - (s.line l).tx.queue.length)).map .character, drainMark := some p } } :=
  line_placeEntries s l p _

theorem runSent_recorded (s : State) (l : LineId) (p : PortId) (rest : List Byte) :
    Recorded l (placeEntries s l p ((rest.take (s.line l).tx.free).map .character)) (runSent s l p rest) :=
  (plainSent_recorded _ _ _).trans (settle_recorded _)

theorem runSent_flowed (s : State) (l : LineId) (p : PortId) (rest : List Byte) :
    ((placeEntries s l p ((rest.take (s.line l).tx.free).map .character)).line l).tx.Flowed ((runSent s l p rest).line l).tx :=
  ((flowed_rule l).plainSent discardChars_flowed _ _ _).trans (settle_flowed _)

theorem runSent_holdKept {rest : List Byte} (h : (s.line l).noHold) :
    HoldKept l (placeEntries s l p ((rest.take (s.line l).tx.free).map .character)) (runSent s l p rest) := by
  have hsent := (holdKept_rule l).plainSent HoldKept.discardChars
    (placeEntries s l p ((rest.take (s.line l).tx.free).map .character)) (byteOf p.val) (rest.take (s.line l).tx.free)
  refine hsent.trans (settle_holdKept (hsent.restful ?_))
  rw [line_placeEntries]
  exact h.restful

theorem line_sendOn (s : State) (l : LineId) (p : PortId) (rest : List Byte) : (sendOn s l p rest).line l
    = { s.line l with tx := { (s.line l).tx with waiting := if rest = [] then none else some (.send p rest) } } := by
  have hline := fun w => State.line_modLine_self s l fun x => { x with tx := { x.tx with waiting := w } }
  unfold sendOn
  split
  · exact hline none
  · exact hline _

theorem port_sendOn_of_done (s : State) (l : LineId) (p : PortId) :
    (sendOn s l p []).port p = (s.port p).complete { code := .none, count := some 0 } := by
  rw [sendOn, if_pos rfl, port_completeCommand_self]
  rfl

theorem port_sendOn_of_more (s : State) (l : LineId) (p q : PortId) {rest : List Byte} (h : rest ≠ []) :
    (sendOn s l p rest).port q = s.port q := by
  rw [sendOn, if_neg h]
  rfl

theorem timebase_sendOn (s : State) (l : LineId) (p : PortId) (rest : List Byte) : (sendOn s l p rest).timebase = s.timebase := by
  unfold sendOn
  split <;> rfl

/-- What a port sees of its SEND after a run: the SEND complete, or waiting on with what remains. -/
structure Sent (s t : State) (l : LineId) (p : PortId) (rest : List Byte) : Prop where
  done : rest = [] → (t.line l).tx.waiting = none ∧ (t.port p).idle = true ∧ (t.port p).error = .none ∧ (t.port p).count = 0
  more : rest ≠ [] → (t.line l).tx.waiting = some (.send p rest) ∧ (t.port p).phase = (s.port p).phase

theorem Sent.then {rest : List Byte} (h : Sent s t l p rest) (hwaiting : (u.line l).tx.waiting = (t.line l).tx.waiting)
    (hblock : (t.port p).SameBlock (u.port p)) : Sent s u l p rest := by
  obtain ⟨hdone, hmore⟩ := h
  rw [← hwaiting] at hdone hmore
  refine ⟨fun hrest => ?_, fun hrest => ?_⟩
  · rw [hblock]
    exact hdone hrest
  · rw [hblock]
    exact hmore hrest

theorem sendOn_sent (hblock : (s.port p).SameBlock (t.port p)) (rest : List Byte) : Sent s (sendOn t l p rest) l p rest := by
  refine ⟨fun hrest => ?_, fun hrest => ?_⟩
  · subst hrest
    rw [line_sendOn, port_sendOn_of_done]
    exact ⟨rfl, rfl, rfl, rfl⟩
  · rw [line_sendOn, port_sendOn_of_more t l p p hrest, hblock]
    exact ⟨if_neg hrest, rfl⟩

theorem drop_ne_nil_of_lt {rest : List Byte} {n : Nat} (h : n < rest.length) : rest.drop n ≠ [] :=
  fun e => absurd (List.drop_eq_nil_iff.mp e) (Nat.not_le.mpr h)

/-- A run placed leaves the line in what the SEND does not touch. -/
structure RunPlaced (s t : State) (l : LineId) (p : PortId) (rest : List Byte) : Prop where
  recorded : Recorded l (placeEntries s l p ((rest.take (s.line l).tx.free).map .character)) t
  sent : Sent s (sendOn t l p (rest.drop (64 - (s.line l).tx.queue.length))) l p (rest.drop (64 - (s.line l).tx.queue.length))

theorem runSent_placed (s : State) (l : LineId) (p : PortId) (rest : List Byte) : RunPlaced s (runSent s l p rest) l p rest :=
  ⟨runSent_recorded s l p rest, sendOn_sent (s := s) ((runSent_recorded s l p rest).sameBlock p) _⟩

/-- A transmitter with work in hand takes nothing of a run. -/
theorem placeRun_of_working {rest : List Byte} (hwaiting : (s.line l).tx.waiting = some (.send p rest))
    (hroom : min 10 rest.length ≤ 64 - (s.line l).tx.queue.length) (hworking : (s.line l).tx.state.waits = false) :
    placeRun s l = sendOn (runSent s l p rest) l p (rest.drop (64 - (s.line l).tx.queue.length)) := by
  obtain ⟨hstate, -⟩ := (runSent_flowed s l p rest).working (by rw [line_runQueued]; exact hworking)
  rw [line_runQueued] at hstate
  rw [placeRun_of_room hwaiting hroom, kickTransmitter_of_working]
  rw [line_sendOn, hstate]
  exact hworking

theorem sameBlock_testDrain (s : State) (l : LineId) (q : PortId) : (s.port q).SameBlock ((testDrain s l).port q) := by
  unfold testDrain
  split
  · rename_i p _ _
    rw [State.modTx_eq, State.port_modLine, State.post_eq, State.port_modPort]
    split
    · rename_i e
      rw [e]
      rfl
    · rfl
  · rfl

/-- On a line whose hold has nothing to do a waiting transmitter comes to its start point with the run queued. -/
theorem placeRun_of_waits {rest : List Byte} (hwaiting : (s.line l).tx.waiting = some (.send p rest))
    (hroom : min 10 rest.length ≤ 64 - (s.line l).tx.queue.length) (hnohold : (s.line l).noHold)
    (hwriter : (s.line l).writer.isSome = true) (hwaits : (s.line l).tx.state.waits = true) :
    ∃ v, placeRun s l = startPoint v l ∧ Sent s v l p (rest.drop (64 - (s.line l).tx.queue.length))
      ∧ (v.line l).io = (s.line l).io ∧ (v.line l).cond = (s.line l).cond ∧ (v.line l).watch = (s.line l).watch
      ∧ (v.line l).att.leaseTimer = (if (s.line l).io.inForce.lease = 0 then none else some { start := s.timebase, due := false })
      ∧ (v.line l).tx = { (s.line l).tx with
          queue := (s.line l).tx.queue ++ (rest.take (64 - (s.line l).tx.queue.length)).map .character, drainMark := some p
          waiting := (v.line l).tx.waiting } := by
  obtain ⟨hrecorded, hsent⟩ := runSent_placed s l p rest
  have hline := line_runQueued s l p rest
  have hkept := (runSent_holdKept (p := p) (rest := rest) hnohold).tx
  rw [Line.restartedLease_of_writer hwriter s.timebase] at hline
  have hplaced := placeRun_of_room hwaiting hroom
  generalize runSent s l p rest = t at *
  generalize placeEntries s l p _ = r at *
  have hafter := line_sendOn t l p (rest.drop (64 - (s.line l).tx.queue.length))
  generalize sendOn t l p _ = v at *
  rw [hline] at hkept
  refine ⟨v, ?_, hsent, ?_⟩
  · rw [hplaced, kickTransmitter_of_waits]
    rw [hafter, hkept]
    exact hwaits
  · rw [hafter]
    exact ⟨hrecorded.io.trans (by rw [hline]), hrecorded.cond.trans (by rw [hline]), hrecorded.watch.trans (by rw [hline]),
      hrecorded.leaseTimer.trans (by rw [hline]), by rw [hkept]⟩

/-- Settles O34: the run joins the queue, its records follow, and a waiting transmitter takes the head of it. -/
theorem aWaitingSendPlacesARun : Obligations.AWaitingSendPlacesARun := by
  refine ⟨fun s p l rest _ hwriter hwaiting hroom hworking => ?_,
    fun s p l c rest _ hwriter hwaiting hnohold hflow => ⟨fun hidle hpause hqueue => ?_, fun hpaused hpause hroom => ?_⟩,
    fun s p l rest _ hwaiting hne hfits hworking => ?_,
    fun m run hm => ⟨flatten_runPieces hm _ run le_rfl, runPieces_pieces hm _ run, runPieces_full _ run⟩⟩
  · refine ⟨_, congrArg Outcome.next (placeRun_of_working hwaiting hroom hworking), ?_⟩
    obtain ⟨hrecorded, hsent⟩ := runSent_placed s l p rest
    have hline := line_runQueued s l p rest
    have hlease := Line.restartedLease_of_writer hwriter s.timebase
    rw [hlease] at hline
    generalize runSent s l p rest = t at *
    generalize placeEntries s l p _ = r at *
    have hafter := line_sendOn t l p (rest.drop (64 - (s.line l).tx.queue.length))
    generalize sendOn t l p _ = v at *
    refine ⟨?_, ?_, ?_, fun hfits => hsent.done (List.drop_of_length_le hfits), fun hmore => hsent.more (drop_ne_nil_of_lt hmore),
      ?_, ?_, ?_, ?_⟩
    all_goals rw [hafter]
    · exact hrecorded.queue.trans (by rw [hline])
    · exact hrecorded.drainMark.trans (by rw [hline])
    · exact hrecorded.leaseTimer.trans (by rw [hline])
    · exact hrecorded.io.trans (by rw [hline])
    · exact hrecorded.cond.trans (by rw [hline])
    · exact hrecorded.watch.trans (by rw [hline])
    · exact hrecorded.standing.trans (by rw [hline])
  · obtain ⟨v, hplaced, hsent, hio, hcond, hwatch, hlease, htx⟩ :=
      placeRun_of_waits hwaiting (by rw [hqueue]; exact Nat.min_le_left _ _ |>.trans (by decide)) hnohold hwriter (by rw [hidle]; rfl)
    rw [hqueue] at hsent htx
    change Sent s v l p (rest.drop 63) at hsent
    have hqueued : (v.line l).tx.queue = .character c :: (rest.take 63).map .character := by
      rw [htx]
      rfl
    rw [startPoint_of_character (by rw [htx]; exact hflow) (by rw [htx]; exact hpause) hqueued] at hplaced
    refine ⟨_, congrArg Outcome.next hplaced, ?_⟩
    have htaken := line_takeEntry v l ((rest.take 63).map .character) (.sending c)
    have hblock := sameBlock_testDrain (v.modLine l fun x => x.starting fun y =>
      { y with queue := (rest.take 63).map .character, state := .sending c }) l p
    obtain ⟨-, hlast, -⟩ := takeEntry_drainTold v l ((rest.take 63).map .character) (.sending c)
    generalize testDrain _ l = w at htaken hblock hlast ⊢
    have hdone := hsent.then (u := w) (by rw [htaken]) hblock
    have hmark : (v.line l).tx.drainMark = some p := by rw [htx]
    refine ⟨by rw [htaken], by rw [htaken], by rw [htaken, hio], by rw [htaken]; exact hlease, fun hrest => ?_, fun hrest => ?_,
      fun hfits => hdone.done (List.drop_of_length_le hfits), fun hmore => hdone.more (drop_ne_nil_of_lt hmore),
      by rw [htaken]; exact hio, by rw [htaken]; exact hcond, by rw [htaken]; exact hwatch⟩
    · obtain ⟨hposted, hnone⟩ := hlast p (by rw [hrest]; rfl) hmark
      exact ⟨hnone, hposted⟩
    · rw [htaken]
      dsimp only
      rw [if_neg, hmark]
      rw [List.map_eq_nil_iff, List.take_eq_nil_iff]
      exact fun h => h.elim (fun h => absurd h (by decide)) hrest
  · obtain ⟨v, hplaced, hsent, hio, hcond, hwatch, hlease, htx⟩ :=
      placeRun_of_waits hwaiting hroom hnohold hwriter (by rw [hpaused]; rfl)
    rw [startPoint_of_pause (by rw [htx]; exact hflow) (by rw [htx]; exact hpause)] at hplaced
    refine ⟨_, congrArg Outcome.next hplaced, ?_⟩
    have hline := State.line_modLine_self v l fun x => x.starting fun y => { y with state := .paused }
    have hports : (v.modLine l fun x => x.starting fun y => { y with state := .paused }).port p = v.port p := rfl
    generalize v.modLine l _ = w at hline hports ⊢
    have hdone := hsent.then (u := w) (by rw [hline]; rfl) (by rw [hports]; rfl)
    refine ⟨by rw [hline]; rfl, ?_, ?_, ?_, by rw [hline]; exact hlease, fun hfits => hdone.done (List.drop_of_length_le hfits),
      fun hmore => hdone.more (drop_ne_nil_of_lt hmore), by rw [hline]; exact hio, by rw [hline]; exact hcond,
      by rw [hline]; exact hwatch⟩
    all_goals rw [hline, Line.starting, htx]
    exact hpause
  · have hroom : min 10 rest.length ≤ 64 - (s.line l).tx.queue.length := (Nat.min_le_right _ _).trans hfits
    refine ⟨_, congrArg Outcome.next (placeRun_of_working hwaiting hroom hworking), ?_⟩
    rw [line_sendOn]
    have htake : rest.take (s.line l).tx.free = rest := List.take_of_length_le hfits
    have hline := line_runQueued s l p rest
    have htime : (placeEntries s l p ((rest.take (s.line l).tx.free).map .character)).timebase = s.timebase := rfl
    unfold runSent
    rw [htake] at hline htime ⊢
    generalize placeEntries s l p _ = r at hline htime ⊢
    have hlog : (s.line l).SameLog (r.line l) := by
      rw [hline]
      exact ⟨rfl, rfl, rfl⟩
    refine ⟨fun hoff hmarks => ?_, fun hon hshort hroomy => ?_⟩
    · rw [plainSent_of_off (by rw [hline]; exact hoff), settle_of_unmarked (hlog.unmarked.mpr (hmarks l))]
      exact ⟨hlog.cap, hlog.pool⟩
    · have hon' : (r.line l).io.inForce.logSent = true := by rw [hline]; exact hon
      have hwrote := plainSent_wrote (source := byteOf p.val) hon' hne (by rw [hline]; exact hshort) (hlog.roomy.mpr hroomy)
      refine ⟨?_, opened_plainSent hon' _ _, hwrote.next.trans (by rw [hlog.cap]; rfl)⟩
      change ((settle (plainSent r l (byteOf p.val) rest) l).line l).closed = _
      rw [hwrote.closed, hlog.closed, hlog.closing, sentRecord, hlog.cap, htime, List.append_assoc]
      rfl

end Sys2Proof.Machine
end

section
/-! Proofs: what becomes of a character that completes: discarded, taken as flow control, a break, or logged as errored. -/

namespace Sys2Proof.Machine

open Host

variable {l : LineId} {s t u : State} {p : PortId} {r : Received}

/-! ## The classifier, case by case (R48 to R50, R65) -/

/-- The receiver between characters again, or waiting for marking after a spacing stop bit (R45). -/
def seen (s : State) (l : LineId) (r : Received) : State :=
  s.modIo l fun x => { x with receiver := if r.framing then .waitMarking else .between }

theorem line_seen (s : State) (l : LineId) (r : Received) : (seen s l r).line l
    = { s.line l with io := { (s.line l).io with receiver := if r.framing then .waitMarking else .between } } :=
  State.line_modLine_self s l _

theorem exec_characterComplete_off {data : Byte} {parity stop : Bool} (h : (s.line l).cond.state = .off) :
    exec (.characterComplete l data parity stop) s = .next s := by
  change execCharacterComplete l data parity stop s = _
  rw [execCharacterComplete, if_pos h]

theorem exec_characterComplete_of_completes {data : Byte} {parity stop : Bool} (hon : (s.line l).cond.state ≠ .off)
    (h : (s.line l).completes data parity stop r) :
    exec (.characterComplete l data parity stop) s = .next (classify (seen s l r) l r) := by
  obtain ⟨d, f, k, hreceiver, rfl⟩ := h
  change execCharacterComplete l data parity stop s = _
  rw [execCharacterComplete, if_neg hon, hreceiver]
  rfl

theorem exec_characterComplete_of_none {data : Byte} {parity stop : Bool}
    (h : ∀ d f k, (s.line l).io.receiver ≠ .inCharacter d f k) : exec (.characterComplete l data parity stop) s = .next s := by
  change execCharacterComplete l data parity stop s = _
  rw [execCharacterComplete]
  split
  · rfl
  · split
    · rename_i d f k hreceiver
      exact absurd hreceiver (h d f k)
    · rfl
    · rfl

theorem classify_brk (h : (s.line l).cond.state = .brk) (r : Received) : classify s l r = s := by
  rw [classify, h]

theorem classify_down_candidate (h : (s.line l).cond.state = .down) (hr : r.candidate = true) :
    classify s l r = s.modCond l fun x => { x with upTimer := none } := by
  rw [classify, h]
  exact if_pos hr

theorem classify_down_other (h : (s.line l).cond.state = .down) (hr : r.candidate = false) : classify s l r = s := by
  rw [classify, h]
  exact if_neg (by rw [hr]; exact Bool.false_ne_true)

theorem classify_run_errored (h : (s.line l).cond.state = .run) (hr : r.errored = true) : classify s l r = runCharacter s l r := by
  rw [classify, h]
  exact if_pos hr

/-- The tests of a character without error in RUN, in their order. -/
theorem classify_run_clean (h : (s.line l).cond.state = .run) (hr : r.errored = false) : classify s l r
    = if (s.line l).io.inForce.flow ∧ r.value = 0x13 then setPause s l
      else if (s.line l).io.inForce.flow ∧ r.value = 0x11 then endPause s l
      else if (s.line l).io.inForce.stripPresent ∧ r.value = (s.line l).io.inForce.strip then s
      else runCharacter s l r := by
  rw [classify, h]
  exact if_neg (by rw [hr]; exact Bool.false_ne_true)

theorem Received.errored_of_candidate (h : r.candidate = true) : r.errored = true ∧ r.framing = true := by
  rw [Received.candidate, Bool.and_eq_true] at h
  obtain ⟨-, hframing⟩ := h
  exact ⟨by rw [Received.errored, hframing, Bool.true_or], hframing⟩

theorem Received.candidate_of_clean (h : r.errored = false) : r.candidate = false ∧ r.framing = false := by
  rw [Received.errored, Bool.or_eq_false_iff] at h
  obtain ⟨hframing, -⟩ := h
  exact ⟨by rw [Received.candidate, hframing, Bool.and_false], hframing⟩

/-- A line whose pending null is settled by a character (R69). -/
def clearNull (s : State) (l : LineId) : State := s.modCond l fun x => { x with nullPending := false }

theorem line_clearNull (s : State) (l : LineId) :
    (clearNull s l).line l = { s.line l with cond := { (s.line l).cond with nullPending := false } } := State.line_modLine_self s l _

theorem runCharacter_candidate (h : r.candidate = true) : runCharacter s l r
    = conditionEvent ((clearNull s l).modCond l fun x => { x with state := .brk }) l .breakStart [] := by
  rw [runCharacter]
  exact if_pos h

theorem runCharacter_errored (hc : r.candidate = false) (hr : r.errored = true) : runCharacter s l r
    = scoreEntry (settle (captureErrored (clearNull s l) l r) l) l true := by
  rw [runCharacter]
  exact (if_neg (by rw [hc]; exact Bool.false_ne_true)).trans (if_pos hr)

theorem runCharacter_clean (hr : r.errored = false) : runCharacter s l r
    = if (s.line l).cond.nullPending ∧ r.value = 0 then clearNull s l else scoreEntry (storeCharacter (clearNull s l) l r.value) l false := by
  rw [runCharacter]
  exact (if_neg (by rw [(Received.candidate_of_clean hr).1]; exact Bool.false_ne_true)).trans
    (if_neg (by rw [hr]; exact Bool.false_ne_true))

/-! ## Flow control received (R49, R55) -/

/-- Without a pause a start point leaves PAUSED. -/
theorem startPoint_of_unpaused (h : (s.line l).tx.pause = false) :
    ((startPoint s l).line l).tx.pause = false ∧ ((startPoint s l).line l).tx.state ≠ .paused := by
  cases hflow : (s.line l).tx.flowSlot with
  | some c =>
    rw [startPoint_of_flow hflow, State.line_modLine_self]
    exact ⟨h, nofun⟩
  | none =>
    match hqueue : (s.line l).tx.queue with
    | [] =>
      rw [startPoint_of_empty hflow h hqueue, State.line_modLine_self]
      exact ⟨h, nofun⟩
    | .character b :: rest =>
      rw [startPoint_of_character hflow h hqueue, line_takeEntry]
      exact ⟨h, nofun⟩
    | .marker d q :: rest =>
      rw [startPoint_of_marker hflow h hqueue]
      have hline := line_takeEntry s l rest (.breaking d (startTimer s.timebase))
      generalize testDrain _ l = v at hline
      obtain ⟨hstate, -⟩ := breakSent_working (s := v) (l := l) (by rw [hline]) [byteOf d, byteOf (d / 256), byteOf q.val]
      refine ⟨(event_recorded (l := l) v .breakSent _).pause.trans (by rw [hline]; exact h), ?_⟩
      rw [hstate]
      nofun

theorem endPause_of_unpaused (h : (s.line l).tx.state ≠ .paused) : endPause s l = s.modTx l fun x => { x with pause := false } := by
  rw [endPause]
  exact if_neg h

theorem endPause_of_paused (h : (s.line l).tx.state = .paused) :
    endPause s l = startPoint (s.modTx l fun x => { x with pause := false }) l := by
  rw [endPause]
  exact if_pos h

/-- Settles O39: each case of the classifier in which nothing is stored. -/
theorem charactersThatAreNotStored : Obligations.CharactersThatAreNotStored := by
  intro s l data parity stop
  refine ⟨exec_characterComplete_off, exec_characterComplete_of_none, fun r hr => ?_⟩
  have hline := line_seen s l r
  have hexec : (s.line l).cond.state ≠ .off → exec (.characterComplete l data parity stop) s = .next (classify (seen s l r) l r) :=
    fun hon => exec_characterComplete_of_completes hon hr
  have hrun : (s.line l).cond.state = .run → r.errored = false → _ := fun hrun hclean =>
    (hexec (by rw [hrun]; decide)).trans (congrArg Outcome.next
      (classify_run_clean (s := seen s l r) (l := l) (by rw [hline]; exact hrun) hclean))
  change _ ∧ _ ∧ _ ∧ _ ∧ _ ∧ _ ∧ _ ∧ _
  refine ⟨fun hbrk => ?_, fun hdown hcand => ?_, fun hdown hcand => ?_, fun h hclean hflow hxoff => ?_,
    fun h hclean hflow hxon hstate => ?_, fun h hclean hflow hxon hstate => ?_, fun h hclean hflow hstrip hvalue => ?_,
    fun h hclean hflow hstrip hnull hvalue => ?_⟩
  · rw [hexec (by rw [hbrk]; decide), classify_brk (by rw [hline]; exact hbrk)]
    rfl
  · rw [hexec (by rw [hdown]; decide), classify_down_candidate (by rw [hline]; exact hdown) hcand]
    rfl
  · rw [hexec (by rw [hdown]; decide), classify_down_other (by rw [hline]; exact hdown) hcand]
    rfl
  · rw [hrun h hclean, if_pos (by rw [hline]; exact ⟨hflow, hxoff⟩)]
    rfl
  · rw [hrun h hclean, if_neg (by rw [hxon]; simp), if_pos (by rw [hline]; exact ⟨hflow, hxon⟩),
      endPause_of_unpaused (by rw [hline]; exact hstate)]
    rfl
  · have hpaused : ((seen s l r).line l).tx.state = .paused := by rw [hline]; exact hstate
    rw [hrun h hclean, if_neg (by rw [hxon]; simp), if_pos (by rw [hline]; exact ⟨hflow, hxon⟩), endPause_of_paused hpaused]
    have hmod := State.line_modLine_self (seen s l r) l fun x => { x with tx := { x.tx with pause := false } }
    obtain ⟨hpause, hnot⟩ := startPoint_of_unpaused (s := (seen s l r).modTx l fun x => { x with pause := false }) (l := l)
      ((congrArg (fun x : Line => x.tx.pause) hmod :))
    refine ⟨_, rfl, hpause, hnot, (startPoint_started _ l).cond.trans ?_⟩
    rw [hline] at hmod
    exact (congrArg Line.cond hmod :)
  · rw [hrun h hclean, if_neg, if_neg, if_pos (by rw [hline]; exact ⟨hstrip, hvalue⟩)]
    · rfl
    · rw [hline]
      exact fun hxon => hflow ⟨hxon.1, .inr hxon.2⟩
    · rw [hline]
      exact fun hxoff => hflow ⟨hxoff.1, .inl hxoff.2⟩
  · rw [hrun h hclean, if_neg, if_neg, if_neg (by rw [hline]; exact hstrip), runCharacter_clean hclean,
      if_pos (by rw [hline]; exact ⟨hnull, hvalue⟩)]
    · rfl
    · rw [hline]
      exact fun hxon => hflow ⟨hxon.1, .inr hxon.2⟩
    · rw [hline]
      exact fun hxoff => hflow ⟨hxoff.1, .inl hxoff.2⟩

/-! ## Condition events on a line (R83) -/

theorem Line.RecordFrame.latched (e : CondEvent) (x : Line) : x.RecordFrame (x.latched e) := by
  refine ⟨rfl, rfl, rfl, rfl, ?_, rfl, rfl, rfl, rfl, rfl, rfl⟩
  rw [Line.latched, List.map_map]
  rfl

theorem Line.RecordFrame.trans {x y z : Line} (h : x.RecordFrame y) (k : y.RecordFrame z) : x.RecordFrame z := by
  obtain ⟨h1, h2, h3, h4, h5, h6, h7, h8, h9, h10, h11⟩ := h
  obtain ⟨k1, k2, k3, k4, k5, k6, k7, k8, k9, k10, k11⟩ := k
  exact ⟨k1.trans h1, k2.trans h2, k3.trans h3, k4.trans h4, k5.trans h5, k6.trans h6, k7.trans h7, k8.trans h8, k9.trans h9,
    k10.trans h10, k11.trans h11⟩

theorem conditionEvent_frame (s : State) (e : CondEvent) (argument : List Byte) :
    (s.line l).RecordFrame ((conditionEvent s l e argument).line l) := by
  have hframe := (event_recorded (l := l) (eachPort (latchEvent e l) s) e.event argument).recordFrame
  rw [line_eachLatch] at hframe
  exact (Line.RecordFrame.latched e _).trans hframe

/-- A claim about a latching holds of what came before, where that left the latches and the enables. -/
theorem LatchesEvent.before {e : CondEvent} (h : LatchesEvent u t l e) (hrecorded : Recorded l s u) : LatchesEvent s t l e := by
  obtain ⟨hlatches, hcauses⟩ := h
  refine ⟨hlatches.trans ?_, fun p a ha hc => ?_⟩
  · have hkept : (u.line l).latches = (s.line l).latches := hrecorded.latches
    have hmap := congrArg (List.map (· ||| e.bit)) hkept
    rw [Line.latches, Line.latches, List.map_map, List.map_map] at hmap
    exact hmap
  · obtain ⟨g, hg, hatt⟩ := hrecorded.attachment p
    rw [ha] at hatt
    exact hcauses p (g a) hatt (by rw [(hg a).1]; exact hc)

/-- A claim about a latching reads the attachments alone. -/
theorem LatchesEvent.congr {e : CondEvent} (h : LatchesEvent u t l e) (hatt : (u.line l).att.list = (s.line l).att.list) :
    LatchesEvent s t l e := by
  obtain ⟨hlatches, hcauses⟩ := h
  refine ⟨by rw [hlatches, hatt], fun p a ha hc => hcauses p a ?_ hc⟩
  rw [Line.attachment_congr hatt, ha]

/-! ## An errored character written alone (R11, R74, R75) -/

theorem line_resetWatch (s : State) (l : LineId) : (resetWatch s l).line l
    = { s.line l with watch := (s.line l).watch.map fun w => { w with progress := 0 } } := State.line_modLine_self s l _

theorem progress_resetWatch (ws : Vector WatchSlot 4) (i : Nat) (h : i < 4) :
    ((ws.map fun w : WatchSlot => { w with progress := 0 })[i]).progress = 0 := by
  rw [Vector.getElem_map]

/-- The records of an errored character: the close of the open one, and the character alone. -/
def erroredWritten (s : State) (l : LineId) (r : Received) : State :=
  flushFrozen
    (writeRecord (closeOpen s l .error 0) l .text CloseCause.error.code r.detail [r.value] fun t => discardChars t l 1) l

theorem captureErrored_eq (s : State) (l : LineId) (r : Received) : captureErrored s l r = resetWatch (erroredWritten s l r) l := rfl

theorem erroredWritten_recorded (s : State) (r : Received) : Recorded l s (erroredWritten s l r) :=
  ((closeOpen_recorded s .error 0).trans
    (writeRecord_recorded _ _ _ _ _ _ fun t => .of_work (discardChars_work t 1))).trans (flushFrozen_recorded _)

/-- The ERROR record of an errored character (R3, R11). -/
def errorRecord (s : State) (l : LineId) (r : Received) : LogRecord :=
  { seq := (s.line l).cap.next, time := s.timebase, kind := .text, cause := 5, detail := r.detail, body := [r.value] }

theorem erroredWritten_wrote (h : (s.line l).roomy 13) (r : Received) :
    Wrote l ((s.line l).closing .error 0 ++ [errorRecord s l r]) 1 13 s (erroredWritten s l r) := by
  obtain ⟨hpages, hroom, hnone, hdue, heval⟩ := h
  have hclose := closeOpen_wrote hpages .error 0
  have hwrite := writeRecord_wrote hclose.pages .text CloseCause.error.code r.detail (body := [r.value]) (fun t => discardChars t l 1)
    (by rw [hclose.room]; exact hroom)
  have hrecord : errorRecord (closeOpen s l .error 0) l r = errorRecord s l r := by
    rw [errorRecord, errorRecord, hclose.next, hclose.recorded.timebase]
    rfl
  change Wrote l [errorRecord (closeOpen s l .error 0) l r] 1 13 _ _ at hwrite
  rw [hrecord] at hwrite
  have hboth := hclose.trans hwrite
  rw [Nat.zero_add] at hboth
  rw [erroredWritten, flushFrozen_of_not_due (hboth.unmarked hnone ⟨hdue, heval⟩).1]
  exact hboth

theorem opened_erroredWritten (s : State) (l : LineId) (r : Received) : ((erroredWritten s l r).line l).cap.opened = none :=
  (flushFrozen_recorded _).opened ((writeRecord_recorded _ _ _ _ _ _ fun t => .of_work (discardChars_work t 1)).opened
    (opened_closeOpen s l .error 0))

/-- A line with an entry in its score window (R74). -/
def scored (s : State) (l : LineId) (entry : Bool) : State := s.modCond l fun x => { x with score := pushScore entry x.score }

theorem line_scored (s : State) (l : LineId) (entry : Bool) : (scored s l entry).line l
    = { s.line l with cond := { (s.line l).cond with score := pushScore entry (s.line l).cond.score } } := State.line_modLine_self s l _

theorem scoreEntry_of_below {entry : Bool} (h : ¬ ((s.line l).io.inForce.autoHunt = true
    ∧ (s.line l).io.inForce.threshold.toNat ≤ (pushScore entry (s.line l).cond.score).count true)) : scoreEntry s l entry = scored s l entry := by
  refine if_neg ?_
  change ¬ (((scored s l entry).line l).io.inForce.autoHunt = true
    ∧ ((scored s l entry).line l).io.inForce.threshold.toNat ≤ ((scored s l entry).line l).errorScore)
  rw [line_scored]
  exact h

theorem scoreEntry_of_reached {entry : Bool} (hauto : (s.line l).io.inForce.autoHunt = true)
    (h : (s.line l).io.inForce.threshold.toNat ≤ (pushScore entry (s.line l).cond.score).count true) :
    scoreEntry s l entry = enterHuntState (scored s l entry) l := by
  refine if_pos ?_
  change ((scored s l entry).line l).io.inForce.autoHunt = true
    ∧ ((scored s l entry).line l).io.inForce.threshold.toNat ≤ ((scored s l entry).line l).errorScore
  rw [line_scored]
  exact ⟨hauto, h⟩

theorem line_beginHunt (s : State) (l : LineId) : (beginHunt s l).line l = { s.line l with
    watch := (s.line l).watch.map fun w => { w with progress := 0 }
    cond := { (s.line l).cond with
      state := .hunt, huntIndex := 0, patternProgress := 0, huntDiscard := 0, score := [], nullPending := false } } := by
  rw [beginHunt, line_resetWatch, State.modCond_eq, State.line_modLine_self]

theorem timebase_seen (s : State) (l : LineId) (r : Received) : (seen s l r).timebase = s.timebase := rfl

/-- Settles O40: a candidate is a condition event; any other errored character is a record, and a score that may begin a hunt. -/
theorem anErroredCharacterIsABreakOrLoggedAlone : Obligations.AnErroredCharacterIsABreakOrLoggedAlone := by
  refine ⟨fun s l data parity stop r hrun hr hcand => ?_, fun s l data parity stop r hrun hr => ?_⟩
  · obtain ⟨herrored, hframing⟩ := Received.errored_of_candidate hcand
    have hseen := line_seen s l r
    rw [hframing, if_pos rfl] at hseen
    have hexec := exec_characterComplete_of_completes (by rw [hrun]; decide) hr
    rw [classify_run_errored (by rw [hseen]; exact hrun) herrored, runCharacter_candidate hcand] at hexec
    have hbroken : (((clearNull (seen s l r) l).modCond l fun x => { x with state := .brk })).line l = { s.line l with
        io := { (s.line l).io with receiver := .waitMarking }
        cond := { (s.line l).cond with state := .brk, nullPending := false } } := by
      rw [State.modCond_eq, State.line_modLine_self, line_clearNull, hseen]
    have htime : ((clearNull (seen s l r) l).modCond l fun x => { x with state := .brk }).timebase = s.timebase := rfl
    generalize (clearNull (seen s l r) l).modCond l _ = v at hexec hbroken htime
    have hframe := conditionEvent_frame (l := l) v .breakStart []
    rw [hbroken] at hframe
    exact ⟨_, hexec, hframe, logsEvent_conditionEvent (by rw [hbroken]; exact ⟨rfl, rfl, rfl⟩) htime .breakStart [],
      latchesEvent_conditionEvent (by rw [hbroken]) .breakStart []⟩
  · intro score herrored hcand
    have hseen := line_seen s l r
    have hexec := exec_characterComplete_of_completes (by rw [hrun]; decide) hr
    rw [classify_run_errored (by rw [hseen]; exact hrun) herrored, runCharacter_errored hcand herrored, captureErrored_eq] at hexec
    have hclear := line_clearNull (seen s l r) l
    have htime : (clearNull (seen s l r) l).timebase = s.timebase := rfl
    rw [hseen] at hclear
    generalize clearNull (seen s l r) l = v at hexec hclear htime
    have hwritten := erroredWritten_recorded (l := l) v r
    have hwrote : (v.line l).roomy 13 → _ := fun h => erroredWritten_wrote h r
    have hopened := opened_erroredWritten v l r
    have hrecord : errorRecord v l r = errorRecord s l r := by rw [errorRecord, errorRecord, hclear, htime]
    have hlog : (s.line l).SameLog (v.line l) := by rw [hclear]; exact ⟨rfl, rfl, rfl⟩
    generalize erroredWritten v l r = w at hexec hwritten hwrote hopened
    have hreset := line_resetWatch w l
    have hsettled := settle_recorded (l := l) (resetWatch w l)
    have hsettle : (w.line l).unmarked → (settle (resetWatch w l) l).line l = (resetWatch w l).line l := by
      intro h
      rw [settle_of_unmarked]
      rw [hreset]
      exact h
    have hlatches : ∀ t, LatchesEvent (settle (resetWatch w l) l) t l .huntStart → LatchesEvent s t l .huntStart := fun t h =>
      (((h.before hsettled).congr (s := w) (by rw [hreset])).before hwritten).congr (by rw [hclear])
    generalize settle (resetWatch w l) l = y at hexec hsettled hsettle hlatches
    have hio : (y.line l).io = { (s.line l).io with receiver := if r.framing then .waitMarking else .between } :=
      hsettled.io.trans (by rw [hreset]; exact hwritten.io.trans (by rw [hclear]))
    have hcond : (y.line l).cond = { (s.line l).cond with nullPending := false } :=
      hsettled.cond.trans (by rw [hreset]; exact hwritten.cond.trans (by rw [hclear]))
    have hwatch : ∀ i (h : i < 4), ((y.line l).watch[i]).progress = 0 := by
      intro i h
      rw [hsettled.watch, hreset]
      exact progress_resetWatch _ i h
    have hforce : (y.line l).io.inForce = (s.line l).io.inForce := by rw [hio]
    have hscore : pushScore true (y.line l).cond.score = score := by rw [hcond]; rfl
    have hscored := line_scored y l true
    refine ⟨_, hexec, ?_⟩
    by_cases hhunts : (s.line l).io.inForce.autoHunt = true ∧ (s.line l).io.inForce.threshold.toNat ≤ score.count true
    · obtain ⟨hauto, hreached⟩ := hhunts
      rw [scoreEntry_of_reached (by rw [hforce]; exact hauto) (by rw [hforce, hscore]; exact hreached), enterHuntState]
      have hbegun := line_beginHunt (scored y l true) l
      rw [hscored] at hbegun
      have hlatched := hlatches _ (latchesEvent_conditionEvent (u := beginHunt (scored y l true) l) (by rw [hbegun]) .huntStart [])
      obtain ⟨hio', hcond', hwatch', -⟩ := conditionEvent_frame (l := l) (beginHunt (scored y l true) l) .huntStart []
      rw [hbegun] at hio' hcond' hwatch'
      generalize conditionEvent _ l .huntStart [] = t at *
      refine ⟨hio'.trans hio, by rw [hcond'], fun i h => ?_, fun hnot => absurd ⟨hauto, hreached⟩ hnot, fun _ _ => ?_⟩
      · rw [hwatch']
        exact progress_resetWatch _ i h
      · rw [hcond']
        exact ⟨rfl, rfl, rfl, rfl, rfl, hlatched⟩
    · rw [scoreEntry_of_below (by rw [hforce, hscore]; exact hhunts), hscored]
      refine ⟨hio, by rw [hcond], hwatch, fun _ => ⟨by rw [hscore, hcond], fun hroomy => ?_⟩,
        fun hauto hreached => absurd ⟨hauto, hreached⟩ hhunts⟩
      obtain ⟨-, -, hnone, hdue, heval⟩ := id (hlog.roomy.mpr hroomy)
      have hmade := hwrote (hlog.roomy.mpr hroomy)
      have hsame := hsettle (hmade.unmarked hnone ⟨hdue, heval⟩)
      rw [hreset] at hsame
      rw [hsame]
      refine ⟨?_, hopened, hmade.next.trans (by rw [hlog.cap]; rfl)⟩
      change (w.line l).closed = _
      rw [hmade.closed, hlog.closed, hlog.closing, hrecord, List.append_assoc]
      rfl

end Sys2Proof.Machine
end

section
/-! Proofs: a stored character opens a record or joins the open one, and closes it at its capacity (R7, R8). -/

namespace Sys2Proof.Machine

open Host

variable {l : LineId} {s t u : State} {p : PortId} {r : Received}

/-! ## The placing of a character (R7, R8) -/

theorem line_openRecord (s : State) (l : LineId) (c : Byte) : (openRecord s l c).line l = { s.line l with
    cap := { (s.line l).cap with
      next := nextSeq (s.line l).cap.next
      opened := some { seq := (s.line l).cap.next, time := s.timebase, body := [c], room := (s.line l).room - 12 }
      idleTimer := some (startTimer s.timebase) }
    pool := { (s.line l).pool with pages := onCurrentPage (Page.take (s.line l).cap.next 13) (s.line l).pool.pages } } :=
  State.line_modLine_self s l _

theorem line_appendCharacter (s : State) (l : LineId) (o : OpenRecord) (c : Byte) : (appendCharacter s l o c).line l = { s.line l with
    cap := { (s.line l).cap with opened := some { o with body := o.body ++ [c] }, idleTimer := some (startTimer s.timebase) }
    pool := { (s.line l).pool with
      pages := onCurrentPage (fun pg => { pg with occupied := pg.occupied + 1 }) (s.line l).pool.pages } } :=
  State.line_modLine_self s l _

/-- What the placing of a character leaves of its line, whether it finds room or not. -/
structure Line.Kept (x y : Line) : Prop where
  io : y.io = x.io
  cond : y.cond = x.cond
  watch : y.watch = x.watch
  queue : y.tx.queue = x.tx.queue

theorem Line.Kept.of_recorded (h : Recorded l s t) : (s.line l).Kept (t.line l) := ⟨h.io, h.cond, h.watch, h.queue⟩

theorem Line.Kept.trans {x y z : Line} (h : x.Kept y) (k : y.Kept z) : x.Kept z :=
  ⟨k.io.trans h.io, k.cond.trans h.cond, k.watch.trans h.watch, k.queue.trans h.queue⟩

theorem placeCharacter_kept (s : State) (l : LineId) (c : Byte) : (s.line l).Kept ((placeCharacter s l c).1.line l) := by
  unfold placeCharacter
  split
  · rename_i o _
    rw [line_appendCharacter]
    exact ⟨rfl, rfl, rfl, rfl⟩
  · have hroom := ensureRoom_recorded (l := l) s (Config.header + 1)
    split
    · rename_i v e
      rw [e] at hroom
      rw [line_openRecord]
      exact ⟨hroom.io, hroom.cond, hroom.watch, hroom.queue⟩
    · rename_i v e
      rw [e] at hroom
      exact .of_recorded (hroom.trans (.of_work (discardChars_work v 1)))

/-! ## A character that no slot watches (R87) -/

/-- No slot of a line is on. -/
def Line.unwatched (x : Line) : Prop := ∀ i (h : i < 4), (x.watch[i]).enabled = false

theorem feed_of_off {w : WatchSlot} (h : w.enabled = false) (c : Byte) : w.feed c = (w, false) := by
  rw [WatchSlot.feed, h, if_neg Bool.false_ne_true]

theorem matchingSlots_of_unwatched {x : Line} (h : x.unwatched) (c : Byte) : matchingSlots x c = [] := by
  refine List.filter_eq_nil_iff.mpr fun i _ => ?_
  rw [feed_of_off (h i.val i.isLt)]
  exact Bool.false_ne_true

theorem feedSlots_of_unwatched (h : (s.line l).unwatched) (c : Byte) : feedSlots s l c = s := by
  refine (State.modLine_congr s l (g := fun x => x) ?_).trans (State.modLine_id s l)
  have hwatch : ((s.line l).watch.map fun w => (w.feed c).1) = (s.line l).watch := by
    refine Vector.ext fun i hi => ?_
    rw [Vector.getElem_map, feed_of_off (h i hi)]
  rw [hwatch]

/-- With no slot on, only the capacity acts on a placed character. -/
theorem actOnCharacter_of_unwatched (h : (s.line l).unwatched) (c : Byte) :
    actOnCharacter s l c = flushFrozen (closeAtCapacity s l) l := by
  rw [actOnCharacter, matchingSlots_of_unwatched h, feedSlots_of_unwatched h]
  rfl

theorem closeAtCapacity_recorded (s : State) : Recorded l s (closeAtCapacity s l) := .of_work (closeAtCapacity_work s)

theorem storeCharacter_of_unwatched (h : (s.line l).unwatched) (hqueue : (s.line l).tx.queue = []) (c : Byte) :
    storeCharacter s l c = settle (if (placeCharacter s l c).2 then flushFrozen (closeAtCapacity (placeCharacter s l c).1 l) l
      else (placeCharacter s l c).1) l := by
  have hkept := placeCharacter_kept s l c
  unfold storeCharacter
  split
  · rename_i v e
    rw [e]
    rfl
  · rename_i v e
    rw [e] at hkept ⊢
    have hwatched : (v.line l).unwatched := by
      rw [Line.unwatched, hkept.watch]
      exact h
    have hempty : ((settle (flushFrozen (closeAtCapacity v l) l) l).line l).tx.queue = [] :=
      (((closeAtCapacity_recorded v).trans (flushFrozen_recorded _)).trans (settle_recorded _)).queue.trans (hkept.queue.trans hqueue)
    dsimp only
    rw [actOnCharacter_of_unwatched hwatched, if_pos hempty, if_pos rfl]

theorem storeCharacter_kept (h : (s.line l).unwatched) (hqueue : (s.line l).tx.queue = []) (c : Byte) :
    (s.line l).Kept ((storeCharacter s l c).line l) := by
  rw [storeCharacter_of_unwatched h hqueue]
  refine (placeCharacter_kept s l c).trans (.of_recorded (.trans ?_ (settle_recorded _)))
  split
  · exact (closeAtCapacity_recorded _).trans (flushFrozen_recorded _)
  · exact .refl l _

/-! ## A record at its capacity (R8) -/

theorem idleTimer_closeOpen {o : OpenRecord} (h : (s.line l).cap.opened = some o) (cause : CloseCause) (detail : Byte) :
    ((closeOpen s l cause detail).line l).cap.idleTimer = none := by
  have hline := State.line_modLine_self s l fun x =>
    { x with
      cap := { x.cap with opened := none, idleTimer := none }
      pool := { x.pool with pages := onCurrentPage (Page.join (o.closed cause detail)) x.pool.pages } }
  change (closeRecord s l o cause detail).line l = _ at hline
  obtain ⟨-, -, hcap, -⟩ := reportComplete_noted (l := l) (closeRecord s l o cause detail)
  rw [closeOpen_of_some h, hcap, State.modPool_eq, State.line_modLine_self, hline]

theorem closeAtCapacity_of_below {o : OpenRecord} (h : (s.line l).cap.opened = some o)
    (hbelow : o.body.length < min (s.line l).io.inForce.maxLength.toNat o.room) : closeAtCapacity s l = s := by
  rw [closeAtCapacity, h]
  exact if_neg (Nat.not_le.mpr hbelow)

theorem closeAtCapacity_of_reached {o : OpenRecord} (h : (s.line l).cap.opened = some o)
    (hreached : min (s.line l).io.inForce.maxLength.toNat o.room ≤ o.body.length) : closeAtCapacity s l
      = closeOpen s l (if (s.line l).io.inForce.maxLength.toNat ≤ o.room then .full else .page) 0 := by
  rw [closeAtCapacity, h]
  refine (if_pos hreached).trans ?_
  rw [Line.capacity]
  simp only [min_eq_left_iff]

/-- A character placed in a record that is open after it, on a line with nothing due. -/
structure Placed (s t : State) (l : LineId) (o : OpenRecord) : Prop where
  opened : (t.line l).cap.opened = some o
  idleTimer : (t.line l).cap.idleTimer = some (startTimer s.timebase)
  closed : (t.line l).closed = (s.line l).closed
  pages : (t.line l).pool.pages ≠ []
  unmarked : (t.line l).unmarked
  freezePending : (t.line l).pool.freezePending = none
  tx : (t.line l).tx = (s.line l).tx
  att : (t.line l).att = (s.line l).att

theorem openRecord_placed (h : (s.line l).roomy 0) (c : Byte) : Placed s (openRecord s l c) l
    { seq := (s.line l).cap.next, time := s.timebase, body := [c], room := (s.line l).room - 12 } := by
  obtain ⟨hpages, -, hnone, hdue, heval⟩ := h
  have hclosed := closed_onCurrentPage (f := Page.take (s.line l).cap.next 13) (rs := []) (fun _ => (List.append_nil _).symm) hpages
  have hline := line_openRecord s l c
  generalize openRecord s l c = t at hline
  refine ⟨by rw [hline], by rw [hline], ?_, by rw [hline]; exact onCurrentPage_ne_nil hpages, by rw [hline]; exact ⟨hdue, heval⟩,
    by rw [hline]; exact hnone, by rw [hline], by rw [hline]⟩
  rw [hline]
  exact hclosed.trans (List.append_nil _)

theorem appendCharacter_placed (h : (s.line l).roomy 0) (o : OpenRecord) (c : Byte) :
    Placed s (appendCharacter s l o c) l { o with body := o.body ++ [c] } := by
  obtain ⟨hpages, -, hnone, hdue, heval⟩ := h
  have hclosed := closed_onCurrentPage (f := fun pg => { pg with occupied := pg.occupied + 1 }) (rs := [])
    (fun _ => (List.append_nil _).symm) hpages
  have hline := line_appendCharacter s l o c
  generalize appendCharacter s l o c = t at hline
  refine ⟨by rw [hline], by rw [hline], ?_, by rw [hline]; exact onCurrentPage_ne_nil hpages, by rw [hline]; exact ⟨hdue, heval⟩,
    by rw [hline]; exact hnone, by rw [hline], by rw [hline]⟩
  rw [hline]
  exact hclosed.trans (List.append_nil _)

/-- A character that finds a record open, or room for the header of one, is placed. -/
theorem placeCharacter_placed (h : (s.line l).roomy 0) (c : Byte)
    (hplace : (s.line l).cap.opened ≠ none ∨ 13 ≤ (s.line l).room) :
    (placeCharacter s l c).2 = true
      ∧ ∃ o, Placed s (placeCharacter s l c).1 l o
        ∧ ((s.line l).cap.opened = none → ((placeCharacter s l c).1.line l).cap.next = nextSeq (s.line l).cap.next
          ∧ o = { seq := (s.line l).cap.next, time := s.timebase, body := [c], room := (s.line l).room - 12 })
        ∧ ∀ old, (s.line l).cap.opened = some old → ((placeCharacter s l c).1.line l).cap.next = (s.line l).cap.next
          ∧ o = { old with body := old.body ++ [c] } := by
  rw [placeCharacter]
  cases hopen : (s.line l).cap.opened with
  | some old =>
    refine ⟨rfl, _, appendCharacter_placed h old c, nofun, fun x hx => ?_⟩
    cases hx
    exact ⟨by rw [line_appendCharacter], rfl⟩
  | none =>
    have hroom : 13 ≤ (s.line l).room := hplace.resolve_left fun hne => hne hopen
    have hfound : ensureRoom s l (Config.header + 1) = (s, true) := ensureRoom_of_room h.1 hroom
    rw [hfound]
    exact ⟨rfl, _, openRecord_placed h c, fun _ => ⟨by rw [line_openRecord], rfl⟩, nofun⟩

/-- A placed character stored: its record stays open below the capacity, and closes at it. -/
structure Stored (s t : State) (l : LineId) (o : OpenRecord) : Prop where
  next : (t.line l).cap.next = (s.line l).cap.next
  tx : (t.line l).tx = (s.line l).tx
  standing : (t.line l).att.list.map Attachment.standing = (s.line l).att.list.map Attachment.standing
  below : o.body.length < min (s.line l).io.inForce.maxLength.toNat o.room →
    (t.line l).cap.opened = some o ∧ (t.line l).closed = (s.line l).closed ∧ (t.line l).cap.idleTimer = (s.line l).cap.idleTimer
  reached : min (s.line l).io.inForce.maxLength.toNat o.room ≤ o.body.length →
    (t.line l).cap.opened = none ∧ (t.line l).cap.idleTimer = none
      ∧ (t.line l).closed = (s.line l).closed
        ++ [o.closed (if (s.line l).io.inForce.maxLength.toNat ≤ o.room then .full else .page) 0]

theorem settle_flushFrozen_of_unmarked (h : (s.line l).unmarked) : settle (flushFrozen s l) l = s := by
  rw [flushFrozen_of_not_due h.1, settle_of_unmarked h]

theorem Placed.stored {o : OpenRecord} (h : Placed s t l o) : Stored t (settle (flushFrozen (closeAtCapacity t l) l) l) l o := by
  by_cases hbelow : o.body.length < min (t.line l).io.inForce.maxLength.toNat o.room
  · rw [closeAtCapacity_of_below h.opened hbelow, settle_flushFrozen_of_unmarked h.unmarked]
    exact ⟨rfl, rfl, rfl, fun _ => ⟨h.opened, rfl, rfl⟩, fun hreached => absurd hbelow (Nat.not_lt.mpr hreached)⟩
  · rw [closeAtCapacity_of_reached h.opened (Nat.not_lt.mp hbelow)]
    have hwrote := closeOpen_wrote h.pages (if (t.line l).io.inForce.maxLength.toNat ≤ o.room then .full else .page) 0
    rw [Line.closing_of_some h.opened] at hwrote
    rw [settle_flushFrozen_of_unmarked (hwrote.unmarked h.freezePending h.unmarked)]
    exact ⟨hwrote.next, hwrote.tx, hwrote.recorded.standing, fun hlt => absurd hlt hbelow,
      fun _ => ⟨opened_closeOpen t l _ 0, idleTimer_closeOpen h.opened _ 0, hwrote.closed⟩⟩

/-- What a character stored on a line with nothing due leaves, by the record it is placed in. -/
structure Stores (x : Line) (time : Word) (y : Line) (c : Byte) (o : OpenRecord) : Prop where
  fresh : x.cap.opened = none → y.cap.next = nextSeq x.cap.next
    ∧ o = { seq := x.cap.next, time := time, body := [c], room := x.room - 12 }
  joined : ∀ old, x.cap.opened = some old →
    y.cap.next = x.cap.next ∧ o = { old with body := old.body ++ [c] }
  tx : y.tx = x.tx
  standing : y.att.list.map Attachment.standing = x.att.list.map Attachment.standing
  below : o.body.length < min x.io.inForce.maxLength.toNat o.room →
    y.cap.opened = some o ∧ y.closed = x.closed
      ∧ y.cap.idleTimer = some (startTimer time)
  reached : min x.io.inForce.maxLength.toNat o.room ≤ o.body.length →
    y.cap.opened = none ∧ y.cap.idleTimer = none
      ∧ y.closed = x.closed
        ++ [o.closed (if x.io.inForce.maxLength.toNat ≤ o.room then .full else .page) 0]

theorem storeCharacter_stores (h : (s.line l).unwatched) (hqueue : (s.line l).tx.queue = []) (hroomy : (s.line l).roomy 0) (c : Byte)
    (hplace : (s.line l).cap.opened ≠ none ∨ 13 ≤ (s.line l).room) : ∃ o, Stores (s.line l) s.timebase ((storeCharacter s l c).line l) c o := by
  rw [storeCharacter_of_unwatched h hqueue]
  obtain ⟨hfound, o, hplaced, hfresh, hjoined⟩ := placeCharacter_placed hroomy c hplace
  rw [hfound, if_pos rfl]
  have hio := (placeCharacter_kept s l c).io
  generalize (placeCharacter s l c).1 = u at hplaced hfresh hjoined hio
  have hstored := hplaced.stored
  generalize settle _ l = t at hstored
  refine ⟨o, ?_, ?_, hstored.tx.trans hplaced.tx, hstored.standing.trans (by rw [hplaced.att]), fun hbelow => ?_, fun hreached => ?_⟩
  · intro hnone
    exact ⟨hstored.next.trans (hfresh hnone).1, (hfresh hnone).2⟩
  · intro old hold
    exact ⟨hstored.next.trans (hjoined old hold).1, (hjoined old hold).2⟩
  · obtain ⟨hopened, hclosed, hidle⟩ := hstored.below (by rw [hio]; exact hbelow)
    exact ⟨hopened, hclosed.trans hplaced.closed, hidle.trans hplaced.idleTimer⟩
  · obtain ⟨hopened, hidle, hclosed⟩ := hstored.reached (by rw [hio]; exact hreached)
    exact ⟨hopened, hidle, by rw [hclosed, hplaced.closed, hio]⟩

/-- A stored character, past the classifier: the suppression of nulls cleared, it is stored and scored (R65, R69, R74). -/
theorem exec_of_stored {data : Byte} {parity stop : Bool} (hr : (s.line l).completes data parity stop r)
    (hstores : (s.line l).stores r) : exec (.characterComplete l data parity stop) s
        = .next (scoreEntry (storeCharacter (clearNull (seen s l r) l) l r.value) l false)
      ∧ (clearNull (seen s l r) l).line l = { s.line l with
        io := { (s.line l).io with receiver := .between }, cond := { (s.line l).cond with nullPending := false } } := by
  obtain ⟨hrun, hclean, hflow, hstrip, hnull⟩ := hstores
  have hseen := line_seen s l r
  rw [(Received.candidate_of_clean hclean).2, if_neg Bool.false_ne_true] at hseen
  have hexec := exec_characterComplete_of_completes (by rw [hrun]; decide) hr
  rw [classify_run_clean (by rw [hseen]; exact hrun) hclean, hseen, if_neg fun h => hflow ⟨h.1, .inl h.2⟩,
    if_neg fun h => hflow ⟨h.1, .inr h.2⟩, if_neg hstrip, runCharacter_clean hclean, hseen, if_neg hnull] at hexec
  have hclear := line_clearNull (seen s l r) l
  rw [hseen] at hclear
  exact ⟨hexec, hclear⟩

/-- Settles O41: the character is placed in a new record or in the open one, and then the capacity closes it. -/
theorem aStoredCharacterOpensOrJoins : Obligations.AStoredCharacterOpensOrJoins := by
  intro s l data parity stop r hr hstores m hauto hwatch hroomy hqueue
  obtain ⟨hexec, hclear⟩ := exec_of_stored hr hstores
  have htime : (clearNull (seen s l r) l).timebase = s.timebase := rfl
  generalize clearNull (seen s l r) l = v at hexec hclear htime
  have hunwatched : (v.line l).unwatched := by rw [Line.unwatched, hclear]; exact hwatch
  have hempty : (v.line l).tx.queue = [] := by rw [hclear]; exact hqueue
  have hvroomy : (v.line l).roomy 0 := by rw [hclear]; exact hroomy
  have hkept := storeCharacter_kept hunwatched hempty r.value
  have hstored : (s.line l).cap.opened ≠ none ∨ 13 ≤ (s.line l).room →
      ∃ o, Stores (s.line l) s.timebase ((storeCharacter v l r.value).line l) r.value o := by
    intro hplace
    obtain ⟨o, h⟩ := storeCharacter_stores hunwatched hempty hvroomy r.value (by rw [hclear]; exact hplace)
    rw [hclear, htime] at h
    exact ⟨o, h.fresh, h.joined, h.tx, h.standing, h.below, h.reached⟩
  rw [hclear] at hkept
  generalize storeCharacter v l r.value = w at hexec hkept hstored
  have hscored := line_scored w l false
  rw [scoreEntry_of_below (by rw [hkept.io, hauto]; exact fun h => Bool.false_ne_true h.1)] at hexec
  refine ⟨_, hexec, ?_⟩
  have hclosed : ((scored w l false).line l).closed = (w.line l).closed := by rw [hscored]; rfl
  generalize scored w l false = t at hscored hclosed
  rw [hclosed, hscored]
  refine ⟨by rw [hkept.io], ?_, hkept.watch, fun hplace => ?_, fun o ho => ?_, fun hnone hroom => ?_, fun hsome => ?_⟩
  · rw [hkept.cond]
    rfl
  · obtain ⟨_, hstores⟩ := hstored hplace
    exact ⟨hstores.tx, hstores.standing⟩
  · have hmade : ∃ o', Stores (s.line l) s.timebase (w.line l) r.value o' ∧ o = o' := by
      rcases ho with ⟨hnone, hroom, ho⟩ | ⟨old, hold, ho⟩
      · obtain ⟨o', hstores⟩ := hstored (.inr hroom)
        exact ⟨o', hstores, ho.trans (hstores.fresh hnone).2.symm⟩
      · obtain ⟨o', hstores⟩ := hstored (.inl (by rw [hold]; exact Option.some_ne_none old))
        exact ⟨o', hstores, ho.trans (hstores.joined old hold).2.symm⟩
    obtain ⟨o', hstores, rfl⟩ := hmade
    exact ⟨hstores.below, hstores.reached⟩
  · obtain ⟨_, hstores⟩ := hstored (.inr hroom)
    exact (hstores.fresh hnone).1
  · obtain ⟨_, hstores⟩ := hstored (.inl hsome)
    obtain ⟨old, hold⟩ := Option.ne_none_iff_exists'.mp hsome
    exact (hstores.joined old hold).1

end Sys2Proof.Machine
end

section
/-! Proofs: a character in HUNT moves the candidate, moves the progress of the pattern, or locks (R77, R78). -/

namespace Sys2Proof.Machine

open Host

variable {l : LineId} {s t u : State} {p : PortId} {r : Received}

/-! ## The character counted, and the pattern (R77) -/

theorem classify_hunt (h : (s.line l).cond.state = .hunt) (r : Received) : classify s l r = huntCharacter s l r := by
  rw [classify, h]

/-- A line whose hunt has counted one more character. -/
def huntCounted (s : State) (l : LineId) : State := s.modCond l fun x => { x with huntDiscard := min (x.huntDiscard + 1) 65535 }

theorem line_huntCounted (s : State) (l : LineId) : (huntCounted s l).line l = { s.line l with
    cond := { (s.line l).cond with huntDiscard := min ((s.line l).cond.huntDiscard + 1) 65535 } } := State.line_modLine_self s l _

theorem huntCharacter_errored (h : r.errored = true) : huntCharacter s l r = (huntCounted s l).modCond l fun x =>
    { x with huntIndex := (x.huntIndex + 1) % (s.line l).io.inForce.huntList.length, patternProgress := 0 } := if_pos h

theorem huntCharacter_of_moves {k : Nat} (h : r.errored = false)
    (hmatch : huntMatch (s.line l).io.inForce.huntPattern (s.line l).cond.patternProgress r.value = some k) :
    huntCharacter s l r = (huntCounted s l).modCond l fun x => { x with patternProgress := k } := by
  rw [huntCharacter, h, if_neg Bool.false_ne_true, hmatch]
  rfl

theorem huntCharacter_of_completes (h : r.errored = false)
    (hmatch : huntMatch (s.line l).io.inForce.huntPattern (s.line l).cond.patternProgress r.value = none) :
    huntCharacter s l r = lockRate (huntCounted s l) l := by
  rw [huntCharacter, h, if_neg Bool.false_ne_true, hmatch]
  rfl

theorem huntMatch_one {a c : Byte} (h : c ≠ a) (k : Nat) : huntMatch [a] k c = some 0 := if_neg h

theorem huntMatch_two {a b c : Byte} {k : Nat} (h : ¬ (k = 1 ∧ c = b)) : huntMatch [a, b] k c = some (if c = a then 1 else 0) :=
  if_neg h

theorem huntMatch_completed {pattern : List Byte} {c : Byte} {k : Nat} (h : pattern = [c] ∨ (k = 1 ∧ ∃ a, pattern = [a, c])) :
    huntMatch pattern k c = none := by
  obtain rfl | ⟨hk, a, rfl⟩ := h
  · exact if_pos rfl
  · exact if_pos ⟨hk, rfl⟩

/-! ## The lock (R78) -/

/-- A line that has taken the candidate's divisor and entered RUN. -/
def rateTaken (s : State) (l : LineId) : State :=
  refreshTransmitter
    (s.modLine l fun x =>
      { x with
        io :=
          { x.io with
            settings := { x.io.settings with divisor := (s.line l).rxDivisor }
            inForce := { x.io.inForce with divisor := (s.line l).rxDivisor } }
        cond := { x.cond with state := .run, patternProgress := 0 } }) l

theorem lockRate_eq (s : State) (l : LineId) : lockRate s l = conditionEvent (rateTaken s l) l .rateLocked
    (bytesLE 2 (s.line l).rxDivisor.toNat ++ bytesLE 2 (s.line l).cond.huntDiscard) := rfl

theorem line_refreshTransmitter (s : State) (l : LineId) : (refreshTransmitter s l).line l = { s.line l with
    tx := if (s.line l).tx.state.atBoundary then { (s.line l).tx with inUse := (s.line l).io.inForce.txUse } else (s.line l).tx } := by
  rw [refreshTransmitter, State.line_modLine_self]
  split <;> rfl

theorem line_rateTaken (s : State) (l : LineId) : ∃ tx, (rateTaken s l).line l = { s.line l with
    io :=
      { (s.line l).io with
        settings := { (s.line l).io.settings with divisor := (s.line l).rxDivisor }
        inForce := { (s.line l).io.inForce with divisor := (s.line l).rxDivisor } }
    cond := { (s.line l).cond with state := .run, patternProgress := 0 }, tx := tx } :=
  ⟨_, by rw [rateTaken, line_refreshTransmitter, State.line_modLine_self]⟩

/-- Settles O42: the hunt moves by the sample of the character and by the pattern, and the lock is a condition event. -/
theorem aHuntMovesAndLocks : Obligations.AHuntMovesAndLocks := by
  intro s l data parity stop r hhunt hr x n d
  have hseen := line_seen s l r
  have hexec := exec_characterComplete_of_completes (by rw [hhunt]; decide) hr
  rw [classify_hunt (by rw [hseen]; exact hhunt)] at hexec
  have hcounted := line_huntCounted (seen s l r) l
  rw [hseen] at hcounted
  refine ⟨_, hexec, fun herrored => ?_, fun a hclean hpattern hvalue => ?_, fun a b hclean hpattern hvalue => ?_,
    fun hclean hcompletes => ?_⟩
  · rw [huntCharacter_errored herrored, hseen, huntCounted, seen, State.modCond_eq, State.modCond_eq, State.modIo_eq,
      State.modLine_modLine, State.modLine_modLine]
    exact State.modLine_congr s l rfl
  · rw [huntCharacter_of_moves (k := 0) hclean (by rw [hseen, hpattern]; exact huntMatch_one hvalue _), State.modCond_eq]
    exact ⟨by rw [State.line_modLine_self, hcounted], rfl⟩
  · rw [huntCharacter_of_moves hclean (by rw [hseen, hpattern]; exact huntMatch_two hvalue), State.modCond_eq]
    exact ⟨by rw [State.line_modLine_self, hcounted], rfl⟩
  · rw [huntCharacter_of_completes hclean (by rw [hseen]; exact huntMatch_completed hcompletes), lockRate_eq]
    have hd : ((huntCounted (seen s l r) l).line l).rxDivisor = d := by rw [hcounted]; rfl
    obtain ⟨tx, htaken⟩ := line_rateTaken (huntCounted (seen s l r) l) l
    have htime : (rateTaken (huntCounted (seen s l r) l) l).timebase = s.timebase := rfl
    rw [hd, hcounted] at htaken ⊢
    generalize rateTaken _ l = v at htaken htime ⊢
    have hframe := conditionEvent_frame (l := l) v .rateLocked (bytesLE 2 d.toNat ++ bytesLE 2 n)
    rw [htaken] at hframe
    obtain ⟨hio, hcond, -⟩ := hframe
    exact ⟨hcond, by rw [hio], by rw [hio],
      logsEvent_conditionEvent (by rw [htaken]; exact ⟨rfl, rfl, rfl⟩) htime .rateLocked (bytesLE 2 d.toNat ++ bytesLE 2 n),
      latchesEvent_conditionEvent (by rw [htaken]) .rateLocked _⟩

end Sys2Proof.Machine
end

section
/-! Proofs: a report of the receive level, and a false start (R45, R47, R68, R70, R72). -/

namespace Sys2Proof.Machine

open Host

variable {l : LineId} {s t u : State} {p : PortId} {r : Received} {level : Level}

/-! ## A report seen by the receiver (R45, R57, R58) -/

theorem Line.takesReport_iff (x : Line) (level : Level) : x.takesReport level = true ↔
    x.cond.state ≠ .off ∧ (x.io.inForce.loopback = false ∨ (level ≠ x.io.level ∧ x.tx.state.drives level = true)) := by
  rw [Line.takesReport, Bool.and_eq_true, Bool.or_eq_true, Bool.and_eq_true, decide_eq_true_iff, decide_eq_true_iff,
    Bool.not_eq_true']

theorem Line.pinAfter_of_loopback {x : Line} (hloop : x.io.inForce.loopback = true) (htakes : x.takesReport level = true) :
    x.pinAfter level = x.io.pinHigh := by
  rw [Line.pinAfter, hloop, htakes]
  rfl

theorem Line.pinAfter_of_pin {x : Line} (h : x.io.inForce.loopback = false ∨ x.takesReport level = false) :
    x.pinAfter level = true ↔ (level = .marking ↔ x.io.inForce.inversion = false) := by
  have hpin : (x.io.inForce.loopback && x.takesReport level) = false := by
    obtain h | h := h
    · rw [h, Bool.false_and]
    · rw [h, Bool.and_false]
  rw [Line.pinAfter, hpin, if_neg Bool.false_ne_true]
  cases level <;> cases x.io.inForce.inversion <;> decide

/-- A line whose receiver has been told a level. -/
def levelSeen (s : State) (l : LineId) (level : Level) : State :=
  (s.modIo l fun x => { x with pinHigh := (s.line l).pinAfter level }).modLine l (Line.seeLevel level)

theorem line_levelSeen (s : State) (l : LineId) (level : Level) : (levelSeen s l level).line l = { s.line l with
    io := { (s.line l).io with
      pinHigh := (s.line l).pinAfter level, level := level, receiver := (s.line l).receiverTold level }
    tx := (s.line l).tx.levelTold } := by
  rw [levelSeen, State.line_modLine_self, State.modIo_eq, State.line_modLine_self]
  rfl

theorem exec_receiveLevelReport_taken (h : (s.line l).takesReport level = true) :
    exec (.receiveLevelReport l level) s = .next (takeLevelReport (levelSeen s l level) l level) := by
  change execReceiveLevelReport l level s = _
  rw [execReceiveLevelReport, h]
  rfl

theorem exec_receiveLevelReport_pin (h : (s.line l).takesReport level = false) :
    exec (.receiveLevelReport l level) s = .next (s.modIo l fun x => { x with pinHigh := (s.line l).pinAfter level }) := by
  change execReceiveLevelReport l level s = _
  rw [execReceiveLevelReport, h]
  rfl

/-! ## A report taken by the line condition unit (R68, R70, R72) -/

/-- A line whose break has ended, BREAK END still to be written. -/
def breakEnded (s : State) (l : LineId) : State :=
  s.modCond l fun x => { x with state := .run, downTimer := none, nullPending := (s.line l).io.inForce.breakNull }

theorem line_breakEnded (s : State) (l : LineId) : (breakEnded s l).line l = { s.line l with
    cond := { (s.line l).cond with state := .run, downTimer := none, nullPending := (s.line l).io.inForce.breakNull } } :=
  State.line_modLine_self s l _

theorem takeLevelReport_marking_brk (h : (s.line l).cond.state = .brk) :
    takeLevelReport s l .marking = conditionEvent (breakEnded s l) l .breakEnd [] := by
  unfold takeLevelReport
  rw [h]
  rfl

theorem takeLevelReport_marking_down (h : (s.line l).cond.state = .down) : takeLevelReport s l .marking = s.modCond l fun x =>
    { x with downTimer := none, upTimer := some (x.upTimer.getD (startTimer s.timebase)) } := by
  unfold takeLevelReport
  rw [h]

theorem takeLevelReport_marking_up (h : (s.line l).cond.state = .run ∨ (s.line l).cond.state = .hunt) :
    takeLevelReport s l .marking = s.modCond l fun x => { x with downTimer := none } := by
  obtain h | h := h <;> (unfold takeLevelReport; rw [h])

theorem takeLevelReport_spacing_up
    (h : (s.line l).cond.state = .run ∨ (s.line l).cond.state = .brk ∨ (s.line l).cond.state = .hunt) :
    takeLevelReport s l .spacing = s.modCond l fun x =>
      { x with downTimer := some (x.downTimer.getD (startTimer s.timebase)) } := by
  obtain h | h | h := h <;> (unfold takeLevelReport; rw [h])

theorem takeLevelReport_spacing_down (h : (s.line l).cond.state = .down) : takeLevelReport s l .spacing = s := by
  unfold takeLevelReport
  rw [h]

theorem takeLevelReport_off (h : (s.line l).cond.state = .off) (level : Level) : takeLevelReport s l level = s := by
  cases level <;> (unfold takeLevelReport; rw [h])

/-- Outside the end of a break a report moves the condition alone. -/
theorem takeLevelReport_cond (h : ¬ (level = .marking ∧ (s.line l).cond.state = .brk)) :
    ∃ cond, (takeLevelReport s l level).line l = { s.line l with cond := cond } := by
  have hmod : ∀ f, ∃ cond, (s.modCond l f).line l = { s.line l with cond := cond } := fun f => ⟨_, State.line_modLine_self s l _⟩
  cases hstate : (s.line l).cond.state with
  | off => exact ⟨_, by rw [takeLevelReport_off hstate]⟩
  | run =>
    cases level with
    | marking => rw [takeLevelReport_marking_up (.inl hstate)]; exact hmod _
    | spacing => rw [takeLevelReport_spacing_up (.inl hstate)]; exact hmod _
  | brk =>
    cases level with
    | marking => exact absurd ⟨rfl, hstate⟩ h
    | spacing => rw [takeLevelReport_spacing_up (.inr (.inl hstate))]; exact hmod _
  | down =>
    cases level with
    | marking => rw [takeLevelReport_marking_down hstate]; exact hmod _
    | spacing => exact ⟨_, by rw [takeLevelReport_spacing_down hstate]⟩
  | hunt =>
    cases level with
    | marking => rw [takeLevelReport_marking_up (.inr hstate)]; exact hmod _
    | spacing => rw [takeLevelReport_spacing_up (.inr (.inr hstate))]; exact hmod _

theorem takeLevelReport_kept (s : State) (l : LineId) (level : Level) :
    ((takeLevelReport s l level).line l).io = (s.line l).io ∧ ((takeLevelReport s l level).line l).watch = (s.line l).watch
      ∧ ((takeLevelReport s l level).line l).tx.queue = (s.line l).tx.queue := by
  by_cases h : level = .marking ∧ (s.line l).cond.state = .brk
  · obtain ⟨rfl, hbrk⟩ := h
    obtain ⟨hio, -, hwatch, -, -, hqueue, -⟩ := conditionEvent_frame (l := l) (breakEnded s l) .breakEnd []
    rw [line_breakEnded] at hio hwatch hqueue
    rw [takeLevelReport_marking_brk hbrk]
    exact ⟨hio, hwatch, hqueue⟩
  · obtain ⟨cond, hline⟩ := takeLevelReport_cond h
    rw [hline]
    exact ⟨rfl, rfl, rfl⟩

/-! ## A false start (R45) -/

theorem Line.edgeDrives_of_pin {x : Line} (h : x.io.inForce.loopback = false) : x.edgeDrives = .carried := by
  rw [Line.edgeDrives, h, if_neg Bool.false_ne_true]

theorem exec_falseStart (s : State) (l : LineId) : exec (.falseStart l) s = .next (s.modIo l fun x =>
    { x with receiver := match x.receiver with
        | .inCharacter _ _ _ => .between
        | .between => .between
        | .waitMarking => .waitMarking }) := rfl

/-- Every level is driven inside a character; otherwise the state's own. -/
theorem TxState.drives_eq (x : TxState) (level : Level) : x.drives level = match x with
    | .sending _ => true
    | .breaking _ _ => decide (level = .spacing)
    | .idle | .gap _ _ | .closing | .paused => decide (level = .marking) := by
  cases x <;> cases level <;> rfl

theorem Line.edgeDrives_eq (x : Line) : x.edgeDrives = if x.io.inForce.loopback = false then .carried else match x.tx.state with
    | .sending c =>
      if x.tx.inUse.edgeAhead = true ∧ x.tx.inUse.divisor = x.rxDivisor ∧ x.tx.inUse.format = x.io.inForce.format then
        .character c
      else .carried
    | .breaking _ _ => .spacing
    | .idle | .gap _ _ | .closing | .paused => .carried := by
  rw [Line.edgeDrives]
  cases x.io.inForce.loopback <;> rfl

theorem Line.receiverTold_eq (x : Line) (level : Level) : x.receiverTold level = match level, x.io.receiver with
    | .spacing, .between => .inCharacter x.rxDivisor x.io.inForce.format x.edgeDrives
    | .marking, .waitMarking => .between
    | .marking, .inCharacter d f .spacing => .inCharacter d f .carried
    | _, r => r := rfl

/-- Settles O43: a report not taken moves the pin alone; one taken is seen by the receiver and moves the condition; a false start
drops the start edge. -/
theorem levelReportsMoveTheCondition : Obligations.LevelReportsMoveTheCondition := by
  refine ⟨fun s l level => ?_, fun s l => ?_⟩
  · intro x driven known reported
    have hdriven : driven = x.tx.state.drives level := (TxState.drives_eq _ level).symm
    have hknown : x.edgeDrives = known := x.edgeDrives_eq
    have hreceiver := x.receiverTold_eq level
    rw [hknown] at hreceiver
    have htakes : x.takesReport level = true ↔ reported := by
      rw [Line.takesReport_iff, ← hdriven]
    by_cases hreported : reported
    · have hlevel := line_levelSeen s l level
      have htime : (levelSeen s l level).timebase = s.timebase := rfl
      have hexec := exec_receiveLevelReport_taken (htakes.mpr hreported)
      obtain ⟨hio, hwatch, hqueue⟩ := takeLevelReport_kept (levelSeen s l level) l level
      rw [hlevel] at hio hwatch hqueue
      refine ⟨_, hexec, fun h => ?_, fun h => ?_, by rw [hio], by rw [hio], hwatch, hqueue, fun h => absurd hreported h, fun _ => ?_⟩
      · rw [hio]
        exact Line.pinAfter_of_loopback h.1 (htakes.mpr hreported)
      · rw [hio]
        exact Line.pinAfter_of_pin (.inl (h.resolve_right fun hnot => hnot hreported))
      refine ⟨by rw [hio], by rw [hio]; exact hreceiver, fun h => ?_, fun hm hup => ?_, fun hm hbrk => ?_, fun hm hdown => ?_,
        fun hs hup => ?_, fun hs hdown => ?_⟩
      · obtain ⟨cond, hline⟩ := takeLevelReport_cond (s := levelSeen s l level) (l := l) (level := level) (by rw [hlevel]; exact h)
        rw [hline, hlevel]
        rfl
      · subst hm
        rw [takeLevelReport_marking_up (by rw [hlevel]; exact hup), State.modCond_eq, State.line_modLine_self, hlevel]
        exact ⟨rfl, rfl⟩
      · subst hm
        have hended := line_breakEnded (levelSeen s l .marking) l
        have htime' : (breakEnded (levelSeen s l .marking) l).timebase = s.timebase := rfl
        rw [takeLevelReport_marking_brk (by rw [hlevel]; exact hbrk)]
        rw [hlevel] at hended
        generalize breakEnded _ l = v at hended htime' ⊢
        obtain ⟨-, hcond, -⟩ := conditionEvent_frame (l := l) v .breakEnd []
        rw [hended] at hcond
        exact ⟨hcond, logsEvent_conditionEvent (by rw [hended]; exact ⟨rfl, rfl, rfl⟩) htime' .breakEnd [],
          latchesEvent_conditionEvent (by rw [hended]) .breakEnd []⟩
      · subst hm
        rw [takeLevelReport_marking_down (by rw [hlevel]; exact hdown), State.modCond_eq, State.line_modLine_self, hlevel, htime]
        exact ⟨rfl, rfl⟩
      · subst hs
        rw [takeLevelReport_spacing_up (by rw [hlevel]; exact hup), State.modCond_eq, State.line_modLine_self, hlevel, htime]
        exact ⟨rfl, rfl⟩
      · subst hs
        rw [takeLevelReport_spacing_down (by rw [hlevel]; exact hdown), hlevel]
        exact ⟨rfl, rfl⟩
    · have htakes' : x.takesReport level = false := by
        rw [← Bool.not_eq_true, htakes]
        exact hreported
      have hline := State.line_modLine_self s l fun y => { y with io := { y.io with pinHigh := x.pinAfter level } }
      have hpin : ((s.modIo l fun y => { y with pinHigh := x.pinAfter level }).line l).io.pinHigh = x.pinAfter level := by
        rw [State.modIo_eq, hline]
      refine ⟨_, exec_receiveLevelReport_pin htakes', fun h => absurd h.2 hreported, fun _ => ?_, ?_, ?_, ?_, ?_, fun _ => ?_,
        fun h => absurd h hreported⟩
      · rw [hpin]
        exact Line.pinAfter_of_pin (.inr htakes')
      · rw [State.modIo_eq, hline]
      · rw [State.modIo_eq, hline]
      · rw [State.modIo_eq, hline]
      · rw [State.modIo_eq, hline]
      · rw [hpin]
  · have hline := State.line_modLine_self s l fun y => { y with io := { y.io with receiver := match y.io.receiver with
      | .inCharacter _ _ _ => .between
      | .between => .between
      | .waitMarking => .waitMarking } }
    refine ⟨_, exec_falseStart s l, fun d f k h => ?_, fun h => ?_, ?_, rfl⟩
    · rw [State.modIo_eq, hline, h]
    · refine (State.modLine_congr s l (g := fun y => y) ?_).trans (State.modLine_id s l)
      generalize s.line l = x at h ⊢
      obtain ⟨⟨_, _, _, _, receiver⟩, _, _⟩ := x
      cases receiver with
      | inCharacter d f k => exact absurd rfl (h d f k)
      | between => rfl
      | waitMarking => rfl
    · rw [State.modIo_eq, hline]

end Sys2Proof.Machine
end

section
/-! Proofs: the expiries of a line's timers: the idle, the down and the up timer (R9, R71, R72). -/

namespace Sys2Proof.Machine

open Host

variable {l : LineId} {s t u : State} {p : PortId} {r : Received}

/-! ## The idle timer (R9) -/

theorem exec_idleTimerExpiry_of_due (h : timerDue (s.line l).cap.idleTimer = true) :
    exec (.idleTimerExpiry l) s = .next (settle (closeOpen s l .idle 0) l) := by
  change execIdleTimerExpiry l s = _
  rw [execIdleTimerExpiry, if_pos h]

/-! ## What a start point leaves of latches and conditions (R52, R83) -/

/-- CONDITION stands at the ports where it stood. -/
def ConditionsKept (s t : State) : Prop := CausesKept (fun c => decide (c.kind = .condition)) s t

theorem CausesKept.mono {f g : Cause → Bool} (h : CausesKept g s t) (hfg : ∀ c, f c = true → g c = true) : CausesKept f s t := by
  intro q
  have hfilter : ∀ cs : List Cause, cs.filter f = (cs.filter g).filter f := fun cs => by
    rw [List.filter_filter]
    refine List.filter_congr fun c _ => ?_
    cases hf : f c with
    | true => rw [hfg c hf, Bool.and_self]
    | false => rw [Bool.false_and]
  rw [hfilter, h q, ← hfilter]

theorem CausesKept.conditions (h : CausesKept Cause.apart s t) : ConditionsKept s t :=
  h.mono fun _ hc => Cause.apart_of_condition (of_decide_eq_true hc)

theorem testDrain_conditionsKept (s : State) : ConditionsKept s (testDrain s l) := by
  unfold testDrain
  split
  · exact CausesKept.post (fun c hc => decide_eq_false (by rw [hc]; decide)) s _ l 0
  · exact .refl _ s

theorem startPoint_latches (s : State) (l : LineId) :
    ((startPoint s l).line l).latches = (s.line l).latches ∧ ConditionsKept s (startPoint s l) := by
  cases hflow : (s.line l).tx.flowSlot with
  | some c =>
    rw [startPoint_of_flow hflow, State.line_modLine_self]
    exact ⟨rfl, .refl _ s⟩
  | none =>
    cases hpause : (s.line l).tx.pause with
    | true =>
      rw [startPoint_of_pause hflow hpause, State.line_modLine_self]
      exact ⟨rfl, .refl _ s⟩
    | false =>
      match hqueue : (s.line l).tx.queue with
      | [] =>
        rw [startPoint_of_empty hflow hpause hqueue, State.line_modLine_self]
        exact ⟨rfl, .refl _ s⟩
      | .character b :: rest =>
        rw [startPoint_of_character hflow hpause hqueue, line_takeEntry]
        exact ⟨rfl, testDrain_conditionsKept _⟩
      | .marker d q :: rest =>
        rw [startPoint_of_marker hflow hpause hqueue]
        have hline := line_takeEntry s l rest (.breaking d (startTimer s.timebase))
        have hkept : ConditionsKept s _ := testDrain_conditionsKept (l := l)
          (s.modLine l fun x => x.starting fun y => { y with queue := rest, state := .breaking d (startTimer s.timebase) })
        generalize testDrain _ l = v at hline hkept ⊢
        exact ⟨(event_recorded v _ _).latches.trans (by rw [hline]; rfl), hkept.trans (event_causesKept v _ _).conditions⟩

theorem LatchesEvent.after {e : CondEvent} (h : LatchesEvent s t l e) (hlatches : (u.line l).latches = (t.line l).latches)
    (hcauses : ConditionsKept t u) : LatchesEvent s u l e := by
  obtain ⟨hlatch, hcause⟩ := h
  exact ⟨hlatches.trans hlatch, fun p a ha hc => hcauses.exists_cause (fun _ hk => decide_eq_true hk) (hcause p a ha hc)⟩

theorem endPause_latches (s : State) (l : LineId) :
    ((endPause s l).line l).latches = (s.line l).latches ∧ ConditionsKept s (endPause s l) := by
  have hline := State.line_modLine_self s l fun x => { x with tx := { x.tx with pause := false } }
  by_cases h : (s.line l).tx.state = .paused
  · obtain ⟨hlatches, hkept⟩ := startPoint_latches (s.modTx l fun x => { x with pause := false }) l
    rw [endPause_of_paused h]
    exact ⟨hlatches.trans (by rw [State.modTx_eq, hline]; rfl), hkept⟩
  · rw [endPause_of_unpaused h]
    exact ⟨by rw [State.modTx_eq, hline]; rfl, .refl _ s⟩

/-- The end of a pause leaves settings, condition and watch slots. -/
theorem endPause_kept (s : State) (l : LineId) : ((endPause s l).line l).tx.pause = false
    ∧ ((endPause s l).line l).io = (s.line l).io ∧ ((endPause s l).line l).cond = (s.line l).cond
    ∧ ((endPause s l).line l).watch = (s.line l).watch := by
  have hline := State.line_modLine_self s l fun x => { x with tx := { x.tx with pause := false } }
  by_cases h : (s.line l).tx.state = .paused
  · have hstarted := startPoint_started (s.modTx l fun x => { x with pause := false }) l
    obtain ⟨hpause, -⟩ := startPoint_of_unpaused (s := s.modTx l fun x => { x with pause := false }) (l := l)
      (by rw [State.modTx_eq, hline])
    rw [endPause_of_paused h]
    exact ⟨hpause, hstarted.io.trans (by rw [State.modTx_eq, hline]), hstarted.cond.trans (by rw [State.modTx_eq, hline]),
      hstarted.watch.trans (by rw [State.modTx_eq, hline])⟩
  · rw [endPause_of_unpaused h, State.modTx_eq, hline]
    exact ⟨rfl, rfl, rfl, rfl⟩

/-! ## The down timer (R71) -/

/-- A line that has entered DOWN, LINE DOWN still to be written. -/
def wentDown (s : State) (l : LineId) : State :=
  s.modCond l fun x =>
    { x with state := .down, downTimer := none, upTimer := none, patternProgress := 0, huntDiscard := 0, nullPending := false }

theorem line_wentDown (s : State) (l : LineId) : (wentDown s l).line l = { s.line l with
    cond := { (s.line l).cond with
      state := .down, downTimer := none, upTimer := none, patternProgress := 0, huntDiscard := 0, nullPending := false } } :=
  State.line_modLine_self s l _

theorem exec_downTimerExpiry_of_due (h : timerDue (s.line l).cond.downTimer = true) :
    exec (.downTimerExpiry l) s = .next (endPause (conditionEvent (wentDown s l) l .lineDown []) l) := by
  change execDownTimerExpiry l s = _
  rw [execDownTimerExpiry, if_pos h]
  rfl

/-! ## Condition events of a group (R18, R83) -/

theorem groupCondition_kept (s : State) (e : CondEvent) (argument : List Byte) :
    (s.line l).Kept ((groupCondition s l e argument).line l) := by
  have hrecorded := groupEvent_recorded (l := l) (eachPort (latchEvent e l) s) e.event argument
  have hlatch := line_eachLatch (l := l) e s
  rw [groupCondition]
  generalize eachPort (latchEvent e l) s = v at hrecorded hlatch ⊢
  exact ⟨hrecorded.io.trans (by rw [hlatch]; rfl), hrecorded.cond.trans (by rw [hlatch]; rfl),
    hrecorded.watch.trans (by rw [hlatch]; rfl), hrecorded.queue.trans (by rw [hlatch]; rfl)⟩

theorem groupCondition_latches (s : State) (e : CondEvent) (argument : List Byte) :
    ((groupCondition s l e argument).line l).latches = (s.line l).latches.map fun x => x ||| e.bit := by
  rw [groupCondition, (groupEvent_recorded _ e.event argument).latches, line_eachLatch, Line.latches, Line.latches, Line.latched,
    List.map_map, List.map_map]
  rfl

theorem latchesEvent_groupCondition (hatt : (u.line l).att.list = (s.line l).att.list) (e : CondEvent) (argument : List Byte) :
    LatchesEvent s (groupCondition u l e argument) l e := by
  rw [groupCondition]
  exact latchesEvent_of hatt (groupEvent_recorded _ _ _).latches ((causesKept_rule l).write.groupEvent _ e.event argument)

theorem groupCondition_wrote {argument : List Byte} (h : (s.line l).roomy (12 + argument.length)) (e : CondEvent) :
    Wrote l ((s.line l).closing .event 0 ++ [eventRecord s l e.event argument]) 1 (12 + argument.length)
      (eachPort (latchEvent e l) s) (groupCondition s l e argument) := by
  have hlog := sameLog_eachLatch (l := l) e s
  rw [groupCondition, ← hlog.closing, ← eventRecord_of_sameLog hlog (timebase_eachLatch e s)]
  generalize eachPort (latchEvent e l) s = v at hlog ⊢
  obtain ⟨hpages, hroom, -⟩ := hlog.roomy.mpr h
  exact groupEvent_wrote hpages e.event hroom

theorem timebase_groupCondition (s : State) (e : CondEvent) (argument : List Byte) :
    (groupCondition s l e argument).timebase = s.timebase := by
  rw [groupCondition, (groupEvent_recorded (l := l) _ e.event argument).timebase, timebase_eachLatch]

/-! ## The up timer (R72, R76) -/

/-- A line that is up again, in RUN, LINE UP still to be written. -/
def cameUp (s : State) (l : LineId) : State :=
  s.modLine l fun x =>
    { x with
      cond :=
        { x.cond with
          state := .run, upTimer := none, huntOnUp := false
          downTimer := if x.io.level = .spacing then some (startTimer s.timebase) else none } }

theorem line_cameUp (s : State) (l : LineId) : (cameUp s l).line l = { s.line l with
    cond := { (s.line l).cond with
      state := .run, upTimer := none, huntOnUp := false
      downTimer := if (s.line l).io.level = .spacing then some (startTimer s.timebase) else none } } :=
  State.line_modLine_self s l _

theorem exec_upTimerExpiry_runs (h : timerDue (s.line l).cond.upTimer = true)
    (hruns : ¬ ((s.line l).io.inForce.autoHunt = true ∨ (s.line l).cond.huntOnUp = true)) :
    exec (.upTimerExpiry l) s = .next (settle (groupCondition (cameUp s l) l .lineUp []) l) := by
  change execUpTimerExpiry l s = _
  rw [execUpTimerExpiry, if_pos h]
  exact congrArg (fun x => Outcome.next (settle x l)) (if_neg (by rw [Bool.or_eq_true]; exact hruns))

theorem exec_upTimerExpiry_hunts (h : timerDue (s.line l).cond.upTimer = true)
    (hhunts : (s.line l).io.inForce.autoHunt = true ∨ (s.line l).cond.huntOnUp = true) :
    exec (.upTimerExpiry l) s
      = .next (settle (groupCondition (beginHunt (groupCondition (cameUp s l) l .lineUp []) l) l .huntStart []) l) := by
  change execUpTimerExpiry l s = _
  rw [execUpTimerExpiry, if_pos h]
  exact congrArg (fun x => Outcome.next (settle x l)) (if_pos (by rw [Bool.or_eq_true]; exact hhunts))

theorem opened_groupCondition (s : State) (l : LineId) (e : CondEvent) (argument : List Byte) :
    ((groupCondition s l e argument).line l).cap.opened = none := by
  rw [groupCondition]
  exact opened_groupEvent _ l e.event argument

theorem oldest_eachLatch (e : CondEvent) (s : State) : ((eachPort (latchEvent e l) s).line l).cap.oldest = (s.line l).cap.oldest := by
  rw [line_eachLatch]
  rfl

/-- The log after a condition event of a group on a page with room: what a group goes on with. -/
theorem groupCondition_grown {argument : List Byte} {more : Nat} (h : (s.line l).roomy (12 + argument.length + more)) (e : CondEvent) :
    ((groupCondition s l e argument).line l).closed
        = (s.line l).closed ++ (s.line l).closing .event 0 ++ [eventRecord s l e.event argument]
      ∧ ((groupCondition s l e argument).line l).cap.next = nextSeq (s.line l).cap.next
      ∧ ((groupCondition s l e argument).line l).cap.oldest = (s.line l).cap.oldest
      ∧ ((groupCondition s l e argument).line l).roomy more := by
  have hwrote := groupCondition_wrote (argument := argument) (h.mono (by omega)) e
  have hlog := sameLog_eachLatch (l := l) e s
  have hroomy := hwrote.roomy (hlog.roomy.mpr h)
  have holdest := hwrote.oldest.trans (oldest_eachLatch e s)
  have hclosed := hwrote.closed
  have hnext := hwrote.next
  rw [hlog.closed, ← List.append_assoc] at hclosed
  rw [hlog.cap] at hnext
  exact ⟨hclosed, hnext, holdest, hroomy⟩

/-- Settles O44: the idle timer closes the record; the down and the up timer are condition events. -/
theorem timerExpiriesMoveTheLine : Obligations.TimerExpiriesMoveTheLine := by
  refine ⟨fun s l o hdue hopen => ?_, fun s l hdue => ?_, fun s l hdue => ?_⟩
  · have hrecorded := (Recorded.of_work (closeOpen_work (l := l) s .idle 0).1).trans (settle_recorded _)
    refine ⟨_, exec_idleTimerExpiry_of_due hdue, (settle_recorded _).opened (opened_closeOpen s l _ _), hrecorded.io, hrecorded.cond,
      hrecorded.watch, fun hroomy => ?_⟩
    obtain ⟨hpages, -, hnone, -⟩ := id hroomy
    have hwrote := closeOpen_wrote hpages .idle 0
    rw [Line.closing_of_some hopen] at hwrote
    rw [settle_of_unmarked (hwrote.unmarked hnone hroomy.unmarked)]
    exact ⟨hwrote.closed, hwrote.next, idleTimer_closeOpen hopen _ _, hwrote.tx⟩
  · have hdown := line_wentDown s l
    have htime : (wentDown s l).timebase = s.timebase := rfl
    have hexec := exec_downTimerExpiry_of_due hdue
    generalize wentDown s l = v at hexec hdown htime
    obtain ⟨hio, hcond, hwatch, -, -, hqueue, -⟩ := conditionEvent_frame (l := l) v .lineDown []
    have hlogs : LogsEvent s (conditionEvent v l .lineDown []) l .lineDown [] :=
      logsEvent_conditionEvent (by rw [hdown]; exact ⟨rfl, rfl, rfl⟩) htime .lineDown []
    have hlatches : LatchesEvent s (conditionEvent v l .lineDown []) l .lineDown :=
      latchesEvent_conditionEvent (by rw [hdown]) .lineDown []
    have hpaused : (s.line l).tx.state ≠ .paused → ((conditionEvent v l .lineDown []).line l).tx.state ≠ .paused := by
      intro h
      rw [conditionEvent]
      refine (event_flowed _ _ _).not_paused ?_
      rw [line_eachLatch, hdown]
      exact h
    generalize conditionEvent v l .lineDown [] = w at *
    obtain ⟨hpause, hio', hcond', hwatch'⟩ := endPause_kept w l
    obtain ⟨hlatches', hkept⟩ := endPause_latches w l
    refine ⟨_, hexec, hcond'.trans (hcond.trans (by rw [hdown])), hpause, hlatches.after hlatches' hkept, fun h => ?_,
      hio'.trans (hio.trans (by rw [hdown])), hwatch'.trans (hwatch.trans (by rw [hdown]))⟩
    have hline := State.line_modLine_self w l fun x => { x with tx := { x.tx with pause := false } }
    rw [endPause_of_unpaused (hpaused h)]
    exact ⟨by rw [State.modTx_eq, hline]; exact hqueue.trans (by rw [hdown]),
      hlogs.congr (.refl _) rfl (by rw [State.modTx_eq, hline]) (by rw [State.modTx_eq, hline])⟩
  · intro hunts
    have hup := line_cameUp s l
    have htime : (cameUp s l).timebase = s.timebase := rfl
    have hruns := fun h => exec_upTimerExpiry_runs (s := s) (l := l) hdue h
    have hhunts := fun h => exec_upTimerExpiry_hunts (s := s) (l := l) hdue h
    generalize cameUp s l = v at hup htime hruns hhunts
    have hsame : (s.line l).SameLog (v.line l) := by rw [hup]; exact ⟨rfl, rfl, rfl⟩
    have hrecord : eventRecord v l CondEvent.lineUp.event [] = eventRecord s l .lineUp [] := eventRecord_of_sameLog hsame htime _ []
    have hkept := groupCondition_kept (l := l) v .lineUp []
    have hopened := opened_groupCondition v l .lineUp []
    have hgrown : ∀ more, (v.line l).roomy (12 + more) → _ := fun more h => groupCondition_grown (argument := []) h .lineUp
    have hlatches := latchesEvent_groupCondition (s := s) (u := v) (by rw [hup]) .lineUp []
    have hset := groupCondition_latches (l := l) v .lineUp []
    have htime' := (timebase_groupCondition (l := l) v .lineUp []).trans htime
    rw [hup] at hkept
    simp only [hsame.roomy, hsame.closed, hsame.closing, hsame.cap, hrecord] at hgrown
    by_cases h : hunts
    · have hexec := hhunts h
      generalize groupCondition v l .lineUp [] = w at hexec hkept hopened hgrown hset htime'
      have hbegun := line_beginHunt w l
      have hbtime : (beginHunt w l).timebase = w.timebase := rfl
      generalize beginHunt w l = b at hexec hbegun hbtime
      have hbsame : (w.line l).SameLog (b.line l) := by rw [hbegun]; exact ⟨rfl, rfl, rfl⟩
      have hbkept := groupCondition_kept (l := l) b .huntStart []
      have hbgrown := fun h => groupCondition_grown (s := b) (l := l) (argument := []) (more := 0) h .huntStart
      have hbset := groupCondition_latches (l := l) b .huntStart []
      rw [hbegun] at hbkept
      generalize groupCondition b l .huntStart [] = x at hexec hbkept hbgrown hbset
      have hsettled := settle_recorded (l := l) x
      have hcond := hsettled.cond.trans hbkept.cond
      refine ⟨_, hexec, by rw [hcond, hkept.cond], by rw [hcond, hkept.cond], by rw [hcond, hkept.cond]; rfl,
        fun hnot => absurd h hnot, fun _ => ?_, hsettled.io.trans (hbkept.io.trans hkept.io), hsettled.queue.trans (hbkept.queue.trans hkept.queue)⟩
      refine ⟨by rw [hcond], by rw [hcond], by rw [hcond], ?_, fun hroomy => ?_⟩
      · have hlatch : (b.line l).latches = (w.line l).latches := by rw [hbegun]; rfl
        have hfirst : (v.line l).latches = (s.line l).latches := by rw [hup]; rfl
        rw [hsettled.latches, hbset, hlatch, hset, hfirst, List.map_map]
        refine List.map_congr_left fun x _ => ?_
        exact BitVec.or_assoc x _ _
      · obtain ⟨hclosed, hnext, -, hwroomy⟩ := hgrown 12 hroomy
        obtain ⟨hbclosed, -, -, hxroomy⟩ := hbgrown (hbsame.roomy.mpr hwroomy)
        rw [settle_of_unmarked hxroomy.unmarked, hbclosed, hbsame.closed, hbsame.closing, Line.closing_of_none hopened, hclosed,
          List.append_nil, eventRecord_of_sameLog hbsame hbtime, eventRecord.eq_def w, hnext, htime']
        rfl
    · have hexec := hruns h
      generalize groupCondition v l .lineUp [] = w at hexec hkept hopened hgrown hlatches
      have hsettled := settle_recorded (l := l) w
      have hcond := hsettled.cond.trans hkept.cond
      refine ⟨_, hexec, by rw [hcond], by rw [hcond], by rw [hcond]; rfl, fun _ => ?_, fun h' => absurd h' h,
        hsettled.io.trans hkept.io, hsettled.queue.trans hkept.queue⟩
      refine ⟨by rw [hcond], hlatches.after hsettled.latches ((causesKept_rule l).settle w).conditions, fun hroomy => ?_,
        hsettled.watch.trans hkept.watch, by rw [hcond]⟩
      obtain ⟨hclosed, hnext, holdest, hwroomy⟩ := hgrown 0 hroomy
      rw [settle_of_unmarked hwroomy.unmarked]
      exact ⟨hclosed, hopened, hnext, holdest⟩

end Sys2Proof.Machine
end

section
/-! Proofs: ENTER HUNT (R76, R80). -/

namespace Sys2Proof.Machine

open Host

variable {l : LineId} {s t u : State} {p : PortId} {r : Received}

/-! ## Commands that need the control right (R100) -/

/-- A command that asks for the control right goes on with its line, or is answered with NO CONTROL. -/
theorem exec_enterHunt_of_calls (hcall : s.calls p l) (hcontrol : (s.line l).hasControl p = true) :
    exec (.enterHunt p) s = .next (match (s.line l).cond.state with
      | .off => failCheck (beginCommand s p false) p .lineOff
      | .down => prepare ((beginCommand s p false).modCond l fun x => { x with huntOnUp := true }) p {}
      | .run | .brk | .hunt => prepare (enterHuntState (beginCommand s p false) l) p {}) := by
  change execEnterHunt p s = _
  exact congrArg Outcome.next (controlCommand_of_calls hcall hcontrol false fun s l => match (s.line l).cond.state with
      | .off => failCheck s p .lineOff
      | .down => prepare (s.modCond l fun x => { x with huntOnUp := true }) p {}
      | .run | .brk | .hunt => prepare (enterHuntState s l) p {})

theorem exec_enterHunt_refused (hcall : s.calls p l) (hcontrol : (s.line l).hasControl p = false) :
    exec (.enterHunt p) s = .next (s.answer p false { code := .noControl }) :=
  congrArg Outcome.next (controlCommand_refused hcall hcontrol false _)

theorem exec_enterHunt_hunts (hcall : s.calls p l) (hcontrol : (s.line l).hasControl p = true) (hoff : (s.line l).cond.state ≠ .off)
    (hdown : (s.line l).cond.state ≠ .down) :
    exec (.enterHunt p) s = .next (prepare (enterHuntState (beginCommand s p false) l) p {}) := by
  rw [exec_enterHunt_of_calls hcall hcontrol]
  cases hstate : (s.line l).cond.state with
  | off => exact absurd hstate hoff
  | down => exact absurd hstate hdown
  | run | brk | hunt => rfl

/-- What a command leaves of its line has the port answered at its end, where the change is one of the line alone. -/
theorem answered_of_sound (h : Sound l (beginCommand s p false) t) (r : Results) : Answered s (prepare t p r) p r := by
  have hblock := h.calm.toOnLine.sameBlock p
  rw [port_beginCommand_self] at hblock
  exact answered_prepare hblock r

/-- The latching of a command is seen after its answer. -/
theorem LatchesEvent.prepared {e : CondEvent} (h : LatchesEvent (beginCommand s p false) t l e) (r : Results) :
    LatchesEvent s (prepare t p r) l e :=
  (h.after (u := prepare t p r) rfl (.of_causes fun q => causes_prepare t p q r)).congr rfl

theorem LogsEvent.prepared {e : Event} {argument : List Byte} (h : LogsEvent (beginCommand s p false) t l e argument) (r : Results) :
    LogsEvent s (prepare t p r) l e argument := h.congr (.refl _) rfl rfl rfl

theorem exec_enterHunt_off (hcall : s.calls p l) (hcontrol : (s.line l).hasControl p = true) (hoff : (s.line l).cond.state = .off) :
    exec (.enterHunt p) s = .next (s.answer p false { code := .lineOff }) := by
  rw [exec_enterHunt_of_calls hcall hcontrol, hoff]
  exact congrArg Outcome.next (failCheck_beginCommand s p false .lineOff)

theorem exec_enterHunt_down (hcall : s.calls p l) (hcontrol : (s.line l).hasControl p = true)
    (hdown : (s.line l).cond.state = .down) :
    exec (.enterHunt p) s = .next ((s.modCond l fun x => { x with huntOnUp := true }).answer p false {}) := by
  rw [exec_enterHunt_of_calls hcall hcontrol, hdown]
  exact congrArg Outcome.next (prepare_beginCommand (s.modCond l fun x => { x with huntOnUp := true }) p false {})

theorem enterHuntState_spec (s : State) (l : LineId) :
    ({ s.line l with
        watch := (s.line l).watch.map fun w => { w with progress := 0 }
        cond := { (s.line l).cond with
          state := .hunt, huntIndex := 0, patternProgress := 0, huntDiscard := 0, score := [], nullPending := false } }
      : Line).RecordFrame ((enterHuntState s l).line l)
      ∧ LogsEvent s (enterHuntState s l) l .huntStart [] ∧ LatchesEvent s (enterHuntState s l) l .huntStart := by
  have hbegun := line_beginHunt s l
  have htime : (beginHunt s l).timebase = s.timebase := rfl
  rw [enterHuntState, ← hbegun]
  exact ⟨conditionEvent_frame _ .huntStart [],
    logsEvent_conditionEvent (by rw [hbegun]; exact ⟨rfl, rfl, rfl⟩) htime .huntStart [],
    latchesEvent_conditionEvent (by rw [hbegun]) .huntStart []⟩

/-! ## The transmitter emptied by RESET LINE (R136, R144) -/

/-- The transmitter of a line that RESET LINE has emptied. -/
def Line.emptied (x : Line) : Transmit :=
  match x.tx.state with
  | .gap _ _ | .paused =>
    { x.tx with queue := [], drainMark := none, flowSlot := none, pause := false, state := .idle, inUse := x.io.inForce.txUse }
  | .idle | .sending _ | .breaking _ _ | .closing =>
    { cutBreak x with queue := [], drainMark := none, flowSlot := none, pause := false }

theorem resetTransmit_eq (s : State) (l : LineId) : resetTransmit s l = s.modLine l fun x => { x with tx := x.emptied } := by
  have hline := State.line_modLine_self s l fun x =>
    { x with tx := { cutBreak x with queue := [], drainMark := none, flowSlot := none, pause := false } }
  rw [resetTransmit, emptyQueue, State.modTx_eq, State.modLine_modLine]
  have hstart := startPoint_of_empty (s := s.modLine l fun x =>
    { x with tx := { cutBreak x with queue := [], drainMark := none, flowSlot := none, pause := false } }) (l := l)
    (by rw [hline]) (by rw [hline]) (by rw [hline])
  rw [State.modLine_modLine] at hstart
  cases hstate : (s.line l).tx.state with
  | gap d timer =>
    refine hstart.trans (State.modLine_congr s l ?_)
    rw [Line.starting, Line.emptied, cutBreak, hstate]
  | paused =>
    refine hstart.trans (State.modLine_congr s l ?_)
    rw [Line.starting, Line.emptied, cutBreak, hstate]
  | idle | sending _ | breaking _ _ | closing =>
    refine State.modLine_congr s l ?_
    rw [Line.emptied, hstate]

theorem line_resetTransmit (s : State) (l : LineId) :
    (resetTransmit s l).line l = { s.line l with tx := (s.line l).emptied } := by
  rw [resetTransmit_eq, State.line_modLine_self]

/-- What the emptying leaves of a transmitter, but for its state. -/
theorem Line.emptied_fields (x : Line) : x.emptied.queue = [] ∧ x.emptied.flowSlot = none ∧ x.emptied.pause = false
    ∧ x.emptied.drainMark = none ∧ x.emptied.waiting = x.tx.waiting := by
  rw [Line.emptied]
  split
  · exact ⟨rfl, rfl, rfl, rfl, rfl⟩
  · exact ⟨rfl, rfl, rfl, rfl, rfl⟩
  all_goals exact ⟨rfl, rfl, rfl, rfl, waiting_cutBreak x⟩

/-- The state of a transmitter that was emptied. -/
theorem Line.state_emptied (x : Line) : x.emptied.state = match x.tx.state with
    | .sending c => .sending c
    | .breaking _ _ => .closing
    | .closing => .closing
    | .idle | .gap _ _ | .paused => .idle := by
  rw [Line.emptied]
  cases hstate : x.tx.state with
  | gap d timer => rfl
  | paused => rfl
  | idle | sending _ | closing =>
    rw [cutBreak, hstate]
    exact hstate
  | breaking _ _ => rw [cutBreak, hstate]

/-! ## The hold told, and the XON of its end (R56, R159) -/

/-- A hold that a RESET LINE or a LINE OFF has ended. -/
def Hold.told (h : Hold) : Hold :=
  match h.state with
  | .held | .spent => { h with state := .none, timer := none }
  | .none => h

theorem line_tellHold (s : State) (l : LineId) : (tellHold s l).line l = { s.line l with hold := (s.line l).hold.told } := by
  rw [tellHold, Hold.told]
  cases (s.line l).hold.state with
  | held => exact State.line_modLine_self s l _
  | spent => exact State.line_modLine_self s l _
  | none => rfl

theorem Hold.state_told (h : Hold) : h.told.state = .none := by
  rw [Hold.told]
  split
  · rfl
  · rfl
  · assumption

theorem Hold.timer_told {h : Hold} (hhold : h.state ≠ .none) : h.told.timer = none := by
  rw [Hold.told]
  cases hstate : h.state with
  | none => exact absurd hstate hhold
  | held => rfl
  | spent => rfl

theorem Hold.evalDue_told (h : Hold) : h.told.evalDue = h.evalDue := by
  rw [Hold.told]
  split <;> rfl

/-- The transmitter of a line on which a flow character was placed (R52, R56). -/
def Line.flowPlaced (c : FlowChar) (x : Line) : Transmit :=
  if x.tx.state.waits then { x.tx with flowSlot := none, state := .sending c.code, inUse := x.io.inForce.txUse }
  else { x.tx with flowSlot := some c }

theorem line_placeFlow (h : (s.line l).cond.state ≠ .off) (c : FlowChar) :
    (placeFlow s l c).line l = { s.line l with tx := (s.line l).flowPlaced c } := by
  rw [placeFlow, if_neg h, Line.flowPlaced]
  split
  · exact State.line_modLine_self s l _
  · exact State.line_modLine_self s l _

theorem Line.queue_flowPlaced (c : FlowChar) (x : Line) : (x.flowPlaced c).queue = x.tx.queue := by
  rw [Line.flowPlaced]
  split <;> rfl

/-- A flow character is taken at once by a transmitter that waits, and stands in the slot of any other. -/
theorem Line.flowPlaced_of_waits {c : FlowChar} {x : Line} (h : x.tx.state.waits = true) :
    (x.flowPlaced c).state = .sending c.code ∧ (x.flowPlaced c).flowSlot = none := by
  rw [Line.flowPlaced, if_pos h]
  exact ⟨rfl, rfl⟩

theorem Line.flowPlaced_of_works {c : FlowChar} {x : Line} (h : x.tx.state.waits = false) : (x.flowPlaced c).flowSlot = some c := by
  rw [Line.flowPlaced, h, if_neg Bool.false_ne_true]

/-! ## The receive side of RESET LINE (R81, R89) -/

theorem line_resetReceive (hoff : (s.line l).cond.state ≠ .off) : (resetReceive s l).line l = { s.line l with
    watch := (s.line l).watch.map fun w => { w with progress := 0 }
    cond := { (s.line l).cond with
      state := if (s.line l).cond.state = .down then .down else .run
      huntDiscard := if (s.line l).cond.state = .hunt then 0 else (s.line l).cond.huntDiscard
      score := [], patternProgress := 0, nullPending := false, huntOnUp := false } } := by
  rw [resetReceive, line_resetWatch, State.modCond_eq, State.line_modLine_self]
  cases hstate : (s.line l).cond.state with
  | off => exact absurd hstate hoff
  | run | brk | down | hunt => rfl

end Sys2Proof.Machine
end

section
/-! Proofs: RESET LINE, and a record followed by HOLD END (R18, R81, R136, R144, R159). -/

namespace Sys2Proof.Machine

open Host

variable {l : LineId} {s t u : State} {p : PortId} {r : Received}

/-! ## FROZEN after a group that froze the line (R18, R36) -/

/-- The counts of as many records as a freeze waits for freeze the line. -/
theorem Pool.countRecords_reached {k : Nat} : ∀ {x : Pool} {n : Nat}, x.freezePending = some k → 1 ≤ k → k ≤ n →
    Pool.countRecord^[n] x = { x with freezePending := none, frozen := true, frozenDue := true } := by
  induction k with
  | zero => intro x n _ h; omega
  | succ k ih =>
    intro x n hpending _ hn
    obtain ⟨n, rfl⟩ : ∃ m, n = m + 1 := ⟨n - 1, by omega⟩
    rw [Function.iterate_succ_apply, Pool.countRecord, hpending]
    by_cases hlast : k = 0
    · subst hlast
      exact Pool.countRecords_of_none rfl n
    · exact (congrArg Pool.countRecord^[n] (if_neg (by omega : ¬ k + 1 ≤ 1))).trans (ih rfl (by omega) (by omega))

/-- A line whose FROZEN record is no longer due: it is being written. -/
def frozenTaken (s : State) (l : LineId) : State := s.modPool l fun x => { x with frozenDue := false }

theorem line_frozenTaken (s : State) (l : LineId) : (frozenTaken s l).line l = { s.line l with
    pool := { (s.line l).pool with frozenDue := false } } := State.line_modLine_self s l _

theorem flushFrozen_of_due (h : (s.line l).pool.frozenDue = true) : flushFrozen s l
    = (groupEvent (frozenTaken s l) l .frozen []).modHold l fun x => { x with evalDue := true } := if_pos h

theorem settleWithin_of_unmarked (k : Nat) (h : (s.line l).unmarked) : settleWithin (k + 1) s l = s := by
  obtain ⟨hdue, heval⟩ := h
  rw [settleWithin, flushFrozen_of_not_due hdue, heval, if_neg Bool.false_ne_true]

/-- The FROZEN record of a line that is frozen, with room for it. -/
theorem frozenRecord_wrote (hpages : (s.line l).pool.pages ≠ []) (hroom : 12 ≤ (s.line l).room)
    (hopened : (s.line l).cap.opened = none) : Wrote l [eventRecord s l .frozen []] 1 12 (frozenTaken s l)
      (groupEvent (frozenTaken s l) l .frozen []) := by
  have hline := line_frozenTaken s l
  have htime : (frozenTaken s l).timebase = s.timebase := rfl
  generalize frozenTaken s l = v at hline htime ⊢
  have hvroom : (v.line l).room = (s.line l).room := by rw [hline]; rfl
  have hwrote := groupEvent_wrote (s := v) (l := l) (argument := []) (by rw [hline]; exact hpages) .frozen
    (by rw [hvroom]; exact hroom)
  have hrecord : eventRecord v l .frozen [] = eventRecord s l .frozen [] := by rw [eventRecord, eventRecord, hline, htime]
  rw [Line.closing_of_none (by rw [hline]; exact hopened), hrecord] at hwrote
  exact hwrote

/-- A line that a group has frozen settles to its FROZEN record: the evaluation that follows has nothing to do. -/
theorem settle_of_frozenDue (hpages : (s.line l).pool.pages ≠ []) (hroom : 12 ≤ (s.line l).room)
    (hdue : (s.line l).pool.frozenDue = true) (hfrozen : (s.line l).pool.frozen = true)
    (hpending : (s.line l).pool.freezePending = none) (hhold : (s.line l).hold.state = .none)
    (hopened : (s.line l).cap.opened = none) :
    settle s l = (groupEvent (frozenTaken s l) l .frozen []).modHold l fun x => { x with evalDue := false } := by
  have hline := line_frozenTaken s l
  have hwrote := frozenRecord_wrote hpages hroom hopened
  rw [settle, settleWithin, flushFrozen_of_due hdue]
  generalize groupEvent (frozenTaken s l) l .frozen [] = w at hwrote ⊢
  generalize frozenTaken s l = v at hline hwrote
  have hpool := hwrote.pool_of_none (by rw [hline]; exact hpending)
  have hwhold := hwrote.hold
  rw [hline] at hpool hwhold
  have hasked := State.line_modLine_self w l fun x => { x with hold := { x.hold with evalDue := true } }
  have htaken := State.line_modLine_self w l fun x => { x with hold := { x.hold with evalDue := false } }
  rw [State.modHold_eq, State.modHold_eq, State.modHold_eq, State.modLine_modLine]
  dsimp only
  rw [if_pos (by rw [hasked])]
  generalize w.modLine l (fun x => { x with hold := { x.hold with evalDue := false } }) = y at htaken ⊢
  rw [evaluateHold_of_restful, settleWithin_of_unmarked]
  · rw [htaken]
    exact ⟨by rw [hpool], rfl⟩
  · rw [htaken]
    exact ⟨by rw [hwhold]; exact hhold, .inr (by rw [hpool]; exact hfrozen)⟩

/-! ## A record and its HOLD END in one group (R18, R159) -/

theorem eventWithHoldEnd_false (s : State) (l : LineId) (e : Event) (argument : List Byte) :
    eventWithHoldEnd false s l e argument = event s l e argument := rfl

theorem eventWithHoldEnd_true (s : State) (l : LineId) (e : Event) (argument : List Byte) :
    eventWithHoldEnd true s l e argument = settle (groupEvent (groupEvent s l e argument) l .holdEnd []) l := rfl

theorem opened_withHoldEnd (s : State) (l : LineId) (e : Event) (argument : List Byte) :
    ((groupEvent (groupEvent s l e argument) l .holdEnd []).line l).cap.opened = none := opened_groupEvent _ l .holdEnd []

theorem withHoldEnd_wrote (hpages : (s.line l).pool.pages ≠ []) (e : Event) {argument : List Byte}
    (hroom : 12 + argument.length + 12 ≤ (s.line l).room) :
    Wrote l ((s.line l).closing .event 0 ++ [eventRecord s l e argument,
        { eventRecord s l .holdEnd [] with seq := nextSeq (s.line l).cap.next }]) 2 (12 + argument.length + 12) s
      (groupEvent (groupEvent s l e argument) l .holdEnd []) := by
  have hfirst := groupEvent_wrote hpages e (argument := argument) (by omega)
  have hopened := opened_groupEvent s l e argument
  generalize groupEvent s l e argument = v at hfirst hopened ⊢
  have hsecond := groupEvent_wrote hfirst.pages .holdEnd (argument := []) (by rw [hfirst.room, List.length_nil]; omega)
  have hrecord : eventRecord v l .holdEnd [] = { eventRecord s l .holdEnd [] with seq := nextSeq (s.line l).cap.next } := by
    rw [eventRecord, hfirst.next, hfirst.recorded.timebase]
    rfl
  rw [Line.closing_of_none hopened, hrecord] at hsecond
  have hboth := hfirst.trans hsecond
  rw [List.nil_append, List.append_assoc] at hboth
  exact hboth

/-! ## RESET LINE (R81, R136, R144) -/

/-- A line that RESET LINE has emptied and reset, LINE RESET still to be latched and written. -/
def lineReset (s : State) (l : LineId) : State :=
  let t := tellHold (resetTransmit s l) l
  resetReceive (if decide ((s.line l).hold.state = .held) then placeFlow t l .xon else t) l

theorem lineReset_sound (s : State) : Sound l s (lineReset s l) := by
  rw [lineReset]
  refine (((resetTransmit_sound s).trans (tellHold_sound _)).trans ?_).trans (resetReceive_sound _)
  split
  · exact placeFlow_sound _ .xon
  · exact .refl l _

theorem timebase_lineReset (s : State) (l : LineId) : (lineReset s l).timebase = s.timebase := by
  have htold : (tellHold (resetTransmit s l) l).timebase = s.timebase := by
    rw [resetTransmit_eq, tellHold]
    split <;> rfl
  have hflow : ∀ u : State, (placeFlow u l .xon).timebase = u.timebase := by
    intro u
    rw [placeFlow]
    split
    · rfl
    · split <;> rfl
  rw [lineReset]
  generalize tellHold (resetTransmit s l) l = v at htold ⊢
  by_cases hheld : (s.line l).hold.state = .held
  · rw [if_pos (decide_eq_true hheld)]
    exact (hflow v).trans htold
  · rw [if_neg (by rw [decide_eq_true_iff]; exact hheld)]
    exact htold

/-- A line that RESET LINE has emptied and reset. -/
def Line.afterReset (x : Line) : Line :=
  { x with
    watch := x.watch.map fun w => { w with progress := 0 }
    cond := { x.cond with
      state := if x.cond.state = .down then .down else .run
      huntDiscard := if x.cond.state = .hunt then 0 else x.cond.huntDiscard
      score := [], patternProgress := 0, nullPending := false, huntOnUp := false }
    hold := x.hold.told
    tx := if x.hold.state = .held then ({ x with tx := x.emptied } : Line).flowPlaced .xon else x.emptied }

theorem line_lineReset (hoff : (s.line l).cond.state ≠ .off) : (lineReset s l).line l = (s.line l).afterReset := by
  rw [Line.afterReset]
  have htold := line_tellHold (resetTransmit s l) l
  rw [line_resetTransmit] at htold
  rw [lineReset]
  generalize tellHold (resetTransmit s l) l = v at htold ⊢
  by_cases hheld : (s.line l).hold.state = .held
  · have hflow := line_placeFlow (s := v) (l := l) (by rw [htold]; exact hoff) .xon
    rw [htold] at hflow
    dsimp only
    rw [if_pos (decide_eq_true hheld), if_pos hheld, line_resetReceive (by rw [hflow]; exact hoff), hflow]
    rfl
  · dsimp only
    rw [if_neg (by rw [decide_eq_true_iff]; exact hheld), if_neg hheld, line_resetReceive (by rw [htold]; exact hoff), htold]

theorem exec_resetLine_of_calls (hcall : s.calls p l) (hcontrol : (s.line l).hasControl p = true)
    (hoff : (s.line l).cond.state ≠ .off) : exec (.resetLine p) s = .next (prepare (eventWithHoldEnd
      (decide ((s.line l).hold.state = .held)) (eachPort (latchEvent .lineReset l) (lineReset (beginCommand s p false) l)) l .lineReset
      [byteOf p.val]) p {}) := by
  refine congrArg Outcome.next ((controlCommand_of_calls hcall hcontrol false _).trans ?_)
  exact if_neg hoff

theorem exec_resetLine_refused (hcall : s.calls p l) (hcontrol : (s.line l).hasControl p = false) :
    exec (.resetLine p) s = .next (s.answer p false { code := .noControl }) :=
  congrArg Outcome.next (controlCommand_refused hcall hcontrol false _)

theorem exec_resetLine_off (hcall : s.calls p l) (hcontrol : (s.line l).hasControl p = true)
    (hoff : (s.line l).cond.state = .off) : exec (.resetLine p) s = .next (s.answer p false { code := .lineOff }) := by
  refine congrArg Outcome.next ((controlCommand_of_calls hcall hcontrol false _).trans ?_)
  exact (if_pos hoff).trans (failCheck_beginCommand s p false .lineOff)

/-- RESET LINE taken: its line before the record is written, and its answer. -/
theorem exec_resetLine_taken (hcall : s.calls p l) (hcontrol : (s.line l).hasControl p = true) (hoff : (s.line l).cond.state ≠ .off) :
    ∃ v, v.line l = (s.line l).afterReset ∧ v.timebase = s.timebase
      ∧ exec (.resetLine p) s = .next (prepare (eventWithHoldEnd (decide ((s.line l).hold.state = .held))
        (eachPort (latchEvent .lineReset l) v) l .lineReset [byteOf p.val]) p {})
      ∧ Answered s (prepare (eventWithHoldEnd (decide ((s.line l).hold.state = .held))
        (eachPort (latchEvent .lineReset l) v) l .lineReset [byteOf p.val]) p {}) p {} :=
  ⟨lineReset (beginCommand s p false) l, line_lineReset hoff, timebase_lineReset _ l, exec_resetLine_of_calls hcall hcontrol hoff,
    answered_of_sound (((lineReset_sound _).trans (eachLatch_sound .lineReset _)).trans (eventWithHoldEnd_sound _ _ _ _)) {}⟩

theorem sameLog_afterReset (x : Line) : x.SameLog x.afterReset := ⟨rfl, rfl, x.hold.evalDue_told⟩

/-- LINE RESET of a line whose hold has ended, in one group with HOLD END where that is asked for. -/
theorem resetLine_logged (b : Bool) (hroomy : (s.line l).roomy 25) (hlog : (s.line l).SameLog (t.line l)) (htime : t.timebase = s.timebase)
    (argument : Byte) :
    let u := eventWithHoldEnd b (eachPort (latchEvent .lineReset l) t) l .lineReset [argument]
    (u.line l).tx = (t.line l).tx ∧ (u.line l).hold = (t.line l).hold
      ∧ (u.line l).closed = (s.line l).closed ++ (s.line l).closing .event 0 ++ [eventRecord s l .lineReset [argument]]
        ++ if b then [{ eventRecord s l .holdEnd [] with seq := nextSeq (s.line l).cap.next }] else [] := by
  intro u
  have hlatched := line_eachLatch (l := l) .lineReset t
  have hvlog := hlog.trans (sameLog_eachLatch .lineReset t)
  have hvtime := (timebase_eachLatch (l := l) .lineReset t).trans htime
  have hvtx : ((eachPort (latchEvent .lineReset l) t).line l).tx = (t.line l).tx := by rw [hlatched]; rfl
  have hvhold : ((eachPort (latchEvent .lineReset l) t).line l).hold = (t.line l).hold := by rw [hlatched]; rfl
  have hu : u = eventWithHoldEnd b (eachPort (latchEvent .lineReset l) t) l .lineReset [argument] := rfl
  clear_value u
  generalize eachPort (latchEvent .lineReset l) t = v at *
  have hvroomy : (v.line l).roomy 25 := hvlog.roomy.mpr hroomy
  obtain ⟨hpages, hroom, hnone, -⟩ := id hvroomy
  have hreset := eventRecord_of_sameLog hvlog hvtime .lineReset [argument]
  have hend := eventRecord_of_sameLog hvlog hvtime .holdEnd []
  cases b with
  | true =>
    have hwrote := withHoldEnd_wrote hpages .lineReset (argument := [argument]) hroom
    rw [eventWithHoldEnd_true, settle_of_unmarked (hwrote.unmarked hnone hvroomy.unmarked)] at hu
    rw [hvlog.closing, hvlog.cap, hreset, hend] at hwrote
    rw [hu]
    refine ⟨hwrote.tx.trans hvtx, hwrote.hold.trans hvhold, ?_⟩
    rw [hwrote.closed, hvlog.closed, List.append_assoc, List.append_assoc]
    rfl
  | false =>
    have hwrote := event_wrote (argument := [argument]) (hvroomy.mono (by rw [List.length_singleton]; decide)) .lineReset
    rw [eventWithHoldEnd_false] at hu
    rw [hvlog.closing, hreset] at hwrote
    rw [hu]
    refine ⟨hwrote.tx.trans hvtx, hwrote.hold.trans hvhold, ?_⟩
    rw [hwrote.closed, hvlog.closed, if_neg Bool.false_ne_true, List.append_nil, List.append_assoc]

/-- RESET LINE of a HELD line whose freeze count its group brings to 0: FROZEN follows HOLD END. -/
theorem resetLine_frozen {k : Nat} (hpages : (s.line l).pool.pages ≠ []) (hroom : 37 ≤ (s.line l).room)
    (hpending : (s.line l).pool.freezePending = some k) (hk : 1 ≤ k)
    (hreached : k ≤ 2 + ((s.line l).closing .event 0).length) (hlog : (s.line l).SameLog (t.line l)) (htime : t.timebase = s.timebase)
    (hhold : (t.line l).hold.state = .none) (argument : Byte) :
    let u := eventWithHoldEnd true (eachPort (latchEvent .lineReset l) t) l .lineReset [argument]
    (u.line l).pool.frozen = true ∧ (u.line l).hold.state = .none
      ∧ (u.line l).closed = (s.line l).closed ++ (s.line l).closing .event 0 ++ [eventRecord s l .lineReset [argument],
        { eventRecord s l .holdEnd [] with seq := nextSeq (s.line l).cap.next },
        { eventRecord s l .frozen [] with seq := nextSeq (nextSeq (s.line l).cap.next) }] := by
  intro u
  have hlatched := line_eachLatch (l := l) .lineReset t
  have hvlog := hlog.trans (sameLog_eachLatch .lineReset t)
  have hvtime := (timebase_eachLatch (l := l) .lineReset t).trans htime
  have hvhold : ((eachPort (latchEvent .lineReset l) t).line l).hold.state = .none := by rw [hlatched]; exact hhold
  have hu : u = eventWithHoldEnd true (eachPort (latchEvent .lineReset l) t) l .lineReset [argument] := rfl
  clear_value u
  generalize eachPort (latchEvent .lineReset l) t = v at *
  have hvroom : (v.line l).room = (s.line l).room := by rw [Line.room, Line.room, hvlog.pool]
  have hvpages : (v.line l).pool.pages ≠ [] := by rw [hvlog.pool]; exact hpages
  have hwrote := withHoldEnd_wrote hvpages .lineReset (argument := [argument]) (by rw [hvroom]; exact Nat.le_trans (by rw [List.length_singleton]; decide) hroom)
  have hopened := opened_withHoldEnd v l .lineReset [argument]
  rw [eventWithHoldEnd_true] at hu
  generalize groupEvent _ l .holdEnd [] = w at hwrote hopened hu
  have hpool := hwrote.pool
  rw [hvlog.closing, List.length_append, hvlog.pool] at hpool
  rw [Pool.countRecords_reached hpending hk (by rw [Nat.add_comm]; exact hreached)] at hpool
  have hwroom : 12 ≤ (w.line l).room := by
    rw [hwrote.room, hvroom, List.length_singleton]
    omega
  have hfrozen := frozenRecord_wrote hwrote.pages hwroom hopened
  rw [settle_of_frozenDue hwrote.pages hwroom (by rw [hpool]) (by rw [hpool]) (by rw [hpool]) (by rw [hwrote.hold]; exact hvhold) hopened]
    at hu
  have htaken := line_frozenTaken w l
  generalize groupEvent (frozenTaken w l) l .frozen [] = x at hfrozen hu
  generalize frozenTaken w l = y at hfrozen htaken
  have hxpool := hfrozen.pool_of_none (by rw [htaken, hpool])
  rw [htaken] at hxpool
  have hline := State.line_modLine_self x l fun z => { z with hold := { z.hold with evalDue := false } }
  have hyclosed : (y.line l).closed = (w.line l).closed := by rw [htaken]; rfl
  have hxclosed : (u.line l).closed = (x.line l).closed := by rw [hu, State.modHold_eq, hline]; rfl
  refine ⟨?_, ?_, ?_⟩
  · rw [hu, State.modHold_eq, hline, hxpool, hpool]
  · rw [hu, State.modHold_eq, hline, hfrozen.hold, htaken]
    exact (congrArg Hold.state hwrote.hold).trans hvhold
  · rw [hxclosed, hfrozen.closed, hyclosed, hwrote.closed, hvlog.closed, hvlog.closing, hvlog.cap,
      eventRecord_of_sameLog hvlog hvtime, eventRecord_of_sameLog hvlog hvtime, eventRecord.eq_def w, hwrote.next,
      hwrote.recorded.timebase, hvtime, hvlog.cap, List.append_assoc, List.append_assoc, List.append_assoc]
    rfl

/-- Settles O45: ENTER HUNT is a condition event; RESET LINE empties and resets, and its record follows with the end of the hold. -/
theorem enterHuntAndResetLine : Obligations.EnterHuntAndResetLine := by
  refine ⟨fun s p l hcall => ⟨exec_enterHunt_refused hcall, exec_enterHunt_off hcall, exec_enterHunt_down hcall,
      fun hcontrol hoff hdown => ?_⟩,
    fun s p l hcall => ⟨exec_resetLine_refused hcall, exec_resetLine_off hcall, fun hcontrol hoff hnohold => ?_,
      fun hcontrol hoff hhold hroomy => ?_, fun hcontrol hoff hheld hpages hroom hdue heval k hpending hk hreached => ?_⟩⟩
  · obtain ⟨hframe, hlogs, hlatches⟩ := enterHuntState_spec (beginCommand s p false) l
    have hanswered := answered_of_sound (enterHuntState_sound (l := l) (beginCommand s p false)) {}
    have hexec := exec_enterHunt_hunts hcall hcontrol hoff hdown
    generalize enterHuntState _ l = t at hframe hlogs hlatches hanswered hexec
    exact ⟨_, hexec, hanswered, hframe, hlogs.prepared {}, hlatches.prepared {}⟩
  · obtain ⟨v, hline, htime, hexec, hanswered⟩ := exec_resetLine_taken hcall hcontrol hoff
    obtain ⟨hnone, hflow⟩ := id hnohold
    have hnot : (s.line l).hold.state ≠ .held := by rw [hnone]; decide
    rw [decide_eq_false hnot, eventWithHoldEnd_false] at hexec hanswered
    change exec (.resetLine p) s = .next (prepare (conditionEvent v l .lineReset [byteOf p.val]) p {}) at hexec
    change Answered s (prepare (conditionEvent v l .lineReset [byteOf p.val]) p {}) p {} at hanswered
    have hlogs : LogsEvent s (conditionEvent v l .lineReset [byteOf p.val]) l .lineReset [byteOf p.val] :=
      logsEvent_conditionEvent (by rw [hline]; exact sameLog_afterReset _) htime .lineReset _
    have hlatches : LatchesEvent s (conditionEvent v l .lineReset [byteOf p.val]) l .lineReset :=
      latchesEvent_conditionEvent (by rw [hline]; rfl) .lineReset _
    have hframe := conditionEvent_frame (l := l) v .lineReset [byteOf p.val]
    have htx : ((conditionEvent v l .lineReset [byteOf p.val]).line l).tx = (s.line l).emptied := by
      have hrestful : ((eachPort (latchEvent .lineReset l) v).line l).restful := by
        rw [line_eachLatch, hline]
        exact ⟨(s.line l).hold.state_told, .inl hflow⟩
      refine (event_holdKept hrestful _ _).tx.trans ?_
      rw [line_eachLatch, hline]
      exact if_neg hnot
    generalize conditionEvent v l .lineReset [byteOf p.val] = t at hexec hanswered hlogs hlatches hframe htx
    obtain ⟨hio, hcond, hwatch, -, hstanding, -⟩ := hframe
    obtain ⟨hqueue, hslot, hpause, hmark, hwaiting⟩ := (s.line l).emptied_fields
    have hstate := (s.line l).state_emptied
    rw [hline] at hio hcond hwatch hstanding
    rw [← htx] at hqueue hslot hpause hmark hwaiting hstate
    exact ⟨_, hexec, hanswered, hqueue, hslot, hpause, hmark, hwaiting, fun c h => hstate.trans (by rw [h]),
      fun d timer h => hstate.trans (by rw [h]), fun d timer h => hstate.trans (by rw [h]), fun h => hstate.trans (by rw [h]), hcond,
      hwatch, hlogs.prepared {}, hlatches.prepared {}, hio, hstanding⟩
  · obtain ⟨v, hline, htime, hexec, hanswered⟩ := exec_resetLine_taken hcall hcontrol hoff
    obtain ⟨htx, hhold', hclosed⟩ := resetLine_logged (decide ((s.line l).hold.state = .held)) hroomy
      (by rw [hline]; exact sameLog_afterReset _) htime (byteOf p.val)
    generalize eventWithHoldEnd _ _ l .lineReset [byteOf p.val] = t at hexec hanswered htx hhold' hclosed
    rw [hline] at htx hhold'
    obtain ⟨hqueue, hslot, -⟩ := (s.line l).emptied_fields
    have hstate := (s.line l).state_emptied
    have hspent : (s.line l).hold.state = .spent → (s.line l).hold.state ≠ .held := fun h => by rw [h]; decide
    have htxspent : (s.line l).hold.state ≠ .held → (t.line l).tx = (s.line l).emptied := fun h => htx.trans (if_neg h)
    have htxheld : (s.line l).hold.state = .held →
        (t.line l).tx = ({ s.line l with tx := (s.line l).emptied } : Line).flowPlaced .xon := fun h => htx.trans (if_pos h)
    clear htx
    refine ⟨_, hexec, hanswered, (congrArg Hold.state hhold').trans (s.line l).hold.state_told,
      (congrArg Hold.timer hhold').trans (Hold.timer_told hhold), ?_, fun h => ⟨?_, ?_⟩, fun h => ⟨?_, fun hwaits => ?_, fun hworks => ?_⟩⟩
    · change (t.line l).tx.queue = []
      by_cases h : (s.line l).hold.state = .held
      · rw [htxheld h, Line.queue_flowPlaced]
        exact hqueue
      · rw [htxspent h]
        exact hqueue
    · change (t.line l).closed = _
      rw [hclosed, decide_eq_false (hspent h), if_neg Bool.false_ne_true, List.append_nil]
      rfl
    · change (t.line l).tx.flowSlot = none
      rw [htxspent (hspent h)]
      exact hslot
    · change (t.line l).closed = _
      rw [hclosed, decide_eq_true h, if_pos rfl]
      rfl
    · change (t.line l).tx.state = .sending 0x11 ∧ (t.line l).tx.flowSlot = none
      rw [htxheld h]
      refine Line.flowPlaced_of_waits ?_
      change (s.line l).emptied.state.waits = true
      rw [hstate]
      obtain hw | hw | ⟨d, timer, hw⟩ := hwaits <;> rw [hw] <;> rfl
    · change (t.line l).tx.flowSlot = some .xon
      rw [htxheld h]
      refine Line.flowPlaced_of_works ?_
      change (s.line l).emptied.state.waits = false
      rw [hstate]
      obtain ⟨c, hw⟩ | ⟨d, timer, hw⟩ | hw := hworks <;> rw [hw] <;> rfl
  · obtain ⟨v, hline, htime, hexec, hanswered⟩ := exec_resetLine_taken hcall hcontrol hoff
    have hreset := resetLine_frozen hpages hroom hpending hk hreached (t := v)
      (by rw [hline]; exact sameLog_afterReset _) htime (by rw [hline]; exact (s.line l).hold.state_told) (byteOf p.val)
    rw [decide_eq_true hheld] at hexec hanswered
    dsimp only at hreset
    generalize eventWithHoldEnd _ _ l .lineReset [byteOf p.val] = t at hexec hanswered hreset
    obtain ⟨hfrozen, hnone, hclosed⟩ := hreset
    exact ⟨_, hexec, hanswered, hfrozen, hnone, hclosed⟩

end Sys2Proof.Machine
end

section
/-! Proofs: FREEZE, THAW and the freeze count (R31, R34 to R39). -/

namespace Sys2Proof.Machine

open Host

variable {l : LineId} {s t u v : State} {p : PortId}

/-! ## An event with an evaluation after it (R153) -/

/-- An event record that an evaluation follows: those of FREEZE and of THAW. -/
def evaluatedEvent (s : State) (l : LineId) (e : Event) (argument : List Byte) : State :=
  askEvaluation (plainEvent s l e argument) l

theorem evaluatedEvent_recorded (s : State) (e : Event) (argument : List Byte) : Recorded l s (evaluatedEvent s l e argument) :=
  (plainEvent_recorded s e argument).trans (askEvaluation_recorded _)

theorem evaluatedEvent_freezeKept (s : State) (e : Event) (argument : List Byte) : FreezeKept l s (evaluatedEvent s l e argument) :=
  ((freezeKept_rule l).plainEvent s e argument).trans ((freezeKept_rule l).askEvaluation evaluateHold_freezeKept _)

theorem evaluatedEvent_holdKept (h : (s.line l).restful) (e : Event) (argument : List Byte) :
    HoldKept l s (evaluatedEvent s l e argument) := by
  have hkept := (holdKept_rule l).plainEvent s e argument
  exact hkept.trans (askEvaluation_holdKept (hkept.restful h))

/-- On a line with room, whose hold has nothing to do, such an event is its record. -/
theorem evaluatedEvent_wrote {argument : List Byte} (h : (s.line l).restful) (hroomy : (s.line l).roomy (12 + argument.length))
    (e : Event) : Wrote l ((s.line l).closing .event 0 ++ [eventRecord s l e argument]) 1 (12 + argument.length) s
      (evaluatedEvent s l e argument) := by
  obtain ⟨hpages, hroom, hnone, -⟩ := id hroomy
  have hkept := (holdKept_rule l).plainEvent s e argument
  rw [plainEvent_of_roomy hroomy] at hkept
  have hwrote := groupEvent_wrote hpages e hroom
  rw [evaluatedEvent, plainEvent_of_roomy hroomy, askEvaluation_of_restful (hkept.restful h) (hwrote.unmarked hnone hroomy.unmarked)]
  exact hwrote

theorem opened_evaluatedEvent (s : State) (l : LineId) (e : Event) (argument : List Byte) :
    ((evaluatedEvent s l e argument).line l).cap.opened = none := by
  rw [evaluatedEvent]
  exact (askEvaluation_recorded _).opened (opened_plainEvent s l e argument)

theorem logsEvent_evaluatedEvent (h : (s.line l).restful) (e : Event) (argument : List Byte) :
    LogsEvent s (evaluatedEvent s l e argument) l e argument :=
  logsEvent_of_wrote (fun hroomy => evaluatedEvent_wrote h hroomy e) (opened_evaluatedEvent s l e argument)

/-! ## FREEZE (R31, R34) -/

/-- A line frozen with no count pending, FROZEN still to be written. -/
def frozenAt (s : State) (l : LineId) : State := s.modPool l fun x => { x with frozen := true, freezePending := none }

theorem line_frozenAt (s : State) (l : LineId) : (frozenAt s l).line l = { s.line l with
    pool := { (s.line l).pool with frozen := true, freezePending := none } } := State.line_modLine_self s l _

theorem frozenEvent_sound (s : State) (e : Event) (argument : List Byte) :
    Sound l s (evaluatedEvent (frozenAt s l) l e argument) := by
  rw [evaluatedEvent, frozenAt]
  exact askEvent_sound s (fun x => { x with frozen := true, freezePending := none }) (fun _ => rfl) e argument

theorem exec_freeze_refused (hcall : s.calls p l) (hcontrol : (s.line l).hasControl p = false) :
    exec (.freeze p) s = .next (s.answer p false { code := .noControl }) :=
  congrArg Outcome.next (controlCommand_refused hcall hcontrol false _)

theorem exec_freeze_frozen (hcall : s.calls p l) (hcontrol : (s.line l).hasControl p = true) (hfrozen : (s.line l).pool.frozen = true) :
    exec (.freeze p) s = .next (s.answer p false { count := some (countHalf (s.line l).held) }) := by
  refine congrArg Outcome.next ((controlCommand_of_calls hcall hcontrol false _).trans ?_)
  dsimp only
  rw [beginCommand_line, if_pos hfrozen]
  exact prepare_beginCommand s p false _

theorem exec_freeze_freezes (hcall : s.calls p l) (hcontrol : (s.line l).hasControl p = true)
    (hfrozen : (s.line l).pool.frozen = false) : exec (.freeze p) s = .next
      (prepare (evaluatedEvent (frozenAt (beginCommand s p false) l) l .frozen []) p
        { count := some (countHalf ((evaluatedEvent (frozenAt (beginCommand s p false) l) l .frozen []).line l).held) }) := by
  refine congrArg Outcome.next ((controlCommand_of_calls hcall hcontrol false _).trans ?_)
  dsimp only
  rw [beginCommand_line, hfrozen, if_neg Bool.false_ne_true]
  rfl

/-! ## THAW (R39) -/

/-- A line thawed, its discard counters cleared, THAWED still to be written. -/
def thawedAt (s : State) (l : LineId) : State :=
  s.modPool l fun x => { x with frozen := false, freezePending := none, discardedChars := 0, discardedEvents := 0 }

theorem line_thawedAt (s : State) (l : LineId) : (thawedAt s l).line l = { s.line l with
    pool := { (s.line l).pool with frozen := false, freezePending := none, discardedChars := 0, discardedEvents := 0 } } :=
  State.line_modLine_self s l _

theorem thawedEvent_sound (s : State) (e : Event) (argument : List Byte) :
    Sound l s (evaluatedEvent (thawedAt s l) l e argument) := by
  rw [evaluatedEvent, thawedAt]
  exact askEvent_sound s (fun x => { x with frozen := false, freezePending := none, discardedChars := 0, discardedEvents := 0 })
    (fun _ => rfl) e argument

theorem exec_thaw_refused (hcall : s.calls p l) (hcontrol : (s.line l).hasControl p = false) :
    exec (.thaw p) s = .next (s.answer p false { code := .noControl }) :=
  congrArg Outcome.next (controlCommand_refused hcall hcontrol false _)

theorem exec_thaw_idle (hcall : s.calls p l) (hcontrol : (s.line l).hasControl p = true)
    (hfrozen : (s.line l).pool.frozen = false) (hpending : (s.line l).pool.freezePending = none) :
    exec (.thaw p) s = .next (s.answer p false { count := some 0, value := some 0 }) := by
  refine congrArg Outcome.next ((controlCommand_of_calls hcall hcontrol false _).trans ?_)
  exact (if_pos ⟨hfrozen, hpending⟩).trans (prepare_beginCommand s p false _)

/-- What THAWED tells of the counters (R39). -/
def thawedArgument (x : Pool) : List Byte := bytesLE 3 x.discardedChars ++ [byteOf x.discardedEvents]

theorem thawedArgument_eq (x : Pool) : thawedArgument x
    = [BitVec.ofNat 8 x.discardedChars, BitVec.ofNat 8 (x.discardedChars / 256), BitVec.ofNat 8 (x.discardedChars / 65536),
      BitVec.ofNat 8 x.discardedEvents] := by
  have htwice : x.discardedChars / 65536 = x.discardedChars / 256 / 256 := (Nat.div_div_eq_div_mul _ 256 256).symm
  rw [htwice]
  rfl

theorem exec_thaw_thaws (hcall : s.calls p l) (hcontrol : (s.line l).hasControl p = true)
    (h : (s.line l).pool.frozen = true ∨ (s.line l).pool.freezePending ≠ none) : exec (.thaw p) s = .next
      (prepare (evaluatedEvent (thawedAt (beginCommand s p false) l) l .thawed (thawedArgument (s.line l).pool)) p
        { count := some (countHalf (s.line l).pool.discardedEvents), value := some (BitVec.ofNat 32 (s.line l).pool.discardedChars) })
    := by
  refine congrArg Outcome.next ((controlCommand_of_calls hcall hcontrol false _).trans ?_)
  refine if_neg fun hnot => ?_
  obtain hfrozen | hpending := h
  · exact Bool.false_ne_true (hnot.1.symm.trans hfrozen)
  · exact hpending hnot.2

/-! ## The freeze count (R35, R36) -/

theorem Pool.countRecord_more {x : Pool} {n : Nat} (h : x.freezePending = some (n + 2)) :
    x.countRecord = { x with freezePending := some (n + 1) } := by
  rw [Pool.countRecord, h]
  exact if_neg (by omega)

theorem Pool.countRecord_last {x : Pool} (h : x.freezePending = some 1) :
    x.countRecord = { x with freezePending := none, frozen := true, frozenDue := true } := by
  rw [Pool.countRecord, h]
  exact if_pos (Nat.le_refl 1)

theorem Pool.freezeAction_frozen {x : Pool} (h : x.frozen = true) (v : Nat) : x.freezeAction v = x := if_pos h

theorem Pool.freezeAction_of_none {x : Pool} (hfrozen : x.frozen = false) (hpending : x.freezePending = none) (v : Nat) :
    x.freezeAction v = if v = 0 then { x with freezePending := none, frozen := true, frozenDue := true }
      else { x with freezePending := some v } := by
  rw [Pool.freezeAction, hfrozen, if_neg Bool.false_ne_true, hpending]

theorem Pool.freezeAction_of_some {x : Pool} {c : Nat} (hfrozen : x.frozen = false) (hpending : x.freezePending = some c) (v : Nat) :
    x.freezeAction v = if min v c = 0 then { x with freezePending := none, frozen := true, frozenDue := true }
      else { x with freezePending := some (min v c) } := by
  rw [Pool.freezeAction, hfrozen, if_neg Bool.false_ne_true, hpending]

theorem Pool.freezeAction_now {x : Pool} (hfrozen : x.frozen = false) :
    x.freezeAction 0 = { x with freezePending := none, frozen := true, frozenDue := true } := by
  cases hpending : x.freezePending with
  | none => exact (Pool.freezeAction_of_none hfrozen hpending 0).trans (if_pos rfl)
  | some c => exact (Pool.freezeAction_of_some hfrozen hpending 0).trans (if_pos (Nat.zero_min c))

/-- Settles O53: FREEZE and THAW are events that an evaluation follows; the counts are those of the pool. -/
theorem freezeAndThaw : Obligations.FreezeAndThaw := by
  refine ⟨fun s p l hcall => ?_, fun x => ⟨Pool.countRecord_of_none, fun n => Pool.countRecord_more, Pool.countRecord_last,
    fun v h => Pool.freezeAction_frozen h v, Pool.freezeAction_now,
    fun v hfrozen hpending => (Pool.freezeAction_of_none hfrozen hpending _).trans (if_neg (Nat.succ_ne_zero v)),
    fun v c hfrozen hpending => (Pool.freezeAction_of_some hfrozen hpending _).trans (if_neg (by omega))⟩⟩
  intro x unpended
  have hunpended : unpended.line l = { s.line l with pool := { (s.line l).pool with freezePending := none } } :=
    State.line_modLine_self s l _
  have huntime : unpended.timebase = s.timebase := rfl
  clear_value unpended
  refine ⟨fun h => ⟨exec_freeze_refused hcall h, exec_thaw_refused hcall h⟩, exec_freeze_frozen hcall,
    fun hcontrol hfrozen => ?_, exec_thaw_idle hcall, fun hcontrol h => ?_⟩
  · have hexec := exec_freeze_freezes hcall hcontrol hfrozen
    have hsound := frozenEvent_sound (l := l) (beginCommand s p false) .frozen []
    have hline := line_frozenAt (beginCommand s p false) l
    have htime : (frozenAt (beginCommand s p false) l).timebase = s.timebase := rfl
    rw [beginCommand_line] at hline
    generalize frozenAt (beginCommand s p false) l = v at hexec hsound hline htime
    have hrecorded := evaluatedEvent_recorded (l := l) v .frozen []
    have hkept := evaluatedEvent_freezeKept (l := l) v .frozen []
    have hrestful : (s.line l).hold.state = .none → (v.line l).restful := fun h => by
      rw [hline]
      exact ⟨h, .inr rfl⟩
    have hhold := fun h => evaluatedEvent_holdKept (hrestful h) .frozen []
    have hlogs := fun h => logsEvent_evaluatedEvent (hrestful h) .frozen []
    have hanswered := answered_of_sound hsound { count := some (countHalf ((evaluatedEvent v l .frozen []).line l).held) }
    generalize evaluatedEvent v l .frozen [] = t at *
    obtain ⟨hpending, hfrozen'⟩ := hkept.pending (by rw [hline])
    refine ⟨_, hexec, hkept.frozen (by rw [hline]), hpending, hanswered, fun h => ⟨?_, (hhold h).tx.trans (by rw [hline])⟩,
      hrecorded.io.trans (by rw [hline]), hrecorded.cond.trans (by rw [hline]), hrecorded.watch.trans (by rw [hline]),
      hrecorded.queue.trans (by rw [hline]), hrecorded.standing.trans (by rw [hline])⟩
    have hlog := hlogs h
    rw [LogsEvent, eventRecord, hline, htime] at hlog
    rw [LogsEvent, eventRecord, hunpended, huntime]
    exact hlog
  · have hexec := exec_thaw_thaws hcall hcontrol h
    have hsound := thawedEvent_sound (l := l) (beginCommand s p false) .thawed (thawedArgument (s.line l).pool)
    have hline := line_thawedAt (beginCommand s p false) l
    have htime : (thawedAt (beginCommand s p false) l).timebase = s.timebase := rfl
    rw [beginCommand_line] at hline
    generalize thawedAt (beginCommand s p false) l = v at hexec hsound hline htime
    have hrecorded := evaluatedEvent_recorded (l := l) v .thawed (thawedArgument (s.line l).pool)
    have hkept := evaluatedEvent_freezeKept (l := l) v .thawed (thawedArgument (s.line l).pool)
    have hrestful : (s.line l).noHold → (v.line l).restful := fun h => by
      rw [hline]
      exact ⟨h.1, .inl h.2⟩
    have hlogs := fun h => logsEvent_evaluatedEvent (hrestful h) .thawed (thawedArgument (s.line l).pool)
    have hwrote := fun h hroom => evaluatedEvent_wrote (argument := thawedArgument (s.line l).pool) (hrestful h) hroom .thawed
    have hanswered := answered_of_sound hsound
      { count := some (countHalf (s.line l).pool.discardedEvents), value := some (BitVec.ofNat 32 (s.line l).pool.discardedChars) }
    generalize evaluatedEvent v l .thawed _ = t at *
    obtain ⟨hpending, hfrozen⟩ := hkept.pending (by rw [hline])
    have hroomy : (unpended.line l).roomy 16 → (v.line l).roomy 16 := by
      rw [hline, hunpended]
      exact id
    refine ⟨_, hexec, hfrozen.trans (by rw [hline]), hpending, hanswered, fun h => ?_, fun h hroom => ?_,
      hrecorded.io.trans (by rw [hline]), hrecorded.cond.trans (by rw [hline]), hrecorded.watch.trans (by rw [hline]),
      hrecorded.queue.trans (by rw [hline]), hrecorded.standing.trans (by rw [hline])⟩
    · have hlog := hlogs h
      rw [LogsEvent, eventRecord, thawedArgument_eq, hline, htime] at hlog
      rw [LogsEvent, eventRecord, hunpended, huntime]
      exact hlog
    · have hpool := (hwrote h (hroomy hroom)).pool_of_none (by rw [hline])
      change (t.line l).pool.discardedChars = 0 ∧ (t.line l).pool.discardedEvents = 0
      rw [hpool, hline]
      exact ⟨rfl, rfl⟩

end Sys2Proof.Machine
end

section
/-! Proofs: pages released, and SET QUOTA (R26, R28, R31, R32). -/

namespace Sys2Proof.Machine

open Host

variable {l : LineId} {s t u v : State} {p : PortId}

/-! ## Pages released (R26, R28) -/

/-- The log of a line after the release of its oldest pages. -/
def Capture.released (n : Nat) (kept : List Page) (x : Capture) : Capture :=
  { x with oldest := if n = 0 then x.oldest else oldestOf kept x.next }

/-- What the release of pages leaves: the newest pages, the free list longer by the oldest, and the rest of the line. -/
structure Released (l : LineId) (n : Nat) (s t : State) : Prop where
  pool : (t.line l).pool = { (s.line l).pool with pages := (s.line l).pool.pages.drop n }
  cap : (t.line l).cap = (s.line l).cap.released n ((s.line l).pool.pages.drop n)
  hold : (t.line l).hold = (s.line l).hold
  tx : (t.line l).tx = (s.line l).tx
  io : (t.line l).io = (s.line l).io
  cond : (t.line l).cond = (s.line l).cond
  watch : (t.line l).watch = (s.line l).watch
  leaseTimer : (t.line l).att.leaseTimer = (s.line l).att.leaseTimer
  standing : (t.line l).att.list.map Attachment.standing = (s.line l).att.list.map Attachment.standing
  freePages : t.freePages = s.freePages ++ ((s.line l).pool.pages.take n).map (·.number)
  other : ∀ k, k ≠ l → t.line k = s.line k
  timebase : t.timebase = s.timebase

theorem line_dropPages (s : State) (l : LineId) (n : Nat) : (dropPages s l n).line l = { s.line l with
    cap := { (s.line l).cap with oldest := oldestOf ((s.line l).pool.pages.drop n) (s.line l).cap.next }
    pool := { (s.line l).pool with pages := (s.line l).pool.pages.drop n } } := State.line_modLine_self _ l _

theorem releasePages_released (s : State) (l : LineId) (n : Nat) : Released l n s (releasePages s l n) := by
  by_cases hn : n = 0
  · subst hn
    exact ⟨rfl, rfl, rfl, rfl, rfl, rfl, rfl, rfl, rfl, (List.append_nil _).symm, fun _ _ => rfl, rfl⟩
  · have hline := line_dropPages s l n
    have hother : ∀ k, k ≠ l → (dropPages s l n).line k = s.line k := fun k hk => State.line_modLine_ne _ _ _ _ hk
    have hfree : (dropPages s l n).freePages = s.freePages ++ ((s.line l).pool.pages.take n).map (·.number) := rfl
    have htime : (dropPages s l n).timebase = s.timebase := rfl
    have hnoted := reportAdvance_noted (l := l) (s.line l).cap.oldest (dropPages s l n)
    rw [releasePages, if_neg hn]
    generalize dropPages s l n = v at hline hother hfree htime hnoted ⊢
    obtain ⟨hwork, hpool, hcap, hhold, htx, hpages⟩ := hnoted
    have hrecorded := Recorded.of_work hwork
    rw [hline] at hpool hcap hhold htx
    refine ⟨hpool, hcap.trans ?_, hhold, htx, hrecorded.io.trans (by rw [hline]), hrecorded.cond.trans (by rw [hline]),
      hrecorded.watch.trans (by rw [hline]), hrecorded.leaseTimer.trans (by rw [hline]), hrecorded.standing.trans (by rw [hline]),
      hpages.trans hfree,
      fun k hk => (hrecorded.other hk).trans (hother k hk), hrecorded.timebase.trans htime⟩
    rw [Capture.released, if_neg hn]

theorem Released.recordFrame {n : Nat} (h : Released l n s t) : (s.line l).RecordFrame (t.line l) :=
  ⟨h.io, h.cond, h.watch, h.leaseTimer, h.standing, by rw [h.tx], by rw [h.tx], by rw [h.tx], by rw [h.tx], by rw [h.pool],
    by rw [h.pool]⟩

/-! ## The checks of SET QUOTA (R32) -/

theorem sum_finRange (f : LineId → Nat) : ((List.finRange 16).map f).sum = ∑ k, f k := (Fin.sum_univ_def f).symm

/-- A sum over the lines in which one line counts anew. -/
theorem sum_replaced (f : LineId → Nat) (l : LineId) (n : Nat) :
    ((List.finRange 16).map fun k => if k = l then n else f k).sum = (∑ k, f k) - f l + n := by
  have hchange := sum_change (f := f) (g := fun k => if k = l then n else f k) l fun k hk => if_neg hk
  have hle : f l ≤ ∑ k, f k := Finset.single_le_sum (f := f) (fun _ _ => Nat.zero_le _) (Finset.mem_univ l)
  rw [sum_finRange]
  rw [if_pos rfl] at hchange
  omega

theorem reservesAfter_eq (s : State) (l : LineId) (reserve : Nat) : reservesAfter s l reserve
    = ((List.finRange 16).map fun k => if k = l then reserve else (s.line k).pool.reserve).sum := by
  rw [sum_replaced fun k => (s.line k).pool.reserve, reservesAfter, State.sum_lines]

theorem outstandingAfter_eq (s : State) (l : LineId) (reserve held : Nat) : outstandingAfter s l reserve held
    = ((List.finRange 16).map fun k => if k = l then reserve - held else (s.line k).pool.reserve - (s.line k).held).sum := by
  rw [sum_replaced fun k => (s.line k).pool.reserve - (s.line k).held, outstandingAfter, State.outstanding, State.sum_lines]

/-- The free pages once the pages above a limit are released. -/
theorem sub_min_held (held limit : Nat) : held - min held limit = held - limit := by omega

theorem quotaError_bad {reserve limit : Nat} (h : ¬ (1 ≤ reserve ∧ reserve ≤ 128 ∧ reserve ≤ limit ∧ limit ≤ 2048)) :
    quotaError s l reserve limit = some .badArgument := if_pos (by omega)

theorem quotaError_frozen {reserve limit : Nat} (h : 1 ≤ reserve ∧ reserve ≤ 128 ∧ reserve ≤ limit ∧ limit ≤ 2048)
    (hfrozen : ¬ ((s.line l).pool.frozen = false ∨ (s.line l).held ≤ limit)) : quotaError s l reserve limit = some .frozen := by
  rw [not_or, Bool.not_eq_false, Nat.not_le] at hfrozen
  exact (if_neg (by omega)).trans (if_pos hfrozen)

/-- The last checks of SET QUOTA, on the sums. -/
theorem quotaError_sums {reserve limit : Nat} (h : 1 ≤ reserve ∧ reserve ≤ 128 ∧ reserve ≤ limit ∧ limit ≤ 2048)
    (hthawed : (s.line l).pool.frozen = false ∨ (s.line l).held ≤ limit) : quotaError s l reserve limit
      = if 2048 < reservesAfter s l reserve then some .quota
        else if s.freePages.length + ((s.line l).held - limit) < outstandingAfter s l reserve (min (s.line l).held limit) then some .quota
        else none := by
  have hnot : ¬ ((s.line l).pool.frozen = true ∧ limit < (s.line l).held) := by
    rintro ⟨hfrozen, hlt⟩
    obtain hthaw | hle := hthawed
    · exact Bool.false_ne_true (hthaw.symm.trans hfrozen)
    · exact absurd hlt (Nat.not_lt.mpr hle)
  rw [← sub_min_held]
  exact (if_neg (by omega)).trans (if_neg hnot)

/-! ## SET QUOTA (R31, R32) -/

theorem exec_setQuota_refused (hcall : s.calls p l) (hcontrol : (s.line l).hasControl p = false) :
    exec (.setQuota p) s = .next (s.answer p false { code := .noControl }) :=
  congrArg Outcome.next (controlCommand_refused hcall hcontrol false _)

theorem exec_setQuota_failed {code : ErrorCode} (hcall : s.calls p l) (hcontrol : (s.line l).hasControl p = true)
    (herror : quotaError s l (s.port p).count.toNat (s.port p).value.toNat = some code) :
    exec (.setQuota p) s = .next (s.answer p false { code := code }) := by
  refine congrArg Outcome.next ((controlCommand_of_calls hcall hcontrol false _).trans ?_)
  rw [port_beginCommand_self]
  change (match quotaError s l (s.port p).count.toNat (s.port p).value.toNat with | some code => _ | none => _) = _
  rw [herror]
  exact failCheck_beginCommand s p false code

/-- A line with a new quota. -/
def quotaSet (s : State) (l : LineId) (reserve limit : Nat) : State := s.modPool l fun x => { x with reserve := reserve, limit := limit }

theorem line_quotaSet (s : State) (l : LineId) (reserve limit : Nat) : (quotaSet s l reserve limit).line l = { s.line l with
    pool := { (s.line l).pool with reserve := reserve, limit := limit } } := State.line_modLine_self s l _

/-- A line with a new quota, its pages above the limit released, and its hold evaluated. -/
def quotaTaken (s : State) (l : LineId) (reserve limit : Nat) : State :=
  askEvaluation (releasePages (quotaSet s l reserve limit) l ((s.line l).held - limit)) l

theorem quotaTaken_sound (s : State) (reserve limit : Nat) : Sound l s (quotaTaken s l reserve limit) := by
  rw [quotaTaken, quotaSet]
  exact quota_sound s reserve limit _

theorem exec_setQuota_taken (hcall : s.calls p l) (hcontrol : (s.line l).hasControl p = true)
    (herror : quotaError s l (s.port p).count.toNat (s.port p).value.toNat = none) : exec (.setQuota p) s = .next
      (prepare (quotaTaken (beginCommand s p false) l (s.port p).count.toNat (s.port p).value.toNat) p
        { count := some (countHalf ((quotaTaken (beginCommand s p false) l (s.port p).count.toNat (s.port p).value.toNat).line l).held)
          position := some ((quotaTaken (beginCommand s p false) l (s.port p).count.toNat (s.port p).value.toNat).line l).cap.oldest })
    := by
  refine congrArg Outcome.next ((controlCommand_of_calls hcall hcontrol false _).trans ?_)
  rw [port_beginCommand_self]
  change (match quotaError s l (s.port p).count.toNat (s.port p).value.toNat with | some code => _ | none => _) = _
  rw [herror]
  rfl

theorem quotaTaken_fields (s : State) (l : LineId) (reserve limit : Nat) :
    ((quotaTaken s l reserve limit).line l).pool.reserve = reserve ∧ ((quotaTaken s l reserve limit).line l).pool.limit = limit
      ∧ ((quotaTaken s l reserve limit).line l).io = (s.line l).io ∧ ((quotaTaken s l reserve limit).line l).cond = (s.line l).cond
      ∧ ((quotaTaken s l reserve limit).line l).watch = (s.line l).watch
      ∧ ((quotaTaken s l reserve limit).line l).tx.queue = (s.line l).tx.queue := by
  have hset := line_quotaSet s l reserve limit
  rw [quotaTaken]
  generalize quotaSet s l reserve limit = v at hset ⊢
  have hreleased := releasePages_released v l ((s.line l).held - limit)
  generalize releasePages v l _ = w at hreleased ⊢
  have hrecorded := askEvaluation_recorded (l := l) w
  exact ⟨hrecorded.reserve.trans (by rw [hreleased.pool, hset]), hrecorded.limit.trans (by rw [hreleased.pool, hset]),
    hrecorded.io.trans (hreleased.io.trans (by rw [hset])), hrecorded.cond.trans (hreleased.cond.trans (by rw [hset])),
    hrecorded.watch.trans (hreleased.watch.trans (by rw [hset])), hrecorded.queue.trans (by rw [hreleased.tx, hset])⟩

/-- With a hold that has nothing to do, a new quota releases pages and does nothing more to the log. -/
theorem quotaTaken_released (hnohold : (s.line l).noHold) (hmarks : (s.line l).unmarked) (reserve limit : Nat) :
    Released l ((s.line l).held - limit) (quotaSet s l reserve limit) (quotaTaken s l reserve limit) := by
  have hset := line_quotaSet s l reserve limit
  rw [quotaTaken]
  generalize quotaSet s l reserve limit = v at hset ⊢
  have hreleased := releasePages_released v l ((s.line l).held - limit)
  rw [askEvaluation_of_restful]
  · exact hreleased
  · rw [Line.restful, hreleased.hold, hreleased.io, hset]
    exact ⟨hnohold.1, .inl hnohold.2⟩
  · rw [Line.unmarked, hreleased.hold, hreleased.pool, hset]
    exact hmarks

/-- Settles O51: the checks in their order; then the quota, the release and the evaluation. -/
theorem setQuotaChecksAndReleases : Obligations.SetQuotaChecksAndReleases := by
  intro s p l hcall x r m after good thawed reserves promised free
  have hreserves : reservesAfter s l r = reserves := reservesAfter_eq s l r
  have hpromised : outstandingAfter s l r after = promised := outstandingAfter_eq s l r after
  refine ⟨exec_setQuota_refused hcall, fun hcontrol hbad => exec_setQuota_failed hcall hcontrol (quotaError_bad hbad),
    fun hcontrol hgood hfrozen => exec_setQuota_failed hcall hcontrol (quotaError_frozen hgood hfrozen),
    fun hcontrol hgood hthawed hover => exec_setQuota_failed hcall hcontrol ((quotaError_sums hgood hthawed).trans ?_),
    fun hcontrol hgood hthawed hsum hpages => ?_⟩
  · rw [hreserves, hpromised]
    obtain hover | hover := hover
    · exact if_pos hover
    · rw [if_pos hover, ite_self]
  · have hexec := exec_setQuota_taken hcall hcontrol ((quotaError_sums hgood hthawed).trans (by
      rw [hreserves, hpromised, if_neg (Nat.not_lt.mpr hsum), if_neg (Nat.not_lt.mpr hpages)]))
    have hanswered := answered_of_sound (quotaTaken_sound (l := l) (beginCommand s p false) r m)
      { count := some (countHalf ((quotaTaken (beginCommand s p false) l r m).line l).held)
        position := some ((quotaTaken (beginCommand s p false) l r m).line l).cap.oldest }
    obtain ⟨hreserve, hlimit, hio, hcond, hwatch, hqueue⟩ := quotaTaken_fields (beginCommand s p false) l r m
    have hset := line_quotaSet (beginCommand s p false) l r m
    have hfree : (quotaSet (beginCommand s p false) l r m).freePages = s.freePages := rfl
    have hreleased := fun hnohold hmarks => quotaTaken_released (s := beginCommand s p false) (l := l) hnohold hmarks r m
    change exec (.setQuota p) s = .next (prepare (quotaTaken (beginCommand s p false) l r m) p _) at hexec
    generalize quotaTaken (beginCommand s p false) l r m = t at *
    generalize quotaSet (beginCommand s p false) l r m = v at *
    simp only [beginCommand_line] at *
    refine ⟨_, hexec, hreserve, hlimit, hanswered, hio, hcond, hwatch, hqueue, fun hnohold hmarks => ?_⟩
    have h := hreleased hnohold (hmarks l)
    have hpool := h.pool
    have hcap := h.cap
    have hpages := h.freePages
    rw [hset] at hpool hcap hpages
    rw [hfree] at hpages
    have hkept : (t.line l).pool.pages = x.pool.pages.drop (x.held - m) := (congrArg Pool.pages hpool :)
    have holdest : (t.line l).cap.oldest = if x.held - m = 0 then x.cap.oldest
        else oldestOf (x.pool.pages.drop (x.held - m)) x.cap.next := (congrArg Capture.oldest hcap :)
    refine ⟨?_, hkept, hpages, (congrArg Capture.next hcap :), (congrArg Capture.opened hcap :), fun hle => ?_, fun hlt pg rest hdrop hpg => ?_⟩
    · change (t.line l).pool.pages.length = min x.pool.pages.length m
      rw [hkept, List.length_drop, Line.held]
      omega
    · exact holdest.trans (if_pos (by omega))
    · refine holdest.trans ((if_neg (by omega)).trans ?_)
      rw [hdrop]
      exact if_neg hpg

end Sys2Proof.Machine
end

section
/-! Proofs: CLEAR HISTORY (R31, R33). -/

namespace Sys2Proof.Machine

open Host

variable {l : LineId} {s t u v : State} {p : PortId}

/-! ## An evaluation that has nothing to do (R153, R154) -/

/-- A line whose hold has nothing to do settles by dropping the evaluation that was asked for. -/
theorem settle_of_restful (h : (s.line l).restful) (hdue : (s.line l).pool.frozenDue = false) :
    settle s l = s.modHold l fun x => { x with evalDue := false } := by
  have hline := State.line_modLine_self s l fun x => { x with hold := { x.hold with evalDue := false } }
  cases heval : (s.line l).hold.evalDue with
  | false =>
    rw [settle_of_unmarked ⟨hdue, heval⟩]
    refine ((State.modLine_congr s l (g := fun x => x) ?_).trans (State.modLine_id s l)).symm
    rw [← heval]
  | true =>
    rw [settle, settleWithin, flushFrozen_of_not_due hdue]
    rw [if_pos heval, State.modHold_eq]
    generalize s.modLine l (fun x => { x with hold := { x.hold with evalDue := false } }) = v at hline ⊢
    rw [evaluateHold_of_restful (by rw [hline]; exact h), settleWithin_of_unmarked 6 (by rw [hline]; exact ⟨hdue, rfl⟩)]

/-! ## A record on a page just given (R7, R23, R27) -/

theorem requestPage_gives {n : Nat} {rest : List Nat} (hmay : mayTakeFree s l = true) (hfree : s.freePages = n :: rest) :
    requestPage s l = (giveFree s l n rest, true) := by
  rw [requestPage, hmay, hfree]

theorem mayTakeFree_iff (s : State) (l : LineId) : mayTakeFree s l = true ↔ (s.line l).held < (s.line l).pool.limit
    ∧ ((s.line l).held < (s.line l).pool.reserve ∨ s.outstanding < s.freePages.length) := by
  rw [mayTakeFree, Bool.and_eq_true, Bool.or_eq_true, decide_eq_true_iff, decide_eq_true_iff, decide_eq_true_iff]

theorem ensureRoom_requests {bytes : Nat} (h : (s.line l).pool.pages = [] ∨ (s.line l).room < bytes) :
    ensureRoom s l bytes = requestPage s l := by
  refine if_neg fun hnot => ?_
  obtain ⟨hpages, hroom⟩ := hnot
  obtain h | h := h
  · exact hpages h
  · exact absurd hroom (Nat.not_le.mpr h)

/-! ## The log emptied (R33) -/

/-- A line whose open record has closed, thawed: its pages are still to go. -/
def logEnded (s : State) (l : LineId) : State :=
  (closeOpen s l .event 0).modPool l fun x => { x with frozen := false, frozenDue := false }

theorem line_logEnded (s : State) (l : LineId) : (logEnded s l).line l = { (closeOpen s l .event 0).line l with
    pool := { ((closeOpen s l .event 0).line l).pool with frozen := false, frozenDue := false } } := State.line_modLine_self _ l _

/-- A line with every page released. -/
def logGone (s : State) (l : LineId) : State := releasePages (logEnded s l) l ((logEnded s l).line l).held

theorem logGone_released (s : State) (l : LineId) : Released l ((logEnded s l).line l).held (logEnded s l) (logGone s l) :=
  releasePages_released _ l _

theorem clearLog_eq (s : State) (l : LineId) (p : PortId) : clearLog s l p
    = settle (if ((closeOpen s l .event 0).line l).pool.frozenDue then
        (placeEvent (logGone s l) l .cleared [byteOf p.val]).modPool l fun x =>
          { x with freezePending := none, frozen := true, frozenDue := true }
      else placeEvent (logGone s l) l .cleared [byteOf p.val]) l := rfl

theorem discardedChars_kept (h : FreezeKept l s t) : (t.line l).pool.discardedChars = (s.line l).pool.discardedChars := h.discardedChars

/-- What the emptying leaves of the line, in every case. -/
theorem clearLog_frame (s : State) (l : LineId) (p : PortId) : (s.line l).RecordFrame ((clearLog s l p).line l)
    ∧ ((clearLog s l p).line l).pool.discardedChars = (s.line l).pool.discardedChars := by
  have hclosed := closeOpen_recorded (l := l) s .event 0
  have hclosedChars := ((freezeKept_rule l).closeOpen s .event 0).discardedChars
  have hended := line_logEnded s l
  have hgone := logGone_released s l
  have hplaced := placeEvent_recorded (l := l) (logGone s l) .cleared [byteOf p.val]
  have hplacedChars := ((freezeKept_rule l).placeEvent (logGone s l) .cleared [byteOf p.val]).discardedChars
  rw [clearLog_eq]
  generalize logGone s l = w at hgone hplaced hplacedChars ⊢
  generalize logEnded s l = v at hended hgone
  generalize closeOpen s l .event 0 = c at hclosed hclosedChars hended ⊢
  generalize placeEvent w l .cleared [byteOf p.val] = u at hplaced hplacedChars ⊢
  have hv : (c.line l).RecordFrame (v.line l) ∧ (v.line l).pool.discardedChars = (c.line l).pool.discardedChars := by
    rw [hended]
    exact ⟨⟨rfl, rfl, rfl, rfl, rfl, rfl, rfl, rfl, rfl, rfl, rfl⟩, rfl⟩
  have hw : (w.line l).pool.discardedChars = (v.line l).pool.discardedChars := by rw [hgone.pool]
  have hu : (s.line l).RecordFrame (u.line l) ∧ (u.line l).pool.discardedChars = (s.line l).pool.discardedChars :=
    ⟨((hclosed.recordFrame.trans hv.1).trans hgone.recordFrame).trans hplaced.recordFrame,
      hplacedChars.trans (hw.trans (hv.2.trans hclosedChars))⟩
  have hmarked := State.line_modLine_self u l fun x =>
    { x with pool := { x.pool with freezePending := none, frozen := true, frozenDue := true } }
  have hx : (s.line l).RecordFrame ((if (c.line l).pool.frozenDue then
      u.modPool l fun x => { x with freezePending := none, frozen := true, frozenDue := true } else u).line l)
      ∧ ((if (c.line l).pool.frozenDue then
      u.modPool l fun x => { x with freezePending := none, frozen := true, frozenDue := true } else u).line l).pool.discardedChars
        = (s.line l).pool.discardedChars := by
    split
    · rw [State.modPool_eq, hmarked]
      exact hu
    · exact hu
  generalize (if (c.line l).pool.frozenDue then _ else u) = x at hx ⊢
  exact ⟨hx.1.trans (settle_recorded x).recordFrame,
    ((freezeKept_rule l).settle evaluateHold_freezeKept x).discardedChars.trans hx.2⟩

theorem pages_closeOpen (s : State) (l : LineId) (cause : CloseCause) (detail : Byte) :
    ((closeOpen s l cause detail).line l).pool.pages.map (·.number) = (s.line l).pool.pages.map (·.number) := by
  cases hopen : (s.line l).cap.opened with
  | none => rw [closeOpen_of_none hopen]
  | some o =>
    have hline := State.line_modLine_self s l fun x =>
      { x with
        cap := { x.cap with opened := none, idleTimer := none }
        pool := { x.pool with pages := onCurrentPage (Page.join (o.closed cause detail)) x.pool.pages } }
    change (closeRecord s l o cause detail).line l = _ at hline
    obtain ⟨-, hpool, -⟩ := reportComplete_noted (l := l) (closeRecord s l o cause detail)
    rw [State.modPool_eq, State.line_modLine_self] at hpool
    rw [closeOpen_of_some hopen, hpool]
    dsimp only
    rw [pages_countRecord, hline]
    exact map_number_onCurrentPage (Page.join (o.closed cause detail)) (fun _ => rfl) _

/-- The close of the open record of a line with no freeze count, as the emptying of the log finds it. -/
structure ClosedForClear (s c : State) (l : LineId) : Prop where
  pool : (c.line l).pool = { (s.line l).pool with pages := (c.line l).pool.pages }
  numbers : (c.line l).pool.pages.map (·.number) = (s.line l).pool.pages.map (·.number)
  cap : (c.line l).cap.next = (s.line l).cap.next ∧ (c.line l).cap.oldest = (s.line l).cap.oldest ∧ (c.line l).cap.opened = none
  hold : (c.line l).hold = (s.line l).hold
  io : (c.line l).io = (s.line l).io
  other : ∀ k, k ≠ l → c.line k = s.line k
  freePages : c.freePages = s.freePages
  timebase : c.timebase = s.timebase

theorem closeOpen_forClear (hpages : (s.line l).pool.pages = [] → (s.line l).cap.opened = none)
    (hnone : (s.line l).pool.freezePending = none) : ClosedForClear s (closeOpen s l .event 0) l := by
  by_cases hempty : (s.line l).pool.pages = []
  · rw [closeOpen_of_none (hpages hempty)]
    exact ⟨rfl, rfl, ⟨rfl, rfl, hpages hempty⟩, rfl, rfl, fun _ _ => rfl, rfl, rfl⟩
  · have hwrote := closeOpen_wrote hempty .event 0
    exact ⟨hwrote.pool_of_none hnone, pages_closeOpen s l .event 0, ⟨hwrote.next, hwrote.oldest, opened_closeOpen s l .event 0⟩,
      hwrote.hold, hwrote.recorded.io, fun _ => hwrote.recorded.other, hwrote.freePages, hwrote.recorded.timebase⟩

/-- A log with no page left: what CLEARED is placed on. -/
theorem logGone_empty (h : ClosedForClear s (closeOpen s l .event 0) l)
    (holdest : (s.line l).pool.pages = [] → (s.line l).cap.oldest = (s.line l).cap.next) :
    ((logGone s l).line l).pool = { (s.line l).pool with pages := [], frozen := false, frozenDue := false }
      ∧ ((logGone s l).line l).cap.oldest = (s.line l).cap.next ∧ ((logGone s l).line l).cap.next = (s.line l).cap.next
      ∧ ((logGone s l).line l).cap.opened = none ∧ ((logGone s l).line l).hold = (s.line l).hold
      ∧ ((logGone s l).line l).io = (s.line l).io ∧ (logGone s l).timebase = s.timebase
      ∧ (logGone s l).freePages = s.freePages ++ (s.line l).pool.pages.map (·.number) := by
  have hended := line_logEnded s l
  have hfree : (logEnded s l).freePages = (closeOpen s l .event 0).freePages := rfl
  have htime : (logEnded s l).timebase = (closeOpen s l .event 0).timebase := rfl
  have hgone := logGone_released s l
  generalize logGone s l = w at hgone ⊢
  generalize logEnded s l = v at hended hfree htime hgone
  generalize closeOpen s l .event 0 = c at h hended hfree htime
  obtain ⟨hnext, hold, hopened⟩ := h.cap
  have hheld : (v.line l).held = (v.line l).pool.pages.length := rfl
  have hpool := hgone.pool
  have hcap := hgone.cap
  have hpages := hgone.freePages
  rw [hheld, List.drop_length] at hpool hcap
  rw [hheld, List.take_length] at hpages
  rw [hended] at hpool hcap hpages
  rw [hfree, h.freePages] at hpages
  have hlength : (c.line l).pool.pages.length = (s.line l).pool.pages.length := by
    rw [← List.length_map (f := fun pg : Page => pg.number), h.numbers, List.length_map]
  refine ⟨?_, ?_, ?_, ?_, hgone.hold.trans (by rw [hended]; exact h.hold), hgone.io.trans (by rw [hended]; exact h.io),
    hgone.timebase.trans (htime.trans h.timebase), hpages.trans (by rw [h.numbers])⟩
  · rw [hpool, h.pool]
  · rw [hcap, Capture.released]
    dsimp only
    split
    · rename_i hzero
      exact hold.trans (holdest (List.length_eq_zero_iff.mp (hlength.symm.trans hzero)))
    · exact hnext
  · rw [hcap]
    exact hnext
  · rw [hcap]
    exact hopened

/-- An event record on a line with no page, which is given one: the log is that record. -/
structure WroteFirst (l : LineId) (r : LogRecord) (n : Nat) (rest : List Nat) (s t : State) : Prop where
  closed : (t.line l).closed = [r]
  oldest : (t.line l).cap.oldest = (s.line l).cap.oldest
  next : (t.line l).cap.next = nextSeq (s.line l).cap.next
  held : (t.line l).held = 1
  pool : (t.line l).pool = { (s.line l).pool with pages := (t.line l).pool.pages }
  hold : (t.line l).hold = { (s.line l).hold with evalDue := true }
  io : (t.line l).io = (s.line l).io
  freePages : t.freePages = rest

theorem placeEvent_wroteFirst {n : Nat} {rest : List Nat} (hpages : (s.line l).pool.pages = []) (hlimit : 0 < (s.line l).pool.limit)
    (hreserve : 0 < (s.line l).pool.reserve) (hfree : s.freePages = n :: rest) (hnone : (s.line l).pool.freezePending = none) (e : Event)
    (argument : List Byte) : WroteFirst l (eventRecord s l e argument) n rest s (placeEvent s l e argument) := by
  have hheld : (s.line l).held = 0 := by rw [Line.held, hpages]; rfl
  have hmay : mayTakeFree s l = true := (mayTakeFree_iff s l).mpr ⟨by rw [hheld]; exact hlimit, .inl (by rw [hheld]; exact hreserve)⟩
  have hgiven := line_giveFree s l n rest
  have htime : (giveFree s l n rest).timebase = s.timebase := rfl
  have hgfree : (giveFree s l n rest).freePages = rest := rfl
  rw [placeEvent, writeRecord, ensureRoom_requests (.inl hpages), requestPage_gives hmay hfree]
  dsimp only
  generalize giveFree s l n rest = v at hgiven htime hgfree ⊢
  have hwrote := Wrote.place (s := v) (l := l) (by rw [hgiven]; exact List.append_ne_nil_of_right_ne_nil _ (List.cons_ne_nil _ _))
    .event e.code 0 argument
  generalize reportComplete _ l = t at hwrote ⊢
  have hpool := hwrote.pool_of_none (by rw [hgiven]; exact hnone)
  have hvclosed : (v.line l).closed = [] := by rw [Line.closed, hgiven, hpages]; rfl
  have hvheld : (v.line l).held = 1 := by rw [Line.held, hgiven, hpages]; rfl
  have hclosed := hwrote.closed
  rw [hvclosed, hgiven, htime] at hclosed
  rw [hgiven] at hpool
  exact ⟨hclosed, hwrote.oldest.trans (by rw [hgiven]), hwrote.next.trans (by rw [hgiven]; rfl), hwrote.held.trans hvheld, hpool,
    hwrote.hold.trans (by rw [hgiven]), hwrote.recorded.io.trans (by rw [hgiven]), hwrote.freePages.trans hgfree⟩

theorem exec_clearHistory_refused (hcall : s.calls p l) (hcontrol : (s.line l).hasControl p = false) :
    exec (.clearHistory p) s = .next (s.answer p false { code := .noControl }) :=
  congrArg Outcome.next (controlCommand_refused hcall hcontrol false _)

theorem exec_clearHistory_frozen (hcall : s.calls p l) (hcontrol : (s.line l).hasControl p = true)
    (hfrozen : (s.line l).pool.frozen = true) : exec (.clearHistory p) s = .next (s.answer p false { code := .frozen }) := by
  refine congrArg Outcome.next ((controlCommand_of_calls hcall hcontrol false _).trans ?_)
  exact (if_pos hfrozen).trans (failCheck_beginCommand s p false .frozen)

theorem exec_clearHistory_clears (hcall : s.calls p l) (hcontrol : (s.line l).hasControl p = true)
    (hfrozen : (s.line l).pool.frozen = false) : exec (.clearHistory p) s
      = .next (prepare (clearLog (beginCommand s p false) l p) p { position := some (s.line l).cap.next }) := by
  refine congrArg Outcome.next ((controlCommand_of_calls hcall hcontrol false _).trans ?_)
  exact if_neg (by rw [beginCommand_line, hfrozen]; exact Bool.false_ne_true)

theorem oldest_of_pageless (hkept : (s.line l).consecutive) (hlaid : pagesLaid (s.line l).cap.opened (s.line l).pool.pages)
    (hpages : (s.line l).pool.pages = []) : (s.line l).cap.opened = none ∧ (s.line l).cap.oldest = (s.line l).cap.next := by
  rw [hpages] at hlaid
  obtain ⟨-, -, -, hnext⟩ := hkept
  have hseqs : (s.line l).logSeqs = [] := by
    rw [Line.logSeqs, Line.closed, hpages, hlaid]
    rfl
  rw [hseqs] at hnext
  exact ⟨hlaid, hnext.symm⟩

/-- Under the bounds of R29 the free list, with the pages of a line joined to it, holds a page. -/
theorem exists_free (h : QuotaBounds s) (l : LineId) :
    ∃ n rest, s.freePages ++ (s.line l).pool.pages.map (·.number) = n :: rest := by
  refine List.exists_cons_of_ne_nil fun hnil => ?_
  obtain ⟨hfree, hnumbers⟩ := List.append_eq_nil_iff.mp hnil
  obtain ⟨hbounds, -, hout⟩ := (quotaBounds_iff s).mp h
  obtain ⟨hreserve, -⟩ := hbounds l
  have hheld : (s.line l).held = 0 := by rw [Line.held, List.map_eq_nil_iff.mp hnumbers]; rfl
  have hle : (s.line l).pool.reserve - (s.line l).held ≤ ∑ k, ((s.line k).pool.reserve - (s.line k).held) :=
    Finset.single_le_sum (f := fun k => (s.line k).pool.reserve - (s.line k).held) (fun _ _ => Nat.zero_le _) (Finset.mem_univ l)
  rw [hfree, List.length_nil] at hout
  omega

/-- The log emptied on a line with no freeze count and no hold: CLEARED, on one page. -/
theorem clearLog_cleared (hbounds : QuotaBounds s) (hlog : LogKept s) (hmarks : (s.line l).unmarked)
    (hnone : (s.line l).pool.freezePending = none) (hnohold : (s.line l).noHold) (p : PortId) :
    ((clearLog s l p).line l).closed = [eventRecord s l .cleared [byteOf p.val]] ∧ ((clearLog s l p).line l).cap.opened = none
      ∧ ((clearLog s l p).line l).cap.oldest = (s.line l).cap.next
      ∧ ((clearLog s l p).line l).cap.next = nextSeq (s.line l).cap.next ∧ ((clearLog s l p).line l).held = 1
      ∧ ((clearLog s l p).line l).pool.frozen = false
      ∧ (clearLog s l p).freePages = (s.freePages ++ (s.line l).pool.pages.map (·.number)).drop 1 := by
  obtain ⟨hkept, hlaid⟩ := hlog l
  have hforClear := closeOpen_forClear (fun h => (oldest_of_pageless hkept hlaid h).1) hnone
  obtain ⟨hpool, holdest, hnext, hopened, hhold, hio, htime, hfree⟩ :=
    logGone_empty hforClear fun h => (oldest_of_pageless hkept hlaid h).2
  obtain ⟨n, rest, hcons⟩ := exists_free hbounds l
  obtain ⟨hreserve, -, hlimit, -⟩ := ((quotaBounds_iff s).mp hbounds).1 l
  have hdue : ((closeOpen s l .event 0).line l).pool.frozenDue = false := by rw [hforClear.pool]; exact hmarks.1
  rw [clearLog_eq, hdue, if_neg Bool.false_ne_true]
  generalize logGone s l = w at *
  have hwrote := placeEvent_wroteFirst (s := w) (l := l) (by rw [hpool]) (by rw [hpool]; exact Nat.lt_of_lt_of_le hreserve hlimit)
    (by rw [hpool]; exact hreserve) (hfree.trans hcons) (by rw [hpool]; exact hnone) .cleared [byteOf p.val]
  have huopened := (placeEvent_recorded (l := l) w .cleared [byteOf p.val]).opened hopened
  have hrecord : eventRecord w l .cleared [byteOf p.val] = eventRecord s l .cleared [byteOf p.val] := by
    rw [eventRecord, eventRecord, hnext, htime]
  rw [hrecord] at hwrote
  generalize placeEvent w l .cleared [byteOf p.val] = u at hwrote huopened ⊢
  have hline := State.line_modLine_self u l fun x => { x with hold := { x.hold with evalDue := false } }
  have hupool := hwrote.pool
  rw [hpool] at hupool
  rw [settle_of_restful (by rw [Line.restful, hwrote.hold, hwrote.io, hhold, hio]; exact ⟨hnohold.1, .inl hnohold.2⟩)
    (by rw [hupool]), State.modHold_eq]
  have hxfree : (u.modLine l fun x => { x with hold := { x.hold with evalDue := false } }).freePages = u.freePages := rfl
  have hxclosed : ((u.modLine l fun x => { x with hold := { x.hold with evalDue := false } }).line l).closed = (u.line l).closed := by
    rw [hline]; rfl
  have hxheld : ((u.modLine l fun x => { x with hold := { x.hold with evalDue := false } }).line l).held = (u.line l).held := by
    rw [hline]; rfl
  rw [hxclosed, hxheld, hxfree, hline]
  exact ⟨hwrote.closed, huopened, hwrote.oldest.trans holdest, hwrote.next.trans (by rw [hnext]), hwrote.held, by rw [hupool],
    hwrote.freePages.trans (by rw [hcons]; rfl)⟩

/-- Settles O52: the refusals; then the log emptied, with CLEARED on the page given to it. -/
theorem clearHistoryEmptiesTheLog : Obligations.ClearHistoryEmptiesTheLog := by
  intro s p l hcall x
  refine ⟨exec_clearHistory_refused hcall, exec_clearHistory_frozen hcall, fun hcontrol hfrozen => ?_⟩
  have hexec := exec_clearHistory_clears hcall hcontrol hfrozen
  have hanswered := answered_of_sound (clearLog_sound (l := l) (beginCommand s p false) p) { position := some (s.line l).cap.next }
  obtain ⟨hframe, hchars⟩ := clearLog_frame (beginCommand s p false) l p
  have hcleared := fun (hbounds : QuotaBounds (beginCommand s p false)) hlog hmarks hnone hnohold =>
    clearLog_cleared (l := l) hbounds hlog hmarks hnone hnohold p
  generalize clearLog (beginCommand s p false) l p = t at *
  obtain ⟨hio, hcond, hwatch, -, hstanding, hqueue, -, -, -, hreserve, hlimit⟩ := hframe
  exact ⟨_, hexec, hanswered, hreserve, hlimit, hchars, hio, hcond, hwatch, hqueue, hstanding,
    fun hbounds hlog hmarks hnone hnohold => hcleared hbounds hlog (hmarks l) hnone hnohold⟩

end Sys2Proof.Machine
end

section
/-! Proofs: page requests, and the report of a new oldest sequence number (R23, R27, R28, R114, R162). -/

namespace Sys2Proof.Machine

open Host

variable {l : LineId} {s t u v : State} {p : PortId}

/-! ## Page requests (R23, R27) -/

theorem not_mayTakeFree_iff (s : State) (l : LineId) : mayTakeFree s l = false ↔ ¬ ((s.line l).held < (s.line l).pool.limit
    ∧ ((s.line l).held < (s.line l).pool.reserve ∨ s.outstanding < s.freePages.length)) := by
  rw [← mayTakeFree_iff, Bool.not_eq_true]

theorem requestPage_refused (hmay : mayTakeFree s l = false) (hfrozen : (s.line l).pool.frozen = true) :
    requestPage s l = (s, false) := by
  rw [requestPage, hmay]
  exact if_pos hfrozen

theorem requestPage_recycles {pg : Page} {rest : List Page} (hmay : mayTakeFree s l = false) (hfrozen : (s.line l).pool.frozen = false)
    (hpages : (s.line l).pool.pages = pg :: rest) : requestPage s l = (recycle s l pg rest, true) := by
  rw [requestPage, hmay, hpages]
  exact if_neg (by rw [hfrozen]; exact Bool.false_ne_true)

theorem line_recyclePage (s : State) (l : LineId) (pg : Page) (rest : List Page) : (recyclePage s l pg rest).line l = { s.line l with
    cap := { (s.line l).cap with oldest := oldestOf rest (s.line l).cap.next }
    pool := { (s.line l).pool with pages := rest ++ [Page.fresh pg.number] }
    hold := { (s.line l).hold with evalDue := true } } := State.line_modLine_self s l _

theorem recycle_noted (s : State) (l : LineId) (pg : Page) (rest : List Page) :
    Noted l (recyclePage s l pg rest) (recycle s l pg rest) := reportAdvance_noted _ _

theorem reserve_le_outstanding (s : State) (l : LineId) : (s.line l).pool.reserve - (s.line l).held ≤ s.outstanding := by
  rw [State.outstanding, State.sum_lines]
  exact Finset.single_le_sum (f := fun k => (s.line k).pool.reserve - (s.line k).held) (fun _ _ => Nat.zero_le _) (Finset.mem_univ l)

/-- Under the bounds of R29 a line that may take a free page finds one, and one that may not holds a page. -/
theorem requests_of_bounds (h : QuotaBounds s) (l : LineId) : (mayTakeFree s l = true → s.freePages ≠ [])
    ∧ (mayTakeFree s l = false → (s.line l).pool.pages ≠ []) := by
  obtain ⟨hbounds, -, hout⟩ := id h
  obtain ⟨hreserve, -, hlimit, -⟩ := hbounds l
  refine ⟨fun hmay hnil => ?_, fun hmay hnil => ?_⟩
  · obtain ⟨-, hmay⟩ := (mayTakeFree_iff s l).mp hmay
    have hle := reserve_le_outstanding s l
    rw [hnil, List.length_nil] at hmay hout
    omega
  · have hheld : (s.line l).held = 0 := by rw [Line.held, hnil]; rfl
    exact (not_mayTakeFree_iff s l).mp hmay ⟨by omega, .inl (by omega)⟩

/-! ## The report of a new oldest sequence number (R114, R162) -/

/-- An attachment under a report of a new oldest sequence number. -/
def Attachment.reported (oldest : Seq) (a : Attachment) : Attachment := { a with overtaken := a.overtaken || seqBelow a.cursor oldest }

theorem attachment_levelData (s : State) (p q : PortId) : ((levelData l s p).line l).attachment q = (s.line l).attachment q := by
  rw [State.line, lines_levelData]
  rfl

theorem levelData_exists {k : CauseKind} (hk : k ≠ .data) (h : ∃ c ∈ (s.port p).causes, c.kind = k ∧ c.line = l) (q : PortId) :
    ∃ c ∈ ((levelData l s q).port p).causes, c.kind = k ∧ c.line = l :=
  (CausesKept.levelData (f := fun c => decide (c.kind = k)) (fun c hc => decide_eq_false (by rw [hc]; exact hk.symm)) s q).exists_cause
    (fun _ hc => decide_eq_true hc) h

theorem overtakePort_self {a : Attachment} (report : OldestReport) (ha : (s.line l).attachment p = some a) :
    ((overtakePort report l s p).line l).attachment p = some (a.reported report.oldest)
      ∧ (a.overtaken = false → seqBelow a.cursor report.oldest = true →
        ∃ c ∈ ((overtakePort report l s p).port p).causes, c.kind = .overtaken ∧ c.line = l) := by
  rw [overtakePort, ha]
  dsimp only
  by_cases h : (!a.overtaken && seqBelow a.cursor report.oldest) = true
  · rw [if_pos h]
    have hself := State.attachment_modAttachment_self (fun x => { x with overtaken := true }) (fun _ => rfl) ha
    have hposted := State.exists_cause_post (s.modAttachment l p fun x => { x with overtaken := true }) p .overtaken l 0
    refine ⟨?_, fun _ _ => levelData_exists (by decide) hposted p⟩
    rw [attachment_levelData]
    refine hself.trans ?_
    rw [Bool.and_eq_true, Bool.not_eq_true'] at h
    rw [Attachment.reported, h.2, Bool.or_true]
  · rw [if_neg h, attachment_levelData, ha]
    refine ⟨?_, fun hclear hbelow => absurd (by rw [hclear, hbelow]; rfl) h⟩
    have hsame : (a.overtaken || seqBelow a.cursor report.oldest) = a.overtaken := by
      cases hmark : a.overtaken with
      | true => rfl
      | false =>
        rw [hmark, Bool.not_false, Bool.true_and, Bool.not_eq_true] at h
        rw [h, Bool.or_false]
    rw [Attachment.reported, hsame]

theorem reportOldest_at {a : Attachment} (report : OldestReport) (ha : (s.line l).attachment p = some a) :
    ((reportOldest report s l).line l).attachment p = some (a.reported report.oldest)
      ∧ (a.overtaken = false → seqBelow a.cursor report.oldest = true →
        ∃ c ∈ ((reportOldest report s l).port p).causes, c.kind = .overtaken ∧ c.line = l) := by
  obtain ⟨u, hbefore, hafter⟩ := eachPort_at (overtakePort report l) (overtakePort_forPort report) s p
  obtain ⟨hatt, hcause⟩ := overtakePort_self report (hbefore.attachment.trans ha)
  rw [reportOldest, hafter.attachment, hafter.port]
  exact ⟨hatt, hcause⟩

/-! ## A stored character that needs a page (R7, R22, R23) -/

theorem outstanding_congr (h : ∀ k, (t.line k).pool = (s.line k).pool) : t.outstanding = s.outstanding := by
  rw [State.outstanding, State.outstanding, State.sum_lines, State.sum_lines]
  refine Finset.sum_congr rfl fun k _ => ?_
  rw [Line.held, Line.held, h k]

theorem mayTakeFree_congr (h : ∀ k, (t.line k).pool = (s.line k).pool) (hfree : t.freePages = s.freePages) :
    mayTakeFree t l = mayTakeFree s l := by
  rw [mayTakeFree, mayTakeFree, outstanding_congr h, hfree, Line.held, Line.held, h l]

theorem mayTake_iff (s : State) (l : LineId) : s.mayTake l ↔ mayTakeFree s l = true := (mayTakeFree_iff s l).symm

/-- A stored character as the capture unit takes it, with its mark and its score (R65, R74). -/
theorem exec_of_stores {r : Received} {data : Byte} {parity stop : Bool} (hr : (s.line l).completes data parity stop r)
    (hstores : (s.line l).stores r) (hauto : (s.line l).io.inForce.autoHunt = false) (hwatch : (s.line l).unwatched)
    (hqueue : (s.line l).tx.queue = []) :
    ∃ v : State, v.line l = { s.line l with
        io := { (s.line l).io with receiver := .between }, cond := { (s.line l).cond with nullPending := false } }
      ∧ (∀ k, k ≠ l → v.line k = s.line k) ∧ v.ports = s.ports ∧ v.freePages = s.freePages ∧ v.timebase = s.timebase
      ∧ exec (.characterComplete l data parity stop) s = .next (scored (storeCharacter v l r.value) l false) := by
  obtain ⟨hexec, hclear⟩ := exec_of_stored hr hstores
  have hother : ∀ k, k ≠ l → (clearNull (seen s l r) l).line k = s.line k := fun k hk =>
    (State.line_modLine_ne _ _ _ _ hk).trans (State.line_modLine_ne _ _ _ _ hk)
  have hkept := storeCharacter_kept (s := clearNull (seen s l r) l) (l := l) (by rw [Line.unwatched, hclear]; exact hwatch)
    (by rw [hclear]; exact hqueue) r.value
  rw [scoreEntry_of_below (by rw [hkept.io, hclear, hauto]; exact fun h => Bool.false_ne_true h.1)] at hexec
  exact ⟨_, hclear, hother, rfl, rfl, rfl, hexec⟩

theorem room_of_fresh {x : Line} {ps : List Page} {n : Nat} (h : x.pool.pages = ps ++ [Page.fresh n]) : x.room = 248 := by
  rw [Line.room, h, List.getLast?_concat]
  rfl

/-- A record opened on a fresh page, its line settled: the evaluation that the page asked for has nothing to do. -/
theorem settle_openRecord {ps : List Page} {n : Nat} (hrestful : (s.line l).restful) (hdue : (s.line l).pool.frozenDue = false)
    (hpages : (s.line l).pool.pages = ps ++ [Page.fresh n]) (hmax : 2 ≤ (s.line l).io.inForce.maxLength.toNat) (c : Byte) :
    settle (flushFrozen (closeAtCapacity (openRecord s l c) l) l) l
      = (openRecord s l c).modHold l fun x => { x with evalDue := false } := by
  have hline := line_openRecord s l c
  rw [room_of_fresh hpages] at hline
  generalize openRecord s l c = y at hline ⊢
  rw [closeAtCapacity_of_below (by rw [hline]) (by rw [hline]; exact lt_min_iff.mpr ⟨hmax, by change 1 < 236; decide⟩),
    flushFrozen_of_not_due (by rw [hline]; exact hdue),
    settle_of_restful (by rw [hline]; exact hrestful) (by rw [hline]; exact hdue)]

/-- A line on which a stored character has opened a record on a page just given. -/
def openedFresh (s : State) (l : LineId) (c : Byte) : State :=
  scored ((openRecord s l c).modHold l fun x => { x with evalDue := false }) l false

theorem openedFresh_fields {ps : List Page} {n : Nat} (hpages : (s.line l).pool.pages = ps ++ [Page.fresh n]) (c : Byte) :
    let t := openedFresh s l c
    (t.line l).cap = { (s.line l).cap with
        next := nextSeq (s.line l).cap.next
        opened := some { seq := (s.line l).cap.next, time := s.timebase, body := [c], room := 236 }
        idleTimer := some (startTimer s.timebase) }
      ∧ (t.line l).tx = (s.line l).tx ∧ (t.line l).att = (s.line l).att
      ∧ (t.line l).pool.pages.map (·.number) = ps.map (·.number) ++ [n]
      ∧ (t.line l).closed = ps.flatMap (·.records) ∧ t.ports = s.ports ∧ t.freePages = s.freePages := by
  intro t
  have hports : t.ports = s.ports := rfl
  have hfree : t.freePages = s.freePages := rfl
  have hline : t.line l = _ := line_scored ((openRecord s l c).modHold l fun x => { x with evalDue := false }) l false
  rw [State.modHold_eq, State.line_modLine_self, line_openRecord, room_of_fresh hpages] at hline
  clear_value t
  have hclosed := closed_onCurrentPage (f := Page.take (s.line l).cap.next 13) (rs := []) (ps := (s.line l).pool.pages)
    (fun _ => (List.append_nil _).symm) (by rw [hpages]; exact List.append_ne_nil_of_right_ne_nil _ (List.cons_ne_nil _ _))
  have hnumbers := map_number_onCurrentPage (Page.take (s.line l).cap.next 13) (fun _ => rfl) (s.line l).pool.pages
  have hcap := congrArg Line.cap hline
  have htx := congrArg Line.tx hline
  have hatt := congrArg Line.att hline
  have hpool := congrArg (fun x : Line => x.pool.pages) hline
  refine ⟨hcap, htx, hatt, ?_, ?_, hports, hfree⟩
  · refine (congrArg (List.map (·.number)) hpool).trans (hnumbers.trans ?_)
    rw [hpages, List.map_append]
    rfl
  · refine (congrArg (List.flatMap (·.records)) hpool).trans (hclosed.trans ?_)
    rw [hpages, List.append_nil, List.flatMap_append]
    exact List.append_nil _

theorem storeCharacter_of_request (hwatch : (s.line l).unwatched) (hqueue : (s.line l).tx.queue = [])
    (hopened : (s.line l).cap.opened = none) (hroom : (s.line l).pool.pages = [] ∨ (s.line l).room < 13) (c : Byte) :
    storeCharacter s l c = settle (match requestPage s l with
      | (t, true) => flushFrozen (closeAtCapacity (openRecord t l c) l) l
      | (t, false) => discardChars t l 1) l := by
  have hrequest : ensureRoom s l (Config.header + 1) = requestPage s l := ensureRoom_requests hroom
  rw [storeCharacter_of_unwatched hwatch hqueue, placeCharacter, hopened, hrequest]
  cases h : requestPage s l with
  | mk t b => cases b <;> rfl

/-- A stored character on a page given to its line. -/
theorem storeCharacter_given {w : State} {ps : List Page} {n : Nat} (hwatch : (s.line l).unwatched)
    (hqueue : (s.line l).tx.queue = []) (hopened : (s.line l).cap.opened = none)
    (hroom : (s.line l).pool.pages = [] ∨ (s.line l).room < 13) (hgiven : requestPage s l = (w, true)) (hrestful : (w.line l).restful)
    (hdue : (w.line l).pool.frozenDue = false) (hpages : (w.line l).pool.pages = ps ++ [Page.fresh n])
    (hmax : 2 ≤ (w.line l).io.inForce.maxLength.toNat) (c : Byte) :
    scored (storeCharacter s l c) l false = openedFresh w l c := by
  rw [storeCharacter_of_request hwatch hqueue hopened hroom, hgiven]
  dsimp only
  rw [settle_openRecord hrestful hdue hpages hmax, openedFresh]

/-- A stored character that is refused a page is counted and discarded. -/
theorem storeCharacter_refused (hwatch : (s.line l).unwatched) (hqueue : (s.line l).tx.queue = [])
    (hopened : (s.line l).cap.opened = none) (hroom : (s.line l).pool.pages = [] ∨ (s.line l).room < 13)
    (hrefused : requestPage s l = (s, false)) (hmarks : (s.line l).unmarked) (c : Byte) :
    storeCharacter s l c = discardChars s l 1 := by
  have hline := State.line_modLine_self s l fun x =>
    { x with pool := { x.pool with discardedChars := min (x.pool.discardedChars + 1) Config.maxDiscardedChars } }
  rw [storeCharacter_of_request hwatch hqueue hopened hroom, hrefused]
  dsimp only
  rw [settle_of_unmarked]
  rw [discardChars, State.modPool_eq, hline]
  exact hmarks

end Sys2Proof.Machine
end

section
/-! Proofs: records without a page; a page request and its answers, assembled (R7, R22, R23, R27, R28, R38). -/

namespace Sys2Proof.Machine

open Host

variable {l : LineId} {s t u v : State} {p : PortId} {r : Received}

/-! ## Records that are refused a page (R22, R38) -/

theorem requestPage_of_pageless {bytes : Nat} (h : s.pageless l bytes) : requestPage s l = (s, false) := by
  obtain ⟨-, hfrozen, hmay⟩ := h
  exact requestPage_refused ((not_mayTakeFree_iff s l).mpr hmay) hfrozen

theorem writeRecord_of_pageless {body : List Byte} (h : s.pageless l (12 + body.length)) (kind : RecordKind) (cause detail : Byte)
    (discard : State → State) : writeRecord s l kind cause detail body discard = discard s := by
  have hroom : ensureRoom s l (Config.header + body.length) = (s, false) :=
    (ensureRoom_requests h.1).trans (requestPage_of_pageless h)
  rw [writeRecord, hroom]

theorem placeEvent_of_pageless {argument : List Byte} (h : s.pageless l (12 + argument.length)) (e : Event) :
    placeEvent s l e argument = discardEvent s l := writeRecord_of_pageless h _ _ _ _

theorem pageless_congr {bytes more : Nat} (h : s.pageless l bytes) (hpool : ∀ k, (t.line k).pool = (s.line k).pool)
    (hfree : t.freePages = s.freePages) (hmore : bytes ≤ more) : t.pageless l more := by
  obtain ⟨hroom, hfrozen, hmay⟩ := h
  refine ⟨?_, by rw [hpool]; exact hfrozen, ?_⟩
  · rw [Line.room, hpool]
    exact hroom.imp_right fun hlt => Nat.lt_of_lt_of_le hlt hmore
  · rw [mayTake_iff, mayTakeFree_congr hpool hfree, ← mayTake_iff]
    exact hmay

theorem line_discardChars (s : State) (l : LineId) (n : Nat) : (discardChars s l n).line l = { s.line l with
    pool := { (s.line l).pool with discardedChars := min ((s.line l).pool.discardedChars + n) 16777215 } } :=
  State.line_modLine_self s l _

theorem discardChars_discardChars (s : State) (l : LineId) (a b : Nat) :
    discardChars (discardChars s l a) l b = discardChars s l (a + b) := by
  rw [discardChars, discardChars, discardChars, State.modPool_eq, State.modPool_eq, State.modPool_eq, State.modLine_modLine]
  refine State.modLine_congr s l ?_
  have hclip : min (min ((s.line l).pool.discardedChars + a) Config.maxDiscardedChars + b) Config.maxDiscardedChars
      = min ((s.line l).pool.discardedChars + (a + b)) Config.maxDiscardedChars := by omega
  dsimp only
  rw [hclip]

theorem pageless_discardChars {bytes : Nat} (h : s.pageless l bytes) (n : Nat) : (discardChars s l n).pageless l bytes := by
  obtain ⟨hroom, hfrozen, hmay⟩ := h
  have hline := line_discardChars s l n
  have hother : ∀ k, ((discardChars s l n).line k).held = (s.line k).held
      ∧ ((discardChars s l n).line k).pool.reserve = (s.line k).pool.reserve
      ∧ ((discardChars s l n).line k).pool.limit = (s.line k).pool.limit := by
    intro k
    by_cases hk : k = l
    · subst hk
      rw [Line.held, hline]
      exact ⟨rfl, rfl, rfl⟩
    · rw [discardChars, State.modPool_eq, State.line_modLine_ne _ _ _ _ hk]
      exact ⟨rfl, rfl, rfl⟩
  have hout : (discardChars s l n).outstanding = s.outstanding := by
    rw [State.outstanding, State.outstanding, State.sum_lines, State.sum_lines]
    exact Finset.sum_congr rfl fun k _ => by rw [(hother k).1, (hother k).2.1]
  refine ⟨?_, by rw [hline]; exact hfrozen, fun hnot => hmay ?_⟩
  · rw [Line.room, hline]
    exact hroom
  · rw [State.mayTake, (hother l).1, (hother l).2.1, (hother l).2.2, hout] at hnot
    exact hnot

/-- The pieces of a run that is refused a page are counted as its characters. -/
theorem writePieces_of_pageless (source : Byte) {m : Nat} (hm : 1 ≤ m) (k : Nat) : ∀ (s : State) (run : List Byte),
    run.length ≤ k → s.pageless l 13 →
    writePieces l source (runPieces k m run) s = if run = [] then s else discardChars s l run.length := by
  induction k with
  | zero =>
    intro s run hlength _
    rw [List.length_eq_zero_iff.mp (Nat.le_zero.mp hlength)]
    rfl
  | succ k ih =>
    intro s run hlength hpageless
    cases run with
    | nil => rfl
    | cons c cs =>
      have hpiece : 1 ≤ ((c :: cs).take m).length := by
        rw [List.length_take, List.length_cons]
        omega
      have hlengths : ((c :: cs).take m).length + ((c :: cs).drop m).length = (c :: cs).length := by
        rw [← List.length_append, List.take_append_drop]
      rw [runPieces, writePieces, if_neg (List.cons_ne_nil c cs),
        writeRecord_of_pageless (pageless_congr hpageless (fun _ => rfl) rfl (by omega))]
      rw [ih _ _ (by omega) (pageless_discardChars hpageless _)]
      split
      · rename_i hnil
        rw [hnil, List.length_nil, Nat.add_zero] at hlengths
        rw [hlengths]
      · rw [discardChars_discardChars, hlengths]

/-! ## Events and errored characters that are refused a page -/

theorem line_discardEvent (s : State) (l : LineId) : (discardEvent s l).line l = { s.line l with
    pool := { (s.line l).pool with discardedEvents := min ((s.line l).pool.discardedEvents + 1) 255 } } :=
  State.line_modLine_self s l _

/-- An event with no record open that is refused a page is counted. -/
theorem event_of_pageless {argument : List Byte} (h : s.pageless l (12 + argument.length)) (hopened : (s.line l).cap.opened = none)
    (hmarks : (s.line l).unmarked) (e : Event) : event s l e argument = discardEvent s l := by
  have hline := line_discardEvent s l
  rw [event, plainEvent, closeOpen_of_none hopened, flushFrozen_of_not_due hmarks.1, placeEvent_of_pageless h]
  generalize discardEvent s l = v at hline ⊢
  rw [flushFrozen_of_not_due (by rw [hline]; exact hmarks.1), settle_of_unmarked (by rw [hline]; exact hmarks)]

theorem freePages_eachLatch (e : CondEvent) (s : State) : (eachPort (latchEvent e l) s).freePages = s.freePages := by
  have hone : ∀ (u : State) (p : PortId), (latchEvent e l u p).freePages = u.freePages := by
    intro u p
    unfold latchEvent
    split
    · rfl
    · dsimp only
      split <;> rfl
  rw [eachPort, hone, hone, hone]

theorem pool_eachLatch (e : CondEvent) (s : State) (k : LineId) : ((eachPort (latchEvent e l) s).line k).pool = (s.line k).pool := by
  by_cases hk : k = l
  · subst hk
    rw [line_eachLatch]
    rfl
  · rw [(eachLatch_calm e s).other k hk]

theorem pool_wentDown (s : State) (l k : LineId) : ((wentDown s l).line k).pool = (s.line k).pool := by
  by_cases hk : k = l
  · subst hk
    rw [line_wentDown]
  · rw [wentDown, State.modCond_eq, State.line_modLine_ne _ _ _ _ hk]

/-- LINE DOWN that is refused a page is counted; the line goes down all the same. -/
theorem downTimer_of_pageless (hdue : timerDue (s.line l).cond.downTimer = true) (hpaused : (s.line l).tx.state ≠ .paused)
    (hopened : (s.line l).cap.opened = none) (hmarks : (s.line l).unmarked) (h : s.pageless l 12) :
    ∃ t, exec (.downTimerExpiry l) s = .next t ∧ (t.line l).cond.state = .down ∧ (t.line l).cap = (s.line l).cap
      ∧ (t.line l).pool = { (s.line l).pool with discardedEvents := min ((s.line l).pool.discardedEvents + 1) 255 } := by
  have hexec := exec_downTimerExpiry_of_due hdue
  have hdown := line_wentDown s l
  have hpool := pool_wentDown s l
  have hfree : (wentDown s l).freePages = s.freePages := rfl
  generalize wentDown s l = v at hexec hdown hpool hfree
  have hlatch := line_eachLatch (l := l) .lineDown v
  have hlpool := fun k => (pool_eachLatch (l := l) .lineDown v k).trans (hpool k)
  have hlfree := (freePages_eachLatch (l := l) .lineDown v).trans hfree
  rw [conditionEvent] at hexec
  generalize eachPort (latchEvent .lineDown l) v = w at hexec hlatch hlpool hlfree
  rw [hdown] at hlatch
  rw [event_of_pageless (argument := []) (pageless_congr h hlpool hlfree (Nat.le_refl _)) (by rw [hlatch]; exact hopened)
    (by rw [hlatch]; exact hmarks)] at hexec
  have hline := line_discardEvent w l
  generalize discardEvent w l = x at hexec hline
  rw [endPause_of_unpaused (by rw [hline, hlatch]; exact hpaused)] at hexec
  have hlast := State.line_modLine_self x l fun x => { x with tx := { x.tx with pause := false } }
  exact ⟨_, hexec, by rw [State.modTx_eq, hlast, hline, hlatch]; rfl, by rw [State.modTx_eq, hlast, hline, hlatch]; rfl,
    by rw [State.modTx_eq, hlast, hline, hlatch]; rfl⟩

theorem erroredWritten_of_pageless (h : s.pageless l 13) (hopened : (s.line l).cap.opened = none) (hmarks : (s.line l).unmarked)
    (r : Received) : erroredWritten s l r = discardChars s l 1 := by
  have hline := line_discardChars s l 1
  rw [erroredWritten, closeOpen_of_none hopened, writeRecord_of_pageless (body := [r.value]) h]
  generalize discardChars s l 1 = v at hline ⊢
  exact flushFrozen_of_not_due (by rw [hline]; exact hmarks.1)

/-- An errored character that is refused a page is counted (R11, R22). -/
theorem errored_of_pageless {data : Byte} {parity stop : Bool} (hr : (s.line l).completes data parity stop r)
    (hrun : (s.line l).cond.state = .run) (herrored : r.errored = true) (hcand : r.candidate = false)
    (hauto : (s.line l).io.inForce.autoHunt = false) (hopened : (s.line l).cap.opened = none) (hmarks : (s.line l).unmarked)
    (h : s.pageless l 13) :
    ∃ t, exec (.characterComplete l data parity stop) s = .next t ∧ t.ports = s.ports ∧ (t.line l).cap = (s.line l).cap
      ∧ (t.line l).pool = { (s.line l).pool with discardedChars := min ((s.line l).pool.discardedChars + 1) 16777215 } := by
  have hseen := line_seen s l r
  have hexec := exec_characterComplete_of_completes (by rw [hrun]; decide) hr
  rw [classify_run_errored (by rw [hseen]; exact hrun) herrored, runCharacter_errored hcand herrored, captureErrored_eq] at hexec
  have hclear := line_clearNull (seen s l r) l
  have hpool : ∀ k, ((clearNull (seen s l r) l).line k).pool = (s.line k).pool := by
    intro k
    by_cases hk : k = l
    · subst hk
      rw [hclear, hseen]
    · exact congrArg Line.pool ((State.line_modLine_ne _ _ _ _ hk).trans (State.line_modLine_ne _ _ _ _ hk))
  have hfree : (clearNull (seen s l r) l).freePages = s.freePages := rfl
  have hports : (clearNull (seen s l r) l).ports = s.ports := rfl
  rw [hseen] at hclear
  generalize clearNull (seen s l r) l = v at hexec hclear hpool hfree hports
  rw [erroredWritten_of_pageless (pageless_congr h hpool hfree (Nat.le_refl _)) (by rw [hclear]; exact hopened)
    (by rw [hclear]; exact hmarks)] at hexec
  have hline := line_discardChars v l 1
  have hvports : (discardChars v l 1).ports = v.ports := rfl
  generalize discardChars v l 1 = w at hexec hline hvports
  have hreset := line_resetWatch w l
  have hrports : (resetWatch w l).ports = w.ports := rfl
  generalize resetWatch w l = x at hexec hreset hrports
  have hline' : x.line l = _ := hreset.trans (by rw [hline, hclear])
  rw [settle_of_unmarked (by rw [hline']; exact hmarks),
    scoreEntry_of_below (by rw [hline']; exact fun hnot => Bool.false_ne_true (hauto.symm.trans hnot.1))] at hexec
  have hscored := line_scored x l true
  rw [hline'] at hscored
  exact ⟨_, hexec, hrports.trans (hvports.trans hports), by rw [hscored], by rw [hscored]⟩

/-! ## A stored character that needs a page -/

section

/-- A stored character that opens a record on a line with no room for it, nothing else due on the line. -/
structure OpensOnRequest (s : State) (l : LineId) (data : Byte) (parity stop : Bool) (r : Received) : Prop where
  completes : (s.line l).completes data parity stop r
  stores : (s.line l).stores r
  autoHunt : (s.line l).io.inForce.autoHunt = false
  maxLength : 2 ≤ (s.line l).io.inForce.maxLength.toNat
  opened : (s.line l).cap.opened = none
  queue : (s.line l).tx.queue = []
  unmarked : (s.line l).unmarked
  unwatched : (s.line l).unwatched
  room : (s.line l).pool.pages = [] ∨ (s.line l).room < 13

variable {data : Byte} {parity stop : Bool}

theorem recycle_at {a : Attachment} (ha : (s.line l).attachment p = some a) (pg : Page) (rest : List Page) :
    ((recycle s l pg rest).line l).attachment p = some (a.reported (oldestOf rest (s.line l).cap.next))
      ∧ (a.overtaken = false → seqBelow a.cursor (oldestOf rest (s.line l).cap.next) = true →
        ∃ c ∈ ((recycle s l pg rest).port p).causes, c.kind = .overtaken ∧ c.line = l) := by
  have hline := line_recyclePage s l pg rest
  have hatt : ((recyclePage s l pg rest).line l).attachment p = some a := by
    rw [hline]
    exact ha
  have hreport := reportOldest_at (oldestReport ((recyclePage s l pg rest).line l) (s.line l).cap.oldest) hatt
  rw [oldestReport, hline] at hreport
  rw [recycle, reportAdvance, oldestReport, hline]
  exact hreport

/-- The line as the capture unit takes the character. -/
theorem OpensOnRequest.taken (h : OpensOnRequest s l data parity stop r) : ∃ v : State,
    v.line l = { s.line l with io := { (s.line l).io with receiver := .between }, cond := { (s.line l).cond with nullPending := false } }
      ∧ (∀ k, (v.line k).pool = (s.line k).pool) ∧ v.ports = s.ports ∧ v.freePages = s.freePages ∧ v.timebase = s.timebase
      ∧ exec (.characterComplete l data parity stop) s = .next (scored (storeCharacter v l r.value) l false) := by
  obtain ⟨v, hline, hother, hports, hfree, htime, hexec⟩ := exec_of_stores h.completes h.stores h.autoHunt h.unwatched h.queue
  refine ⟨v, hline, fun k => ?_, hports, hfree, htime, hexec⟩
  by_cases hk : k = l
  · subst hk
    rw [hline]
  · rw [hother k hk]

theorem OpensOnRequest.given {n : Nat} {rest : List Nat} (h : OpensOnRequest s l data parity stop r) (hmay : s.mayTake l)
    (hfree : s.freePages = n :: rest) (hnohold : (s.line l).noHold) :
    ∃ t, exec (.characterComplete l data parity stop) s = .next t ∧ t.freePages = rest
      ∧ ((t.line l).cap.opened = some { seq := (s.line l).cap.next, time := s.timebase, body := [r.value], room := 236 }
        ∧ (t.line l).cap.next = nextSeq (s.line l).cap.next ∧ (t.line l).tx = (s.line l).tx)
      ∧ (t.line l).pool.pages.map (·.number) = (s.line l).pool.pages.map (·.number) ++ [n]
      ∧ (t.line l).closed = (s.line l).closed ∧ (t.line l).cap.oldest = (s.line l).cap.oldest ∧ t.ports = s.ports := by
  obtain ⟨v, hline, hpool, hports, hvfree, htime, hexec⟩ := h.taken
  have hgiven := line_giveFree v l n rest
  have hgfree : (giveFree v l n rest).freePages = rest := rfl
  have hgports : (giveFree v l n rest).ports = v.ports := rfl
  have hgtime : (giveFree v l n rest).timebase = v.timebase := rfl
  have hrequest := requestPage_gives (s := v) (l := l)
    (by rw [mayTakeFree_congr hpool hvfree, ← mayTake_iff]; exact hmay) (hvfree.trans hfree)
  generalize giveFree v l n rest = w at hgiven hgfree hgports hgtime hrequest
  rw [hline] at hgiven
  rw [storeCharacter_given (ps := (s.line l).pool.pages) (by rw [Line.unwatched, hline]; exact h.unwatched)
    (by rw [hline]; exact h.queue) (by rw [hline]; exact h.opened) (by rw [hline]; exact h.room) hrequest
    (by rw [hgiven]; exact ⟨hnohold.1, .inl hnohold.2⟩) (by rw [hgiven]; exact h.unmarked.1) (by rw [hgiven])
    (by rw [hgiven]; exact h.maxLength)] at hexec
  obtain ⟨hcap, htx, -, hnumbers, hclosed, htports, htfree⟩ :=
    openedFresh_fields (s := w) (l := l) (ps := (s.line l).pool.pages) (n := n) (by rw [hgiven]) r.value
  refine ⟨_, hexec, htfree.trans hgfree, ⟨?_, ?_, htx.trans (by rw [hgiven])⟩, hnumbers, hclosed, ?_,
    htports.trans (hgports.trans hports)⟩
  · rw [hcap, hgiven, hgtime, htime]
  · rw [hcap, hgiven]
  · rw [hcap, hgiven]

theorem OpensOnRequest.recycled {pg : Page} {rest : List Page} (h : OpensOnRequest s l data parity stop r) (hmay : ¬ s.mayTake l)
    (hfrozen : (s.line l).pool.frozen = false) (hpages : (s.line l).pool.pages = pg :: rest) (hnohold : (s.line l).noHold) :
    ∃ t, exec (.characterComplete l data parity stop) s = .next t ∧ t.freePages = s.freePages
      ∧ ((t.line l).cap.opened = some { seq := (s.line l).cap.next, time := s.timebase, body := [r.value], room := 236 }
        ∧ (t.line l).cap.next = nextSeq (s.line l).cap.next ∧ (t.line l).tx = (s.line l).tx)
      ∧ (t.line l).pool.pages.map (·.number) = rest.map (·.number) ++ [pg.number]
      ∧ (t.line l).closed = rest.flatMap (·.records)
      ∧ (∀ pg' more, rest = pg' :: more → pg'.occupied ≠ 0 → (t.line l).cap.oldest = pg'.firstSeq)
      ∧ ∀ q a, (s.line l).attachment q = some a →
        (t.line l).attachment q = some { a with overtaken := a.overtaken || seqBelow a.cursor (t.line l).cap.oldest }
          ∧ (a.overtaken = false → seqBelow a.cursor (t.line l).cap.oldest = true → (t.port q).hasCause .overtaken l = true) := by
  obtain ⟨v, hline, hpool, hports, hvfree, htime, hexec⟩ := h.taken
  have hrequest := requestPage_recycles (s := v) (l := l) (pg := pg) (rest := rest)
    (by rw [mayTakeFree_congr hpool hvfree, ← Bool.not_eq_true, ← mayTake_iff]; exact hmay) (by rw [hline]; exact hfrozen)
    (by rw [hline]; exact hpages)
  have hpage := line_recyclePage v l pg rest
  have hpfree : (recyclePage v l pg rest).freePages = v.freePages := rfl
  have hptime : (recyclePage v l pg rest).timebase = v.timebase := rfl
  have hnoted := recycle_noted v l pg rest
  have hreport := fun q a (ha : (v.line l).attachment q = some a) => recycle_at ha pg rest
  generalize recycle v l pg rest = w at hrequest hnoted hreport
  generalize recyclePage v l pg rest = y at hpage hpfree hptime hnoted
  obtain ⟨hwork, hwpool, hwcap, hwhold, hwtx, hwfree⟩ := hnoted
  have hrecorded := Recorded.of_work hwork
  have hwio := hrecorded.io
  rw [hpage, hline] at hwpool hwcap hwhold hwtx hwio
  rw [storeCharacter_given (ps := rest) (n := pg.number) (by rw [Line.unwatched, hline]; exact h.unwatched)
    (by rw [hline]; exact h.queue) (by rw [hline]; exact h.opened) (by rw [hline]; exact h.room) hrequest
    (by rw [Line.restful, hwhold, hwio]; exact ⟨hnohold.1, .inl hnohold.2⟩) (by rw [hwpool]; exact h.unmarked.1) (by rw [hwpool])
    (by rw [hwio]; exact h.maxLength)] at hexec
  obtain ⟨hcap, htx, hatt, hnumbers, hclosed, htports, htfree⟩ :=
    openedFresh_fields (s := w) (l := l) (ps := rest) (n := pg.number) (by rw [hwpool]) r.value
  have holdest : ((openedFresh w l r.value).line l).cap.oldest = oldestOf rest (s.line l).cap.next := by rw [hcap, hwcap]
  have hports' : ∀ q, (openedFresh w l r.value).port q = w.port q := fun q => by rw [State.port, htports]; rfl
  refine ⟨_, hexec, htfree.trans (hwfree.trans (hpfree.trans hvfree)), ⟨?_, ?_, htx.trans hwtx⟩, hnumbers, hclosed,
    fun pg' more hrest hpg' => ?_, fun q a ha => ?_⟩
  · rw [hcap, hwcap, hrecorded.timebase, hptime, htime]
  · rw [hcap, hwcap]
  · rw [holdest, hrest]
    exact if_neg hpg'
  · obtain ⟨hmarked, hcause⟩ := hreport q a (by rw [hline]; exact ha)
    rw [hline] at hmarked hcause
    rw [holdest, hports', Line.attachment, hatt]
    exact ⟨hmarked, fun hclear hbelow => Port.hasCause_iff.mpr (hcause hclear hbelow)⟩

/-- A frozen line discards the character, and nothing else of it changes but what the character itself brings. -/
theorem OpensOnRequest.refused (h : OpensOnRequest s l data parity stop r) (hmay : ¬ s.mayTake l)
    (hfrozen : (s.line l).pool.frozen = true) :
    ∃ t, exec (.characterComplete l data parity stop) s = .next t ∧ t.ports = s.ports
      ∧ t.line l = { s.line l with
          io := { (s.line l).io with receiver := .between }
          cond := { (s.line l).cond with
            nullPending := false
            score := ((s.line l).cond.score ++ [false]).drop ((s.line l).cond.score.length + 1 - 16) }
          pool := { (s.line l).pool with discardedChars := min ((s.line l).pool.discardedChars + 1) 16777215 } } := by
  obtain ⟨v, hline, hpool, hports, hvfree, htime, hexec⟩ := h.taken
  have hrequest := requestPage_refused (s := v) (l := l)
    (by rw [mayTakeFree_congr hpool hvfree, ← Bool.not_eq_true, ← mayTake_iff]; exact hmay) (by rw [hline]; exact hfrozen)
  rw [storeCharacter_refused (by rw [Line.unwatched, hline]; exact h.unwatched) (by rw [hline]; exact h.queue)
    (by rw [hline]; exact h.opened) (by rw [hline]; exact h.room) hrequest (by rw [hline]; exact h.unmarked)] at hexec
  have hdiscard := line_discardChars v l 1
  have hdports : (discardChars v l 1).ports = v.ports := rfl
  generalize discardChars v l 1 = w at hexec hdiscard hdports
  have hscored := line_scored w l false
  rw [hdiscard, hline] at hscored
  exact ⟨_, hexec, hdports.trans hports, hscored⟩

end

/-- Settles O50: requests and reports as their definitions answer them; characters and records with a page, and without. -/
theorem aPageRequestIsAnswered : Obligations.APageRequestIsAnswered := by
  refine ⟨⟨fun s l => ?_, fun s l p a report ha => ?_, fun s l => ⟨fun _ _ => rfl, rfl, fun _ => rfl⟩⟩,
    fun s l data parity stop r hr hstores hauto hmax hopened hqueue hmarks hwatch => ?_,
    fun s l kind cause detail body discard h => writeRecord_of_pageless h kind cause detail discard,
    fun s l e argument h => placeEvent_of_pageless h e,
    fun s l source m run hm h => writePieces_of_pageless source hm run.length s run (Nat.le_refl _) h,
    fun s l data parity stop r hr hrun herrored hcand hauto hopened hmarks h =>
      errored_of_pageless hr hrun herrored hcand hauto hopened (hmarks l) h,
    fun s l hdue hpaused hopened hmarks h => downTimer_of_pageless hdue hpaused hopened (hmarks l) h⟩
  · intro x may
    have hmay : may ↔ mayTakeFree s l = true := (mayTakeFree_iff s l).symm
    have hnot : ¬ may ↔ mayTakeFree s l = false := by rw [hmay, Bool.not_eq_true]
    refine ⟨?_, fun h n rest hfree => ?_, fun h hfrozen => requestPage_refused (hnot.mp h) hfrozen,
      fun h hfrozen pg rest hpages => ?_, fun hbounds => ?_⟩
    · rw [State.outstanding, State.sum_lines, sum_finRange]
    · have hline := line_giveFree s l n rest
      exact ⟨_, requestPage_gives (hmay.mp h) hfree, rfl, rfl, by rw [hline], by rw [hline]; rfl⟩
    · have hline := line_recyclePage s l pg rest
      have hpfree : (recyclePage s l pg rest).freePages = s.freePages := rfl
      obtain ⟨-, hpool, hcap, -, -, hfree⟩ := recycle_noted s l pg rest
      rw [hline] at hpool hcap
      refine ⟨_, requestPage_recycles (hnot.mp h) hfrozen hpages, hfree.trans hpfree, hpool, by rw [hcap], by rw [hcap],
        fun hrest => ?_, fun pg' more hrest hpg' => ?_⟩
      · rw [hcap, hrest]
        rfl
      · rw [hcap, hrest]
        exact if_neg hpg'
    · obtain ⟨htake, hkeep⟩ := requests_of_bounds hbounds l
      exact ⟨fun h => htake (hmay.mp h), fun h => hkeep (hnot.mp h)⟩
  · obtain ⟨-, hpool, hcap, -⟩ := reportOldest_noted (l := l) report s
    obtain ⟨hatt, hcause⟩ := reportOldest_at report ha
    exact ⟨hatt, hcause, hcap, hpool⟩
  · intro x opens hroom
    have h : OpensOnRequest s l data parity stop r := ⟨hr, hstores, hauto, hmax, hopened, hqueue, hmarks l, hwatch, hroom⟩
    exact ⟨fun n rest hmay hfree hnohold => h.given hmay hfree hnohold,
      fun pg rest hmay hfrozen hpages hnohold => h.recycled hmay hfrozen hpages hnohold, fun hmay hfrozen => h.refused hmay hfrozen⟩

end Sys2Proof.Machine
end

section
/-! Proofs: the matching of a watch slot (R87, R88). -/

namespace Sys2Proof.Machine

/-! ## The longest beginning of a pattern (R88) -/

theorem longestBeginning_spec (pattern fed : List Byte) (k : Nat) : longestBeginning pattern fed k ≤ k
    ∧ pattern.take (longestBeginning pattern fed k) <:+ fed
    ∧ ∀ j, longestBeginning pattern fed k < j → j ≤ k → ¬ pattern.take j <:+ fed := by
  induction k with
  | zero => exact ⟨Nat.le_refl 0, List.nil_suffix, fun j hj hle => absurd hj (Nat.not_lt.mpr hle)⟩
  | succ k ih =>
    rw [longestBeginning]
    obtain ⟨hle, hsuffix, hmax⟩ := ih
    split
    · rename_i h
      exact ⟨Nat.le_refl _, h, fun j hj hjle => absurd hj (Nat.not_lt.mpr hjle)⟩
    · rename_i h
      refine ⟨Nat.le_succ_of_le hle, hsuffix, fun j hj hjle => ?_⟩
      obtain hjk | rfl := Nat.le_succ_iff.mp hjle
      · exact hmax j hj hjk
      · exact h

/-- A beginning that ends the characters fed and one more ended those fed before it, one shorter. -/
theorem take_suffix_of_concat {pattern cs : List Byte} {c : Byte} {j : Nat} (hj : j < pattern.length)
    (h : pattern.take (j + 1) <:+ cs ++ [c]) : pattern.take j <:+ cs := by
  rw [← List.take_append_getElem hj, List.suffix_concat_iff] at h
  obtain hnil | ⟨t, ht, hsuffix⟩ := h
  · exact absurd hnil (List.append_ne_nil_of_right_ne_nil _ (List.cons_ne_nil _ _))
  · rw [(List.append_inj' ht rfl).1]
    exact hsuffix

/-- The beginnings that end the characters fed are, up to the old progress and one more, those that end its beginning and the
character. -/
theorem take_suffix_iff {pattern cs : List Byte} {c : Byte} {k j : Nat} (hk : k < pattern.length)
    (hfed : pattern.take k <:+ cs) (hj : j ≤ k + 1) : pattern.take j <:+ pattern.take k ++ [c] ↔ pattern.take j <:+ cs ++ [c] := by
  have hends : pattern.take k ++ [c] <:+ cs ++ [c] := by
    obtain ⟨before, rfl⟩ := hfed
    exact ⟨before, (List.append_assoc _ _ _).symm⟩
  refine ⟨fun h => h.trans hends, fun h => List.suffix_of_suffix_length_le h hends ?_⟩
  rw [List.length_append, List.length_take, List.length_take, List.length_singleton]
  omega

/-- The progress a slot reaches is the longest beginning of its pattern that ends the characters fed, the new one among them. -/
theorem nextProgress_spec {pattern cs : List Byte} {c : Byte} {k : Nat} (hk : k < pattern.length) (hfed : pattern.take k <:+ cs)
    (hmax : ∀ j, k < j → j ≤ pattern.length → ¬ pattern.take j <:+ cs) : nextProgress pattern k c ≤ pattern.length
    ∧ pattern.take (nextProgress pattern k c) <:+ cs ++ [c]
    ∧ ∀ j, nextProgress pattern k c < j → j ≤ pattern.length → ¬ pattern.take j <:+ cs ++ [c] := by
  obtain ⟨hle, hsuffix, hlongest⟩ := longestBeginning_spec pattern (pattern.take k ++ [c]) (k + 1)
  rw [nextProgress]
  generalize longestBeginning pattern (pattern.take k ++ [c]) (k + 1) = n at hle hsuffix hlongest ⊢
  refine ⟨by omega, (take_suffix_iff hk hfed hle).mp hsuffix, fun j hj hjle hends => ?_⟩
  by_cases hjk : j ≤ k + 1
  · exact hlongest j hj hjk ((take_suffix_iff hk hfed hjk).mpr hends)
  · obtain ⟨i, rfl⟩ : ∃ i, j = i + 1 := ⟨j - 1, by omega⟩
    exact hmax i (by omega) (by omega) (take_suffix_of_concat (by omega) hends)

/-! ## A slot fed (R87) -/

theorem feed_of_on {w : WatchSlot} (h : w.enabled = true) (c : Byte) : w.feed c
    = if nextProgress w.pattern w.progress c = w.pattern.length then ({ w with progress := 0 }, true)
      else ({ w with progress := nextProgress w.pattern w.progress c }, false) := by
  rw [WatchSlot.feed, h, if_pos rfl]

theorem feed_matches_iff {w : WatchSlot} (h : w.enabled = true) (c : Byte) :
    (w.feed c).2 = true ↔ nextProgress w.pattern w.progress c = w.pattern.length := by
  rw [feed_of_on h]
  split
  · rename_i hfull
    exact iff_of_true rfl hfull
  · rename_i hnot
    exact iff_of_false Bool.false_ne_true hnot

theorem feed_of_match {w : WatchSlot} {c : Byte} (h : w.enabled = true) (hmatch : (w.feed c).2 = true) :
    (w.feed c).1 = { w with progress := 0 } := by
  rw [feed_of_on h, if_pos ((feed_matches_iff h c).mp hmatch)]

theorem feed_of_no_match {w : WatchSlot} {c : Byte} (h : w.enabled = true) (hmatch : (w.feed c).2 = false) :
    (w.feed c).1 = { w with progress := nextProgress w.pattern w.progress c } := by
  have hnot : nextProgress w.pattern w.progress c ≠ w.pattern.length := fun hfull =>
    Bool.false_ne_true (hmatch.symm.trans ((feed_matches_iff h c).mpr hfull))
  rw [feed_of_on h, if_neg hnot]

theorem take_full_iff {pattern fed : List Byte} {n : Nat} (hn : n ≤ pattern.length) (hsuffix : pattern.take n <:+ fed)
    (hmax : ∀ j, n < j → j ≤ pattern.length → ¬ pattern.take j <:+ fed) : n = pattern.length ↔ pattern <:+ fed := by
  refine ⟨fun h => ?_, fun h => ?_⟩
  · rw [h, List.take_length] at hsuffix
    exact hsuffix
  · by_contra hne
    exact hmax pattern.length (Nat.lt_of_le_of_ne hn hne) (Nat.le_refl _) (by rw [List.take_length]; exact h)

/-- The matching of a slot that is on, told by the characters fed to it. -/
theorem feed_spec {w : WatchSlot} {cs : List Byte} (c : Byte) (hon : w.enabled = true) (hk : w.progress < w.pattern.length)
    (hfed : w.pattern.take w.progress <:+ cs) (hmax : ∀ j, w.progress < j → j ≤ w.pattern.length → ¬ w.pattern.take j <:+ cs) :
    ((w.feed c).2 = true ↔ w.pattern <:+ cs ++ [c])
      ∧ ((w.feed c).2 = true → (w.feed c).1 = { w with progress := 0 })
      ∧ ((w.feed c).2 = false → (w.feed c).1 = { w with progress := (w.feed c).1.progress } ∧ (w.feed c).1.progress < w.pattern.length
        ∧ w.pattern.take (w.feed c).1.progress <:+ cs ++ [c]
        ∧ ∀ j, (w.feed c).1.progress < j → j ≤ w.pattern.length → ¬ w.pattern.take j <:+ cs ++ [c]) := by
  obtain ⟨hle, hsuffix, hlongest⟩ := nextProgress_spec (c := c) hk hfed hmax
  refine ⟨(feed_matches_iff hon c).trans (take_full_iff hle hsuffix hlongest), feed_of_match hon, fun hmatch => ?_⟩
  have hnot : nextProgress w.pattern w.progress c ≠ w.pattern.length := fun hfull =>
    Bool.false_ne_true (hmatch.symm.trans ((feed_matches_iff hon c).mpr hfull))
  rw [feed_of_no_match hon hmatch]
  exact ⟨rfl, Nat.lt_of_le_of_ne hle hnot, hsuffix, hlongest⟩

end Sys2Proof.Machine
end

section
/-! Proofs: the turn of a matching slot with RESPOND (R92, R93). -/

namespace Sys2Proof.Machine

variable {l : LineId} {s t u v : State}

theorem groupEvent_holdKept (s : State) (e : Event) (argument : List Byte) : HoldKept l s (groupEvent s l e argument) :=
  (holdKept_rule l).groupEvent s e argument

theorem logsEvent_groupEvent (s : State) (l : LineId) (e : Event) (argument : List Byte) :
    LogsEvent s (groupEvent s l e argument) l e argument :=
  logsEvent_of_wrote (fun h => groupEvent_wrote h.1 e h.2.1) (opened_groupEvent s l e argument)

theorem respond_of_writer {slot : Fin 4}
    (h : (s.line l).writer.isSome = true ∧ ((s.line l).watch[slot.val]).always = false) :
    respond s l slot = groupEvent s l .responseSkipped [byteOf slot.val, 1] := if_pos h

theorem respond_of_full {slot : Fin 4}
    (h : ¬ ((s.line l).writer.isSome = true ∧ ((s.line l).watch[slot.val]).always = false))
    (hfull : 64 - (s.line l).tx.queue.length < ((s.line l).watch[slot.val]).response.length) :
    respond s l slot = groupEvent s l .responseSkipped [byteOf slot.val, 2] := (if_neg h).trans (if_pos hfull)

/-- A line whose response has joined the queue. -/
def responseQueued (s : State) (l : LineId) (slot : Fin 4) : State :=
  s.modTx l fun x => { x with queue := x.queue ++ ((s.line l).watch[slot.val]).response.map .character }

theorem line_responseQueued (s : State) (l : LineId) (slot : Fin 4) : (responseQueued s l slot).line l = { s.line l with
    tx := { (s.line l).tx with queue := (s.line l).tx.queue ++ ((s.line l).watch[slot.val]).response.map .character } } :=
  State.line_modLine_self s l _

theorem respond_of_room {slot : Fin 4}
    (h : ¬ ((s.line l).writer.isSome = true ∧ ((s.line l).watch[slot.val]).always = false))
    (hroom : ((s.line l).watch[slot.val]).response.length ≤ 64 - (s.line l).tx.queue.length) :
    respond s l slot = groupEvent
      (groupSent (responseQueued s l slot) l (byteOf (16 + slot.val)) ((s.line l).watch[slot.val]).response) l .responseSent
      [byteOf slot.val] := (if_neg h).trans (if_neg (Nat.not_lt.mpr hroom))

theorem groupSent_of_off (h : (s.line l).io.inForce.logSent = false) (source : Byte) (run : List Byte) :
    groupSent s l source run = s := if_neg (by rw [h]; exact Bool.false_ne_true)

theorem groupSent_of_on (h : (s.line l).io.inForce.logSent = true) (source : Byte) (run : List Byte) :
    groupSent s l source run = sentRecords (closeOpen s l .sent 0) l source run := if_pos h

theorem groupSent_holdKept (s : State) (source : Byte) (run : List Byte) : HoldKept l s (groupSent s l source run) :=
  (holdKept_rule l).groupSent HoldKept.discardChars s source run

/-- The response queued, its run logged as SENT where that is on, and RESPONSE SENT (R92). -/
theorem respond_sends {slot : Fin 4} (h : ¬ ((s.line l).writer.isSome = true ∧ ((s.line l).watch[slot.val]).always = false))
    (hroom : ((s.line l).watch[slot.val]).response.length ≤ 64 - (s.line l).tx.queue.length) :
    ((respond s l slot).line l).tx
        = { (s.line l).tx with queue := (s.line l).tx.queue ++ ((s.line l).watch[slot.val]).response.map .character }
      ∧ ((s.line l).io.inForce.logSent = false → LogsEvent s (respond s l slot) l .responseSent [byteOf slot.val])
      ∧ ((s.line l).io.inForce.logSent = true → ((s.line l).watch[slot.val]).response ≠ [] →
        ((s.line l).watch[slot.val]).response.length ≤ (s.line l).io.inForce.maxLength.toNat →
        (s.line l).roomy (25 + ((s.line l).watch[slot.val]).response.length) →
        ((respond s l slot).line l).closed = (s.line l).closed ++ (s.line l).closing .sent 0
          ++ [sentRecord s l (byteOf (16 + slot.val)) ((s.line l).watch[slot.val]).response]
          ++ [{ eventRecord s l .responseSent [byteOf slot.val] with seq := nextSeq (s.line l).cap.next }]) := by
  have hline := line_responseQueued s l slot
  have htime : (responseQueued s l slot).timebase = s.timebase := rfl
  rw [respond_of_room h hroom]
  generalize responseQueued s l slot = v at hline htime ⊢
  have hlog : (s.line l).SameLog (v.line l) := by rw [hline]; exact ⟨rfl, rfl, rfl⟩
  have hforce : (v.line l).io.inForce = (s.line l).io.inForce := by rw [hline]
  generalize ((s.line l).watch[slot.val]).response = run at *
  refine ⟨?_, fun hoff => ?_, fun hon hne hshort hroomy => ?_⟩
  · rw [(groupEvent_holdKept _ _ _).tx, (groupSent_holdKept v _ _).tx, hline]
  · rw [groupSent_of_off (by rw [hforce]; exact hoff)]
    exact (logsEvent_groupEvent v l .responseSent _).congr hlog htime rfl rfl
  · obtain ⟨hpages, hroom', -⟩ := hlog.roomy.mpr hroomy
    have hsent := closedSent_wrote (s := v) (l := l) (source := byteOf (16 + slot.val)) hne (by rw [hforce]; exact hshort) hpages
      (by omega)
    have hopened : ((sentRecords (closeOpen v l .sent 0) l (byteOf (16 + slot.val)) run).line l).cap.opened = none :=
      (sentRecords_recorded _ _ run).opened (opened_closeOpen v l .sent 0)
    rw [groupSent_of_on (by rw [hforce]; exact hon)]
    generalize sentRecords (closeOpen v l .sent 0) l (byteOf (16 + slot.val)) run = w at hsent hopened ⊢
    have hevent := groupEvent_wrote hsent.pages .responseSent (argument := [byteOf slot.val])
      (by rw [hsent.room, List.length_singleton]; omega)
    have hsentRecord : sentRecord v l (byteOf (16 + slot.val)) run = sentRecord s l (byteOf (16 + slot.val)) run := by
      rw [sentRecord, sentRecord, hlog.cap, htime]
    have hrecord : eventRecord w l .responseSent [byteOf slot.val]
        = { eventRecord s l .responseSent [byteOf slot.val] with seq := nextSeq (s.line l).cap.next } := by
      rw [eventRecord, hsent.next, hlog.cap, hsent.recorded.timebase, htime]
      rfl
    rw [hevent.closed, hsent.closed, Line.closing_of_none hopened, hrecord, hsentRecord, hlog.closed, hlog.closing, List.nil_append,
      ← List.append_assoc]

end Sys2Proof.Machine
end

section
/-! Proofs: the actions of the slots that match on a stored character (R14, R87, R90, R91, R94, R95). -/

namespace Sys2Proof.Machine

open Host

variable {l : LineId} {s t u v : State} {p : PortId} {r : Received}

/-! ## The slots that match, in slot order (R90) -/

/-- The lowest slot of a list in slot order that has an option is the one a search finds. -/
theorem find?_lowest {f : Fin 4 → Bool} {i : Fin 4} : ∀ {slots : List (Fin 4)}, slots.Pairwise (· < ·) → i ∈ slots → f i = true →
    (∀ j ∈ slots, j < i → f j = false) → slots.find? f = some i := by
  intro slots
  induction slots with
  | nil => intro _ hi; exact absurd hi List.not_mem_nil
  | cons k ks ih =>
    intro hsorted hi hf hbelow
    obtain ⟨hk, hks⟩ := List.pairwise_cons.mp hsorted
    obtain rfl | hi := List.mem_cons.mp hi
    · rw [List.find?_cons, hf]
    · rw [List.find?_cons, hbelow k List.mem_cons_self (hk i hi)]
      exact ih hks hi hf fun j hj => hbelow j (List.mem_cons_of_mem k hj)

theorem find?_none {f : Fin 4 → Bool} {slots : List (Fin 4)} (h : ∀ i ∈ slots, f i = false) : slots.find? f = none :=
  List.find?_eq_none.mpr fun i hi => by rw [h i hi]; exact Bool.false_ne_true

/-! ### CLOSE (R14) -/

theorem watchClose_lowest {slots : List (Fin 4)} {i : Fin 4} (hsorted : slots.Pairwise (· < ·)) (hi : i ∈ slots)
    (hclose : ((s.line l).watch[i.val]).close = true)
    (hbelow : ∀ j ∈ slots, j < i → ((s.line l).watch[j.val]).close = false) :
    watchClose s l slots = closeOpen s l .watch (byteOf (i.val + 1)) := by
  rw [watchClose, closingSlot, find?_lowest (f := fun i => ((s.line l).watch[i.val]).close) hsorted hi hclose hbelow]

theorem watchClose_none {slots : List (Fin 4)} (h : ∀ i ∈ slots, ((s.line l).watch[i.val]).close = false) :
    watchClose s l slots = s := by
  rw [watchClose, closingSlot, find?_none (f := fun i => ((s.line l).watch[i.val]).close) h]

/-! ### RESPOND and FREEZE (R94, R95) -/

theorem watch_respond (s : State) (l : LineId) (slot : Fin 4) : ((respond s l slot).line l).watch = (s.line l).watch := by
  have hskip : ∀ n : Byte, ((groupEvent s l .responseSkipped [byteOf slot.val, n]).line l).watch = (s.line l).watch := fun n =>
    (groupEvent_recorded s _ _).watch
  by_cases hwriter : (s.line l).writer.isSome = true ∧ ((s.line l).watch[slot.val]).always = false
  · rw [respond_of_writer hwriter, hskip]
  · by_cases hroom : ((s.line l).watch[slot.val]).response.length ≤ 64 - (s.line l).tx.queue.length
    · rw [respond_of_room hwriter hroom, (groupEvent_recorded _ _ _).watch, (groupSent_recorded _ _ _).watch, line_responseQueued]
    · rw [respond_of_full hwriter (Nat.not_le.mp hroom), hskip]

theorem respondAll_eq (l : LineId) : ∀ (slots : List (Fin 4)) (s : State), respondAll l slots s
    = (slots.filter fun i => ((s.line l).watch[i.val]).respond).foldl (fun u i => respond u l i) s := by
  intro slots
  induction slots with
  | nil => intro s; rfl
  | cons i is ih =>
    intro s
    rw [respondAll, ih]
    cases hrespond : ((s.line l).watch[i.val]).respond with
    | true =>
      have hfilter : (i :: is).filter (fun i => ((s.line l).watch[i.val]).respond)
          = i :: is.filter fun i => ((s.line l).watch[i.val]).respond := List.filter_cons_of_pos hrespond
      rw [if_pos rfl, watch_respond, hfilter, List.foldl_cons]
    | false =>
      have hfilter : (i :: is).filter (fun i => ((s.line l).watch[i.val]).respond)
          = is.filter fun i => ((s.line l).watch[i.val]).respond :=
        List.filter_cons_of_neg (by rw [hrespond]; exact Bool.false_ne_true)
      rw [if_neg Bool.false_ne_true, hfilter]

theorem freezeAll_eq (l : LineId) : ∀ (slots : List (Fin 4)) (s : State), freezeAll l slots s
    = (slots.filter fun i => ((s.line l).watch[i.val]).freeze).foldl
      (fun u i => u.modPool l (Pool.freezeAction ((s.line l).watch[i.val]).freezeAfter.toNat)) s := by
  intro slots
  induction slots with
  | nil => intro s; rfl
  | cons i is ih =>
    intro s
    rw [freezeAll, ih]
    cases hfreeze : ((s.line l).watch[i.val]).freeze with
    | true =>
      have hline := State.line_modLine_self s l fun x =>
        { x with pool := x.pool.freezeAction ((s.line l).watch[i.val]).freezeAfter.toNat }
      have hfilter : (i :: is).filter (fun i => ((s.line l).watch[i.val]).freeze)
          = i :: is.filter fun i => ((s.line l).watch[i.val]).freeze := List.filter_cons_of_pos hfreeze
      rw [if_pos rfl, State.modPool_eq, hline, hfilter, List.foldl_cons]
      rfl
    | false =>
      have hfilter : (i :: is).filter (fun i => ((s.line l).watch[i.val]).freeze)
          = is.filter fun i => ((s.line l).watch[i.val]).freeze :=
        List.filter_cons_of_neg (by rw [hfreeze]; exact Bool.false_ne_true)
      rw [if_neg Bool.false_ne_true, hfilter]

/-! ### ATTENTION (R91) -/

theorem postWatch_of_none {slot : Fin 4} (h : ∀ a, (s.line l).attachment p = some a → a.watchEnable = false) :
    postWatch slot l s p = s := by
  rw [postWatch]
  cases ha : (s.line l).attachment p with
  | none => rfl
  | some a => exact if_neg (by rw [h a ha]; exact Bool.false_ne_true)

theorem postWatch_of_some {slot : Fin 4} {a : Attachment} (ha : (s.line l).attachment p = some a) (h : a.watchEnable = true) :
    postWatch slot l s p = s.post p .watch l slot.val := by
  rw [postWatch, ha]
  exact if_pos h

theorem lines_postWatch (slot : Fin 4) (s : State) (p : PortId) : (postWatch slot l s p).lines = s.lines := by
  rw [postWatch]
  split
  · rfl
  · split <;> rfl

theorem lines_eachPostWatch (slot : Fin 4) (s : State) : (eachPort (postWatch slot l) s).lines = s.lines := by
  rw [eachPort, lines_postWatch, lines_postWatch, lines_postWatch]

theorem watchAttention_none {slots : List (Fin 4)} (h : ∀ i ∈ slots, ((s.line l).watch[i.val]).attention = false) :
    watchAttention s l slots = s := by
  rw [watchAttention, attentionSlot, find?_none (f := fun i => ((s.line l).watch[i.val]).attention) h]

theorem watchAttention_lowest {slots : List (Fin 4)} {i : Fin 4} (hsorted : slots.Pairwise (· < ·)) (hi : i ∈ slots)
    (hattention : ((s.line l).watch[i.val]).attention = true)
    (hbelow : ∀ j ∈ slots, j < i → ((s.line l).watch[j.val]).attention = false) :
    watchAttention s l slots = eachPort (postWatch i l) s := by
  rw [watchAttention, attentionSlot, find?_lowest (f := fun i => ((s.line l).watch[i.val]).attention) hsorted hi hattention hbelow]

/-- A pair not yet in a set is put there as it is posted (R160). -/
theorem mem_postCause_new {c : Cause} : ∀ {cs : List Cause}, (∀ e ∈ cs, ¬ (e.kind = c.kind ∧ e.line = c.line)) → c ∈ postCause c cs := by
  intro cs
  induction cs with
  | nil => intro _; exact List.mem_singleton_self c
  | cons e es ih =>
    intro h
    rw [postCause]
    have hrank : c.rank ≠ e.rank := fun hsame => by
      obtain ⟨hkind, hline⟩ := (Cause.rank_eq_iff _ _).mp hsame
      exact h e List.mem_cons_self ⟨hkind.symm, hline.symm⟩
    by_cases hlt : c.rank < e.rank
    · rw [if_pos hlt]
      exact List.mem_cons_self
    · rw [if_neg hlt, if_neg hrank]
      exact List.mem_cons_of_mem e (ih fun d hd => h d (List.mem_cons_of_mem e hd))

theorem exists_posted_new {k : CauseKind} {d : Nat} (h : (s.port p).hasCause k l = false) :
    ∃ c ∈ ((s.post p k l d).port p).causes, c.kind = k ∧ c.line = l ∧ c.detail = d := by
  refine ⟨{ kind := k, line := l, detail := d }, ?_, rfl, rfl, rfl⟩
  rw [State.post, State.port_modPort_self]
  refine mem_postCause_new fun e he hsame => ?_
  have hhas : (s.port p).hasCause k l = true := Port.hasCause_iff.mpr ⟨e, he, hsame⟩
  exact Bool.false_ne_true (h.symm.trans hhas)

theorem postWatch_forPort (slot : Fin 4) (s : State) (p : PortId) : ForPort l p s (postWatch slot l s p) := by
  rw [postWatch]
  split
  · exact .refl l p s
  · split
    · exact .post s p .watch slot.val
    · exact .refl l p s

/-- The WATCH posts of a match, port by port (R91, R115). -/
theorem eachPostWatch_at (slot : Fin 4) (s : State) (q : PortId) :
    (∀ a, (s.line l).attachment q = some a → a.watchEnable = true →
        ((eachPort (postWatch slot l) s).port q).hasCause .watch l = true
          ∧ ((s.port q).hasCause .watch l = false →
            ∃ c ∈ ((eachPort (postWatch slot l) s).port q).causes, c.kind = .watch ∧ c.line = l ∧ c.detail = slot.val))
      ∧ ((∀ a, (s.line l).attachment q = some a → a.watchEnable = false) → (eachPort (postWatch slot l) s).port q = s.port q) := by
  obtain ⟨u, hbefore, hafter⟩ := eachPort_at (postWatch slot l) (postWatch_forPort slot) s q
  rw [hafter.port]
  refine ⟨fun a ha hon => ?_, fun hoff => ?_⟩
  · rw [postWatch_of_some (hbefore.attachment.trans ha) hon]
    refine ⟨by rw [State.hasCause_post]; rfl, fun hnew => exists_posted_new ?_⟩
    rw [hbefore.port]
    exact hnew
  · rw [postWatch_of_none fun a ha => hoff a (hbefore.attachment.symm.trans ha), hbefore.port]

/-- What the matching slots do, as the parts of R90 say it. -/
theorem actions_in_slot_order (s : State) (l : LineId) (slots : List (Fin 4)) (hsorted : slots.Pairwise (· < ·)) :
    let w := fun i : Fin 4 => (s.line l).watch[i.val]
    (∀ i ∈ slots, (w i).close = true → (∀ j ∈ slots, j < i → (w j).close = false) →
      watchClose s l slots = closeOpen s l .watch (BitVec.ofNat 8 (i.val + 1)))
      ∧ ((∀ i ∈ slots, (w i).close = false) → watchClose s l slots = s)
      ∧ respondAll l slots s = (slots.filter fun i => (w i).respond).foldl (fun u i => respond u l i) s
      ∧ freezeAll l slots s
        = (slots.filter fun i => (w i).freeze).foldl (fun u i => u.modPool l (Pool.freezeAction (w i).freezeAfter.toNat)) s
      ∧ ((∀ i ∈ slots, (w i).attention = false) → watchAttention s l slots = s)
      ∧ ∀ i ∈ slots, (w i).attention = true → (∀ j ∈ slots, j < i → (w j).attention = false) →
        (watchAttention s l slots).lines = s.lines
          ∧ ∀ q, (∀ a, (s.line l).attachment q = some a → a.watchEnable = true →
              ((watchAttention s l slots).port q).hasCause .watch l = true
                ∧ ((s.port q).hasCause .watch l = false →
                  ∃ c ∈ ((watchAttention s l slots).port q).causes, c.kind = .watch ∧ c.line = l ∧ c.detail = i.val))
            ∧ ((∀ a, (s.line l).attachment q = some a → a.watchEnable = false) →
              (watchAttention s l slots).port q = s.port q) := by
  intro w
  refine ⟨fun i hi hclose hbelow => watchClose_lowest hsorted hi hclose hbelow, watchClose_none, respondAll_eq l slots s,
    freezeAll_eq l slots s, watchAttention_none, fun i hi hattention hbelow => ?_⟩
  rw [watchAttention_lowest hsorted hi hattention hbelow]
  exact ⟨lines_eachPostWatch i s, eachPostWatch_at i s⟩

/-- The actions on a placed character, with the evaluations and the start point after them (R52, R87, R153). -/
theorem exec_of_placed {data : Byte} {parity stop : Bool} {placed : State} (hr : (s.line l).completes data parity stop r)
    (hstores : (s.line l).stores r) (hplaced : placeCharacter (clearNull (seen s l r) l) l r.value = (placed, true)) :
    exec (.characterComplete l data parity stop) s = .next (scoreEntry
      (if ((settle (actOnCharacter placed l r.value) l).line l).tx.queue = [] then settle (actOnCharacter placed l r.value) l
        else kickTransmitter (settle (actOnCharacter placed l r.value) l) l) l false) := by
  rw [(exec_of_stored hr hstores).1, storeCharacter, hplaced]

theorem seen_clean {r : Received} (h : r.errored = false) (s : State) (l : LineId) :
    seen s l r = s.modIo l fun x => { x with receiver := .between } := by
  rw [seen, (Received.candidate_of_clean h).2, if_neg Bool.false_ne_true]

end Sys2Proof.Machine
end

section
/-! Proofs: one slot that matches, without RESPOND (R14, R36, R91, R95). -/

namespace Sys2Proof.Machine

open Host

variable {l : LineId} {s t u v : State} {p : PortId} {r : Received} {i : Fin 4}

/-! ## What the actions leave of the line -/

/-- What the actions of a slot without RESPOND leave: the watch slots, the transmitter, and a line with no hold. -/
structure Line.Acted (x y : Line) : Prop where
  watch : y.watch = x.watch
  tx : y.tx = x.tx
  io : y.io = x.io
  hold : y.hold.state = x.hold.state
  attached : ∀ q a, x.attachment q = some a → ∃ b, y.attachment q = some b ∧ b.watchEnable = a.watchEnable

theorem Line.Acted.of_att {x y : Line} (watch : y.watch = x.watch) (tx : y.tx = x.tx) (io : y.io = x.io)
    (hold : y.hold.state = x.hold.state) (att : y.att = x.att) : x.Acted y :=
  ⟨watch, tx, io, hold, fun _ a ha => ⟨a, by rw [Line.attachment, att]; exact ha, rfl⟩⟩

theorem Line.Acted.refl (x : Line) : x.Acted x := .of_att rfl rfl rfl rfl rfl

theorem Line.Acted.trans {x y z : Line} (h : x.Acted y) (k : y.Acted z) : x.Acted z :=
  ⟨k.watch.trans h.watch, k.tx.trans h.tx, k.io.trans h.io, k.hold.trans h.hold, fun q a ha => by
    obtain ⟨b, hb, hab⟩ := h.attached q a ha
    obtain ⟨c, hc, hbc⟩ := k.attached q b hb
    exact ⟨c, hc, hbc.trans hab⟩⟩

theorem Line.Acted.of_kept (h : Recorded l s t) (k : HoldKept l s t) : (s.line l).Acted (t.line l) := by
  refine ⟨h.watch, k.tx, k.io, k.state, fun q a ha => ?_⟩
  obtain ⟨g, hg, hatt⟩ := h.attachment q
  rw [ha] at hatt
  obtain ⟨hmarked, -⟩ := hg a
  exact ⟨g a, hatt, (congrArg Attachment.watchEnable hmarked :)⟩

theorem Line.Acted.noHold {x y : Line} (h : x.Acted y) (hx : x.noHold) : y.noHold := ⟨h.hold.trans hx.1, by rw [h.io]; exact hx.2⟩

theorem closeOpen_acted (s : State) (l : LineId) (cause : CloseCause) (detail : Byte) :
    (s.line l).Acted ((closeOpen s l cause detail).line l) :=
  .of_kept (closeOpen_recorded s cause detail) ((holdKept_rule l).closeOpen s cause detail)

theorem flushFrozen_acted (s : State) (l : LineId) : (s.line l).Acted ((flushFrozen s l).line l) :=
  .of_kept (flushFrozen_recorded s) ((holdKept_rule l).flushFrozen s)

/-! ## One slot's turn -/

/-- The close of the open record by a slot that matches. -/
def slotClose (s : State) (l : LineId) (i : Fin 4) : State :=
  if ((s.line l).watch[i.val]).close then closeOpen s l .watch (byteOf (i.val + 1)) else s

/-- The freeze of a line by a slot that matches. -/
def slotFreeze (s : State) (l : LineId) (i : Fin 4) : State :=
  if ((s.line l).watch[i.val]).freeze then s.modPool l (Pool.freezeAction ((s.line l).watch[i.val]).freezeAfter.toNat) else s

/-- The WATCH posts of a slot that matches. -/
def slotAttention (s : State) (l : LineId) (i : Fin 4) : State :=
  if ((s.line l).watch[i.val]).attention then eachPort (postWatch i l) s else s

theorem watchClose_one (s : State) (l : LineId) (i : Fin 4) : watchClose s l [i] = slotClose s l i := by
  rw [slotClose]
  split
  · rename_i h
    exact watchClose_lowest (List.pairwise_singleton _ i) (List.mem_singleton_self i) h fun j hj hlt =>
      absurd (List.mem_singleton.mp hj ▸ hlt) (lt_irrefl _)
  · rename_i h
    exact watchClose_none fun j hj => by rw [List.mem_singleton.mp hj]; exact (Bool.not_eq_true _).mp h

theorem freezeAll_one (s : State) (l : LineId) (i : Fin 4) : freezeAll l [i] s = slotFreeze s l i := rfl

theorem respondAll_one (h : ((s.line l).watch[i.val]).respond = false) : respondAll l [i] s = s := by
  rw [respondAll, h, if_neg Bool.false_ne_true]
  rfl

theorem watchAttention_one (s : State) (l : LineId) (i : Fin 4) : watchAttention s l [i] = slotAttention s l i := by
  rw [slotAttention]
  split
  · rename_i h
    exact watchAttention_lowest (List.pairwise_singleton _ i) (List.mem_singleton_self i) h fun j hj hlt =>
      absurd (List.mem_singleton.mp hj ▸ hlt) (lt_irrefl _)
  · rename_i h
    exact watchAttention_none fun j hj => by rw [List.mem_singleton.mp hj]; exact (Bool.not_eq_true _).mp h

theorem line_slotFreeze (s : State) (l : LineId) (i : Fin 4) : (slotFreeze s l i).line l = { s.line l with
    pool := if ((s.line l).watch[i.val]).freeze then (s.line l).pool.freezeAction ((s.line l).watch[i.val]).freezeAfter.toNat
      else (s.line l).pool } := by
  rw [slotFreeze]
  split
  · exact State.line_modLine_self s l _
  · rfl

theorem line_slotAttention (s : State) (l : LineId) (i : Fin 4) : (slotAttention s l i).line l = s.line l := by
  rw [slotAttention]
  split
  · exact congrArg (fun ls => ls[l.val]) (lines_eachPostWatch i s)
  · rfl

theorem slotClose_acted (s : State) (l : LineId) (i : Fin 4) : (s.line l).Acted ((slotClose s l i).line l) := by
  rw [slotClose]
  split
  · exact closeOpen_acted s l _ _
  · exact .refl _

theorem slotFreeze_acted (s : State) (l : LineId) (i : Fin 4) : (s.line l).Acted ((slotFreeze s l i).line l) := by
  rw [line_slotFreeze]
  exact .of_att rfl rfl rfl rfl rfl

theorem closeAtCapacity_acted (s : State) (l : LineId) : (s.line l).Acted ((closeAtCapacity s l).line l) := by
  rw [closeAtCapacity]
  split
  · exact .refl _
  · split
    · exact closeOpen_acted s l _ _
    · exact .refl _

/-- A slot's turn, before the attention: its close, the capacity, its freeze and the FROZEN record. -/
def slotTurn (s : State) (l : LineId) (i : Fin 4) : State := flushFrozen (slotFreeze (closeAtCapacity (slotClose s l i) l) l i) l

theorem slotTurn_acted (s : State) (l : LineId) (i : Fin 4) : (s.line l).Acted ((slotTurn s l i).line l) :=
  (((slotClose_acted s l i).trans (closeAtCapacity_acted _ l)).trans (slotFreeze_acted _ l i)).trans (flushFrozen_acted _ l)

theorem WatchSlot.feed_options (w : WatchSlot) (c : Byte) : (w.feed c).1 = { w with progress := (w.feed c).1.progress } := by
  rw [WatchSlot.feed]
  split
  · split <;> rfl
  · rfl

end Sys2Proof.Machine
end

section
/-! Proofs: a stored character on which one slot matches, without RESPOND (R8, R14, R36, R87, R91, R95). -/

namespace Sys2Proof.Machine

open Host

variable {l : LineId} {s t u v : State} {p : PortId} {r : Received} {i : Fin 4}

/-! ## The causes after a slot's turn -/

theorem slotTurn_causesKept (s : State) (l : LineId) (i : Fin 4) : CausesKept Cause.apart s (slotTurn s l i) := by
  have hclose : ∀ u : State, CausesKept Cause.apart u (slotClose u l i) := by
    intro u
    rw [slotClose]
    split
    · exact (causesKept_rule l).write.closeOpen u _ _
    · exact .refl _ u
  have hcapacity : ∀ u : State, CausesKept Cause.apart u (closeAtCapacity u l) := by
    intro u
    rw [closeAtCapacity]
    split
    · exact .refl _ u
    · split
      · exact (causesKept_rule l).write.closeOpen u _ _
      · exact .refl _ u
  have hfreeze : ∀ u : State, CausesKept Cause.apart u (slotFreeze u l i) := by
    intro u
    rw [slotFreeze]
    split
    · exact .of_causes fun _ => rfl
    · exact .refl _ u
  exact (((hclose s).trans (hcapacity _)).trans (hfreeze _)).trans ((causesKept_rule l).write.flushFrozen _)

theorem slotAttention_off (h : ((s.line l).watch[i.val]).attention = false) : slotAttention s l i = s :=
  if_neg (by rw [h]; exact Bool.false_ne_true)

theorem slotAttention_on (h : ((s.line l).watch[i.val]).attention = true) : slotAttention s l i = eachPort (postWatch i l) s := if_pos h

/-- The actions on a character that one slot matches, without RESPOND. -/
theorem actOnCharacter_one {c : Byte} (hmatch : matchingSlots (s.line l) c = [i])
    (hrespond : (((feedSlots s l c).line l).watch[i.val]).respond = false) :
    actOnCharacter s l c = slotAttention (slotTurn (feedSlots s l c) l i) l i := by
  have hacted := (slotClose_acted (feedSlots s l c) l i).trans (closeAtCapacity_acted _ l)
  rw [actOnCharacter, hmatch, watchClose_one]
  rw [respondAll_one (by rw [hacted.watch]; exact hrespond), watchAttention_one]
  rfl

/-! ## The close by a slot, and the freeze (R14, R36, R95) -/

/-- A slot's turn with CLOSE, on a line with room and nothing due: the log and the pool after the evaluations. -/
structure Turned (s t : State) (l : LineId) (w : WatchSlot) (text : List LogRecord) : Prop where
  plain : w.freeze = false → (t.line l).closed = text ∧ (t.line l).cap.opened = none ∧ (t.line l).pool.frozen = false
    ∧ (t.line l).pool.freezePending = none
  now : w.freeze = true → w.freezeAfter = 0 → (t.line l).closed = text ++ [eventRecord s l .frozen []]
    ∧ (t.line l).pool.frozen = true
  later : w.freeze = true → w.freezeAfter ≠ 0 → (t.line l).closed = text
    ∧ (t.line l).pool.freezePending = some w.freezeAfter.toNat ∧ (t.line l).pool.frozen = false

theorem closeAtCapacity_of_none (h : (s.line l).cap.opened = none) : closeAtCapacity s l = s := by
  rw [closeAtCapacity, h]

/-- A line with the record of a slot's CLOSE written, before the freeze. -/
theorem slotTurn_of_close {o : OpenRecord} (hclose : ((s.line l).watch[i.val]).close = true) (ho : (s.line l).cap.opened = some o)
    (hroomy : (s.line l).roomy 12) : ∃ c : State, slotTurn s l i = flushFrozen (slotFreeze c l i) l
      ∧ Wrote l [o.closed .watch (BitVec.ofNat 8 (i.val + 1))] 0 0 s c ∧ (c.line l).cap.opened = none := by
  have hopened := opened_closeOpen s l .watch (byteOf (i.val + 1))
  have hwrote := closeOpen_wrote hroomy.1 .watch (byteOf (i.val + 1))
  rw [Line.closing_of_some ho] at hwrote
  refine ⟨closeOpen s l .watch (byteOf (i.val + 1)), ?_, hwrote, hopened⟩
  rw [slotTurn, slotClose, if_pos hclose, closeAtCapacity_of_none hopened]

theorem Pool.pages_freezeAction (x : Pool) (v : Nat) : (x.freezeAction v).pages = x.pages := by
  cases hfrozen : x.frozen with
  | true => rw [Pool.freezeAction_frozen hfrozen]
  | false =>
    cases hpending : x.freezePending with
    | none =>
      rw [Pool.freezeAction_of_none hfrozen hpending]
      split <;> rfl
    | some c =>
      rw [Pool.freezeAction_of_some hfrozen hpending]
      split <;> rfl

/-- A slot's turn with CLOSE: what its line shows, with no FROZEN record left due. -/
theorem slotTurn_turned {o : OpenRecord} (hclose : ((s.line l).watch[i.val]).close = true) (ho : (s.line l).cap.opened = some o)
    (hroomy : (s.line l).roomy 12) (hfrozen : (s.line l).pool.frozen = false) :
    Turned s (slotTurn s l i) l ((s.line l).watch[i.val])
        ((s.line l).closed ++ [o.closed .watch (BitVec.ofNat 8 (i.val + 1))])
      ∧ ((slotTurn s l i).line l).pool.frozenDue = false := by
  obtain ⟨c, hturn, hwrote, hopened⟩ := slotTurn_of_close hclose ho hroomy
  obtain ⟨-, hroom, hnone, hdue, -⟩ := hroomy
  have hpool := hwrote.pool_of_none hnone
  have hwatch : (c.line l).watch[i.val] = (s.line l).watch[i.val] := by rw [hwrote.recorded.watch]
  have hline := line_slotFreeze c l i
  have htime : (slotFreeze c l i).timebase = s.timebase := by
    refine Eq.trans ?_ hwrote.recorded.timebase
    rw [slotFreeze]
    split <;> rfl
  rw [hturn]
  generalize slotFreeze c l i = z at hline htime ⊢
  generalize (s.line l).watch[i.val] = w at hwatch ⊢
  rw [hwatch] at hline
  have hzclosed : (z.line l).closed = (s.line l).closed ++ [o.closed .watch (BitVec.ofNat 8 (i.val + 1))] := by
    rw [← hwrote.closed, Line.closed, Line.closed, hline]
    dsimp only
    split
    · rw [Pool.pages_freezeAction]
    · rfl
  cases hfreeze : w.freeze with
  | false =>
    rw [hfreeze, if_neg Bool.false_ne_true] at hline
    have hzdue : (z.line l).pool.frozenDue = false := by rw [hline, hpool]; exact hdue
    rw [flushFrozen_of_not_due hzdue]
    refine ⟨⟨fun _ => ⟨hzclosed, by rw [hline]; exact hopened, by rw [hline, hpool]; exact hfrozen, by rw [hline, hpool]; exact hnone⟩,
      fun h => absurd (hfreeze.symm.trans h) Bool.false_ne_true, fun h => absurd (hfreeze.symm.trans h) Bool.false_ne_true⟩, hzdue⟩
  | true =>
    rw [hfreeze, if_pos rfl, Pool.freezeAction_of_none (by rw [hpool]; exact hfrozen) (by rw [hpool]; exact hnone)] at hline
    by_cases hafter : w.freezeAfter = 0
    · have hzero : w.freezeAfter.toNat = 0 := by rw [hafter]; rfl
      rw [if_pos hzero] at hline
      have hzroom : (z.line l).room = (c.line l).room := by rw [hline]; rfl
      have hzopened : (z.line l).cap.opened = none := by rw [hline]; exact hopened
      have hfrozenRecord := frozenRecord_wrote (s := z) (l := l) (by rw [hline]; exact hwrote.pages)
        (by rw [hzroom, hwrote.room]; exact hroom) hzopened
      have htaken := line_frozenTaken z l
      have hrecord : eventRecord z l .frozen [] = eventRecord s l .frozen [] := by
        have hnext : (z.line l).cap.next = (s.line l).cap.next := by rw [hline]; exact hwrote.next
        rw [eventRecord, eventRecord, hnext, htime]
      rw [flushFrozen_of_due (by rw [hline])]
      rw [hrecord] at hfrozenRecord
      generalize groupEvent (frozenTaken z l) l .frozen [] = x at hfrozenRecord ⊢
      generalize frozenTaken z l = y at htaken hfrozenRecord
      have hyclosed : (y.line l).closed = (z.line l).closed := by rw [htaken]; rfl
      have hxpool := hfrozenRecord.pool_of_none (by rw [htaken, hline])
      have hlast := State.line_modLine_self x l fun x => { x with hold := { x.hold with evalDue := true } }
      have hlastClosed : ((x.modHold l fun x => { x with evalDue := true }).line l).closed = (x.line l).closed := by
        rw [State.modHold_eq, hlast]
        rfl
      rw [htaken, hline] at hxpool
      refine ⟨⟨fun h => absurd (h.symm.trans hfreeze) Bool.false_ne_true, fun _ _ => ⟨?_, ?_⟩, fun _ h => absurd hafter h⟩, ?_⟩
      · rw [hlastClosed, hfrozenRecord.closed, hyclosed, hzclosed]
      · rw [State.modHold_eq, hlast, hxpool]
      · rw [State.modHold_eq, hlast, hxpool]
    · have hpos : w.freezeAfter.toNat ≠ 0 := fun h => hafter (BitVec.eq_of_toNat_eq h)
      rw [if_neg hpos] at hline
      have hzdue : (z.line l).pool.frozenDue = false := by rw [hline, hpool]; exact hdue
      rw [flushFrozen_of_not_due hzdue]
      refine ⟨⟨fun h => absurd (h.symm.trans hfreeze) Bool.false_ne_true, fun _ h => absurd h hafter,
        fun _ _ => ⟨hzclosed, by rw [hline], by rw [hline, hpool]; exact hfrozen⟩⟩, hzdue⟩

/-! ## The character whole -/

/-- A line on which a character has joined the open record and been fed to the slots. -/
theorem line_feedSlots (s : State) (l : LineId) (c : Byte) : (feedSlots s l c).line l = { s.line l with
    watch := (s.line l).watch.map fun w => (w.feed c).1 } := State.line_modLine_self s l _

theorem matchingSlots_of_one {x : Line} {c : Byte} (h : ∀ j : Fin 4, ((x.watch[j.val]).feed c).2 = decide (j = i)) :
    matchingSlots x c = [i] := by
  rw [matchingSlots]
  simp only [h]
  fin_cases i <;> rfl

/-- A joined and fed character: the line that the slots act on. -/
theorem joined_fed (hroomy : (s.line l).roomy 13) (o : OpenRecord) (c : Byte) :
    let u := feedSlots (appendCharacter s l o c) l c
    (u.line l).cap.opened = some { o with body := o.body ++ [c] } ∧ (u.line l).closed = (s.line l).closed ∧ (u.line l).roomy 12
      ∧ (u.line l).pool.frozen = (s.line l).pool.frozen ∧ (u.line l).watch = (s.line l).watch.map (fun w => (w.feed c).1)
      ∧ (u.line l).tx = (s.line l).tx ∧ (u.line l).io = (s.line l).io ∧ (u.line l).hold = (s.line l).hold
      ∧ (u.line l).att = (s.line l).att ∧ (u.line l).cap.next = (s.line l).cap.next ∧ u.timebase = s.timebase ∧ u.ports = s.ports := by
  intro u
  have hline : u.line l = _ := line_feedSlots (appendCharacter s l o c) l c
  have htime : u.timebase = s.timebase := rfl
  have hports : u.ports = s.ports := rfl
  have hplaced := appendCharacter_placed (hroomy.mono (Nat.zero_le 13)) o c
  have hroom : ((appendCharacter s l o c).line l).room = (s.line l).room - 1 := by
    rw [line_appendCharacter]
    exact room_onCurrentPage (x := s.line l) (f := fun pg => { pg with occupied := pg.occupied + 1 }) (bytes := 1) (fun _ => rfl) rfl
  have happend := line_appendCharacter s l o c
  clear_value u
  have huclosed : (u.line l).closed = ((appendCharacter s l o c).line l).closed := by rw [hline]; rfl
  have huroomy : (u.line l).roomy 12 ↔ ((appendCharacter s l o c).line l).roomy 12 := by rw [hline]; exact Iff.rfl
  obtain ⟨hpages, hbytes, hnone, hdue, heval⟩ := id hroomy
  refine ⟨by rw [hline]; exact hplaced.opened, huclosed.trans hplaced.closed, huroomy.mpr ?_, by rw [hline, happend],
    by rw [hline, happend], by rw [hline, happend], by rw [hline, happend], by rw [hline, happend], by rw [hline, happend],
    by rw [hline, happend], htime, hports⟩
  obtain ⟨hdue', heval'⟩ := hplaced.unmarked
  exact ⟨hplaced.pages, by rw [hroom]; omega, hplaced.freezePending, hdue', heval'⟩

/-- The state in which the slots act: a character that has joined the open record and been fed to them. -/
def fedState (s : State) (l : LineId) (r : Received) (o : OpenRecord) : State :=
  feedSlots (appendCharacter (clearNull (seen s l r) l) l o r.value) l r.value

/-- A stored character on which one slot matches, without RESPOND: the parts of its step. -/
theorem exec_of_one_match {data : Byte} {parity stop : Bool} {o : OpenRecord} (hr : (s.line l).completes data parity stop r)
    (hstores : (s.line l).stores r) (ho : (s.line l).cap.opened = some o) (hauto : (s.line l).io.inForce.autoHunt = false)
    (hnoHold : (s.line l).noHold) (hqueue : (s.line l).tx.queue = []) (hrespond : ((s.line l).watch[i.val]).respond = false)
    (hone : ∀ j : Fin 4, (((s.line l).watch[j.val]).feed r.value).2 = decide (j = i)) :
    exec (.characterComplete l data parity stop) s = .next
      (scored (settle (slotAttention (slotTurn (fedState s l r o) l i) l i) l) l false) := by
  obtain ⟨-, hclear⟩ := exec_of_stored hr hstores
  have hplaced : placeCharacter (clearNull (seen s l r) l) l r.value = (appendCharacter (clearNull (seen s l r) l) l o r.value, true) := by
    rw [placeCharacter, hclear, ho]
  rw [exec_of_placed hr hstores hplaced]
  have happend := line_appendCharacter (clearNull (seen s l r) l) l o r.value
  have hfed := line_feedSlots (appendCharacter (clearNull (seen s l r) l) l o r.value) l r.value
  rw [hclear] at happend
  rw [actOnCharacter_one (i := i) (matchingSlots_of_one (by rw [happend]; exact hone)) (by
    rw [hfed, happend]
    dsimp only
    rw [Vector.getElem_map, WatchSlot.feed_options]
    exact hrespond), ← fedState]
  have hacted := slotTurn_acted (fedState s l r o) l i
  have hline : (fedState s l r o).line l = _ := hfed
  rw [happend] at hline
  generalize fedState s l r o = u at hacted hline ⊢
  have hsettle := settle_holdKept (l := l) (s := slotAttention (slotTurn u l i) l i) (by
    rw [line_slotAttention]
    refine (hacted.noHold ?_).restful
    rw [hline]
    exact hnoHold)
  generalize slotTurn u l i = x at hacted hsettle ⊢
  have hattention := line_slotAttention x l i
  generalize slotAttention x l i = y at hattention hsettle ⊢
  have hempty : ((settle y l).line l).tx.queue = [] := by
    rw [hsettle.tx, hattention, hacted.tx, hline]
    exact hqueue
  rw [if_pos hempty]
  refine congrArg Outcome.next (scoreEntry_of_below fun h => Bool.false_ne_true (Eq.trans ?_ h.1))
  rw [hsettle.io, hattention, hacted.io, hline]
  exact hauto.symm

/-- What a slot's turn leaves to the end of the step: the evaluations and the score touch no part of the log or of the pool. -/
theorem Turned.congr {w : WatchSlot} {text : List LogRecord} (h : Turned s t l w text) (hclosed : (u.line l).closed = (t.line l).closed)
    (hopened : (u.line l).cap.opened = (t.line l).cap.opened) (hpool : (u.line l).pool = (t.line l).pool) : Turned s u l w text := by
  obtain ⟨hplain, hnow, hlater⟩ := h
  refine ⟨?_, ?_, ?_⟩
  · rw [hclosed, hopened, hpool]
    exact hplain
  · rw [hclosed, hpool]
    exact hnow
  · rw [hclosed, hpool]
    exact hlater

/-- One slot that matches, without RESPOND: the whole step (R14, R36, R91, R95). -/
theorem one_match_step {data : Byte} {parity stop : Bool} {o : OpenRecord} (hr : (s.line l).completes data parity stop r)
    (hstores : (s.line l).stores r) (hauto : (s.line l).io.inForce.autoHunt = false) (ho : (s.line l).cap.opened = some o)
    (hroomy : (s.line l).roomy 13) (hfrozen : (s.line l).pool.frozen = false) (hnoHold : (s.line l).noHold)
    (hqueue : (s.line l).tx.queue = []) (hone : ∀ j : Fin 4, (((s.line l).watch[j.val]).feed r.value).2 = decide (j = i))
    (hrespond : ((s.line l).watch[i.val]).respond = false) :
    ∃ t, exec (.characterComplete l data parity stop) s = .next t
      ∧ (t.line l).watch = (s.line l).watch.map (fun v => (v.feed r.value).1) ∧ (t.line l).tx = (s.line l).tx
      ∧ (((s.line l).watch[i.val]).close = true → Turned s t l ((s.line l).watch[i.val]) ((s.line l).closed
        ++ [({ o with body := o.body ++ [r.value] } : OpenRecord).closed .watch (byteOf (i.val + 1))]))
      ∧ (((s.line l).watch[i.val]).attention = true → ∀ q a, (s.line l).attachment q = some a → a.watchEnable = true →
        (t.port q).hasCause .watch l = true)
      ∧ (((s.line l).watch[i.val]).attention = false → ∀ q, (t.port q).hasCause .watch l = (s.port q).hasCause .watch l) := by
  refine ⟨_, exec_of_one_match hr hstores ho hauto hnoHold hqueue hrespond hone, ?_⟩
  obtain ⟨-, hclear⟩ := exec_of_stored hr hstores
  have htime : (clearNull (seen s l r) l).timebase = s.timebase := rfl
  have hports : (clearNull (seen s l r) l).ports = s.ports := by
    rw [seen_clean hstores.2.1]
    rfl
  have hjoined := joined_fed (s := clearNull (seen s l r) l) (l := l) (by rw [hclear]; exact hroomy) o r.value
  rw [← fedState] at hjoined
  generalize clearNull (seen s l r) l = v at hclear htime hports hjoined
  obtain ⟨huopened, huclosed, huroomy, hufrozen, huwatch, hutx, huio, huhold, huatt, hunext, hutime, huports⟩ := hjoined
  generalize fedState s l r o = u at huopened huclosed huroomy hufrozen huwatch hutx huio huhold huatt hunext hutime huports ⊢
  rw [hclear] at huclosed hufrozen huwatch hutx huio huhold huatt hunext
  have hoptions : (u.line l).watch[i.val] = { (s.line l).watch[i.val] with progress := (u.line l).watch[i.val].progress } := by
    have hfed : (u.line l).watch[i.val] = (((s.line l).watch[i.val]).feed r.value).1 := by
      rw [huwatch, Vector.getElem_map]
    rw [hfed]
    exact WatchSlot.feed_options _ _
  have hacted := slotTurn_acted u l i
  have hunoHold : (u.line l).noHold := ⟨(congrArg Hold.state huhold).trans hnoHold.1, by rw [huio]; exact hnoHold.2⟩
  have hturned : ((s.line l).watch[i.val]).close = true → _ := fun hclose =>
    slotTurn_turned (s := u) (l := l) (i := i) (by rw [hoptions]; exact hclose) huopened huroomy (hufrozen.trans hfrozen)
  have hkeptCauses := slotTurn_causesKept u l i
  generalize slotTurn u l i = x at hacted hturned hkeptCauses ⊢
  have hyline := line_slotAttention x l i
  have hxattention : ((x.line l).watch[i.val]).attention = ((s.line l).watch[i.val]).attention := by
    rw [hacted.watch, hoptions]
  have hyon : ((s.line l).watch[i.val]).attention = true → slotAttention x l i = eachPort (postWatch i l) x := fun h =>
    slotAttention_on (hxattention.trans h)
  have hyoff : ((s.line l).watch[i.val]).attention = false → slotAttention x l i = x := fun h =>
    slotAttention_off (hxattention.trans h)
  generalize slotAttention x l i = y at hyline hyon hyoff ⊢
  have hrestful : (y.line l).restful := by
    rw [hyline]
    exact (hacted.noHold hunoHold).restful
  have hsettleKept := settle_holdKept hrestful
  have hsettleRecorded := settle_recorded (l := l) y
  have hsettleCauses := (causesKept_rule l).settle y
  have hsettleEq := settle_of_restful hrestful
  generalize settle y l = z at hsettleKept hsettleRecorded hsettleCauses hsettleEq ⊢
  have hline := line_scored z l false
  have hscoredPorts : (scored z l false).ports = z.ports := rfl
  generalize scored z l false = t at hline hscoredPorts ⊢
  have hcause : ∀ q, (t.port q).hasCause .watch l = (y.port q).hasCause .watch l := fun q => by
    rw [State.port, hscoredPorts]
    exact hsettleCauses.hasCause (fun _ => Cause.apart_of_watch) q l
  refine ⟨?_, ?_, fun hclose => ?_, fun hon q a ha hae => ?_, fun hoff q => ?_⟩
  · rw [hline]
    exact hsettleRecorded.watch.trans (by rw [hyline, hacted.watch, huwatch])
  · rw [hline]
    exact hsettleKept.tx.trans (by rw [hyline, hacted.tx, hutx])
  · obtain ⟨hturn, hdue⟩ := hturned hclose
    have hz := hsettleEq (by rw [hyline]; exact hdue)
    have hzline : z.line l = _ := (congrArg (State.line · l) hz).trans (State.line_modLine_self y l _)
    have hrecord : eventRecord u l .frozen [] = eventRecord s l .frozen [] := by
      rw [eventRecord, eventRecord, hunext, hutime, htime]
    have hturn' : Turned s x l ((s.line l).watch[i.val]) ((s.line l).closed
        ++ [({ o with body := o.body ++ [r.value] } : OpenRecord).closed .watch (byteOf (i.val + 1))]) := by
      obtain ⟨hplain, hnow, hlater⟩ := hturn
      rw [huclosed, hoptions] at hplain hnow hlater
      rw [hrecord] at hnow
      exact ⟨hplain, hnow, hlater⟩
    refine hturn'.congr ?_ ?_ ?_
    · rw [hline, hzline, hyline]
      rfl
    · rw [hline, hzline, hyline]
    · rw [hline, hzline, hyline]
  · rw [hcause q, hyon hon]
    obtain ⟨b, hb, hbe⟩ := hacted.attached q a (by rw [Line.attachment, huatt]; exact ha)
    exact ((eachPostWatch_at i x q).1 b hb (hbe.trans hae)).1
  · rw [hcause q, hyoff hoff, hkeptCauses.hasCause (fun _ => Cause.apart_of_watch) q l]
    rw [State.port, State.port, huports, hports]

/-- Settles O49: `feed_spec` for the matching; the responses by `respond_of_writer`, `respond_of_full` and `respond_sends`; the actions in slot
order by `actions_in_slot_order`; and one matching slot by `one_match_step`. -/
theorem aWatchSlotMatchesAndResponds : Obligations.AWatchSlotMatchesAndResponds := by
  refine ⟨⟨fun w cs c hon hk hfed hmax => feed_spec c hon hk hfed hmax, fun w c hoff => feed_of_off hoff c, fun s l i => ?_⟩,
    fun s l data parity stop r hr hstores placed hplaced => ?_, fun s l slots hsorted => actions_in_slot_order s l slots hsorted,
    ?_⟩
  · intro x w t source
    refine ⟨fun hwriter => ?_, fun hno hfull => ?_, fun hno hroom => respond_sends hno hroom⟩
    · change LogsEvent s (respond s l i) l _ _ ∧ ((respond s l i).line l).tx = _
      rw [respond_of_writer hwriter]
      exact ⟨logsEvent_groupEvent s l _ _, (groupEvent_holdKept s _ _).tx⟩
    · change LogsEvent s (respond s l i) l _ _ ∧ ((respond s l i).line l).tx = _
      rw [respond_of_full hno hfull]
      exact ⟨logsEvent_groupEvent s l _ _, (groupEvent_holdKept s _ _).tx⟩
  · rw [← seen_clean hstores.2.1 s l] at hplaced
    exact exec_of_placed hr hstores hplaced
  · intro s l data parity stop r old i hr hstores hauto ho hroomy hfrozen hnoHold hqueue w hone hrespond text
    obtain ⟨t, hexec, hwatch, htx, hturned, hon, hoff⟩ := one_match_step hr hstores hauto ho hroomy hfrozen hnoHold hqueue hone hrespond
    exact ⟨t, hexec, hwatch, htx, fun hclose => (hturned hclose).plain, fun hclose => (hturned hclose).now,
      fun hclose => (hturned hclose).later, hon, hoff⟩

end Sys2Proof.Machine
end

section
/-! Proofs: an evaluation whose own HOLD START gives the newest page its first record (R26, R152, R154). -/

namespace Sys2Proof.Machine

open Host

variable {l : LineId}

/-- The only record of the log of `emptyPageState`. -/
def onlyRecord : LogRecord := { seq := 1, time := 0, kind := .event, cause := 0x30, detail := 0, body := [] }

/-- A line at its limit with one record and, after its page, an empty page: FLOW is on, and a lossless attachment has its cursor at the
newest end. The cursor is on the empty page, whose first sequence number is not yet a record's, so that it counts as on the oldest page
only after a record has been placed there. -/
def emptyPageLine (x : Line) : Line :=
  { x with
    io := { x.io with inForce := { x.io.inForce with flow := true } }
    cap := { x.cap with oldest := 1, next := 2 }
    pool := { x.pool with pages :=
      [{ number := 0, firstSeq := 1, occupied := 12, records := [onlyRecord] }, { number := 1, firstSeq := 0, occupied := 0, records := [] }] }
    att := { x.att with list := [{ port := 1, role := .watcher, cursor := 2, overtaken := false, mode := .none, lossless := true,
                                   conditionEnable := false, watchEnable := false, latch := 0 }] } }

/-- Port 0 about to set the quota of that line to a reserve of 1 and a limit of 2. -/
def emptyPageState : State := (State.reset.modLine 0 emptyPageLine).modPort 0 fun x => { x with count := 1, value := 2 }

theorem line_reset (l : LineId) : State.reset.line l = Line.atReset true :=
  Vector.getElem_replicate _

theorem atReset_logKept : (Line.atReset true).consecutive ∧ pagesLaid (Line.atReset true).cap.opened (Line.atReset true).pool.pages := by
  rw [← line_reset 0]
  exact fresh_reset.logKept 0

theorem line_emptyPageState_of_ne (h : l ≠ 0) : emptyPageState.line l = Line.atReset true := by
  rw [emptyPageState, State.line_modPort, State.line_modLine_ne _ _ _ _ h, line_reset]

theorem marksClear_emptyPageState : MarksClear emptyPageState := by
  intro l
  by_cases h : l = 0
  · subst h
    decide +kernel
  · rw [line_emptyPageState_of_ne h]
    exact ⟨rfl, rfl⟩

theorem logKept_emptyPageState : LogKept emptyPageState := by
  intro l
  by_cases h : l = 0
  · subst h
    exact ⟨by unfold Line.consecutive; decide +kernel, ⟨rfl, fun q hq => Option.some.inj hq⟩, List.cons_ne_nil _ _, rfl,
      fun q hq => absurd hq (Option.some_ne_none q).symm⟩
  · rw [line_emptyPageState_of_ne h]
    exact atReset_logKept

/-- The line is held after the step, without the hold condition. -/
def heldWithout : Outcome State Fault Refusal → Bool
  | .next t => decide ((t.line 0).hold.state ≠ .none) && !holdCondition t 0
  | _ => false

theorem heldWithout_emptyPageState : heldWithout (exec (.setQuota 0) emptyPageState) = true := by decide +kernel

/-- Refutes O54: `LogKept` leaves the first sequence number of an empty page open. SET QUOTA on `emptyPageState` evaluates to HELD, and HOLD
START then becomes the first record of that page, which moves the attachment's cursor off the oldest page: the line is held without the
condition. -/
theorem not_theHoldEvaluation : ¬ Obligations.TheHoldEvaluation := by
  rintro ⟨-, -, h⟩
  obtain ⟨t, hexec, -, hheld⟩ := h emptyPageState 0 0 (.setQuota 0) marksClear_emptyPageState logKept_emptyPageState
    (by unfold Line.shortLog; decide +kernel) (.inl ⟨by unfold Line.roomy; decide +kernel, .inl ⟨rfl, ⟨⟨rfl, rfl⟩, rfl⟩, by decide +kernel, by decide +kernel⟩⟩)
  have hwithout := heldWithout_emptyPageState
  rw [hexec] at hwithout
  obtain ⟨hstate, hcondition⟩ := Bool.and_eq_true_iff.mp hwithout
  rw [hheld (of_decide_eq_true hstate)] at hcondition
  exact Bool.false_ne_true hcondition

end Sys2Proof.Machine
end

section
/-! Proofs: READ NEW of a log whose numbers have come round (R2, R120, R121). -/

namespace Sys2Proof.Machine

open Host

variable {l : LineId} {s t u : State} {p : PortId}

/-! ## READ NEW with a record to deliver (R120) -/

/-- READ NEW of an attachment in mode NONE below the end of the log: the flush, and the fill it begins. -/
theorem exec_readNew_below {a : Attachment} {o : OpenRecord} (hcall : s.calls p l) (ha : (s.line l).attachment p = some a)
    (hmode : a.mode = .none) (hbelow : seqBelow a.cursor (s.line l).cap.next = true) (ho : (s.line l).cap.opened = some o)
    (hpages : (s.line l).pool.pages ≠ []) (hpending : (s.line l).pool.freezePending = none) (hmarks : (s.line l).unmarked) :
    ∃ t, exec (.readNew p) s = .next t
      ∧ (t.port p).phase = .filling (.readNew l (s.line l).cap.next (s.port p).count.toNat 0 0)
      ∧ (t.line l).closed = (s.line l).closed ++ [o.closed .read 0] ∧ (t.line l).cap.oldest = (s.line l).cap.oldest
      ∧ (t.line l).cap.next = (s.line l).cap.next ∧ (t.line l).attachment p = some a := by
  have hline := beginCommand_line s p true l
  have hport := port_beginCommand_self s p true
  have hexec : exec (.readNew p) s = _ := congrArg Outcome.next (lineCommand_of_calls hcall true _)
  have hwrote := closeOpen_wrote (s := beginCommand s p true) (l := l) (by rw [hline]; exact hpages) .read 0
  have hattached : ((closeOpen (beginCommand s p true) l .read 0).line l).attachment p = some a := by
    have hclosed := closeOpen_of_some (s := beginCommand s p true) (l := l) (by rw [hline]; exact ho) .read 0
    have hkept : ((closeRecord (beginCommand s p true) l o .read 0).line l).attachment p = some a := by
      rw [closeRecord, State.line_modLine_self, Line.attachment, hline]
      exact ha
    obtain ⟨-, -, hquiet⟩ := reportComplete_at hkept
    rw [hclosed]
    exact (hquiet (.inl hmode)).2
  have hunmarked := hwrote.unmarked (by rw [hline]; exact hpending) (by rw [hline]; exact hmarks)
  have hflush : flushOpen (beginCommand s p true) l = closeOpen (beginCommand s p true) l .read 0 := flushFrozen_of_not_due hunmarked.1
  have hclosing : ((beginCommand s p true).line l).closing .read 0 = [o.closed .read 0] := Line.closing_of_some (by rw [hline]; exact ho) ..
  rw [hclosing] at hwrote
  dsimp only at hexec
  rw [hline, ha] at hexec
  dsimp only at hexec
  rw [hflush, hmode] at hexec
  dsimp only at hexec
  rw [settle_of_unmarked hunmarked, hattached] at hexec
  dsimp only at hexec
  generalize closeOpen (beginCommand s p true) l .read 0 = v at hexec hwrote hattached
  have hnext : (v.line l).cap.next = (s.line l).cap.next := hwrote.next.trans (congrArg (·.cap.next) hline)
  rw [hnext, if_neg (by rw [hbelow]; simp), hport] at hexec
  refine ⟨_, hexec, ?_, ?_, ?_, hnext, hattached⟩
  · rw [beginFill, State.port_modPort_self]
    rfl
  · exact hwrote.closed.trans (congrArg (fun x : Line => x.closed ++ _) hline)
  · exact hwrote.oldest.trans (congrArg (·.cap.oldest) hline)

/-! ## A log whose numbers have come round (R2) -/

/-- A record of a log whose numbers have come round. -/
def roundRecord (q : Seq) : LogRecord := { seq := q, time := 0, kind := .event, cause := 0x30, detail := 0, body := [] }

/-- The open record of such a log: it carries number 1 again, as the oldest record does. -/
def roundOpen : OpenRecord := { seq := 1, time := 0, body := [0], room := 0 }

/-- The only page of such a log, with this many closed records. -/
def roundPage (n : Nat) : Page :=
  { number := 0, firstSeq := 1
    occupied := (((seqRun 1 n).map roundRecord).map LogRecord.size).sum + roundOpen.size
    records := (seqRun 1 n).map roundRecord }

/-- A watcher whose cursor is on the open record of such a log. -/
def roundAttachment : Attachment :=
  { port := 0, role := .watcher, cursor := 1, overtaken := false, mode := .none, lossless := false, conditionEnable := false,
    watchEnable := false, latch := 0 }

/-- A line with such a log. -/
def roundLine (n : Nat) (x : Line) : Line :=
  { x with
    cap := { x.cap with oldest := 1, next := 2, opened := some roundOpen }
    pool := { x.pool with pages := [roundPage n] }
    att := { x.att with list := [roundAttachment] } }

/-- A state with such a log on line 0. -/
def roundState (n : Nat) : State := State.reset.modLine 0 (roundLine n)

theorem line_roundState (n : Nat) : (roundState n).line 0 = roundLine n (Line.atReset true) := by
  rw [roundState, State.line_modLine_self, line_reset]

theorem line_roundState_of_ne {n : Nat} (h : l ≠ 0) : (roundState n).line l = Line.atReset true := by
  rw [roundState, State.line_modLine_ne _ _ _ _ h, line_reset]

theorem shortLog_roundLine (n : Nat) (x : Line) : (roundLine n x).shortLog := by
  change seqDist 1 2 < 2147483648
  decide

theorem closed_roundState (n : Nat) : ((roundState n).line 0).closed = (seqRun 1 n).map roundRecord := by
  rw [line_roundState]
  exact List.append_nil _

theorem calls_roundState (n : Nat) : (roundState n).calls 0 0 := by
  rw [State.calls, roundState, State.port_modLine, port_reset]
  exact ⟨⟨rfl, rfl⟩, rfl⟩

theorem marksClear_roundState (n : Nat) : MarksClear (roundState n) := by
  intro l
  by_cases h : l = 0
  · rw [h, line_roundState]
    exact ⟨rfl, rfl⟩
  · rw [line_roundState_of_ne h]
    exact ⟨rfl, rfl⟩

/-- The numbers of the log: a whole round of them and the first again. -/
theorem consecutive_roundState {n : Nat} (hround : nextSeq^[n] (1 : Seq) = 1) : ((roundState n).line 0).consecutive := by
  have hseqs : ((roundState n).line 0).logSeqs = seqRun 1 (n + 1) := by
    have hmap : ((seqRun 1 n).map roundRecord).map (·.seq) = seqRun 1 n := by
      rw [List.map_map]
      exact List.map_id _
    rw [Line.logSeqs, closed_roundState, line_roundState, hmap, seqRun_succ, hround]
    rfl
  have hcap : ((roundState n).line 0).cap.oldest = 1 ∧ ((roundState n).line 0).cap.next = 2 := by
    rw [line_roundState]
    exact ⟨rfl, rfl⟩
  obtain ⟨holdest, hnext⟩ := hcap
  rw [Line.consecutive, hseqs, holdest, hnext, seqRun_length]
  refine ⟨by decide, by decide, rfl, ?_⟩
  rw [Function.iterate_succ_apply', hround]
  rfl

theorem logKept_roundState {n : Nat} (hround : nextSeq^[n] (1 : Seq) = 1) (hn : n ≠ 0) : LogKept (roundState n) := by
  intro l
  by_cases h : l = 0
  · subst h
    refine ⟨consecutive_roundState hround, ?_⟩
    rw [line_roundState]
    obtain ⟨k, rfl⟩ := Nat.exists_eq_succ_of_ne_zero hn
    exact ⟨rfl, fun q hq => Option.some.inj hq⟩
  · rw [line_roundState_of_ne h]
    exact atReset_logKept

/-- A whole round of numbers is a log of this many. -/
theorem exists_round : ∃ n, n ≠ 0 ∧ nextSeq^[n] (1 : Seq) = 1 := by
  refine ⟨4294967295, by decide, BitVec.eq_of_toNat_eq ?_⟩
  rw [toNat_iterate_nextSeq (by decide)]
  rfl

/-- The fill of a READ NEW from number 1 up to 2 takes the oldest record, though the open record, now closed, carries the same number. -/
theorem readNewFill_round {x : Line} {n : Nat} (hn : n ≠ 0) (holdest : x.cap.oldest = 1) (hnext : x.cap.next = 2)
    (hclosed : x.closed = (seqRun 1 n).map roundRecord ++ [roundOpen.closed .read 0]) (time : Word) (d : Nat) :
    (readNewFill x time roundAttachment 2 0 d).bytes = (roundRecord 1).bytes := by
  obtain ⟨k, rfl⟩ := Nat.exists_eq_succ_of_ne_zero hn
  have hbelow : x.closedBelow 2 = [roundRecord 1] := by
    rw [closedBelow_eq, holdest, hnext, if_pos le_rfl, hclosed]
    rfl
  rw [readNewFill_eq, recordsFor_eq, if_pos rfl, hbelow, holdest]
  rfl

/-- Refutes O21: the log of `roundState` holds a whole round of sequence numbers and the open record, which carries number 1 as the oldest
record does. A READ NEW whose cursor is on the open record delivers the oldest record in its place. -/
theorem not_readNewFixesItsEnd : ¬ Obligations.ReadNewFixesItsEnd := by
  rintro ⟨-, h⟩
  obtain ⟨n, hn, hround⟩ := exists_round
  have hline := line_roundState n
  have hmarks := marksClear_roundState n
  obtain ⟨t, hexec, hphase, hclosed, holdest, hnext, hattached⟩ := exec_readNew_below (a := roundAttachment) (o := roundOpen)
    (calls_roundState n) (by rw [hline]; rfl) rfl (by rw [hline]; rfl) (by rw [hline]; rfl)
    (by rw [hline]; exact List.cons_ne_nil _ _) (by rw [hline]; rfl) (hmarks 0)
  obtain ⟨hread, -⟩ := h (roundState n) 0 0 roundOpen (calls_roundState n) (by rw [hline]; rfl)
    (by rw [hline]; exact List.cons_ne_nil _ _) (by rw [hline]; rfl) hmarks
  obtain ⟨t', hexec', -, -, -, -, -, -, -, -, -, -, hdelivers⟩ := hread roundAttachment (by rw [hline]; rfl)
  obtain rfl : t' = t := Outcome.next.inj (hexec'.symm.trans hexec)
  obtain ⟨u, hfill, hbuffer, -⟩ := hdelivers (logKept_roundState hround hn) (by rw [hline]; exact shortLog_roundLine n _) rfl rfl (by decide)
  rw [closed_roundState] at hclosed
  have hbytes := readNewFill_round hn (holdest.trans (by rw [hline]; rfl)) (hnext.trans (by rw [hline]; rfl)) hclosed t'.timebase 0
  have hcount : ((roundState n).port 0).count.toNat = 0 := by
    rw [roundState, State.port_modLine, port_reset]
    rfl
  have hstop : ((roundState n).line 0).cap.next = 2 := by rw [hline]; rfl
  rw [hstop, hcount] at hphase
  rw [exec_fillEnd_readNew hphase hattached, hbytes, if_neg (bytes_ne_nil _)] at hfill
  obtain rfl := Outcome.next.inj hfill
  rw [deliver, State.port_modPort_self] at hbuffer
  have hlength := congrArg List.length (hbytes.symm.trans hbuffer)
  rw [length_bytes, length_bytes] at hlength
  exact absurd hlength (by decide)

end Sys2Proof.Machine
end

section
/-! Proofs: the test of the overtaken mark and the evaluation it asks for (R114, R124, R153); ABORT (R179). -/

namespace Sys2Proof.Machine

open Host

variable {l : LineId} {s t u : State} {p : PortId}

/-! ## One evaluation on a line with room (R154) -/

theorem line_placeFlow_frame (s : State) (l : LineId) (c : FlowChar) :
    (placeFlow s l c).line l = { s.line l with tx := ((placeFlow s l c).line l).tx } := by
  rw [placeFlow]
  split
  · rfl
  · split
    · rw [State.line_modLine_self]
    · rw [State.modTx_eq, State.line_modLine_self]

theorem ports_placeFlow (s : State) (l : LineId) (c : FlowChar) : (placeFlow s l c).ports = s.ports := by
  rw [placeFlow]
  split
  · rfl
  · split <;> rfl

/-- What an evaluation leaves on a line with room: the attachments, the causes but for DATA, and the oldest number. -/
structure QuietlyEvaluated (l : LineId) (s t : State) : Prop where
  told : Told l s t
  oldest : (t.line l).cap.oldest = (s.line l).cap.oldest
  unmarked : (t.line l).unmarked

/-- The event of an evaluation, after a change of the hold and the flow character. -/
theorem quietlyEvaluated_flow {f : Hold → Hold} (hf : ∀ x, (f x).evalDue = x.evalDue) (h : (s.line l).roomy 12) (c : FlowChar) (e : Event) :
    QuietlyEvaluated l s (plainEvent (placeFlow (s.modHold l f) l c) l e []) := by
  have hhold : (s.modHold l f).line l = _ := State.line_modLine_self s l _
  have hline := line_placeFlow_frame (s.modHold l f) l c
  have hports := ports_placeFlow (s.modHold l f) l c
  rw [hhold] at hline
  generalize placeFlow (s.modHold l f) l c = v at hline hports ⊢
  have hlog : (s.line l).SameLog (v.line l) := by
    rw [hline]
    exact ⟨rfl, rfl, hf _⟩
  have hroomy : (v.line l).roomy 12 := hlog.roomy.mpr h
  obtain ⟨hpages, hroom, hnone, hunmarked⟩ := id hroomy
  have hwrote := groupEvent_wrote hpages e (argument := []) hroom
  have htold : Told l s v := .of_att (by rw [hline]) fun q => congrArg (fun x : Vector Port 3 => x[q.val].causes) hports
  rw [plainEvent_of_roomy (argument := []) hroomy]
  exact ⟨htold.trans hwrote.told, hwrote.oldest.trans (by rw [hlog.cap]), hwrote.unmarked hnone hunmarked⟩

theorem evaluateHold_quietly (h : (s.line l).roomy 12) : QuietlyEvaluated l s (evaluateHold s l) := by
  have hleave := State.line_modLine_self s l fun x => { x with hold := { x.hold with state := .none, timer := none } }
  rw [evaluateHold]
  split
  · exact quietlyEvaluated_flow (f := fun x => { x with state := .held, timer := some (startTimer s.timebase) }) (fun _ => rfl) h .xoff
      .holdStart
  · rw [leaveHold]
    exact quietlyEvaluated_flow (f := fun x => { x with state := .none, timer := none }) (fun _ => rfl) h .xon .holdEnd
  · rw [leaveHold, State.modHold_eq]
    exact ⟨.of_att (by rw [hleave]) fun _ => rfl, by rw [hleave], by rw [hleave]; exact h.unmarked⟩
  all_goals exact ⟨.refl l s, rfl, h.unmarked⟩

/-- An evaluation asked for on a line with room is one evaluation (R153, R154). -/
theorem askEvaluation_of_roomy (h : (s.line l).roomy 12) : askEvaluation s l = evaluateHold s l := by
  obtain ⟨hdue, heval⟩ := h.unmarked
  have hasked : flushFrozen (s.modHold l fun x => { x with evalDue := true }) l = s.modHold l fun x => { x with evalDue := true } :=
    flushFrozen_of_not_due (by rw [State.modHold_eq, State.line_modLine_self]; exact hdue)
  have hcleared : (s.modHold l fun x => { x with evalDue := true }).modHold l (fun x => { x with evalDue := false }) = s := by
    rw [State.modHold_eq, State.modHold_eq, State.modLine_modLine]
    refine (State.modLine_congr s l (g := fun x => x) ?_).trans (State.modLine_id s l)
    dsimp only
    rw [← heval]
  have hmarked : ((s.modHold l fun x => { x with evalDue := true }).line l).hold.evalDue = true := by
    rw [State.modHold_eq, State.line_modLine_self]
  rw [askEvaluation, settle, settleWithin, hasked, if_pos hmarked, hcleared, settleWithin_of_unmarked _ (evaluateHold_quietly h).unmarked]

/-! ## The test of the overtaken mark (R114, R124) -/

/-- The mark and its cause tested, before the evaluation. -/
def markTested (s : State) (l : LineId) (p : PortId) (cursor : Seq) : State :=
  if (s.line l).inLog cursor then levelData l (clearOvertaken s l p) p else s

theorem testOvertaken_eq {a : Attachment} (ha : (s.line l).attachment p = some a) :
    testOvertaken s l p = if a.lossless then askEvaluation (markTested s l p a.cursor) l else markTested s l p a.cursor := by
  rw [testOvertaken, ha]
  rfl

theorem line_markTested (s : State) (l : LineId) (p : PortId) (cursor : Seq) :
    (markTested s l p cursor).line l = { s.line l with att := ((markTested s l p cursor).line l).att } := by
  rw [markTested]
  split
  · rw [State.line, lines_levelData]
    change (clearOvertaken s l p).line l = { s.line l with att := ((clearOvertaken s l p).line l).att }
    rw [clearOvertaken, State.line_unpost, State.modAttachment_eq, State.modAtt_eq, State.line_modLine_self]
  · rfl

theorem attachment_markTested {a : Attachment} (ha : (s.line l).attachment p = some a) :
    ((markTested s l p a.cursor).line l).attachment p = some { a with overtaken := a.overtaken && !(s.line l).inLog a.cursor } := by
  rw [markTested]
  cases hlog : (s.line l).inLog a.cursor with
  | true =>
    rw [if_pos rfl, attachment_levelData, attachment_clearOvertaken ha, Bool.not_true, Bool.and_false]
  | false =>
    rw [if_neg Bool.false_ne_true, ha, Bool.not_false, Bool.and_true]

theorem overtaken_markTested {cursor : Seq} (h : (s.line l).inLog cursor = true) :
    ((markTested s l p cursor).port p).hasCause .overtaken l = false := by
  have hlevel : CausesKept (fun c => decide (c.kind ≠ .data)) (clearOvertaken s l p) (levelData l (clearOvertaken s l p) p) :=
    .levelData (fun _ => not_data_of_data) _ p
  rw [markTested, if_pos h, hlevel.hasCause (k := .overtaken) (fun c hc => by rw [hc]; rfl), clearOvertaken, State.hasCause_unpost]
  simp

/-- What the test of the overtaken mark leaves, with the evaluation that a lossless attachment asks for (R114, R124). -/
structure MarkTested (s t : State) (l : LineId) (p : PortId) (a b : Attachment) : Prop where
  attachment : (t.line l).attachment p = some b
  standing : b.standing = a.standing
  latch : b.latch = a.latch
  stays : a.overtaken = true → (s.line l).inLog a.cursor = false → b.overtaken = true
  tested : a.lossless = false ∨ (s.line l).roomy 12 → b.overtaken = (a.overtaken && !(s.line l).inLog a.cursor)
    ∧ ((s.line l).inLog a.cursor = true → (t.port p).hasCause .overtaken l = false) ∧ (t.line l).cap.oldest = (s.line l).cap.oldest
  plain : a.lossless = false → b = { a with overtaken := a.overtaken && !(s.line l).inLog a.cursor }
    ∧ t.line l = { s.line l with att := (t.line l).att }

theorem Attachment.Marked.latch_eq {a b : Attachment} (h : a.Marked b) : b.latch = a.latch := by rw [h.1]

theorem testOvertaken_spec {a : Attachment} (ha : (s.line l).attachment p = some a) :
    ∃ b, MarkTested s (testOvertaken s l p) l p a b := by
  have hattached := attachment_markTested ha
  have hcause := overtaken_markTested (s := s) (l := l) (p := p) (cursor := a.cursor)
  have hline := line_markTested s l p a.cursor
  rw [testOvertaken_eq ha]
  generalize markTested s l p a.cursor = v at hattached hcause hline ⊢
  cases hlossless : a.lossless with
  | false =>
    rw [if_neg Bool.false_ne_true]
    exact ⟨_, hattached, rfl, rfl, fun ho hout => by rw [ho, hout]; rfl, fun _ => ⟨rfl, hcause, by rw [hline]⟩, fun _ => ⟨rfl, hline⟩⟩
  | true =>
    rw [if_pos rfl]
    obtain ⟨g, hg, hb⟩ := (askEvaluation_recorded (l := l) v).attachment p
    rw [hattached] at hb
    refine ⟨_, hb, (hg _).standing, (hg _).latch_eq, fun ho hout => ?_, fun h => ?_, fun h => absurd (hlossless.symm.trans h) Bool.noConfusion⟩
    · obtain ⟨b, hb', hmark⟩ := (markStays_rule l).askEvaluation v p _ hattached (by rw [ho, hout]; rfl)
      rw [← Option.some.inj (hb.symm.trans hb')] at hmark
      exact hmark
    · have hroomy : (v.line l).roomy 12 := by
        rw [hline]
        exact h.resolve_left fun h => Bool.false_ne_true (h.symm.trans hlossless)
      obtain ⟨htold, holdest, -⟩ := evaluateHold_quietly hroomy
      rw [← askEvaluation_of_roomy hroomy] at htold holdest
      obtain ⟨b, hb', hsame⟩ := htold.attachment hattached
      rw [← Option.some.inj (hb.symm.trans hb')] at hsame
      refine ⟨(congrArg Attachment.overtaken hsame :), fun hin => ?_, holdest.trans (by rw [hline])⟩
      rw [htold.causes.hasCause (k := .overtaken) (fun c hc => by rw [hc]; rfl)]
      exact hcause hin

/-! ## ABORT (R179) -/

theorem exec_abort (hreset : (s.port p).resetAsserted = false) :
    exec (.abort p) s = .next ((abortCommand s p).modPort p fun x => { x with collision := false, pointer := 1 }) := by
  change execAbort p s = _
  rw [execAbort, hreset, if_neg Bool.false_ne_true]
  rfl

/-- An abort that only completes the command. -/
theorem exec_abort_completes {r : Results} (hreset : (s.port p).resetAsserted = false) (h : abortCommand s p = completeCommand s p r) :
    exec (.abort p) s = .next (s.modPort p fun x => { x.complete r with collision := false, pointer := 1 }) := by
  rw [exec_abort hreset, h, completeCommand, State.modPort_modPort]

/-- The port after an abort: its command complete, with NONE on an idle port and ABORTED on any other. -/
theorem port_abortCommand (h : WaitingAgrees s) (p : PortId) : ∃ (x : Port) (r : Results), (abortCommand s p).port p = x.complete r
    ∧ r.code = if (s.port p).idle then .none else .aborted := by
  have completes : ∀ (u : State) (r : Results), (completeCommand u p r).port p = (u.port p).complete r := fun u => port_completeCommand_self u p
  rw [abortCommand]
  split <;> rename_i hphase
  case h_1 => exact ⟨_, _, completes _ _, by rw [Port.idle_iff.mpr hphase]; rfl⟩
  case h_12 l =>
    obtain ⟨w, hw, hport⟩ := (h.1 p l).mp hphase
    obtain ⟨r, hr, hended⟩ := endWaiting_of_some .aborted hw
    refine ⟨s.port p, r, ?_, ?_⟩
    · rw [hended, hport, port_finishWaiting, if_pos rfl]
    · rw [hr, Port.idle, Port.busy, hphase]
      rfl
  all_goals exact ⟨_, _, completes _ _, by rw [Port.idle, Port.busy, Port.dataReady, hphase]; rfl⟩

theorem abortCommand_readNew {stop : Seq} {m d g : Nat} (h : (s.port p).phase = .filling (.readNew l stop m d g)
      ∨ ∃ is, (s.port p).phase = .reading (.readNew l stop m d g) is) :
    abortCommand s p = completeCommand (testOvertaken s l p) p
      { code := .aborted, position := (((testOvertaken s l p).line l).attachment p).map (·.cursor), count := some (countHalf d) } := by
  rcases h with h | ⟨is, h⟩ <;> rw [abortCommand, h]

/-- Settles O12: each phase by its branch of the abort; the waits by `endWaiting`; READ NEW by the test of its mark. -/
theorem abortEndsTheCommand : Obligations.AbortEndsTheCommand := by
  refine ⟨⟨fun s p r hreset h => exec_abort_completes hreset ?completes, fun s p hagrees hreset => ⟨_, exec_abort hreset, ?ends⟩⟩,
    fun s p l hreset hphase => ⟨fun rest hw => ?send, fun d hw => ?sendBreak⟩,
    fun s p l stop m d g a hreset hphase ha => ⟨_, exec_abort hreset, ?readNew⟩⟩
  case completes =>
    rw [abortCommand]
    rcases h with ⟨h, rfl⟩ | ⟨⟨q, h⟩, rfl⟩ | ⟨l, q, e, n, d, is, h | h, rfl⟩ | ⟨⟨b, is, h | h⟩, rfl⟩ | ⟨l, n, h, rfl⟩
      | ⟨⟨l, h | ⟨i, h⟩⟩, rfl⟩ <;> rw [h] <;> rfl
  case ends =>
    obtain ⟨x, r, hport, hcode⟩ := port_abortCommand hagrees p
    rw [State.port_modPort_self, hport]
    exact ⟨rfl, rfl, hcode⟩
  case send =>
    have hended : abortCommand s p = endWaiting s l .aborted := by rw [abortCommand, hphase]
    rw [exec_abort hreset, hended, endWaiting, hw]
    exact congrArg Outcome.next (State.modPort_modPort _ p _ _)
  case sendBreak =>
    have hended : abortCommand s p = endWaiting s l .aborted := by rw [abortCommand, hphase]
    rw [exec_abort hreset, hended, endWaiting, hw]
    exact congrArg Outcome.next (State.modPort_modPort _ p _ _)
  case readNew =>
    obtain ⟨b, htested⟩ := testOvertaken_spec ha
    rw [abortCommand_readNew hphase, State.port_modPort_self, port_completeCommand_self, htested.attachment]
    generalize testOvertaken s l p = t at htested
    obtain ⟨hattachment, hstanding, hlatch, hstays, hmark, hplain⟩ := htested
    obtain ⟨-, -, hcursor, -, hlossless, -, -⟩ : _ ∧ _ ∧ _ ∧ _ ∧ _ ∧ _ ∧ _ := by
      simpa only [Attachment.standing, Prod.mk.injEq] using hstanding
    refine ⟨rfl, rfl, hcursor, rfl, b, hattachment, hcursor, hlossless, hlatch, fun ho hout => hstays ho (decide_eq_false hout),
      fun h => ?_, fun h => ?_⟩
    · obtain ⟨hovertaken, hcause, holdest⟩ := hmark h
      refine ⟨hovertaken, fun hin c hc hkind => ?_, holdest⟩
      exact Bool.false_ne_true ((hcause (decide_eq_true hin)).symm.trans (Port.hasCause_iff.mpr ⟨c, hc, hkind⟩))
    · obtain ⟨-, hline⟩ := hplain h
      have hsame : ∀ w : State, w.line l = t.line l → (w.line l).cap = (s.line l).cap ∧ (w.line l).pool = (s.line l).pool
          ∧ (w.line l).tx = (s.line l).tx := fun w hw => by
        rw [hw, hline]
        exact ⟨rfl, rfl, rfl⟩
      exact hsame _ rfl

end Sys2Proof.Machine
end

section
/-! Proofs: the end of a buffer's delivery (R123, R124, R127, R131, R176). -/

namespace Sys2Proof.Machine

open Host

variable {l : LineId} {s t u v : State} {p : PortId}

/-! ## The last byte of a buffer -/

/-- A port whose buffer has been handed out. -/
def Port.drained (x : Port) : Port := { x with buffer := [], transferLength := 0, readPoint := 0 }

theorem endDelivery_lineStatus {record : List Byte} {items : List Item} (h : (s.port p).phase = .reading (.lineStatus record) items) :
    endDelivery s p = completeCommand (s.modPort p Port.drained) p {} := by
  rw [endDelivery, h]
  rfl

theorem endDelivery_readHistory {q stop : Seq} {n d : Nat} {items : List Item}
    (h : (s.port p).phase = .reading (.readHistory l q stop n d) items) : endDelivery s p
      = if seqBelow q stop = true ∧ (n = 0 ∨ d < n) then beginFill (s.modPort p Port.drained) p (.readHistory l q stop n d)
        else completeCommand (s.modPort p Port.drained) p
          { position := some q, count := some (countHalf d), value := some (s.line l).cap.oldest } := by
  rw [endDelivery, h]
  dsimp only
  simp only [Bool.and_eq_true, Bool.or_eq_true, decide_eq_true_eq]
  rfl

theorem endDelivery_readNew {stop : Seq} {m d g : Nat} {items : List Item} {b : Attachment}
    (h : (s.port p).phase = .reading (.readNew l stop m d g) items)
    (hb : ((testOvertaken (s.modPort p Port.drained) l p).line l).attachment p = some b) : endDelivery s p
      = if b.overtaken = true ∨ ((testOvertaken (s.modPort p Port.drained) l p).line l).remains b.cursor stop = true ∧ (m = 0 ∨ d < m) then
          beginFill (testOvertaken (s.modPort p Port.drained) l p) p (.readNew l stop m d g)
        else completeCommand (testOvertaken (s.modPort p Port.drained) l p) p (readNewResults b.cursor d g) := by
  have hdrained : (s.modPort p fun x => { x with buffer := [], transferLength := 0, readPoint := 0 }) = s.modPort p Port.drained := rfl
  rw [endDelivery, h]
  dsimp only
  rw [hdrained, hb]
  simp only [Bool.and_eq_true, Bool.or_eq_true, decide_eq_true_eq]

/-! ## READ NEW (R122, R123) -/

theorem MarkTested.modPort {a b : Attachment} (h : MarkTested s t l p a b) (f : Port → Port)
    (hf : (f (t.port p)).causes = (t.port p).causes) : MarkTested s (t.modPort p f) l p a b where
  attachment := h.attachment
  standing := h.standing
  latch := h.latch
  stays := h.stays
  plain := h.plain
  tested hplain := by
    obtain ⟨hovertaken, hcause, holdest⟩ := h.tested hplain
    refine ⟨hovertaken, fun hin => ?_, holdest⟩
    rw [State.port_modPort_self, Port.hasCause, hf]
    exact hcause hin

/-- The test looks at the log of its line alone. -/
theorem MarkTested.of_line {a b : Attachment} (h : MarkTested v t l p a b) (hline : v.line l = { s.line l with att := (v.line l).att }) :
    MarkTested s t l p a b := by
  have hin : (v.line l).inLog a.cursor = (s.line l).inLog a.cursor := by rw [hline]; rfl
  have hroomy : (v.line l).roomy 12 = (s.line l).roomy 12 := by rw [hline]; rfl
  have holdest : (v.line l).cap.oldest = (s.line l).cap.oldest := by rw [hline]
  obtain ⟨hattachment, hstanding, hlatch, hstays, htested, hplain⟩ := h
  rw [hin] at hstays htested hplain
  rw [hroomy, holdest] at htested
  refine ⟨hattachment, hstanding, hlatch, hstays, htested, fun hlossless => ?_⟩
  obtain ⟨hb, ht⟩ := hplain hlossless
  rw [hline] at ht
  exact ⟨hb, ht⟩

/-- Where a READ NEW goes from the end of a buffer: to its next fill, or to its results (R123). -/
structure GoesOn (t : State) (l : LineId) (p : PortId) (stop next : Seq) (m d g : Nat) (b : Attachment) : Prop where
  fills : b.overtaken = true ∨ ((t.line l).remains next stop = true ∧ (m = 0 ∨ d < m)) →
    (t.port p).phase = .filling (.readNew l stop m d g) ∧ (t.port p).transferLength = 0 ∧ (t.port p).buffer = []
  completes : ¬ (b.overtaken = true ∨ ((t.line l).remains next stop = true ∧ (m = 0 ∨ d < m))) →
    (t.port p).idle = true ∧ (t.port p).error = .none ∧ (t.port p).position = next
      ∧ (t.port p).count = BitVec.ofNat 16 (min d 65535) ∧ (t.port p).value = BitVec.ofNat 32 g

theorem GoesOn.completes_of {stop next : Seq} {m d g : Nat} {b : Attachment} {remains : Prop} (h : GoesOn t l p stop next m d g b)
    (hremains : (t.line l).remains next stop = true ↔ remains) (hmark : b.overtaken = false) (hdone : ¬ remains ∨ (m ≠ 0 ∧ m ≤ d)) :
    (t.port p).idle = true ∧ (t.port p).error = .none ∧ (t.port p).position = next
      ∧ (t.port p).count = BitVec.ofNat 16 (min d 65535) ∧ (t.port p).value = BitVec.ofNat 32 g := by
  refine h.completes fun hmore => ?_
  obtain hovertaken | ⟨hremain, hcount⟩ := hmore
  · exact Bool.false_ne_true (hmark.symm.trans hovertaken)
  · obtain hdone | hdone := hdone
    · exact hdone (hremains.mp hremain)
    · omega

theorem Attachment.cursor_of_standing {a b : Attachment} (h : b.standing = a.standing) : b.cursor = a.cursor :=
  congrArg (fun x : PortId × Role × Seq × Mode × Bool × Bool × Bool => x.2.2.1) h

/-- The end of a buffer of READ NEW. -/
theorem endDelivery_goesOn {stop : Seq} {m d g : Nat} {items : List Item} {a : Attachment}
    (hphase : (s.port p).phase = .reading (.readNew l stop m d g) items) (ha : (s.line l).attachment p = some a) :
    ∃ b, MarkTested s (endDelivery s p) l p a b ∧ GoesOn (endDelivery s p) l p stop a.cursor m d g b := by
  obtain ⟨b, htested⟩ := testOvertaken_spec (s := s.modPort p Port.drained) ha
  have hsame := (testOvertaken_sound (l := l) (s.modPort p Port.drained) p).calm.toOnLine.sameBlock p
  rw [State.port_modPort_self] at hsame
  have hend := endDelivery_readNew hphase htested.attachment
  have hcursor := Attachment.cursor_of_standing htested.standing
  refine ⟨b, ?_⟩
  rw [hend, hcursor]
  replace htested : MarkTested s _ l p a b := htested.of_line (s := s) rfl
  generalize testOvertaken (s.modPort p Port.drained) l p = u at htested hsame
  by_cases hmore : b.overtaken = true ∨ (u.line l).remains a.cursor stop = true ∧ (m = 0 ∨ d < m)
  · rw [if_pos hmore, beginFill]
    refine ⟨htested.modPort _ rfl, fun _ => ?_, fun h => absurd hmore h⟩
    rw [State.port_modPort_self, hsame]
    exact ⟨rfl, rfl, rfl⟩
  · rw [if_neg hmore, completeCommand]
    refine ⟨htested.modPort _ rfl, fun h => absurd h hmore, fun _ => ?_⟩
    rw [State.port_modPort_self]
    exact ⟨rfl, rfl, rfl, rfl, rfl⟩

/-- The records delivered and missing after an item is passed (R122). -/
theorem phase_passItem_readNew (s : State) (p : PortId) (i : Item) (rest : List Item) (l : LineId) (stop : Seq) (m d g : Nat) :
    ((passItem s p i rest (.readNew l stop m d g)).port p).phase
      = .reading (.readNew l stop m (if i.gap = none then d + 1 else d) (g + i.gap.getD 0)) rest := by
  rw [passItem, State.port_modPort_self]
  cases i.gap <;> rfl

/-- The last byte of the last buffer of READ NEW. -/
theorem exec_dataRead_readNew_last {stop : Seq} {m d g : Nat} {i : Item} {a : Attachment} (hreset : (s.port p).resetAsserted = false)
    (hlast : (s.port p).readPoint + 1 = (s.port p).transferLength) (hstop : i.stop = (s.port p).transferLength)
    (hphase : (s.port p).phase = .reading (.readNew l stop m d g) [i]) (ha : (s.line l).attachment p = some a) :
    ∃ t b, exec (.dataRead p) s = .next t ∧ MarkTested s t l p { a with cursor := i.next } b
      ∧ GoesOn t l p stop i.next m (if i.gap = none then d + 1 else d) (g + i.gap.getD 0) b := by
  have hread : ((s.modPort p Port.readOne).port p).phase = .reading (.readNew l stop m d g) [i] := by
    rw [port_readOne]
    exact hphase
  have hexec := exec_dataRead_reading hreset hphase
  rw [if_pos hlast, passItems_of_passed hread (by rw [port_readOne]; exact hlast.trans hstop.symm)] at hexec
  have hpassed := phase_passItem_readNew (s.modPort p Port.readOne) p i [] l stop m d g
  have hattached : ((passItem (s.modPort p Port.readOne) p i [] (.readNew l stop m d g)).line l).attachment p
      = some { a with cursor := i.next } := attachment_moveCursor (s := s.modPort p Port.readOne) ha i.next
  have hline : (passItem (s.modPort p Port.readOne) p i [] (.readNew l stop m d g)).line l = { s.line l with
      att := ((passItem (s.modPort p Port.readOne) p i [] (.readNew l stop m d g)).line l).att } :=
    line_moveCursor (s.modPort p Port.readOne) l p i.next
  generalize passItem (s.modPort p Port.readOne) p i [] (.readNew l stop m d g) = v at hexec hpassed hattached hline
  obtain ⟨b, htested, hgoes⟩ := endDelivery_goesOn hpassed hattached
  exact ⟨_, b, hexec, htested.of_line hline, hgoes⟩

theorem passItems_lineStatus {record : List Byte} {items : List Item} (hphase : (s.port p).phase = .reading (.lineStatus record) items) :
    ∃ items', ((passItems (s.modPort p Port.readOne) p).port p).phase = .reading (.lineStatus record) items'
      ∧ (passItems (s.modPort p Port.readOne) p).lines = s.lines := by
  have hread : ((s.modPort p Port.readOne).port p).phase = .reading (.lineStatus record) items := by
    rw [port_readOne]
    exact hphase
  rw [passItems, hread]
  split
  · rename_i c i rest hitems
    obtain ⟨rfl, -⟩ := Phase.reading.inj hitems
    split
    · exact ⟨rest, by rw [passItem, State.port_modPort_self], rfl⟩
    · exact ⟨items, hread, rfl⟩
  · exact ⟨items, hread, rfl⟩
  all_goals contradiction

theorem remains_iff (x : Line) (q stop : Seq) : x.remains q stop = true
    ↔ seqDist x.cap.oldest stop ≤ seqDist x.cap.oldest x.cap.next ∧ seqDist x.cap.oldest q < seqDist x.cap.oldest stop := by
  rw [Line.remains, Bool.and_eq_true, Line.inLog_iff, decide_eq_true_eq]

/-- Settles O26: LINE STATUS and READ HISTORY by their own ends; READ NEW by the test of its mark and where it goes on. -/
theorem theEndOfADeliveryGoesOn : Obligations.TheEndOfADeliveryGoesOn := by
  refine ⟨fun s p items hreset hlast => ⟨fun record hphase => ?lineStatus, fun l q stop n d i hphase hitems hstop => ?readHistory⟩,
    fun s p l stop m d g i a hreset hlast hstop hphase ha hlossless => ?plain,
    fun s p l stop m d g i a hreset hlast hstop hphase ha hlossless => ?lossless⟩
  case lineStatus =>
    have hexec := exec_dataRead_reading hreset hphase
    rw [if_pos hlast] at hexec
    obtain ⟨items', hread, hlines⟩ : ∃ items', ((passItems (s.modPort p Port.readOne) p).port p).phase = .reading (.lineStatus record) items'
        ∧ (passItems (s.modPort p Port.readOne) p).lines = s.lines := passItems_lineStatus hphase
    rw [endDelivery_lineStatus hread] at hexec
    generalize passItems (s.modPort p Port.readOne) p = v at hexec hlines
    refine ⟨_, hexec, hlines, ?_⟩
    rw [port_completeCommand_self]
    exact ⟨rfl, rfl, rfl, rfl, rfl⟩
  case readHistory =>
    subst hitems
    have hread : ((s.modPort p Port.readOne).port p).phase = .reading (.readHistory l q stop n d) [i] := by
      rw [port_readOne]
      exact hphase
    have hexec := exec_dataRead_reading hreset hphase
    rw [if_pos hlast, passItems_of_passed hread (by rw [port_readOne]; exact hlast.trans hstop.symm)] at hexec
    have hpassed : ((passItem (s.modPort p Port.readOne) p i [] (.readHistory l q stop n d)).port p).phase
        = .reading (.readHistory l i.next stop n (d + 1)) [] := by
      rw [passItem, State.port_modPort_self]
    have hlines : (passItem (s.modPort p Port.readOne) p i [] (.readHistory l q stop n d)).lines = s.lines := rfl
    rw [endDelivery_readHistory hpassed] at hexec
    generalize passItem (s.modPort p Port.readOne) p i [] (.readHistory l q stop n d) = v at hexec hlines
    have holdest : (v.line l).cap.oldest = (s.line l).cap.oldest := congrArg (fun ls : Vector Line 16 => ls[l.val].cap.oldest) hlines
    by_cases hmore : seqBelow i.next stop = true ∧ (n = 0 ∨ d + 1 < n)
    · rw [if_pos hmore, beginFill, State.modPort_modPort] at hexec
      refine ⟨_, hexec, hlines, ?_⟩
      rw [State.port_modPort_self]
      refine ⟨rfl, rfl, fun _ _ => ⟨rfl, rfl⟩, fun hdone => ?_⟩
      obtain ⟨hbelow, hcount⟩ := hmore
      obtain hdone | hdone := hdone
      · exact absurd (hbelow.symm.trans hdone) Bool.noConfusion
      · omega
    · rw [if_neg hmore, holdest, completeCommand, State.modPort_modPort] at hexec
      refine ⟨_, hexec, hlines, ?_⟩
      rw [State.port_modPort_self]
      exact ⟨rfl, rfl, fun hbelow hcount => absurd ⟨hbelow, hcount⟩ hmore, fun _ => ⟨rfl, rfl, rfl, rfl, rfl⟩⟩
  case plain =>
    intro x below remains d' g'
    obtain ⟨t, b, hexec, htested, hgoes⟩ := exec_dataRead_readNew_last hreset hlast hstop hphase ha
    obtain ⟨rfl, hline⟩ := htested.plain hlossless
    obtain ⟨-, hcause, -⟩ := htested.tested (.inl hlossless)
    have hremains : (t.line l).remains i.next stop = true ↔ remains := by
      rw [remains_iff, hline]
    refine ⟨t, hexec, htested.attachment, fun hbelow c hc hkind => ?_, by rw [hline], by rw [hline], by rw [hline],
      fun hmore => hgoes.fills (by rw [hremains]; exact hmore), fun hmark hdone => hgoes.completes_of hremains hmark hdone⟩
    have hnone := hcause ((Bool.not_eq_false' _).mp hbelow)
    exact Bool.false_ne_true (hnone.symm.trans (Port.hasCause_iff.mpr ⟨c, hc, hkind⟩))
  case lossless =>
    intro x below d' g'
    obtain ⟨t, b, hexec, htested, hgoes⟩ := exec_dataRead_readNew_last hreset hlast hstop hphase ha
    refine ⟨t, b, hexec, htested.attachment, htested.standing, htested.latch, fun ho hbelow => htested.stays ho ((Bool.not_eq_true' _).mp hbelow),
      fun hroomy => ?_, ?_⟩
    · obtain ⟨hmark, hcause, holdest⟩ := htested.tested (.inr hroomy)
      refine ⟨hmark, holdest, fun hbelow c hc hkind => ?_⟩
      have hnone := hcause ((Bool.not_eq_false' _).mp hbelow)
      exact Bool.false_ne_true (hnone.symm.trans (Port.hasCause_iff.mpr ⟨c, hc, hkind⟩))
    · intro y remains
      have hremains : (t.line l).remains i.next stop = true ↔ remains := remains_iff _ _ _
      exact ⟨fun hmore => hgoes.fills (by rw [hremains]; exact hmore), fun hmark hdone => hgoes.completes_of hremains hmark hdone⟩

end Sys2Proof.Machine
end

section
/-! Proofs: the attachment that an ATTACH makes or updates, and the causes it calls for (R103, R104, R164 to R168). -/

namespace Sys2Proof.Machine

open Host

variable {l : LineId} {s t u v : State} {p q : PortId}

/-! ## Attachments changed one by one -/

/-- A line on which each attachment has changed. -/
def Line.mapAttachments (f : Attachment → Attachment) (x : Line) : Line := { x with att := { x.att with list := x.att.list.map f } }

theorem Line.attachment_mapAttachments {f : Attachment → Attachment} (hf : ∀ a, (f a).port = a.port) (x : Line) (q : PortId) :
    (x.mapAttachments f).attachment q = (x.attachment q).map f := by
  rw [Line.attachment, Line.attachment, Line.mapAttachments, List.find?_map]
  exact congrArg (Option.map f) (congrArg (fun g => x.att.list.find? g) (funext fun a => by rw [Function.comp_apply, hf]))

theorem Line.mapAttachments_id (x : Line) : x.mapAttachments id = x := by rw [Line.mapAttachments, List.map_id]

theorem Line.mapAttachments_mapAttachments (f g : Attachment → Attachment) (x : Line) :
    (x.mapAttachments f).mapAttachments g = x.mapAttachments (g ∘ f) := by
  simp only [Line.mapAttachments, List.map_map]

/-- A change of the attachment of one port. -/
def atPort (p : PortId) (f : Attachment → Attachment) (a : Attachment) : Attachment := if a.port = p then f a else a

theorem atPort_self {a : Attachment} (h : a.port = p) (f : Attachment → Attachment) : atPort p f a = f a := if_pos h

theorem atPort_of_ne {a : Attachment} (h : a.port ≠ p) (f : Attachment → Attachment) : atPort p f a = a := if_neg h

theorem port_atPort {f : Attachment → Attachment} (hf : ∀ a, (f a).port = a.port) (a : Attachment) : (atPort p f a).port = a.port := by
  rw [atPort]
  split
  · exact hf a
  · rfl

theorem line_modAttachment (s : State) (l : LineId) (p : PortId) (f : Attachment → Attachment) :
    (s.modAttachment l p f).line l = (s.line l).mapAttachments (atPort p f) := by
  rw [State.modAttachment_eq, State.modAtt_eq, State.line_modLine_self]
  rfl

/-! ## The causes that an ATTACH calls for (R164, R166 to R168) -/

/-- DATA agrees with the mode of an attachment just made or updated. -/
structure DataAgrees (x : Line) (l : LineId) (y : Port) (b : Attachment) : Prop where
  level : ∀ k, b.mode = .level k → (y.hasCause .data l = true ↔ k.toNat ≤ x.unread b)
  first : ∀ r, b.mode = .first r → (y.hasCause .data l = true ↔ 0 < x.unread b) ∧ r = decide (x.unread b = 0)
  none : b.mode = .none → y.hasCause .data l = false

theorem DataAgrees.of_cause {x : Line} {y z : Port} {b : Attachment} (h : DataAgrees x l y b)
    (hcause : z.hasCause .data l = y.hasCause .data l) : DataAgrees x l z b := by
  obtain ⟨hlevel, hfirst, hnone⟩ := h
  rw [← hcause] at hlevel hfirst hnone
  exact ⟨hlevel, hfirst, hnone⟩

theorem Line.unread_congr {x y : Line} {a b : Attachment} (hclosed : y.closed = x.closed) (holdest : y.cap.oldest = x.cap.oldest)
    (hcursor : b.cursor = a.cursor) (hmark : b.overtaken = a.overtaken) : y.unread b = x.unread a := by
  rw [Line.unread, Line.unread, Line.unreadRecords, Line.unreadRecords, hclosed, holdest, hcursor, hmark]

/-- What an ATTACH works out at its port, from the attachment it has made or updated: its armed flag and the port's causes. -/
structure WorkedOut (l : LineId) (p : PortId) (a : Attachment) (s t : State) (g : Mode → Mode) : Prop where
  line : t.line l = (s.line l).mapAttachments (atPort p fun x => { x with mode := g x.mode })
  mode : (g a.mode).disarmed = a.mode.disarmed
  kept : ∀ k, k ≠ .data → (t.port p).hasCause k l = (s.port p).hasCause k l
  data : DataAgrees (t.line l) l (t.port p) { a with mode := g a.mode }

theorem mapModes_id (x : Line) : x.mapAttachments (atPort p fun y => { y with mode := id y.mode }) = x := by
  have hid : (atPort p fun y => { y with mode := id y.mode }) = id := funext fun y => by
    rw [atPort]
    split <;> rfl
  rw [hid, Line.mapAttachments_id]

theorem unread_mapModes (g : Mode → Mode) (x : Line) (a : Attachment) (m : Mode) :
    (x.mapAttachments (atPort p fun y => { y with mode := g y.mode })).unread { a with mode := m } = x.unread a :=
  Line.unread_congr rfl rfl rfl rfl

theorem attachData_worked_none {a : Attachment} (hmode : a.mode = .none) : WorkedOut l p a s (attachData s l p a) id := by
  have hdata : attachData s l p a = s.unpost p .data l := by rw [attachData, hmode]
  rw [hdata]
  refine ⟨(mapModes_id _).symm, rfl, fun k hk => ?_, fun k h => ?_, fun r h => ?_, fun _ => ?_⟩
  · rw [State.hasCause_unpost]
    simp [hk.symm]
  · exact absurd (hmode.symm.trans h) nofun
  · exact absurd (hmode.symm.trans h) nofun
  · rw [State.hasCause_unpost]
    simp

theorem attachData_worked_level {a : Attachment} {k : Byte} (ha : (s.line l).attachment p = some a) (hmode : a.mode = .level k) :
    WorkedOut l p a s (attachData s l p a) id := by
  have hdata : attachData s l p a = levelData l (s.unpost p .data l) p := by rw [attachData, hmode]
  have hline : (attachData s l p a).line l = s.line l := by
    rw [hdata, State.line, lines_levelData]
    rfl
  have hkept : CausesKept (fun c => decide (c.kind ≠ .data)) (s.unpost p .data l) (levelData l (s.unpost p .data l) p) :=
    .levelData (fun _ => not_data_of_data) _ p
  refine ⟨hline.trans (mapModes_id _).symm, rfl, fun j hj => ?_, fun j h => ?_, fun r h => ?_, fun h => ?_⟩
  · rw [hdata, hkept.hasCause (k := j) (fun c hc => by rw [hc]; exact decide_eq_true hj), State.hasCause_unpost]
    simp [hj.symm]
  · rw [hline, hdata]
    exact hasCause_levelData (s := s.unpost p .data l) ha h
  · exact absurd (hmode.symm.trans h) nofun
  · exact absurd (hmode.symm.trans h) nofun

theorem attachData_worked_first {a : Attachment} {armed : Bool} (ha : (s.line l).attachment p = some a) (hmode : a.mode = .first armed) :
    WorkedOut l p a s (attachData s l p a) fun _ => .first (decide ((s.line l).unread a = 0)) := by
  have hdata : attachData s l p a = completionData l ((s.unpost p .data l).modAttachment l p fun x => { x with mode := .first true }) p := by
    rw [attachData, hmode]
  have harmed : (((s.unpost p .data l).modAttachment l p fun x => { x with mode := .first true }).line l).attachment p
      = some { a with mode := .first true } :=
    State.attachment_modAttachment_self (s := s.unpost p .data l) (fun x => { x with mode := .first true }) (fun _ => rfl) ha
  have hline := line_modAttachment (s.unpost p .data l) l p fun x => { x with mode := .first true }
  have hunread : (((s.unpost p .data l).modAttachment l p fun x => { x with mode := .first true }).line l).unread { a with mode := .first true }
      = (s.line l).unread a := by
    rw [hline]
    exact unread_mapModes (fun _ => .first true) (s.line l) a _
  have hport : ∀ k, (((s.unpost p .data l).modAttachment l p fun x => { x with mode := .first true }).port p).hasCause k l
      = ((s.port p).hasCause k l && !decide (.data = k)) := fun k => by rw [State.port_modAttachment, State.hasCause_unpost]
  generalize (s.unpost p .data l).modAttachment l p (fun x => { x with mode := .first true }) = v at hdata harmed hline hunread hport
  rw [hdata]
  by_cases hzero : (s.line l).unread a = 0
  · rw [completionData_of_idle harmed (.inr (.inr ⟨rfl, hunread.trans hzero⟩)), hzero]
    refine ⟨hline, by rw [hmode]; rfl, fun k hk => ?_, ⟨nofun, fun r h => ?_, nofun⟩⟩
    · rw [hport]
      simp [hk.symm]
    · have hsame : (v.line l).unread { a with mode := .first (decide (0 = 0)) } = 0 := hunread.trans hzero
      rw [hsame, hport]
      exact ⟨by simp, (Mode.first.inj h).symm⟩
  · rw [completionData_of_armed harmed rfl (by rw [hunread]; exact Nat.pos_of_ne_zero hzero), decide_eq_false hzero]
    have hdisarmed := line_modAttachment (v.post p .data l 0) l p fun x => { x with mode := x.mode.disarmed }
    rw [State.line_post, hline, State.line_unpost, Line.mapAttachments_mapAttachments] at hdisarmed
    have htwice : (atPort p fun x => { x with mode := x.mode.disarmed }) ∘ (atPort p fun x => { x with mode := .first true })
        = atPort p fun x => { x with mode := .first false } := funext fun y => by
      by_cases hy : y.port = p
      · rw [Function.comp_apply, atPort_self hy, atPort_self hy]
        exact atPort_self (a := { y with mode := Mode.first true }) hy _
      · rw [Function.comp_apply, atPort_of_ne hy, atPort_of_ne hy, atPort_of_ne hy]
    rw [htwice] at hdisarmed
    refine ⟨hdisarmed, by rw [hmode]; rfl, fun k hk => ?_, ⟨nofun, fun r h => ?_, nofun⟩⟩
    · rw [State.port_modAttachment, State.hasCause_post, hport]
      simp [hk.symm]
    · have hsame : (((v.post p .data l 0).modAttachment l p fun x => { x with mode := x.mode.disarmed }).line l).unread
          { a with mode := .first false } = (s.line l).unread a := by
        rw [hdisarmed]
        exact unread_mapModes (fun _ => .first false) (s.line l) a _
      rw [hsame, State.port_modAttachment, State.hasCause_post, decide_eq_false hzero]
      exact ⟨by simp [Nat.pos_of_ne_zero hzero], (Mode.first.inj h).symm⟩

theorem attachData_worked {a : Attachment} (ha : (s.line l).attachment p = some a) : ∃ g, WorkedOut l p a s (attachData s l p a) g := by
  cases hmode : a.mode with
  | none => exact ⟨_, attachData_worked_none hmode⟩
  | level k => exact ⟨_, attachData_worked_level ha hmode⟩
  | first armed => exact ⟨_, attachData_worked_first ha hmode⟩

/-- CONDITION and DATA as an ATTACH leaves them, OVERTAKEN staying. -/
structure CausesCalled (l : LineId) (p : PortId) (a : Attachment) (s t : State) (g : Mode → Mode) : Prop where
  line : t.line l = (s.line l).mapAttachments (atPort p fun x => { x with mode := g x.mode })
  mode : (g a.mode).disarmed = a.mode.disarmed
  overtaken : (t.port p).hasCause .overtaken l = (s.port p).hasCause .overtaken l
  condition : (t.port p).hasCause .condition l = true ↔ a.conditionEnable = true ∧ a.latch ≠ 0
  data : DataAgrees (t.line l) l (t.port p) { a with mode := g a.mode }

theorem attachCauses_called {a : Attachment} (ha : (s.line l).attachment p = some a) :
    ∃ g, CausesCalled l p a s (attachCauses s l p) g := by
  obtain ⟨g, hline, hmode, hkept, hdata⟩ := attachData_worked ha
  refine ⟨g, ?_⟩
  rw [attachCauses_of_some ha]
  have hovertaken := hkept .overtaken nofun
  generalize attachData s l p a = v at hline hovertaken hdata
  by_cases hcondition : a.conditionEnable = true ∧ a.latch ≠ 0
  · have hcauses : ∀ k, ((v.post p .condition l 0).port p).hasCause k l = (decide (.condition = k) || (v.port p).hasCause k l) :=
      State.hasCause_post v p .condition 0
    rw [if_pos hcondition]
    exact ⟨hline, hmode, (hcauses .overtaken).trans hovertaken, by rw [hcauses]; exact iff_of_true rfl hcondition,
      hdata.of_cause (hcauses .data)⟩
  · have hcauses : ∀ k, ((v.unpost p .condition l).port p).hasCause k l = ((v.port p).hasCause k l && !decide (.condition = k)) :=
      State.hasCause_unpost v p .condition
    rw [if_neg hcondition]
    exact ⟨hline, hmode, (hcauses .overtaken).trans ((Bool.and_true _).trans hovertaken),
      by rw [hcauses]; exact iff_of_false (by simp) hcondition, hdata.of_cause ((hcauses .data).trans (Bool.and_true _))⟩

end Sys2Proof.Machine
end

section
/-! Proofs: ATTACH without the writer flag (R103, R104, R107); the role granted (R105, R106). -/

namespace Sys2Proof.Machine

open Host

variable {l : LineId} {s t u v r : State} {p q w : PortId}

/-! ## The attachment made or updated (R103, R104) -/

/-- An attachment that ATTACH updates in its place. -/
def Attachment.renewed (x : Line) (a : AttachArgs) (old : Attachment) : Attachment :=
  if a.fromOldest then { old.update a with cursor := x.cap.oldest, overtaken := false } else old.update a

theorem Attachment.port_renewed (x : Line) (a : AttachArgs) (old : Attachment) : (old.renewed x a).port = old.port := by
  rw [renewed]
  split <;> rfl

theorem Attachment.role_renewed (x : Line) (a : AttachArgs) (old : Attachment) : (old.renewed x a).role = old.role := by
  rw [renewed]
  split <;> rfl

/-- The attachment of a port that ATTACH passes for. -/
def Line.attachmentMade (x : Line) (p : PortId) (a : AttachArgs) : Attachment :=
  match x.attachment p with
  | none => newAttachment x p a
  | some old => old.renewed x a

/-- A line to which ATTACH has joined an attachment, or on which it has updated one. -/
def Line.attached (x : Line) (p : PortId) (a : AttachArgs) : Line :=
  match x.attachment p with
  | none => { x with att := { x.att with list := x.att.list ++ [newAttachment x p a] } }
  | some _ => x.mapAttachments (atPort p (Attachment.renewed x a))

theorem line_attachOrUpdate (s : State) (l : LineId) (p : PortId) (a : AttachArgs) :
    (attachOrUpdate s l p a).line l = (s.line l).attached p a := by
  rw [Line.attached]
  cases ha : (s.line l).attachment p with
  | none => rw [attachOrUpdate_of_none ha, State.modAtt_eq, State.line_modLine_self]
  | some old =>
    have hupdated := line_modAttachment s l p (Attachment.update a)
    rw [attachOrUpdate_of_some ha]
    cases hold : a.fromOldest with
    | false =>
      have hrenewed : Attachment.renewed (s.line l) a = Attachment.update a := funext fun y => by
        rw [Attachment.renewed, hold, if_neg Bool.false_ne_true]
      rw [if_neg Bool.false_ne_true, hupdated, hrenewed]
    | true =>
      have hrenewed : atPort p (Attachment.renewed (s.line l) a) = (atPort p fun y => { y with overtaken := false })
          ∘ (atPort p fun y => { y with cursor := (s.line l).cap.oldest }) ∘ atPort p (Attachment.update a) := funext fun y => by
        by_cases hy : y.port = p
        · have h₁ : (y.update a).port = p := hy
          have h₂ : ({ y.update a with cursor := (s.line l).cap.oldest } : Attachment).port = p := hy
          rw [Function.comp_apply, Function.comp_apply, atPort_self hy, atPort_self hy, atPort_self h₁, atPort_self h₂,
            Attachment.renewed, hold, if_pos rfl]
        · rw [Function.comp_apply, Function.comp_apply, atPort_of_ne hy, atPort_of_ne hy, atPort_of_ne hy, atPort_of_ne hy]
      rw [if_pos rfl, restart, clearOvertaken, State.line_unpost, line_modAttachment, line_modAttachment, hupdated,
        Line.mapAttachments_mapAttachments, Line.mapAttachments_mapAttachments, hrenewed]
      rfl

theorem attachment_attached (x : Line) (p : PortId) (a : AttachArgs) :
    (x.attached p a).attachment p = some (x.attachmentMade p a) := by
  rw [Line.attached, Line.attachmentMade]
  cases ha : x.attachment p with
  | none =>
    dsimp only
    rw [attachment_append, ha, if_pos (show (newAttachment x p a).port = p from rfl)]
    rfl
  | some old =>
    have hport : old.port = p := by simpa using List.find?_some ha
    dsimp only
    rw [Line.attachment_mapAttachments (port_atPort (Attachment.port_renewed x a)), ha]
    exact congrArg some (atPort_self hport _)

theorem attachment_attached_of_ne (x : Line) (a : AttachArgs) (h : q ≠ p) : (x.attached p a).attachment q = x.attachment q := by
  rw [Line.attached]
  cases ha : x.attachment p with
  | none =>
    dsimp only
    rw [attachment_append, if_neg (show ¬ (newAttachment x p a).port = q from h.symm), Option.or_none]
  | some old =>
    dsimp only
    rw [Line.attachment_mapAttachments (port_atPort (Attachment.port_renewed x a))]
    cases hq : x.attachment q with
    | none => rfl
    | some b =>
      have hport : b.port = q := by simpa using List.find?_some hq
      exact congrArg some (atPort_of_ne (by rw [hport]; exact h) _)

theorem writer_attached (x : Line) (p : PortId) (a : AttachArgs) : (x.attached p a).writer = x.writer := by
  rw [Line.attached]
  split
  · exact writer_append_watcher x rfl
  · have hrole : ∀ y : Attachment, (atPort p (Attachment.renewed x a) y).role = y.role ∧ (atPort p (Attachment.renewed x a) y).port = y.port :=
      fun y => by
        rw [atPort]
        split
        · exact ⟨Attachment.role_renewed x a y, Attachment.port_renewed x a y⟩
        · exact ⟨rfl, rfl⟩
    rw [Line.writer, Line.writer, Line.mapAttachments, List.find?_map, Option.map_map]
    have hfind : (fun y : Attachment => decide (y.role = .writer)) ∘ atPort p (Attachment.renewed x a) = fun y => decide (y.role = .writer) :=
      funext fun y => by rw [Function.comp_apply, (hrole y).1]
    rw [hfind]
    exact congrArg (fun f => Option.map f _) (funext fun y => (hrole y).2)

theorem sameLog_attached (x : Line) (p : PortId) (a : AttachArgs) : x.SameLog (x.attached p a) := by
  rw [Line.attached]
  split <;> exact ⟨rfl, rfl, rfl⟩

/-- OVERTAKEN goes with the mark that from-oldest clears (R104, R162). -/
theorem overtaken_attachOrUpdate (s : State) (l : LineId) (p : PortId) (a : AttachArgs) (h : (s.line l).attachment p ≠ none)
    (hold : a.fromOldest = true) : ((attachOrUpdate s l p a).port p).hasCause .overtaken l = false := by
  obtain ⟨old, ha⟩ := Option.ne_none_iff_exists'.mp h
  rw [attachOrUpdate_of_some ha, if_pos hold, restart, clearOvertaken, State.hasCause_unpost]
  simp

theorem timebase_attachOrUpdate (s : State) (l : LineId) (p : PortId) (a : AttachArgs) : (attachOrUpdate s l p a).timebase = s.timebase := by
  rw [attachOrUpdate]
  split
  · rfl
  · dsimp only
    split <;> rfl

/-! ## ATTACH that passes its checks -/

theorem exec_attach_passes {a : AttachArgs} (hcall : s.calls p l) (hargs : a = attachArgs (s.port p).option (s.port p).count)
    (hbad : a.bad = false) (hlossless : a.lossless = true → (s.line l).io.inForce.flow = true)
    (hrole : a.writer = true → roleRefused s l p a.take = none) :
    exec (.attach p) s = .next (prepare (attachOn (beginCommand s p false) l p a) p
      { position := (((attachOn (beginCommand s p false) l p a).line l).attachment p).map (·.cursor)
        value := some ((attachOn (beginCommand s p false) l p a).line l).cap.oldest }) := by
  change execAttach p s = _
  rw [execAttach, lineCommand_of_calls hcall false, port_beginCommand_self, beginCommand_line]
  have hbegun : attachArgs ((s.port p).begun false).option ((s.port p).begun false).count = a := hargs.symm
  have hcheck : ¬ (a.lossless && !(s.line l).io.inForce.flow) = true := by
    rw [Bool.and_eq_true, Bool.not_eq_true']
    exact fun h => absurd (hlossless h.1) (by rw [h.2]; decide)
  have hgranted : (if a.writer then roleRefused (beginCommand s p false) l p a.take else none) = none := by
    split
    · rename_i hwriter
      rw [roleRefused_beginCommand]
      exact hrole hwriter
    · rfl
  dsimp only
  rw [hbegun, if_neg (by rw [hbad]; decide), if_neg hcheck, hgranted]
  rfl

/-! ## The role granted (R105, R106) -/

/-- An attachment of a line on which the writer role goes to a port. -/
def Attachment.granted (x : Line) (p : PortId) (y : Attachment) : Attachment :=
  { y with role := if y.port = p then if x.writer = some p then y.role else .writer
      else if x.writer = some y.port then .watcher else y.role }

/-- A line without a writer whose port has been made its writer. -/
def promoted (s : State) (l : LineId) (p : PortId) : State := dropDrainMark (setRole s l p .writer) l

theorem line_promoted (h : (s.line l).writer = none) : (promoted s l p).line l
    = { (s.line l).mapAttachments (Attachment.granted (s.line l) p) with tx := { (s.line l).tx with drainMark := none } } := by
  have hgranted : atPort p (fun y => { y with role := .writer }) = Attachment.granted (s.line l) p := funext fun y => by
    rw [Attachment.granted, h]
    by_cases hy : y.port = p
    · rw [atPort_self hy, if_pos hy, if_neg (Option.some_ne_none p).symm]
    · rw [atPort_of_ne hy, if_neg hy, if_neg (Option.some_ne_none _).symm]
  rw [promoted, dropDrainMark, State.modTx_eq, State.line_modLine_self, setRole, line_modAttachment, hgranted]
  rfl

theorem line_takeRole (h : (s.line l).writer = some w) (hwp : w ≠ p) : (takeRole s l w p).line l
    = (s.line l).mapAttachments (Attachment.granted (s.line l) p) := by
  have hgranted : (atPort p fun y => { y with role := .writer }) ∘ (atPort w fun y => { y with role := .watcher })
      = Attachment.granted (s.line l) p := funext fun y => by
    rw [Attachment.granted, h, Function.comp_apply]
    by_cases hy : y.port = p
    · have hw : y.port ≠ w := fun hw => hwp (hw.symm.trans hy)
      rw [atPort_of_ne hw, atPort_self hy, if_pos hy, if_neg fun h => hwp (Option.some.inj h)]
    · rw [if_neg hy]
      by_cases hw : y.port = w
      · have hport : ({ y with role := Role.watcher } : Attachment).port ≠ p := hy
        rw [atPort_self hw, atPort_of_ne hport, if_pos (congrArg some hw.symm)]
      · rw [atPort_of_ne hw, atPort_of_ne hy, if_neg fun h => hw (Option.some.inj h).symm]
  rw [takeRole_eq, State.line_post, setRole, line_modAttachment, setRole, line_modAttachment, Line.mapAttachments_mapAttachments, hgranted]

/-- What follows the record of a granted role: the lease timer, the marks and waits of the transmitter, its queue. -/
structure AfterRecord (l : LineId) (r t : State) : Prop where
  line : t.line l = { r.line l with att := { (r.line l).att with leaseTimer := (t.line l).att.leaseTimer }, tx := (t.line l).tx }
  causes : ∀ q, (t.port q).causes = (r.port q).causes
  timebase : t.timebase = r.timebase

theorem AfterRecord.trans (h : AfterRecord l s t) (k : AfterRecord l t u) : AfterRecord l s u := by
  refine ⟨?_, fun q => (k.causes q).trans (h.causes q), k.timebase.trans h.timebase⟩
  rw [k.line, h.line]

theorem restartLease_after (s : State) (l : LineId) : AfterRecord l s (restartLease s l) :=
  ⟨by rw [restartLease, State.line_modLine_self], fun _ => rfl, rfl⟩

theorem dropDrainMark_after (s : State) (l : LineId) : AfterRecord l s (dropDrainMark s l) :=
  ⟨by rw [dropDrainMark, State.modTx_eq, State.line_modLine_self], fun _ => rfl, rfl⟩

theorem endWaiting_after (s : State) (l : LineId) (code : ErrorCode) : AfterRecord l s (endWaiting s l code) :=
  ⟨by rw [line_endWaiting, if_pos rfl], causes_endWaiting s l code, timebase_endWaiting s l code⟩

theorem emptyQueue_after (s : State) (l : LineId) : AfterRecord l s (emptyQueue s l) :=
  ⟨by rw [emptyQueue, State.line_modLine_self], fun _ => rfl, rfl⟩

theorem AfterRecord.sameLog (h : AfterRecord l r t) : (r.line l).SameLog (t.line l) := by
  rw [h.line]
  exact ⟨rfl, rfl, rfl⟩

/-- A take's record written, the drain mark gone and the wait ended. -/
def takenRole (s : State) (l : LineId) (w p : PortId) : State :=
  endWaiting (dropDrainMark (event (takeRole s l w p) l .writerSet [byteOf p.val, 2]) l) l .writeLost

theorem grantRole_of_none (h : (s.line l).writer = none) (flush : Bool) :
    grantRole s l p flush = restartLease (event (promoted s l p) l .writerSet [byteOf p.val, 1]) l := by
  rw [grantRole, h]
  rfl

theorem grantRole_of_self (h : (s.line l).writer = some p) (flush : Bool) : grantRole s l p flush = restartLease s l := by
  rw [grantRole, h]
  exact if_pos rfl

theorem grantRole_of_take (h : (s.line l).writer = some w) (hwp : w ≠ p) (flush : Bool) :
    grantRole s l p flush = restartLease (if flush then emptyQueue (takenRole s l w p) l else takenRole s l w p) l := by
  rw [grantRole, h]
  exact if_neg hwp

/-- The record of a granted role: none for the writer itself, and WRITER SET otherwise. -/
structure RoleRecord (l : LineId) (g : Attachment → Attachment) (s r : State) : Prop where
  roles : ∃ f : Attachment → Attachment, (∀ y : Attachment, y.Marked (f y)) ∧ (r.line l).att.list = (s.line l).att.list.map (f ∘ g)
  io : (r.line l).io = (s.line l).io
  cond : (r.line l).cond = (s.line l).cond
  watch : (r.line l).watch = (s.line l).watch
  timebase : r.timebase = s.timebase
  noHold : (s.line l).noHold → (r.line l).noHold
  unmarked : (s.line l).unmarked → (r.line l).unmarked
  marks : (s.line l).roomy 14 → ∀ q y, (s.line l).attachment q = some y → ∃ z, (r.line l).attachment q = some z ∧ z.overtaken = y.overtaken
  overtaken : (s.line l).roomy 14 → ∀ q, (r.port q).hasCause .overtaken l = (s.port q).hasCause .overtaken l

/-- A state whose roles have moved, with WRITER SET to come. -/
structure RoleMoved (l : LineId) (p : PortId) (s v : State) : Prop where
  line : v.line l = { (s.line l).mapAttachments (Attachment.granted (s.line l) p) with tx := (v.line l).tx }
  timebase : v.timebase = s.timebase
  overtaken : ∀ q, (v.port q).hasCause .overtaken l = (s.port q).hasCause .overtaken l

theorem RoleMoved.noHold (h : RoleMoved l p s v) (hs : (s.line l).noHold) : (v.line l).noHold := by
  rw [h.line]
  exact hs

theorem RoleMoved.sameLog (h : RoleMoved l p s v) : (s.line l).SameLog (v.line l) := by
  rw [h.line]
  exact ⟨rfl, rfl, rfl⟩

theorem Attachment.port_granted (x : Line) (p : PortId) (y : Attachment) : (y.granted x p).port = y.port := rfl

theorem RoleMoved.attachment (h : RoleMoved l p s v) (q : PortId) :
    (v.line l).attachment q = ((s.line l).attachment q).map (Attachment.granted (s.line l) p) := by
  rw [h.line]
  exact Line.attachment_mapAttachments (Attachment.port_granted (s.line l) p) (s.line l) q

theorem RoleMoved.record (h : RoleMoved l p s v) (x y : Byte) :
    RoleRecord l (Attachment.granted (s.line l) p) s (event v l .writerSet [x, y]) := by
  have hrecorded := event_recorded (l := l) v .writerSet [x, y]
  obtain ⟨-, f, hf, hlist⟩ := id hrecorded
  have hwrote : (s.line l).roomy 14 → _ := fun hs => event_wrote (argument := [x, y]) (h.sameLog.roomy.mpr hs) .writerSet
  refine ⟨⟨f, hf, ?_⟩, ?_, ?_, ?_, hrecorded.timebase.trans h.timebase, fun hs => ?_, fun _ => settle_unmarked _, fun hs q a ha => ?_,
    fun hs q => ?_⟩
  · rw [hlist, h.line, ← List.map_map]
    rfl
  · rw [hrecorded.io, h.line]
    rfl
  · rw [hrecorded.cond, h.line]
    rfl
  · rw [hrecorded.watch, h.line]
    rfl
  · have hv := h.noHold hs
    exact (event_holdKept hv.restful .writerSet [x, y]).noHold hv
  · obtain ⟨b, hb, hsame⟩ := (hwrote hs).told.attachment ((h.attachment q).trans (congrArg (Option.map _) ha))
    exact ⟨b, hb, (congrArg Attachment.overtaken hsame :)⟩
  · rw [(hwrote hs).told.causes.hasCause (k := .overtaken) (fun c hc => by rw [hc]; rfl)]
    exact h.overtaken q

theorem promoted_moved (h : (s.line l).writer = none) : RoleMoved l p s (promoted s l p) := by
  refine ⟨?_, rfl, fun _ => rfl⟩
  rw [line_promoted h]

theorem hasCause_post_of_ne {k k' : CauseKind} (hk : k ≠ k') (s : State) (p q : PortId) (d : Nat) :
    ((s.post p k' l d).port q).hasCause k l = (s.port q).hasCause k l := by
  by_cases hq : q = p
  · subst hq
    rw [State.hasCause_post]
    simp [hk.symm]
  · rw [State.post, State.port_modPort_ne _ _ _ _ hq]

theorem takeRole_moved (h : (s.line l).writer = some w) (hwp : w ≠ p) : RoleMoved l p s (takeRole s l w p) := by
  refine ⟨?_, rfl, fun q => ?_⟩
  · rw [line_takeRole h hwp]
  · rw [takeRole_eq]
    exact hasCause_post_of_ne (k := .overtaken) (k' := .writeLost) nofun (setRole (setRole s l w .watcher) l p .writer) w q 2

theorem granted_self (h : (s.line l).writer = some p) : Attachment.granted (s.line l) p = id := funext fun y => by
  rw [Attachment.granted, h]
  by_cases hy : y.port = p
  · rw [if_pos hy, if_pos rfl]
    rfl
  · rw [if_neg hy, if_neg fun h => hy (Option.some.inj h).symm]
    rfl

theorem RoleRecord.refl (l : LineId) (s : State) : RoleRecord l id s s :=
  ⟨⟨id, Attachment.Marked.refl, (List.map_id _).symm⟩, rfl, rfl, rfl, rfl, id, id, fun _ _ y hy => ⟨y, hy, rfl⟩, fun _ _ => rfl⟩

theorem takenRole_after (s : State) (l : LineId) (w p : PortId) (flush : Bool) :
    AfterRecord l (event (takeRole s l w p) l .writerSet [byteOf p.val, 2])
      (restartLease (if flush then emptyQueue (takenRole s l w p) l else takenRole s l w p) l) := by
  have htaken : AfterRecord l _ (takenRole s l w p) := (dropDrainMark_after _ l).trans (endWaiting_after _ l .writeLost)
  refine AfterRecord.trans ?_ (restartLease_after _ l)
  split
  · exact htaken.trans (emptyQueue_after _ l)
  · exact htaken

/-- The role granted: its record, if there is one, and what follows. -/
theorem grantRole_records (s : State) (l : LineId) (p : PortId) (flush : Bool) :
    ∃ r, RoleRecord l (Attachment.granted (s.line l) p) s r ∧ AfterRecord l r (grantRole s l p flush) := by
  cases h : (s.line l).writer with
  | none =>
    rw [grantRole_of_none h]
    exact ⟨_, (promoted_moved h).record _ _, restartLease_after _ l⟩
  | some w =>
    by_cases hwp : w = p
    · subst hwp
      rw [grantRole_of_self h, granted_self h]
      exact ⟨s, .refl l s, restartLease_after s l⟩
    · rw [grantRole_of_take h hwp]
      exact ⟨_, (takeRole_moved h hwp).record _ _, takenRole_after s l w p flush⟩

/-! ## ATTACH as a whole -/

/-- What an ATTACH does to the role of each attachment. -/
def Attachment.roled (x : Line) (p : PortId) (a : AttachArgs) : Attachment → Attachment := if a.writer then Attachment.granted x p else id

theorem Attachment.port_roled (x : Line) (p : PortId) (a : AttachArgs) (y : Attachment) : (y.roled x p a).port = y.port := by
  rw [roled]
  split <;> rfl

/-- ATTACH up to the causes it calls for. -/
def attachRole (s : State) (l : LineId) (p : PortId) (a : AttachArgs) : State :=
  if a.writer then grantRole (attachOrUpdate s l p a) l p a.flush else attachOrUpdate s l p a

theorem attachOn_eq (s : State) (l : LineId) (p : PortId) (a : AttachArgs) :
    attachOn s l p a = askEvaluation (attachCauses (attachRole s l p a) l p) l := rfl

theorem AfterRecord.refl (l : LineId) (s : State) : AfterRecord l s s := ⟨rfl, fun _ => rfl, rfl⟩

theorem attachRole_records (s : State) (l : LineId) (p : PortId) (a : AttachArgs) :
    ∃ r, RoleRecord l (Attachment.roled ((s.line l).attached p a) p a) (attachOrUpdate s l p a) r ∧ AfterRecord l r (attachRole s l p a)
      ∧ (a.writer = false → r = attachOrUpdate s l p a) := by
  rw [Attachment.roled, attachRole]
  cases hwriter : a.writer with
  | false => exact ⟨_, .refl l _, .refl l _, fun _ => rfl⟩
  | true =>
    obtain ⟨r, hr, hafter⟩ := grantRole_records (attachOrUpdate s l p a) l p a.flush
    rw [line_attachOrUpdate] at hr
    exact ⟨r, hr, hafter, fun h => absurd h Bool.noConfusion⟩

/-- The attachments of a line after a granted role: each as it was, but for its role and its armed flag and mark. -/
theorem attachRole_attachment {a : AttachArgs} {y : Attachment} (hy : ((s.line l).attached p a).attachment q = some y) :
    ∃ z, ((attachRole s l p a).line l).attachment q = some z ∧ (y.roled ((s.line l).attached p a) p a).Marked z := by
  obtain ⟨r, ⟨⟨f, hf, hlist⟩, -⟩, hafter, -⟩ := attachRole_records s l p a
  have hattached : (r.line l).attachment q = some (f (y.roled ((s.line l).attached p a) p a)) := by
    have hport : ∀ b, ((f ∘ Attachment.roled ((s.line l).attached p a) p a) b).port = b.port := fun b =>
      (hf _).port.trans (Attachment.port_roled _ p a b)
    rw [line_attachOrUpdate] at hlist
    have hmapped := Line.attachment_mapAttachments hport ((s.line l).attached p a) q
    rw [hy] at hmapped
    exact (Line.attachment_congr (x := ((s.line l).attached p a).mapAttachments _) hlist q).trans hmapped
  refine ⟨_, ?_, hf _⟩
  rw [hafter.line]
  exact hattached

/-- A port's own attachment as an ATTACH leaves it, before the evaluation. -/
theorem attachCauses_attachment {b : Attachment} {g : Mode → Mode} {t : State} (h : CausesCalled l p b s t g)
    (hb : (s.line l).attachment p = some b) : (t.line l).attachment p = some { b with mode := g b.mode } := by
  have hport : b.port = p := by simpa using List.find?_some hb
  rw [h.line, Line.attachment_mapAttachments (port_atPort (f := fun x => { x with mode := g x.mode }) fun _ => rfl), hb]
  exact congrArg some (atPort_self hport _)

theorem attachCauses_attachment_of_ne {b y : Attachment} {g : Mode → Mode} {t : State} (h : CausesCalled l p b s t g) (hq : q ≠ p)
    (hy : (s.line l).attachment q = some y) : (t.line l).attachment q = some y := by
  have hport : y.port = q := by simpa using List.find?_some hy
  rw [h.line, Line.attachment_mapAttachments (port_atPort (f := fun x => { x with mode := g x.mode }) fun _ => rfl), hy]
  exact congrArg some (atPort_of_ne (by rw [hport]; exact hq) _)

theorem Attachment.marked_mode {b : Attachment} {m : Mode} (h : m.disarmed = b.mode.disarmed) : b.Marked { b with mode := m } := ⟨rfl, h⟩

/-- The attachments of a line after an ATTACH. -/
theorem attachOn_attachment {a : AttachArgs} {y : Attachment} (hy : ((s.line l).attached p a).attachment q = some y) :
    ∃ z, ((attachOn s l p a).line l).attachment q = some z ∧ (y.roled ((s.line l).attached p a) p a).Marked z := by
  obtain ⟨b, hb, -⟩ := attachRole_attachment (attachment_attached (s.line l) p a)
  obtain ⟨g, hcalled⟩ := attachCauses_called hb
  obtain ⟨z, hz, hmarked⟩ := attachRole_attachment hy
  have hcaused : ∃ c, ((attachCauses (attachRole s l p a) l p).line l).attachment q = some c ∧ z.Marked c := by
    by_cases hq : q = p
    · subst hq
      obtain rfl := Option.some.inj (hz.symm.trans hb)
      exact ⟨_, attachCauses_attachment hcalled hb, Attachment.marked_mode hcalled.mode⟩
    · exact ⟨z, attachCauses_attachment_of_ne hcalled hq hz, .refl z⟩
  obtain ⟨c, hc, hzc⟩ := hcaused
  obtain ⟨f, hf, hlast⟩ := (askEvaluation_recorded (l := l) (attachCauses (attachRole s l p a) l p)).attachment q
  rw [hc] at hlast
  exact ⟨_, hlast, (hmarked.trans hzc).trans (hf c)⟩

/-- Where the hold has nothing to do, the evaluation has not either. -/
theorem attachOn_of_noHold (a : AttachArgs) (hhold : (s.line l).noHold) (hmarks : (s.line l).unmarked) :
    attachOn s l p a = attachCauses (attachRole s l p a) l p := by
  obtain ⟨r, hr, hafter, -⟩ := attachRole_records s l p a
  have hlog := sameLog_attached (s.line l) p a
  have hmade : ((s.line l).attached p a).noHold := by
    rw [Line.attached]
    split <;> exact hhold
  have hrhold := hr.noHold (by rw [line_attachOrUpdate]; exact hmade)
  have hrmarks := hr.unmarked (by rw [line_attachOrUpdate]; exact hlog.unmarked.mpr hmarks)
  have hthold : ((attachRole s l p a).line l).noHold := by
    rw [hafter.line]
    exact hrhold
  have htmarks : ((attachRole s l p a).line l).unmarked := by
    rw [hafter.line]
    exact hrmarks
  obtain ⟨b, hb, -⟩ := attachRole_attachment (attachment_attached (s.line l) p a)
  obtain ⟨g, hcalled⟩ := attachCauses_called hb
  rw [attachOn_eq]
  refine askEvaluation_of_restful (Line.noHold.restful ?_) ?_
  · rw [hcalled.line]
    exact hthold
  · rw [hcalled.line]
    exact htmarks

/-- The attachment made keeps its mark and OVERTAKEN up to the evaluation, where WRITER SET takes no page (R104, R162). -/
theorem attachRole_marks (s : State) (l : LineId) (p : PortId) (a : AttachArgs) (h : a.writer = true → (s.line l).roomy 14) :
    (∃ z, ((attachRole s l p a).line l).attachment p = some z ∧ z.overtaken = ((s.line l).attachmentMade p a).overtaken)
      ∧ ((attachRole s l p a).port p).hasCause .overtaken l = ((attachOrUpdate s l p a).port p).hasCause .overtaken l := by
  obtain ⟨r, hr, hafter, hsame⟩ := attachRole_records s l p a
  have hmade := attachment_attached (s.line l) p a
  rw [← line_attachOrUpdate] at hmade
  have hmarks : (∃ z, (r.line l).attachment p = some z ∧ z.overtaken = ((s.line l).attachmentMade p a).overtaken)
      ∧ (r.port p).hasCause .overtaken l = ((attachOrUpdate s l p a).port p).hasCause .overtaken l := by
    cases hwriter : a.writer with
    | false =>
      rw [hsame hwriter]
      exact ⟨⟨_, hmade, rfl⟩, rfl⟩
    | true =>
      have hroomy : ((attachOrUpdate s l p a).line l).roomy 14 := by
        rw [line_attachOrUpdate]
        exact (sameLog_attached _ p a).roomy.mpr (h hwriter)
      exact ⟨hr.marks hroomy p _ hmade, hr.overtaken hroomy p⟩
  obtain ⟨⟨z, hz, hover⟩, hcause⟩ := hmarks
  refine ⟨⟨z, ?_, hover⟩, ?_⟩
  · rw [hafter.line]
    exact hz
  · rw [Port.hasCause, hafter.causes, ← Port.hasCause]
    exact hcause

/-! ## ATTACH without the writer flag (R103, R104, R107) -/

theorem attachOn_onLine {a : AttachArgs} (h : a.writer = false) : OnLine l s (attachOn s l p a) := by
  obtain ⟨-, -, -, honline, -⟩ := attachOrUpdate_lawful s l p a
  rw [attachOn_eq, attachRole, h, if_neg Bool.false_ne_true]
  exact (honline.trans (attachCauses_calm _ p).toOnLine).trans (askEvaluation_sound _).calm.toOnLine

/-- What a master sees of the list of a line after an ATTACH without the writer flag that makes an attachment. -/
theorem standing_attachOn {a : AttachArgs} (h : a.writer = false) (hnone : (s.line l).attachment p = none) :
    ((attachOn s l p a).line l).att.list.map Attachment.standing
      = (s.line l).att.list.map Attachment.standing ++ [(newAttachment (s.line l) p a).standing] := by
  have hmade := attachment_attached (s.line l) p a
  have hline := line_attachOrUpdate s l p a
  rw [Line.attachmentMade, hnone] at hmade
  dsimp only at hmade
  rw [Line.attached, hnone] at hline
  rw [← line_attachOrUpdate] at hmade
  obtain ⟨g, hcalled⟩ := attachCauses_called hmade
  have hask := (askEvaluation_recorded (l := l) (attachCauses (attachOrUpdate s l p a) l p)).standing
  rw [attachOn_eq, attachRole, h, if_neg Bool.false_ne_true, hask, hcalled.line, hline]
  dsimp only [Line.mapAttachments]
  rw [List.map_append, List.map_append, List.map_map]
  have hother : (s.line l).att.list.map (Attachment.standing ∘ atPort p fun x => { x with mode := g x.mode })
      = (s.line l).att.list.map Attachment.standing := by
    refine List.map_congr_left fun y hy => ?_
    have hport : y.port ≠ p := by simpa using List.find?_eq_none.mp hnone y hy
    rw [Function.comp_apply, atPort_of_ne hport]
  have hnew : (atPort p (fun x => { x with mode := g x.mode }) (newAttachment (s.line l) p a)).standing
      = (newAttachment (s.line l) p a).standing := by
    rw [atPort_self (show (newAttachment (s.line l) p a).port = p from rfl)]
    exact (Attachment.marked_mode hcalled.mode).standing
  rw [hother]
  exact congrArg (fun x => _ ++ [x]) hnew

/-- The ports of a list, which an ATTACH without the writer flag that updates an attachment leaves. -/
theorem ports_attachOn (s : State) (l : LineId) (p : PortId) (a : AttachArgs) :
    ((attachOn s l p a).line l).att.list.map (·.port) = ((s.line l).attached p a).att.list.map (·.port) := by
  obtain ⟨r, ⟨⟨f, hf, hlist⟩, -⟩, hafter, -⟩ := attachRole_records s l p a
  obtain ⟨b, hb, -⟩ := attachRole_attachment (attachment_attached (s.line l) p a)
  obtain ⟨g, hcalled⟩ := attachCauses_called hb
  obtain ⟨-, f', hf', hlast⟩ := askEvaluation_recorded (l := l) (attachCauses (attachRole s l p a) l p)
  have hafterList : ((attachRole s l p a).line l).att.list = (r.line l).att.list := by rw [hafter.line]
  rw [attachOn_eq, hlast, hcalled.line]
  dsimp only [Line.mapAttachments]
  rw [hafterList, hlist, line_attachOrUpdate, List.map_map, List.map_map, List.map_map]
  refine List.map_congr_left fun y _ => ?_
  simp only [Function.comp_apply]
  rw [(hf' _).port, port_atPort (f := fun x => { x with mode := g x.mode }) fun _ => rfl, (hf _).port, Attachment.port_roled]

theorem Attachment.standing_eq_iff (a b : Attachment) : a.standing = b.standing ↔ a.port = b.port ∧ a.role = b.role ∧ a.cursor = b.cursor
    ∧ a.mode.disarmed = b.mode.disarmed ∧ a.lossless = b.lossless ∧ a.conditionEnable = b.conditionEnable ∧ a.watchEnable = b.watchEnable := by
  simp only [Attachment.standing, Prod.mk.injEq]

end Sys2Proof.Machine
end

section
/-! Proofs: ATTACH that makes or updates an attachment, and what it tells (R103, R104, R107, R162 to R168). -/

namespace Sys2Proof.Machine

open Host

variable {l : LineId} {s t u v : State} {p q w : PortId}

/-! ## The options and the place of an attachment made or updated -/

/-- An attachment with the options of an ATTACH. -/
structure Attachment.HasOptions (a : AttachArgs) (b : Attachment) : Prop where
  lossless : b.lossless = a.lossless
  conditionEnable : b.conditionEnable = a.conditionEnable
  watchEnable : b.watchEnable = a.watchEnable
  mode : b.mode.disarmed = a.mode.disarmed

theorem Attachment.HasOptions.update (a : AttachArgs) (x : Attachment) : (x.update a).HasOptions a := ⟨rfl, rfl, rfl, rfl⟩

theorem hasOptions_attachmentMade (x : Line) (p : PortId) (a : AttachArgs) : (x.attachmentMade p a).HasOptions a := by
  rw [Line.attachmentMade]
  split
  · exact ⟨rfl, rfl, rfl, rfl⟩
  · rw [Attachment.renewed]
    split <;> exact ⟨rfl, rfl, rfl, rfl⟩

theorem attachmentMade_of_none {x : Line} (h : x.attachment p = none) (a : AttachArgs) : x.attachmentMade p a = newAttachment x p a := by
  rw [Line.attachmentMade, h]

theorem attachmentMade_of_some {x : Line} {old : Attachment} (h : x.attachment p = some old) (a : AttachArgs) :
    x.attachmentMade p a = old.renewed x a := by
  rw [Line.attachmentMade, h]

theorem cursor_renewed (x : Line) (a : AttachArgs) (old : Attachment) :
    (old.renewed x a).cursor = if a.fromOldest then x.cap.oldest else old.cursor := by
  rw [Attachment.renewed]
  split <;> rfl

theorem latch_renewed (x : Line) (a : AttachArgs) (old : Attachment) : (old.renewed x a).latch = old.latch := by
  rw [Attachment.renewed]
  split <;> rfl

theorem overtaken_renewed (x : Line) (a : AttachArgs) (old : Attachment) :
    (old.renewed x a).overtaken = (old.overtaken && !a.fromOldest) := by
  rw [Attachment.renewed]
  cases a.fromOldest <;> simp [Attachment.update]

/-- An attachment as it stands after an ATTACH: its options, its place, and its latch, as the one made, with its role. -/
theorem Attachment.Marked.made {x : Line} {a : AttachArgs} {b : Attachment}
    (h : ((x.attachmentMade p a).roled (x.attached p a) p a).Marked b) : b.HasOptions a ∧ b.cursor = (x.attachmentMade p a).cursor
      ∧ b.latch = (x.attachmentMade p a).latch ∧ (a.writer = false → b.role = (x.attachmentMade p a).role) := by
  have hsame : ∀ y : Attachment, (y.roled (x.attached p a) p a) = { y with role := (y.roled (x.attached p a) p a).role } := fun y => by
    rw [Attachment.roled]
    split <;> rfl
  rw [hsame] at h
  obtain ⟨hb, hmode⟩ := h
  obtain ⟨hlossless, hcondition, hwatch, hdisarmed⟩ := hasOptions_attachmentMade x p a
  refine ⟨⟨?_, ?_, ?_, hmode.trans hdisarmed⟩, ?_, ?_, fun hwriter => ?_⟩ <;> rw [hb]
  · exact hlossless
  · exact hcondition
  · exact hwatch
  · rw [Attachment.roled, hwriter]
    rfl

/-! ## What an ATTACH tells (R162 to R168) -/

/-- The port's causes for the line after an ATTACH, where the hold has nothing to do. -/
theorem attachOn_called {a : AttachArgs} (hhold : (s.line l).noHold) (hmarks : (s.line l).unmarked) :
    ∃ b z, ((attachOn s l p a).line l).attachment p = some b ∧ ((attachRole s l p a).line l).attachment p = some z
      ∧ b.overtaken = z.overtaken
      ∧ DataAgrees ((attachOn s l p a).line l) l ((attachOn s l p a).port p) b
      ∧ (((attachOn s l p a).port p).hasCause .condition l = true ↔ b.conditionEnable = true ∧ b.latch ≠ 0)
      ∧ ((attachOn s l p a).port p).hasCause .overtaken l = ((attachRole s l p a).port p).hasCause .overtaken l := by
  obtain ⟨z, hz, -⟩ := attachRole_attachment (attachment_attached (s.line l) p a)
  obtain ⟨g, hcalled⟩ := attachCauses_called hz
  rw [attachOn_of_noHold a hhold hmarks]
  exact ⟨_, z, attachCauses_attachment hcalled hz, hz, rfl, hcalled.data, hcalled.condition, hcalled.overtaken⟩

theorem Port.no_cause_of_hasCause {x : Port} {k : CauseKind} (h : x.hasCause k l = false) : ∀ c ∈ x.causes, ¬ (c.kind = k ∧ c.line = l) :=
  fun c hc hkind => Bool.false_ne_true (h.symm.trans (Port.hasCause_iff.mpr ⟨c, hc, hkind⟩))

theorem hasCause_prepare (s : State) (p q : PortId) (r : Results) (k : CauseKind) :
    ((prepare s p r).port q).hasCause k l = (s.port q).hasCause k l := by
  rw [Port.hasCause, causes_prepare, ← Port.hasCause]

/-- What an ATTACH leaves of its line where there is no hold and the writer flag is clear. -/
theorem attachOn_quiet {a : AttachArgs} (hwriter : a.writer = false) (hhold : (s.line l).noHold) (hmarks : (s.line l).unmarked) :
    (attachOn s l p a).line l = { s.line l with att := ((attachOn s l p a).line l).att } := by
  have hline := line_attachOrUpdate s l p a
  have hmade := attachment_attached (s.line l) p a
  rw [← hline] at hmade
  obtain ⟨g, hcalled⟩ := attachCauses_called hmade
  rw [attachOn_of_noHold a hhold hmarks, attachRole, hwriter, if_neg Bool.false_ne_true, hcalled.line, hline, Line.attached]
  split <;> rfl

theorem leaseTimer_attachOn {a : AttachArgs} (hwriter : a.writer = false) :
    ((attachOn s l p a).line l).att.leaseTimer = (s.line l).att.leaseTimer := by
  have hline := line_attachOrUpdate s l p a
  have hmade := attachment_attached (s.line l) p a
  rw [← hline] at hmade
  obtain ⟨g, hcalled⟩ := attachCauses_called hmade
  rw [attachOn_eq, (askEvaluation_recorded (l := l) _).leaseTimer, attachRole, hwriter, if_neg Bool.false_ne_true, hcalled.line, hline,
    Line.attached]
  split <;> rfl

theorem answered_of_onLine (h : OnLine l (beginCommand s p false) t) (r : Results) : Answered s (prepare t p r) p r := by
  have hblock := h.sameBlock p
  rw [port_beginCommand_self] at hblock
  exact answered_prepare hblock r

/-- Settles O28: the attachment by `attachOn_attachment`, its causes by `attachOn_called`. -/
theorem attachMakesOrUpdates : Obligations.AttachMakesOrUpdates := by
  refine ⟨fun s p l a hcall hargs hbad hlossless hwriter => ?makes, fun s p l a hcall hargs hbad hlossless hrole hhold hmarks => ?tells⟩
  case makes =>
    have hexec := exec_attach_passes hcall hargs hbad hlossless fun h => absurd (hwriter.symm.trans h) Bool.noConfusion
    have hline := beginCommand_line s p false l
    obtain ⟨b, hb, hmarked⟩ := attachOn_attachment (attachment_attached ((beginCommand s p false).line l) p a)
    obtain ⟨hoptions, hcursor, hlatch, hrole⟩ := hmarked.made
    have hrole := hrole hwriter
    have hanswered := answered_of_onLine (attachOn_onLine (s := beginCommand s p false) (l := l) (p := p) hwriter)
      { position := some b.cursor, value := some ((attachOn (beginCommand s p false) l p a).line l).cap.oldest }
    have hstanding := standing_attachOn (s := beginCommand s p false) (l := l) (p := p) hwriter
    have hports := ports_attachOn (beginCommand s p false) l p a
    have hquiet := attachOn_quiet (s := beginCommand s p false) (l := l) (p := p) hwriter
    have hlease := leaseTimer_attachOn (s := beginCommand s p false) (l := l) (p := p) hwriter
    rw [hb] at hexec
    rw [hline] at hcursor hlatch hrole hstanding hports hquiet hlease hmarked
    generalize attachOn (beginCommand s p false) l p a = u at *
    refine ⟨_, b, hexec, hb, hoptions.lossless, hoptions.conditionEnable, hoptions.watchEnable, hoptions.mode, hanswered, fun hnone => ?_,
      fun old hold => ?_, hlease, fun hhold hmarks => ?_⟩
    · rw [attachmentMade_of_none hnone] at hcursor hlatch hrole hmarked
      refine ⟨hrole, hlatch, hcursor, (hstanding hnone).trans ?_⟩
      have hbstanding := hmarked.standing
      rw [Attachment.roled, hwriter] at hbstanding
      rw [hbstanding]
      rfl
    · rw [attachmentMade_of_some hold] at hcursor hlatch hrole
      refine ⟨hrole.trans (Attachment.role_renewed _ a old), hlatch.trans (latch_renewed _ a old), hcursor.trans (cursor_renewed _ a old),
        hports.trans ?_⟩
      rw [Line.attached, hold]
      dsimp only [Line.mapAttachments]
      rw [List.map_map]
      exact List.map_congr_left fun y _ => port_atPort (Attachment.port_renewed _ a) y
    · have hsame := hquiet hhold (hmarks l)
      have hfields : ∀ x : Line, x = { s.line l with att := x.att } → x.cap = (s.line l).cap ∧ x.pool = (s.line l).pool
          ∧ x.io = (s.line l).io ∧ x.cond = (s.line l).cond ∧ x.tx = (s.line l).tx ∧ x.watch = (s.line l).watch := fun x hx => by
        rw [hx]
        exact ⟨rfl, rfl, rfl, rfl, rfl, rfl⟩
      exact hfields _ hsame
  case tells =>
    have hexec := exec_attach_passes hcall hargs hbad hlossless hrole
    have hline := beginCommand_line s p false l
    have hmarked := attachRole_marks (beginCommand s p false) l p a
    have hclears := overtaken_attachOrUpdate (beginCommand s p false) l p a
    obtain ⟨b, z, hb, hz, hover, ⟨hlevel, hfirst, hnone⟩, hcondition, hcause⟩ :=
      attachOn_called (s := beginCommand s p false) (l := l) (p := p) (a := a) (by rw [hline]; exact hhold) (by rw [hline]; exact hmarks l)
    have hkinds := hasCause_prepare (l := l) (attachOn (beginCommand s p false) l p a) p p
      { position := (((attachOn (beginCommand s p false) l p a).line l).attachment p).map (·.cursor)
        value := some ((attachOn (beginCommand s p false) l p a).line l).cap.oldest }
    rw [hline] at hmarked hclears
    generalize attachOn (beginCommand s p false) l p a = u at *
    generalize ({ position := ((u.line l).attachment p).map (·.cursor), value := some (u.line l).cap.oldest } : Results) = results at *
    refine ⟨_, b, hexec, hb, fun k hk => ?_, fun r hr => ?_, fun hm => ?_, ?_, fun hroomy => ⟨fun hnew => ?_, fun old hold => ⟨?_, fun hold' => ?_⟩⟩⟩
    · rw [← Port.hasCause_iff, hkinds]
      exact hlevel k hk
    · rw [← Port.hasCause_iff, hkinds]
      exact hfirst r hr
    · exact Port.no_cause_of_hasCause ((hkinds .data).trans (hnone hm))
    · rw [← Port.hasCause_iff, hkinds]
      exact hcondition
    · obtain ⟨⟨z', hz', hsame⟩, -⟩ := hmarked hroomy
      obtain rfl := Option.some.inj (hz'.symm.trans hz)
      rw [hover, hsame, attachmentMade_of_none hnew]
      rfl
    · obtain ⟨⟨z', hz', hsame⟩, -⟩ := hmarked hroomy
      obtain rfl := Option.some.inj (hz'.symm.trans hz)
      rw [hover, hsame, attachmentMade_of_some hold, overtaken_renewed]
    · obtain ⟨-, hkept⟩ := hmarked hroomy
      refine Port.no_cause_of_hasCause ((hkinds .overtaken).trans (hcause.trans (hkept.trans (hclears ?_ hold'))))
      rw [hold]
      exact Option.some_ne_none old

end Sys2Proof.Machine
end

section
/-! Proofs: ATTACH with the writer flag granted (R103 to R107, R110, R111). -/

namespace Sys2Proof.Machine

open Host

variable {l : LineId} {s t u v : State} {p q w : PortId} {a : AttachArgs}

/-! ## The writer of a table (R98) -/

/-- On a table the writer's attachment has the role, and the attachment with the role is the writer's. -/
theorem writer_iff_role {x : Line} {b : Attachment} (hports : (x.att.list.map (·.port)).Nodup)
    (hwriters : (x.att.list.filter fun a => decide (a.role = .writer)).length ≤ 1) (hb : x.attachment p = some b) :
    x.writer = some p ↔ b.role = .writer := by
  have hmem : b ∈ x.att.list := List.mem_of_find?_eq_some hb
  have hport : b.port = p := by simpa using List.find?_some hb
  refine ⟨fun h => ?_, fun h => ?_⟩
  · obtain ⟨c, hc, hcp⟩ := Option.map_eq_some_iff.mp h
    have hrole : c.role = .writer := by simpa using List.find?_some hc
    have hsame : c = b := List.inj_on_of_nodup_map hports (List.mem_of_find?_eq_some hc) hmem (hcp.trans hport.symm)
    rw [← hsame]
    exact hrole
  · have hall := watchers_demote x.att.list
    cases hfind : x.att.list.find? fun a => decide (a.role = .writer) with
    | none => exact absurd (decide_eq_true h) (by simpa using List.find?_eq_none.mp hfind b hmem)
    | some c =>
      have hw : (x.att.list.find? fun a => decide (a.role = .writer)).map (·.port) = some c.port := by rw [hfind]; rfl
      have hdemoted := hall c.port hwriters hw _ (List.mem_map_of_mem hmem)
      have hcp : b.port = c.port := by
        by_contra hne
        rw [if_neg hne, h] at hdemoted
        cases hdemoted
      rw [Line.writer, hw, ← hcp, hport]

theorem AttachmentTable.writer_iff {b : Attachment} (h : AttachmentTable s) (hb : (s.line l).attachment p = some b) :
    (s.line l).writer = some p ↔ b.role = .writer := writer_iff_role (h l).1 (h l).2 hb

theorem roleRefused_of_allowed
    (h : ∀ w, (s.line l).writer = some w → w = p ∨ (a.take = true ∧ (s.port w).precedence < (s.port p).precedence)) :
    roleRefused s l p a.take = none := by
  rw [roleRefused]
  split
  · rfl
  · rename_i w hw
    obtain rfl | ⟨htake, hlt⟩ := h w hw
    · exact if_pos rfl
    · rw [htake, if_pos rfl, if_pos hlt]
      exact ite_self none

/-! ## What the causes and the evaluation leave -/

/-- What the causes of an ATTACH and its evaluation leave of the granted role. -/
structure AttachEnds (l : LineId) (p : PortId) (s t : State) : Prop where
  queue : (t.line l).tx.queue = (s.line l).tx.queue
  drainMark : (t.line l).tx.drainMark = (s.line l).tx.drainMark
  waiting : (t.line l).tx.waiting = (s.line l).tx.waiting
  leaseTimer : (t.line l).att.leaseTimer = (s.line l).att.leaseTimer
  writer : (t.line l).writer = (s.line l).writer
  io : (t.line l).io = (s.line l).io
  cond : (t.line l).cond = (s.line l).cond
  watch : (t.line l).watch = (s.line l).watch
  block : ∀ q, (s.port q).SameBlock (t.port q)
  writeLost : ∀ q, q ≠ p → (t.port q).hasCause .writeLost l = (s.port q).hasCause .writeLost l
  tx : (s.line l).noHold → (t.line l).tx = (s.line l).tx

theorem attachOn_ends (s : State) (l : LineId) (p : PortId) (a : AttachArgs) : AttachEnds l p (attachRole s l p a) (attachOn s l p a) := by
  obtain ⟨b, hb, -⟩ := attachRole_attachment (attachment_attached (s.line l) p a)
  obtain ⟨g, hcalled⟩ := attachCauses_called hb
  have hline := hcalled.line
  have hcalm := attachCauses_calm (l := l) (attachRole s l p a) p
  have hother := (attachCauses_forPort (l := l) (attachRole s l p a) p).1
  rw [attachOn_eq]
  generalize attachRole s l p a = r at *
  generalize attachCauses r l p = c at *
  have hrecorded := askEvaluation_recorded (l := l) c
  have hcauses := (causesKept_rule l).askEvaluation c
  have hhold : (c.line l).restful → HoldKept l c (askEvaluation c l) := askEvaluation_holdKept
  generalize askEvaluation c l = t at *
  exact {
    queue := hrecorded.queue.trans (by rw [hline]; rfl)
    drainMark := hrecorded.drainMark.trans (by rw [hline]; rfl)
    waiting := hrecorded.waiting.trans (by rw [hline]; rfl)
    leaseTimer := hrecorded.leaseTimer.trans (by rw [hline]; rfl)
    writer := hrecorded.writer.trans (hcalm.writer l)
    io := hrecorded.io.trans (by rw [hline]; rfl)
    cond := hrecorded.cond.trans (by rw [hline]; rfl)
    watch := hrecorded.watch.trans (by rw [hline]; rfl)
    block := fun q => (hcalm.toOnLine.sameBlock q).trans (hrecorded.sameBlock q)
    writeLost := fun q hq => by rw [hcauses.hasCause (fun _ => Cause.apart_of_writeLost), (hother q hq).1]
    tx := fun hs => by
      have hc : (c.line l).noHold := by
        rw [hline]
        exact hs
      rw [(hhold hc.restful).tx, hline]
      rfl }

/-- The log after a granted role is the log after the ATTACH, where the hold has nothing to do. -/
theorem logsEvent_attachOn {e : Event} {argument : List Byte} (hhold : (s.line l).noHold)
    (h : LogsEvent (attachOrUpdate s l p a) (attachRole s l p a) l e argument) : LogsEvent s (attachOn s l p a) l e argument := by
  intro hroomy
  obtain ⟨b, hb, -⟩ := attachRole_attachment (attachment_attached (s.line l) p a)
  obtain ⟨g, hcalled⟩ := attachCauses_called hb
  have hlog : (s.line l).SameLog ((attachOrUpdate s l p a).line l) := by
    rw [line_attachOrUpdate]
    exact sameLog_attached _ p a
  rw [attachOn_of_noHold a hhold hroomy.unmarked]
  exact h.congr hlog (timebase_attachOrUpdate s l p a) (by rw [hcalled.line]; rfl) (by rw [hcalled.line]; rfl) hroomy

/-! ## The role granted, case by case (R105, R106) -/

theorem RoleMoved.logs {e : State} (h : RoleMoved l p s v) {x y : Byte} (hafter : AfterRecord l (event v l .writerSet [x, y]) e) :
    LogsEvent s e l .writerSet [x, y] := by
  refine (logsEvent_event v l .writerSet [x, y]).congr h.sameLog h.timebase ?_ ?_ <;> rw [hafter.line]

theorem tx_restartLease (s : State) (l : LineId) : ((restartLease s l).line l).tx = (s.line l).tx := by rw [line_restartLease]

theorem port_restartLease (s : State) (l : LineId) (q : PortId) : (restartLease s l).port q = s.port q := rfl

theorem port_emptyQueue (s : State) (l : LineId) (q : PortId) : (emptyQueue s l).port q = s.port q := rfl

theorem tx_emptyQueue (s : State) (l : LineId) :
    ((emptyQueue s l).line l).tx = { cutBreak (s.line l) with queue := [], drainMark := none } := by
  rw [emptyQueue, State.line_modLine_self]

theorem grantRole_none_spec (h : (s.line l).writer = none) (flush : Bool) :
    ((grantRole s l p flush).line l).tx.queue = (s.line l).tx.queue ∧ ((grantRole s l p flush).line l).tx.drainMark = none
      ∧ LogsEvent s (grantRole s l p flush) l .writerSet [byteOf p.val, 1] := by
  have hmoved := promoted_moved (p := p) h
  have hline := line_promoted (p := p) h
  have hrecorded := event_recorded (l := l) (promoted s l p) .writerSet [byteOf p.val, 1]
  have hafter := restartLease_after (event (promoted s l p) l .writerSet [byteOf p.val, 1]) l
  have hlogs := hmoved.logs hafter
  rw [grantRole_of_none h, tx_restartLease]
  refine ⟨hrecorded.queue.trans ?_, hrecorded.drainMark.trans ?_, hlogs⟩
  all_goals rw [hline]

theorem grantRole_self_spec (h : (s.line l).writer = some p) (flush : Bool) :
    (grantRole s l p flush).line l = { s.line l with att := ((grantRole s l p flush).line l).att } := by
  rw [grantRole_of_self h, line_restartLease]

theorem flowSlot_cutBreak (x : Line) : (cutBreak x).flowSlot = x.tx.flowSlot := by
  unfold cutBreak
  split <;> rfl

theorem tx_takenRole (s : State) (l : LineId) (w p : PortId) : ((takenRole s l w p).line l).tx
    = { ((event (takeRole s l w p) l .writerSet [byteOf p.val, 2]).line l).tx with drainMark := none, waiting := none } := by
  rw [takenRole, line_endWaiting, if_pos rfl, dropDrainMark, State.modTx_eq, State.line_modLine_self]

theorem tx_grantRole_take (h : (s.line l).writer = some w) (hwp : w ≠ p) (flush : Bool) : ((grantRole s l p flush).line l).tx
    = if flush then { cutBreak ((takenRole s l w p).line l) with queue := [], drainMark := none } else ((takenRole s l w p).line l).tx := by
  rw [grantRole_of_take h hwp, tx_restartLease]
  cases flush with
  | false => rw [if_neg Bool.false_ne_true, if_neg Bool.false_ne_true]
  | true => rw [if_pos rfl, if_pos rfl, tx_emptyQueue]

/-- The transmitter of a line whose role was taken. -/
theorem grantRole_take_tx (h : (s.line l).writer = some w) (hwp : w ≠ p) (flush : Bool) :
    ((grantRole s l p flush).line l).tx.waiting = none ∧ ((grantRole s l p flush).line l).tx.drainMark = none
      ∧ (flush = false → ((grantRole s l p flush).line l).tx.queue = (s.line l).tx.queue)
      ∧ (flush = true → ((grantRole s l p flush).line l).tx.queue = []
        ∧ ((s.line l).noHold → ((grantRole s l p flush).line l).tx.flowSlot = (s.line l).tx.flowSlot)) := by
  have hmoved := takeRole_moved h hwp
  have hline := line_takeRole h hwp
  have hrecorded := event_recorded (l := l) (takeRole s l w p) .writerSet [byteOf p.val, 2]
  have hkept : (s.line l).noHold → HoldKept l (takeRole s l w p) (event (takeRole s l w p) l .writerSet [byteOf p.val, 2]) := fun hs =>
    event_holdKept (hmoved.noHold hs).restful .writerSet [byteOf p.val, 2]
  have htaken := tx_takenRole s l w p
  have htx : ((takeRole s l w p).line l).tx = (s.line l).tx := by
    rw [hline]
    rfl
  rw [tx_grantRole_take h hwp]
  generalize event (takeRole s l w p) l .writerSet [byteOf p.val, 2] = r at *
  generalize takenRole s l w p = x at *
  cases flush with
  | false =>
    rw [if_neg Bool.false_ne_true, htaken]
    exact ⟨rfl, rfl, fun _ => hrecorded.queue.trans (by rw [htx]), nofun⟩
  | true =>
    rw [if_pos rfl]
    refine ⟨(waiting_cutBreak _).trans (by rw [htaken]), rfl, nofun, fun _ => ⟨rfl, fun hs => ?_⟩⟩
    refine (flowSlot_cutBreak _).trans ?_
    rw [htaken]
    dsimp only
    rw [(hkept hs).tx, htx]

theorem port_grantRole_take (h : (s.line l).writer = some w) (hwp : w ≠ p) (flush : Bool) (q : PortId) :
    (grantRole s l p flush).port q = (takenRole s l w p).port q := by
  rw [grantRole_of_take h hwp, port_restartLease]
  cases flush with
  | false => rw [if_neg Bool.false_ne_true]
  | true => rw [if_pos rfl, port_emptyQueue]

/-- The port that has lost the role: WRITE LOST stands there, and its wait has ended. -/
theorem grantRole_take_port (h : (s.line l).writer = some w) (hwp : w ≠ p) (flush : Bool) :
    ((grantRole s l p flush).port w).hasCause .writeLost l = true
      ∧ ∀ r, (s.line l).tx.waiting = some (.send w r) → ((grantRole s l p flush).port w).idle = true
        ∧ ((grantRole s l p flush).port w).error = .writeLost
        ∧ ((grantRole s l p flush).port w).count = BitVec.ofNat 16 (min r.length 65535) := by
  have hline := line_takeRole h hwp
  have hrecorded := event_recorded (l := l) (takeRole s l w p) .writerSet [byteOf p.val, 2]
  have hcauses := event_causesKept (l := l) (takeRole s l w p) .writerSet [byteOf p.val, 2]
  have hposted : ((takeRole s l w p).port w).hasCause .writeLost l = true := by
    rw [takeRole_eq, State.hasCause_post]
    rfl
  have htx : ((takeRole s l w p).line l).tx.waiting = (s.line l).tx.waiting := by
    rw [hline]
    rfl
  rw [port_grantRole_take h hwp, takenRole]
  generalize takeRole s l w p = v at *
  generalize event v l .writerSet [byteOf p.val, 2] = r at *
  have hdropped : ((dropDrainMark r l).line l).tx.waiting = (s.line l).tx.waiting := by
    rw [dropDrainMark, State.modTx_eq, State.line_modLine_self]
    exact hrecorded.waiting.trans htx
  refine ⟨?_, fun rest hrest => ?_⟩
  · have hkept := hcauses.hasCause (k := .writeLost) (fun _ => Cause.apart_of_writeLost) w l
    rw [Port.hasCause, causes_endWaiting]
    exact hkept.trans hposted
  · have hended := port_endWaiting_of_some .writeLost (hdropped.trans hrest)
    exact ⟨hended.1, hended.2, count_endWaiting_of_send .writeLost (hdropped.trans hrest)⟩

theorem grantRole_take_logs (h : (s.line l).writer = some w) (hwp : w ≠ p) (flush : Bool) :
    LogsEvent s (grantRole s l p flush) l .writerSet [byteOf p.val, 2] := by
  rw [grantRole_of_take h hwp]
  exact (takeRole_moved h hwp).logs (takenRole_after s l w p flush)

/-- The lease timer restarts with the role (R111). -/
theorem leaseTimer_grantRole (flush : Bool) (hwriter : ((grantRole s l p flush).line l).writer.isSome = true) :
    ((grantRole s l p flush).line l).att.leaseTimer
      = if (s.line l).io.inForce.lease = 0 then none else some { start := s.timebase, due := false } := by
  have hrestarts : ∃ x, grantRole s l p flush = restartLease x l := by
    rw [grantRole]
    split
    · exact ⟨_, rfl⟩
    · split <;> exact ⟨_, rfl⟩
  obtain ⟨r, hr, hafter⟩ := grantRole_records s l p flush
  have hio : ((grantRole s l p flush).line l).io = (s.line l).io := by
    rw [hafter.line]
    exact hr.io
  have htime := hafter.timebase.trans hr.timebase
  obtain ⟨x, hx⟩ := hrestarts
  rw [hx] at hwriter hio htime ⊢
  rw [line_restartLease] at hwriter hio
  have hlease := leaseTimer_restartLease (s := x) (l := l) hwriter
  have hiox : (x.line l).io = (s.line l).io := hio
  have htimex : x.timebase = s.timebase := htime
  rw [hlease, hiox, htimex]

/-! ## The ports and the wait -/

theorem port_endWaiting_of_ne (code : ErrorCode) (h : ∀ x, (s.line l).tx.waiting = some x → x.port ≠ p) :
    (endWaiting s l code).port p = s.port p := by
  cases hw : (s.line l).tx.waiting with
  | none => rw [endWaiting_of_none code hw]
  | some x =>
    obtain ⟨r, -, hended⟩ := endWaiting_of_some code hw
    rw [hended, port_finishWaiting, if_neg (h x hw).symm]

theorem sameBlock_grantRole (h : ∀ x, (s.line l).tx.waiting = some x → x.port ≠ p) (flush : Bool) :
    (s.port p).SameBlock ((grantRole s l p flush).port p) := by
  cases hwriter : (s.line l).writer with
  | none =>
    have hrecorded := (event_recorded (l := l) (promoted s l p) .writerSet [byteOf p.val, 1]).sameBlock p
    rw [grantRole_of_none hwriter, port_restartLease]
    exact hrecorded
  | some w =>
    by_cases hwp : w = p
    · subst hwp
      rw [grantRole_of_self hwriter]
      exact .refl _
    · have hrecorded := event_recorded (l := l) (takeRole s l w p) .writerSet [byteOf p.val, 2]
      have hmoved := (onLine_takeRole s l w p).sameBlock p
      have htx : ((takeRole s l w p).line l).tx.waiting = (s.line l).tx.waiting := by
        rw [line_takeRole hwriter hwp]
        rfl
      rw [port_grantRole_take hwriter hwp, takenRole]
      generalize takeRole s l w p = v at *
      generalize event v l .writerSet [byteOf p.val, 2] = r at *
      have hdropped := State.line_modLine_self r l fun x => { x with tx := { x.tx with drainMark := none } }
      rw [port_endWaiting_of_ne]
      · exact hmoved.trans (hrecorded.sameBlock p)
      · intro x hx
        rw [dropDrainMark, State.modTx_eq, hdropped] at hx
        exact h x ((hrecorded.waiting.trans htx).symm.trans hx)

end Sys2Proof.Machine
end

section
/-! Proofs: ATTACH with the writer flag as a whole (R103 to R107, R110, R111). -/

namespace Sys2Proof.Machine

open Host

variable {l : LineId} {s t u v : State} {p q w : PortId} {a : AttachArgs}

/-! ## The line that the role is granted on -/

theorem attached_frame (x : Line) (p : PortId) (a : AttachArgs) : x.attached p a
    = { x with att := { x.att with list := (x.attached p a).att.list } } := by
  rw [Line.attached]
  split <;> rfl

theorem writer_attachOrUpdate (s : State) (l : LineId) (p : PortId) (a : AttachArgs) :
    ((attachOrUpdate s l p a).line l).writer = (s.line l).writer := by rw [line_attachOrUpdate, writer_attached]

theorem tx_attachOrUpdate (s : State) (l : LineId) (p : PortId) (a : AttachArgs) :
    ((attachOrUpdate s l p a).line l).tx = (s.line l).tx := by rw [line_attachOrUpdate, attached_frame]

theorem io_attachOrUpdate (s : State) (l : LineId) (p : PortId) (a : AttachArgs) :
    ((attachOrUpdate s l p a).line l).io = (s.line l).io := by rw [line_attachOrUpdate, attached_frame]

theorem noHold_attachOrUpdate (h : (s.line l).noHold) : ((attachOrUpdate s l p a).line l).noHold := by
  rw [line_attachOrUpdate, attached_frame]
  exact h

theorem attachRole_of_writer (h : a.writer = true) : attachRole s l p a = grantRole (attachOrUpdate s l p a) l p a.flush := if_pos h

theorem attachRole_noHold (h : (s.line l).noHold) : ((attachRole s l p a).line l).noHold := by
  obtain ⟨r, hr, hafter, -⟩ := attachRole_records s l p a
  have hrhold := hr.noHold (noHold_attachOrUpdate h)
  rw [hafter.line]
  exact hrhold

/-- What an ATTACH leaves of its line, whatever becomes of the role. -/
theorem attachOn_frame (s : State) (l : LineId) (p : PortId) (a : AttachArgs) :
    ((attachOn s l p a).line l).io = (s.line l).io ∧ ((attachOn s l p a).line l).cond = (s.line l).cond
      ∧ ((attachOn s l p a).line l).watch = (s.line l).watch := by
  obtain ⟨r, hr, hafter, -⟩ := attachRole_records s l p a
  have hends := attachOn_ends s l p a
  have hline := line_attachOrUpdate s l p a
  rw [attached_frame] at hline
  refine ⟨hends.io.trans ?_, hends.cond.trans ?_, hends.watch.trans ?_⟩ <;> rw [hafter.line]
  · exact hr.io.trans (by rw [hline])
  · exact hr.cond.trans (by rw [hline])
  · exact hr.watch.trans (by rw [hline])

/-! ## The role after an ATTACH with the writer flag -/

theorem attachOn_table (htable : AttachmentTable s) (hwaits : ¬ (s.port p).waits) : AttachmentTable (attachOn s l p a) :=
  (attachOn_served s l p a hwaits).1.table htable

theorem attachOn_writer (hwriter : a.writer = true) (htable : AttachmentTable s) (hwaits : ¬ (s.port p).waits) :
    ((attachOn s l p a).line l).writer = some p := by
  by_cases hself : (s.line l).writer = some p
  · have hmade := (writer_attachOrUpdate s l p a).trans hself
    rw [(attachOn_ends s l p a).writer, attachRole_of_writer hwriter, grantRole_of_self hmade]
    refine (Line.writer_congr ?_).trans hmade
    rw [line_restartLease]
  · have hport : ((s.line l).attachmentMade p a).port = p := by
      simpa using List.find?_some (attachment_attached (s.line l) p a)
    obtain ⟨b, hb, hmarked⟩ := attachOn_attachment (attachment_attached (s.line l) p a)
    refine ((attachOn_table htable hwaits).writer_iff hb).mpr (hmarked.role.trans ?_)
    rw [Attachment.roled, if_pos hwriter, Attachment.granted, writer_attached]
    dsimp only
    rw [if_pos hport, if_neg hself]

theorem leaseTimer_attachOn_writer (hwriter : a.writer = true) (htable : AttachmentTable s) (hwaits : ¬ (s.port p).waits) :
    ((attachOn s l p a).line l).att.leaseTimer
      = if (s.line l).io.inForce.lease = 0 then none else some { start := s.timebase, due := false } := by
  have hends := attachOn_ends s l p a
  have hgranted := hends.writer.symm.trans (attachOn_writer hwriter htable hwaits)
  rw [attachRole_of_writer hwriter] at hgranted
  rw [hends.leaseTimer, attachRole_of_writer hwriter, leaseTimer_grantRole a.flush (by rw [hgranted]; rfl), io_attachOrUpdate,
    timebase_attachOrUpdate]

/-- The role granted on a line without a writer. -/
theorem attachOn_none (hwriter : a.writer = true) (h : (s.line l).writer = none) :
    ((attachOn s l p a).line l).tx.queue = (s.line l).tx.queue ∧ ((attachOn s l p a).line l).tx.drainMark = none
      ∧ ((s.line l).noHold → LogsEvent s (attachOn s l p a) l .writerSet [byteOf p.val, 1]) := by
  have hends := attachOn_ends s l p a
  obtain ⟨hqueue, hmark, hlogs⟩ := grantRole_none_spec (p := p) ((writer_attachOrUpdate s l p a).trans h) a.flush
  rw [tx_attachOrUpdate] at hqueue
  rw [← attachRole_of_writer hwriter] at hqueue hmark hlogs
  exact ⟨hends.queue.trans hqueue, hends.drainMark.trans hmark, fun hhold => logsEvent_attachOn hhold hlogs⟩

/-- The role granted to the writer itself. -/
theorem attachOn_self (hwriter : a.writer = true) (h : (s.line l).writer = some p) :
    ((attachOn s l p a).line l).tx.queue = (s.line l).tx.queue ∧ ((attachOn s l p a).line l).tx.drainMark = (s.line l).tx.drainMark
      ∧ ((s.line l).noHold → (s.line l).unmarked → ((attachOn s l p a).line l).cap = (s.line l).cap
        ∧ ((attachOn s l p a).line l).pool = (s.line l).pool) := by
  have hends := attachOn_ends s l p a
  have hgranted := grantRole_self_spec ((writer_attachOrUpdate s l p a).trans h) a.flush
  rw [← attachRole_of_writer hwriter, line_attachOrUpdate, attached_frame] at hgranted
  refine ⟨hends.queue.trans (by rw [hgranted]), hends.drainMark.trans (by rw [hgranted]), fun hhold hmarks => ?_⟩
  obtain ⟨b, hb, -⟩ := attachRole_attachment (attachment_attached (s.line l) p a)
  obtain ⟨g, hcalled⟩ := attachCauses_called hb
  rw [attachOn_of_noHold a hhold hmarks, hcalled.line, hgranted]
  exact ⟨rfl, rfl⟩

/-- The role taken from another port. -/
structure RoleTaken (l : LineId) (w : PortId) (flush : Bool) (s t : State) (p : PortId) : Prop where
  watcher : ∃ x, (t.line l).attachment w = some x ∧ x.role = .watcher
  lost : ∃ c ∈ (t.port w).causes, c.kind = .writeLost ∧ c.line = l
  waiting : (t.line l).tx.waiting = none
  drainMark : (t.line l).tx.drainMark = none
  ended : ∀ r, (s.line l).tx.waiting = some (.send w r) → (t.port w).idle = true ∧ (t.port w).error = .writeLost
    ∧ (t.port w).count = BitVec.ofNat 16 (min r.length 65535)
  kept : flush = false → (t.line l).tx.queue = (s.line l).tx.queue
  flushed : flush = true → (t.line l).tx.queue = [] ∧ ((s.line l).noHold → (t.line l).tx.flowSlot = (s.line l).tx.flowSlot)
  logs : (s.line l).noHold → LogsEvent s t l .writerSet [byteOf p.val, 2]

theorem attachOn_take (hwriter : a.writer = true) (h : (s.line l).writer = some w) (hwp : w ≠ p) :
    RoleTaken l w a.flush s (attachOn s l p a) p := by
  have hends := attachOn_ends s l p a
  have hmade := (writer_attachOrUpdate s l p a).trans h
  obtain ⟨hwaiting, hmark, hkept, hflushed⟩ := grantRole_take_tx hmade hwp a.flush
  obtain ⟨hlost, hended⟩ := grantRole_take_port hmade hwp a.flush
  have hlogs := grantRole_take_logs hmade hwp a.flush
  rw [← attachRole_of_writer hwriter] at hwaiting hmark hkept hflushed hlost hended hlogs
  rw [tx_attachOrUpdate] at hkept hflushed hended
  obtain ⟨y, hy⟩ := Option.ne_none_iff_exists'.mp (Line.attachment_of_writer h)
  have hport : y.port = w := by simpa using List.find?_some hy
  obtain ⟨x, hx, hmarked⟩ := attachOn_attachment ((attachment_attached_of_ne (s.line l) a hwp).trans hy)
  refine ⟨⟨x, hx, hmarked.role.trans ?_⟩, ?_, hends.waiting.trans hwaiting, hends.drainMark.trans hmark, fun r hr => ?_,
    fun hf => hends.queue.trans (hkept hf), fun hf => ⟨hends.queue.trans (hflushed hf).1, fun hhold => ?_⟩,
    fun hhold => logsEvent_attachOn hhold hlogs⟩
  · rw [Attachment.roled, if_pos hwriter, Attachment.granted, writer_attached, h, hport]
    dsimp only
    rw [if_neg hwp, if_pos rfl]
  · rw [← Port.hasCause_iff, hends.writeLost w hwp]
    exact hlost
  · have hblock : (attachOn s l p a).port w = { (attachRole s l p a).port w with causes := ((attachOn s l p a).port w).causes } :=
      hends.block w
    rw [hblock]
    exact hended r hr
  · rw [hends.tx (attachRole_noHold hhold)]
    exact (hflushed hf).2 (noHold_attachOrUpdate hhold)

/-- A port that waits for nothing keeps its block through an ATTACH of its own. -/
theorem sameBlock_attachOn (hwriter : a.writer = true) (h : ∀ x, (s.line l).tx.waiting = some x → x.port ≠ p) :
    (s.port p).SameBlock ((attachOn s l p a).port p) := by
  have hends := attachOn_ends s l p a
  obtain ⟨-, -, -, honline, -⟩ := attachOrUpdate_lawful s l p a
  have hgranted := sameBlock_grantRole (s := attachOrUpdate s l p a) (p := p) (l := l) (by rw [tx_attachOrUpdate]; exact h) a.flush
  rw [← attachRole_of_writer hwriter] at hgranted
  exact ((honline.sameBlock p).trans hgranted).trans (hends.block p)

/-! ## The other attachments -/

/-- Another port's attachment after an ATTACH with the writer flag: a watcher's, as it was. -/
theorem attachOn_other {x : Attachment} (hwriter : a.writer = true) (htable : AttachmentTable s) (hq : q ≠ p)
    (hx : (s.line l).attachment q = some x) : ∃ y, ((attachOn s l p a).line l).attachment q = some y
      ∧ y.standing = ({ x with role := .watcher } : Attachment).standing ∧ y.latch = x.latch := by
  have hport : x.port = q := by simpa using List.find?_some hx
  obtain ⟨y, hy, hmarked⟩ := attachOn_attachment ((attachment_attached_of_ne (s.line l) a hq).trans hx)
  have hgranted : x.roled ((s.line l).attached p a) p a = { x with role := .watcher } := by
    rw [Attachment.roled, if_pos hwriter, Attachment.granted, writer_attached, hport, if_neg hq]
    by_cases hw : (s.line l).writer = some q
    · rw [if_pos hw]
    · have hrole : x.role = .watcher := by
        cases hr : x.role with
        | watcher => rfl
        | writer => exact absurd ((htable.writer_iff hx).mpr hr) hw
      rw [if_neg hw, hrole]
  rw [hgranted] at hmarked
  exact ⟨y, hy, hmarked.standing, hmarked.latch_eq⟩

theorem ports_attached_of_none {x : Line} (h : x.attachment p = none) (a : AttachArgs) :
    (x.attached p a).att.list.map (·.port) = x.att.list.map (·.port) ++ [p] := by
  rw [Line.attached, h]
  exact List.map_append

theorem ports_attached_of_some {x : Line} {old : Attachment} (h : x.attachment p = some old) (a : AttachArgs) :
    (x.attached p a).att.list.map (·.port) = x.att.list.map (·.port) := by
  rw [Line.attached, h]
  dsimp only [Line.mapAttachments]
  rw [List.map_map]
  exact List.map_congr_left fun y _ => port_atPort (Attachment.port_renewed _ a) y

theorem table_beginCommand (h : AttachmentTable s) (p : PortId) (dataIn : Bool) : AttachmentTable (beginCommand s p dataIn) :=
  h.of_list fun k => by rw [beginCommand_line]

/-- Settles O29: the role case by case; the attachments by `attachOn_attachment`. -/
theorem attachGrantsTheWriterRole : Obligations.AttachGrantsTheWriterRole := by
  refine ⟨fun s p l a hcall hargs hbad hlossless hwriter htable hallowed => ?roles,
    fun s p l a hcall hargs hbad hlossless hwriter htable hagrees hallowed => ?attachments⟩
  case roles =>
    have hexec := exec_attach_passes hcall hargs hbad hlossless fun _ => roleRefused_of_allowed hallowed
    have hline := beginCommand_line s p false l
    have htable' := table_beginCommand htable p false
    have hidle := not_waits_beginCommand s p false
    have hrole := attachOn_writer (l := l) hwriter htable' hidle
    have hlease := leaseTimer_attachOn_writer (l := l) hwriter htable' hidle
    have hnone := attachOn_none (s := beginCommand s p false) (l := l) (p := p) hwriter
    have hself := attachOn_self (s := beginCommand s p false) (l := l) (p := p) hwriter
    have htake : ∀ w, _ → w ≠ p → _ := fun w => attachOn_take (s := beginCommand s p false) (l := l) (p := p) (w := w) hwriter
    generalize attachOn (beginCommand s p false) l p a = u at *
    generalize ({ position := ((u.line l).attachment p).map (·.cursor), value := some (u.line l).cap.oldest } : Results) = results at *
    rw [hline] at hlease hnone hself
    refine ⟨_, hexec, hrole, hlease, fun h => ?_, fun h => ?_, fun w h hwp => ?_⟩
    · obtain ⟨hqueue, hmark, hlogs⟩ := hnone h
      exact ⟨hqueue, hmark, fun hhold => (hlogs hhold).prepared results⟩
    · obtain ⟨hqueue, hmark, hquiet⟩ := hself h
      exact ⟨hqueue, hmark, fun hhold hmarks => hquiet hhold (hmarks l)⟩
    · obtain ⟨hwatcher, hlost, hwaiting, hmark, hended, hkept, hflushed, hlogs⟩ := htake w (by rw [hline]; exact h) hwp
      rw [hline] at hended hkept hflushed hlogs
      have hport : (prepare u p results).port w = u.port w := State.port_modPort_ne _ _ _ _ hwp
      rw [hport]
      exact ⟨hwatcher, hlost, hwaiting, hmark, hended, hkept, hflushed, fun hhold => (hlogs hhold).prepared results⟩
  case attachments =>
    have hexec := exec_attach_passes hcall hargs hbad hlossless fun _ => roleRefused_of_allowed hallowed
    have hline := beginCommand_line s p false l
    have htable' := table_beginCommand htable p false
    have hidle := not_waits_beginCommand s p false
    have hrole := attachOn_writer (l := l) hwriter htable' hidle
    have hattachments := attachOn_table (l := l) (a := a) htable' hidle
    obtain ⟨b, hb, hmarked⟩ := attachOn_attachment (attachment_attached ((beginCommand s p false).line l) p a)
    obtain ⟨hoptions, hcursor, hlatch, -⟩ := hmarked.made
    have hports := ports_attachOn (beginCommand s p false) l p a
    obtain ⟨hio, hcond, hwatch⟩ := attachOn_frame (beginCommand s p false) l p a
    have hother : ∀ q x, q ≠ p → ((beginCommand s p false).line l).attachment q = some x → _ := fun q x =>
      attachOn_other (s := beginCommand s p false) (l := l) (p := p) hwriter htable'
    have hwaits : ∀ x, ((beginCommand s p false).line l).tx.waiting = some x → x.port ≠ p := fun x hx hp => by
      have hphase := (hagrees.1 p l).mpr ⟨x, by rw [hline] at hx; exact hx, hp⟩
      have hready := Port.idle_iff.mp hcall.1.2
      exact nomatch hready.symm.trans hphase
    have hblock := sameBlock_attachOn hwriter hwaits
    rw [port_beginCommand_self] at hblock
    rw [hb] at hexec
    generalize attachOn (beginCommand s p false) l p a = u at *
    rw [hline] at hcursor hlatch hports hio hcond hwatch hother
    refine ⟨_, b, hexec, hb, (hattachments.writer_iff hb).mp hrole, hoptions.lossless, hoptions.conditionEnable, hoptions.watchEnable,
      hoptions.mode, answered_prepare hblock _, fun hnone => ?_, fun old hold => ?_, hother, hio, hcond, hwatch⟩
    · rw [attachmentMade_of_none hnone] at hcursor hlatch
      exact ⟨hlatch, hcursor, hports.trans (ports_attached_of_none hnone a)⟩
    · rw [attachmentMade_of_some hold] at hcursor hlatch
      exact ⟨hlatch.trans (latch_renewed _ a old), hcursor.trans (cursor_renewed _ a old), hports.trans (ports_attached_of_some hold a)⟩

end Sys2Proof.Machine
end

section
/-! Proofs: what the stages of a SET LINE leave of a line (R62, R111, R154, R158). -/

namespace Sys2Proof.Machine

open Host

variable {l : LineId} {s t u v : State} {p q : PortId} {old new : Settings}

/-! ## What every stage leaves -/

/-- Attachments that stand as they stood read with loss if they did so. -/
theorem lossless_of_standing {xs ys : List Attachment} (h : ys.map Attachment.standing = xs.map Attachment.standing)
    (hs : ∀ a ∈ xs, a.lossless = false) : ∀ a ∈ ys, a.lossless = false := by
  intro a ha
  have hmem : a.standing ∈ xs.map Attachment.standing := h ▸ List.mem_map_of_mem ha
  obtain ⟨b, hb, hstanding⟩ := List.mem_map.mp hmem
  have hlossless : b.lossless = a.lossless := congrArg (fun r => r.2.2.2.2.1) hstanding
  exact hlossless ▸ hs b hb

/-- What a stage of SET LINE leaves of a line once its settings are in force: settings, lease timer, the attachments as they stand, queue
and pause; and of a line whose hold has nothing to do the hold and the work of the transmitter. -/
structure Stage (l : LineId) (s t : State) : Prop where
  timebase : t.timebase = s.timebase
  inForce : (t.line l).io.inForce = (s.line l).io.inForce
  settings : (t.line l).io.settings = (s.line l).io.settings
  leaseTimer : (t.line l).att.leaseTimer = (s.line l).att.leaseTimer
  standing : (t.line l).att.list.map Attachment.standing = (s.line l).att.list.map Attachment.standing
  pause : (t.line l).tx.pause = (s.line l).tx.pause
  queue : (t.line l).tx.queue = (s.line l).tx.queue
  hold : (s.line l).noHold → (t.line l).hold.state = (s.line l).hold.state ∧ (t.line l).hold.timer = (s.line l).hold.timer
  work : (s.line l).noHold → (t.line l).tx.state = (s.line l).tx.state ∧ (t.line l).tx.flowSlot = (s.line l).tx.flowSlot

namespace Stage

theorem refl (l : LineId) (s : State) : Stage l s s := ⟨rfl, rfl, rfl, rfl, rfl, rfl, rfl, fun _ => ⟨rfl, rfl⟩, fun _ => ⟨rfl, rfl⟩⟩

theorem noHold (h : Stage l s t) (hs : (s.line l).noHold) : (t.line l).noHold := by
  obtain ⟨hstate, hflow⟩ := hs
  exact ⟨(h.hold ⟨hstate, hflow⟩).1.trans hstate, by rw [h.inForce]; exact hflow⟩

theorem trans (h : Stage l s t) (k : Stage l t u) : Stage l s u where
  timebase := k.timebase.trans h.timebase
  inForce := k.inForce.trans h.inForce
  settings := k.settings.trans h.settings
  leaseTimer := k.leaseTimer.trans h.leaseTimer
  standing := k.standing.trans h.standing
  pause := k.pause.trans h.pause
  queue := k.queue.trans h.queue
  hold hs := by
    obtain ⟨hstate, htimer⟩ := h.hold hs
    obtain ⟨kstate, ktimer⟩ := k.hold (h.noHold hs)
    exact ⟨kstate.trans hstate, ktimer.trans htimer⟩
  work hs := by
    obtain ⟨hstate, hslot⟩ := h.work hs
    obtain ⟨kstate, kslot⟩ := k.work (h.noHold hs)
    exact ⟨kstate.trans hstate, kslot.trans hslot⟩

/-- Records are a stage. -/
theorem of_recorded (h : Recorded l s t) (k : (s.line l).noHold → HoldKept l s t) : Stage l s t where
  timebase := h.timebase
  inForce := by rw [h.io]
  settings := by rw [h.io]
  leaseTimer := h.leaseTimer
  standing := h.standing
  pause := h.pause
  queue := h.queue
  hold hs := ⟨(k hs).state, (k hs).timer⟩
  work hs := by rw [(k hs).tx]; exact ⟨rfl, rfl⟩

theorem event (s : State) (l : LineId) (e : Event) (argument : List Byte) : Stage l s (event s l e argument) :=
  of_recorded (event_recorded s e argument) fun h => event_holdKept h.restful e argument

theorem settle (s : State) (l : LineId) : Stage l s (settle s l) :=
  of_recorded (settle_recorded s) fun h => settle_holdKept h.restful

theorem groupEvent (s : State) (l : LineId) (e : Event) (argument : List Byte) : Stage l s (groupEvent s l e argument) :=
  of_recorded (groupEvent_recorded s e argument) fun _ => (holdKept_rule l).groupEvent s e argument

theorem closeOpen (s : State) (l : LineId) (cause : CloseCause) (detail : Byte) : Stage l s (closeOpen s l cause detail) :=
  of_recorded (closeOpen_recorded s cause detail) fun _ => (holdKept_rule l).closeOpen s cause detail

/-- A stage that changes the line alone. -/
theorem of_line {y : Line} (hline : t.line l = y) (htime : t.timebase = s.timebase)
    (hio : y.io.inForce = (s.line l).io.inForce ∧ y.io.settings = (s.line l).io.settings)
    (hatt : y.att.leaseTimer = (s.line l).att.leaseTimer
      ∧ y.att.list.map Attachment.standing = (s.line l).att.list.map Attachment.standing)
    (htx : y.tx = { (s.line l).tx with inUse := y.tx.inUse }) (hhold : y.hold = (s.line l).hold) : Stage l s t where
  timebase := htime
  inForce := by rw [hline, hio.1]
  settings := by rw [hline, hio.2]
  leaseTimer := by rw [hline, hatt.1]
  standing := by rw [hline, hatt.2]
  pause := by rw [hline, htx]
  queue := by rw [hline, htx]
  hold _ := by rw [hline, hhold]; exact ⟨rfl, rfl⟩
  work _ := by rw [hline, htx]; exact ⟨rfl, rfl⟩

theorem lossless (h : Stage l s t) (hs : ∀ a ∈ (s.line l).att.list, a.lossless = false) :
    ∀ a ∈ (t.line l).att.list, a.lossless = false := lossless_of_standing h.standing hs

end Stage

theorem roles_of_standing {x y : Line} (h : y.att.list.map Attachment.standing = x.att.list.map Attachment.standing) :
    y.roles = x.roles := by
  have hroles : ∀ z : Line, z.roles = (z.att.list.map Attachment.standing).map fun r => (r.1, r.2.1) := fun z => by
    rw [List.map_map]
    rfl
  rw [hroles, hroles, h]

theorem Stage.writer (h : Stage l s t) : (t.line l).writer = (s.line l).writer := by
  rw [Line.writer_eq_roles, Line.writer_eq_roles, roles_of_standing h.standing]

/-! ## The level reported afresh (R45, R57, R58, R60) -/

/-- A line whose receiver watches a level afresh, the report of it still to be taken; the free level has a fresh index (log 13). -/
def watchingAfresh (s : State) (l : LineId) (level : Level) : State :=
  ({ s with freeIndex := s.freeIndex + 1 } : State).modLine l (Line.startWatching level)

theorem line_watchingAfresh (s : State) (l : LineId) (level : Level) :
    (watchingAfresh s l level).line l = (s.line l).startWatching level := State.line_modLine_self _ l _

theorem reportLevelAfresh_eq (s : State) (l : LineId) : reportLevelAfresh s l
    = takeLevelReport (watchingAfresh s l ((s.line l).receiveLevel (freeLevel s.freeIndex))) l
      ((s.line l).receiveLevel (freeLevel s.freeIndex)) := rfl

theorem watchingAfresh_stage (s : State) (level : Level) : Stage l s (watchingAfresh s l level) :=
  .of_line (line_watchingAfresh s l level) rfl ⟨rfl, rfl⟩ ⟨rfl, rfl⟩ rfl rfl

theorem eachLatch_stage (e : CondEvent) (s : State) : Stage l s (eachPort (latchEvent e l) s) :=
  .of_line (line_eachLatch e s) (timebase_eachLatch e s) ⟨rfl, rfl⟩
    ⟨rfl, by rw [Line.latched, List.map_map]; rfl⟩ rfl rfl

theorem conditionEvent_stage (s : State) (e : CondEvent) (argument : List Byte) : Stage l s (conditionEvent s l e argument) :=
  (eachLatch_stage e s).trans (.event _ l _ _)

theorem modCond_stage (s : State) (f : Condition → Condition) : Stage l s (s.modCond l f) :=
  .of_line (State.line_modLine_self s l _) rfl ⟨rfl, rfl⟩ ⟨rfl, rfl⟩ rfl rfl

theorem takeLevelReport_stage (s : State) (level : Level) : Stage l s (takeLevelReport s l level) := by
  unfold takeLevelReport
  split
  · exact (modCond_stage s _).trans (conditionEvent_stage _ _ _)
  · exact modCond_stage s _
  · exact modCond_stage s _
  · exact modCond_stage s _
  · exact modCond_stage s _
  · exact modCond_stage s _
  · exact modCond_stage s _
  · exact .refl l s
  · exact .refl l s
  · exact .refl l s

theorem reportLevelAfresh_stage (s : State) : Stage l s (reportLevelAfresh s l) := by
  rw [reportLevelAfresh_eq]
  exact (watchingAfresh_stage s _).trans (takeLevelReport_stage _ _)

theorem applyPins_stage (s : State) (old : Settings) : Stage l s (applyPins s l old) := by
  unfold applyPins
  dsimp only
  split
  · exact reportLevelAfresh_stage s
  · exact .refl l s

/-! ## FORMAT SET (R74, R79, R89) -/

/-- A SET LINE on a line that stays on writes FORMAT SET: it ends a hunt, or changes the divisor or the format (R62, R74, R79). -/
def Line.formats (x : Line) (old new : Settings) : Prop :=
  x.cond.state = .hunt ∨ old.divisor ≠ new.divisor ∨ old.format ≠ new.format

theorem Line.not_formats {x : Line} (hhunt : x.cond.state ≠ .hunt) (hdivisor : old.divisor = new.divisor)
    (hformat : old.format = new.format) : ¬ x.formats old new := by
  rintro (h | h | h)
  · exact hhunt h
  · exact h hdivisor
  · exact h hformat

/-- A line whose format is set: a hunt has ended, score and watch progress are empty (R74, R79, R89). -/
def Line.formatted (x : Line) : Line :=
  { x with
    cond :=
      { x.cond with
        state := if x.cond.state = .hunt then .run else x.cond.state
        patternProgress := if x.cond.state = .hunt then 0 else x.cond.patternProgress
        huntDiscard := if x.cond.state = .hunt then 0 else x.cond.huntDiscard
        score := [] }
    watch := x.watch.map fun w => { w with progress := 0 } }

theorem line_formatSetEffects (s : State) (l : LineId) : (formatSetEffects s l).line l = { s.line l with
    cond := { (s.line l).cond with score := [] }, watch := (s.line l).watch.map fun w => { w with progress := 0 } } := by
  rw [formatSetEffects, line_resetWatch, State.modCond_eq, State.line_modLine_self]

theorem applyFormat_of_formats (h : (s.line l).formats old (s.line l).io.inForce) :
    applyFormat s l old = event (s.modLine l Line.formatted) l .formatSet (formatSetArgument (s.line l).io.inForce) := by
  unfold applyFormat
  dsimp only
  by_cases hhunt : (s.line l).cond.state = .hunt
  · rw [if_pos hhunt]
    congr 1
    rw [formatSetEffects, resetWatch, State.modCond_eq, State.modCond_eq, State.modLine_modLine, State.modLine_modLine]
    exact State.modLine_congr s l (by simp only [Line.formatted, if_pos hhunt])
  · rw [if_neg hhunt, if_pos (h.resolve_left hhunt)]
    congr 1
    rw [formatSetEffects, resetWatch, State.modCond_eq, State.modLine_modLine]
    exact State.modLine_congr s l (by simp only [Line.formatted, if_neg hhunt])

theorem applyFormat_of_not (h : ¬ (s.line l).formats old (s.line l).io.inForce) : applyFormat s l old = s := by
  obtain ⟨hhunt, hsame⟩ := not_or.mp h
  exact (if_neg hhunt).trans (if_neg hsame)

theorem formatted_stage (s : State) : Stage l s (s.modLine l Line.formatted) :=
  .of_line (State.line_modLine_self s l _) rfl ⟨rfl, rfl⟩ ⟨rfl, rfl⟩ rfl rfl

theorem applyFormat_stage (s : State) (old : Settings) : Stage l s (applyFormat s l old) := by
  by_cases h : (s.line l).formats old (s.line l).io.inForce
  · rw [applyFormat_of_formats h]
    exact (formatted_stage s).trans (.event _ l _ _)
  · rw [applyFormat_of_not h]
    exact .refl l s

/-! ## The maximum record length (R10) -/

theorem applyMaxLength_of_none (h : (s.line l).cap.opened = none) : applyMaxLength s l = s := by
  rw [applyMaxLength, h]

theorem applyMaxLength_of_below {o : OpenRecord} (h : (s.line l).cap.opened = some o)
    (hbelow : o.body.length < (s.line l).io.inForce.maxLength.toNat) : applyMaxLength s l = s := by
  rw [applyMaxLength, h]
  exact if_neg (Nat.not_le.mpr hbelow)

theorem applyMaxLength_of_full {o : OpenRecord} (h : (s.line l).cap.opened = some o)
    (hfull : (s.line l).io.inForce.maxLength.toNat ≤ o.body.length) : applyMaxLength s l = settle (closeOpen s l .full 0) l := by
  rw [applyMaxLength, h]
  exact if_pos hfull

theorem applyMaxLength_cases (s : State) (l : LineId) :
    applyMaxLength s l = s ∨ applyMaxLength s l = settle (closeOpen s l .full 0) l := by
  unfold applyMaxLength
  split
  · exact .inl rfl
  · split
    · exact .inr rfl
    · exact .inl rfl

theorem applyMaxLength_recorded (s : State) : Recorded l s (applyMaxLength s l) := by
  obtain h | h := applyMaxLength_cases s l <;> rw [h]
  · exact .refl l s
  · exact (closeOpen_recorded s _ _).trans (settle_recorded _)

theorem applyMaxLength_stage (s : State) : Stage l s (applyMaxLength s l) := by
  obtain h | h := applyMaxLength_cases s l <;> rw [h]
  · exact .refl l s
  · exact (Stage.closeOpen s l _ _).trans (.settle _ l)

/-! ## The timers under their new durations (R9, R73, R111, R156) -/

/-- The timers of the open record and of the condition under the durations in force, and a pending null under the setting (R9, R69, R73). -/
def Line.retimed (now : Word) (x : Line) : Line :=
  { x with
    cap := { x.cap with idleTimer := x.cap.idleTimer.map (retimeTimer now x.io.inForce.idleGap.toNat) }
    cond :=
      { x.cond with
        downTimer := x.cond.downTimer.map (retimeTimer now x.io.inForce.downTime.toNat)
        upTimer := x.cond.upTimer.map (retimeTimer now x.io.inForce.upTime.toNat)
        nullPending := x.cond.nullPending && x.io.inForce.breakNull } }

/-- The lease timer of a line under the lease in force (R111). -/
def Line.leaseRetimed (now : Word) (old : Settings) (x : Line) : Option Timer :=
  if x.io.inForce.lease = 0 then none
  else if old.lease = 0 then (if x.writer.isSome then some (startTimer now) else none)
  else x.att.leaseTimer.map (retimeTimer now (1000 * x.io.inForce.lease.toNat))

/-- The hold of a line under the hold timeout in force (R156). -/
def Line.holdRetimed (now : Word) (x : Line) : Hold :=
  { x.hold with timer := x.hold.timer.map (retimeTimer now x.io.inForce.holdTimeout.toNat) }

/-- A transmitter, refreshed where it stands at a boundary (R44). -/
def Line.refreshed (x : Line) : Transmit := if x.tx.state.atBoundary then { x.tx with inUse := x.io.inForce.txUse } else x.tx

theorem Line.refreshed_eq (x : Line) : x.refreshed = { x.tx with inUse := x.refreshed.inUse } := by
  rw [Line.refreshed]
  split <;> rfl

/-- The lease timer, the hold timer and the transmitter of a line under the settings in force (R44, R111, R156). -/
def leaseHoldRetimed (s : State) (l : LineId) (old : Settings) : State := refreshTransmitter (retimeHold (retimeLease s l old) l) l

theorem line_leaseHoldRetimed (s : State) (l : LineId) (old : Settings) : (leaseHoldRetimed s l old).line l = { s.line l with
    att := { (s.line l).att with leaseTimer := (s.line l).leaseRetimed s.timebase old }
    hold := (s.line l).holdRetimed s.timebase, tx := (s.line l).refreshed } := by
  rw [leaseHoldRetimed, line_refreshTransmitter, retimeHold, State.line_modLine_self, retimeLease, State.line_modLine_self]
  rfl

/-- Step 4 of R62 but for the level reported afresh. -/
def othersSet (s : State) (l : LineId) (old : Settings) : State :=
  leaseHoldRetimed (applyMaxLength (s.modLine l (Line.retimed s.timebase)) l) l old

theorem applyOthers_on (h : (s.line l).cond.state ≠ .off) (old : Settings) :
    applyOthers s l old = applyPins (othersSet s l old) l old := if_neg h

theorem applyOthers_off (h : (s.line l).cond.state = .off) (old : Settings) : applyOthers s l old = othersSet s l old := if_pos h

theorem line_retimed (s : State) (l : LineId) :
    (s.modLine l (Line.retimed s.timebase)).line l = (s.line l).retimed s.timebase := State.line_modLine_self s l _

theorem retimed_stage (s : State) : Stage l s (s.modLine l (Line.retimed s.timebase)) :=
  .of_line (line_retimed s l) rfl ⟨rfl, rfl⟩ ⟨rfl, rfl⟩ rfl rfl

theorem leaseRetimed_of_stage (h : Stage l s t) (now : Word) (old : Settings) :
    (t.line l).leaseRetimed now old = (s.line l).leaseRetimed now old := by
  rw [Line.leaseRetimed, h.inForce, h.writer, h.leaseTimer]
  rfl

/-- What the other settings leave of a line, and what becomes of its lease timer and of a hold that has nothing to do. -/
structure OthersSet (l : LineId) (old : Settings) (s t : State) : Prop where
  timebase : t.timebase = s.timebase
  inForce : (t.line l).io.inForce = (s.line l).io.inForce
  settings : (t.line l).io.settings = (s.line l).io.settings
  leaseTimer : (t.line l).att.leaseTimer = (s.line l).leaseRetimed s.timebase old
  lossless : (∀ a ∈ (s.line l).att.list, a.lossless = false) → ∀ a ∈ (t.line l).att.list, a.lossless = false
  pause : (t.line l).tx.pause = (s.line l).tx.pause
  queue : (t.line l).tx.queue = (s.line l).tx.queue
  hold : (s.line l).noHold → (t.line l).hold.state = .none
    ∧ (t.line l).hold.timer = (s.line l).hold.timer.map (retimeTimer s.timebase (s.line l).io.inForce.holdTimeout.toNat)
  work : (s.line l).noHold → (t.line l).tx.state = (s.line l).tx.state ∧ (t.line l).tx.flowSlot = (s.line l).tx.flowSlot

theorem OthersSet.then (h : OthersSet l old s t) (k : Stage l t u) : OthersSet l old s u where
  timebase := k.timebase.trans h.timebase
  inForce := k.inForce.trans h.inForce
  settings := k.settings.trans h.settings
  leaseTimer := k.leaseTimer.trans h.leaseTimer
  lossless hs := k.lossless (h.lossless hs)
  pause := k.pause.trans h.pause
  queue := k.queue.trans h.queue
  hold hs := by
    obtain ⟨hstate, htimer⟩ := h.hold hs
    obtain ⟨kstate, ktimer⟩ := k.hold ⟨hstate, by rw [h.inForce]; exact hs.2⟩
    exact ⟨kstate.trans hstate, ktimer.trans htimer⟩
  work hs := by
    obtain ⟨hstate, hslot⟩ := h.work hs
    obtain ⟨kstate, kslot⟩ := k.work ⟨(h.hold hs).1, by rw [h.inForce]; exact hs.2⟩
    exact ⟨kstate.trans hstate, kslot.trans hslot⟩

theorem leaseHoldRetimed_others (h : Stage l s t) (old : Settings) : OthersSet l old s (leaseHoldRetimed t l old) := by
  have hline := line_leaseHoldRetimed t l old
  have hrefreshed := (t.line l).refreshed_eq
  generalize (t.line l).refreshed = tx at hline hrefreshed
  constructor
  case timebase => exact h.timebase
  case inForce => rw [hline]; exact h.inForce
  case settings => rw [hline]; exact h.settings
  case leaseTimer => rw [hline]; exact (leaseRetimed_of_stage h _ old).trans (by rw [h.timebase])
  case lossless =>
    rw [hline]
    exact h.lossless
  case pause => rw [hline, hrefreshed]; exact h.pause
  case queue => rw [hline, hrefreshed]; exact h.queue
  case hold =>
    intro hs
    obtain ⟨hstate, htimer⟩ := h.hold hs
    rw [hline]
    exact ⟨hstate.trans hs.1, by rw [Line.holdRetimed, htimer, h.inForce, h.timebase]⟩
  case work => rw [hline, hrefreshed]; exact h.work

theorem othersSet_others (s : State) (l : LineId) (old : Settings) : OthersSet l old s (othersSet s l old) :=
  leaseHoldRetimed_others ((retimed_stage s).trans (applyMaxLength_stage _)) old

theorem applyOthers_others (s : State) (l : LineId) (old : Settings) : OthersSet l old s (applyOthers s l old) := by
  by_cases h : (s.line l).cond.state = .off
  · rw [applyOthers_off h]
    exact othersSet_others s l old
  · rw [applyOthers_on h]
    exact (othersSet_others s l old).then (applyPins_stage _ old)

end Sys2Proof.Machine
end

section
/-! Proofs: the flow option turned off (R55, R158), and a line turned off (R59, R66, R159). -/

namespace Sys2Proof.Machine

open Host

variable {l : LineId} {s t u v : State} {p q : PortId} {old new : Settings}

/-! ## What the transmitter leaves when a pause or a hold ends -/

/-- What the work that a transmitter takes leaves of its line, with the records that it writes. -/
structure TxStage (l : LineId) (s t : State) : Prop where
  timebase : t.timebase = s.timebase
  io : (t.line l).io = (s.line l).io
  cond : (t.line l).cond = (s.line l).cond
  watch : (t.line l).watch = (s.line l).watch
  leaseTimer : (t.line l).att.leaseTimer = (s.line l).att.leaseTimer
  standing : (t.line l).att.list.map Attachment.standing = (s.line l).att.list.map Attachment.standing
  hold : (s.line l).noHold → (t.line l).hold.state = (s.line l).hold.state ∧ (t.line l).hold.timer = (s.line l).hold.timer

namespace TxStage

theorem refl (l : LineId) (s : State) : TxStage l s s := ⟨rfl, rfl, rfl, rfl, rfl, rfl, fun _ => ⟨rfl, rfl⟩⟩

theorem noHold (h : TxStage l s t) (hs : (s.line l).noHold) : (t.line l).noHold := by
  obtain ⟨hstate, hflow⟩ := hs
  exact ⟨(h.hold ⟨hstate, hflow⟩).1.trans hstate, by rw [h.io]; exact hflow⟩

theorem trans (h : TxStage l s t) (k : TxStage l t u) : TxStage l s u where
  timebase := k.timebase.trans h.timebase
  io := k.io.trans h.io
  cond := k.cond.trans h.cond
  watch := k.watch.trans h.watch
  leaseTimer := k.leaseTimer.trans h.leaseTimer
  standing := k.standing.trans h.standing
  hold hs := by
    obtain ⟨hstate, htimer⟩ := h.hold hs
    obtain ⟨kstate, ktimer⟩ := k.hold (h.noHold hs)
    exact ⟨kstate.trans hstate, ktimer.trans htimer⟩

theorem event (s : State) (l : LineId) (e : Event) (argument : List Byte) : TxStage l s (event s l e argument) where
  timebase := (event_recorded (l := l) s e argument).timebase
  io := (event_recorded (l := l) s e argument).io
  cond := (event_recorded (l := l) s e argument).cond
  watch := (event_recorded (l := l) s e argument).watch
  leaseTimer := (event_recorded (l := l) s e argument).leaseTimer
  standing := (event_recorded (l := l) s e argument).standing
  hold hs := ⟨(event_holdKept hs.restful e argument).state, (event_holdKept hs.restful e argument).timer⟩

/-- A change of the transmitter alone. -/
theorem of_tx {tx : Transmit} (hline : t.line l = { s.line l with tx := tx }) (htime : t.timebase = s.timebase) : TxStage l s t := by
  constructor
  case timebase => exact htime
  case hold =>
    rw [hline]
    exact fun _ => ⟨rfl, rfl⟩
  all_goals rw [hline]

end TxStage

theorem startPoint_txStage (s : State) (l : LineId) : TxStage l s (startPoint s l) := by
  cases hflow : (s.line l).tx.flowSlot with
  | some c =>
    rw [startPoint_of_flow hflow]
    exact .of_tx (State.line_modLine_self s l _) rfl
  | none =>
    cases hpause : (s.line l).tx.pause with
    | true =>
      rw [startPoint_of_pause hflow hpause]
      exact .of_tx (State.line_modLine_self s l _) rfl
    | false =>
      match hqueue : (s.line l).tx.queue with
      | [] =>
        rw [startPoint_of_empty hflow hpause hqueue]
        exact .of_tx (State.line_modLine_self s l _) rfl
      | .character b :: rest =>
        rw [startPoint_of_character hflow hpause hqueue]
        exact .of_tx (line_takeEntry s l rest _) (timebase_takeEntry s l rest _)
      | .marker d q :: rest =>
        rw [startPoint_of_marker hflow hpause hqueue]
        exact (TxStage.of_tx (line_takeEntry s l rest _) (timebase_takeEntry s l rest _)).trans (.event _ l _ _)

theorem endPause_txStage (s : State) (l : LineId) : TxStage l s (endPause s l) := by
  have hended : TxStage l s (s.modTx l fun x => { x with pause := false }) := .of_tx (State.line_modLine_self s l _) rfl
  by_cases h : (s.line l).tx.state = .paused
  · rw [endPause_of_paused h]
    exact hended.trans (startPoint_txStage _ l)
  · rw [endPause_of_unpaused h]
    exact hended

theorem placeFlow_txStage (s : State) (l : LineId) (c : FlowChar) : TxStage l s (placeFlow s l c) := by
  refine .of_tx (line_placeFlow_frame s l c) ?_
  unfold placeFlow
  split
  · rfl
  · split <;> rfl

/-! ## The flow option turned off (R55, R158) -/

/-- An attachment whose lossless flag is cleared (R158). -/
def Attachment.lossy (a : Attachment) : Attachment := { a with lossless := false }

/-- A line whose attachments read with loss, and whose pause is over (R55, R158). -/
def Line.flowless (x : Line) : Line :=
  { x with att := { x.att with list := x.att.list.map Attachment.lossy }, tx := { x.tx with pause := false } }

/-- The end of the hold where the flow option goes off (R158). -/
def holdEnded (s : State) (l : LineId) : State :=
  match (s.line l).hold.state with
  | .held => event (placeFlow (leaveHold s l .none) l .xon) l .holdEnd []
  | .spent => leaveHold s l .none
  | .none => s

/-- The lossless flags of a line cleared (R158). -/
def losslessCleared (s : State) (l : LineId) : State :=
  s.modAtt l fun x => { x with list := x.list.map Attachment.lossy }

theorem turnFlowOff_eq (s : State) (l : LineId) : turnFlowOff s l = endPause (losslessCleared (holdEnded s l) l) l := rfl

theorem line_losslessCleared (s : State) (l : LineId) : (losslessCleared s l).line l
    = { s.line l with att := { (s.line l).att with list := (s.line l).att.list.map Attachment.lossy } } :=
  State.line_modLine_self s l _

theorem holdEnded_of_held (h : (s.line l).hold.state = .held) :
    holdEnded s l = event (placeFlow (leaveHold s l .none) l .xon) l .holdEnd [] := by rw [holdEnded, h]

theorem holdEnded_of_spent (h : (s.line l).hold.state = .spent) : holdEnded s l = leaveHold s l .none := by rw [holdEnded, h]

theorem holdEnded_of_none (h : (s.line l).hold.state = .none) : holdEnded s l = s := by rw [holdEnded, h]

theorem line_leaveHold (s : State) (l : LineId) (h : HoldState) :
    (leaveHold s l h).line l = { s.line l with hold := { (s.line l).hold with state := h, timer := none } } :=
  State.line_modLine_self s l _

/-- On a line without a hold that is not paused, the flow option turned off clears flags only. -/
theorem turnFlowOff_quietly (hhold : (s.line l).hold.state = .none) (hpaused : (s.line l).tx.state ≠ .paused) :
    turnFlowOff s l = s.modLine l Line.flowless := by
  rw [turnFlowOff_eq, holdEnded_of_none hhold, endPause_of_unpaused (by rw [line_losslessCleared]; exact hpaused), losslessCleared,
    State.modTx_eq, State.modAtt_eq, State.modLine_modLine]
  rfl

/-- What the flow option turned off leaves of a line, and what becomes of hold, pause and flags (R55, R158). -/
structure FlowEnded (l : LineId) (s t : State) : Prop where
  timebase : t.timebase = s.timebase
  io : (t.line l).io = (s.line l).io
  cond : (t.line l).cond = (s.line l).cond
  watch : (t.line l).watch = (s.line l).watch
  leaseTimer : (t.line l).att.leaseTimer = (s.line l).att.leaseTimer
  pause : (t.line l).tx.pause = false
  lossless : ∀ a ∈ (t.line l).att.list, a.lossless = false
  state : (t.line l).hold.state = .none
  timer : (s.line l).hold.state ≠ .none → (t.line l).hold.timer = none

theorem leaveHold_noHold (h : (s.line l).io.inForce.flow = false) : ((leaveHold s l .none).line l).noHold := by
  rw [line_leaveHold]
  exact ⟨rfl, h⟩

/-- The end of the hold leaves the rest of the line, and no hold. -/
theorem holdEnded_txStage (s : State) (l : LineId) : ∃ v, TxStage l v (holdEnded s l) ∧ v.timebase = s.timebase
    ∧ v.line l = { s.line l with hold := (v.line l).hold } ∧ (v.line l).hold.state = .none
    ∧ ((s.line l).hold.state ≠ .none → (v.line l).hold.timer = none) := by
  have hleft := line_leaveHold s l .none
  cases hstate : (s.line l).hold.state with
  | held =>
    rw [holdEnded_of_held hstate]
    refine ⟨_, (placeFlow_txStage _ l _).trans (.event _ l _ _), rfl, ?_⟩
    rw [hleft]
    exact ⟨rfl, rfl, fun _ => rfl⟩
  | spent =>
    rw [holdEnded_of_spent hstate]
    refine ⟨_, .refl l _, rfl, ?_⟩
    rw [hleft]
    exact ⟨rfl, rfl, fun _ => rfl⟩
  | none =>
    rw [holdEnded_of_none hstate]
    exact ⟨s, .refl l s, rfl, rfl, hstate, fun h => absurd rfl h⟩

theorem turnFlowOff_ended (hflow : (s.line l).io.inForce.flow = false) : FlowEnded l s (turnFlowOff s l) := by
  obtain ⟨v, hv, htime, hline, hstate, htimer⟩ := holdEnded_txStage s l
  have hvhold : (v.line l).noHold := ⟨hstate, by rw [hline]; exact hflow⟩
  have hcleared := line_losslessCleared (holdEnded s l) l
  rw [turnFlowOff_eq]
  generalize holdEnded s l = c at hv hcleared ⊢
  have hctime : (losslessCleared c l).timebase = c.timebase := rfl
  generalize losslessCleared c l = w at hcleared hctime ⊢
  have hlast := endPause_txStage w l
  have hhold := hlast.hold (by rw [hcleared]; exact hv.noHold hvhold)
  rw [hcleared] at hhold
  obtain ⟨hfirst, hfirsttimer⟩ := hv.hold hvhold
  constructor
  case timebase => exact ((hlast.timebase.trans hctime).trans hv.timebase).trans htime
  case io => rw [hlast.io, hcleared]; exact hv.io.trans (by rw [hline])
  case cond => rw [hlast.cond, hcleared]; exact hv.cond.trans (by rw [hline])
  case watch => rw [hlast.watch, hcleared]; exact hv.watch.trans (by rw [hline])
  case leaseTimer => rw [hlast.leaseTimer, hcleared]; exact hv.leaseTimer.trans (by rw [hline])
  case pause => exact (endPause_kept _ l).1
  case lossless =>
    refine lossless_of_standing hlast.standing ?_
    rw [hcleared]
    intro a ha
    obtain ⟨b, -, rfl⟩ := List.mem_map.mp ha
    rfl
  case state => exact hhold.1.trans (hfirst.trans hstate)
  case timer => exact fun h => hhold.2.trans (hfirsttimer.trans (htimer h))

/-! ## Records of a line that is off (R56) -/

/-- Records leave the condition of a line, and the transmitter too while the line is off: a flow character is dropped there (R56). -/
def OffKept (l : LineId) (s t : State) : Prop :=
  (t.line l).cond = (s.line l).cond ∧ ((s.line l).cond.state = .off → (t.line l).tx = (s.line l).tx)

theorem OffKept.of_recorded (h : Recorded l s t) (k : HoldKept l s t) : OffKept l s t := ⟨h.cond, fun _ => k.tx⟩

theorem offKept_rule (l : LineId) : WriteRule l (OffKept l) where
  refl s := ⟨rfl, fun _ => rfl⟩
  trans h k := ⟨k.1.trans h.1, fun hoff => (k.2 (by rw [h.1]; exact hoff)).trans (h.2 hoff)⟩
  asks s f hf := ⟨by rw [State.line_modLine_self, hf.1], fun _ => ((holdKept_rule l).asks s f hf).tx⟩
  give s n rest := .of_recorded (giveFree_recorded s n rest) ((holdKept_rule l).give s n rest)
  recycle s oldest rest hp :=
    .of_recorded ((recyclePage_recorded s oldest rest).trans (noted_recorded (reportAdvance_noted _ _)))
      ((holdKept_rule l).recycle s oldest rest hp)
  place s kind cause detail body :=
    .of_recorded ((placeRecord_recorded s kind cause detail body).trans (.of_work (reportComplete_work _)))
      ((holdKept_rule l).place s kind cause detail body)
  close s o cause detail ho :=
    .of_recorded (closeOpen_of_some (l := l) ho cause detail ▸ closeOpen_recorded s cause detail)
      ((holdKept_rule l).close s o cause detail ho)

theorem placeFlow_offKept (s : State) (c : FlowChar) : OffKept l s (placeFlow s l c) :=
  ⟨(placeFlow_txStage s l c).cond, fun hoff => by rw [placeFlow, if_pos hoff]⟩

theorem evaluateHold_offKept (s : State) : OffKept l s (evaluateHold s l) :=
  (offKept_rule l).evaluateHold (fun s f => by
    rw [OffKept, State.modHold_eq, State.line_modLine_self]
    exact ⟨rfl, fun _ => rfl⟩) placeFlow_offKept s

end Sys2Proof.Machine
end

section
/-! Proofs: a SET LINE applied: the settings in force, the lease, and the stages of each of its four cases (R59, R60, R62, R111). -/

namespace Sys2Proof.Machine

open Host

variable {l : LineId} {s t u v : State} {p q : PortId} {old new f : Settings} {b : Bool}

/-! ## A line turned off (R59, R66, R159) -/

/-- The condition of a line that is turned off (R59). -/
def Condition.turnedOff (x : Condition) : Condition :=
  { x with
    state := .off, downTimer := none, upTimer := none, patternProgress := 0, huntDiscard := 0
    nullPending := false, huntOnUp := false }

/-- The transmitter of a line that is turned off, its waiting SEND ended (R59). -/
def Line.txStopped (x : Line) : Transmit :=
  { x.tx with
    queue := [], flowSlot := none, state := .idle, pause := false, drainMark := none, inUse := x.io.inForce.txUse, waiting := none }

/-- A line that is turned off, LINE OFF still to be written (R59, R159). -/
def Line.stopped (x : Line) : Line :=
  { x with
    io := { x.io with receiver := .waitMarking }, cond := x.cond.turnedOff, tx := x.txStopped, hold := x.hold.told }

/-- The line of a state turned off, its waiting SEND still to be ended (R59). -/
def offSwitched (s : State) (l : LineId) : State :=
  tellHold
    (s.modLine l fun x =>
      { x with
        io := { x.io with receiver := .waitMarking }
        cond :=
          { x.cond with
            state := .off, downTimer := none, upTimer := none, nullPending := false, huntOnUp := false
            patternProgress := 0, huntDiscard := 0 }
        tx :=
          { x.tx with
            queue := [], flowSlot := none, state := .idle, pause := false, drainMark := none, inUse := x.io.inForce.txUse } }) l

/-- The line of a state turned off, LINE OFF still to be written (R59). -/
def lineStopped (s : State) (l : LineId) : State := endWaiting (offSwitched s l) l .lineOff

theorem turnLineOff_eq (s : State) (l : LineId) : turnLineOff s l
    = eventWithHoldEnd (decide ((s.line l).hold.state = .held)) (lineStopped s l) l .lineOff [] := rfl

theorem line_offSwitched (s : State) (l : LineId) : (offSwitched s l).line l
    = { (s.line l).stopped with tx := { (s.line l).txStopped with waiting := (s.line l).tx.waiting } } := by
  rw [offSwitched, line_tellHold, State.line_modLine_self]
  rfl

theorem line_lineStopped (s : State) (l : LineId) : (lineStopped s l).line l = (s.line l).stopped := by
  rw [lineStopped, line_endWaiting, if_pos rfl, line_offSwitched]
  rfl

theorem timebase_tellHold (s : State) (l : LineId) : (tellHold s l).timebase = s.timebase := by
  unfold tellHold
  split <;> rfl

theorem timebase_lineStopped (s : State) (l : LineId) : (lineStopped s l).timebase = s.timebase :=
  (timebase_endWaiting _ l _).trans (timebase_tellHold _ l)

theorem Line.sameLog_stopped (x : Line) : x.SameLog x.stopped := ⟨rfl, rfl, x.hold.evalDue_told⟩

theorem withHoldEnd_recorded (b : Bool) (s : State) (e : Event) (argument : List Byte) :
    Recorded l s (eventWithHoldEnd b s l e argument) := by
  cases b with
  | true => exact ((groupEvent_recorded s e argument).trans (groupEvent_recorded _ _ _)).trans (settle_recorded _)
  | false => exact event_recorded s e argument

theorem withHoldEnd_stage (b : Bool) (s : State) (e : Event) (argument : List Byte) :
    Stage l s (eventWithHoldEnd b s l e argument) := by
  cases b with
  | true => exact ((Stage.groupEvent s l e argument).trans (.groupEvent _ l _ _)).trans (.settle _ l)
  | false => exact .event s l e argument

theorem withHoldEnd_offKept (b : Bool) (s : State) (e : Event) (argument : List Byte) :
    OffKept l s (eventWithHoldEnd b s l e argument) := by
  cases b with
  | true =>
    rw [eventWithHoldEnd_true]
    have hfirst := (offKept_rule l).groupEvent s e argument
    generalize groupEvent s l e argument = v at hfirst ⊢
    have hsecond := (offKept_rule l).groupEvent v .holdEnd []
    generalize groupEvent v l .holdEnd [] = w at hsecond ⊢
    exact (offKept_rule l).trans ((offKept_rule l).trans hfirst hsecond) ((offKept_rule l).settle evaluateHold_offKept w)
  | false =>
    rw [eventWithHoldEnd_false]
    exact (offKept_rule l).event evaluateHold_offKept s e argument

theorem opened_settle (h : (s.line l).cap.opened = none) : ((settle s l).line l).cap.opened = none := (settle_recorded s).opened h

theorem opened_eventWithHoldEnd (b : Bool) (s : State) (l : LineId) (e : Event) (argument : List Byte) :
    ((eventWithHoldEnd b s l e argument).line l).cap.opened = none := by
  cases b with
  | true =>
    rw [eventWithHoldEnd_true]
    exact opened_settle (opened_withHoldEnd s l e argument)
  | false =>
    rw [eventWithHoldEnd_false]
    exact opened_event s l e argument

/-- What becomes of a line that is turned off, but for its log (R59, R159). -/
structure TurnedOff (l : LineId) (s t : State) : Prop where
  timebase : t.timebase = s.timebase
  inForce : (t.line l).io.inForce = (s.line l).io.inForce
  settings : (t.line l).io.settings = (s.line l).io.settings
  cond : (t.line l).cond = (s.line l).cond.turnedOff
  tx : (t.line l).tx = (s.line l).txStopped
  leaseTimer : (t.line l).att.leaseTimer = (s.line l).att.leaseTimer
  standing : (t.line l).att.list.map Attachment.standing = (s.line l).att.list.map Attachment.standing
  opened : (t.line l).cap.opened = none
  hold : (s.line l).io.inForce.flow = false →
    (t.line l).hold.state = .none ∧ (t.line l).hold.timer = (s.line l).hold.told.timer

theorem turnLineOff_turnedOff (s : State) (l : LineId) : TurnedOff l s (turnLineOff s l) := by
  have hline := line_lineStopped s l
  have htime := timebase_lineStopped s l
  rw [turnLineOff_eq]
  generalize decide ((s.line l).hold.state = .held) = b
  generalize lineStopped s l = v at hline htime ⊢
  have hrecorded := withHoldEnd_recorded (l := l) b v .lineOff []
  have hstage := withHoldEnd_stage (l := l) b v .lineOff []
  have hoff := withHoldEnd_offKept (l := l) b v .lineOff []
  have hopened := opened_eventWithHoldEnd b v l .lineOff []
  generalize eventWithHoldEnd b v l .lineOff [] = t at hrecorded hstage hoff hopened ⊢
  constructor
  case timebase => exact hrecorded.timebase.trans htime
  case inForce => rw [hrecorded.io, hline]; rfl
  case settings => rw [hrecorded.io, hline]; rfl
  case cond => rw [hrecorded.cond, hline]; rfl
  case tx => rw [hoff.2 (by rw [hline]; rfl), hline]; rfl
  case leaseTimer => rw [hrecorded.leaseTimer, hline]; rfl
  case standing => rw [hrecorded.standing, hline]; rfl
  case opened => exact hopened
  case hold =>
    intro hflow
    have hhold := hstage.hold (by rw [hline]; exact ⟨Hold.state_told _, hflow⟩)
    rw [hline] at hhold
    exact ⟨hhold.1.trans (Hold.state_told _), hhold.2⟩

/-! ## A line turned on (R60, R66) -/

/-- A line whose stored settings come into force, its records and the level still to be told (R60). -/
def Line.started (x : Line) : Line :=
  { x with
    io := { x.io with inForce := x.io.settings }, cond := { x.cond with state := .run }
    tx := { x.tx with pause := false, state := .idle, inUse := x.io.settings.txUse } }

/-- The line of a state turned on, its records and the level still to be told (R60). -/
def onSwitched (s : State) (l : LineId) : State :=
  refreshTransmitter
    (s.modLine l fun x =>
      { x with
        io := { x.io with inForce := x.io.settings }, cond := { x.cond with state := .run }
        tx := { x.tx with pause := false, state := .idle } }) l

/-- LINE ON and FORMAT SET in one group, with what FORMAT SET does (R18, R60, R74, R89). -/
def onTold (s : State) (l : LineId) (argument : List Byte) : State :=
  settle (groupEvent (formatSetEffects (groupEvent s l .lineOn []) l) l .formatSet argument) l

theorem turnLineOn_eq (s : State) (l : LineId) : turnLineOn s l
    = reportLevelAfresh (onTold (onSwitched s l) l (formatSetArgument (s.line l).io.settings)) l := rfl

theorem line_onSwitched (s : State) (l : LineId) : (onSwitched s l).line l = (s.line l).started := by
  rw [onSwitched, line_refreshTransmitter, State.line_modLine_self]
  rfl

theorem timebase_onSwitched (s : State) (l : LineId) : (onSwitched s l).timebase = s.timebase := rfl

theorem formatSetEffects_stage (s : State) : Stage l s (formatSetEffects s l) :=
  .of_line (line_formatSetEffects s l) rfl ⟨rfl, rfl⟩ ⟨rfl, rfl⟩ rfl rfl

theorem onTold_stage (s : State) (argument : List Byte) : Stage l s (onTold s l argument) :=
  (((Stage.groupEvent s l _ _).trans (formatSetEffects_stage _)).trans (.groupEvent _ l _ _)).trans (.settle _ l)

theorem turnLineOn_stage (s : State) : Stage l (onSwitched s l) (turnLineOn s l) := by
  rw [turnLineOn_eq]
  exact (onTold_stage _ _).trans (reportLevelAfresh_stage _)

/-! ## Step 1 of R62: the flow option -/

/-- Step 1 of R62, where it is asked for. -/
def flowStep (b : Bool) (s : State) (l : LineId) : State := if b then turnFlowOff s l else s

/-- A SET LINE turns the flow option off (R158). -/
def Line.dropsFlow (x : Line) (new : Settings) : Bool := x.io.settings.flow && !new.flow

theorem Line.dropsFlow_iff (x : Line) (new : Settings) : x.dropsFlow new = true ↔ x.io.settings.flow = true ∧ new.flow = false := by
  rw [Line.dropsFlow, Bool.and_eq_true, Bool.not_eq_true']

theorem Line.dropsFlow_of_not {x : Line} (h : x.io.settings.flow = false ∨ new.flow = true) : x.dropsFlow new = false := by
  obtain h | h := h <;> rw [Line.dropsFlow, h]
  · rw [Bool.false_and]
  · rw [Bool.not_true, Bool.and_false]

/-- What step 1 of R62 leaves of a line. -/
structure FlowStepped (l : LineId) (s t : State) : Prop where
  timebase : t.timebase = s.timebase
  io : (t.line l).io = (s.line l).io
  cond : (t.line l).cond = (s.line l).cond
  watch : (t.line l).watch = (s.line l).watch
  leaseTimer : (t.line l).att.leaseTimer = (s.line l).att.leaseTimer
  calm : Calm l s t

theorem flowStep_stepped (h : b = true → (s.line l).io.inForce.flow = false) : FlowStepped l s (flowStep b s l) := by
  cases b with
  | true =>
    have hended := turnFlowOff_ended (h rfl)
    exact ⟨hended.timebase, hended.io, hended.cond, hended.watch, hended.leaseTimer, (turnFlowOff_sound s).calm⟩
  | false => exact ⟨rfl, rfl, rfl, rfl, rfl, .refl l s⟩

/-- A line after step 1 of R62 where there is no hold and no pause to end. -/
def Line.flowStepped (b : Bool) (x : Line) : Line := if b then x.flowless else x

theorem flowStep_quietly (h : b = true → (s.line l).hold.state = .none ∧ (s.line l).tx.state ≠ .paused) :
    flowStep b s l = s.modLine l (Line.flowStepped b) := by
  cases b with
  | true =>
    obtain ⟨hhold, hpaused⟩ := h rfl
    exact turnFlowOff_quietly hhold hpaused
  | false => exact (State.modLine_id s l).symm

/-! ## A line that is on: the settings put in force after step 1 -/

/-- The settings stored on a line that is on, with the flow option in force (R62, step 1). -/
def flowStored (s : State) (l : LineId) (new : Settings) : State :=
  s.modIo l fun x => { x with settings := new, inForce := { (s.line l).io.inForce with flow := new.flow } }

/-- A line that is on, after step 1 of R62 and with these settings in force. -/
def readied (s : State) (l : LineId) (new f : Settings) : State :=
  (flowStep ((s.line l).dropsFlow new) (flowStored s l new) l).modIo l fun x => { x with inForce := f }

/-- What a line that is turned off keeps in force: divisor and format (log 11). -/
def Settings.keepingRate (new old : Settings) : Settings := { new with divisor := old.divisor, format := old.format }

theorem line_flowStored (s : State) (l : LineId) (new : Settings) : (flowStored s l new).line l = { s.line l with
    io := { (s.line l).io with settings := new, inForce := { (s.line l).io.inForce with flow := new.flow } } } :=
  State.line_modLine_self s l _

theorem flowStored_flow (h : (s.line l).dropsFlow new = true) : ((flowStored s l new).line l).io.inForce.flow = false := by
  rw [line_flowStored]
  exact (((s.line l).dropsFlow_iff new).mp h).2

theorem applySettings_on_on (hon : (s.line l).cond.state ≠ .off) (henable : new.enable = true) : applySettings s l new
    = applyOthers (applyFormat (readied s l new new) l (s.line l).io.inForce) l (s.line l).io.inForce := by
  unfold applySettings
  dsimp only
  rw [if_neg hon, if_pos henable]
  rfl

theorem applySettings_on_off (hon : (s.line l).cond.state ≠ .off) (henable : new.enable = false) : applySettings s l new
    = applyOthers (turnLineOff (readied s l new (new.keepingRate (s.line l).io.inForce)) l) l (s.line l).io.inForce := by
  unfold applySettings
  dsimp only
  rw [if_neg hon, if_neg (by rw [henable]; exact Bool.false_ne_true)]
  rfl

theorem line_readied (s : State) (l : LineId) (new f : Settings) : (readied s l new f).line l
    = { (flowStep ((s.line l).dropsFlow new) (flowStored s l new) l).line l with
        io := { (s.line l).io with settings := new, inForce := f } } := by
  rw [readied, State.modIo_eq, State.line_modLine_self, (flowStep_stepped flowStored_flow).io, line_flowStored]

/-- What the settings put in force on a line that is on leave of it. -/
structure Readied (l : LineId) (new f : Settings) (s t : State) : Prop where
  timebase : t.timebase = s.timebase
  io : (t.line l).io = { (s.line l).io with settings := new, inForce := f }
  cond : (t.line l).cond = (s.line l).cond
  watch : (t.line l).watch = (s.line l).watch
  leaseTimer : (t.line l).att.leaseTimer = (s.line l).att.leaseTimer
  writer : (t.line l).writer = (s.line l).writer
  waiting : (t.line l).tx.waiting = (s.line l).tx.waiting

theorem readied_readied (s : State) (l : LineId) (new f : Settings) : Readied l new f s (readied s l new f) := by
  have hstep := flowStep_stepped (s := flowStored s l new) (l := l) (b := (s.line l).dropsFlow new) flowStored_flow
  have hline := line_readied s l new f
  have hstored := line_flowStored s l new
  constructor
  case timebase => exact hstep.timebase
  case io => rw [hline]
  case cond => rw [hline]; exact hstep.cond.trans (by rw [hstored])
  case watch => rw [hline]; exact hstep.watch.trans (by rw [hstored])
  case leaseTimer => rw [hline]; exact hstep.leaseTimer.trans (by rw [hstored])
  case writer =>
    rw [hline]
    exact (hstep.calm.writer l).trans (by rw [hstored]; rfl)
  case waiting =>
    rw [hline]
    exact (hstep.calm.waiting l).trans (by rw [hstored])

/-- A line that is on, ready for step 3 of R62, where step 1 has no hold and no pause to end. -/
def Line.readied (new f : Settings) (x : Line) : Line :=
  { Line.flowStepped (x.dropsFlow new) x with io := { x.io with settings := new, inForce := f } }

theorem readied_quietly (h : (s.line l).dropsFlow new = true → (s.line l).hold.state = .none ∧ (s.line l).tx.state ≠ .paused)
    (f : Settings) : readied s l new f = s.modLine l (Line.readied new f) := by
  have hstored := line_flowStored s l new
  have hstep := flowStep_quietly (s := flowStored s l new) (l := l) (b := (s.line l).dropsFlow new) (by rw [hstored]; exact h)
  rw [Machine.readied, hstep, flowStored, State.modIo_eq, State.modIo_eq, State.modLine_modLine, State.modLine_modLine]
  refine State.modLine_congr s l ?_
  rw [Line.readied]
  cases (s.line l).dropsFlow new <;> rfl

/-! ## A line that is off: the settings stored -/

/-- What a line that stays off takes of its new settings (R62, step 2). -/
def Settings.storedOff (old new : Settings) : Settings :=
  { old with lease := new.lease, holdTimeout := new.holdTimeout, inversion := new.inversion, flow := old.flow && new.flow }

/-- The interface of a line that is off under its new settings (R62, step 2). -/
def Interface.storedOff (new : Settings) (x : Interface) : Interface := { x with settings := new, inForce := x.inForce.storedOff new }

theorem storeSettings_eq (s : State) (l : LineId) (old new : Settings) : storeSettings s l old new
    = leaseHoldRetimed (s.modIo l (Interface.storedOff new)) l old := rfl

/-- A line that is off, after step 1 of R62. -/
def readiedOff (s : State) (l : LineId) (new : Settings) : State :=
  flowStep ((s.line l).dropsFlow new) (storeSettings s l (s.line l).io.inForce new) l

theorem applySettings_off_on (hoff : (s.line l).cond.state = .off) (henable : new.enable = true) :
    applySettings s l new = turnLineOn (readiedOff s l new) l := by
  unfold applySettings
  dsimp only
  rw [if_pos hoff, if_pos henable]
  rfl

theorem applySettings_off_off (hoff : (s.line l).cond.state = .off) (henable : new.enable = false) :
    applySettings s l new = readiedOff s l new := by
  unfold applySettings
  dsimp only
  rw [if_pos hoff, if_neg (by rw [henable]; exact Bool.false_ne_true)]
  rfl

/-- The lease timer of a line under a new lease (R111). -/
def Line.leaseSet (now : Word) (new : Settings) (x : Line) : Option Timer :=
  Line.leaseRetimed now x.io.inForce { x with io := { x.io with inForce := new } }

theorem leaseRetimed_congr {x y : Line} (hlease : y.io.inForce.lease = x.io.inForce.lease) (hwriter : y.writer = x.writer)
    (htimer : y.att.leaseTimer = x.att.leaseTimer) (now : Word) (old : Settings) : y.leaseRetimed now old = x.leaseRetimed now old := by
  rw [Line.leaseRetimed, Line.leaseRetimed, hlease, hwriter, htimer]

/-- A line that is off, with its new settings stored (R62, step 2). -/
def Line.storedOff (now : Word) (new : Settings) (x : Line) : Line :=
  { x with
    io := x.io.storedOff new
    att := { x.att with leaseTimer := x.leaseSet now new }
    hold := { x.hold with timer := x.hold.timer.map (retimeTimer now new.holdTimeout.toNat) }
    tx := if x.tx.state.atBoundary then { x.tx with inUse := (x.io.inForce.storedOff new).txUse } else x.tx }

theorem line_storeSettings (s : State) (l : LineId) (new : Settings) :
    (storeSettings s l (s.line l).io.inForce new).line l = (s.line l).storedOff s.timebase new := by
  rw [storeSettings_eq, line_leaseHoldRetimed, State.modIo_eq, State.line_modLine_self]
  rfl

theorem storeSettings_flow (h : (s.line l).dropsFlow new = true) :
    ((storeSettings s l (s.line l).io.inForce new).line l).io.inForce.flow = false := by
  rw [line_storeSettings]
  change ((s.line l).io.inForce.flow && new.flow) = false
  rw [(((s.line l).dropsFlow_iff new).mp h).2, Bool.and_false]

theorem readiedOff_stepped (s : State) (l : LineId) (new : Settings) :
    FlowStepped l (storeSettings s l (s.line l).io.inForce new) (readiedOff s l new) := flowStep_stepped storeSettings_flow

theorem timebase_readiedOff (s : State) (l : LineId) (new : Settings) : (readiedOff s l new).timebase = s.timebase :=
  (readiedOff_stepped s l new).timebase

/-! ## Settings in force and the lease (R62, R111) -/

theorem OthersSet.leaseSet (h : OthersSet l old u t) (hold : old = (s.line l).io.inForce) (hlease : (u.line l).io.inForce.lease = new.lease)
    (hwriter : (u.line l).writer = (s.line l).writer) (htimer : (u.line l).att.leaseTimer = (s.line l).att.leaseTimer)
    (htime : u.timebase = s.timebase) : (t.line l).att.leaseTimer = (s.line l).leaseSet s.timebase new := by
  rw [h.leaseTimer, htime, hold]
  exact leaseRetimed_congr (x := { s.line l with io := { (s.line l).io with inForce := new } }) hlease hwriter htimer _ _

/-- What a SET LINE puts in force: what it asks for, and what a line that is off afterwards holds (R62; log 11). -/
def Line.putInForce (new : Settings) (x : Line) : Settings :=
  if new.enable = true then new
  else if x.cond.state = .off then x.io.inForce.storedOff new
  else new.keepingRate x.io.inForce

/-- The settings stored, those in force and the lease timer after a SET LINE, in each of its four cases (R62, R111). -/
theorem applySettings_inForce (s : State) (l : LineId) (new : Settings) :
    ((applySettings s l new).line l).io.settings = new
      ∧ ((applySettings s l new).line l).io.inForce = (s.line l).putInForce new
      ∧ ((applySettings s l new).line l).att.leaseTimer = (s.line l).leaseSet s.timebase new := by
  by_cases hoff : (s.line l).cond.state = .off
  · have hstored := line_storeSettings s l new
    have hstep := readiedOff_stepped s l new
    generalize storeSettings s l (s.line l).io.inForce new = w at hstored hstep
    cases henable : new.enable with
    | true =>
      rw [applySettings_off_on hoff henable, Line.putInForce, if_pos henable]
      have hstage := turnLineOn_stage (l := l) (readiedOff s l new)
      have hon := line_onSwitched (readiedOff s l new) l
      refine ⟨?_, ?_, ?_⟩
      · rw [hstage.settings, hon, Line.started, hstep.io, hstored]
        rfl
      · rw [hstage.inForce, hon, Line.started, hstep.io, hstored]
        rfl
      · rw [hstage.leaseTimer, hon, Line.started, hstep.leaseTimer, hstored]
        rfl
    | false =>
      rw [applySettings_off_off hoff henable, Line.putInForce, if_neg (by rw [henable]; exact Bool.false_ne_true), if_pos hoff,
        hstep.io, hstep.leaseTimer, hstored]
      exact ⟨rfl, rfl, rfl⟩
  · cases henable : new.enable with
    | true =>
      have hready := readied_readied s l new new
      rw [applySettings_on_on hoff henable, Line.putInForce, if_pos henable]
      generalize readied s l new new = w at hready
      have hstage := applyFormat_stage (l := l) w (s.line l).io.inForce
      have hothers := applyOthers_others (applyFormat w l (s.line l).io.inForce) l (s.line l).io.inForce
      refine ⟨?_, ?_, hothers.leaseSet rfl ?_ (hstage.writer.trans hready.writer) (hstage.leaseTimer.trans hready.leaseTimer)
        (hstage.timebase.trans hready.timebase)⟩
      · rw [hothers.settings, hstage.settings, hready.io]
      · rw [hothers.inForce, hstage.inForce, hready.io]
      · rw [hstage.inForce, hready.io]
    | false =>
      have hready := readied_readied s l new (new.keepingRate (s.line l).io.inForce)
      rw [applySettings_on_off hoff henable, Line.putInForce, if_neg (by rw [henable]; exact Bool.false_ne_true), if_neg hoff]
      generalize readied s l new (new.keepingRate (s.line l).io.inForce) = w at hready
      have hturned := turnLineOff_turnedOff w l
      have hwriter : ((turnLineOff w l).line l).writer = (w.line l).writer := by
        rw [Line.writer_eq_roles, Line.writer_eq_roles, roles_of_standing hturned.standing]
      have hothers := applyOthers_others (turnLineOff w l) l (s.line l).io.inForce
      refine ⟨?_, ?_, hothers.leaseSet rfl ?_ (hwriter.trans hready.writer) (hturned.leaseTimer.trans hready.leaseTimer)
        (hturned.timebase.trans hready.timebase)⟩
      · rw [hothers.settings, hturned.settings, hready.io]
      · rw [hothers.inForce, hturned.inForce, hready.io]
      · rw [hturned.inForce, hready.io]
        rfl

/-! ### The lease, by what it was and becomes (R111) -/

theorem Line.leaseSet_of_zero (x : Line) (now : Word) (h : new.lease = 0) : x.leaseSet now new = none := if_pos h

theorem Line.leaseSet_of_fresh {x : Line} (now : Word) (hold : x.io.inForce.lease = 0) (hnew : new.lease ≠ 0) :
    x.leaseSet now new = if x.writer.isSome = true then some { start := now, due := false } else none :=
  (if_neg hnew).trans (if_pos hold)

theorem Line.leaseSet_of_kept {x : Line} (now : Word) (hold : x.io.inForce.lease ≠ 0) (hnew : new.lease ≠ 0) :
    x.leaseSet now new = x.att.leaseTimer.map (retimeTimer now (1000 * new.lease.toNat)) := (if_neg hnew).trans (if_neg hold)

end Sys2Proof.Machine
end

section
/-! Proofs: SET LINE on a line that stays on, with loopback and inversion as they were (R9, R10, R62, R73, R74, R79, R89, R156). -/

namespace Sys2Proof.Machine

open Host

variable {l : LineId} {s t u v : State} {p q : PortId} {old new f : Settings} {b : Bool}

/-! ## Logs that are the same but for a timer -/

/-- Two lines have the same log: the same records, and the same numbers to give. -/
structure Line.SameRecords (x y : Line) : Prop where
  closed : y.closed = x.closed
  opened : y.cap.opened = x.cap.opened
  next : y.cap.next = x.cap.next
  oldest : y.cap.oldest = x.cap.oldest

theorem LogsEvent.after {e : Event} {argument : List Byte} (h : LogsEvent s t l e argument)
    (k : (t.line l).SameRecords (u.line l)) : LogsEvent s u l e argument := by
  intro hroomy
  obtain ⟨hclosed, hopened, hnext, holdest⟩ := h hroomy
  exact ⟨k.closed.trans hclosed, k.opened.trans hopened, k.next.trans hnext, k.oldest.trans holdest⟩

/-! ## The pins where loopback and inversion stay -/

/-- The receiver has a new level to watch: loopback changes, or inversion outside loopback (R57, R58). -/
def Settings.turnsPins (old new : Settings) : Prop := old.loopback ≠ new.loopback ∨ (new.loopback = false ∧ old.inversion ≠ new.inversion)

theorem Settings.not_turnsPins (hloop : old.loopback = new.loopback) (hinv : old.inversion = new.inversion) : ¬ old.turnsPins new := by
  rintro (h | ⟨-, h⟩)
  · exact h hloop
  · exact h hinv

theorem applyPins_of_not (h : ¬ old.turnsPins (s.line l).io.inForce) : applyPins s l old = s := if_neg h

theorem applyPins_of_turns (h : old.turnsPins (s.line l).io.inForce) : applyPins s l old = reportLevelAfresh s l := if_pos h

/-! ## The state of the condition through FORMAT SET (R79) -/

theorem state_applyFormat (s : State) (l : LineId) (old : Settings) : ((applyFormat s l old).line l).cond.state
    = if (s.line l).cond.state = .hunt then .run else (s.line l).cond.state := by
  by_cases h : (s.line l).formats old (s.line l).io.inForce
  · rw [applyFormat_of_formats h, (event_recorded (l := l) _ _ _).cond, State.line_modLine_self]
    rfl
  · rw [applyFormat_of_not h, if_neg (not_or.mp h).1]

theorem applyFormat_on (h : (s.line l).cond.state ≠ .off) (old : Settings) : ((applyFormat s l old).line l).cond.state ≠ .off := by
  rw [state_applyFormat]
  split
  · decide
  · exact h

/-! ## The other settings on a line: condition, watch slots and log -/

theorem othersSet_eq (s : State) (l : LineId) (old : Settings) :
    othersSet s l old = leaseHoldRetimed (applyMaxLength (s.modLine l (Line.retimed s.timebase)) l) l old := rfl

/-- What the other settings make of the condition, the watch slots and the interface of a line. -/
theorem othersSet_frame (s : State) (l : LineId) (old : Settings) :
    ((othersSet s l old).line l).io = (s.line l).io
      ∧ ((othersSet s l old).line l).cond = ((s.line l).retimed s.timebase).cond
      ∧ ((othersSet s l old).line l).watch = (s.line l).watch := by
  have hretimed := line_retimed s l
  rw [othersSet_eq]
  generalize s.modLine l (Line.retimed s.timebase) = v at hretimed ⊢
  have hkept := applyMaxLength_recorded (l := l) v
  rw [line_leaseHoldRetimed]
  refine ⟨hkept.io.trans ?_, hkept.cond.trans ?_, hkept.watch.trans ?_⟩ <;> rw [hretimed] <;> rfl

/-- With no record open the other settings leave the log, and but for their timers and marks the rest of the line. -/
theorem othersSet_of_closed (h : (s.line l).cap.opened = none) (old : Settings) : (othersSet s l old).line l
    = { (s.line l).retimed s.timebase with
        att := { (s.line l).att with leaseTimer := (s.line l).leaseRetimed s.timebase old }
        hold := (s.line l).holdRetimed s.timebase, tx := (s.line l).refreshed } := by
  have hretimed := line_retimed s l
  have htime : (s.modLine l (Line.retimed s.timebase)).timebase = s.timebase := rfl
  rw [othersSet_eq]
  generalize s.modLine l (Line.retimed s.timebase) = v at hretimed htime ⊢
  rw [applyMaxLength_of_none (by rw [hretimed]; exact h), line_leaseHoldRetimed, hretimed, htime]
  rfl

theorem othersSet_sameRecords (h : (s.line l).cap.opened = none) (old : Settings) :
    (s.line l).SameRecords ((othersSet s l old).line l) := by
  rw [othersSet_of_closed h]
  exact ⟨rfl, rfl, rfl, rfl⟩

/-! ## A line that stays on, up to the pins -/

theorem line_readied_quietly (s : State) (l : LineId) (new f : Settings) :
    (s.modLine l (Line.readied new f)).line l = (s.line l).readied new f := State.line_modLine_self s l _

/-- What the flow option turned off leaves of a line without a hold and without a pause. -/
theorem Line.flowStepped_frame (b : Bool) (x : Line) : Line.flowStepped b x
    = { x with att := { x.att with list := (Line.flowStepped b x).att.list }, tx := { x.tx with pause := (Line.flowStepped b x).tx.pause } } := by
  cases b <;> rfl

theorem Line.readied_frame (new f : Settings) (x : Line) : x.readied new f
    = { x with
        io := { x.io with settings := new, inForce := f }
        att := { x.att with list := (x.readied new f).att.list }, tx := { x.tx with pause := (x.readied new f).tx.pause } } := by
  rw [Line.readied]
  cases x.dropsFlow new <;> rfl

theorem Line.sameLog_readied (new f : Settings) (x : Line) : x.SameLog (x.readied new f) := by
  rw [Line.readied_frame]
  exact ⟨rfl, rfl, rfl⟩

theorem Line.formats_readied (x : Line) (old new : Settings) : (x.readied new new).formats old (x.readied new new).io.inForce
    ↔ x.formats old new := by
  rw [Line.readied_frame]
  exact Iff.rfl

/-- A line that stays on: steps 1 and 3 of R62, then the other settings, and at last the pins. -/
theorem applySettings_on (hon : (s.line l).cond.state ≠ .off) (henable : new.enable = true) :
    applySettings s l new = applyPins (othersSet (applyFormat (readied s l new new) l (s.line l).io.inForce) l
      (s.line l).io.inForce) l (s.line l).io.inForce := by
  rw [applySettings_on_on hon henable, applyOthers_on (applyFormat_on (by rw [(readied_readied s l new new).cond]; exact hon) _)]

/-- The settings in force when the pins are looked at. -/
theorem inForce_before_pins (s : State) (l : LineId) (old new : Settings) :
    ((othersSet (applyFormat (readied s l new new) l old) l old).line l).io.inForce = new := by
  rw [(othersSet_others _ l old).inForce, (applyFormat_stage _ old).inForce, (readied_readied s l new new).io]

/-- A line that stays on with its loopback and its inversion. -/
theorem applySettings_on_unturned (hon : (s.line l).cond.state ≠ .off) (henable : new.enable = true)
    (hpins : ¬ (s.line l).io.inForce.turnsPins new) :
    applySettings s l new = othersSet (applyFormat (readied s l new new) l (s.line l).io.inForce) l (s.line l).io.inForce := by
  rw [applySettings_on hon henable, applyPins_of_not]
  rw [inForce_before_pins]
  exact hpins

theorem state_before_pins (s : State) (l : LineId) (old new : Settings) :
    ((othersSet (applyFormat (readied s l new new) l old) l old).line l).cond.state
      = if (s.line l).cond.state = .hunt then .run else (s.line l).cond.state := by
  obtain ⟨-, hcond, -⟩ := othersSet_frame (applyFormat (readied s l new new) l old) l old
  rw [hcond]
  exact (state_applyFormat _ l old).trans (by rw [(readied_readied s l new new).cond])

/-! ### FORMAT SET written (R74, R79, R89) -/

/-- FORMAT SET on a line that is ready for step 3 of R62. -/
theorem formatSet_of_formats (h : (s.line l).formats old new) :
    let t := othersSet (applyFormat (s.modLine l (Line.readied new new)) l old) l old
    (t.line l).cond.score = [] ∧ (t.line l).watch = (s.line l).watch.map (fun w => { w with progress := 0 })
      ∧ LogsEvent s t l .formatSet (formatSetArgument new) := by
  have hready := line_readied_quietly s l new new
  have htime : (s.modLine l (Line.readied new new)).timebase = s.timebase := rfl
  generalize s.modLine l (Line.readied new new) = v at hready htime
  have hvline : (v.line l).watch = (s.line l).watch ∧ (v.line l).io.inForce = new ∧ (s.line l).SameLog (v.line l) := by
    rw [hready]
    refine ⟨?_, ?_, Line.sameLog_readied new new _⟩ <;> rw [Line.readied_frame]
  obtain ⟨hwatch, hforce, hlog⟩ := hvline
  have hformat := applyFormat_of_formats (s := v) (l := l) (old := old) (by rw [hready]; exact (Line.formats_readied _ _ _).mpr h)
  rw [hforce] at hformat
  have hformatted := State.line_modLine_self v l Line.formatted
  have hftime : (v.modLine l Line.formatted).timebase = v.timebase := rfl
  rw [hformat]
  generalize v.modLine l Line.formatted = w at hformatted hftime
  have hrecorded := event_recorded (l := l) w .formatSet (formatSetArgument new)
  have hlogs := logsEvent_event w l .formatSet (formatSetArgument new)
  have hopened := opened_event w l .formatSet (formatSetArgument new)
  generalize event w l .formatSet (formatSetArgument new) = c at hrecorded hlogs hopened
  obtain ⟨-, hcond, hothers⟩ := othersSet_frame c l old
  refine ⟨?_, ?_, (hlogs.congr ?_ (hftime.trans htime) rfl rfl).after (othersSet_sameRecords hopened old)⟩
  · rw [hcond, Line.retimed, hrecorded.cond, hformatted]
    rfl
  · rw [hothers, hrecorded.watch, hformatted, Line.formatted, hwatch]
  · rw [hformatted]
    exact hlog.trans ⟨rfl, rfl, rfl⟩

/-! ### No FORMAT SET: the maximum record length and the timers (R9, R10, R73, R156) -/

/-- A maximum at or below the length of the open record closes it with FULL (R10). -/
theorem applyMaxLength_full_wrote {o : OpenRecord} (hroomy : (s.line l).roomy 0) (ho : (s.line l).cap.opened = some o)
    (hfull : (s.line l).io.inForce.maxLength.toNat ≤ o.body.length) : Wrote l [o.closed .full 0] 0 0 s (applyMaxLength s l) := by
  obtain ⟨hpages, -, hnone, hdue, heval⟩ := hroomy
  have hwrote := closeOpen_wrote (s := s) (l := l) hpages .full 0
  rw [Line.closing_of_some ho] at hwrote
  rwa [applyMaxLength_of_full ho hfull, settle_of_unmarked (hwrote.unmarked hnone ⟨hdue, heval⟩)]

/-- A new maximum record length on a line with nothing due gives no number, and leaves hold and transmitter. -/
theorem applyMaxLength_wrote (hroomy : (s.line l).roomy 0) : ∃ rs, Wrote l rs 0 0 s (applyMaxLength s l) := by
  obtain ⟨hpages, -⟩ := id hroomy
  cases ho : (s.line l).cap.opened with
  | none =>
    rw [applyMaxLength_of_none ho]
    exact ⟨[], .refl hpages⟩
  | some o =>
    obtain hbelow | hfull := Nat.lt_or_ge o.body.length (s.line l).io.inForce.maxLength.toNat
    · rw [applyMaxLength_of_below ho hbelow]
      exact ⟨[], .refl hpages⟩
    · exact ⟨_, applyMaxLength_full_wrote hroomy ho hfull⟩

/-- What the other settings make of a line with nothing due: no record but the one that the maximum closes, and the timers under their
durations. -/
structure Retimed (l : LineId) (s t : State) : Prop where
  next : (t.line l).cap.next = (s.line l).cap.next
  state : (t.line l).hold.state = (s.line l).hold.state
  timer : (t.line l).hold.timer = (s.line l).hold.timer.map (retimeTimer s.timebase (s.line l).io.inForce.holdTimeout.toNat)
  full : ∀ o, (s.line l).cap.opened = some o → (s.line l).io.inForce.maxLength.toNat ≤ o.body.length →
    (t.line l).closed = (s.line l).closed ++ [o.closed .full 0]
  below : ∀ o, (s.line l).cap.opened = some o → o.body.length < (s.line l).io.inForce.maxLength.toNat →
    (t.line l).cap.opened = some o ∧ (t.line l).closed = (s.line l).closed
      ∧ (t.line l).cap.idleTimer = (s.line l).cap.idleTimer.map (retimeTimer s.timebase (s.line l).io.inForce.idleGap.toNat)

theorem othersSet_retimed (hroomy : (s.line l).roomy 0) (old : Settings) : Retimed l s (othersSet s l old) := by
  have hline := line_retimed s l
  have htime : (s.modLine l (Line.retimed s.timebase)).timebase = s.timebase := rfl
  rw [othersSet_eq]
  generalize s.modLine l (Line.retimed s.timebase) = v at hline htime ⊢
  have hvroomy : (v.line l).roomy 0 := by rw [hline]; exact hroomy
  obtain ⟨rs, hwrote⟩ := applyMaxLength_wrote hvroomy
  have hset := line_leaseHoldRetimed (applyMaxLength v l) l old
  constructor
  case next =>
    rw [hset]
    exact hwrote.next.trans (by rw [hline]; rfl)
  case state =>
    rw [hset, Line.holdRetimed, hwrote.hold, hline]
    rfl
  case timer =>
    rw [hset, Line.holdRetimed, hwrote.hold, hwrote.recorded.io, hwrote.recorded.timebase, htime, hline]
    rfl
  case full =>
    intro o ho hfull
    rw [hset]
    have hclosed := (applyMaxLength_full_wrote hvroomy (by rw [hline]; exact ho) (by rw [hline]; exact hfull)).closed
    exact hclosed.trans (by rw [hline]; rfl)
  case below =>
    intro o ho hbelow
    rw [hset, applyMaxLength_of_below (by rw [hline]; exact ho) (by rw [hline]; exact hbelow), hline]
    exact ⟨ho, rfl, rfl⟩

/-- A line that stays on, without FORMAT SET and with its pins as they were (R62, step 4). -/
theorem onStays_retimed (hon : (s.line l).cond.state ≠ .off) (henable : new.enable = true)
    (hpins : ¬ (s.line l).io.inForce.turnsPins new) (hformats : ¬ (s.line l).formats (s.line l).io.inForce new)
    (hroomy : ((readied s l new new).line l).roomy 0) :
    Retimed l (readied s l new new) (applySettings s l new)
      ∧ ((applySettings s l new).line l).cond = (((readied s l new new).line l).retimed s.timebase).cond
      ∧ ((applySettings s l new).line l).watch = (s.line l).watch := by
  have hready := readied_readied s l new new
  rw [applySettings_on_unturned hon henable hpins]
  generalize readied s l new new = v at hready hroomy ⊢
  rw [applyFormat_of_not (by rw [Line.formats, hready.cond, hready.io]; exact hformats)]
  obtain ⟨-, hcond, hwatch⟩ := othersSet_frame v l (s.line l).io.inForce
  exact ⟨othersSet_retimed hroomy _, hcond.trans (by rw [hready.timebase]), hwatch.trans hready.watch⟩

end Sys2Proof.Machine
end

section
/-! Proofs: SET LINE that turns a line on, turns it off, or leaves it off (R59, R60, R62, R66, R156). -/

namespace Sys2Proof.Machine

open Host

variable {l : LineId} {s t u v : State} {p q : PortId} {old new f : Settings} {b : Bool} {level : Level}

/-! ## The level reported afresh on a line in RUN (R60, R70) -/

/-- The down timer after a report of a level in RUN: stopped by marking, running in spacing (R70). -/
def Condition.levelTold (now : Word) (level : Level) (x : Condition) : Condition :=
  { x with downTimer := match level with | .marking => none | .spacing => some (x.downTimer.getD (startTimer now)) }

theorem line_takeLevelReport_run (h : (s.line l).cond.state = .run) (level : Level) : (takeLevelReport s l level).line l
    = { s.line l with cond := (s.line l).cond.levelTold s.timebase level } := by
  cases level with
  | marking =>
    rw [takeLevelReport_marking_up (.inl h), State.modCond_eq, State.line_modLine_self]
    rfl
  | spacing =>
    rw [takeLevelReport_spacing_up (.inl h), State.modCond_eq, State.line_modLine_self]
    rfl

/-- The level that the receiver is told afresh (R45, R57, R58, R60). -/
def State.levelAfresh (s : State) (l : LineId) : Level := (s.line l).receiveLevel (freeLevel s.freeIndex)

theorem line_reportLevelAfresh_run (h : (s.line l).cond.state = .run) : (reportLevelAfresh s l).line l
    = { (s.line l).startWatching (s.levelAfresh l) with cond := (s.line l).cond.levelTold s.timebase (s.levelAfresh l) } := by
  have hline := line_watchingAfresh s l (s.levelAfresh l)
  have htime : (watchingAfresh s l (s.levelAfresh l)).timebase = s.timebase := rfl
  rw [reportLevelAfresh_eq]
  change (takeLevelReport (watchingAfresh s l (s.levelAfresh l)) l (s.levelAfresh l)).line l = _
  generalize watchingAfresh s l (s.levelAfresh l) = v at hline htime ⊢
  rw [line_takeLevelReport_run (by rw [hline]; exact h), hline, htime]
  rfl

/-! ## LINE ON and FORMAT SET (R18, R60) -/

/-- What LINE ON and FORMAT SET make of the condition and the watch slots. -/
theorem onTold_frame (s : State) (l : LineId) (argument : List Byte) :
    ((onTold s l argument).line l).io = (s.line l).io
      ∧ ((onTold s l argument).line l).cond = { (s.line l).cond with score := [] }
      ∧ ((onTold s l argument).line l).watch = (s.line l).watch.map fun w => { w with progress := 0 } := by
  have hfirst := groupEvent_recorded (l := l) s .lineOn []
  rw [onTold]
  generalize groupEvent s l .lineOn [] = v at hfirst ⊢
  have hformat := line_formatSetEffects v l
  generalize formatSetEffects v l = w at hformat ⊢
  have hsecond := (groupEvent_recorded (l := l) w .formatSet argument).trans (settle_recorded _)
  refine ⟨hsecond.io.trans ?_, hsecond.cond.trans ?_, hsecond.watch.trans ?_⟩ <;> rw [hformat]
  · exact hfirst.io
  · rw [hfirst.cond]
  · rw [hfirst.watch]

/-- LINE ON and FORMAT SET where the page has room for both (R18, R60). -/
theorem onTold_of_roomy {argument : List Byte} (h : (s.line l).roomy (24 + argument.length)) :
    ((onTold s l argument).line l).closed = (s.line l).closed ++ (s.line l).closing .event 0 ++ [eventRecord s l .lineOn []]
        ++ [{ eventRecord s l .formatSet argument with seq := nextSeq (s.line l).cap.next }]
      ∧ ((onTold s l argument).line l).tx = (s.line l).tx := by
  obtain ⟨hpages, hroom, hnone, hdue, heval⟩ := h
  have hfirst := groupEvent_wrote (s := s) (l := l) (argument := []) hpages .lineOn (by rw [List.length_nil]; omega)
  have hopened := opened_groupEvent s l .lineOn []
  rw [onTold]
  generalize groupEvent s l .lineOn [] = v at hfirst hopened ⊢
  have hformat := line_formatSetEffects v l
  have htime : (formatSetEffects v l).timebase = v.timebase := rfl
  generalize formatSetEffects v l = w at hformat htime ⊢
  have hwroom : (w.line l).room = (v.line l).room := by rw [hformat]; rfl
  have hsecond := groupEvent_wrote (s := w) (l := l) (argument := argument) (by rw [hformat]; exact hfirst.pages) .formatSet
    (by rw [hwroom, hfirst.room, List.length_nil]; omega)
  have hvnone : (v.line l).pool.freezePending = none := by rw [hfirst.pool_of_none hnone]; exact hnone
  have hvunmarked := hfirst.unmarked hnone ⟨hdue, heval⟩
  rw [settle_of_unmarked (hsecond.unmarked (by rw [hformat]; exact hvnone) (by rw [hformat]; exact hvunmarked))]
  have hrecord : eventRecord w l .formatSet argument
      = { eventRecord s l .formatSet argument with seq := nextSeq (s.line l).cap.next } := by
    rw [eventRecord, hformat, htime, hfirst.recorded.timebase]
    dsimp only
    rw [hfirst.next]
    rfl
  have hwclosed : (w.line l).closed = (v.line l).closed := by rw [hformat]; rfl
  have hwclosing : (w.line l).closing .event 0 = [] := Line.closing_of_none (by rw [hformat]; exact hopened) _ _
  rw [hsecond.closed, hsecond.tx, hrecord, hwclosed, hfirst.closed, hwclosing]
  exact ⟨by rw [List.nil_append, ← List.append_assoc (s.line l).closed], by rw [hformat]; exact hfirst.tx⟩

/-! ## A line turned on (R60, R66) -/

/-- The state of a line turned on, after the records and before the level is reported. -/
def onBegun (s : State) (l : LineId) (new : Settings) : State :=
  onTold (onSwitched (readiedOff s l new) l) l (formatSetArgument ((readiedOff s l new).line l).io.settings)

/-- The line switched on has the stored settings in force and its condition in RUN. -/
theorem onSwitched_frame (s : State) (l : LineId) (new : Settings) :
    ((onSwitched (readiedOff s l new) l).line l).io = { (s.line l).io with settings := new, inForce := new }
      ∧ ((onSwitched (readiedOff s l new) l).line l).cond = { (s.line l).cond with state := .run }
      ∧ ((onSwitched (readiedOff s l new) l).line l).watch = (s.line l).watch
      ∧ ((onSwitched (readiedOff s l new) l).line l).tx.state = .idle
      ∧ ((onSwitched (readiedOff s l new) l).line l).tx.pause = false := by
  have hstored := line_storeSettings s l new
  have hstep := readiedOff_stepped s l new
  rw [line_onSwitched]
  refine ⟨?_, ?_, ?_, rfl, rfl⟩
  · rw [Line.started, hstep.io, hstored]
    rfl
  · rw [Line.started, hstep.cond, hstored]
    rfl
  · rw [Line.started, hstep.watch, hstored]
    rfl

theorem onBegun_frame (s : State) (l : LineId) (new : Settings) :
    ((onBegun s l new).line l).io = { (s.line l).io with settings := new, inForce := new }
      ∧ ((onBegun s l new).line l).cond = { (s.line l).cond with state := .run, score := [] }
      ∧ ((onBegun s l new).line l).watch = (s.line l).watch.map (fun w => { w with progress := 0 })
      ∧ (onBegun s l new).timebase = s.timebase := by
  obtain ⟨hio, hcond, hwatch, -, -⟩ := onSwitched_frame s l new
  have htime : (onSwitched (readiedOff s l new) l).timebase = s.timebase :=
    (timebase_onSwitched _ l).trans (timebase_readiedOff s l new)
  rw [onBegun]
  generalize formatSetArgument ((readiedOff s l new).line l).io.settings = argument
  generalize onSwitched (readiedOff s l new) l = w at hio hcond hwatch htime ⊢
  obtain ⟨kio, kcond, kwatch⟩ := onTold_frame w l argument
  exact ⟨kio.trans hio, kcond.trans (by rw [hcond]), kwatch.trans (by rw [hwatch]), (onTold_stage (l := l) w argument).timebase.trans htime⟩

/-- A line turned on: its line after the records, with the level reported in RUN. -/
theorem line_applySettings_off_on (hoff : (s.line l).cond.state = .off) (henable : new.enable = true) :
    (applySettings s l new).line l = { ((onBegun s l new).line l).startWatching ((onBegun s l new).levelAfresh l) with
      cond := ((onBegun s l new).line l).cond.levelTold s.timebase ((onBegun s l new).levelAfresh l) } := by
  obtain ⟨-, hcond, -, htime⟩ := onBegun_frame s l new
  rw [applySettings_off_on hoff henable, turnLineOn_eq, ← onBegun]
  generalize onBegun s l new = v at hcond htime ⊢
  rw [line_reportLevelAfresh_run (by rw [hcond]), htime]

/-- A line turned on enters RUN, its score and the watch progress emptied (R60, R66, R74, R89). -/
theorem turnedOn_fields (hoff : (s.line l).cond.state = .off) (henable : new.enable = true) :
    ((applySettings s l new).line l).cond.state = .run ∧ ((applySettings s l new).line l).cond.score = []
      ∧ ((applySettings s l new).line l).watch = (s.line l).watch.map fun w => { w with progress := 0 } := by
  obtain ⟨-, hcond, hwatch, -⟩ := onBegun_frame s l new
  rw [line_applySettings_off_on hoff henable]
  generalize onBegun s l new = v at hcond hwatch ⊢
  refine ⟨?_, ?_, hwatch⟩ <;> rw [hcond] <;> rfl

/-- The line that is off after step 1 of R62, where there is no hold and no pause to end. -/
theorem readiedOff_quietly (hhold : (s.line l).hold.state = .none) (hpaused : (s.line l).tx.state ≠ .paused) (new : Settings) :
    (readiedOff s l new).line l = Line.flowStepped ((s.line l).dropsFlow new) ((s.line l).storedOff s.timebase new) := by
  have hstored := line_storeSettings s l new
  rw [readiedOff]
  generalize storeSettings s l (s.line l).io.inForce new = v at hstored ⊢
  rw [flowStep_quietly, State.line_modLine_self, hstored]
  rw [hstored]
  refine fun _ => ⟨hhold, ?_⟩
  rw [Line.storedOff]
  dsimp only
  split <;> exact hpaused

theorem Line.sameLog_flowStepped (b : Bool) (x : Line) : x.SameLog (Line.flowStepped b x) := by
  rw [Line.flowStepped_frame]
  exact ⟨rfl, rfl, rfl⟩

theorem Line.sameLog_storedOff (now : Word) (new : Settings) (x : Line) : x.SameLog (x.storedOff now new) := ⟨rfl, rfl, rfl⟩

theorem sameLog_readiedOff (hhold : (s.line l).hold.state = .none) (hpaused : (s.line l).tx.state ≠ .paused) (new : Settings) :
    (s.line l).SameLog ((readiedOff s l new).line l) := by
  rw [readiedOff_quietly hhold hpaused]
  exact (Line.sameLog_storedOff _ _ _).trans (Line.sameLog_flowStepped _ _)

/-- A line turned on without a hold and without a pause: its transmitter is idle, and LINE ON and FORMAT SET are written (R60). -/
theorem turnedOn_logged (hoff : (s.line l).cond.state = .off) (henable : new.enable = true) (hhold : (s.line l).hold.state = .none)
    (hpaused : (s.line l).tx.state ≠ .paused) (hroomy : (s.line l).roomy 27) :
    ((applySettings s l new).line l).tx.state = .idle ∧ ((applySettings s l new).line l).tx.pause = false
      ∧ ((applySettings s l new).line l).closed = (s.line l).closed ++ (s.line l).closing .event 0 ++ [eventRecord s l .lineOn []]
        ++ [{ eventRecord s l .formatSet (formatSetArgument new) with seq := nextSeq (s.line l).cap.next }] := by
  obtain ⟨-, -, -, hidle, hpause⟩ := onSwitched_frame s l new
  have hsettings : ((readiedOff s l new).line l).io.settings = new := by
    rw [(readiedOff_stepped s l new).io, line_storeSettings]
    rfl
  have htime : (onSwitched (readiedOff s l new) l).timebase = s.timebase :=
    (timebase_onSwitched _ l).trans (timebase_readiedOff s l new)
  have hlog : (s.line l).SameLog ((onSwitched (readiedOff s l new) l).line l) := by
    rw [line_onSwitched]
    exact (sameLog_readiedOff hhold hpaused new).trans ⟨rfl, rfl, rfl⟩
  rw [line_applySettings_off_on hoff henable]
  have hbegun : onBegun s l new = onTold (onSwitched (readiedOff s l new) l) l (formatSetArgument new) := by rw [onBegun, hsettings]
  rw [hbegun]
  generalize onSwitched (readiedOff s l new) l = w at hidle hpause htime hlog ⊢
  obtain ⟨hclosed, htx⟩ := onTold_of_roomy (s := w) (l := l) (argument := formatSetArgument new) (hlog.roomy.mpr hroomy)
  rw [hlog.closed, hlog.closing, eventRecord_of_sameLog hlog htime, eventRecord_of_sameLog hlog htime, hlog.cap] at hclosed
  generalize onTold w l (formatSetArgument new) = v at hclosed htx ⊢
  exact ⟨(congrArg (·.state) htx).trans hidle, (congrArg (·.pause) htx).trans hpause, hclosed⟩

/-- The hold of a line switched on where there was none. -/
theorem hold_onSwitched (hhold : (s.line l).hold.state = .none) (hflow : new.flow = false) :
    ((onSwitched (readiedOff s l new) l).line l).noHold := by
  obtain ⟨hio, -⟩ := onSwitched_frame s l new
  refine ⟨?_, by rw [hio]; exact hflow⟩
  have hstored := line_storeSettings s l new
  have hforce := storeSettings_flow (s := s) (l := l) (new := new)
  rw [line_onSwitched, readiedOff]
  generalize storeSettings s l (s.line l).io.inForce new = v at hstored hforce ⊢
  cases hdrops : (s.line l).dropsFlow new with
  | true => exact (turnFlowOff_ended (hforce hdrops)).state
  | false =>
    change (v.line l).hold.state = .none
    rw [hstored]
    exact hhold

/-- The level that a line turned on is told (R57, R58, R60): in loopback the transmitter is idle. -/
theorem levelAfresh_onBegun (h : new.loopback = true → new.flow = false ∧ (s.line l).hold.state = .none) :
    (onBegun s l new).levelAfresh l
      = if new.loopback then .marking else if (s.line l).io.pinHigh = new.inversion then .spacing else .marking := by
  obtain ⟨hio, -⟩ := onBegun_frame s l new
  rw [State.levelAfresh, Line.receiveLevel, hio]
  dsimp only
  split
  · rename_i hloop
    obtain ⟨hflow, hhold⟩ := h hloop
    obtain ⟨-, -, -, hidle, -⟩ := onSwitched_frame s l new
    have hwork := (onTold_stage (l := l) (onSwitched (readiedOff s l new) l)
      (formatSetArgument ((readiedOff s l new).line l).io.settings)).work (hold_onSwitched hhold hflow)
    rw [← onBegun, hidle] at hwork
    rw [hwork.1]
    rfl
  · rfl

/-- The report of the level on a line turned on (R60, R66, R70). -/
theorem turnedOn_told (hoff : (s.line l).cond.state = .off) (henable : new.enable = true)
    (hlevel : (onBegun s l new).levelAfresh l = level) :
    ((applySettings s l new).line l).io.level = level
      ∧ ((applySettings s l new).line l).io.receiver = (if level = .marking then .between else .waitMarking)
      ∧ (level = .marking → ((applySettings s l new).line l).cond.downTimer = none)
      ∧ (level = .spacing → (s.line l).cond.downTimer = none →
        ((applySettings s l new).line l).cond.downTimer = some { start := s.timebase, due := false }) := by
  obtain ⟨-, hcond, -, -⟩ := onBegun_frame s l new
  rw [line_applySettings_off_on hoff henable, hlevel]
  generalize onBegun s l new = v at hcond ⊢
  refine ⟨rfl, ?_, ?_, ?_⟩
  · cases level <;> rfl
  · rintro rfl
    rfl
  · rintro rfl hnone
    rw [hcond, Condition.levelTold]
    dsimp only
    rw [hnone]
    rfl

/-! ## A line that stays off (R62) -/

theorem staysOff_cond (hoff : (s.line l).cond.state = .off) (henable : new.enable = false) :
    ((applySettings s l new).line l).cond = (s.line l).cond := by
  rw [applySettings_off_off hoff henable, (readiedOff_stepped s l new).cond, line_storeSettings]
  rfl

theorem staysOff_log (hoff : (s.line l).cond.state = .off) (henable : new.enable = false) (hhold : (s.line l).hold.state = .none)
    (hpaused : (s.line l).tx.state ≠ .paused) :
    ((applySettings s l new).line l).cap = (s.line l).cap ∧ ((applySettings s l new).line l).pool = (s.line l).pool := by
  rw [applySettings_off_off hoff henable]
  have hlog := sameLog_readiedOff hhold hpaused new
  exact ⟨hlog.cap, hlog.pool⟩

theorem staysOff_hold (hoff : (s.line l).cond.state = .off) (henable : new.enable = false) (hflow : (s.line l).dropsFlow new = false) :
    ((applySettings s l new).line l).hold.timer
      = (s.line l).hold.timer.map (retimeTimer s.timebase new.holdTimeout.toNat) := by
  have hstored := line_storeSettings s l new
  rw [applySettings_off_off hoff henable, readiedOff, hflow]
  change ((storeSettings s l (s.line l).io.inForce new).line l).hold.timer = _
  rw [hstored]
  rfl

/-! ## A line turned off (R59, R66) -/

/-- The line of a state that a SET LINE has turned off, with the other settings taken. -/
theorem line_applySettings_on_off (hon : (s.line l).cond.state ≠ .off) (henable : new.enable = false) :
    ∃ v, v = turnLineOff (readied s l new (new.keepingRate (s.line l).io.inForce)) l
      ∧ TurnedOff l (readied s l new (new.keepingRate (s.line l).io.inForce)) v
      ∧ applySettings s l new = othersSet v l (s.line l).io.inForce
      ∧ (v.line l).SameRecords ((applySettings s l new).line l) := by
  have hturned := turnLineOff_turnedOff (readied s l new (new.keepingRate (s.line l).io.inForce)) l
  have happlied : applySettings s l new
      = othersSet (turnLineOff (readied s l new (new.keepingRate (s.line l).io.inForce)) l) l (s.line l).io.inForce := by
    rw [applySettings_on_off hon henable, applyOthers_off]
    rw [hturned.cond]
    rfl
  refine ⟨_, rfl, hturned, happlied, ?_⟩
  rw [happlied]
  exact othersSet_sameRecords hturned.opened _

/-- The condition and the transmitter of a line turned off, whatever its hold was (R59). -/
theorem turnedOff_fields (hon : (s.line l).cond.state ≠ .off) (henable : new.enable = false) :
    ((applySettings s l new).line l).cond = (s.line l).cond.turnedOff
      ∧ (∃ x : Line, ∃ inUse, ((applySettings s l new).line l).tx = { x.txStopped with inUse := inUse }) := by
  obtain ⟨v, -, hturned, happlied, -⟩ := line_applySettings_on_off hon henable
  have hready := readied_readied s l new (new.keepingRate (s.line l).io.inForce)
  generalize readied s l new (new.keepingRate (s.line l).io.inForce) = w at hready hturned ⊢
  rw [happlied, othersSet_of_closed hturned.opened]
  refine ⟨?_, w.line l, (v.line l).refreshed.inUse, ?_⟩
  · rw [Line.retimed, hturned.cond, hready.cond]
    rfl
  · dsimp only
    rw [(v.line l).refreshed_eq, hturned.tx]

/-- LINE OFF on a line without a hold and without a pause (R59). -/
theorem turnedOff_logged (hon : (s.line l).cond.state ≠ .off) (henable : new.enable = false) (hhold : (s.line l).hold.state = .none)
    (hpaused : (s.line l).tx.state ≠ .paused) : LogsEvent s (applySettings s l new) l .lineOff [] := by
  obtain ⟨v, hv, -, -, hrecords⟩ := line_applySettings_on_off hon henable
  refine LogsEvent.after ?_ hrecords
  rw [readied_quietly fun _ => ⟨hhold, hpaused⟩, turnLineOff_eq] at hv
  have hready := line_readied_quietly s l new (new.keepingRate (s.line l).io.inForce)
  have htime : (s.modLine l (Line.readied new (new.keepingRate (s.line l).io.inForce))).timebase = s.timebase := rfl
  generalize s.modLine l (Line.readied new (new.keepingRate (s.line l).io.inForce)) = w at hv hready htime
  have hnone : (w.line l).hold.state = .none := by
    rw [hready, Line.readied_frame]
    exact hhold
  rw [hnone] at hv
  rw [hv, show decide (HoldState.none = HoldState.held) = false from rfl, eventWithHoldEnd_false]
  refine (logsEvent_event (lineStopped w l) l .lineOff []).congr ?_ ((timebase_lineStopped w l).trans htime) rfl rfl
  rw [line_lineStopped, hready]
  exact (Line.sameLog_readied _ _ _).trans (Line.sameLog_stopped _)

theorem port_endWaiting_send {rest : List Byte} (code : ErrorCode) (h : (s.line l).tx.waiting = some (.send q rest)) :
    (endWaiting s l code).port q = (s.port q).complete { code := code, count := some (countHalf rest.length) } := by
  rw [endWaiting, h]
  exact State.port_modPort_self _ q _

/-- The port of a waiting SEND on a line turned off: the command has ended with LINE OFF (R59, R140). -/
theorem turnedOff_waiting {rest : List Byte} (hon : (s.line l).cond.state ≠ .off) (henable : new.enable = false)
    (hwaiting : (s.line l).tx.waiting = some (.send q rest)) : ((applySettings s l new).port q).idle = true
      ∧ ((applySettings s l new).port q).error = .lineOff ∧ ((applySettings s l new).port q).count = countHalf rest.length := by
  have hready := readied_readied s l new (new.keepingRate (s.line l).io.inForce)
  rw [applySettings_on_off hon henable, turnLineOff_eq]
  generalize readied s l new (new.keepingRate (s.line l).io.inForce) = w at hready ⊢
  have hended := port_endWaiting_send (s := offSwitched w l) (l := l) (q := q) (rest := rest) .lineOff
    (by rw [line_offSwitched]; exact hready.waiting.trans hwaiting)
  rw [← lineStopped] at hended
  generalize decide ((w.line l).hold.state = .held) = b
  generalize lineStopped w l = v at hended ⊢
  have hrecorded := (withHoldEnd_recorded (l := l) b v .lineOff []).sameBlock q
  generalize eventWithHoldEnd b v l .lineOff [] = c at hrecorded ⊢
  have hothers := (applyOthers_sound (l := l) c (s.line l).io.inForce).calm.sameBlock q
  rw [Port.SameBlock, hended] at hrecorded
  rw [Port.SameBlock, hrecorded] at hothers
  rw [hothers]
  exact ⟨rfl, rfl, rfl⟩

end Sys2Proof.Machine
end

section
/-! Proofs: SET LINE that turns the flow option off: the hold, the pause and the flags end (R55, R158). -/

namespace Sys2Proof.Machine

open Host

variable {l : LineId} {s t u v : State} {p q : PortId} {old new f : Settings} {b : Bool}

/-! ## What the flow option turned off leaves in every case (R55, R158) -/

/-- A line whose flow option has gone off: no pause, no lossless flag and no hold. -/
structure Dropped (l : LineId) (s t : State) : Prop where
  pause : (t.line l).tx.pause = false
  lossless : ∀ a ∈ (t.line l).att.list, a.lossless = false
  state : (t.line l).hold.state = .none
  timer : (s.line l).hold.state ≠ .none → (t.line l).hold.timer = none

theorem FlowEnded.dropped (h : FlowEnded l u v) (hs : (u.line l).hold.state = (s.line l).hold.state)
    (htx : (t.line l).tx = (v.line l).tx) (hatt : (t.line l).att = (v.line l).att) (hhold : (t.line l).hold = (v.line l).hold) :
    Dropped l s t where
  pause := by rw [htx]; exact h.pause
  lossless := by rw [hatt]; exact h.lossless
  state := by rw [hhold]; exact h.state
  timer hheld := by rw [hhold]; exact h.timer (by rw [hs]; exact hheld)

theorem readied_dropped (hdrops : (s.line l).dropsFlow new = true) (f : Settings) : Dropped l s (readied s l new f) := by
  have hended := turnFlowOff_ended (flowStored_flow hdrops)
  have hline := line_readied s l new f
  rw [hdrops, flowStep, if_pos rfl] at hline
  have hstored : ((flowStored s l new).line l).hold = (s.line l).hold := by rw [line_flowStored]
  generalize turnFlowOff (flowStored s l new) l = v at hended hline
  exact hended.dropped (by rw [hstored]) (by rw [hline]) (by rw [hline]) (by rw [hline])

theorem readiedOff_dropped (hdrops : (s.line l).dropsFlow new = true) : Dropped l s (readiedOff s l new) := by
  have hended := turnFlowOff_ended (storeSettings_flow hdrops)
  have hstored : ((storeSettings s l (s.line l).io.inForce new).line l).hold.state = (s.line l).hold.state := by
    rw [line_storeSettings]
    rfl
  rw [readiedOff, hdrops, flowStep, if_pos rfl]
  exact hended.dropped hstored rfl rfl rfl

theorem Dropped.stage (h : Dropped l s t) (k : Stage l t u) (hflow : (t.line l).io.inForce.flow = false) : Dropped l s u := by
  obtain ⟨hstate, htimer⟩ := k.hold ⟨h.state, hflow⟩
  exact ⟨k.pause.trans h.pause, k.lossless h.lossless, hstate.trans h.state, fun hs => htimer.trans (h.timer hs)⟩

theorem Dropped.others (h : Dropped l s t) (k : OthersSet l old t u) (hflow : (t.line l).io.inForce.flow = false) : Dropped l s u := by
  obtain ⟨hstate, htimer⟩ := k.hold ⟨h.state, hflow⟩
  exact ⟨k.pause.trans h.pause, k.lossless h.lossless, hstate, fun hs => htimer.trans (by rw [h.timer hs]; rfl)⟩

/-- A line that is turned off ends no second hold. -/
theorem Dropped.turnedOff (h : Dropped l s t) (k : TurnedOff l t u) (hflow : (t.line l).io.inForce.flow = false) : Dropped l s u := by
  obtain ⟨hstate, htimer⟩ := k.hold hflow
  have htold : (t.line l).hold.told = (t.line l).hold := by rw [Hold.told, h.state]
  exact ⟨by rw [k.tx]; rfl, lossless_of_standing k.standing h.lossless, hstate, fun hs => htimer.trans (by rw [htold]; exact h.timer hs)⟩

theorem Dropped.onSwitched (h : Dropped l s t) : Dropped l s (onSwitched t l) := by
  obtain ⟨-, hlossless, hstate, htimer⟩ := h
  constructor <;> rw [line_onSwitched]
  · rfl
  · exact hlossless
  · exact hstate
  · exact htimer

/-- A SET LINE that turns the flow option off, in each of its four cases (R55, R158). -/
theorem applySettings_dropped (hflow : (s.line l).io.settings.flow = true) (hnew : new.flow = false) :
    Dropped l s (applySettings s l new) := by
  have hdrops := ((s.line l).dropsFlow_iff new).mpr ⟨hflow, hnew⟩
  by_cases hoff : (s.line l).cond.state = .off
  · have hdropped := readiedOff_dropped hdrops
    cases henable : new.enable with
    | true =>
      obtain ⟨hio, -⟩ := onSwitched_frame s l new
      rw [applySettings_off_on hoff henable]
      exact hdropped.onSwitched.stage (turnLineOn_stage _) (by rw [hio]; exact hnew)
    | false =>
      rw [applySettings_off_off hoff henable]
      exact hdropped
  · cases henable : new.enable with
    | true =>
      have hready := readied_readied s l new new
      have hdropped := readied_dropped hdrops new
      rw [applySettings_on_on hoff henable]
      generalize readied s l new new = w at hready hdropped ⊢
      have hstage := applyFormat_stage (l := l) w (s.line l).io.inForce
      have hwflow : (w.line l).io.inForce.flow = false := by rw [hready.io]; exact hnew
      exact (hdropped.stage hstage hwflow).others (applyOthers_others _ l _) (by rw [hstage.inForce]; exact hwflow)
    | false =>
      have hready := readied_readied s l new (new.keepingRate (s.line l).io.inForce)
      have hdropped := readied_dropped hdrops (new.keepingRate (s.line l).io.inForce)
      rw [applySettings_on_off hoff henable]
      generalize readied s l new (new.keepingRate (s.line l).io.inForce) = w at hready hdropped ⊢
      have hturned := turnLineOff_turnedOff w l
      have hwflow : (w.line l).io.inForce.flow = false := by rw [hready.io]; exact hnew
      exact (hdropped.turnedOff hturned hwflow).others (applyOthers_others _ l _) (by rw [hturned.inForce]; exact hwflow)

/-! ## A HELD line: XON and HOLD END (R56, R158) -/

theorem Line.state_flowPlaced_of_works {c : FlowChar} {x : Line} (h : x.tx.state.waits = false) :
    (x.flowPlaced c).state = x.tx.state := by
  rw [Line.flowPlaced, h]
  rfl

theorem Line.flowPlaced_not_paused (c : FlowChar) (x : Line) : (x.flowPlaced c).state ≠ .paused := by
  cases h : x.tx.state.waits with
  | true =>
    rw [(Line.flowPlaced_of_waits h).1]
    nofun
  | false =>
    rw [Line.state_flowPlaced_of_works h]
    intro hpaused
    rw [hpaused] at h
    exact absurd h (by decide)

/-- HOLD END of a line whose flow option goes off: the log, where the page has room. -/
structure HoldEndWritten (more : Nat) (l : LineId) (s t : State) : Prop where
  closed : (t.line l).closed = (s.line l).closed ++ (s.line l).closing .event 0 ++ [eventRecord s l .holdEnd []]
  next : (t.line l).cap.next = nextSeq (s.line l).cap.next
  roomy : (t.line l).roomy more

/-- The end of the hold of a HELD line (R158). -/
theorem holdEnded_held (hon : (s.line l).cond.state ≠ .off) (hheld : (s.line l).hold.state = .held)
    (hflow : (s.line l).io.inForce.flow = false) :
    ((holdEnded s l).line l).tx = (s.line l).flowPlaced .xon ∧ ((holdEnded s l).line l).cap.opened = none
      ∧ ∀ more, (s.line l).roomy (12 + more) → HoldEndWritten more l s (holdEnded s l) := by
  have hleft := line_leaveHold s l .none
  have hplaced := line_placeFlow (s := leaveHold s l .none) (l := l) (by rw [hleft]; exact hon) .xon
  have htime := (placeFlow_txStage (leaveHold s l .none) l .xon).timebase
  rw [hleft] at hplaced
  rw [holdEnded_of_held hheld]
  generalize placeFlow (leaveHold s l .none) l .xon = v at hplaced htime ⊢
  have hlog : (s.line l).SameLog (v.line l) := by rw [hplaced]; exact ⟨rfl, rfl, rfl⟩
  have hnoHold : (v.line l).noHold := by rw [hplaced]; exact ⟨rfl, hflow⟩
  refine ⟨?_, opened_event v l _ _, fun more hroomy => ?_⟩
  · rw [(event_holdKept hnoHold.restful .holdEnd []).tx, hplaced]
    rfl
  · have hvroomy : (v.line l).roomy (12 + more) := hlog.roomy.mpr hroomy
    have hwrote := event_wrote (s := v) (l := l) (argument := []) (hvroomy.mono (by rw [List.length_nil]; omega)) .holdEnd
    refine ⟨?_, ?_, hwrote.roomy hvroomy⟩
    · rw [hwrote.closed, hlog.closed, hlog.closing, eventRecord_of_sameLog hlog htime, List.append_assoc]
    · rw [hwrote.next, hlog.cap]
      rfl

theorem turnFlowOff_held (hon : (s.line l).cond.state ≠ .off) (hheld : (s.line l).hold.state = .held)
    (hflow : (s.line l).io.inForce.flow = false) : turnFlowOff s l = (holdEnded s l).modLine l Line.flowless := by
  obtain ⟨htx, -⟩ := holdEnded_held hon hheld hflow
  rw [turnFlowOff_eq, losslessCleared]
  generalize holdEnded s l = c at htx ⊢
  rw [endPause_of_unpaused, State.modTx_eq, State.modAtt_eq, State.modLine_modLine]
  · rfl
  · rw [State.modAtt_eq, State.line_modLine_self]
    dsimp only
    rw [htx]
    exact Line.flowPlaced_not_paused _ _

/-- A HELD line that is on, its flow option turned off and its settings in force. -/
structure HeldReadied (l : LineId) (s t : State) : Prop where
  waits : (s.line l).tx.state.waits = true → (t.line l).tx.state = .sending 0x11 ∧ (t.line l).tx.flowSlot = none
  works : (s.line l).tx.state.waits = false → (t.line l).tx.state = (s.line l).tx.state ∧ (t.line l).tx.flowSlot = some .xon
  queue : (t.line l).tx.queue = (s.line l).tx.queue
  opened : (t.line l).cap.opened = none
  log : ∀ more, (s.line l).roomy (12 + more) → HoldEndWritten more l s t

theorem readied_held (hon : (s.line l).cond.state ≠ .off) (hheld : (s.line l).hold.state = .held)
    (hdrops : (s.line l).dropsFlow new = true) (f : Settings) : HeldReadied l s (readied s l new f) := by
  have hline := line_readied s l new f
  have hstored := line_flowStored s l new
  have htime : (flowStored s l new).timebase = s.timebase := rfl
  have hflow := flowStored_flow hdrops
  rw [hdrops, flowStep, if_pos rfl] at hline
  generalize flowStored s l new = v at hline hstored htime hflow
  have hvon : (v.line l).cond.state ≠ .off := by rw [hstored]; exact hon
  have hvheld : (v.line l).hold.state = .held := by rw [hstored]; exact hheld
  have hvtx : (v.line l).tx = (s.line l).tx := by rw [hstored]
  have hlog : (s.line l).SameLog (v.line l) := by rw [hstored]; exact ⟨rfl, rfl, rfl⟩
  obtain ⟨htx, hopened, hwritten⟩ := holdEnded_held hvon hvheld hflow
  rw [turnFlowOff_held hvon hvheld hflow, State.line_modLine_self] at hline
  generalize holdEnded v l = c at hline htx hopened hwritten
  have hqueue := Line.queue_flowPlaced .xon (v.line l)
  rw [← htx, hvtx] at hqueue
  constructor
  case waits =>
    intro hwaits
    rw [hline]
    change (c.line l).tx.state = _ ∧ (c.line l).tx.flowSlot = _
    rw [htx]
    exact Line.flowPlaced_of_waits (by rw [hvtx]; exact hwaits)
  case works =>
    intro hworks
    rw [hline]
    change (c.line l).tx.state = _ ∧ (c.line l).tx.flowSlot = _
    rw [htx, ← hvtx]
    rw [← hvtx] at hworks
    exact ⟨Line.state_flowPlaced_of_works hworks, Line.flowPlaced_of_works hworks⟩
  case queue => rw [hline]; exact hqueue
  case opened => rw [hline]; exact hopened
  case log =>
    intro more hroomy
    obtain ⟨hclosed, hnext, hmore⟩ := hwritten more (hlog.roomy.mpr hroomy)
    rw [hlog.closed, hlog.closing, eventRecord_of_sameLog hlog htime] at hclosed
    rw [hlog.cap] at hnext
    constructor <;> rw [hline]
    · exact hclosed
    · exact hnext
    · exact hmore

theorem TxState.waits_iff (x : TxState) : x.waits = true ↔ x = .idle ∨ x = .paused := by
  cases x <;> simp [TxState.waits]

/-- What comes after the settings are in force leaves a line without a hold its transmitter. -/
theorem onStays_work (hon : (s.line l).cond.state ≠ .off) (henable : new.enable = true)
    (hhold : ((readied s l new new).line l).noHold) :
    ((applySettings s l new).line l).tx.state = ((readied s l new new).line l).tx.state
      ∧ ((applySettings s l new).line l).tx.flowSlot = ((readied s l new new).line l).tx.flowSlot
      ∧ ((applySettings s l new).line l).tx.queue = ((readied s l new new).line l).tx.queue := by
  rw [applySettings_on_on hon henable]
  generalize readied s l new new = w at hhold ⊢
  have hstage := applyFormat_stage (l := l) w (s.line l).io.inForce
  have hothers := applyOthers_others (applyFormat w l (s.line l).io.inForce) l (s.line l).io.inForce
  obtain ⟨hstate, hslot⟩ := hstage.work hhold
  obtain ⟨kstate, kslot⟩ := hothers.work (hstage.noHold hhold)
  exact ⟨kstate.trans hstate, kslot.trans hslot, hothers.queue.trans hstage.queue⟩

theorem readied_noHold (hdrops : (s.line l).dropsFlow new = true) (hf : f.flow = false) : ((readied s l new f).line l).noHold :=
  ⟨(readied_dropped hdrops f).state, by rw [(readied_readied s l new f).io]; exact hf⟩

/-- The log of a HELD line that stays on, where the page has room: HOLD END, and FORMAT SET where the format is set (R74, R79, R158). -/
theorem heldStays_log (hon : (s.line l).cond.state ≠ .off) (henable : new.enable = true) (hheld : (s.line l).hold.state = .held)
    (hdrops : (s.line l).dropsFlow new = true) (hpins : ¬ (s.line l).io.inForce.turnsPins new) (hroomy : (s.line l).roomy 27) :
    (¬ (s.line l).formats (s.line l).io.inForce new → ((applySettings s l new).line l).closed
        = (s.line l).closed ++ (s.line l).closing .event 0 ++ [eventRecord s l .holdEnd []])
      ∧ ((s.line l).formats (s.line l).io.inForce new → ((applySettings s l new).line l).closed
        = (s.line l).closed ++ (s.line l).closing .event 0 ++ [eventRecord s l .holdEnd []]
          ++ [{ eventRecord s l .formatSet (formatSetArgument new) with seq := nextSeq (s.line l).cap.next }]) := by
  have hready := readied_readied s l new new
  have hheldReady := readied_held hon hheld hdrops new
  rw [applySettings_on_unturned hon henable hpins]
  generalize readied s l new new = w at hready hheldReady ⊢
  obtain ⟨hclosed, hnext, hmore⟩ := hheldReady.log 15 hroomy
  have hformats : (w.line l).formats (s.line l).io.inForce (w.line l).io.inForce ↔ (s.line l).formats (s.line l).io.inForce new := by
    rw [Line.formats, hready.cond, hready.io]
    exact Iff.rfl
  refine ⟨fun h => ?_, fun h => ?_⟩
  · rw [applyFormat_of_not (hformats.not.mpr h), (othersSet_sameRecords hheldReady.opened _).closed, hclosed]
  · rw [applyFormat_of_formats (hformats.mpr h)]
    have hforce : (w.line l).io.inForce = new := by rw [hready.io]
    rw [hforce]
    have hformatted := State.line_modLine_self w l Line.formatted
    have htime : (w.modLine l Line.formatted).timebase = w.timebase := rfl
    generalize w.modLine l Line.formatted = v at hformatted htime ⊢
    have hlog : (w.line l).SameLog (v.line l) := by rw [hformatted]; exact ⟨rfl, rfl, rfl⟩
    have hopened := opened_event v l .formatSet (formatSetArgument new)
    have hwrote := event_wrote (s := v) (l := l) (argument := formatSetArgument new) (hlog.roomy.mpr hmore) .formatSet
    generalize event v l .formatSet (formatSetArgument new) = c at hopened hwrote ⊢
    have hrecord : eventRecord v l .formatSet (formatSetArgument new)
        = { eventRecord s l .formatSet (formatSetArgument new) with seq := nextSeq (s.line l).cap.next } := by
      rw [eventRecord_of_sameLog hlog htime, eventRecord, hnext, hready.timebase]
      rfl
    rw [(othersSet_sameRecords hopened _).closed, hwrote.closed, hlog.closed, hlog.closing,
      Line.closing_of_none hheldReady.opened, hrecord, hclosed, List.nil_append]

/-- The log of a HELD line that is turned off, where the page has room: HOLD END, and then LINE OFF (R59, R158; log 33). -/
theorem heldTurnedOff_log (hon : (s.line l).cond.state ≠ .off) (henable : new.enable = false) (hheld : (s.line l).hold.state = .held)
    (hdrops : (s.line l).dropsFlow new = true) (hroomy : (s.line l).roomy 24) : ((applySettings s l new).line l).closed
      = (s.line l).closed ++ (s.line l).closing .event 0 ++ [eventRecord s l .holdEnd []]
        ++ [{ eventRecord s l .lineOff [] with seq := nextSeq (s.line l).cap.next }] := by
  obtain ⟨v, hv, -, -, hrecords⟩ := line_applySettings_on_off hon henable
  have hready := readied_readied s l new (new.keepingRate (s.line l).io.inForce)
  have hheldReady := readied_held hon hheld hdrops (new.keepingRate (s.line l).io.inForce)
  have hdropped := readied_dropped hdrops (new.keepingRate (s.line l).io.inForce)
  generalize readied s l new (new.keepingRate (s.line l).io.inForce) = w at hv hready hheldReady hdropped
  obtain ⟨hclosed, hnext, hmore⟩ := hheldReady.log 12 hroomy
  rw [turnLineOff_eq, hdropped.state, show decide (HoldState.none = HoldState.held) = false from rfl, eventWithHoldEnd_false] at hv
  have hlog : (w.line l).SameLog ((lineStopped w l).line l) := by
    rw [line_lineStopped]
    exact Line.sameLog_stopped _
  have htime := timebase_lineStopped w l
  generalize lineStopped w l = c at hv hlog htime
  have hwrote := event_wrote (s := c) (l := l) (argument := []) (hlog.roomy.mpr hmore) .lineOff
  have hrecord : eventRecord c l .lineOff [] = { eventRecord s l .lineOff [] with seq := nextSeq (s.line l).cap.next } := by
    rw [eventRecord_of_sameLog hlog htime, eventRecord, hnext, hready.timebase]
    rfl
  rw [hrecords.closed, hv, hwrote.closed, hlog.closed, hlog.closing, Line.closing_of_none hheldReady.opened, hrecord, hclosed,
    List.nil_append]

/-! ## A line that is not HELD (R55, R158) -/

/-- The end of a SPENT hold, or of none, changes the hold alone. -/
theorem holdEnded_unheld (h : (s.line l).hold.state ≠ .held) : ∃ hold, (holdEnded s l).line l = { s.line l with hold := hold }
    ∧ hold.evalDue = (s.line l).hold.evalDue ∧ (holdEnded s l).timebase = s.timebase := by
  cases hstate : (s.line l).hold.state with
  | held => exact absurd hstate h
  | spent =>
    rw [holdEnded_of_spent hstate, line_leaveHold]
    exact ⟨_, rfl, rfl, rfl⟩
  | none =>
    rw [holdEnded_of_none hstate]
    exact ⟨_, rfl, rfl, rfl⟩

/-- A line that is neither HELD nor PAUSED: the flow option turned off leaves the log and the work of the transmitter. -/
theorem turnFlowOff_unheld (h : (s.line l).hold.state ≠ .held) (hpaused : (s.line l).tx.state ≠ .paused) :
    ∃ hold, (turnFlowOff s l).line l = { (s.line l).flowless with hold := hold } ∧ hold.evalDue = (s.line l).hold.evalDue := by
  obtain ⟨hold, hline, heval, -⟩ := holdEnded_unheld h
  have hcleared := line_losslessCleared (holdEnded s l) l
  rw [hline] at hcleared
  rw [turnFlowOff_eq]
  generalize losslessCleared (holdEnded s l) l = c at hcleared ⊢
  rw [endPause_of_unpaused (by rw [hcleared]; exact hpaused), State.modTx_eq, State.line_modLine_self, hcleared]
  exact ⟨hold, rfl, heval⟩

/-- A line that is PAUSED and not HELD: the flow option turned off is a start point of its transmitter (R55). -/
theorem turnFlowOff_paused (h : (s.line l).hold.state ≠ .held) (hpaused : (s.line l).tx.state = .paused) :
    ∃ v, turnFlowOff s l = startPoint v l ∧ v.timebase = s.timebase ∧ (v.line l).tx = { (s.line l).tx with pause := false } := by
  obtain ⟨hold, hline, -, htime⟩ := holdEnded_unheld h
  have hcleared := line_losslessCleared (holdEnded s l) l
  have hctime : (losslessCleared (holdEnded s l) l).timebase = (holdEnded s l).timebase := rfl
  rw [hline] at hcleared
  rw [turnFlowOff_eq]
  generalize losslessCleared (holdEnded s l) l = c at hcleared hctime ⊢
  rw [endPause_of_paused (by rw [hcleared]; exact hpaused)]
  refine ⟨_, rfl, hctime.trans htime, ?_⟩
  rw [State.modTx_eq, State.line_modLine_self, hcleared]

/-- What an unpaused transmitter without a flow character takes at a start point: the head of its queue (R52, R54). -/
theorem startPoint_takes (hslot : (s.line l).tx.flowSlot = none) (hpause : (s.line l).tx.pause = false) :
    ((s.line l).tx.queue = [] → ((startPoint s l).line l).tx.state = .idle ∧ ((startPoint s l).line l).tx.queue = [])
      ∧ (∀ c rest, (s.line l).tx.queue = .character c :: rest →
        ((startPoint s l).line l).tx.state = .sending c ∧ ((startPoint s l).line l).tx.queue = rest)
      ∧ ∀ d q rest, (s.line l).tx.queue = .marker d q :: rest →
        ((startPoint s l).line l).tx.state = .breaking d { start := s.timebase, due := false }
          ∧ ((startPoint s l).line l).tx.queue = rest := by
  refine ⟨fun hqueue => ?_, fun c rest hqueue => ?_, fun d q rest hqueue => ?_⟩
  · rw [startPoint_of_empty hslot hpause hqueue, State.line_modLine_self]
    exact ⟨rfl, hqueue⟩
  · rw [startPoint_of_character hslot hpause hqueue, line_takeEntry]
    exact ⟨rfl, rfl⟩
  · rw [startPoint_of_marker hslot hpause hqueue]
    have hline := line_takeEntry s l rest (.breaking d (startTimer s.timebase))
    generalize testDrain _ l = v at hline ⊢
    obtain ⟨hstate, -⟩ := breakSent_working (s := v) (l := l) (by rw [hline]) [byteOf d, byteOf (d / 256), byteOf q.val]
    exact ⟨hstate, (event_recorded (l := l) v .breakSent _).queue.trans (by rw [hline])⟩

/-- A line that is on and neither HELD nor PAUSED, ready for step 3 of R62. -/
theorem readied_unheld (h : (s.line l).hold.state ≠ .held) (hpaused : (s.line l).tx.state ≠ .paused)
    (hdrops : (s.line l).dropsFlow new = true) (f : Settings) : (s.line l).SameLog ((readied s l new f).line l)
      ∧ ((readied s l new f).line l).tx = { (s.line l).tx with pause := false } := by
  have hline := line_readied s l new f
  have hstored := line_flowStored s l new
  rw [hdrops, flowStep, if_pos rfl] at hline
  generalize flowStored s l new = v at hline hstored
  obtain ⟨hold, hoff, heval⟩ := turnFlowOff_unheld (s := v) (l := l) (by rw [hstored]; exact h) (by rw [hstored]; exact hpaused)
  rw [hstored] at hoff heval
  rw [hline, hoff]
  exact ⟨⟨rfl, rfl, heval⟩, rfl⟩

/-- A line that is on, PAUSED and not HELD, ready for step 3 of R62: its transmitter has taken the head of its queue (R55). -/
theorem readied_paused (h : (s.line l).hold.state ≠ .held) (hpaused : (s.line l).tx.state = .paused)
    (hdrops : (s.line l).dropsFlow new = true) (hslot : (s.line l).tx.flowSlot = none) (f : Settings) :
    let t := readied s l new f
    ((s.line l).tx.queue = [] → (t.line l).tx.state = .idle ∧ (t.line l).tx.queue = [])
      ∧ (∀ c rest, (s.line l).tx.queue = .character c :: rest → (t.line l).tx.state = .sending c ∧ (t.line l).tx.queue = rest)
      ∧ ∀ d q rest, (s.line l).tx.queue = .marker d q :: rest →
        (t.line l).tx.state = .breaking d { start := s.timebase, due := false } ∧ (t.line l).tx.queue = rest := by
  have hline := line_readied s l new f
  have hstored := line_flowStored s l new
  have htime : (flowStored s l new).timebase = s.timebase := rfl
  rw [hdrops, flowStep, if_pos rfl] at hline
  generalize flowStored s l new = v at hline hstored htime
  obtain ⟨c, hoff, hctime, htx⟩ := turnFlowOff_paused (s := v) (l := l) (by rw [hstored]; exact h) (by rw [hstored]; exact hpaused)
  rw [hstored] at htx
  have htakes := startPoint_takes (s := c) (l := l) (by rw [htx]; exact hslot) (by rw [htx])
  rw [htx, hctime, htime] at htakes
  rw [hoff] at hline
  dsimp only
  rw [hline]
  exact htakes

end Sys2Proof.Machine
end

section
/-! Proofs: the receive level that a SET LINE reports on a line that stays on (R57, R58, R68, R70, R72, R83). -/

namespace Sys2Proof.Machine

open Host

variable {l : LineId} {s t u v : State} {p q : PortId} {old new f : Settings} {b : Bool} {level : Level}

/-! ## Attachments that hear the same condition events (R83) -/

/-- The attachments of a line have the latches and the condition enables that they had. -/
structure Line.SameEars (x y : Line) : Prop where
  latches : y.latches = x.latches
  hears : ∀ p a, x.attachment p = some a → a.conditionEnable = true → ∃ b, y.attachment p = some b ∧ b.conditionEnable = true

namespace Line.SameEars

theorem trans {x y z : Line} (h : x.SameEars y) (k : y.SameEars z) : x.SameEars z where
  latches := k.latches.trans h.latches
  hears p a ha hc := by
    obtain ⟨b, hb, hbc⟩ := h.hears p a ha hc
    exact k.hears p b hb hbc

theorem of_list {x y : Line} (h : y.att.list = x.att.list) : x.SameEars y where
  latches := by rw [Line.latches, h]; rfl
  hears p a ha hc := ⟨a, by rw [Line.attachment, h]; exact ha, hc⟩

theorem of_map {x y : Line} {g : Attachment → Attachment} (h : y.att.list = x.att.list.map g)
    (hg : ∀ a : Attachment, (g a).latch = a.latch ∧ (g a).port = a.port ∧ (g a).conditionEnable = a.conditionEnable) : x.SameEars y where
  latches := by
    rw [Line.latches, h, List.map_map]
    exact List.map_congr_left fun a _ => (hg a).1
  hears p a ha hc := by
    refine ⟨g a, ?_, by rw [(hg a).2.2]; exact hc⟩
    rw [Line.attachment] at ha ⊢
    rw [h, List.find?_map]
    have hport : ((fun a : Attachment => decide (a.port = p)) ∘ g) = fun a : Attachment => decide (a.port = p) :=
      funext fun a => by rw [Function.comp_apply, (hg a).2.1]
    rw [hport, ha]
    rfl

theorem of_recorded (h : Recorded l s t) : (s.line l).SameEars (t.line l) := by
  obtain ⟨g, hg, hlist⟩ := h.marked
  exact .of_map hlist fun a => ⟨(hg a).latch, (hg a).port, congrArg (fun r => r.2.2.2.2.2.1) (hg a).standing⟩

end Line.SameEars

theorem LatchesEvent.heard {e : CondEvent} (h : LatchesEvent u t l e) (hears : (s.line l).SameEars (u.line l)) : LatchesEvent s t l e := by
  obtain ⟨hlatches, hcauses⟩ := h
  refine ⟨?_, fun p a ha hc => ?_⟩
  · have hmap : ∀ x : Line, x.att.list.map (fun a => a.latch ||| e.bit) = x.latches.map (· ||| e.bit) := fun x => by
      rw [Line.latches, List.map_map]
      rfl
    rw [hlatches, hmap, hmap, hears.latches]
  · obtain ⟨b, hb, hbc⟩ := hears.hears p a ha hc
    exact hcauses p b hb hbc

theorem Line.sameEars_flowStepped (b : Bool) (x : Line) : x.SameEars (Line.flowStepped b x) := by
  cases b with
  | true => exact .of_map (g := Attachment.lossy) rfl fun _ => ⟨rfl, rfl, rfl⟩
  | false => exact .of_list rfl

theorem Line.sameEars_readied (new f : Settings) (x : Line) : x.SameEars (x.readied new f) :=
  (Line.sameEars_flowStepped (x.dropsFlow new) x).trans (.of_list rfl)

theorem applyFormat_sameEars (s : State) (old : Settings) : (s.line l).SameEars ((applyFormat s l old).line l) := by
  by_cases h : (s.line l).formats old (s.line l).io.inForce
  · rw [applyFormat_of_formats h]
    refine Line.SameEars.trans (.of_list ?_) (.of_recorded (event_recorded _ _ _))
    rw [State.line_modLine_self]
    rfl
  · rw [applyFormat_of_not h]
    exact .of_list rfl

theorem othersSet_sameEars (s : State) (old : Settings) : (s.line l).SameEars ((othersSet s l old).line l) := by
  have hline := line_retimed s l
  rw [othersSet_eq]
  generalize s.modLine l (Line.retimed s.timebase) = v at hline ⊢
  have hfirst : (s.line l).SameEars (v.line l) := .of_list (by rw [hline]; rfl)
  refine (hfirst.trans (.of_recorded (applyMaxLength_recorded v))).trans (.of_list ?_)
  rw [line_leaseHoldRetimed]

/-! ## The free index through the stages (log 13) -/

theorem freeIndex_applyFormat (s : State) (l : LineId) (old : Settings) : (applyFormat s l old).freeIndex = s.freeIndex := by
  by_cases h : (s.line l).formats old (s.line l).io.inForce
  · rw [applyFormat_of_formats h, (event_recorded (l := l) _ _ _).frame.2.2.2.1]
    rfl
  · rw [applyFormat_of_not h]

theorem freeIndex_othersSet (s : State) (l : LineId) (old : Settings) : (othersSet s l old).freeIndex = s.freeIndex := by
  rw [othersSet_eq]
  exact (applyMaxLength_recorded (l := l) (s.modLine l (Line.retimed s.timebase))).frame.2.2.2.1

/-! ## The line before the pins -/

/-- The state of a line that stays on when the pins are looked at. -/
def pinsNext (s : State) (l : LineId) (new : Settings) : State :=
  othersSet (applyFormat (readied s l new new) l (s.line l).io.inForce) l (s.line l).io.inForce

theorem applySettings_pins (hon : (s.line l).cond.state ≠ .off) (henable : new.enable = true) :
    applySettings s l new = applyPins (pinsNext s l new) l (s.line l).io.inForce := applySettings_on hon henable

/-- The timers of the condition through FORMAT SET (R74). -/
theorem applyFormat_cond (s : State) (l : LineId) (old : Settings) :
    ((applyFormat s l old).line l).io = (s.line l).io
      ∧ ((applyFormat s l old).line l).cond.downTimer = (s.line l).cond.downTimer
      ∧ ((applyFormat s l old).line l).cond.upTimer = (s.line l).cond.upTimer := by
  by_cases h : (s.line l).formats old (s.line l).io.inForce
  · have hrecorded := event_recorded (l := l) (s.modLine l Line.formatted) .formatSet (formatSetArgument (s.line l).io.inForce)
    rw [applyFormat_of_formats h, hrecorded.io, hrecorded.cond, State.line_modLine_self]
    exact ⟨rfl, rfl, rfl⟩
  · rw [applyFormat_of_not h]
    exact ⟨rfl, rfl, rfl⟩

/-- What stands on a line that stays on when the pins are looked at. -/
structure PinsNext (l : LineId) (new : Settings) (s u : State) : Prop where
  timebase : u.timebase = s.timebase
  io : (u.line l).io = { (s.line l).io with settings := new, inForce := new }
  state : (u.line l).cond.state = if (s.line l).cond.state = .hunt then .run else (s.line l).cond.state
  downTimer : (s.line l).cond.downTimer = none → (u.line l).cond.downTimer = none
  upTimer : (s.line l).cond.upTimer = none → (u.line l).cond.upTimer = none

theorem pinsNext_pinsNext (s : State) (l : LineId) (new : Settings) : PinsNext l new s (pinsNext s l new) := by
  have hready := readied_readied s l new new
  have hstate := state_before_pins s l (s.line l).io.inForce new
  rw [pinsNext]
  generalize readied s l new new = w at hready hstate ⊢
  obtain ⟨hfio, hfdown, hfup⟩ := applyFormat_cond w l (s.line l).io.inForce
  have hftime := (applyFormat_stage (l := l) w (s.line l).io.inForce).timebase
  generalize applyFormat w l (s.line l).io.inForce = c at hfio hfdown hfup hftime hstate ⊢
  obtain ⟨hio, hcond, -⟩ := othersSet_frame c l (s.line l).io.inForce
  have htime := (othersSet_others c l (s.line l).io.inForce).timebase
  constructor
  case timebase => exact (htime.trans hftime).trans hready.timebase
  case io => exact (hio.trans hfio).trans hready.io
  case state => exact hstate
  case downTimer =>
    intro hnone
    rw [hcond, Line.retimed]
    dsimp only
    rw [hfdown, hready.cond, hnone]
    rfl
  case upTimer =>
    intro hnone
    rw [hcond, Line.retimed]
    dsimp only
    rw [hfup, hready.cond, hnone]
    rfl

/-! ### The transmitter before the pins -/

theorem noHold_readied_quietly (hhold : (s.line l).hold.state = .none) (hflow : new.flow = false) :
    ((s.line l).readied new new).noHold := by
  rw [Line.readied_frame]
  exact ⟨hhold, hflow⟩

/-- Where nothing is due and FORMAT SET has its room, or there is no flow option, FORMAT SET and a record that is full leave the work of
the transmitter (R153; log 40). -/
theorem state_pinsNext (hhold : (s.line l).hold.state = .none) (hpaused : (s.line l).tx.state ≠ .paused)
    (hroomy : (s.line l).roomy 15 ∨ new.flow = false) : ((pinsNext s l new).line l).tx.state = (s.line l).tx.state := by
  have hline := line_readied_quietly s l new new
  rw [pinsNext, readied_quietly fun _ => ⟨hhold, hpaused⟩]
  generalize s.modLine l (Line.readied new new) = w at hline ⊢
  have htx : (w.line l).tx.state = (s.line l).tx.state := by rw [hline, Line.readied_frame]
  have hforce : (w.line l).io.inForce = new := by rw [hline]; rfl
  obtain hroomy | hflow := hroomy
  · have hwroomy : (w.line l).roomy 15 := by
      rw [hline]
      exact (Line.sameLog_readied new new _).roomy.mpr hroomy
    have hformat : ∃ more, ((applyFormat w l (s.line l).io.inForce).line l).tx = (w.line l).tx
        ∧ ((applyFormat w l (s.line l).io.inForce).line l).roomy more := by
      by_cases h : (w.line l).formats (s.line l).io.inForce (w.line l).io.inForce
      · have hformatted := State.line_modLine_self w l Line.formatted
        rw [applyFormat_of_formats h]
        generalize w.modLine l Line.formatted = v at hformatted ⊢
        have hlog : (w.line l).SameLog (v.line l) := by rw [hformatted]; exact ⟨rfl, rfl, rfl⟩
        have hwrote := event_wrote (s := v) (l := l) (argument := formatSetArgument (w.line l).io.inForce) (hlog.roomy.mpr hwroomy)
          .formatSet
        exact ⟨0, by rw [hwrote.tx, hformatted]; rfl, hwrote.roomy (more := 0) (hlog.roomy.mpr hwroomy)⟩
      · rw [applyFormat_of_not h]
        exact ⟨15, rfl, hwroomy⟩
    obtain ⟨more, hftx, hfroomy⟩ := hformat
    generalize applyFormat w l (s.line l).io.inForce = c at hftx hfroomy ⊢
    have hretimed := line_retimed c l
    rw [othersSet_eq]
    generalize c.modLine l (Line.retimed c.timebase) = d at hretimed ⊢
    obtain ⟨rs, hwrote⟩ := applyMaxLength_wrote (s := d) (l := l) (by rw [hretimed]; exact hfroomy.mono (Nat.zero_le _))
    rw [line_leaseHoldRetimed, Line.refreshed_eq]
    change ((applyMaxLength d l).line l).tx.state = _
    rw [hwrote.tx, hretimed]
    exact (congrArg (·.state) hftx).trans htx
  · have hhold' : (w.line l).noHold := by rw [hline]; exact noHold_readied_quietly hhold hflow
    have hstage := applyFormat_stage (l := l) w (s.line l).io.inForce
    exact ((((othersSet_others _ l _).work (hstage.noHold hhold')).1).trans (hstage.work hhold').1).trans htx

/-- The level that a line which stays on is told (R57, R58). -/
theorem levelAfresh_pinsNext (hhold : (s.line l).hold.state = .none) (hpaused : (s.line l).tx.state ≠ .paused)
    (hroomy : new.loopback = true → (s.line l).roomy 15 ∨ new.flow = false) :
    (pinsNext s l new).levelAfresh l = if new.loopback then (s.line l).tx.state.level (freeLevel s.freeIndex)
      else if (s.line l).io.pinHigh = new.inversion then .spacing else .marking := by
  have hindex : (pinsNext s l new).freeIndex = s.freeIndex := by
    rw [pinsNext, freeIndex_othersSet, freeIndex_applyFormat, readied_quietly fun _ => ⟨hhold, hpaused⟩]
    rfl
  rw [State.levelAfresh, Line.receiveLevel, (pinsNext_pinsNext s l new).io, hindex]
  dsimp only
  split
  · rename_i hloop
    rw [state_pinsNext hhold hpaused (hroomy hloop)]
  · rfl

/-! ## The report of the level (R68, R70, R72) -/

/-- The receiver after the report of a level told afresh (R57, R58). -/
theorem reportLevelAfresh_io (hlevel : s.levelAfresh l = level) :
    ((reportLevelAfresh s l).line l).io.pinHigh = (s.line l).io.pinHigh ∧ ((reportLevelAfresh s l).line l).io.level = level
      ∧ ((reportLevelAfresh s l).line l).io.receiver = (if level = .marking then .between else .waitMarking) := by
  have hline := line_watchingAfresh s l level
  have heq : reportLevelAfresh s l = takeLevelReport (watchingAfresh s l level) l level := by rw [← hlevel]; rfl
  rw [heq]
  generalize watchingAfresh s l level = w at hline ⊢
  obtain ⟨hio, -⟩ := takeLevelReport_kept w l level
  rw [hio, hline]
  refine ⟨rfl, rfl, ?_⟩
  cases level <;> rfl

theorem reportLevelAfresh_edge (hbrk : (s.line l).cond.state ≠ .brk) :
    ((reportLevelAfresh s l).line l).tx.inUse.edgeAhead = false := by
  rw [reportLevelAfresh_eq]
  generalize (s.line l).receiveLevel (freeLevel s.freeIndex) = level
  have hline := line_watchingAfresh s l level
  generalize watchingAfresh s l level = w at hline ⊢
  obtain ⟨cond, hcond⟩ := takeLevelReport_cond (s := w) (l := l) (level := level)
    fun ⟨_, h⟩ => hbrk (by rw [hline] at h; exact h)
  rw [hcond, hline]
  rfl

/-- The report of spacing, and of marking outside a break: the condition (R70, R72). -/
theorem reportLevelAfresh_spacing (hon : (s.line l).cond.state ≠ .off) (hlevel : s.levelAfresh l = .spacing) :
    ((reportLevelAfresh s l).line l).cond.state = (s.line l).cond.state
      ∧ ((s.line l).cond.state ≠ .down → ((reportLevelAfresh s l).line l).cond.downTimer
        = some ((s.line l).cond.downTimer.getD (startTimer s.timebase))) := by
  have hline := line_watchingAfresh s l .spacing
  have htime : (watchingAfresh s l .spacing).timebase = s.timebase := rfl
  have heq : reportLevelAfresh s l = takeLevelReport (watchingAfresh s l .spacing) l .spacing := by rw [← hlevel]; rfl
  rw [heq]
  generalize watchingAfresh s l .spacing = w at hline htime ⊢
  have hcond : (w.line l).cond = (s.line l).cond := by rw [hline]; rfl
  by_cases hdown : (s.line l).cond.state = .down
  · rw [takeLevelReport_spacing_down (by rw [hcond]; exact hdown), hcond]
    exact ⟨rfl, fun h => absurd hdown h⟩
  · have hup : (w.line l).cond.state = .run ∨ (w.line l).cond.state = .brk ∨ (w.line l).cond.state = .hunt := by
      rw [hcond]
      cases hstate : (s.line l).cond.state with
      | off => exact absurd hstate hon
      | run => exact .inl rfl
      | brk => exact .inr (.inl rfl)
      | down => exact absurd hstate hdown
      | hunt => exact .inr (.inr rfl)
    rw [takeLevelReport_spacing_up hup, State.modCond_eq, State.line_modLine_self, hcond, htime]
    exact ⟨rfl, fun _ => rfl⟩

theorem reportLevelAfresh_marking_run (hrun : (s.line l).cond.state = .run) (hlevel : s.levelAfresh l = .marking) :
    ((reportLevelAfresh s l).line l).cond.state = .run ∧ ((reportLevelAfresh s l).line l).cond.downTimer = none := by
  rw [line_reportLevelAfresh_run hrun, hlevel]
  exact ⟨hrun, rfl⟩

theorem reportLevelAfresh_marking_down (hdown : (s.line l).cond.state = .down) (hlevel : s.levelAfresh l = .marking) :
    ((reportLevelAfresh s l).line l).cond.state = .down ∧ ((reportLevelAfresh s l).line l).cond.downTimer = none
      ∧ ((reportLevelAfresh s l).line l).cond.upTimer = some ((s.line l).cond.upTimer.getD (startTimer s.timebase)) := by
  have hline := line_watchingAfresh s l .marking
  have htime : (watchingAfresh s l .marking).timebase = s.timebase := rfl
  have heq : reportLevelAfresh s l = takeLevelReport (watchingAfresh s l .marking) l .marking := by rw [← hlevel]; rfl
  rw [heq]
  generalize watchingAfresh s l .marking = w at hline htime ⊢
  have hcond : (w.line l).cond = (s.line l).cond := by rw [hline]; rfl
  rw [takeLevelReport_marking_down (by rw [hcond]; exact hdown), State.modCond_eq, State.line_modLine_self, hcond, htime]
  exact ⟨hdown, rfl, rfl⟩

/-- The break of a line ends with the report of marking (R68, R69). -/
theorem reportLevelAfresh_marking_brk (hbrk : (s.line l).cond.state = .brk) (hlevel : s.levelAfresh l = .marking) :
    ∃ w, reportLevelAfresh s l = conditionEvent w l .breakEnd [] ∧ w.timebase = s.timebase ∧ (s.line l).SameLog (w.line l)
      ∧ (w.line l).att = (s.line l).att ∧ (w.line l).cond = { (s.line l).cond with
          state := .run, downTimer := none, nullPending := (s.line l).io.inForce.breakNull } := by
  have hline := line_watchingAfresh s l .marking
  have htime : (watchingAfresh s l .marking).timebase = s.timebase := rfl
  have heq : reportLevelAfresh s l = takeLevelReport (watchingAfresh s l .marking) l .marking := by rw [← hlevel]; rfl
  rw [heq]
  generalize watchingAfresh s l .marking = w at hline htime ⊢
  have hended := line_breakEnded w l
  have hetime : (breakEnded w l).timebase = w.timebase := rfl
  refine ⟨breakEnded w l, takeLevelReport_marking_brk (by rw [hline]; exact hbrk), hetime.trans htime, ?_, ?_, ?_⟩ <;>
    rw [hended, hline]
  · exact ⟨rfl, rfl, rfl⟩
  · rfl
  · rfl

/-! ## The pins of a line that stays on -/

/-- A line whose pins do not change keeps the level that it has seen, and its receiver (R62). -/
theorem pins_kept (hon : (s.line l).cond.state ≠ .off) (henable : new.enable = true)
    (hpins : ¬ (s.line l).io.inForce.turnsPins new) : ((applySettings s l new).line l).io.pinHigh = (s.line l).io.pinHigh
      ∧ ((applySettings s l new).line l).io.level = (s.line l).io.level
      ∧ ((applySettings s l new).line l).io.receiver = (s.line l).io.receiver := by
  have hnext := pinsNext_pinsNext s l new
  rw [applySettings_pins hon henable, applyPins_of_not (by rw [hnext.io]; exact hpins), hnext.io]
  exact ⟨rfl, rfl, rfl⟩

/-- A line whose pins change has the level reported afresh, after the other settings (R57, R58). -/
theorem applySettings_turned (hon : (s.line l).cond.state ≠ .off) (henable : new.enable = true)
    (hpins : (s.line l).io.inForce.turnsPins new) : applySettings s l new = reportLevelAfresh (pinsNext s l new) l := by
  rw [applySettings_pins hon henable, applyPins_of_turns (by rw [(pinsNext_pinsNext s l new).io]; exact hpins)]

/-- A claim about an event reads the log, its pool and the timebase alone. -/
theorem LogsEvent.before {e : Event} {argument : List Byte} (h : LogsEvent u t l e argument) (k : (s.line l).SameRecords (u.line l))
    (hpool : (u.line l).pool = (s.line l).pool) (heval : (u.line l).hold.evalDue = (s.line l).hold.evalDue)
    (htime : u.timebase = s.timebase) : LogsEvent s t l e argument := by
  intro hroomy
  obtain ⟨hclosed, hopened, hnext, holdest⟩ := h (by
    rw [Line.roomy, Line.room, hpool, heval]
    exact hroomy)
  rw [k.closed, Line.closing, k.opened, eventRecord, k.next, htime] at hclosed
  exact ⟨hclosed, hopened, hnext.trans (by rw [k.next]), holdest.trans k.oldest⟩

theorem pinsNext_sameEars (hhold : (s.line l).hold.state = .none) (hpaused : (s.line l).tx.state ≠ .paused) (new : Settings) :
    (s.line l).SameEars ((pinsNext s l new).line l) := by
  have hears := Line.sameEars_readied new new (s.line l)
  rw [← line_readied_quietly, ← readied_quietly fun _ => ⟨hhold, hpaused⟩] at hears
  exact (hears.trans (applyFormat_sameEars _ _)).trans (othersSet_sameEars _ _)

/-- With no record open and no FORMAT SET, the stages before the pins write nothing. -/
theorem pinsNext_log (hhold : (s.line l).hold.state = .none) (hpaused : (s.line l).tx.state ≠ .paused)
    (hopened : (s.line l).cap.opened = none) (hformats : ¬ (s.line l).formats (s.line l).io.inForce new) :
    (s.line l).SameRecords ((pinsNext s l new).line l) ∧ ((pinsNext s l new).line l).pool = (s.line l).pool
      ∧ ((pinsNext s l new).line l).hold.evalDue = (s.line l).hold.evalDue := by
  have hline := line_readied_quietly s l new new
  rw [pinsNext, readied_quietly fun _ => ⟨hhold, hpaused⟩]
  generalize s.modLine l (Line.readied new new) = w at hline ⊢
  have hlog : (s.line l).SameLog (w.line l) := by rw [hline]; exact Line.sameLog_readied new new _
  have hwopened : (w.line l).cap.opened = none := by rw [hlog.cap]; exact hopened
  rw [applyFormat_of_not (by rw [hline, Line.formats_readied]; exact hformats)]
  have hrecords := othersSet_sameRecords hwopened (s.line l).io.inForce
  have hset := othersSet_of_closed hwopened (s.line l).io.inForce
  generalize othersSet w l (s.line l).io.inForce = u at hrecords hset
  refine ⟨⟨hrecords.closed.trans hlog.closed, hrecords.opened.trans (by rw [hlog.cap]), hrecords.next.trans (by rw [hlog.cap]),
    hrecords.oldest.trans (by rw [hlog.cap])⟩, ?_, ?_⟩
  · rw [hset]
    exact hlog.pool
  · rw [hset]
    exact hlog.evalDue

/-- BREAK END on a line whose pins change to marking: latched, and logged where neither a record is open nor the format is set (R68, R83). -/
theorem pins_breakEnd (hon : (s.line l).cond.state ≠ .off) (henable : new.enable = true)
    (hhold : (s.line l).hold.state = .none) (hpaused : (s.line l).tx.state ≠ .paused)
    (hpins : (s.line l).io.inForce.turnsPins new) (hbrk : (s.line l).cond.state = .brk)
    (hlevel : (pinsNext s l new).levelAfresh l = .marking) :
    let t := applySettings s l new
    (t.line l).cond.state = .run ∧ (t.line l).cond.downTimer = none ∧ (t.line l).cond.nullPending = new.breakNull
      ∧ LatchesEvent s t l .breakEnd
      ∧ ((s.line l).cap.opened = none → (s.line l).io.inForce.divisor = new.divisor → (s.line l).io.inForce.format = new.format →
        LogsEvent s t l .breakEnd []) := by
  have hnext := pinsNext_pinsNext s l new
  have hears := pinsNext_sameEars hhold hpaused new
  have hlog := pinsNext_log (new := new) hhold hpaused
  rw [applySettings_turned hon henable hpins]
  generalize pinsNext s l new = u at hnext hears hlog hlevel ⊢
  obtain ⟨w, hevent, htime, hwlog, hatt, hwcond⟩ := reportLevelAfresh_marking_brk
    (by rw [hnext.state, hbrk, if_neg (by decide)]) hlevel
  obtain ⟨-, hcond, -⟩ := conditionEvent_frame (l := l) w .breakEnd []
  have hlatches : LatchesEvent u (conditionEvent w l .breakEnd []) l .breakEnd :=
    latchesEvent_conditionEvent (by rw [hatt]) .breakEnd []
  have hlogs : LogsEvent u (conditionEvent w l .breakEnd []) l .breakEnd [] := logsEvent_conditionEvent hwlog htime .breakEnd []
  dsimp only
  rw [hevent, hcond, hwcond, hnext.io]
  refine ⟨rfl, rfl, rfl, hlatches.heard hears, fun hopened hdivisor hformat => ?_⟩
  obtain ⟨hrecords, hpool, heval⟩ := hlog hopened (Line.not_formats (by rw [hbrk]; decide) hdivisor hformat)
  exact hlogs.before hrecords hpool heval hnext.timebase

end Sys2Proof.Machine
end

section
/-! Proofs: SET LINE as a whole (R9, R10, R55, R57 to R62, R66, R68 to R74, R79, R89, R111, R156, R158). -/

namespace Sys2Proof.Machine

open Host

variable {l : LineId} {s t u v : State} {p q : PortId} {old new f : Settings} {b : Byte} {level : Level}

/-! ## The command and the end of its data (R61) -/

theorem exec_setLine_refused (hcall : s.calls p l) (hcontrol : (s.line l).hasControl p = false) :
    exec (.setLine p) s = .next (s.answer p false { code := .noControl }) :=
  congrArg Outcome.next (controlCommand_refused hcall hcontrol false _)

theorem exec_setLine_taken (hcall : s.calls p l) (hcontrol : (s.line l).hasControl p = true) :
    exec (.setLine p) s = .next (beginData (beginCommand s p false) p (.setLine l) settingsLength) :=
  congrArg Outcome.next (controlCommand_of_calls hcall hcontrol false fun t k => beginData t p (.setLine k) settingsLength)

/-- A state in which a settings record has been applied from another one, its command about to complete (R61, R62). -/
structure SettingsApplied (l : LineId) (p : PortId) (new : Settings) (s t : State) : Prop where
  line : t.line l = (applySettings s l new).line l
  phase : (t.port p).phase = .completing {}
  port : ∀ q, q ≠ p → t.port q = (applySettings s l new).port q
  causes : ∀ q, (t.port q).causes = ((applySettings s l new).port q).causes

theorem prepare_settingsApplied (s : State) (l : LineId) (p : PortId) (new : Settings) :
    SettingsApplied l p new s (prepare (applySettings s l new) p {}) := by
  generalize hu : applySettings s l new = u
  refine ⟨by rw [hu]; rfl, ?_, fun q hq => ?_, fun q => by rw [hu]; exact causes_prepare u p q {}⟩
  · rw [prepare, State.port_modPort_self]
  · rw [hu, prepare, State.port_modPort_ne _ _ _ _ hq]

/-- The last byte of a settings record that is in range, from a port that still has the control right. -/
theorem exec_settings_applied (h : s.endsSetLine p l b new) :
    ∃ t, exec (.dataWrite p b) s = .next t ∧ SettingsApplied l p new (s.modPort p (Port.written b)) t := by
  obtain ⟨hreset, hphase, hlast, hrecord, hcontrol⟩ := h
  refine ⟨_, exec_dataWrite_last hreset hphase hlast, ?_⟩
  rw [DataOut.ends, endSetLineData, port_written, show settingsOf ((s.port p).written b).buffer = some new from hrecord]
  dsimp only
  rw [State.line_modPort, if_pos hcontrol]
  exact prepare_settingsApplied _ l p new

theorem exec_settings_badArgument (hreset : (s.port p).resetAsserted = false) (hphase : (s.port p).phase = .writing (.setLine l))
    (hlast : (s.port p).buffer.length + 1 = (s.port p).transferLength) (hnone : settingsOf ((s.port p).buffer ++ [b]) = none) :
    exec (.dataWrite p b) s = .next (failCheck (s.modPort p (Port.written b)) p .badArgument) := by
  rw [exec_dataWrite_last hreset hphase hlast, DataOut.ends, endSetLineData, port_written,
    show settingsOf ((s.port p).written b).buffer = none from hnone]

theorem exec_settings_noControl (hreset : (s.port p).resetAsserted = false) (hphase : (s.port p).phase = .writing (.setLine l))
    (hlast : (s.port p).buffer.length + 1 = (s.port p).transferLength) (hnew : settingsOf ((s.port p).buffer ++ [b]) = some new)
    (hcontrol : (s.line l).hasControl p = false) :
    exec (.dataWrite p b) s = .next (failCheck (s.modPort p (Port.written b)) p .noControl) := by
  rw [exec_dataWrite_last hreset hphase hlast, DataOut.ends, endSetLineData, port_written,
    show settingsOf ((s.port p).written b).buffer = some new from hnew]
  dsimp only
  rw [State.line_modPort, hcontrol, if_neg Bool.false_ne_true]

theorem failCheck_written (s : State) (p : PortId) (b : Byte) (code : ErrorCode) :
    (failCheck (s.modPort p (Port.written b)) p code).lines = s.lines
      ∧ ((failCheck (s.modPort p (Port.written b)) p code).port p).phase = .completing { code := code } :=
  ⟨rfl, by rw [failCheck, prepare, State.port_modPort_self]⟩

/-! ## What is told of a line, carried over to the state after the command -/

namespace SettingsApplied

theorem logsEvent (h : SettingsApplied l p new s t) {e : Event} {argument : List Byte}
    (k : LogsEvent s (applySettings s l new) l e argument) : LogsEvent s t l e argument :=
  k.congr (.refl _) rfl (by rw [h.line]) (by rw [h.line])

theorem latchesEvent (h : SettingsApplied l p new s t) {e : CondEvent}
    (k : LatchesEvent s (applySettings s l new) l e) : LatchesEvent s t l e :=
  k.after (by rw [h.line]) (.of_causes h.causes)

end SettingsApplied

/-! ## A settings record applied (R62), case by case -/

/-- A line that stays on, without a hold, a pause or a change of its pins. -/
theorem onStays_spec (hon : (s.line l).cond.state ≠ .off) (henable : new.enable = true) (hhold : (s.line l).hold.state = .none)
    (hpaused : (s.line l).tx.state ≠ .paused) (hloop : (s.line l).io.inForce.loopback = new.loopback)
    (hinv : (s.line l).io.inForce.inversion = new.inversion) :
    let x := s.line l
    let old := x.io.inForce
    let t := applySettings s l new
    (t.line l).cond.state = (if x.cond.state = .hunt then .run else x.cond.state)
      ∧ (x.cond.state = .hunt ∨ old.divisor ≠ new.divisor ∨ old.format ≠ new.format →
        (t.line l).cond.score = [] ∧ (t.line l).watch = x.watch.map (fun w => { w with progress := 0 })
          ∧ LogsEvent s t l .formatSet (formatSetArgument new))
      ∧ (x.cond.state ≠ .hunt → old.divisor = new.divisor → old.format = new.format → x.roomy 0 →
        (t.line l).cond.score = x.cond.score ∧ (t.line l).watch = x.watch ∧ (t.line l).cap.next = x.cap.next
          ∧ (∀ o, x.cap.opened = some o → new.maxLength.toNat ≤ o.body.length →
            (t.line l).closed = x.closed ++ [o.closed .full 0])
          ∧ (∀ o, x.cap.opened = some o → o.body.length < new.maxLength.toNat →
            (t.line l).cap.opened = some o ∧ (t.line l).closed = x.closed)) := by
  have hpins := Settings.not_turnsPins hloop hinv
  have hquiet := readied_quietly (s := s) (l := l) (new := new) (fun _ => ⟨hhold, hpaused⟩) new
  have hline := line_readied_quietly s l new new
  have hlog := Line.sameLog_readied new new (s.line l)
  dsimp only
  refine ⟨?_, fun hformats => ?_, fun hhunt hdivisor hformat hroomy => ?_⟩
  · rw [applySettings_on_unturned hon henable hpins]
    exact state_before_pins s l _ new
  · rw [applySettings_on_unturned hon henable hpins, hquiet]
    exact formatSet_of_formats hformats
  · obtain ⟨hretimed, hcond, hwatch⟩ := onStays_retimed hon henable hpins (Line.not_formats hhunt hdivisor hformat)
      (by rw [hquiet, hline]; exact hlog.roomy.mpr hroomy)
    have hscore : (((s.line l).readied new new).retimed s.timebase).cond.score = (s.line l).cond.score := by
      rw [Line.readied_frame]
      rfl
    have hforce : ((s.line l).readied new new).io.inForce = new := rfl
    rw [hquiet, hline] at hcond
    have hnext := hretimed.next
    have hfull := hretimed.full
    have hbelow := hretimed.below
    rw [hquiet, hline, hlog.cap, hforce, hlog.closed] at hfull hbelow
    rw [hquiet, hline, hlog.cap] at hnext
    exact ⟨(congrArg (·.score) hcond).trans hscore, hwatch, hnext, hfull,
      fun o ho hlt => ⟨(hbelow o ho hlt).1, (hbelow o ho hlt).2.1⟩⟩

end Sys2Proof.Machine
end

section
/-! Proofs: SET LINE as a whole: its parts put together (R9, R10, R55, R57 to R62, R66, R68 to R74, R79, R89, R111, R156, R158). -/

namespace Sys2Proof.Machine

open Host

variable {l : LineId} {s t u v : State} {p q : PortId} {old new f : Settings} {b : Byte} {level : Level}

/-! ## The flow option turned off (R55, R158) -/

/-- A line that stays on and was not HELD, with its flow option turned off: the work of its transmitter (R55). -/
theorem unheldStays_work (hon : (s.line l).cond.state ≠ .off) (henable : new.enable = true) (hheld : (s.line l).hold.state ≠ .held)
    (hdrops : (s.line l).dropsFlow new = true) :
    let x := s.line l
    let t := applySettings s l new
    (x.tx.state ≠ .paused → (t.line l).tx.state = x.tx.state ∧ (t.line l).tx.flowSlot = x.tx.flowSlot ∧ (t.line l).tx.queue = x.tx.queue)
      ∧ (x.tx.state = .paused → x.tx.flowSlot = none →
        (x.tx.queue = [] → (t.line l).tx.state = .idle ∧ (t.line l).tx.queue = [])
          ∧ (∀ c rest, x.tx.queue = .character c :: rest → (t.line l).tx.state = .sending c ∧ (t.line l).tx.queue = rest)
          ∧ ∀ d q rest, x.tx.queue = .marker d q :: rest →
            (t.line l).tx.state = .breaking d { start := s.timebase, due := false } ∧ (t.line l).tx.queue = rest) := by
  obtain ⟨-, hflow⟩ := ((s.line l).dropsFlow_iff new).mp hdrops
  obtain ⟨hstate, hslot, hqueue⟩ := onStays_work hon henable (readied_noHold hdrops hflow)
  dsimp only
  rw [hstate, hslot, hqueue]
  refine ⟨fun hpaused => ?_, fun hpaused hnone => readied_paused hheld hpaused hdrops hnone new⟩
  obtain ⟨-, htx⟩ := readied_unheld hheld hpaused hdrops new
  rw [htx]
  exact ⟨rfl, rfl, rfl⟩

/-- A SPENT line that stays on and writes no FORMAT SET gives no number (R158). -/
theorem spentStays_next (hon : (s.line l).cond.state ≠ .off) (henable : new.enable = true) (hheld : (s.line l).hold.state ≠ .held)
    (hdrops : (s.line l).dropsFlow new = true) (hpaused : (s.line l).tx.state ≠ .paused)
    (hpins : ¬ (s.line l).io.inForce.turnsPins new) (hformats : ¬ (s.line l).formats (s.line l).io.inForce new)
    (hroomy : (s.line l).roomy 0) : ((applySettings s l new).line l).cap.next = (s.line l).cap.next := by
  obtain ⟨hlog, -⟩ := readied_unheld hheld hpaused hdrops new
  obtain ⟨hretimed, -⟩ := onStays_retimed hon henable hpins hformats (hlog.roomy.mpr hroomy)
  exact hretimed.next.trans (by rw [hlog.cap])

/-- A HELD line that stays on, with its flow option turned off: XON, and its log where the page has room (R56, R158). -/
theorem heldStays_spec (hon : (s.line l).cond.state ≠ .off) (henable : new.enable = true) (hheld : (s.line l).hold.state = .held)
    (hdrops : (s.line l).dropsFlow new = true) :
    let x := s.line l
    let t := applySettings s l new
    let waits := x.tx.state = .idle ∨ x.tx.state = .paused
    (waits → (t.line l).tx.state = .sending 0x11 ∧ (t.line l).tx.flowSlot = none)
      ∧ (¬ waits → (t.line l).tx.state = x.tx.state ∧ (t.line l).tx.flowSlot = some .xon)
      ∧ (t.line l).tx.queue = x.tx.queue := by
  obtain ⟨-, hflow⟩ := ((s.line l).dropsFlow_iff new).mp hdrops
  have hready := readied_held hon hheld hdrops new
  obtain ⟨hstate, hslot, hqueue⟩ := onStays_work hon henable (readied_noHold hdrops hflow)
  dsimp only
  rw [hstate, hslot, hqueue, ← TxState.waits_iff, Bool.not_eq_true]
  exact ⟨hready.waits, hready.works, hready.queue⟩

/-! ## The timers of a line that stays on (R9, R73, R156) -/

/-- A line that stays on with its flow option, without FORMAT SET and with its pins: its hold, and its timers under their durations. -/
theorem keptStays_timers (hon : (s.line l).cond.state ≠ .off) (henable : new.enable = true) (hflow : (s.line l).dropsFlow new = false)
    (hpins : ¬ (s.line l).io.inForce.turnsPins new) (hformats : ¬ (s.line l).formats (s.line l).io.inForce new)
    (hroomy : (s.line l).roomy 0) :
    let x := s.line l
    let t := applySettings s l new
    (t.line l).hold.state = x.hold.state
      ∧ (t.line l).hold.timer = x.hold.timer.map (retimeTimer s.timebase new.holdTimeout.toNat)
      ∧ (t.line l).cond.downTimer = x.cond.downTimer.map (retimeTimer s.timebase new.downTime.toNat)
      ∧ (t.line l).cond.upTimer = x.cond.upTimer.map (retimeTimer s.timebase new.upTime.toNat)
      ∧ (∀ o, x.cap.opened = some o → o.body.length < new.maxLength.toNat →
        (t.line l).cap.idleTimer = x.cap.idleTimer.map (retimeTimer s.timebase new.idleGap.toNat)) := by
  have hquiet := readied_quietly (s := s) (l := l) (new := new) (fun h => absurd (hflow.symm.trans h) Bool.false_ne_true) new
  have hline := line_readied_quietly s l new new
  have hlog := Line.sameLog_readied new new (s.line l)
  have hframe := Line.readied_frame new new (s.line l)
  obtain ⟨hretimed, hcond, -⟩ := onStays_retimed hon henable hpins hformats (by rw [hquiet, hline]; exact hlog.roomy.mpr hroomy)
  have hstate := hretimed.state
  have htimer := hretimed.timer
  have hbelow := hretimed.below
  rw [hquiet, hline] at hstate htimer hbelow hcond
  rw [hframe] at hstate htimer hbelow hcond
  dsimp only
  rw [hcond]
  exact ⟨hstate, htimer, rfl, rfl, fun o ho hlt => (hbelow o ho hlt).2.2⟩

/-! ## The level (R57, R58) -/

/-- A line that stays on and whose pins change: what is reported, by the level (R57, R58, R68, R70, R72). -/
theorem turnsPins_spec (hon : (s.line l).cond.state ≠ .off) (henable : new.enable = true) (hhold : (s.line l).hold.state = .none)
    (hpaused : (s.line l).tx.state ≠ .paused) (hpins : (s.line l).io.inForce.turnsPins new)
    (hlevel : (pinsNext s l new).levelAfresh l = level) :
    let x := s.line l
    let old := x.io.inForce
    let fresh : Timer := { start := s.timebase, due := false }
    let t := applySettings s l new
    (t.line l).io.pinHigh = x.io.pinHigh ∧ (t.line l).io.level = level
      ∧ (t.line l).io.receiver = (if level = .marking then .between else .waitMarking)
      ∧ (x.cond.state ≠ .brk → (t.line l).tx.inUse.edgeAhead = false)
      ∧ (level = .spacing →
        (t.line l).cond.state = (if x.cond.state = .hunt then .run else x.cond.state)
          ∧ (x.cond.state ≠ .down → x.cond.downTimer = none → (t.line l).cond.downTimer = some fresh))
      ∧ (level = .marking → (t.line l).cond.downTimer = none
        ∧ (x.cond.state = .run ∨ x.cond.state = .hunt → (t.line l).cond.state = .run)
        ∧ (x.cond.state = .down → (t.line l).cond.state = .down
          ∧ (x.cond.upTimer = none → (t.line l).cond.upTimer = some fresh))
        ∧ (x.cond.state = .brk → (t.line l).cond.state = .run ∧ (t.line l).cond.nullPending = new.breakNull
          ∧ LatchesEvent s t l .breakEnd
          ∧ (x.cap.opened = none → old.divisor = new.divisor → old.format = new.format → LogsEvent s t l .breakEnd []))) := by
  have hnext := pinsNext_pinsNext s l new
  have hbreak := pins_breakEnd hon henable hhold hpaused hpins (s := s) (l := l)
  have happlied := applySettings_turned hon henable hpins
  generalize pinsNext s l new = u at hnext hbreak happlied hlevel
  have hstate := hnext.state
  obtain ⟨hpin, hio, hreceiver⟩ := reportLevelAfresh_io hlevel
  have huon : (u.line l).cond.state ≠ .off := by
    rw [hstate]
    split
    · decide
    · exact hon
  dsimp only
  refine ⟨by rw [happlied, hpin, hnext.io], by rw [happlied]; exact hio, by rw [happlied]; exact hreceiver, fun hbrk => ?_, fun hspacing => ?_, fun hmarking => ?_⟩
  · rw [happlied]
    refine reportLevelAfresh_edge ?_
    rw [hstate]
    split
    · decide
    · exact hbrk
  · obtain ⟨hkept, hdown⟩ := reportLevelAfresh_spacing huon (hlevel.trans hspacing)
    rw [happlied]
    refine ⟨hkept.trans hstate, fun hup hnone => ?_⟩
    rw [hdown, hnext.downTimer hnone, hnext.timebase]
    · rfl
    · rw [hstate]
      split
      · decide
      · exact hup
  · have hmark := hlevel.trans hmarking
    have hrun : (s.line l).cond.state = .run ∨ (s.line l).cond.state = .hunt →
        ((applySettings s l new).line l).cond.state = .run ∧ ((applySettings s l new).line l).cond.downTimer = none := by
      intro h
      rw [happlied]
      refine reportLevelAfresh_marking_run ?_ hmark
      obtain h | h := h <;> rw [hstate, h] <;> rfl
    have hdown : (s.line l).cond.state = .down → ((applySettings s l new).line l).cond.state = .down
        ∧ ((applySettings s l new).line l).cond.downTimer = none
        ∧ ((applySettings s l new).line l).cond.upTimer = some ((u.line l).cond.upTimer.getD (startTimer s.timebase)) := by
      intro h
      rw [happlied, ← hnext.timebase]
      exact reportLevelAfresh_marking_down (by rw [hstate, h]; rfl) hmark
    refine ⟨?_, fun h => (hrun h).1, fun h => ⟨(hdown h).1, fun hnone => ?_⟩, fun h => ?_⟩
    · cases hcond : (s.line l).cond.state with
      | off => exact absurd hcond hon
      | run => exact (hrun (.inl hcond)).2
      | brk => exact (hbreak hcond hmark).2.1
      | down => exact (hdown hcond).2.1
      | hunt => exact (hrun (.inr hcond)).2
    · rw [(hdown h).2.2, hnext.upTimer hnone]
      rfl
    · obtain ⟨hrunning, -, hnull, hlatches, hlogs⟩ := hbreak h hmark
      exact ⟨hrunning, hnull, hlatches, hlogs⟩

/-! ## The statement -/

/-- Settles O46: the command and its checks; the settings in force, the flow option, the level and the timers, each a part of its own. -/
theorem setLineReplacesTheSettings : Obligations.SetLineReplacesTheSettings := by
  refine ⟨fun s p l hcall => ⟨exec_setLine_refused hcall, fun hcontrol => ?taken⟩,
    fun s p l b hreset hphase hlast => ⟨fun hnone => ⟨_, exec_settings_badArgument hreset hphase hlast hnone, failCheck_written s p b _⟩,
      fun new hnew => ⟨fun hcontrol => ⟨_, exec_settings_noControl hreset hphase hlast hnew hcontrol, failCheck_written s p b _⟩,
        fun hcontrol => ?applied⟩⟩,
    fun s p l b new hends hflow hnew => ?flow, ⟨fun s p l b new hends => ?level, fun s p l b new hends => ?levelOn⟩,
    fun s p l b new hends => ?timers⟩
  case taken =>
    refine ⟨_, exec_setLine_taken hcall hcontrol, rfl, ?_, ?_, ?_, ?_, ?_, ?_⟩ <;> rw [port_beginData_beginCommand]
    all_goals rfl
  case applied =>
    obtain ⟨t, hexec, h⟩ := exec_settings_applied ⟨hreset, hphase, hlast, hnew, hcontrol⟩
    obtain ⟨hsettings, hforce, hlease⟩ := applySettings_inForce (s.modPort p (Port.written b)) l new
    have hput : ∀ {g}, (s.line l).putInForce new = g → (t.line l).io.inForce = g := fun hg => by
      rw [h.line, hforce]
      exact hg
    refine ⟨t, hexec, h.phase, by rw [h.line, hsettings], fun hzero => ?_, fun hzero hne => ?_,
      fun hon henable => ⟨hput (if_pos henable), fun hhold hpaused hloop hinv => ?_⟩,
      fun hoff henable => ⟨hput (if_pos henable), ?_⟩, fun hon henable => ⟨hput ?_, ?_⟩, fun hoff henable => ⟨hput ?_, ?_⟩⟩
    · rw [h.line, hlease, Line.leaseSet_of_zero _ _ hzero]
    · rw [h.line, hlease]
      exact Line.leaseSet_of_fresh (x := s.line l) _ hzero hne
    · obtain ⟨hstate, hformats, hkept⟩ := onStays_spec (s := s.modPort p (Port.written b)) hon henable hhold hpaused hloop hinv
      rw [h.line]
      refine ⟨hstate, fun hf => ?_, hkept⟩
      obtain ⟨hscore, hwatch, hlogs⟩ := hformats hf
      exact ⟨hscore, hwatch, h.logsEvent hlogs⟩
    · obtain ⟨hstate, hscore, hwatch⟩ := turnedOn_fields (s := s.modPort p (Port.written b)) hoff henable
      rw [h.line]
      exact ⟨hstate, hscore, hwatch, turnedOn_logged (s := s.modPort p (Port.written b)) hoff henable⟩
    · rw [Line.putInForce, if_neg (by rw [henable]; exact Bool.false_ne_true), if_neg hon]
      rfl
    · obtain ⟨hcond, x, inUse, htx⟩ := turnedOff_fields (s := s.modPort p (Port.written b)) hon henable
      rw [h.line, htx]
      refine ⟨hcond, rfl, rfl, rfl, rfl, rfl, rfl, fun hhold hpaused =>
        h.logsEvent (turnedOff_logged (s := s.modPort p (Port.written b)) hon henable hhold hpaused), fun q r hwaiting hq => ?_⟩
      rw [h.port q hq]
      exact turnedOff_waiting (s := s.modPort p (Port.written b)) hon henable hwaiting
    · rw [Line.putInForce, if_neg (by rw [henable]; exact Bool.false_ne_true), if_pos hoff]
      rfl
    · rw [h.line]
      exact ⟨staysOff_cond (s := s.modPort p (Port.written b)) hoff henable, staysOff_log (s := s.modPort p (Port.written b)) hoff henable⟩
  case flow =>
    obtain ⟨t, hexec, h⟩ := exec_settings_applied hends
    have hdrops : ((s.modPort p (Port.written b)).line l).dropsFlow new = true := (Line.dropsFlow_iff _ new).mpr ⟨hflow, hnew⟩
    obtain ⟨hpause, hlossless, hstate, htimer⟩ := applySettings_dropped (s := s.modPort p (Port.written b)) hflow hnew
    refine ⟨t, hexec, ?_⟩
    rw [h.line]
    refine ⟨hpause, hlossless, hstate, htimer, fun hon henable hheld hroomy =>
      heldTurnedOff_log (s := s.modPort p (Port.written b)) hon henable hheld hdrops hroomy, fun hon henable =>
      ⟨fun hheld => ?_, fun hspent hformats hloop hinv hworks hroomy => ?_, fun hheld => ?_, fun hheld => ?_⟩⟩
    · obtain ⟨hwaits, hworks, hqueue⟩ := heldStays_spec (s := s.modPort p (Port.written b)) hon henable hheld hdrops
      refine ⟨hwaits, hworks, hqueue, fun hloop hinv hroomy => ?_⟩
      obtain ⟨hplain, hformatted⟩ := heldStays_log (s := s.modPort p (Port.written b)) hon henable hheld hdrops
        (Settings.not_turnsPins hloop hinv) hroomy
      split
      · exact hformatted ‹_›
      · rw [List.append_nil]
        exact hplain ‹_›
    · exact spentStays_next (s := s.modPort p (Port.written b)) hon henable (by rw [State.line_modPort, hspent]; decide) hdrops
        (fun hpaused => hworks (.inr hpaused)) (Settings.not_turnsPins hloop hinv) hformats hroomy
    · exact (unheldStays_work (s := s.modPort p (Port.written b)) hon henable hheld hdrops).1
    · exact (unheldStays_work (s := s.modPort p (Port.written b)) hon henable hheld hdrops).2
  case level =>
    obtain ⟨t, hexec, h⟩ := exec_settings_applied hends
    intro x old fresh changed level hon henable hhold hpaused hroomy
    refine ⟨t, hexec, ?_⟩
    rw [h.line]
    by_cases hpins : old.turnsPins new
    · obtain ⟨hpin, hlevel, hreceiver, hedge, hspacing, hmarking⟩ := turnsPins_spec (s := s.modPort p (Port.written b)) (l := l)
        hon henable hhold hpaused hpins (levelAfresh_pinsNext (s := s.modPort p (Port.written b)) (l := l) hhold hpaused hroomy)
      refine ⟨hpin, fun hsame => absurd hpins hsame, fun _ => ⟨hlevel, hreceiver, hedge, hspacing, fun hmark => ?_⟩⟩
      obtain ⟨htimer, hrun, hdown, hbreak⟩ := hmarking hmark
      refine ⟨htimer, hrun, hdown, fun hbrk => ?_⟩
      obtain ⟨hstate, hnull, hlatches, hlogs⟩ := hbreak hbrk
      exact ⟨hstate, hnull, h.latchesEvent hlatches, fun hopened hdivisor hformat => h.logsEvent (hlogs hopened hdivisor hformat)⟩
    · obtain ⟨hpin, hlevel, hreceiver⟩ := pins_kept (s := s.modPort p (Port.written b)) hon henable hpins
      exact ⟨hpin, fun _ => ⟨hlevel, hreceiver⟩, fun hchanged => absurd hchanged hpins⟩
  case levelOn =>
    obtain ⟨t, hexec, h⟩ := exec_settings_applied hends
    intro x level hoff henable hloop
    have hlevel := levelAfresh_onBegun (s := s.modPort p (Port.written b)) (l := l) hloop
    refine ⟨t, hexec, ?_⟩
    rw [h.line]
    exact turnedOn_told (s := s.modPort p (Port.written b)) hoff henable hlevel
  case timers =>
    obtain ⟨t, hexec, h⟩ := exec_settings_applied hends
    obtain ⟨-, -, hlease⟩ := applySettings_inForce (s.modPort p (Port.written b)) l new
    refine ⟨t, hexec, ?_⟩
    rw [h.line]
    refine ⟨fun hold hne => ?_, fun hflow => ⟨fun hoff henable => ?_, fun hon henable hhunt hdivisor hformat hloop hinv hroomy => ?_⟩⟩
    · rw [hlease]
      exact Line.leaseSet_of_kept (x := s.line l) _ hold hne
    · exact staysOff_hold (s := s.modPort p (Port.written b)) hoff henable (Line.dropsFlow_of_not hflow)
    · exact keptStays_timers (s := s.modPort p (Port.written b)) hon henable (Line.dropsFlow_of_not hflow)
        (Settings.not_turnsPins hloop hinv) (Line.not_formats hhunt hdivisor hformat) hroomy

end Sys2Proof.Machine
end
